-- ==== Sys2Proof/Config.lean ====
section
/-! DEFINITION. What the spec leaves to the implementation, to firmware or to the environment: opaque constants with
no body, so that no proof can see a value of one and every statement holds whatever they are. Each takes a plain
counter of the state (`State.free`) or the operands it depends on. Log entries 3, 4, 7 to 12. -/

namespace Sys2Proof.Config

/-- An unspecified value of 64 bits (R59, R60, R79, R396); log entry 3. -/
opaque freeDouble : Nat → BitVec 64

/-- An unspecified value of 32 bits: element `i` of the `n`-th unspecified array (R261); log entry 3. -/
opaque freeWord : Nat → Nat → BitVec 32

/-- An unspecified truth value; log entry 3. -/
opaque freeBit : Nat → Bool

/-- An unspecified byte: byte `i` of the `n`-th unspecified range (R219, R292); log entry 3. -/
opaque freeByte : Nat → Nat → BitVec 8

/-- How many reference cycles a variable-latency action takes (R79); log entry 4. -/
opaque latency : Nat → Nat

/-- Which line of a full L1D set, L2 slice or hub cache is evicted (R347 gives no policy); log entry 7. -/
opaque victim : Nat → Nat

/-- The fixed hash of a line address onto the L2's slices (R348 names it h and does not give it); log entry 7. -/
opaque slice : Nat → Nat

/-- The step of 4 MiB of the L2 that holds a line (R219, R348 give no mapping); log entry 7. -/
opaque l2Step : Nat → Nat

/-- Whether the translation caches still hold the entry of a page at a reference cycle (R364 gives no policy); log entry 7. -/
opaque tlbKeeps : Nat → Nat → Bool

/-- What the home of another package makes of a request to a page of its aperture: tenant, page and access kind. 0 it is
performed, 1 the page has no valid leaf, 2 the leaf refuses it, any other: it waits (R362, R365); log entry 8. -/
opaque remoteOutcome : Nat → Nat → Nat → Nat

/-- A byte of another package's memory before this package writes it; log entry 8. -/
opaque remoteByte : Nat → BitVec 8

/-- The exponents of the blocks that start in a line of another package, and the bfp code of its window: none where no
window covers it (R162); log entry 8. -/
opaque remoteSide : Nat → Option (Nat × List (Nat × BitVec 8))

/-- The UALink ports that the pod's route table names for a package, in the order of their use (R574); log entry 27. -/
opaque routes : Nat → List Nat

/-- The DDR5 channel of a line by its physical address (R351 interleaves the stacks and does not say which channel holds a line);
log entry 27. -/
opaque channel : Nat → Nat

/-- The firmware energy table: class, element width in bits and voltage step (R441); log entry 9. -/
opaque energy : Nat → Nat → Nat → Nat

/-- The level the package budget allows core `c` at the `n`-th re-grant (R443); log entry 10. -/
opaque budgetLevel : Nat → Nat → Nat

/-- A sensor reading in °C of physical core `c` at the `n`-th refresh (R451); log entry 3. -/
opaque reading : Nat → Nat → BitVec 8

/-- SM3 of a message, given as its doubles (R464, R465); log entry 11. -/
opaque sm3 : List (BitVec 64) → BitVec 256

/-- Whether an SM2 signature of a digest verifies under a public key (R464); log entry 11. -/
opaque sm2Verifies : List (BitVec 64) → BitVec 256 → BitVec 512 → Bool

/-- The SM2 signature of a digest under a private key (R465); log entry 11. -/
opaque sm2Sign : BitVec 256 → BitVec 256 → BitVec 512

/-- The private key of the identity that comes of the fused secret and the boot image's SM3 (R465); log entry 11. -/
opaque identityKey : BitVec 256 → BitVec 256 → BitVec 256

/-- The fused hash of the key that signs images (R464); log entry 11. -/
opaque fusedKeyHash : BitVec 256

/-- The fused minimum version of an image (R464); log entry 11. -/
opaque fusedVersion : Nat

/-- The fused secret (R465); log entry 11. -/
opaque fusedSecret : BitVec 256

/-- The hub IOMMU: the page of host memory under an I/O virtual page, of 4 KiB, of a host-link function (R463); log entry 12. -/
opaque iommu : Nat → Nat → Option Nat

/-- The hub IOMMU: the page of the intermediate space under an I/O virtual page of BAR4, of 4 KiB, of a host-link function (R463); log
entry 12. -/
opaque bar4 : Nat → Nat → Option Nat

/-- Whether a host-link function owns a PASID (R463); log entry 12. -/
opaque ownsPasid : Nat → Nat → Bool

end Sys2Proof.Config
end

