-- ==== Sys2Proof/Word.lean ====
section
/-! DEFINITION. The word types of the machine (spec/00_scope.md R3, spec/02_work_hierarchy.md R34). -/

namespace Sys2Proof

/-- A byte, 8 bits (R3). -/
abbrev Byte := BitVec 8

/-- A half, 16 bits (R3). -/
abbrev Half := BitVec 16

/-- A word, 32 bits (R3). -/
abbrev Word32 := BitVec 32

/-- A double, 64 bits (R3). -/
abbrev Double := BitVec 64

/-- A vector register: lane i holds bits 32i + 31 to 32i of its 2,048 bits (R34). -/
abbrev VReg := Vector Word32 64

end Sys2Proof
end

