-- ==== Sys2Proof/Syntax.lean ====
section
/-! DEFINITION. The instructions and events of the machine: one constructor of `Instr` per row of
spec/opcode_table.json. A slot operation carries every bit of its word, split into the fields of
spec/04_bundle_encoding.md, so that no bit of an encoding is lost: a reserved value is not refused by
the decoder but raises its cause when the operation issues (R498, R499), and `Instr.wf`
(Sys2Proof/WellFormed.lean) says which values those are. The rows that are events of the machine have no word;
what an occurrence of one names (a team, a queue, a register value) is an `Occ`, which the state holds. -/

namespace Sys2Proof

/-- The eight slots of a bundle (R8, R105), numbered 0 to 7. -/
inductive Slot where
  | ct | sx | ad | ls | vx | mx | rx | dx
  deriving DecidableEq, Repr

/-- The register form of SX, AD and VX (R114): `g` is the guard of SX and AD and the lane mask of VX. -/
structure RForm where
  d : BitVec 6
  a : BitVec 6
  b : BitVec 6
  g : BitVec 3
  fn : BitVec 5
  deriving DecidableEq, Repr

/-- The I form of SX and AD (R114). -/
structure IForm where
  d : BitVec 6
  a : BitVec 6
  imm : BitVec 14
  deriving DecidableEq, Repr

/-- The L form of SX (R114). -/
structure LForm where
  d : BitVec 6
  imm : BitVec 20
  deriving DecidableEq, Repr

/-- The LS word (R118). -/
structure LsForm where
  data : BitVec 6
  a : BitVec 4
  pi : BitVec 1
  ty : BitVec 3
  low : BitVec 12
  deriving DecidableEq, Repr

/-- The MX word (R122); MRD, MWR and MSCL lay the bits of aA to rel out in their own way (R124). -/
structure MxForm where
  z : BitVec 3
  aA : BitVec 4
  aB : BitVec 4
  n16 : BitVec 6
  msel : BitVec 2
  fmt : BitVec 4
  clr : BitVec 1
  hold : BitVec 1
  rel : BitVec 1
  deriving DecidableEq, Repr

/-- The MRD and MWR layout (R124): the v-register in bits 22:17, the row in 16:10, the half in bit 9. -/
structure MrForm where
  z : BitVec 3
  v : BitVec 6
  row : BitVec 7
  half : BitVec 1
  low : BitVec 9
  deriving DecidableEq, Repr

/-- The MSCL layout (R124): the signed k in bits 22:15. -/
structure MsForm where
  z : BitVec 3
  k : BitVec 8
  n16 : BitVec 6
  msel : BitVec 2
  low : BitVec 7
  deriving DecidableEq, Repr

/-- The RX word (R125). -/
structure RxForm where
  vd : BitVec 6
  va : BitVec 6
  vb : BitVec 6
  op : BitVec 8
  deriving DecidableEq, Repr

/-- The DX word (R126). -/
structure DxForm where
  aD : BitVec 4
  aS : BitVec 4
  cr : BitVec 6
  f : BitVec 12
  deriving DecidableEq, Repr

/-- A context word with the operand layout (R127, R128). -/
structure CxForm where
  d : BitVec 2
  a : BitVec 2
  b : BitVec 2
  i : BitVec 1
  t : BitVec 1
  k : BitVec 16
  deriving DecidableEq, Repr

/-- A resident slot of a logical core of a compute die (R39, R41). -/
structure TeamRef where
  die : Nat
  lcore : Nat
  rslot : Nat
  deriving DecidableEq, Repr

/-- The storage arrays that carry a check code (R487, R539). -/
inductive ArrayKind where
  | lm | l1d | l2 | hubCache | istore | accumulator | registers | tri | latch | contextCode
  | weightStore | directory | schedulerTable | hbm | ddr
  deriving DecidableEq, Repr

/-- The agents that write hub registers (R358). -/
inductive HubAgent where
  | firmware
  | supervisor (die cove : Nat)
  | physicalFunction
  | virtualFunction (fn : Nat)
  | team (tenant : Nat)
  deriving DecidableEq, Repr

/-- What a passenger's capability table says at enumeration (R23, R30). -/
structure Passport where
  kind : BitVec 8
  profile : Nat
  deriving DecidableEq, Repr

/-- What a request from outside the package does at the home: a read of so many bytes, a write of the bytes that it
carries, or an atomic on a value of so many bytes (R456, R461, R463). -/
inductive PortOp where
  | read (size : Nat)
  | write
  | amo (op size : Nat)
  | vamo (op : Nat)
  | cas (new : List Byte)
  /-- a wake of `n` waiters of the key that `ipa` holds as a VA (R198, R415) -/
  | wake (n : Nat)
  /-- the waiter `who` of package `pkg` joins the waiters of a key, or leaves them (R411, R415) -/
  | wait (pkg who : Nat)
  | unwait (pkg who : Nat)
  /-- the answer to a waiter of this package that stands in another's table: woken, or refused by a full table (R415, R548) -/
  | woken (who : Nat) (ok : Bool)
  deriving DecidableEq, Repr

/-- A request that arrives at a UALink or Ultra Ethernet port (R455), or from the host (R463). -/
structure PortReq where
  tenant : Nat
  key : Double
  ipa : Nat
  /-- the bytes written, the operand of an atomic, the value that a CAS compares with -/
  data : List Byte
  op : PortOp
  /-- the package that it comes from -/
  pkg : Nat := 0
  deriving DecidableEq, Repr

/-- The configuration of a partition (R453, R396, R365): its dies in this package, page-fault mode, classes, its tenants with
their windows, and the host-link functions bound to them. -/
structure Partition where
  id : Nat
  dies : List Nat
  demand : Bool
  classM : List Nat
  classI : List Nat
  vwin : List (Nat × Vector Double 8)
  vfTenant : List (Nat × Nat)
  deriving DecidableEq, Repr

/-- A boot image as it arrives (R464): its words, the key and the signature that it is checked by, its version, and the operating
system and the supervisors' firmware that it brings (R465); the epoch comes with it (R492), and with it what the firmware that it starts finds and loads: the package number, the partitions' configurations,
the ownership table, by 2 MiB the partition's place in that list and the fault service (R365, R453, R465), the DDR5 that is populated,
the host link's lanes and protocols, the latency profiles by die (R31), and the refresh phase (R306). -/
structure BootImage where
  words : List Double
  version : Nat
  key : List Double := []
  signature : BitVec 512 := 0
  system : List Double := []
  firmware : List (List Double) := []
  epoch : Word32
  package : Nat := 0
  partitions : List Partition := []
  owners : List (Nat × Nat × Nat) := []
  ddr : Nat := 0
  chan : Byte := 0
  width : Nat := 16
  cxl : BitVec 2 := 0
  profiles : List Nat := []
  phase : Nat := 0
  deriving DecidableEq, Repr

/-- What an occurrence of an event names; each event reads the fields it needs and ignores the others. -/
structure Occ where
  team : TeamRef := { die := 0, lcore := 0, rslot := 0 }
  die : Nat := 0
  core : Nat := 0
  id : Nat := 0
  aux : Nat := 0
  tenant : Nat := 0
  w : Double := 0
  ok : Bool := true
  agent : HubAgent := .firmware
  arr : ArrayKind := .lm
  passport : Passport := { kind := 0, profile := 0 }
  req : PortReq := { tenant := 0, key := 0, ipa := 0, data := [], op := .read 8 }
  image : BootImage := { words := [], version := 0, epoch := 0 }
  deriving DecidableEq, Repr

/-- One constructor per row of spec/opcode_table.json: the slot and context operations in the table's order,
then the events. -/
inductive Instr where
  -- control slot (R113)
  | nop (slot : Slot)
  | br (off : BitVec 14)
  | brc (mode : BitVec 2) (reg : BitVec 4) (off : BitVec 8)
  | brm (sense : BitVec 1) (tested active : BitVec 3) (off : BitVec 7)
  | call (off : BitVec 14)
  | jmpr (reg : BitVec 6) (link : BitVec 1) (z : BitVec 7)
  | ret (z : BitVec 14)
  | loop (cf : BitVec 1) (len : BitVec 4) (cnt : BitVec 9)
  | rept (cf : BitVec 1) (len : BitVec 4) (cnt : BitVec 9)
  | yield (sel : BitVec 2) (b : BitVec 12)
  | node (sel : BitVec 2) (b : BitVec 12)
  | endTeam (z : BitVec 14)
  | bara (bar : BitVec 4) (z : BitVec 10)
  | barw (bar : BitVec 4) (z : BitVec 10)
  | barc (bar : BitVec 4) (cnt : BitVec 6) (z : BitVec 4)
  | waitx (ev : BitVec 4) (t : BitVec 10)
  | clkdiv (dom : BitVec 2) (dv : BitVec 4) (z : BitVec 8)
  | pwrq (level : BitVec 4) (z : BitVec 10)
  | svc (num : BitVec 14)
  | brk (code : BitVec 14)
  | wwait (reg : BitVec 6) (t : BitVec 8)
  | wwake (reg : BitVec 6) (n : BitVec 8)
  | refw (group : BitVec 3) (z : BitVec 11)
  -- SX (R116)
  | add (f : RForm) | sub (f : RForm) | mul (f : RForm) | mulh (f : RForm)
  | div (f : RForm) | rem (f : RForm) | and (f : RForm) | or (f : RForm) | xor (f : RForm)
  | shl (f : RForm) | shr (f : RForm) | shra (f : RForm) | clz (f : RForm) | popc (f : RForm)
  | min (f : RForm) | max (f : RForm) | cmp (f : RForm) | cmpi (f : IForm) | sel (f : RForm)
  | addi (f : IForm) | andi (f : IForm) | ori (f : IForm) | xori (f : IForm)
  | shli (f : IForm) | shri (f : IForm) | shrai (f : IForm) | ext (f : IForm) | ins (f : IForm)
  | li (f : LForm) | lih (f : LForm)
  | fadd (f : RForm) | fsub (f : RForm) | fmul (f : RForm) | ffma (f : RForm)
  | fdiv (f : RForm) | fsqrt (f : RForm) | fmin (f : RForm) | fmax (f : RForm)
  | fcmp (f : RForm) | fcvt (f : RForm) | fclass (f : RForm) | fsgn (f : RForm)
  | pand (f : RForm) | por (f : RForm) | pxor (f : RForm) | pmov (f : RForm)
  -- AD (R117)
  | amov (f : RForm) | aget (f : RForm) | aadd (f : RForm) | aaddi (f : IForm)
  | dset (f : RForm) | dget (f : RForm) | lea (f : RForm) | csrr (f : RForm) | csrw (f : RForm)
  | fence (f : RForm) | xfence (f : RForm) | phase (f : RForm) | launch (f : RForm)
  | pref (f : RForm) | relw (f : RForm)
  -- LS (R120)
  | ld (f : LsForm) | st (f : LsForm) | ldv (f : LsForm) | stv (f : LsForm)
  | ldvs (f : LsForm) | stvs (f : LsForm) | ldvg (f : LsForm) | stvx (f : LsForm)
  | lda (f : LsForm) | stl (f : LsForm) | amo (f : LsForm) | cas (f : LsForm) | vamo (f : LsForm)
  | cwb (f : LsForm) | cinv (f : LsForm) | cflush (f : LsForm)
  | rput (f : LsForm) | rget (f : LsForm) | rfree (f : LsForm) | ldsc (f : LsForm)
  -- VX (R121)
  | vadd (f : RForm) | vsub (f : RForm) | vmul (f : RForm) | vfma (f : RForm)
  | vmin (f : RForm) | vmax (f : RForm) | vabs (f : RForm)
  | vand (f : RForm) | vor (f : RForm) | vxor (f : RForm)
  | vshl (f : RForm) | vshr (f : RForm) | vshra (f : RForm)
  | vcmp (f : RForm) | vsel (f : RForm) | vcvt (f : RForm) | vpack (f : RForm) | vunpk (f : RForm)
  | vred (f : RForm) | vscan (f : RForm) | vperm (f : RForm) | vshuf (f : RForm)
  | vbcast (f : RForm) | vext (f : RForm) | vins (f : RForm) | viota (f : RForm)
  | vrcp (f : RForm) | vrsq (f : RForm) | vexp2 (f : RForm) | vlog2 (f : RForm) | vdot (f : RForm)
  | mand (f : RForm) | mor (f : RForm) | mxor (f : RForm) | mnot (f : RForm)
  | mpop (f : RForm) | mfirst (f : RForm) | vhold (f : RForm)
  -- MX (R124)
  | mma (f : MxForm) | mldb (f : MxForm) | mrel (f : MxForm) | mzero (f : MxForm)
  | mrd (f : MrForm) | mwr (f : MrForm) | mstz (f : MxForm) | mldz (f : MxForm) | mscl (f : MsForm)
  -- RX (R125)
  | rzero (f : RxForm) | rfeed (f : RxForm) | rfeedl (f : RxForm) | rqapp (f : RxForm)
  | rread (f : RxForm) | rreadSt (f : RxForm) | rrhs (f : RxForm) | rrhsSt (f : RxForm)
  | rsolve (f : RxForm) | rlay (f : RxForm) | rlayi (f : RxForm) | rvec (f : RxForm)
  | angc (f : RxForm) | rgain (f : RxForm) | rgainTri (f : RxForm)
  -- DX (R126)
  | cpy (f : DxForm) | cpy2 (f : DxForm) | cpyl (f : DxForm) | cpyg (f : DxForm) | cpyr (f : DxForm)
  | rinit (f : DxForm) | wsld (f : DxForm) | shoal (f : DxForm) | tide (f : DxForm) | tideq (f : DxForm)
  | reefLd (f : DxForm) | reefSt (f : DxForm) | reefWake (f : DxForm) | reefClr (f : DxForm)
  | ctxi (f : DxForm)
  -- context code (R129)
  | cnop
  | cadd (f : CxForm) | csub (f : CxForm) | cmul (f : CxForm) | cfma (d a b : BitVec 2) (t : BitVec 1)
  | cmin (f : CxForm) | cmax (f : CxForm)
  | cand (d a b : BitVec 2) (i : BitVec 1) (k : BitVec 16)
  | cor (d a b : BitVec 2) (i : BitVec 1) (k : BitVec 16)
  | cxor (d a b : BitVec 2) (i : BitVec 1) (k : BitVec 16)
  | cshl (d a b : BitVec 2) (i : BitVec 1) (k : BitVec 16)
  | cshr (d a b : BitVec 2) (i : BitVec 1) (k : BitVec 16)
  | cli (d : BitVec 2) (t : BitVec 1) (k : BitVec 16)
  | cmov (d a : BitVec 2)
  | ccmp (f : CxForm)
  | cbr (c : BitVec 1) (t : BitVec 12)
  | cj (t : BitVec 12)
  | cldn (d : BitVec 2) (n : BitVec 20)
  | clde (d a : BitVec 2) (n : BitVec 20)
  | cste (a : BitVec 2)
  | cwake (n : BitVec 20)
  | cwait (c : BitVec 4)
  | csleep
  | cdone
  | cemit (a : BitVec 2) (t : BitVec 1) (o : BitVec 2)
  | catom (d a : BitVec 2) (t : BitVec 1) (o : BitVec 2)
  | ccvt (d a : BitVec 2) (v : BitVec 1)
  -- a word of an unassigned opcode (R497)
  | unassignedOpcode (slot : Slot) (w : Word32)
  -- the events: what an occurrence names (a team, a queue, a register value) stands in the state's `occ`
  | resultLands | variableOpComplete | writeAcknowledge | sBundleComplete
  | wBundleComplete | energyWindowEnd | barrierArrival | clusterStart
  | budgetOverrun | waitxTimeout | wwaitTimeout | copyComplete
  | cpylProgress | mmaWrite | tideChunkLoad | chunkCommit
  | sweepPause | tideEnd | refreshWindowStart | refreshWindowEnd
  | fetchFault | deferredTrap | demandFaultNotice | tresResume
  | tresSkip | tresEnd | svdone | boundarySave
  | clusterRestore | thermalTrip | migrationMove | sensorReading
  | regrant | coveGate | coveWakeRequest | coveWakeGrant
  | coveUsable | covePowerupFail | homeRequest | fresRetry
  | fresDecline | faultRequestTimeout | htinvPage | htinvTenant
  | htinvAll | htinvDone | regionMerge | queueRegister
  | queueNotify | graphKick | packetStart | packetRetire
  | hdrTimeout | depTimeout | runTimeout | depFallbackPoll
  | workingSetTimeout | tkill | hwkeyArm | hwake
  | svfail | dieProbe | ucieLinkDown | dieResetDone
  | passengerEnumerate | passengerIsolate | controlDieCrash | laneFail
  | portDown | remoteRequestTimeout | portRequest | keyFailureResponse
  | flitCrcFail | hostBar4Request | scaleoutRegister | scaleoutDoorbell
  | scaleoutEntryDone | checkCodeError | packageReset | bootImageOffer
  | registerWrite | tileFetchLineArrival | workingSetAnswer | portTrained
  deriving DecidableEq, Repr

end Sys2Proof
end

