-- ==== Sys2Proof/WellFormed.lean ====
section
/-! DEFINITION. Which instructions hold no reserved value: `Instr.wf` (R498 of
spec/21_instruction_faults.md, with the field tables of spec/04_bundle_encoding.md). A slot operation that is
not well formed raises 0x0011 when it issues; a context operation that is not raises a context fault (R519).
An event has no field. -/

namespace Sys2Proof

/-- A shared scope code (R112): 0 core to 5 sys. -/
def scopeOk (s : BitVec 3) : Bool := s ≤ 5

/-- A shared rounding code (R112): 0 team mode to 4 dn. -/
def rmOk (r : BitVec 3) : Bool := r ≤ 4

/-- The low three bits of a 6-bit field name the register; the upper three are zero (R111). -/
def low3 (x : BitVec 6) : Bool := x.extractLsb' 3 3 == 0

/-- The low four bits of a 6-bit field name the register; the upper two are zero (R111). -/
def low4 (x : BitVec 6) : Bool := x.extractLsb' 4 2 == 0

/-- A v-register written: v63 is reserved as a destination (R111). -/
def vDst (x : BitVec 6) : Bool := x != 63

namespace RForm

/-- fn<4:3>: iw, vt or the floating format, as the row says (R116, R121). -/
def hi2 (f : RForm) : BitVec 2 := f.fn.extractLsb' 3 2

/-- fn<2:0>: rm, op or scope, as the row says. -/
def lo3 (f : RForm) : BitVec 3 := f.fn.extractLsb' 0 3

/-- ADD and SUB: fn<0> = 0 (R116). -/
def okAdd (f : RForm) : Bool := f.fn.getLsbD 0 == false

/-- The other integer rows: st = 0 and fn<0> = 0 (R116). -/
def okInt (f : RForm) : Bool := f.fn.extractLsb' 0 2 == 0

/-- CLZ and POPC: b = 0, sg = 0 (R116). -/
def okUnary (f : RForm) : Bool := f.b == 0 && f.lo3 == 0

/-- CMP: icond 7 is reserved (R112). -/
def okCmp (f : RForm) : Bool := f.d.extractLsb' 3 3 != 7 && f.lo3 == 0

/-- Scalar floating arithmetic: format f32 or f64, rm listed (R116). -/
def okFp (f : RForm) : Bool := f.hi2 ≤ 1 && rmOk f.lo3

/-- Scalar floating rows with no rounding field (R116). -/
def okFp0 (f : RForm) : Bool := f.hi2 ≤ 1 && f.lo3 == 0

/-- Predicate logic (R116). -/
def okPred (f : RForm) : Bool := low3 f.d && low3 f.a && low3 f.b && f.fn.extractLsb' 1 4 == 0

/-- PMOV: selector 3 is reserved (R116). -/
def okPmov (f : RForm) : Bool :=
  f.b == 0 && f.fn.extractLsb' 2 3 == 0 &&
    (match f.fn.extractLsb' 0 2 with
     | 0 => low3 f.d && low3 f.a
     | 1 => low3 f.d
     | 2 => low3 f.a
     | _ => false)

/-- VADD, VSUB and VMUL (R121): vt f32 rounds under rm, integer views use fn<0> alone. -/
def okVArith (f : RForm) : Bool :=
  vDst f.d && (if f.hi2 == 2 then rmOk f.lo3 else f.fn.extractLsb' 1 2 == 0)

/-- VABS (R121). -/
def okVabs (f : RForm) : Bool :=
  vDst f.d && f.b == 0 && (if f.hi2 == 2 then f.lo3 == 0 else f.fn.extractLsb' 1 2 == 0)

/-- VCMP (R249): icond for vt 0 and 1, fcond for f32, vt i16 pairs reserved. -/
def okVcmp (f : RForm) : Bool :=
  f.lo3 == 0 &&
    (match f.hi2 with
     | 2 => f.d.extractLsb' 3 3 ≤ (4 : BitVec 3)
     | 3 => false
     | _ => f.d.extractLsb' 3 3 != 7)

/-- VSHUF patterns that R255 lists. -/
def shufOk (p : BitVec 5) : Bool :=
  p ≤ 4 || (8 ≤ p && p ≤ 13) || (16 ≤ p && p ≤ 21) || p == 24 || p == 25

/-- Mask logic (R121). -/
def okMask (f : RForm) : Bool := low3 f.d && low3 f.a && low3 f.b && f.g == 0 && f.fn == 0

/-- How many paths a XFENCE names (R117). -/
def pathCount (p : BitVec 4) : Nat :=
  (p.getLsbD 0).toNat + (p.getLsbD 1).toNat + (p.getLsbD 2).toNat + (p.getLsbD 3).toNat

end RForm

namespace LsForm

/-- Bits 11:9 hold the scope or the ring (R120). -/
def hi3 (f : LsForm) : BitVec 3 := f.low.extractLsb' 9 3

/-- The ring forms: a and pi are 0 (R239). -/
def okRing (f : LsForm) : Bool := f.a == 0 && f.pi == 0

/-- AMO and CAS take types 4, 5 and 6 (R236). -/
def okAtomTy (f : LsForm) : Bool := 4 ≤ f.ty && f.ty ≤ 6

/-- The cache maintenance forms (R120, R239). -/
def okCache (f : LsForm) : Bool :=
  f.data == 0 && f.ty ≤ 2 && scopeOk f.hi3 && f.low.extractLsb' 0 9 == 0 && (f.ty != 2 || f.pi == 0)

end LsForm

/-- ⌈N/128⌉ tiles from z, for N = 16 × n16, end at z7 or before (R122). -/
def tileSpanOk (z : BitVec 3) (n16 : BitVec 6) : Bool := z.toNat + (n16.toNat + 7) / 8 ≤ 8

/-- n16, msel and the tile span of a shaped MX operation (R122). -/
def shapeOk (z : BitVec 3) (n16 : BitVec 6) (msel : BitVec 2) : Bool :=
  n16 != 0 && msel != 3 && tileSpanOk z n16

namespace MxForm

/-- The flags that only MMA uses are clear (R124). -/
def noFlags (f : MxForm) : Bool := f.clr == 0 && f.hold == 0 && f.rel == 0

end MxForm

namespace CxForm

/-- The operand layout (R128): with I = 1 srcB is 0; with I = 0 imm16 is 0. -/
def ok (f : CxForm) : Bool := if f.i == 1 then f.b == 0 else f.k == 0

end CxForm

/-- The operand layout of the context logic rows (R128). -/
def cxOk (b : BitVec 2) (i : BitVec 1) (k : BitVec 16) : Bool := if i == 1 then b == 0 else k == 0

/-- No reserved value stands in the instruction (R498, R519). -/
def Instr.wf : Instr → Bool
  | .nop _ => true
  | .br _ => true
  | .brc mode reg _ => 2 ≤ mode || reg.getLsbD 3 == false
  | .brm .. => true
  | .call _ => true
  | .jmpr _ _ z => z == 0
  | .ret z => z == 0
  | .loop cf _ cnt => if cf == 0 then cnt != 0 else cnt.extractLsb' 0 3 == 0
  | .rept cf _ cnt => if cf == 0 then cnt != 0 else cnt.extractLsb' 0 3 == 0
  | .yield _ b => b != 0
  | .node _ b => b != 0
  | .endTeam z => z == 0
  | .bara _ z => z == 0
  | .barw _ z => z == 0
  | .barc _ _ z => z == 0
  | .waitx ev t => ev ≤ 3 && !(ev == 3 && t == 0)
  | .clkdiv dom dv z => 1 ≤ dv && dv ≤ 8 && !(dom == 2 && dv == 1) && z == 0
  | .pwrq _ z => z == 0
  | .svc _ => true
  | .brk _ => true
  | .wwait .. => true
  | .wwake .. => true
  | .refw _ z => z == 0
  | .add f | .sub f => f.okAdd
  | .mul f | .mulh f | .div f | .rem f | .and f | .or f | .xor f
  | .shl f | .shr f | .shra f | .min f | .max f => f.okInt
  | .clz f | .popc f => f.okUnary
  | .cmp f => f.okCmp
  | .cmpi f => f.d.extractLsb' 3 3 != 7
  | .sel f => f.fn == 0
  | .addi _ | .andi _ | .ori _ | .xori _ => true
  | .shli f | .shri f | .shrai f => f.imm.extractLsb' 6 8 == 0
  | .ext f => f.imm.getLsbD 6 == false
  | .ins f => f.imm.extractLsb' 6 2 == 0
  | .li _ => true
  | .lih f => f.imm.extractLsb' 18 2 == 0
  | .fadd f | .fsub f | .fmul f | .ffma f | .fdiv f => f.okFp
  | .fsqrt f => f.okFp && f.b == 0
  | .fmin f | .fmax f => f.okFp0
  | .fcmp f => f.okFp0 && f.d.extractLsb' 3 3 ≤ (4 : BitVec 3)
  | .fcvt f => f.hi2 == 0 && rmOk f.lo3
  | .fclass f => f.okFp0 && f.b == 0
  | .fsgn f => f.hi2 ≤ 1 && f.lo3 ≤ 2
  | .pand f | .por f | .pxor f => f.okPred
  | .pmov f => f.okPmov
  | .amov f | .dset f => low4 f.d && f.b == 0 && f.fn == 0
  | .aget f | .dget f => low4 f.a && f.b == 0 && f.fn == 0
  | .aadd f => low4 f.d && low4 f.a && f.fn == 0
  | .aaddi f => low4 f.d && low4 f.a
  | .lea f => low4 f.a && f.hi2 == 0
  | .csrr f | .csrw f => f.fn == 0
  | .fence f => f.hi2 != 3 && scopeOk f.lo3 && f.d == 0 && f.a == 0 && f.b == 0
  | .xfence f =>
      low4 f.b && 2 ≤ RForm.pathCount (f.b.extractLsb' 0 4) && f.d == 0 && f.a == 0 && f.fn == 0
  | .phase f => f.b ≤ 8 && f.d == 0 && f.a == 0 && f.fn == 0
  | .launch f => f.fn == 0
  | .pref f => f.d == 0 && low4 f.a && f.fn ≤ 2
  | .relw f => f.hi2 == 0 && scopeOk f.lo3 && f.d == 0 && f.a == 0 && f.b == 0
  | .ld f | .st f => f.ty ≤ 6
  | .ldv f => f.ty ≤ 4 && vDst f.data
  | .stv f => f.ty ≤ 4
  | .ldvs f => f.ty ≤ 4 && vDst f.data && f.low.extractLsb' 0 3 == 0
  | .stvs f => f.ty ≤ 4 && f.low.extractLsb' 0 3 == 0
  | .ldvg f => f.ty ≤ 4 && vDst f.data && f.low.getLsbD 0 == false
  | .stvx f => f.ty ≤ 4 && f.low.getLsbD 0 == false
  | .lda f => f.ty ≤ 6 && scopeOk f.hi3
  | .stl f => f.ty ≤ 6 && scopeOk f.hi3 && f.low.getLsbD 8 == false
  | .amo f => f.okAtomTy && scopeOk f.hi3 && f.low.extractLsb' 5 4 ≤ (8 : BitVec 4) && f.low.extractLsb' 0 5 == 0
  | .cas f => f.okAtomTy && scopeOk f.hi3 && f.low.extractLsb' 0 9 == 0 && f.data.getLsbD 0 == false && f.data != 0
  | .vamo f => scopeOk f.ty && vDst f.data
  | .cwb f | .cinv f | .cflush f => f.okCache
  | .rput f => f.okRing && 6 ≤ f.ty && f.low.extractLsb' 0 9 == 0
  | .rget f => f.okRing && 6 ≤ f.ty && f.low.extractLsb' 0 9 == 0 && (f.ty == 6 || vDst f.data)
  | .rfree f => f.okRing && f.data == 0 && f.ty == 0
  | .ldsc f => f.ty == 1
  | .vadd f | .vsub f | .vmul f => f.okVArith
  | .vfma f => vDst f.d && f.hi2 == 2 && rmOk f.lo3
  | .vmin f | .vmax f => vDst f.d && f.lo3 == 0
  | .vabs f => f.okVabs
  | .vand f | .vor f | .vxor f => vDst f.d && f.fn == 0
  | .vshl f | .vshr f | .vshra f => vDst f.d && f.hi2 != 2 && f.lo3 == 0
  | .vcmp f => f.okVcmp
  | .vsel f => vDst f.d && f.fn == 0
  | .vcvt f =>
      vDst f.d && f.b.extractLsb' 3 3 != 7 && f.b.extractLsb' 0 3 != 7 && f.hi2 == 0 && rmOk f.lo3
  | .vpack f => vDst f.d && f.hi2 == 0 && f.lo3 != 7 && f.g == 0
  | .vunpk f => vDst f.d && f.hi2 == 0 && f.lo3 != 7 && f.g == 0
  | .vred f | .vscan f => vDst f.d && f.b == 0 && f.lo3 ≤ 5
  | .vperm f => vDst f.d && f.fn == 0
  | .vshuf f => vDst f.d && RForm.shufOk f.fn
  | .vbcast f => vDst f.d && f.b == 0 && f.lo3 == 0
  | .vext f => f.hi2 != 3 && f.lo3 == 0 && f.g == 0
  | .vins f => vDst f.d && f.g == 0 && f.fn == 0
  | .viota f => vDst f.d && f.a == 0 && f.b == 0 && f.fn == 0
  | .vrcp f | .vrsq f | .vexp2 f | .vlog2 f => vDst f.d && f.b == 0 && f.hi2 == 2 && f.lo3 == 0
  | .vdot f => vDst f.d && (if f.hi2 == 2 then rmOk f.lo3 else f.lo3 == 0)
  | .mand f | .mor f | .mxor f => f.okMask
  | .mnot f => f.okMask && f.b == 0
  | .mpop f | .mfirst f => low3 f.a && f.b == 0 && f.g == 0 && f.fn == 0
  | .vhold f => f.d == 0 && f.b == 0 && f.g == 0 && f.fn == 0
  | .mma f => shapeOk f.z f.n16 f.msel && f.fmt ≤ 10 && !(f.aB == 15 && f.hold == 1)
  | .mldb f =>
      f.z == 0 && f.aA == 0 && f.aB != 15 && f.n16 != 0 && f.msel == 0 && f.fmt ≤ 10 && f.noFlags
  | .mrel f =>
      f.z == 0 && f.aB == 0 && f.n16 == 0 && f.msel == 0 && f.fmt == 0 && f.noFlags
  | .mzero f => shapeOk f.z f.n16 f.msel && f.aA == 0 && f.aB == 0 && f.fmt == 0 && f.noFlags
  | .mrd f => f.low == 0 && vDst f.v
  | .mwr f => f.low == 0
  | .mstz f | .mldz f => shapeOk f.z f.n16 f.msel && f.aB == 0 && f.fmt == 0 && f.noFlags
  | .mscl f => shapeOk f.z f.n16 f.msel && f.low == 0
  | .rzero f => f.vd == 0 && f.va == 0 && f.vb == 0 && f.op == 0
  | .rfeed f => f.vd == 0 && f.vb == 0 && f.op.extractLsb' 2 6 == 0
  | .rfeedl f => f.vd == 0 && f.vb == 0 && f.op.extractLsb' 2 2 == 0
  | .rqapp f => vDst f.vd && f.vb == 0 && f.op.extractLsb' 1 7 == 0
  | .rread f => vDst f.vd && f.va == 0 && f.vb == 0 && f.op.extractLsb' 4 4 == 0
  | .rreadSt f => f.vd == 0 && f.vb == 0 && f.op.extractLsb' 4 4 == 1
  | .rrhs f => vDst f.vd && f.va == 0 && f.vb == 0 && f.op == 0
  | .rrhsSt f => f.vd == 0 && f.vb == 0 && f.op == 0x10
  | .rsolve f => vDst f.vd && f.va == 0 && f.vb == 0 && f.op == 0
  | .rlay f | .rlayi f => vDst f.vd && f.op.extractLsb' 5 3 ≤ (5 : BitVec 3) && f.op.extractLsb' 1 4 == 0
  | .rvec f => vDst f.vd && f.vb == 0 && f.op == 0
  | .angc f => vDst f.vd && f.vb == 0 && f.op.extractLsb' 1 7 == 0
  | .rgain f => vDst f.vd && f.vb == 0 && f.op.extractLsb' 6 2 == 0 && f.op.extractLsb' 0 6 != 0
  | .rgainTri f => f.vd == 0 && f.va == 0 && f.vb == 0 && f.op.extractLsb' 6 2 == 1 && f.op.extractLsb' 0 6 != 0
  | .cpy f => f.cr == 0 && f.f.extractLsb' 0 8 != 0 && f.f.extractLsb' 8 4 == 0
  | .cpy2 f => f.cr == 0 && f.f.extractLsb' 0 8 != 0 && f.f.extractLsb' 8 4 != 0
  | .cpyl f => f.aD == 0 && f.cr == 0 && f.f == 0
  | .cpyg f => f.f.extractLsb' 9 3 != 7 && f.f.extractLsb' 0 5 == 0
  | .cpyr f => f.aD == 0 && f.cr == 0 && f.f.getLsbD 8 == false && f.f.extractLsb' 0 8 != 0
  | .rinit f => f.aD == 0 && f.cr == 0 && f.f.extractLsb' 0 9 == 0
  | .wsld f => f.f == 0
  | .shoal f => f.aD == 0 && f.cr == 0 && f.f.extractLsb' 0 10 == 0
  | .tide f => f.aD == 0 && f.aS == 0 && f.f.extractLsb' 0 10 == 0
  | .tideq f => f.aD == 0 && f.aS == 0 && f.f.extractLsb' 8 2 == 0 && f.f.extractLsb' 0 8 != 0
  | .reefLd f => f.aD == 0 && f.cr == 0 && f.f.extractLsb' 0 10 == 0
  | .reefSt f => f.aD == 0 && f.cr == 0 && f.f.extractLsb' 0 10 == 0x100
  | .reefWake f => f.aD == 0 && f.aS == 0 && f.cr == 0 && f.f.extractLsb' 0 10 == 0x200
  | .reefClr f => f.aD == 0 && f.aS == 0 && f.cr == 0 && f.f.extractLsb' 0 10 == 0x300
  | .ctxi f => f.aD == 0 && f.aS == 0 && f.f.extractLsb' 0 10 == 0
  | .cnop => true
  | .cadd f | .csub f | .cmul f | .cmin f | .cmax f | .ccmp f => f.ok
  | .cfma .. => true
  | .cand _ _ b i k | .cor _ _ b i k | .cxor _ _ b i k | .cshl _ _ b i k | .cshr _ _ b i k => cxOk b i k
  | .cli .. | .cmov .. | .cbr .. | .cj .. | .cldn .. | .clde .. | .cste .. | .cwake .. => true
  | .cwait c => c ≤ 1
  | .csleep | .cdone => true
  | .cemit _ _ o => o != 3
  | .catom _ _ _ o => o != 3
  | .ccvt .. => true
  | .unassignedOpcode .. => true
  | .resultLands | .variableOpComplete | .writeAcknowledge | .sBundleComplete | .wBundleComplete
  | .energyWindowEnd | .barrierArrival | .clusterStart | .budgetOverrun | .waitxTimeout
  | .wwaitTimeout | .copyComplete | .cpylProgress | .mmaWrite | .tideChunkLoad
  | .chunkCommit | .sweepPause | .tideEnd | .refreshWindowStart | .refreshWindowEnd
  | .fetchFault | .deferredTrap | .demandFaultNotice | .tresResume | .tresSkip
  | .tresEnd | .svdone | .boundarySave | .clusterRestore | .thermalTrip
  | .migrationMove | .sensorReading | .regrant | .coveGate | .coveWakeRequest
  | .coveWakeGrant | .coveUsable | .covePowerupFail | .homeRequest | .fresRetry
  | .fresDecline | .faultRequestTimeout | .htinvPage | .htinvTenant | .htinvAll
  | .htinvDone | .regionMerge | .queueRegister | .queueNotify | .graphKick
  | .packetStart | .packetRetire | .hdrTimeout | .depTimeout | .runTimeout
  | .depFallbackPoll | .workingSetTimeout | .tkill | .hwkeyArm | .hwake
  | .svfail | .dieProbe | .ucieLinkDown | .dieResetDone | .passengerEnumerate
  | .passengerIsolate | .controlDieCrash | .laneFail | .portDown | .remoteRequestTimeout
  | .portRequest | .keyFailureResponse | .flitCrcFail | .hostBar4Request | .scaleoutRegister
  | .scaleoutDoorbell | .scaleoutEntryDone | .checkCodeError | .packageReset | .bootImageOffer
  | .registerWrite | .tileFetchLineArrival | .workingSetAnswer | .portTrained => true

end Sys2Proof
end

