-- ==== Sys2Proof/Decode.lean ====
section
/-! DEFINITION. Decoding and encoding (spec/04_bundle_encoding.md R105 to R129). A slot or CT word decodes to
the one instruction whose fields hold all its bits; a word whose opcode no row lists, and a word of opcode 0 with
another bit set, decode to `unassignedOpcode`, which raises its cause when it issues (R497, R498). A context word
is refused by name when its opcode is unassigned or a bit that its row leaves unused is set (R519). -/

namespace Sys2Proof

/-- Why bytes are not an instruction. -/
inductive DecodeError where
  /-- fewer bytes than the word or the bundle takes (R105) -/
  | truncated
  /-- a context word of an unassigned opcode (R129, R519) -/
  | contextUnassigned
  /-- a context word with a bit set that its row leaves unused (R128, R129, R519) -/
  | contextReserved
  deriving DecidableEq, Repr

/-- A bundle as dispatch decodes it (R105, R109, R110). -/
structure Bundle where
  mask : BitVec 7
  s : Bool
  w : Bool
  e : BitVec 4
  ct : Word32
  /-- the words of slots 1 to 7; an absent slot holds 0, a NOP (R105, R107) -/
  words : List Word32
  deriving DecidableEq, Repr

/-- The word at the head of a byte string, little-endian (R3). -/
def leWord (b0 b1 b2 b3 : Byte) : Word32 := b3 ++ b2 ++ b1 ++ b0

/-- The four bytes of a word, the lowest address first (R3). -/
def wordBytes (w : Word32) : List Byte :=
  [w.extractLsb' 0 8, w.extractLsb' 8 8, w.extractLsb' 16 8, w.extractLsb' 24 8]

/-- The register form (R114). -/
def rForm (w : Word32) : RForm :=
  { d := w.extractLsb' 20 6, a := w.extractLsb' 14 6, b := w.extractLsb' 8 6, g := w.extractLsb' 5 3,
    fn := w.extractLsb' 0 5 }

/-- The I form (R114). -/
def iForm (w : Word32) : IForm :=
  { d := w.extractLsb' 20 6, a := w.extractLsb' 14 6, imm := w.extractLsb' 0 14 }

/-- The L form (R114). -/
def lForm (w : Word32) : LForm := { d := w.extractLsb' 20 6, imm := w.extractLsb' 0 20 }

/-- The LS word (R118). -/
def lsForm (w : Word32) : LsForm :=
  { data := w.extractLsb' 20 6, a := w.extractLsb' 16 4, pi := w.extractLsb' 15 1, ty := w.extractLsb' 12 3,
    low := w.extractLsb' 0 12 }

/-- The MX word (R122). -/
def mxForm (w : Word32) : MxForm :=
  { z := w.extractLsb' 23 3, aA := w.extractLsb' 19 4, aB := w.extractLsb' 15 4, n16 := w.extractLsb' 9 6,
    msel := w.extractLsb' 7 2, fmt := w.extractLsb' 3 4, clr := w.extractLsb' 2 1, hold := w.extractLsb' 1 1,
    rel := w.extractLsb' 0 1 }

/-- The MRD and MWR layout (R124). -/
def mrForm (w : Word32) : MrForm :=
  { z := w.extractLsb' 23 3, v := w.extractLsb' 17 6, row := w.extractLsb' 10 7, half := w.extractLsb' 9 1,
    low := w.extractLsb' 0 9 }

/-- The MSCL layout (R124). -/
def msForm (w : Word32) : MsForm :=
  { z := w.extractLsb' 23 3, k := w.extractLsb' 15 8, n16 := w.extractLsb' 9 6, msel := w.extractLsb' 7 2,
    low := w.extractLsb' 0 7 }

/-- The RX word (R125). -/
def rxForm (w : Word32) : RxForm :=
  { vd := w.extractLsb' 20 6, va := w.extractLsb' 14 6, vb := w.extractLsb' 8 6, op := w.extractLsb' 0 8 }

/-- The DX word (R126). -/
def dxForm (w : Word32) : DxForm :=
  { aD := w.extractLsb' 22 4, aS := w.extractLsb' 18 4, cr := w.extractLsb' 12 6, f := w.extractLsb' 0 12 }

/-- The context operand layout (R127, R128). -/
def cxForm (w : Word32) : CxForm :=
  { d := w.extractLsb' 24 2, a := w.extractLsb' 22 2, b := w.extractLsb' 20 2, i := w.extractLsb' 19 1,
    t := w.extractLsb' 18 1, k := w.extractLsb' 0 16 }

/-- The opcode of a slot or context word, bits 31:26 (R114, R118, R127). -/
def opcode (w : Word32) : BitVec 6 := w.extractLsb' 26 6

/-- The SX opcode map (R116). -/
def decodeSx (w : Word32) : Instr :=
  match (opcode w).toNat with
  | 0 => if w = 0 then .nop .sx else .unassignedOpcode .sx w
  | 1 => .add (rForm w)
  | 2 => .sub (rForm w)
  | 3 => .addi (iForm w)
  | 4 => .mul (rForm w)
  | 5 => .mulh (rForm w)
  | 6 => .div (rForm w)
  | 7 => .rem (rForm w)
  | 8 => .and (rForm w)
  | 9 => .or (rForm w)
  | 10 => .xor (rForm w)
  | 11 => .andi (iForm w)
  | 12 => .ori (iForm w)
  | 13 => .xori (iForm w)
  | 14 => .shl (rForm w)
  | 15 => .shr (rForm w)
  | 16 => .shra (rForm w)
  | 17 => .shli (iForm w)
  | 18 => .shri (iForm w)
  | 19 => .shrai (iForm w)
  | 20 => .clz (rForm w)
  | 21 => .popc (rForm w)
  | 22 => .min (rForm w)
  | 23 => .max (rForm w)
  | 24 => .cmp (rForm w)
  | 25 => .cmpi (iForm w)
  | 26 => .sel (rForm w)
  | 27 => .li (lForm w)
  | 28 => .lih (lForm w)
  | 29 => .ext (iForm w)
  | 30 => .ins (iForm w)
  | 32 => .fadd (rForm w)
  | 33 => .fsub (rForm w)
  | 34 => .fmul (rForm w)
  | 35 => .ffma (rForm w)
  | 36 => .fdiv (rForm w)
  | 37 => .fsqrt (rForm w)
  | 38 => .fmin (rForm w)
  | 39 => .fmax (rForm w)
  | 40 => .fcmp (rForm w)
  | 41 => .fcvt (rForm w)
  | 42 => .fclass (rForm w)
  | 43 => .fsgn (rForm w)
  | 48 => .pand (rForm w)
  | 49 => .por (rForm w)
  | 50 => .pxor (rForm w)
  | 51 => .pmov (rForm w)
  | _ => .unassignedOpcode .sx w

/-- The AD opcode map (R117). -/
def decodeAd (w : Word32) : Instr :=
  match (opcode w).toNat with
  | 0 => if w = 0 then .nop .ad else .unassignedOpcode .ad w
  | 1 => .amov (rForm w)
  | 2 => .aget (rForm w)
  | 3 => .aadd (rForm w)
  | 4 => .aaddi (iForm w)
  | 5 => .dset (rForm w)
  | 6 => .dget (rForm w)
  | 7 => .csrr (rForm w)
  | 8 => .csrw (rForm w)
  | 9 => .fence (rForm w)
  | 10 => .xfence (rForm w)
  | 11 => .phase (rForm w)
  | 12 => .launch (rForm w)
  | 13 => .pref (rForm w)
  | 15 => .relw (rForm w)
  | 16 => .lea (rForm w)
  | _ => .unassignedOpcode .ad w

/-- The LS opcode map (R120). -/
def decodeLs (w : Word32) : Instr :=
  match (opcode w).toNat with
  | 0 => if w = 0 then .nop .ls else .unassignedOpcode .ls w
  | 1 => .ld (lsForm w)
  | 2 => .st (lsForm w)
  | 3 => .ldv (lsForm w)
  | 4 => .stv (lsForm w)
  | 5 => .ldvs (lsForm w)
  | 6 => .stvs (lsForm w)
  | 7 => .ldvg (lsForm w)
  | 8 => .stvx (lsForm w)
  | 9 => .lda (lsForm w)
  | 10 => .stl (lsForm w)
  | 11 => .amo (lsForm w)
  | 12 => .cas (lsForm w)
  | 13 => .vamo (lsForm w)
  | 14 => .cwb (lsForm w)
  | 15 => .cinv (lsForm w)
  | 16 => .cflush (lsForm w)
  | 17 => .rget (lsForm w)
  | 18 => .rput (lsForm w)
  | 19 => .rfree (lsForm w)
  | 20 => .ldsc (lsForm w)
  | _ => .unassignedOpcode .ls w

/-- The VX opcode map (R121). -/
def decodeVx (w : Word32) : Instr :=
  match (opcode w).toNat with
  | 0 => if w = 0 then .nop .vx else .unassignedOpcode .vx w
  | 1 => .vadd (rForm w)
  | 2 => .vsub (rForm w)
  | 3 => .vmul (rForm w)
  | 4 => .vfma (rForm w)
  | 5 => .vmin (rForm w)
  | 6 => .vmax (rForm w)
  | 7 => .vabs (rForm w)
  | 8 => .vand (rForm w)
  | 9 => .vor (rForm w)
  | 10 => .vxor (rForm w)
  | 11 => .vshl (rForm w)
  | 12 => .vshr (rForm w)
  | 13 => .vshra (rForm w)
  | 14 => .vcmp (rForm w)
  | 15 => .vsel (rForm w)
  | 16 => .vcvt (rForm w)
  | 17 => .vpack (rForm w)
  | 18 => .vunpk (rForm w)
  | 19 => .vred (rForm w)
  | 20 => .vscan (rForm w)
  | 21 => .vperm (rForm w)
  | 22 => .vshuf (rForm w)
  | 23 => .vbcast (rForm w)
  | 24 => .vext (rForm w)
  | 25 => .vins (rForm w)
  | 26 => .vrcp (rForm w)
  | 27 => .vrsq (rForm w)
  | 28 => .vexp2 (rForm w)
  | 29 => .vlog2 (rForm w)
  | 30 => .viota (rForm w)
  | 31 => .vdot (rForm w)
  | 32 => .mand (rForm w)
  | 33 => .mor (rForm w)
  | 34 => .mxor (rForm w)
  | 35 => .mnot (rForm w)
  | 36 => .mpop (rForm w)
  | 37 => .mfirst (rForm w)
  | 39 => .vhold (rForm w)
  | _ => .unassignedOpcode .vx w

/-- The MX opcode map (R124). -/
def decodeMx (w : Word32) : Instr :=
  match (opcode w).toNat with
  | 0 => if w = 0 then .nop .mx else .unassignedOpcode .mx w
  | 1 => .mma (mxForm w)
  | 2 => .mldb (mxForm w)
  | 3 => .mrel (mxForm w)
  | 4 => .mzero (mxForm w)
  | 5 => .mrd (mrForm w)
  | 6 => .mwr (mrForm w)
  | 7 => .mstz (mxForm w)
  | 8 => .mscl (msForm w)
  | 9 => .mldz (mxForm w)
  | _ => .unassignedOpcode .mx w

/-- The RX opcode map (R125). -/
def decodeRx (w : Word32) : Instr :=
  match (opcode w).toNat with
  | 0 => if w = 0 then .nop .rx else .unassignedOpcode .rx w
  | 1 => .rzero (rxForm w)
  | 2 => .rfeed (rxForm w)
  | 3 => .rfeedl (rxForm w)
  | 4 => .rqapp (rxForm w)
  | 7 => .rsolve (rxForm w)
  | 8 => .rlay (rxForm w)
  | 9 => .rlayi (rxForm w)
  | 10 => .angc (rxForm w)
  | 11 => .rvec (rxForm w)
  | 5 => if w.getLsbD 4 then .rreadSt (rxForm w) else .rread (rxForm w)
  | 6 => if w.getLsbD 4 then .rrhsSt (rxForm w) else .rrhs (rxForm w)
  | 12 => if w.getLsbD 6 then .rgainTri (rxForm w) else .rgain (rxForm w)
  | _ => .unassignedOpcode .rx w

/-- The DX opcode map (R126). -/
def decodeDx (w : Word32) : Instr :=
  match (opcode w).toNat with
  | 0 => if w = 0 then .nop .dx else .unassignedOpcode .dx w
  | 1 => .cpy (dxForm w)
  | 2 => .cpyl (dxForm w)
  | 3 => .cpy2 (dxForm w)
  | 4 => .cpyg (dxForm w)
  | 5 => .cpyr (dxForm w)
  | 6 => .rinit (dxForm w)
  | 7 => .wsld (dxForm w)
  | 8 => .shoal (dxForm w)
  | 9 => .tide (dxForm w)
  | 10 => .tideq (dxForm w)
  | 12 => .ctxi (dxForm w)
  | 11 =>
    match (w.extractLsb' 8 2).toNat with
    | 0 => .reefLd (dxForm w)
    | 1 => .reefSt (dxForm w)
    | 2 => .reefWake (dxForm w)
    | _ => .reefClr (dxForm w)
  | _ => .unassignedOpcode .dx w

/-- The operation of a present word of slots 1 to 7, the slot fixed by the word's place (R107). -/
def decodeSlot (j : Slot) (w : Word32) : Instr :=
  match j with
  | .sx => decodeSx w
  | .ad => decodeAd w
  | .ls => decodeLs w
  | .vx => decodeVx w
  | .mx => decodeMx w
  | .rx => decodeRx w
  | .dx => decodeDx w
  | .ct => .nop .ct

/-- The control operation of a CT word (R110, R113). -/
def decodeCt (w : Word32) : Instr :=
  match (w.extractLsb' 14 5).toNat with
  | 0 => if w.extractLsb' 0 14 = 0 then .nop .ct else .unassignedOpcode .ct w
  | 1 => .br (w.extractLsb' 0 14)
  | 2 => .brc (w.extractLsb' 12 2) (w.extractLsb' 8 4) (w.extractLsb' 0 8)
  | 3 => .brm (w.extractLsb' 13 1) (w.extractLsb' 10 3) (w.extractLsb' 7 3) (w.extractLsb' 0 7)
  | 4 => .call (w.extractLsb' 0 14)
  | 5 => .jmpr (w.extractLsb' 8 6) (w.extractLsb' 7 1) (w.extractLsb' 0 7)
  | 6 => .ret (w.extractLsb' 0 14)
  | 7 => .loop (w.extractLsb' 13 1) (w.extractLsb' 9 4) (w.extractLsb' 0 9)
  | 8 => .rept (w.extractLsb' 13 1) (w.extractLsb' 9 4) (w.extractLsb' 0 9)
  | 9 => .yield (w.extractLsb' 12 2) (w.extractLsb' 0 12)
  | 10 => .node (w.extractLsb' 12 2) (w.extractLsb' 0 12)
  | 11 => .endTeam (w.extractLsb' 0 14)
  | 12 => .bara (w.extractLsb' 10 4) (w.extractLsb' 0 10)
  | 13 => .barw (w.extractLsb' 10 4) (w.extractLsb' 0 10)
  | 14 => .barc (w.extractLsb' 10 4) (w.extractLsb' 4 6) (w.extractLsb' 0 4)
  | 15 => .waitx (w.extractLsb' 10 4) (w.extractLsb' 0 10)
  | 16 => .clkdiv (w.extractLsb' 12 2) (w.extractLsb' 8 4) (w.extractLsb' 0 8)
  | 17 => .pwrq (w.extractLsb' 10 4) (w.extractLsb' 0 10)
  | 18 => .svc (w.extractLsb' 0 14)
  | 19 => .brk (w.extractLsb' 0 14)
  | 20 => .wwait (w.extractLsb' 8 6) (w.extractLsb' 0 8)
  | 21 => .wwake (w.extractLsb' 8 6) (w.extractLsb' 0 8)
  | 22 => .refw (w.extractLsb' 11 3) (w.extractLsb' 0 11)
  | _ => .unassignedOpcode .ct w

/-- How many slot words follow the CT word: the set bits of its mask field (R105). -/
def slotCount (ct : Word32) : Nat :=
  ((List.range 7).filter fun j => ct.getLsbD (25 + j)).length

/-- The length of a bundle in bytes, known from its CT word alone (R105, R108). -/
def bundleLen (ct : Word32) : Nat := 4 * (1 + slotCount ct)

/-- The next word of a byte string and the rest. -/
def takeWord : List Byte → Except DecodeError (Word32 × List Byte)
  | b0 :: b1 :: b2 :: b3 :: rest => .ok (leWord b0 b1 b2 b3, rest)
  | _ => .error .truncated

/-- The slot words in ascending slot order: `j` is the next slot minus 1, `n` the slots still to read. -/
def takeSlots (ct : Word32) : Nat → Nat → List Byte → Except DecodeError (List Word32 × List Byte)
  | 0, _, bs => .ok ([], bs)
  | n + 1, j, bs =>
    if ct.getLsbD (25 + j) then
      match takeWord bs with
      | .error e => .error e
      | .ok (w, bs') =>
        match takeSlots ct n (j + 1) bs' with
        | .error e => .error e
        | .ok (ws, r) => .ok (w :: ws, r)
    else
      match takeSlots ct n (j + 1) bs with
      | .error e => .error e
      | .ok (ws, r) => .ok (0 :: ws, r)

/-- The bundle at the head of a byte string and the rest (R105, R110). -/
def decodeBundle (bs : List Byte) : Except DecodeError (Bundle × List Byte) :=
  match takeWord bs with
  | .error e => .error e
  | .ok (ct, bs') =>
    match takeSlots ct 7 0 bs' with
    | .error e => .error e
    | .ok (ws, r) =>
      .ok ({ mask := ct.extractLsb' 25 7, s := ct.getLsbD 24, w := ct.getLsbD 23, e := ct.extractLsb' 19 4,
             ct := ct, words := ws }, r)

/-- A context word with the reserved bits of its row clear, or its refusal. -/
def ctxRow (reserved : Bool) (i : Instr) : Except DecodeError Instr :=
  if reserved then .error .contextReserved else .ok i

/-- The context opcode map (R129): a bit that the row leaves unused must be 0 (R498, R519). -/
def decodeContext (w : Word32) : Except DecodeError Instr :=
  let d := w.extractLsb' 24 2
  let a := w.extractLsb' 22 2
  let b := w.extractLsb' 20 2
  let i := w.extractLsb' 19 1
  let t := w.extractLsb' 18 1
  let k := w.extractLsb' 0 16
  let n := w.extractLsb' 0 20
  let r17 := w.extractLsb' 16 2 != 0
  match (opcode w).toNat with
  | 0 => ctxRow (w != 0) .cnop
  | 1 => ctxRow r17 (.cadd (cxForm w))
  | 2 => ctxRow r17 (.csub (cxForm w))
  | 3 => ctxRow r17 (.cmul (cxForm w))
  | 4 => ctxRow (w.extractLsb' 0 18 != 0 || i != 0) (.cfma d a b t)
  | 5 => ctxRow r17 (.cmin (cxForm w))
  | 6 => ctxRow r17 (.cmax (cxForm w))
  | 7 => ctxRow (r17 || t != 0) (.cand d a b i k)
  | 8 => ctxRow (r17 || t != 0) (.cor d a b i k)
  | 9 => ctxRow (r17 || t != 0) (.cxor d a b i k)
  | 10 => ctxRow (r17 || t != 0) (.cshl d a b i k)
  | 11 => ctxRow (r17 || t != 0) (.cshr d a b i k)
  | 12 => ctxRow (r17 || a != 0 || b != 0 || i != 1) (.cli d t k)
  | 13 => ctxRow (b != 0 || n != 0) (.cmov d a)
  | 14 => ctxRow r17 (.ccmp (cxForm w))
  | 15 => ctxRow (w.extractLsb' 12 12 != 0 || w.getLsbD 25) (.cbr (w.extractLsb' 24 1) (w.extractLsb' 0 12))
  | 16 => ctxRow (w.extractLsb' 12 14 != 0) (.cj (w.extractLsb' 0 12))
  | 17 => ctxRow (a != 0 || b != 0) (.cldn d n)
  | 18 => ctxRow (b != 0) (.clde d a n)
  | 19 => ctxRow (d != 0 || b != 0 || n != 0) (.cste a)
  | 20 => ctxRow (d != 0 || a != 0 || b != 0) (.cwake n)
  | 21 => ctxRow (w.extractLsb' 4 22 != 0) (.cwait (w.extractLsb' 0 4))
  | 22 => ctxRow (w.extractLsb' 0 26 != 0) .csleep
  | 23 => ctxRow (w.extractLsb' 0 26 != 0) .cdone
  | 24 => ctxRow (d != 0 || b != 0 || i != 0 || w.extractLsb' 2 16 != 0) (.cemit a t (w.extractLsb' 0 2))
  | 25 => ctxRow (b != 0 || i != 0 || w.extractLsb' 2 16 != 0) (.catom d a t (w.extractLsb' 0 2))
  | 26 => ctxRow (b != 0 || w.extractLsb' 1 19 != 0) (.ccvt d a (w.extractLsb' 0 1))
  | _ => .error .contextUnassigned

/-- The context word at the head of a byte string. -/
def decodeContextBytes (bs : List Byte) : Except DecodeError Instr :=
  match takeWord bs with
  | .error e => .error e
  | .ok (w, _) => decodeContext w

/-- The instruction of a row that spec/opcode_table.json gives bits: the rows with bits are the context words,
32 bits long. The word is laid out in its byte order and decoded. -/
def decodeTableWord (nbits w : Nat) : Option Instr :=
  if nbits = 32 then
    match decodeContextBytes (wordBytes (BitVec.ofNat 32 w)) with
    | .ok i => some i
    | .error _ => none
  else none

/-- The word of a slot operation in the register form (R114). -/
def rWord (op : BitVec 6) (f : RForm) : Word32 := op ++ f.d ++ f.a ++ f.b ++ f.g ++ f.fn

/-- The word of an I form (R114). -/
def iWord (op : BitVec 6) (f : IForm) : Word32 := op ++ f.d ++ f.a ++ f.imm

/-- The word of an L form (R114). -/
def lWord (op : BitVec 6) (f : LForm) : Word32 := op ++ f.d ++ f.imm

/-- The word of an LS form (R118). -/
def lsWord (op : BitVec 6) (f : LsForm) : Word32 := op ++ f.data ++ f.a ++ f.pi ++ f.ty ++ f.low

/-- The word of an MX form (R122). -/
def mxWord (op : BitVec 6) (f : MxForm) : Word32 :=
  op ++ f.z ++ f.aA ++ f.aB ++ f.n16 ++ f.msel ++ f.fmt ++ f.clr ++ f.hold ++ f.rel

/-- The word of an MRD or MWR (R124). -/
def mrWord (op : BitVec 6) (f : MrForm) : Word32 := op ++ f.z ++ f.v ++ f.row ++ f.half ++ f.low

/-- The word of an MSCL (R124). -/
def msWord (op : BitVec 6) (f : MsForm) : Word32 := op ++ f.z ++ f.k ++ f.n16 ++ f.msel ++ f.low

/-- The word of an RX form (R125). -/
def rxWord (op : BitVec 6) (f : RxForm) : Word32 := op ++ f.vd ++ f.va ++ f.vb ++ f.op

/-- The word of a DX form (R126). -/
def dxWord (op : BitVec 6) (f : DxForm) : Word32 := op ++ f.aD ++ f.aS ++ f.cr ++ f.f

/-- The word of a context operand form (R128). -/
def cxWord (op : BitVec 6) (f : CxForm) : Word32 := op ++ f.d ++ f.a ++ f.b ++ f.i ++ f.t ++ 0#2 ++ f.k

/-- The word of a context logic row (R129). -/
def clWord (op : BitVec 6) (d a b : BitVec 2) (i : BitVec 1) (k : BitVec 16) : Word32 :=
  op ++ d ++ a ++ b ++ i ++ 0#3 ++ k

/-- The CT word of a control operation with no slot word, S, W and E clear (R110): the operand is 14 bits. -/
def ctWord (op : BitVec 5) (operand : BitVec 14) : Word32 := 0#13 ++ op ++ operand

/-- The word of an instruction, from the tables of spec/04_bundle_encoding.md; an event has none. -/
def encode : Instr → Option Word32
  | .nop _ => some 0
  | .br off => some (ctWord 1 (off))
  | .brc mode reg off => some (ctWord 2 (mode ++ reg ++ off))
  | .brm sense tested active off => some (ctWord 3 (sense ++ tested ++ active ++ off))
  | .call off => some (ctWord 4 (off))
  | .jmpr reg link z => some (ctWord 5 (reg ++ link ++ z))
  | .ret z => some (ctWord 6 (z))
  | .loop cf len cnt => some (ctWord 7 (cf ++ len ++ cnt))
  | .rept cf len cnt => some (ctWord 8 (cf ++ len ++ cnt))
  | .yield sel b => some (ctWord 9 (sel ++ b))
  | .node sel b => some (ctWord 10 (sel ++ b))
  | .endTeam z => some (ctWord 11 (z))
  | .bara bar z => some (ctWord 12 (bar ++ z))
  | .barw bar z => some (ctWord 13 (bar ++ z))
  | .barc bar cnt z => some (ctWord 14 (bar ++ cnt ++ z))
  | .waitx ev t => some (ctWord 15 (ev ++ t))
  | .clkdiv dom dv z => some (ctWord 16 (dom ++ dv ++ z))
  | .pwrq level z => some (ctWord 17 (level ++ z))
  | .svc num => some (ctWord 18 (num))
  | .brk code => some (ctWord 19 (code))
  | .wwait reg t => some (ctWord 20 (reg ++ t))
  | .wwake reg n => some (ctWord 21 (reg ++ n))
  | .refw group z => some (ctWord 22 (group ++ z))
  | .add f => some (rWord 1 f)
  | .sub f => some (rWord 2 f)
  | .addi f => some (iWord 3 f)
  | .mul f => some (rWord 4 f)
  | .mulh f => some (rWord 5 f)
  | .div f => some (rWord 6 f)
  | .rem f => some (rWord 7 f)
  | .and f => some (rWord 8 f)
  | .or f => some (rWord 9 f)
  | .xor f => some (rWord 10 f)
  | .andi f => some (iWord 11 f)
  | .ori f => some (iWord 12 f)
  | .xori f => some (iWord 13 f)
  | .shl f => some (rWord 14 f)
  | .shr f => some (rWord 15 f)
  | .shra f => some (rWord 16 f)
  | .shli f => some (iWord 17 f)
  | .shri f => some (iWord 18 f)
  | .shrai f => some (iWord 19 f)
  | .clz f => some (rWord 20 f)
  | .popc f => some (rWord 21 f)
  | .min f => some (rWord 22 f)
  | .max f => some (rWord 23 f)
  | .cmp f => some (rWord 24 f)
  | .cmpi f => some (iWord 25 f)
  | .sel f => some (rWord 26 f)
  | .li f => some (lWord 27 f)
  | .lih f => some (lWord 28 f)
  | .ext f => some (iWord 29 f)
  | .ins f => some (iWord 30 f)
  | .fadd f => some (rWord 32 f)
  | .fsub f => some (rWord 33 f)
  | .fmul f => some (rWord 34 f)
  | .ffma f => some (rWord 35 f)
  | .fdiv f => some (rWord 36 f)
  | .fsqrt f => some (rWord 37 f)
  | .fmin f => some (rWord 38 f)
  | .fmax f => some (rWord 39 f)
  | .fcmp f => some (rWord 40 f)
  | .fcvt f => some (rWord 41 f)
  | .fclass f => some (rWord 42 f)
  | .fsgn f => some (rWord 43 f)
  | .pand f => some (rWord 48 f)
  | .por f => some (rWord 49 f)
  | .pxor f => some (rWord 50 f)
  | .pmov f => some (rWord 51 f)
  | .amov f => some (rWord 1 f)
  | .aget f => some (rWord 2 f)
  | .aadd f => some (rWord 3 f)
  | .aaddi f => some (iWord 4 f)
  | .dset f => some (rWord 5 f)
  | .dget f => some (rWord 6 f)
  | .csrr f => some (rWord 7 f)
  | .csrw f => some (rWord 8 f)
  | .fence f => some (rWord 9 f)
  | .xfence f => some (rWord 10 f)
  | .phase f => some (rWord 11 f)
  | .launch f => some (rWord 12 f)
  | .pref f => some (rWord 13 f)
  | .relw f => some (rWord 15 f)
  | .lea f => some (rWord 16 f)
  | .ld f => some (lsWord 1 f)
  | .st f => some (lsWord 2 f)
  | .ldv f => some (lsWord 3 f)
  | .stv f => some (lsWord 4 f)
  | .ldvs f => some (lsWord 5 f)
  | .stvs f => some (lsWord 6 f)
  | .ldvg f => some (lsWord 7 f)
  | .stvx f => some (lsWord 8 f)
  | .lda f => some (lsWord 9 f)
  | .stl f => some (lsWord 10 f)
  | .amo f => some (lsWord 11 f)
  | .cas f => some (lsWord 12 f)
  | .vamo f => some (lsWord 13 f)
  | .cwb f => some (lsWord 14 f)
  | .cinv f => some (lsWord 15 f)
  | .cflush f => some (lsWord 16 f)
  | .rget f => some (lsWord 17 f)
  | .rput f => some (lsWord 18 f)
  | .rfree f => some (lsWord 19 f)
  | .ldsc f => some (lsWord 20 f)
  | .vadd f => some (rWord 1 f)
  | .vsub f => some (rWord 2 f)
  | .vmul f => some (rWord 3 f)
  | .vfma f => some (rWord 4 f)
  | .vmin f => some (rWord 5 f)
  | .vmax f => some (rWord 6 f)
  | .vabs f => some (rWord 7 f)
  | .vand f => some (rWord 8 f)
  | .vor f => some (rWord 9 f)
  | .vxor f => some (rWord 10 f)
  | .vshl f => some (rWord 11 f)
  | .vshr f => some (rWord 12 f)
  | .vshra f => some (rWord 13 f)
  | .vcmp f => some (rWord 14 f)
  | .vsel f => some (rWord 15 f)
  | .vcvt f => some (rWord 16 f)
  | .vpack f => some (rWord 17 f)
  | .vunpk f => some (rWord 18 f)
  | .vred f => some (rWord 19 f)
  | .vscan f => some (rWord 20 f)
  | .vperm f => some (rWord 21 f)
  | .vshuf f => some (rWord 22 f)
  | .vbcast f => some (rWord 23 f)
  | .vext f => some (rWord 24 f)
  | .vins f => some (rWord 25 f)
  | .vrcp f => some (rWord 26 f)
  | .vrsq f => some (rWord 27 f)
  | .vexp2 f => some (rWord 28 f)
  | .vlog2 f => some (rWord 29 f)
  | .viota f => some (rWord 30 f)
  | .vdot f => some (rWord 31 f)
  | .mand f => some (rWord 32 f)
  | .mor f => some (rWord 33 f)
  | .mxor f => some (rWord 34 f)
  | .mnot f => some (rWord 35 f)
  | .mpop f => some (rWord 36 f)
  | .mfirst f => some (rWord 37 f)
  | .vhold f => some (rWord 39 f)
  | .mma f => some (mxWord 1 f)
  | .mldb f => some (mxWord 2 f)
  | .mrel f => some (mxWord 3 f)
  | .mzero f => some (mxWord 4 f)
  | .mrd f => some (mrWord 5 f)
  | .mwr f => some (mrWord 6 f)
  | .mstz f => some (mxWord 7 f)
  | .mscl f => some (msWord 8 f)
  | .mldz f => some (mxWord 9 f)
  | .rzero f => some (rxWord 1 f)
  | .rfeed f => some (rxWord 2 f)
  | .rfeedl f => some (rxWord 3 f)
  | .rqapp f => some (rxWord 4 f)
  | .rsolve f => some (rxWord 7 f)
  | .rlay f => some (rxWord 8 f)
  | .rlayi f => some (rxWord 9 f)
  | .angc f => some (rxWord 10 f)
  | .rvec f => some (rxWord 11 f)
  | .rread f => some (rxWord 5 f)
  | .rreadSt f => some (rxWord 5 f)
  | .rrhs f => some (rxWord 6 f)
  | .rrhsSt f => some (rxWord 6 f)
  | .rgain f => some (rxWord 12 f)
  | .rgainTri f => some (rxWord 12 f)
  | .cpy f => some (dxWord 1 f)
  | .cpyl f => some (dxWord 2 f)
  | .cpy2 f => some (dxWord 3 f)
  | .cpyg f => some (dxWord 4 f)
  | .cpyr f => some (dxWord 5 f)
  | .rinit f => some (dxWord 6 f)
  | .wsld f => some (dxWord 7 f)
  | .shoal f => some (dxWord 8 f)
  | .tide f => some (dxWord 9 f)
  | .tideq f => some (dxWord 10 f)
  | .ctxi f => some (dxWord 12 f)
  | .reefLd f => some (dxWord 11 f)
  | .reefSt f => some (dxWord 11 f)
  | .reefWake f => some (dxWord 11 f)
  | .reefClr f => some (dxWord 11 f)
  | .cnop => some 0
  | .cadd f => some (cxWord 1 f)
  | .csub f => some (cxWord 2 f)
  | .cmul f => some (cxWord 3 f)
  | .cmin f => some (cxWord 5 f)
  | .cmax f => some (cxWord 6 f)
  | .ccmp f => some (cxWord 14 f)
  | .cfma d a b t => some (4#6 ++ d ++ a ++ b ++ 0#1 ++ t ++ 0#18)
  | .cand d a b i k => some (clWord 7 d a b i k)
  | .cor d a b i k => some (clWord 8 d a b i k)
  | .cxor d a b i k => some (clWord 9 d a b i k)
  | .cshl d a b i k => some (clWord 10 d a b i k)
  | .cshr d a b i k => some (clWord 11 d a b i k)
  | .cli d t k => some (12#6 ++ d ++ 0#4 ++ 1#1 ++ t ++ 0#2 ++ k)
  | .cmov d a => some (13#6 ++ d ++ a ++ 0#22)
  | .cbr c t => some (15#6 ++ 0#1 ++ c ++ 0#12 ++ t)
  | .cj t => some (16#6 ++ 0#14 ++ t)
  | .cldn d n => some (17#6 ++ d ++ 0#4 ++ n)
  | .clde d a n => some (18#6 ++ d ++ a ++ 0#2 ++ n)
  | .cste a => some (19#6 ++ 0#2 ++ a ++ 0#22)
  | .cwake n => some (20#6 ++ 0#6 ++ n)
  | .cwait c => some (21#6 ++ 0#22 ++ c)
  | .csleep => some (22#6 ++ 0#26)
  | .cdone => some (23#6 ++ 0#26)
  | .cemit a t o => some (24#6 ++ 0#2 ++ a ++ 0#3 ++ t ++ 0#16 ++ o)
  | .catom d a t o => some (25#6 ++ d ++ a ++ 0#3 ++ t ++ 0#16 ++ o)
  | .ccvt d a v => some (26#6 ++ d ++ a ++ 0#21 ++ v)
  | .unassignedOpcode _ w => some w
  | .resultLands | .variableOpComplete | .writeAcknowledge | .sBundleComplete
  | .wBundleComplete | .energyWindowEnd | .barrierArrival | .clusterStart
  | .budgetOverrun | .waitxTimeout | .wwaitTimeout | .copyComplete
  | .cpylProgress | .mmaWrite | .tideChunkLoad | .chunkCommit
  | .sweepPause | .tideEnd | .refreshWindowStart | .refreshWindowEnd
  | .fetchFault | .deferredTrap | .demandFaultNotice | .tresResume
  | .tresSkip | .tresEnd | .svdone | .boundarySave
  | .clusterRestore | .thermalTrip | .migrationMove | .sensorReading
  | .regrant | .coveGate | .coveWakeRequest | .coveWakeGrant
  | .coveUsable | .covePowerupFail | .homeRequest | .fresRetry
  | .fresDecline | .faultRequestTimeout | .htinvPage | .htinvTenant
  | .htinvAll | .htinvDone | .regionMerge | .queueRegister
  | .queueNotify | .graphKick | .packetStart | .packetRetire
  | .hdrTimeout | .depTimeout | .runTimeout | .depFallbackPoll
  | .workingSetTimeout | .tkill | .hwkeyArm | .hwake
  | .svfail | .dieProbe | .ucieLinkDown | .dieResetDone
  | .passengerEnumerate | .passengerIsolate | .controlDieCrash | .laneFail
  | .portDown | .remoteRequestTimeout | .portRequest | .keyFailureResponse
  | .flitCrcFail | .hostBar4Request | .scaleoutRegister | .scaleoutDoorbell
  | .scaleoutEntryDone | .checkCodeError | .packageReset | .bootImageOffer
  | .registerWrite | .tileFetchLineArrival | .workingSetAnswer | .portTrained => none

/-- The slot of an instruction; context words and events stand in none. -/
def Instr.slot : Instr → Option Slot
  | .nop j | .unassignedOpcode j _ => some j
  | .br .. => some .ct
  | .brc .. => some .ct
  | .brm .. => some .ct
  | .call .. => some .ct
  | .jmpr .. => some .ct
  | .ret .. => some .ct
  | .loop .. => some .ct
  | .rept .. => some .ct
  | .yield .. => some .ct
  | .node .. => some .ct
  | .endTeam .. => some .ct
  | .bara .. => some .ct
  | .barw .. => some .ct
  | .barc .. => some .ct
  | .waitx .. => some .ct
  | .clkdiv .. => some .ct
  | .pwrq .. => some .ct
  | .svc .. => some .ct
  | .brk .. => some .ct
  | .wwait .. => some .ct
  | .wwake .. => some .ct
  | .refw .. => some .ct
  | .add .. | .sub .. | .addi .. | .mul .. | .mulh .. | .div .. | .rem .. | .and ..
  | .or .. | .xor .. | .andi .. | .ori .. | .xori .. | .shl .. | .shr .. | .shra ..
  | .shli .. | .shri .. | .shrai .. | .clz .. | .popc .. | .min .. | .max .. | .cmp ..
  | .cmpi .. | .sel .. | .li .. | .lih .. | .ext .. | .ins .. | .fadd .. | .fsub ..
  | .fmul .. | .ffma .. | .fdiv .. | .fsqrt .. | .fmin .. | .fmax .. | .fcmp .. | .fcvt ..
  | .fclass .. | .fsgn .. | .pand .. | .por .. | .pxor .. | .pmov .. => some .sx
  | .amov .. | .aget .. | .aadd .. | .aaddi .. | .dset .. | .dget .. | .csrr .. | .csrw ..
  | .fence .. | .xfence .. | .phase .. | .launch .. | .pref .. | .relw .. | .lea .. => some .ad
  | .ld .. | .st .. | .ldv .. | .stv .. | .ldvs .. | .stvs .. | .ldvg .. | .stvx ..
  | .lda .. | .stl .. | .amo .. | .cas .. | .vamo .. | .cwb .. | .cinv .. | .cflush ..
  | .rget .. | .rput .. | .rfree .. | .ldsc .. => some .ls
  | .vadd .. | .vsub .. | .vmul .. | .vfma .. | .vmin .. | .vmax .. | .vabs .. | .vand ..
  | .vor .. | .vxor .. | .vshl .. | .vshr .. | .vshra .. | .vcmp .. | .vsel .. | .vcvt ..
  | .vpack .. | .vunpk .. | .vred .. | .vscan .. | .vperm .. | .vshuf .. | .vbcast .. | .vext ..
  | .vins .. | .vrcp .. | .vrsq .. | .vexp2 .. | .vlog2 .. | .viota .. | .vdot .. | .mand ..
  | .mor .. | .mxor .. | .mnot .. | .mpop .. | .mfirst .. | .vhold .. => some .vx
  | .mma .. | .mldb .. | .mrel .. | .mzero .. | .mrd .. | .mwr .. | .mstz .. | .mscl ..
  | .mldz .. => some .mx
  | .rzero .. | .rfeed .. | .rfeedl .. | .rqapp .. | .rsolve .. | .rlay .. | .rlayi .. | .angc ..
  | .rvec .. | .rread .. | .rreadSt .. | .rrhs .. | .rrhsSt .. | .rgain .. | .rgainTri .. => some .rx
  | .cpy .. | .cpyl .. | .cpy2 .. | .cpyg .. | .cpyr .. | .rinit .. | .wsld .. | .shoal ..
  | .tide .. | .tideq .. | .ctxi .. | .reefLd .. | .reefSt .. | .reefWake .. | .reefClr .. => some .dx
  | .cnop .. | .cadd .. | .csub .. | .cmul .. | .cfma .. | .cmin .. | .cmax .. | .cand ..
  | .cor .. | .cxor .. | .cshl .. | .cshr .. | .cli .. | .cmov .. | .ccmp .. | .cbr ..
  | .cj .. | .cldn .. | .clde .. | .cste .. | .cwake .. | .cwait .. | .csleep .. | .cdone ..
  | .cemit .. | .catom .. | .ccvt .. | .resultLands | .variableOpComplete | .writeAcknowledge | .sBundleComplete | .wBundleComplete
  | .energyWindowEnd | .barrierArrival | .clusterStart | .budgetOverrun | .waitxTimeout | .wwaitTimeout | .copyComplete | .cpylProgress
  | .mmaWrite | .tideChunkLoad | .chunkCommit | .sweepPause | .tideEnd | .refreshWindowStart | .refreshWindowEnd | .fetchFault
  | .deferredTrap | .demandFaultNotice | .tresResume | .tresSkip | .tresEnd | .svdone | .boundarySave | .clusterRestore
  | .thermalTrip | .migrationMove | .sensorReading | .regrant | .coveGate | .coveWakeRequest | .coveWakeGrant | .coveUsable
  | .covePowerupFail | .homeRequest | .fresRetry | .fresDecline | .faultRequestTimeout | .htinvPage | .htinvTenant | .htinvAll
  | .htinvDone | .regionMerge | .queueRegister | .queueNotify | .graphKick | .packetStart | .packetRetire | .hdrTimeout
  | .depTimeout | .runTimeout | .depFallbackPoll | .workingSetTimeout | .tkill | .hwkeyArm | .hwake | .svfail
  | .dieProbe | .ucieLinkDown | .dieResetDone | .passengerEnumerate | .passengerIsolate | .controlDieCrash | .laneFail | .portDown
  | .remoteRequestTimeout | .portRequest | .keyFailureResponse | .flitCrcFail | .hostBar4Request | .scaleoutRegister | .scaleoutDoorbell | .scaleoutEntryDone
  | .checkCodeError | .packageReset | .bootImageOffer | .registerWrite | .tileFetchLineArrival | .workingSetAnswer | .portTrained => none

end Sys2Proof
end

