-- ==== Sys2Proof/Machine/State.lean ====
section
/-! DEFINITION. The state of the machine, all of it plain data: one Sarvo package (spec/01_sarvo_package.md) with
one team, its core and its die in the foreground. `State.team`, `State.core` and `State.die` are the agent whose
step is being taken; the other teams, cores and dies stand in lists, an absent one being as reset leaves it.
INVENTORY.md lists every field with its rule. -/

namespace Sys2Proof.Machine

/-- Values at rising keys; what an unlisted key reads as is said where the map is used. -/
abbrev SMap (α : Type) := List (Nat × α)

/-- Bytes at rising addresses, none equal to what an unlisted address reads as, which is 0 (log entry 1). -/
abbrev Memory := List Host.Cell

/-- The clock domains of a core (R8). -/
inductive Domain where
  | core | vx | mx | dx
  deriving DecidableEq, Repr

/-- The access paths (R9, R112). -/
inductive Path where
  | ls | tf | cp | sw
  deriving DecidableEq, Repr

/-- What a result writes when it lands (R74, R424 file codes). -/
inductive Write where
  | s (n : BitVec 6) (x : Double)
  | a (n : BitVec 4) (x : Double)
  | d (n : BitVec 4) (x : Double)
  | p (n : BitVec 3) (x : Bool)
  | m (n : BitVec 3) (lanes x : Double)
  | v (n : BitVec 6) (lanes : Double) (x : VReg)
  | latch (x : VReg)
  | csr (num : BitVec 12) (x : Double)
  | lcnt (x : Word32)
  deriving DecidableEq, Repr

/-- A fixed-latency result in flight, a slack entry at a freeze (R74, R421). -/
structure Landing where
  slot : Slot
  domain : Domain
  pos : Nat
  rem : Nat
  write : Write
  /-- class and element width that its landing adds to ECNT; none for a second result of one operation (R441) -/
  energy : Option (Nat × Nat)
  deriving DecidableEq, Repr

/-- The loop that dispatch runs (R90 to R93, R433). -/
structure LoopSt where
  rept : Bool
  start : Nat
  body : List (Nat × Bundle)
  after : Nat
  /-- passes not yet ended, the running one included: LCNT (R181) -/
  left : Nat
  /-- index in the body of the next bundle to place -/
  idx : Nat
  /-- position of the first body bundle of the first pass -/
  pos0 : Nat
  count : Nat
  deriving DecidableEq, Repr

/-- A bundle that dispatch has placed (R68): `words` are those of slots 1 to 7. -/
structure Placed where
  pos : Nat
  bpc : Nat
  ct : Word32
  words : List Word32
  /-- its MX position is issued as R93 gives -/
  rept : Bool
  /-- LCNT of the pass this position belongs to (R181) -/
  lcnt : Word32
  /-- set when the position is the delay bundle of a taken branch: its target (R420) -/
  target : Option Nat
  /-- the position is the delay bundle of a branch (R89) -/
  delay : Bool
  /-- the loop that the position was placed in (R417) -/
  loop : Option LoopSt
  deriving DecidableEq, Repr

/-- What dispatch waits for after an S or W bundle, and what follows its completion (R83, R85). -/
inductive SyncKind where
  | plain
  | yield (b : Nat) (live : Double)
  | node (b : Nat) (mask : Double)
  | ending
  | waitx (ev : Nat) (limit : Nat)
  | clkdiv (dom : Domain) (dv : Nat)
  | svc (num : Nat)
  | brk (code : Nat)
  | wwait (key : Nat) (pkg : Nat) (limit : Nat)
  | refw (group : Nat)
  /-- a BARW in a W bundle: its barrier and the phase noted (R85, R194) -/
  | barw (bar : Nat) (phase : Nat)
  deriving DecidableEq, Repr

/-- An arrival that a BARA noted and that the core has not sent: the BARA's position, the writes that the LS slot found
counted as it passed that position, and whether the write-backs of the release have joined them (R193, R378). -/
structure Arrival where
  bar : Nat
  pos : Nat
  ids : Option (List Nat)
  sent : Bool
  deriving DecidableEq, Repr

/-- The S or W bundle that has been placed and not completed. -/
structure Sync where
  pos : Nat
  w : Bool
  kind : SyncKind
  bpc : Nat
  ct : Word32
  deriving DecidableEq, Repr

/-- What a parked team waits on (R58, R63). -/
inductive Park where
  | none
  | w
  | barw (bar : Nat) (phase : Nat) (pos : Nat)
  | waitx (ev : Nat) (pos : Nat) (limit : Nat) (count : Nat)
  | wwait (key : Nat) (pkg : Nat) (limit : Nat) (count : Nat)
  | svc
  | node (b : Nat) (mask : Double)
  | ending
  | boundary
  /-- placed by the hub, the start message still to come (R48) -/
  | start
  deriving DecidableEq, Repr

/-- A trap from its raise to its answer (R416 to R428). -/
structure TrapSt where
  slot : Slot
  pos : Nat
  cause : Nat
  addr : Nat
  word : Word32
  /-- the record is written and the team frozen; before that, lower slots catch up (R418) -/
  frozen : Bool
  /-- q, pmask and the leads at the freeze (R417) -/
  q : Nat
  pmask : BitVec 8
  bpc : Nat
  slr : Double
  dly : Bool
  target : Nat
  /-- the loop state that held at q (R417) -/
  loop : Option LoopSt
  seq : Nat
  /-- an engine's deferred trap: slot 7, toff 0 (R530) -/
  deferred : Bool
  /-- a fault notice's record has been answered with action 0 (R538) -/
  answered : Bool
  deriving DecidableEq, Repr

/-- A part of an access: bytes at one place; `lane` orders the lanes of a vector access (R227, R238). -/
structure Part where
  ipa : Nat
  size : Nat
  lane : Nat
  data : Double
  /-- the address that names it, for a fault's record (R538) -/
  va : Nat := 0
  deriving DecidableEq, Repr

/-- What an access does (R226 to R243, R220). -/
inductive AccOp where
  | load (n : BitVec 6) (ty : Nat)
  | vload (n : BitVec 6) (lanes : Double) (ty : Nat)
  | store
  | amo (n : BitVec 6) (op : Nat) (ty : Nat)
  | cas (n : BitVec 6) (ty : Nat) (new : Double)
  | vamo (n : BitVec 6) (op : Nat) (lanes : Double)
  | ldsc (n : BitVec 6)
  | rget (n : BitVec 6) (ring : Nat) (ty : Nat)
  /-- queue descriptor and packet image (R220) -/
  | launch (n : BitVec 6) (desc src : Nat)
  /-- an L2 line's write-back to its home (R378) -/
  | writeback (dir : Bool)
  /-- CWB, CINV or CFLUSH (R239): whether it writes back and whether it drops, its extent and its scope -/
  | maint (wb drop : Bool) (ext scope : Nat)
  /-- the tile's bytes as MSTZ read them at its issue (R273) -/
  | mstz (data : List Byte)
  deriving DecidableEq, Repr

/-- Where an access is performed (R230). -/
inductive Place where
  | lm | l1d | l2 | home | staging | host | remote
  deriving DecidableEq, Repr

/-- How far an access has come. -/
inductive AccPhase where
  | pending
  /-- held at the home by a demand-mode fault (R536) -/
  | held
  | performed
  deriving DecidableEq, Repr

/-- An access that has left its slot and not completed (R225, R366). -/
structure Access where
  id : Nat
  team : TeamRef
  die : Nat
  pcore : Nat
  tenant : Nat
  slot : Slot
  pos : Nat
  word : Word32
  va : Nat
  path : Path
  /-- the scope of an acquire, a release or an atomic; none is `plain` (R11) -/
  scope : Option (BitVec 3)
  rp : Bool
  place : Place
  op : AccOp
  /-- the elements still to be performed -/
  parts : List Part
  /-- the elements performed as it left its slot, and the values that they read by lane (R229, R238) -/
  early : List Part
  got : List (Nat × Nat)
  /-- a release: the writes that it waits for (R370, R378) -/
  waits : Option (List Nat)
  /-- a release that has issued its write-backs (R378) -/
  sent : Bool
  phase : AccPhase
  /-- the results, written when the operation completes (R79) -/
  results : List Write
  /-- the write it counts as in RELC, if any (R184) -/
  wid : Option Nat
  issued : Nat
  deriving DecidableEq, Repr

/-- A write that is not yet acknowledged everywhere: the RELC fields that still count it (R184). -/
structure PendingWrite where
  id : Nat
  path : Path
  /-- position of the operation that writes; 0 for a write-back -/
  pos : Nat
  /-- how many writes it stands for: a copy's are counted by lines (R289) -/
  count : Nat
  /-- the request entries that a store holds until it is acknowledged at .core (R225) -/
  entries : Nat
  core : Bool
  die : Bool
  pkg : Bool
  sys : Bool
  deriving DecidableEq, Repr

/-- A line of an L1D or an L2 cache (R347, R348, R377, R379, R585): `bytes` holds none where the line has no
valid byte. -/
structure Line where
  ipa : Nat
  tenant : Nat
  bytes : List (Option Byte)
  dirty : List Bool
  fill : Nat
  /-- reference cycle at which the bytes left their home: a copy of a copy is as old as its source (R379) -/
  origin : Nat
  /-- exponents of the blocks that start in the line, with the window's fmt; none when not covered (R162) -/
  side : Option (Nat × List (Nat × Byte))
  /-- filled with its sideband since it was allocated (R164) -/
  sided : Bool
  /-- evicted, and gone once its write-back has been performed (R348) -/
  leaving : Bool
  /-- the bytes that a write-back on its way carries, where they are still dirty (R239, R378) -/
  sent : List (Option Byte) := List.replicate 64 none
  deriving DecidableEq, Repr

/-- A line of the hub cache (R350): `pa` is where its bytes go when it is written back. -/
structure HubLine where
  ipa : Nat
  pa : Nat
  bytes : List Byte
  dirty : Bool
  side : Option (Nat × List (Nat × Byte))
  /-- its sideband has been read since it was allocated (R164) -/
  sided : Bool
  deriving DecidableEq, Repr

/-- A leaf of the page table: its entry and the size of its page in bits (R360, R361). -/
structure Leaf where
  entry : Double
  bits : Nat
  deriving DecidableEq, Repr

/-- An entry of the translation caches (R364): the first local IPA of its page, and its leaf. -/
structure TlbEntry where
  base : Nat
  leaf : Leaf
  deriving DecidableEq, Repr

/-- A 64-byte line of the instruction store (R67, R106). -/
structure ILine where
  ipa : Nat
  bytes : List Byte
  deriving DecidableEq, Repr

/-- One team, as its resident slot holds it (R38). -/
structure Team where
  ref : TeamRef
  resident : Bool
  tenant : Nat
  cluster : Nat
  s : Vector Double 64
  a : Vector Double 16
  d : Vector Double 16
  p : Vector Bool 8
  m : Vector Double 8
  v : Vector VReg 64
  tsw : Double
  tid : Double
  cid : Double
  lmg : Double
  ecnt : Double
  /-- ECNT as the controller last sampled it, for the retired load of a µs (R449) -/
  ecntMark : Double
  lcnt : Word32
  yls : Vector Double 4
  nsm : Vector Double 4
  vwin : Vector Double 8
  /-- address of the next bundle that dispatch places -/
  pc : Nat
  /-- the bundle that dispatch is placing and its address -/
  cur : Bundle
  bpc : Nat
  /-- positions each slot has passed: slot j next passes position `pass[j]` (R69) -/
  pass : Vector Nat 8
  queue : List Placed
  /-- slots that held at their last own cycle (R71) -/
  holding : Vector Bool 8
  /-- LCNT of the last bundle placed (R181) -/
  lcntNow : Word32
  /-- action 1 has passed the CT operation of the next bundle (R425, R504) -/
  skipCt : Bool
  /-- the next bundle is a delay bundle; its branch's target when taken (R88) -/
  delay : Option (Option Nat)
  /-- s62 of a CALL or JMPR waits for the length of its delay bundle (R187) -/
  link : Bool
  loop : Option LoopSt
  sync : Option Sync
  /-- dispatch waits at a REFW until this reference cycle (R199) -/
  refwUntil : Option Nat
  park : Park
  /-- the S-type bundle that parked the team has been passed and the core may hand over (R58) -/
  handover : Bool
  flight : List Landing
  vars : List Access
  writes : List PendingWrite
  /-- the write-backs of the STL that waits at its slot have been issued (R378) -/
  stlSent : Bool
  /-- the writes that the FENCE at its slot waits for (R216, R380), and whether it has issued its write-backs -/
  fenceSet : Option (List Nat)
  fenceSent : Bool
  /-- scopes of the team's FENCEs of kind stores or all: an AMO or CAS at one of them is a release (R380) -/
  relScopes : List (BitVec 3)
  /-- the PHASE that waits at its slot has been applied: the reference cycle before which its drain has not ended (R219) -/
  phaseEnd : Option Nat
  /-- phase of the team's last BARA on each barrier (R193) -/
  noted : Vector (Option Nat) 16
  arrivals : List Arrival
  /-- WWAKEs not yet sent: LS position to pass, key, package, n (R198) -/
  wakes : List (Nat × Nat × Nat × Nat)
  /-- the latest acquires: reference cycle of the last at .cove or .die, and at .pkg or wider (R379) -/
  acqDie : Nat
  acqPkg : Nat
  trap : Option TrapSt
  /-- deferred engine traps not yet taken: cause, address, word (R530) -/
  deferred : List (Nat × Nat × Word32)
  budget : Nat
  counted : Nat
  /-- remaining slice in counted cycles (R410) -/
  slice : Nat
  miss : Nat
  issued : Bool
  /-- a boundary save or migration has been requested of the team (R61, R439) -/
  stopAsked : Bool
  forcedAsked : Bool
  callSeq : Option Nat
  saveArea : Nat
  lastMigration : Option Nat
  /-- the boundary at which the team stands is a NODE (R434) -/
  atNode : Bool
  deriving DecidableEq, Repr

/-- The accumulator memory (R260) by rows: key 128 t + i is row `i` of tile `t`, and an unlisted row is zero for epoch
0, and otherwise part of the unspecified array `epoch` (R261). -/
structure Acc where
  epoch : Nat
  rows : SMap (List Word32)
  deriving DecidableEq, Repr

/-- The B latch (R270): format, N and the bytes of each column with its exponents. -/
structure BLatch where
  fmt : Nat
  n : Nat
  cols : List (List Byte × List Nat)
  deriving DecidableEq, Repr

/-- What an interlocked MX operation does when its operands have arrived (R268, R271). -/
inductive MxKind where
  | mma (fmt : Nat) (clr hold : Bool)
  | mldb (fmt : Nat)
  | mldz
  /-- MZERO, MWR and MSCL: the rows that it writes, fixed at issue -/
  | put (rows : List (List Word32))
  deriving DecidableEq, Repr

/-- The covered words of an MX operation (R260): columns count on into later tiles. -/
structure Cover where
  z : Nat
  row0 : Nat
  rows : Nat
  col0 : Nat
  cols : Nat
  deriving DecidableEq, Repr

/-- A panel of a tile fetch (R263): its rows as pieces of the intermediate space, with the bytes of one row. -/
structure Panel where
  va : Nat
  pieces : List (Nat × Nat)
  rowBytes : Nat
  deriving DecidableEq, Repr

/-- An MX operation from its issue until its writes complete (R269, R422). -/
structure MxOp where
  id : Nat
  team : TeamRef
  tenant : Nat
  pos : Nat
  word : Word32
  /-- a(aA) and a(aB) at its issue, and the image of its v source (R423) -/
  aBase : Double
  bBase : Double
  src : VReg
  issued : Nat
  kind : MxKind
  cover : Cover
  writes : Bool
  aPanel : Option Panel
  bPanel : Option Panel
  /-- the operation whose latch fill its B columns come from (R270) -/
  bFrom : Option Nat
  /-- lines that the tile fetch unit waits for (R267) -/
  waiting : List Nat
  /-- lines held at the home by a demand-mode fault (R538) -/
  held : List Nat
  arrived : Bool
  aRows : List (List Byte × List Nat)
  bCols : Option (List (List Byte × List Nat))
  /-- beats still to run (R269) -/
  beats : Nat
  /-- MX cycles from its last beat to its writes: 21 (R269), or what was left of them at a forced save (R423) -/
  tail : Nat
  /-- MX cycles until its writes complete, once its last beat has run -/
  after : Option Nat
  /-- MX cycles since its issue (R424) -/
  age : Nat
  value : List (List Word32)
  deriving DecidableEq, Repr

/-- Lines pinned by an MMA or MLDB (R266, R271). -/
structure Pin where
  mid : Nat
  team : TeamRef
  bases : List Double
  lines : List Nat
  /-- rel = 0: stays until an MREL, a NODE or an END -/
  held : Bool
  /-- the operation's last beat has run -/
  ended : Bool
  /-- an MREL has named it -/
  released : Bool
  deriving DecidableEq, Repr

/-- A row of tri (R274): the fractions f × 2^38 of R(i, i..15) in columns i to 15 and of y, and the exponent. -/
structure TriRow where
  r : List Int
  y : Int
  g : Nat
  deriving DecidableEq, Repr

/-- The rotation array's state (R274, R515). -/
structure Tri where
  rows : List TriRow
  /-- the record: a direction word and a flip bit for each row, or empty -/
  record : Option (List (Word32 × Bool))
  range : Bool
  deriving DecidableEq, Repr

/-- An RX operation in flight that updates tri: the state it leaves when it lands (R275). -/
structure RxOp where
  id : Nat
  team : TeamRef
  pos : Nat
  word : Word32
  /-- the image of its v source at its issue (R423) -/
  src : VReg
  issued : Nat
  feed : Bool
  rem : Nat
  /-- MX cycles since its issue (R424) -/
  age : Nat
  tri : Tri
  deriving DecidableEq, Repr

/-- A matrix or rotation operation of fixed latency in flight: one with a register result, whose value is its slack entry's, or an
MREL (R104, R421 to R423). -/
structure FixedOp where
  id : Nat
  team : TeamRef
  slot : Slot
  pos : Nat
  word : Word32
  aBase : Double
  src : VReg
  rem : Nat
  /-- MX cycles since its issue (R424) -/
  age : Nat
  deriving DecidableEq, Repr

/-- What a copy or sweep operation does, its operands read at issue (R289, R336). -/
inductive CopyKind where
  | cpy (dst src ds ss : Nat) (beats row : Nat)
  | cpyl (desc : Nat)
  | cpyg (dst base list : Nat) (count e : Nat)
  /-- the slots taken, with the ring's layout at the issue (R300, R532) -/
  | cpyr (ring src base lsz cnt slot0 n : Nat)
  | wsld (off src count : Nat)
  | shoal (h : Nat) (desc : Nat)
  | tide (h : Nat) (cr : BitVec 6) (max : Nat) (quiet : Bool)
  | reefLd (h : Nat) (img : Nat)
  | reefSt (h : Nat) (img : Nat)
  | reefWake (h : Nat)
  | reefClr (h : Nat)
  | ctxi (h : Nat) (img : Word32)
  deriving DecidableEq, Repr

/-- A CPYL descriptor as the engine read it (R294, R295). -/
structure Tensor where
  src : Nat
  dst : Nat
  n : List Nat
  ss : List Int
  ds : List Int
  next : Nat
  deriving DecidableEq, Repr

/-- An entry of the core's copy queue (R67, R289). -/
structure Copy where
  id : Nat
  team : TeamRef
  tenant : Nat
  pos : Nat
  word : Word32
  /-- VWIN values at the issue (R355) -/
  vwin : Vector Double 8
  kind : CopyKind
  tensor : Option Tensor
  wid : Option Nat
  /-- stopped by a demand-mode fault; restarts after the retry (R538) -/
  held : Bool
  /-- a sweep operation whose COPY_COMPLETE is to come -/
  sent : Bool
  /-- DX cycles until its next COPY_COMPLETE or CPYL_PROGRESS, exactly or at least so many (R292) -/
  beats : Option Nat
  exact : Bool
  /-- units of its bytes that it has moved (R535) -/
  moved : Nat
  /-- source bytes that it has overwritten, by their IPA, as they stood before (R292) -/
  kept : SMap Byte
  deriving DecidableEq, Repr

/-- A shoal descriptor bound to h (R313, R314). -/
structure Shoal where
  cfg : Double
  plane : Nat
  edge : Word32
  code : Nat
  desc : Nat
  /-- bound as invalid (R518) -/
  invalid : Bool
  deriving DecidableEq, Repr

/-- A context of the running chunk (R318, R325). -/
structure Runner where
  elem : Nat
  w0 : Word32
  e0 : Word32
  e1 : Word32
  e2 : Word32
  ev : Word32
  cp : Bool
  cpc : Nat
  /-- operations executed in this run (R519) -/
  ops : Nat
  active : Bool
  ste : Option Word32
  deriving DecidableEq, Repr

/-- What the sweep engine does next (R337). -/
inductive SweepPhase where
  | idle
  /-- at a chunk boundary: the next chunk is decided (R324) -/
  | boundary
  | load (wait : Nat)
  | run
  | commit (wait : Nat)
  | ending (wait : Nat)
  /-- paused at a boundary for at most so many VX cycles, this one included (R338) -/
  | paused (left : Nat)
  deriving DecidableEq, Repr

/-- The sweep engine (R324 to R340). -/
structure Sweep where
  phase : SweepPhase
  /-- copy-queue entry of the running TIDE or TIDEQ -/
  op : Option Nat
  team : TeamRef
  h : Nat
  cr : BitVec 6
  quiet : Bool
  /-- tides still to run, the running one included -/
  left : Nat
  /-- tides already run by the instruction -/
  ran : Nat
  chunk : Nat
  /-- contexts that ran and contexts that reached CDONE in the tide (R335) -/
  runs : Nat
  dones : Nat
  /-- the chunk's element values at its load (R330) -/
  elems : List Word32
  runners : List Runner
  /-- elements whose context the load read with reef bit 1 and that did not become runners (R312) -/
  loaded : List (Nat × Word32)
  serial : Bool
  /-- working copy of the accumulator (R332) -/
  acc : Word32
  /-- elements woken by the chunk's CWAKEs (R331) -/
  wakes : List Nat
  /-- chunks that the tide has committed (R330) -/
  commits : List Nat
  /-- lanes of the group that executes its operation in this VX cycle: indexes into `runners` (R326) -/
  lanes : List Nat
  deriving DecidableEq, Repr

/-- A ring bound on a core (R298): the LM offset of its descriptor, and the layout that RINIT checked. -/
structure RingBind where
  off : Nat
  cnt : Nat
  lsz : Nat
  base : Nat
  deriving DecidableEq, Repr

/-- Slots taken by a producer and not yet counted as filled (R242, R300): `copy` is the CPYR that still writes them. -/
structure RingFill where
  ring : Nat
  copy : Option Nat
  n : Nat
  deriving DecidableEq, Repr

/-- One physical core (R67). -/
structure Core where
  die : Nat
  pcore : Nat
  clkd : Double
  /-- reference cycle at which each domain's cycles are counted from (R96) -/
  base : Vector Nat 4
  /-- divisor change that waits for the core's next S bundle (R96) -/
  floorChange : Bool
  grant : Nat
  wsum : Nat
  /-- grant that applies from the next window (R444) -/
  nextGrant : Option Nat
  /-- no bundle has been placed in this window (R99) -/
  freshWindow : Bool
  stalled : Bool
  ewt0 : Double
  ewt1 : Double
  pwrq : Option Nat
  issuing : Option Nat
  /-- reference cycle at which the chosen team's first bundle may be placed (R57) -/
  issueFrom : Nat
  l1d : List Line
  istore : List ILine
  copies : List Copy
  acc : Acc
  tags : Vector Bool 8
  latch : Option BLatch
  /-- the latch's shape is unspecified, after a NODE or END (R507) -/
  latchOpen : Bool
  mxq : List MxOp
  pins : List Pin
  tri : Tri
  rxq : List RxOp
  fixed : List FixedOp
  /-- MX cycles of RX occupation and DX cycles of DX occupation left, with the team (R69) -/
  rxBusy : Nat
  rxTeam : TeamRef
  dxBusy : Nat
  dxTeam : TeamRef
  rings : Vector (Option RingBind) 8
  /-- slots not yet filled of the core's rings, in slot order -/
  fills : List RingFill
  shoals : Vector (Option Shoal) 4
  /-- the context-code store: an unlisted word is 0 for epoch 0, and otherwise part of the unspecified array `codeEpoch`
  (R60) -/
  code : SMap Word32
  codeEpoch : Nat
  sweep : Sweep
  /-- energy in picojoules that its teams retired in the last whole µs (R449) -/
  load : Nat
  /-- reference cycles of its ebb sequence that are left, of how many, and the load it started from (R449) -/
  ebb : Nat
  ebbLength : Nat
  ebbLoad : Nat
  deriving DecidableEq, Repr

/-- A cove of a die (R16, R447, R448). -/
structure Cove where
  gated : Bool
  /-- end of the hold of R448 -/
  holdEnd : Nat
  wanted : Option Nat
  waking : Option Nat
  failed : Bool
  idleFrom : Nat
  /-- the trap FIFO's 64 records of 128 bytes, by their offset from the FIFO base (R426, R427, R430) -/
  fifo : Memory
  /-- the supervisor's trap interrupt, held while the FIFO is not empty (R426) -/
  irq : Bool
  tail : Nat
  head : Nat
  seq : Nat
  deriving DecidableEq, Repr

/-- A cluster's staging share (R185, R219): the steps last requested, and for each step of 4 MiB granted the
unspecified array that its bytes held when it was added. -/
structure Stage where
  cluster : Nat
  req : Nat
  epochs : List Nat
  /-- the steps that a saved cluster gave up, which its restore asks for again (log entry 20) -/
  parked : Nat
  deriving DecidableEq, Repr

/-- One compute die (R16 to R18). -/
structure Die where
  num : Nat
  remap : Vector (Option Nat) 64
  l2 : List Line
  coves : Vector Cove 9
  lastGrant : Option Nat
  staging : List Stage
  /-- the weight store by offset (R302) -/
  weight : Memory
  weightSide : SMap (Nat × List (Nat × Byte))
  /-- sidebands of staging lines, by staging address (R265, R291) -/
  stageSide : SMap (Nat × List (Nat × Byte))
  /-- lines written by WSLD whose NODE has not completed, with the team (R304) and poisoned lines (R539) -/
  weightPoison : List Nat
  misses : Nat
  answering : Bool
  /-- migrations under way, as source and target core (R439, R452) -/
  migrating : List (Nat × Nat)
  /-- accesses to the LM of a core whose teams stand for their migration, by its logical core, in the order of their arrival
  (R345, R439, R440) -/
  heldLm : List (Nat × Instr × Occ)
  deriving DecidableEq, Repr

/-- A hardware barrier of a cluster (R49, R195). -/
structure Barrier where
  expected : Nat
  next : Option Nat
  phase : Nat
  arrived : Nat
  deriving DecidableEq, Repr

/-- Whether a cluster's teams are on cores (R61). -/
inductive ClusterPhase where
  | placed | resident | saving | saved | ended
  deriving DecidableEq, Repr

/-- A cluster of a launch (R47). -/
structure Cluster where
  id : Nat
  launch : Nat
  tenant : Nat
  die : Nat
  index : Nat
  teams : List TeamRef
  ended : List TeamRef
  own : Bool
  phase : ClusterPhase
  barriers : Vector Barrier 16
  forced : Bool
  /-- its restore waits for coves that have been asked to wake, which the hub keeps for it (R448) -/
  waking : Bool := false
  deriving DecidableEq, Repr

/-- A saved team (R433, R434): its bytes lie in its save area, in memory, and the hub keeps what the area does not hold: the
team's identity, its waits and counts, and of its core the sweep operations in flight and the pins. Format 1 yield, 2 node,
3 forced. -/
structure Saved where
  team : Team
  format : Nat
  owner : Option Core
  /-- a reply to the team's call has been delivered and waits in the reply slot (R438) -/
  reply : Bool
  deriving DecidableEq, Repr

/-- A thread of a packet that runs on the control die (R397): its cluster index and rank, its entry, and x10 to x16 as it
enters. -/
structure Thread where
  index : Nat
  rank : Nat
  entry : Nat
  x : List Double
  returned : Bool
  deriving DecidableEq, Repr

/-- A packet the hub has started, from its own copy (R399, R403). -/
structure Launch where
  id : Nat
  qid : Nat
  k : Nat
  tenant : Nat
  packet : List Byte
  clusters : List Nat
  /-- for each latency profile, the entry's VA and the bytes from it to the end of its code section; none where the
  kernel lacks the variant (R145) -/
  entries : List (Option (Nat × Nat))
  losses : Nat
  firstStart : Nat
  status : Option Nat
  replay : Option (Nat × Nat)
  /-- the pages of its working set, pinned until it retires (R399, R403) -/
  pins : List Nat
  threads : List Thread
  deriving DecidableEq, Repr

/-- A replay of a graph queue (R408, R409). -/
structure Replay where
  num : Nat
  tag : Word32
  nodes : List (List Byte)
  started : List Nat
  retired : List Nat
  /-- the status of the first node that did not retire normally, else 0 -/
  status : Nat
  deriving DecidableEq, Repr

/-- The working set of a packet that stands at head (R399): `node` is 0 for the packet of a packet queue and otherwise the node's
number plus 1, and `k` the packet or the replay. -/
structure WorkSet where
  node : Nat
  k : Nat
  pinned : List Nat
  /-- pages that the fault service has been asked for, with the reference cycle of the request -/
  asked : List (Nat × Nat)
  /-- an entry of it lies in no window (R544) -/
  bad : Bool
  deriving DecidableEq, Repr

/-- A registered user queue (R389 to R391). -/
structure Queue where
  qid : Nat
  tenant : Nat
  desc : Nat
  cfg : Double
  bound : Bool
  stopped : Bool
  /-- waits for a hardware queue slot (R398) -/
  waiting : Bool
  /-- held at its head until a notify, a wake or a retirement of its own (R402) -/
  held : Bool
  /-- last start and last activity, for R398 and R400 -/
  lastStart : Nat
  idleFrom : Nat
  /-- packets started and not reported; retired ones -/
  started : List Nat
  rseq : Nat
  hdrFrom : Option Nat
  depFrom : Option Nat
  /-- the working sets of the packets at head -/
  work : List WorkSet
  /-- graph mode (R407 to R409) -/
  graph : List (List Byte)
  graphSignal : Nat
  kicks : List (Nat × Word32)
  dropped : Nat
  replays : Nat
  replay : Option Replay
  deriving DecidableEq, Repr

/-- A waiter of a wait-and-wake key (R412). -/
inductive Waiter where
  /-- a team of a cluster: a saved one keeps its place while another team holds its slot -/
  | team (t : TeamRef) (cluster : Nat)
  | host (j : Nat)
  | queue (qid : Nat)
  /-- a waiter of another package, by the number that it has there (R415) -/
  | remote (pkg who : Nat)
  deriving DecidableEq, Repr

/-- A waiter of this package that stands in another package's table (R411, R415). -/
structure Abroad where
  id : Nat
  pkg : Nat
  tenant : Nat
  va : Nat
  who : Waiter
  deriving DecidableEq, Repr

/-- Where a request goes from a link: over a link of this package, over any UALink port to a package, over any Ultra Ethernet
port, or to the place of its address (R456, R457, R459, R574). -/
inductive Hop where
  | link (l : Nat) (out : Bool)
  | pod (pkg : Nat)
  | ethernet
  /-- the links from the hub to the place that holds the request's address -/
  | place
  deriving DecidableEq, Repr

/-- A request that waits at a link (R457, R458): its payload, the tenant, the links still to cross, and what it brings about
once it has crossed them. -/
structure LinkReq where
  tenant : Nat
  size : Nat
  issued : Nat
  ipa : Nat
  hops : List Hop
  what : Option (Instr × Occ)
  deriving DecidableEq, Repr

/-- A link in one direction (R458): the class that its round has come to, whether that class has taken its quantum of the
round, the deficits, and the requests that wait, oldest first. -/
structure LinkQ where
  link : Nat
  out : Bool
  cls : Nat
  paid : Bool
  deficit : SMap Nat
  waiting : List (Nat × LinkReq)
  deriving DecidableEq, Repr

/-- An entry of the wait-and-wake table (R411): key = (tenant, VA). -/
structure WaitKey where
  tenant : Nat
  va : Nat
  token : Bool
  waiters : List Waiter
  deriving DecidableEq, Repr

/-- A record of the error log (R494). -/
structure ErrRec where
  seq : Nat
  time : Nat
  src : Double
  addr : Nat
  detail : Double
  pkt : Double
  deriving DecidableEq, Repr

/-- What an access does with the bytes. -/
inductive AccKind where
  | read | write | atomic
  deriving DecidableEq, Repr

/-- A memory access of the hub's own that the home makes wait (R352, R536): its tenant, its IPA and its kind, and whether a fault
request is to be raised for it. The event at hand takes no effect, and is tried again. -/
structure HubWait where
  tenant : Nat
  ipa : Nat
  kind : AccKind
  hold : Bool
  deriving DecidableEq, Repr

/-- A record of the fault request ring (R537), with the requests that joined it, each as the event that tries it
again. -/
structure FaultReq where
  id : Nat
  page : Nat
  kind : Nat
  tenant : Nat
  /-- the requesting package -/
  pkg : Nat
  waiters : List (Instr × Occ)
  /-- the fault service that the ownership table names (R365) -/
  service : Nat
  time : Nat
  answered : Bool
  deriving DecidableEq, Repr

/-- The class of a directory region (R385). -/
inductive RegionClass where
  | empty | priv (agent : Nat) | readOnly (agents : List Nat) | shared
  deriving DecidableEq, Repr

/-- The MOESI states of a line (R385). -/
inductive Moesi where
  | modified | owned | exclusive | shared | invalid
  deriving DecidableEq, Repr

/-- What the directory records of a line of a shared region (R385): a line with no record is invalid everywhere. -/
structure DirLine where
  ipa : Nat
  st : Moesi
  holders : List Nat
  deriving DecidableEq, Repr

/-- A region of the directory (R385): a 64 KiB range with no entry is one empty region. Agents are numbered as the
sockets are: a compute die by its number, 8 the control die's cores, 9 the host. -/
structure Region where
  base : Nat
  log2 : Nat
  cls : RegionClass
  last : Nat
  /-- the records of a shared region's lines -/
  lines : List DirLine
  /-- class-M agents that have accessed a shared region, with the reference cycle of the latest access (R387) -/
  users : SMap Nat
  deriving DecidableEq, Repr

/-- A passenger entry of the capability list (R30). -/
structure Passenger where
  state : Nat
  cls : Nat
  kind : Nat
  gen : Nat
  deriving DecidableEq, Repr

/-- A compute-die entry of the capability list (R31). -/
structure DieEntry where
  gen : Nat
  profile : Nat
  free : Nat
  failed : BitVec 9
  deriving DecidableEq, Repr

/-- A scale-out entry that runs (R461): its index and its op, the VAs of its CPYL descriptor and signal, and the descriptor as the
die has read it. -/
structure ScaleRun where
  k : Nat
  op : Nat
  desc : Nat
  signal : Nat
  endpoint : Nat
  tensor : Tensor
  deriving DecidableEq, Repr

/-- A registered scale-out ring (R460): the endpoint table as the die holds it, four doubles an entry. -/
structure ScaleRing where
  ring : Nat
  tenant : Nat
  desc : Nat
  base : Nat
  lsz : Nat
  endpoints : List (List Double)
  head : Nat
  running : List ScaleRun
  deriving DecidableEq, Repr

/-- The hub and the rest of the package (R14, R26 to R31, R358). -/
structure Hub where
  lgen : Nat
  package : Nat
  partitions : List Partition
  /-- the ownership table: for each 2 MiB of the translated aperture its partition's place in `partitions` and its fault
  service (R365); what it does not name belongs to the first partition and service 0 -/
  owners : List (Nat × Nat × Nat)
  passengers : Vector Passenger 24
  dieEntries : Vector DieEntry 8
  memGen : Nat
  stackStates : Vector Nat 12
  ddr : Nat
  chan : Byte
  ualGen : Nat
  lanes : Vector Nat 64
  ueGen : Nat
  speeds : Vector Nat 16
  cxl : BitVec 2
  width : Nat
  /-- gen of the host link's entry (R31) -/
  hostGen : Nat
  errTail : Nat
  errHead : Nat
  errEpoch : Word32
  log : List ErrRec
  fqTail : Nat
  fqHead : Nat
  faults : List FaultReq
  /-- the control die's fault interrupt, held while the ring is not empty (R537) -/
  faultIrq : Bool
  hptb : Double
  /-- the hub cache and the translation caches (R350, R364) -/
  cache : List HubLine
  tlb : List TlbEntry
  /-- the invalidation that runs (R363) -/
  htinvNow : Double
  htinvBusy : Bool
  htinvQueue : List Double
  tkill : Double
  qtmo : Double
  pslew : Double
  fwBase : Vector Double 16
  fwLen : Vector Double 16
  fwScl : Vector Double 16
  fwLast : Vector (Option Nat) 16
  gltab : Vector Double 16
  clkflr : SMap Double
  tsens : SMap Double
  /-- physical cores whose sensor is disarmed (R452), those whose trip is pending with no target, and those whose floors a trip
  has raised (R569), each as 72 d + p -/
  disarmed : List Nat
  pendingTrips : List Nat
  raised : List Nat
  hwkey : SMap Double
  hwline : SMap Double
  hwTenant : SMap Nat
  shwt : SMap Double
  keyTable : SMap (Double × Double)
  queues : List Queue
  launches : List Launch
  clusters : List Cluster
  saved : List Saved
  waits : List WaitKey
  abroad : List Abroad
  links : List LinkQ
  /-- the first access of the hub's own, in the event at hand, that the home makes wait (R352, R536) -/
  wait : Option HubWait
  /-- requests that no trained port leads on (R574) -/
  stranded : List LinkReq
  regions : List Region
  directoryReclaimAt : Option Nat
  poisoned : List Nat
  rings : List ScaleRing
  imageOk : Bool
  /-- the accepted image, which the package offers in turn (R464) -/
  image : List Double
  booted : Bool
  measure : BitVec 256
  /-- The identity's private key, once an image runs (R465). -/
  identity : BitVec 256
  refreshPhase : Nat
  refreshing : Option Nat
  regrants : Nat
  fatal : Bool
  /-- dies in order of the last placement, for the hub's choice (log entry 14) -/
  lastDie : Nat
  /-- one key mismatch record per tenant and port and millisecond (R575) -/
  keyLog : List (Nat × Nat × Nat)
  deriving DecidableEq, Repr

/-- Which agent moves: the steps that are still to be taken in this reference cycle, in order. -/
inductive Turn where
  /-- the results of a core's domains whose cycle starts count one cycle and land (R74) -/
  | land (die pcore : Nat)
  | dispatch (die pcore : Nat)
  | slot (die pcore : Nat) (j : Slot)
  | sweep (die pcore : Nat)
  /-- S and W completion, freezes, hand-overs and arbitration (R57, R58, R83) -/
  | settle (die pcore : Nat)
  | array (die pcore : Nat)
  | event (i : Instr) (o : Occ)
  deriving DecidableEq, Repr

/-- The machine. -/
structure State where
  /-- the package reference counter (R99, R305) -/
  now : Nat
  agenda : List Turn
  /-- events with the reference cycle they are due in -/
  timers : List (Nat × Instr × Occ)
  /-- what the event being taken names -/
  occ : Occ
  /-- counter of free values (log entry 3) and of identities -/
  free : Nat
  fresh : Nat
  team : Team
  teams : List Team
  core : Core
  cores : List Core
  die : Die
  dies : List Die
  hub : Hub
  /-- pages of local memories whose bytes are unspecified since a NODE or a start, by 2^15 die + 512 lcore + page: the
  unspecified array that memory holds its difference from (R60, R396) -/
  lmEpochs : SMap Nat
  mem : Memory
  deriving DecidableEq, Repr

/-- Why the machine stops. -/
inductive Fault where
  /-- The package has stopped serving requests (outcome 5 of R486) and no package reset is to come. Raised by `step`
  alone, never by an instruction. Safe: nothing is claimed of the package after it. -/
  | packageFatal
  deriving DecidableEq, Repr

/-- Why an instruction has no meaning. -/
inductive Refusal where
  /-- No meaning has been written for the instruction yet. Raised by `exec`. Safe. -/
  | notModelled (mnemonic : String)
  deriving DecidableEq, Repr

/-- A vector of zero lanes. -/
def VReg.zero : VReg := Vector.replicate 64 0

/-- The team of a resident slot before its first launch: TSW.rm is 1 (R180), YLS are all ones (R182); registers
with no reset value hold 0 (log entry 2). -/
def Team.reset (ref : TeamRef) : Team :=
  { ref := ref, resident := false, tenant := 0, cluster := 0,
    s := Vector.replicate 64 0, a := Vector.replicate 16 0, d := Vector.replicate 16 0,
    p := Vector.replicate 8 false, m := Vector.replicate 8 0, v := Vector.replicate 64 VReg.zero,
    tsw := 1, tid := 0, cid := 0, lmg := 0, ecnt := 0, ecntMark := 0, lcnt := 0,
    yls := Vector.replicate 4 0xffffffffffffffff, nsm := Vector.replicate 4 0, vwin := Vector.replicate 8 0,
    pc := 0, cur := { mask := 0, s := false, w := false, e := 0, ct := 0, words := [0, 0, 0, 0, 0, 0, 0] }, bpc := 0,
    pass := Vector.replicate 8 0, queue := [], holding := Vector.replicate 8 false,
    lcntNow := 0, skipCt := false, delay := none, link := false, loop := none, sync := none, refwUntil := none,
    park := .none, handover := false, flight := [], vars := [], writes := [], stlSent := false, fenceSet := none, fenceSent := false, relScopes := [], phaseEnd := none,
    noted := Vector.replicate 16 none, arrivals := [], wakes := [], acqDie := 0, acqPkg := 0, trap := none,
    deferred := [], budget := 0, counted := 0, slice := 0, miss := 0, issued := false, stopAsked := false,
    forcedAsked := false, callSeq := none, saveArea := 0, lastMigration := none,
    atNode := false }

/-- A zero tri with an empty record (R274). -/
def Tri.zero : Tri :=
  { rows := List.replicate 16 { r := List.replicate 16 0, y := 0, g := 0 }, record := none, range := false }

/-- An idle sweep engine. -/
def Sweep.idle : Sweep :=
  { phase := .idle, op := none, team := { die := 0, lcore := 0, rslot := 0 }, h := 0, cr := 0, quiet := false,
    left := 0, ran := 0, chunk := 0, runs := 0, dones := 0, elems := [], runners := [], loaded := [],
    serial := false, acc := 0, wakes := [], commits := [], lanes := [] }

/-- A core after reset: every divisor 2 (R95), grant 0xf_ffff (R98), weights 0x10 but w0 (R97). -/
def Core.reset (die pcore : Nat) : Core :=
  { die := die, pcore := pcore, clkd := 0x2222, base := Vector.replicate 4 0, floorChange := false,
    grant := 0xfffff, wsum := 0, nextGrant := none, freshWindow := true, stalled := false,
    ewt0 := 0x1010101010101000, ewt1 := 0x1010101010101010, pwrq := none,
    issuing := none, issueFrom := 0, l1d := [], istore := [], copies := [],
    acc := { epoch := 0, rows := [] }, tags := Vector.replicate 8 false, latch := none, latchOpen := false,
    mxq := [], pins := [], tri := Tri.zero, rxq := [], fixed := [], rxBusy := 0,
    rxTeam := { die := 0, lcore := 0, rslot := 0 }, dxBusy := 0, dxTeam := { die := 0, lcore := 0, rslot := 0 },
    rings := Vector.replicate 8 none, fills := [], shoals := Vector.replicate 4 none, code := [], codeEpoch := 0,
    sweep := Sweep.idle, load := 0, ebb := 0, ebbLength := 0, ebbLoad := 0 }

/-- A powered cove with an empty trap FIFO. -/
def Cove.reset : Cove :=
  { gated := false, holdEnd := 0, wanted := none, waking := none, failed := false, idleFrom := 0, fifo := [],
    irq := false, tail := 0, head := 0, seq := 0 }

/-- A compute die after reset: logical core l maps to physical core l, and the spare cove is gated (R17, R447). -/
def Die.reset (num : Nat) : Die :=
  { num := num, remap := Vector.ofFn fun l => some l.val, l2 := [], coves := Vector.ofFn fun v => { Cove.reset with gated := decide (v.val = 8) },
    lastGrant := none, staging := [], weight := [], weightSide := [], stageSide := [], weightPoison := [], misses := 0,
    answering := true, migrating := [], heldLm := [] }

/-- The hub after reset: the reset column of each register's map. The spec gives no latency profile for a die before its
enumeration and no lane count for the host link before boot: the model has profile 2 and 16 lanes (DESIGN CHOICE, log entry
2). -/
def Hub.reset : Hub :=
  { lgen := 0, package := 0,
    partitions := [], owners := [],
    passengers := Vector.replicate 24 { state := 0, cls := 0, kind := 0, gen := 0 },
    dieEntries := Vector.replicate 8 { gen := 0, profile := 2, free := 8, failed := 0 },
    memGen := 0, stackStates := Vector.replicate 12 0, ddr := 0, chan := 0, ualGen := 0, lanes := Vector.replicate 64 0,
    ueGen := 0, speeds := Vector.replicate 16 0, cxl := 0, width := 16, hostGen := 0, errTail := 0, errHead := 0,
    errEpoch := 0, log := [], fqTail := 0, fqHead := 0, faults := [], faultIrq := false, hptb := 0, cache := [], tlb := [],
    htinvNow := 0, htinvBusy := false,
    htinvQueue := [], tkill := 0, qtmo := 0x100000000000, pslew := 0x64,
    fwBase := Vector.replicate 16 0, fwLen := Vector.replicate 16 0, fwScl := Vector.replicate 16 0,
    fwLast := Vector.replicate 16 none, gltab := Vector.replicate 16 0xfffff, clkflr := [], tsens := [],
    disarmed := [], pendingTrips := [], raised := [], hwkey := [], hwline := [], hwTenant := [], shwt := [], keyTable := [],
    queues := [], launches := [], clusters := [], saved := [], waits := [], abroad := [], links := [], wait := none, stranded := [], regions := [],
    directoryReclaimAt := none, poisoned := [], rings := [], imageOk := false, image := [], booted := false, measure := 0, identity := 0,
    refreshPhase := 0, refreshing := some 0, regrants := 0, fatal := false, lastDie := 7, keyLog := [] }

/-- The machine right after reset: no team is resident, nothing is queued, memory lists nothing. -/
def State.reset : State :=
  { now := 0, agenda := [], timers := [], occ := {}, free := 0, fresh := 1,
    team := Team.reset { die := 0, lcore := 0, rslot := 0 }, teams := [],
    core := Core.reset 0 0, cores := [], die := Die.reset 0, dies := [], hub := Hub.reset, lmEpochs := [],
    mem := [] }

end Sys2Proof.Machine
end

