-- ==== Sys2Proof/Machine/Bits.lean ====
section
/-! DEFINITION. Bit fields, byte strings, maps at rising keys and the byte memory: the helpers that every family
uses (spec/00_scope.md R3: bytes are numbered from the low end, the memory is little-endian). -/

namespace Sys2Proof.Machine

/-- Bits `hi` to `lo` of a double as a number. -/
def field (x : Double) (hi lo : Nat) : Nat := x.toNat / 2 ^ lo % 2 ^ (hi + 1 - lo)

/-- `x` with bits `hi` to `lo` replaced. -/
def setField (x : Double) (hi lo : Nat) (v : Nat) : Double :=
  let w := hi + 1 - lo
  let mask : Double := BitVec.ofNat 64 ((2 ^ w - 1) * 2 ^ lo)
  (x &&& ~~~mask) ||| BitVec.ofNat 64 (v % 2 ^ w * 2 ^ lo)

/-- The low `n` bits of a number, sign-extended to a double. -/
def sextNat (n x : Nat) : Double := (BitVec.ofNat n x).signExtend 64

/-- Element `i` of a list, or `d` past its end. -/
def nth {α : Type} (l : List α) (i : Nat) (d : α) : α := (l[i]?).getD d

/-- The list with element `i` replaced, if it has one. -/
def put {α : Type} (l : List α) (i : Nat) (x : α) : List α := l.set i x

/-- Element `i` of a vector, or `d` past its end. -/
def vget {α : Type} {n : Nat} (v : Vector α n) (i : Nat) (d : α) : α := (v[i]?).getD d

/-- The vector with element `i` replaced, if it has one. -/
def vput {α : Type} {n : Nat} (v : Vector α n) (i : Nat) (x : α) : Vector α n := v.setIfInBounds i x

/-- The value at a key, if it is listed. -/
def SMap.get? {α : Type} : SMap α → Nat → Option α
  | [], _ => none
  | (k, v) :: t, a => if a = k then some v else SMap.get? t a

/-- The map with the value at a key replaced, the keys still rising. -/
def SMap.insert {α : Type} : SMap α → Nat → α → SMap α
  | [], a, x => [(a, x)]
  | (k, v) :: t, a, x =>
    if a < k then (a, x) :: (k, v) :: t
    else if a = k then (k, x) :: t
    else (k, v) :: SMap.insert t a x

/-- The map without a key. -/
def SMap.remove {α : Type} : SMap α → Nat → SMap α
  | [], _ => []
  | (k, v) :: t, a => if a = k then SMap.remove t a else (k, v) :: SMap.remove t a

/-- The byte at an address; an unlisted one reads 0 (log entry 1). -/
def Memory.byte (m : Memory) (a : Nat) : Byte := (SMap.get? m a).getD 0

/-- Memory after one byte is written: a byte equal to what an unlisted address reads as is not listed. -/
def Memory.setByte (m : Memory) (a : Nat) (b : Byte) : Memory :=
  if b = 0 then SMap.remove m a else SMap.insert m a b

/-- `n` bytes from an address up. -/
def Memory.bytes (m : Memory) (a : Nat) : Nat → List Byte
  | 0 => []
  | n + 1 => m.byte a :: Memory.bytes m (a + 1) n

/-- Memory after a byte string is written from an address up. -/
def Memory.setBytes (m : Memory) (a : Nat) : List Byte → Memory
  | [] => m
  | b :: t => Memory.setBytes (m.setByte a b) (a + 1) t

/-- Memory after the bytes that are present are written. -/
def Memory.setSome (m : Memory) (a : Nat) : List (Option Byte) → Memory
  | [] => m
  | none :: t => Memory.setSome m (a + 1) t
  | some b :: t => Memory.setSome (m.setByte a b) (a + 1) t

/-- The keys rise strictly from `lo` up, and no listed byte is the unlisted value. -/
def Memory.wfFrom : Nat → Memory → Bool
  | _, [] => true
  | lo, (k, b) :: t => decide (lo ≤ k) && b != 0 && Memory.wfFrom (k + 1) t

/-- The canonical form: addresses strictly rising, no entry equal to what an unlisted address reads as. -/
def Memory.wf (m : Memory) : Bool := Memory.wfFrom 0 m

/-- A byte string as a number, the lowest address first (R3). -/
def leNat : List Byte → Nat
  | [] => 0
  | b :: t => b.toNat + 256 * leNat t

/-- The low `n` bytes of a number, the lowest address first (R3). -/
def natBytes : Nat → Nat → List Byte
  | 0, _ => []
  | n + 1, x => BitVec.ofNat 8 x :: natBytes n (x / 256)

/-- The double at an address. -/
def Memory.double (m : Memory) (a : Nat) : Double := BitVec.ofNat 64 (leNat (m.bytes a 8))

/-- Memory after a double is written. -/
def Memory.setDouble (m : Memory) (a : Nat) (x : Double) : Memory := m.setBytes a (natBytes 8 x.toNat)

/-- A number as a double. -/
def dbl (n : Nat) : Double := BitVec.ofNat 64 n

/-- The double at an offset of a byte string. -/
def doubleAt (bs : List Byte) (off : Nat) : Double := BitVec.ofNat 64 (leNat ((bs.drop off).take 8))

/-- The number `size` bytes wide at an offset of a byte string. -/
def numAt (bs : List Byte) (off size : Nat) : Nat := leNat ((bs.drop off).take size)

/-- The first element satisfying a test replaced by its image. -/
def modFirst {α : Type} (p : α → Bool) (f : α → α) : List α → List α
  | [] => []
  | x :: t => if p x then f x :: t else x :: modFirst p f t

/-- Every element satisfying a test replaced by its image. -/
def modWhere {α : Type} (p : α → Bool) (f : α → α) (l : List α) : List α := l.map fun x => if p x then f x else x

/-- The numbers from `a` up, `n` of them. -/
def upFrom (a n : Nat) : List Nat := (List.range n).map (a + ·)

/-- How many bits of a double are set. -/
def popCount (x : Double) : Nat := (List.range 64).foldl (fun n i => n + (x.getLsbD i).toNat) 0

/-- The list without repeats, first occurrences kept. -/
def dedup {α : Type} [DecidableEq α] : List α → List α
  | [] => []
  | x :: t => x :: (dedup t).filter (· ≠ x)

/-- An element entered into a sorted list, after those that it does not precede. -/
def insertBy {α : Type} (before : α → α → Bool) (x : α) : List α → List α
  | [] => [x]
  | y :: t => if before x y then x :: y :: t else y :: insertBy before x t

/-- The list sorted, equal elements keeping their order. -/
def sortBy {α : Type} (before : α → α → Bool) (l : List α) : List α :=
  l.foldl (fun acc x => insertBy before x acc) []

/-- The number of the slot (R8). -/
def slotNum : Slot → Nat
  | .ct => 0 | .sx => 1 | .ad => 2 | .ls => 3 | .vx => 4 | .mx => 5 | .rx => 6 | .dx => 7

/-- The slot of a number. -/
def slotOf : Nat → Slot
  | 0 => .ct | 1 => .sx | 2 => .ad | 3 => .ls | 4 => .vx | 5 => .mx | 6 => .rx | _ => .dx

/-- The clock domain of a slot (R8, R104). -/
def slotDomain : Slot → Domain
  | .vx => .vx | .mx => .mx | .rx => .mx | .dx => .dx | _ => .core

end Sys2Proof.Machine
end

