-- ==== Sys2Proof/Machine/Float.lean ====
section
/-! DEFINITION. Floating point, conversions and block floating point, each result computed exactly and rounded
once (spec/06_numbers.md R147 to R159). A value of a format is held as its bit pattern, a natural number. -/

namespace Sys2Proof.Machine

/-- A floating format: widths of the exponent and of the fraction (R147). -/
structure FFmt where
  eb : Nat
  fb : Nat
  deriving DecidableEq, Repr

/-- The formats of R147. -/
def f16 : FFmt := ⟨5, 10⟩
@[inherit_doc f16] def bf16 : FFmt := ⟨8, 7⟩
@[inherit_doc f16] def f32 : FFmt := ⟨8, 23⟩
@[inherit_doc f16] def f64 : FFmt := ⟨11, 52⟩

/-- The rounding modes (R112, R149). -/
inductive Rnd where
  | ne | tz | up | dn
  deriving DecidableEq, Repr

/-- A decoded floating value: a NaN, an infinity, or ±m × 2^e. -/
inductive FVal where
  | nan
  | inf (neg : Bool)
  | fin (neg : Bool) (m : Nat) (e : Int)
  deriving DecidableEq, Repr

/-- The exponent bias (R147). -/
def FFmt.bias (f : FFmt) : Nat := 2 ^ (f.eb - 1) - 1

/-- The width of the format in bits. -/
def FFmt.width (f : FFmt) : Nat := 1 + f.eb + f.fb

/-- The canonical NaN (R147). -/
def FFmt.nan (f : FFmt) : Nat := (2 ^ f.eb - 1) * 2 ^ f.fb + 2 ^ (f.fb - 1)

/-- An infinity (R147). -/
def FFmt.inf (f : FFmt) (neg : Bool) : Nat := (if neg then 2 ^ (f.eb + f.fb) else 0) + (2 ^ f.eb - 1) * 2 ^ f.fb

/-- The largest finite value of a sign (R147). -/
def FFmt.huge (f : FFmt) (neg : Bool) : Nat := f.inf neg - 1

/-- A zero (R147). -/
def FFmt.zero (f : FFmt) (neg : Bool) : Nat := if neg then 2 ^ (f.eb + f.fb) else 0

/-- Whether the sign bit is set. -/
def FFmt.sign (f : FFmt) (x : Nat) : Bool := decide (x / 2 ^ (f.eb + f.fb) % 2 = 1)

/-- The exponent field. -/
def FFmt.exp (f : FFmt) (x : Nat) : Nat := x / 2 ^ f.fb % 2 ^ f.eb

/-- The fraction field. -/
def FFmt.frac (f : FFmt) (x : Nat) : Nat := x % 2 ^ f.fb

/-- The value of a bit pattern (R147); subnormals are kept (R148). -/
def FFmt.unpack (f : FFmt) (x : Nat) : FVal :=
  if f.exp x = 2 ^ f.eb - 1 then (if f.frac x = 0 then .inf (f.sign x) else .nan)
  else if f.exp x = 0 then .fin (f.sign x) (f.frac x) (1 - (f.bias : Int) - f.fb)
  else .fin (f.sign x) (2 ^ f.fb + f.frac x) ((f.exp x : Int) - f.bias - f.fb)

/-- Whether a magnitude rounds up: `q` is the truncated magnitude, `r` the remainder of `2^sh` (R149). -/
def roundsUp (mode : Rnd) (neg : Bool) (q r sh : Nat) : Bool :=
  if r = 0 then false
  else match mode with
    | .ne => if 2 * r = 2 ^ sh then decide (q % 2 = 1) else decide (2 ^ sh < 2 * r)
    | .tz => false
    | .up => !neg
    | .dn => neg

/-- A magnitude divided by `2^sh` and rounded. -/
def shiftRound (mode : Rnd) (neg : Bool) (m sh : Nat) : Nat :=
  m / 2 ^ sh + (if roundsUp mode neg (m / 2 ^ sh) (m % 2 ^ sh) sh then 1 else 0)

/-- Overflow under each mode (R149). -/
def FFmt.overflow (f : FFmt) (mode : Rnd) (neg : Bool) : Nat :=
  match mode, neg with
  | .ne, n => f.inf n
  | .tz, n => f.huge n
  | .up, true => f.huge true
  | .up, false => f.inf false
  | .dn, true => f.inf true
  | .dn, false => f.huge false

/-- ±m × 2^e rounded to the format: rne(·, f, mode) of R11. -/
def FFmt.round (f : FFmt) (mode : Rnd) (neg : Bool) (m : Nat) (e : Int) : Nat :=
  if m = 0 then f.zero neg
  else
    let lo : Int := 1 - (f.bias : Int) - f.fb
    let qe : Int := max (e + m.log2 - f.fb) lo
    let q := if qe ≤ e then m * 2 ^ (e - qe).toNat else shiftRound mode neg m (qe - e).toNat
    let (q, qe) := if 2 ^ (f.fb + 1) ≤ q then (q / 2, qe + 1) else (q, qe)
    if q < 2 ^ f.fb then f.zero neg + q
    else
      let ef := (qe - lo).toNat + 1
      if 2 ^ f.eb - 1 ≤ ef then f.overflow mode neg
      else f.zero neg + ef * 2 ^ f.fb + (q - 2 ^ f.fb)

/-- ±(n / d) × 2^e rounded to the format, for n and d not zero: the quotient is taken to more bits than the format
holds, with a sticky bit for the rest. -/
def FFmt.roundRat (f : FFmt) (mode : Rnd) (neg : Bool) (n d : Nat) (e : Int) : Nat :=
  let k := f.fb + 4 + d.log2 - n.log2
  let q := n * 2 ^ k / d
  let st := if n * 2 ^ k % d = 0 then 0 else 1
  f.round mode neg (2 * q + st) (e - k - 1)

/-- The integer square root, found from bit `k` down. -/
def isqrtFrom : Nat → Nat → Nat → Nat
  | 0, n, r => if (r + 1) * (r + 1) ≤ n then r + 1 else r
  | k + 1, n, r =>
    let r' := r + 2 ^ (k + 1)
    isqrtFrom k n (if r' * r' ≤ n then r' else r)

/-- The integer square root. -/
def isqrt (n : Nat) : Nat := isqrtFrom (n.log2 / 2 + 1) n 0

/-- A signed magnitude as an integer. -/
def sgn (neg : Bool) (m : Nat) : Int := if neg then -(m : Int) else m

/-- An exact sum of terms x × 2^e, over the smallest exponent. -/
def addExact (x : Int) (ex : Int) (y : Int) (ey : Int) : Int × Int :=
  let e := min ex ey
  (x * 2 ^ (ex - e).toNat + y * 2 ^ (ey - e).toNat, e)

/-- An exact value rounded; an exact zero takes the sign given. -/
def FFmt.roundInt (f : FFmt) (mode : Rnd) (zneg : Bool) (x : Int) (e : Int) : Nat :=
  if x = 0 then f.zero zneg else f.round mode (decide (x < 0)) x.natAbs e

/-- The sign of an exact zero that a sum of non-zero terms, or of zeros of two signs, gives: negative only under dn
(IEEE 754-2019, R149). -/
def zeroSign (mode : Rnd) (a b : Bool) : Bool := if a = b then a else decide (mode = .dn)

/-- Floating sum (R149, R151, R152). -/
def FFmt.add (f : FFmt) (mode : Rnd) (a b : Nat) : Nat :=
  match f.unpack a, f.unpack b with
  | .nan, _ | _, .nan => f.nan
  | .inf s, .inf t => if s = t then f.inf s else f.nan
  | .inf s, _ => f.inf s
  | _, .inf t => f.inf t
  | .fin s m e, .fin t n e' =>
    let (x, ex) := addExact (sgn s m) e (sgn t n) e'
    f.roundInt mode (zeroSign mode s t) x ex

/-- The pattern with its sign changed. -/
def FFmt.neg (f : FFmt) (a : Nat) : Nat := if f.sign a then a - 2 ^ (f.eb + f.fb) else a + 2 ^ (f.eb + f.fb)

/-- Floating difference. -/
def FFmt.sub (f : FFmt) (mode : Rnd) (a b : Nat) : Nat := f.add mode a (f.neg b)

/-- Floating product. -/
def FFmt.mul (f : FFmt) (mode : Rnd) (a b : Nat) : Nat :=
  match f.unpack a, f.unpack b with
  | .nan, _ | _, .nan => f.nan
  | .inf s, .inf t => f.inf (s != t)
  | .inf s, .fin t m _ => if m = 0 then f.nan else f.inf (s != t)
  | .fin t m _, .inf s => if m = 0 then f.nan else f.inf (s != t)
  | .fin s m e, .fin t n e' => f.round mode (s != t) (m * n) (e + e')

/-- a × b + c with one rounding (R149, R209). -/
def FFmt.fma (f : FFmt) (mode : Rnd) (a b c : Nat) : Nat :=
  match f.unpack a, f.unpack b, f.unpack c with
  | .nan, _, _ | _, .nan, _ | _, _, .nan => f.nan
  | .fin s m e, .fin t n e', .fin u k e'' =>
    let (x, ex) := addExact (sgn (s != t) (m * n)) (e + e') (sgn u k) e''
    f.roundInt mode (zeroSign mode (s != t) u) x ex
  | .fin _ _ _, .fin _ _ _, .inf u => f.inf u
  | .fin s m _, .inf t, z | .inf t, .fin s m _, z =>
    if m = 0 then f.nan
    else match z with
      | .inf u => if u = (s != t) then f.inf u else f.nan
      | _ => f.inf (s != t)
  | .inf s, .inf t, z =>
    match z with
    | .inf u => if u = (s != t) then f.inf u else f.nan
    | _ => f.inf (s != t)

/-- Floating quotient (R151). -/
def FFmt.div (f : FFmt) (mode : Rnd) (a b : Nat) : Nat :=
  match f.unpack a, f.unpack b with
  | .nan, _ | _, .nan => f.nan
  | .inf _, .inf _ => f.nan
  | .inf s, .fin t _ _ => f.inf (s != t)
  | .fin s _ _, .inf t => f.zero (s != t)
  | .fin s m e, .fin t n e' =>
    if n = 0 then (if m = 0 then f.nan else f.inf (s != t))
    else if m = 0 then f.zero (s != t)
    else f.roundRat mode (s != t) m n (e - e')

/-- m × 2^e, its exponent even and the magnitude wide enough for its root to fill the format. -/
def sqrtScale (f : FFmt) (m : Nat) (e : Int) : Nat × Int :=
  let k := 2 * (f.fb + 4)
  let k := if (e - k) % 2 = 0 then k else k + 1
  (m * 2 ^ k, e - k)

/-- Floating square root: of −0 it is −0 (R209). -/
def FFmt.sqrt (f : FFmt) (mode : Rnd) (a : Nat) : Nat :=
  match f.unpack a with
  | .nan => f.nan
  | .inf s => if s then f.nan else f.inf false
  | .fin s m e =>
    if m = 0 then f.zero s
    else if s then f.nan
    else
      let (n, e) := sqrtScale f m e
      let r := isqrt n
      f.round mode false (2 * r + (if r * r = n then 0 else 1)) (e / 2 - 1)

/-- The order of a pattern among the numbers of its format, the two zeros equal. -/
def FFmt.key (f : FFmt) (a : Nat) : Int := sgn (f.sign a) (a % 2 ^ (f.eb + f.fb))

/-- Whether a pattern is a NaN. -/
def FFmt.isNan (f : FFmt) (a : Nat) : Bool := decide (f.exp a = 2 ^ f.eb - 1) && decide (f.frac a ≠ 0)

/-- Whether `a` lies below `b`, −0 below +0 (R153). -/
def FFmt.below (f : FFmt) (a b : Nat) : Bool :=
  decide (f.key a < f.key b) || (decide (f.key a = f.key b) && f.sign a && !f.sign b)

/-- The smaller value (R153). -/
def FFmt.min (f : FFmt) (a b : Nat) : Nat :=
  if f.isNan a then (if f.isNan b then f.nan else b) else if f.isNan b then a else if f.below b a then b else a

/-- The larger value (R153). -/
def FFmt.max (f : FFmt) (a b : Nat) : Nat :=
  if f.isNan a then (if f.isNan b then f.nan else b) else if f.isNan b then a else if f.below a b then b else a

/-- ±m × 2^e rounded to an integer. -/
def roundToInt (mode : Rnd) (neg : Bool) (m : Nat) (e : Int) : Int :=
  if 0 ≤ e then sgn neg (m * 2 ^ e.toNat) else sgn neg (shiftRound mode neg m (-e).toNat)

/-- An integer clamped to a range: sat of R11. -/
def clamp (lo hi x : Int) : Int := if x < lo then lo else if hi < x then hi else x

/-- The range of an integer format: i(w) signed, n(w) natural. -/
def intLo (signed : Bool) (w : Nat) : Int := if signed then -(2 ^ (w - 1) : Int) else 0
@[inherit_doc intLo] def intHi (signed : Bool) (w : Nat) : Int := if signed then 2 ^ (w - 1) - 1 else 2 ^ w - 1

/-- A conversion type: a floating format, or an integer format of a sign and a width (R112, R127). -/
inductive CvtType where
  | flt (f : FFmt)
  | int (signed : Bool) (w : Nat)
  deriving DecidableEq, Repr

/-- The integer that the low bits of a register hold. -/
def readInt (signed : Bool) (w : Nat) (x : Nat) : Int :=
  let u := x % 2 ^ w
  if signed && decide (2 ^ (w - 1) ≤ u) then (u : Int) - 2 ^ w else u

/-- Conversion of a pattern (R154, R210, R251): the result as a floating pattern, or as an integer. -/
def convert (mode : Rnd) (src dst : CvtType) (x : Nat) : Int :=
  match src, dst with
  | .flt f, .flt g =>
    let x := x % 2 ^ f.width
    match f.unpack x with
    | .nan => g.nan
    | .inf s => g.inf s
    | .fin s m e => if m = 0 then g.zero s else g.round mode s m e
  | .int sg w, .flt g =>
    let v := readInt sg w x
    g.roundInt mode false v 0
  | .flt f, .int sg w =>
    match f.unpack (x % 2 ^ f.width) with
    | .nan => 0
    | .inf s => if s then intLo sg w else intHi sg w
    | .fin s m e => clamp (intLo sg w) (intHi sg w) (roundToInt mode s m e)
  | .int sg w, .int sg' w' => clamp (intLo sg' w') (intHi sg' w') (readInt sg w x)

/-! ## Block floating point (R155 to R159) -/

/-- floor(log2 |x|) of a finite non-zero f32 pattern. -/
def f32Log2 (x : Nat) : Int :=
  match f32.unpack x with
  | .fin _ m e => e + m.log2
  | _ => 0

/-- The magnitude pattern of an f32 value. -/
def f32Abs (x : Nat) : Nat := x % 2 ^ 31

/-- The exponent byte and the 32 mantissas of a block of format bfp*m* (R157). -/
def bfpPack (m : Nat) (xs : List Nat) : Nat × List Int :=
  if xs.any (fun x => f32.exp x = 255) then (255, xs.map fun _ => 0)
  else
    let amax := xs.foldl (fun a x => Nat.max a (f32Abs x)) 0
    if amax = 0 then (0, xs.map fun _ => 0)
    else
      let e : Int := max 1 (min 254 (f32Log2 amax + 128))
      (e.toNat, xs.map fun x =>
        match f32.unpack x with
        | .fin s n ex => clamp (-(2 ^ (m - 1))) (2 ^ (m - 1) - 1) (roundToInt .ne s n (ex + 127 - e + (m - 1)))
        | _ => 0)

/-- The f32 value of a block's element (R155, R158). -/
def bfpValue (m : Nat) (e : Nat) (q : Int) : Nat :=
  if e = 0 then 0
  else if e = 255 then f32.nan
  else f32.roundInt .ne false q ((e : Int) - 127 - (m - 1))

/-- Mantissa `j` of the little-endian bit string of a block (R156). -/
def bfpMant (m : Nat) (bits : Nat) (j : Nat) : Int := readInt true m (bits / 2 ^ (m * j))

/-- The bit string of a block's mantissas (R156). -/
def bfpBits (m : Nat) (qs : List Int) : Nat :=
  qs.foldr (fun q acc => (q % 2 ^ m).toNat + 2 ^ m * acc) 0

end Sys2Proof.Machine
end

