-- ==== Sys2Proof/Machine/Flags.lean ====
section
/-! DEFINITION. The conditions that compares write into predicates and masks, and the class of a floating value:
this hardware has no flags register, and a compare's outcome is a predicate bit or a mask bit (R112, R153, R207,
R211, R249, R512). -/

namespace Sys2Proof.Machine

/-- icond on two patterns of `w` bits (R112, R207): the condition decides the signedness. -/
def icond (c : BitVec 3) (w : Nat) (a b : Nat) : Bool :=
  let x := readInt true w a
  let y := readInt true w b
  let u := a % 2 ^ w
  let v := b % 2 ^ w
  match c.toNat with
  | 0 => decide (u = v)
  | 1 => decide (u ≠ v)
  | 2 => decide (x < y)
  | 3 => decide (y ≤ x)
  | 4 => decide (u < v)
  | 5 => decide (v ≤ u)
  | 6 => decide (u &&& v ≠ 0)
  | _ => false

/-- fcond on two patterns of a format (R112, R153): a comparison with a NaN is unordered. -/
def fcond (f : FFmt) (c : BitVec 3) (a b : Nat) : Bool :=
  let uo := f.isNan a || f.isNan b
  match c.toNat with
  | 0 => !uo && decide (f.key a = f.key b)
  | 1 => uo || decide (f.key a ≠ f.key b)
  | 2 => !uo && decide (f.key a < f.key b)
  | 3 => !uo && decide (f.key a ≤ f.key b)
  | 4 => uo
  | _ => false

/-- The one-hot class of a pattern (R211). -/
def fclass (f : FFmt) (a : Nat) : Nat :=
  let neg := f.sign a
  if f.isNan a then 2 ^ 8
  else if f.exp a = 2 ^ f.eb - 1 then (if neg then 2 ^ 0 else 2 ^ 7)
  else if f.exp a = 0 then
    (if f.frac a = 0 then (if neg then 2 ^ 3 else 2 ^ 4) else (if neg then 2 ^ 2 else 2 ^ 5))
  else (if neg then 2 ^ 1 else 2 ^ 6)

end Sys2Proof.Machine
end

