-- ==== Sys2Proof/Machine/Ops.lean ====
section
/-! DEFINITION. The operations over the state that every family shares: which agent is in the foreground, reading
and writing a team's registers, free values, issuing and landing (spec/03_core_timing.md R69 to R76), holding (R71),
and taking a trap and returning from one (spec/15_traps_preemption.md R416 to R431). -/

namespace Sys2Proof.Machine

/-! ## Who is in the foreground -/

/-- The team at a resident slot, wherever it is held. -/
def State.teamAt (s : State) (r : TeamRef) : Team :=
  if s.team.ref = r then s.team else (s.teams.find? fun t => t.ref = r).getD (Team.reset r)

/-- The team at a resident slot changed, wherever it is held. -/
def State.modTeam (s : State) (r : TeamRef) (f : Team → Team) : State :=
  if s.team.ref = r then { s with team := f s.team }
  else { s with teams := f (s.teamAt r) :: s.teams.filter (fun t => t.ref ≠ r) }

/-- The state with the team at a resident slot in the foreground. -/
def State.focusTeam (s : State) (r : TeamRef) : State :=
  if s.team.ref = r then s
  else { s with team := s.teamAt r, teams := s.team :: s.teams.filter (fun t => t.ref ≠ r) }

/-- A physical core of a die, wherever it is held. -/
def State.coreAt (s : State) (d p : Nat) : Core :=
  if s.core.die = d ∧ s.core.pcore = p then s.core
  else (s.cores.find? fun c => c.die = d && c.pcore = p).getD (Core.reset d p)

/-- A physical core changed, wherever it is held. -/
def State.modCore (s : State) (d p : Nat) (f : Core → Core) : State :=
  if s.core.die = d ∧ s.core.pcore = p then { s with core := f s.core }
  else { s with cores := f (s.coreAt d p) :: s.cores.filter (fun c => !(c.die = d && c.pcore = p)) }

/-- The state with a physical core in the foreground. -/
def State.focusCore (s : State) (d p : Nat) : State :=
  if s.core.die = d ∧ s.core.pcore = p then s
  else { s with core := s.coreAt d p,
                cores := s.core :: s.cores.filter (fun c => !(c.die = d && c.pcore = p)) }

/-- A compute die, wherever it is held. -/
def State.dieAt (s : State) (d : Nat) : Die :=
  if s.die.num = d then s.die else (s.dies.find? fun x => x.num = d).getD (Die.reset d)

/-- A compute die changed, wherever it is held. -/
def State.modDie (s : State) (d : Nat) (f : Die → Die) : State :=
  if s.die.num = d then { s with die := f s.die }
  else { s with dies := f (s.dieAt d) :: s.dies.filter (fun x => x.num ≠ d) }

/-- The state with a compute die in the foreground. -/
def State.focusDie (s : State) (d : Nat) : State :=
  if s.die.num = d then s
  else { s with die := s.dieAt d, dies := s.die :: s.dies.filter (fun x => x.num ≠ d) }

/-- The physical core under a logical core (R17); a logical core with no mapping has none. -/
def Die.physical (d : Die) (l : Nat) : Option Nat := vget d.remap l none

/-- The logical core over a physical core (R17). -/
def Die.logical (d : Die) (p : Nat) : Option Nat := (List.range 64).find? fun l => vget d.remap l none = some p

/-- The physical core that holds a resident slot; its number past the cores when none is mapped. -/
def State.coreOf (s : State) (r : TeamRef) : Nat := ((s.dieAt r.die).physical r.lcore).getD 72

/-- A team's die, core and resident slot in the foreground. -/
def State.focus (s : State) (r : TeamRef) : State :=
  ((s.focusDie r.die).focusCore r.die (s.coreOf r)).focusTeam r

/-- The resident slots of a core that hold a team (R39). -/
def State.residents (s : State) (d p : Nat) : List TeamRef :=
  match (s.dieAt d).logical p with
  | none => []
  | some l =>
    ((List.range 4).map fun r => ({ die := d, lcore := l, rslot := r } : TeamRef)).filter
      fun r => (s.teamAt r).resident

/-- Every team that the state holds. -/
def State.allTeams (s : State) : List Team := s.team :: s.teams

/-- Every core that the state holds. -/
def State.allCores (s : State) : List Core := s.core :: s.cores

/-- Every team satisfying a test changed. -/
def State.modTeams (s : State) (p : Team → Bool) (f : Team → Team) : State :=
  { s with team := if p s.team then f s.team else s.team, teams := modWhere p f s.teams }

/-- Every core satisfying a test changed. -/
def State.modCores (s : State) (p : Core → Bool) (f : Core → Core) : State :=
  { s with core := if p s.core then f s.core else s.core, cores := modWhere p f s.cores }

/-- The hub changed. -/
def State.onHub (s : State) (f : Hub → Hub) : State := { s with hub := f s.hub }

/-- The acting team changed. -/
def State.onTeam (s : State) (f : Team → Team) : State := { s with team := f s.team }

/-- The acting team's core changed. -/
def State.onCore (s : State) (f : Core → Core) : State := { s with core := f s.core }

/-- The acting team's die changed. -/
def State.onDie (s : State) (f : Die → Die) : State := { s with die := f s.die }

/-! ## Free values and identities -/

/-- A fresh free value of 64 bits; log entry 3. -/
def State.freeD (s : State) : Double × State := (Config.freeDouble s.free, { s with free := s.free + 1 })

/-- A vector register of fresh free lanes; log entry 3. -/
def freeV (n : Nat) : VReg := Vector.ofFn fun i => Config.freeWord n i.val

/-- A fresh identity. -/
def State.newId (s : State) : Nat × State := (s.fresh, { s with fresh := s.fresh + 1 })

/-- An event due after a number of reference cycles, at least one. -/
def State.after (s : State) (n : Nat) (i : Instr) (o : Occ) : State :=
  { s with timers := s.timers ++ [(s.now + max n 1, i, o)] }

/-- An event due after a time that the spec does not state (R79); log entry 4. -/
def State.later (s : State) (i : Instr) (o : Occ) : State :=
  { s with timers := s.timers ++ [(s.now + max (Config.latency s.free) 1, i, o)], free := s.free + 1 }

/-- An event that follows in this reference cycle, before the turns still to be taken. -/
def State.next (s : State) (i : Instr) (o : Occ) : State := { s with agenda := .event i o :: s.agenda }

/-! ## Registers -/

/-- s0 reads as zero (R111). -/
def Team.rs (t : Team) (n : BitVec 6) : Double := if n = 0 then 0 else vget t.s n.toNat 0

/-- The a-register that a field names. -/
def Team.ra (t : Team) (n : BitVec 4) : Double := vget t.a n.toNat 0

/-- The d-register that a field names. -/
def Team.rd (t : Team) (n : BitVec 4) : Double := vget t.d n.toNat 0

/-- p0 reads as true (R111). -/
def Team.rp (t : Team) (n : BitVec 3) : Bool := if n = 0 then true else vget t.p n.toNat false

/-- m0 reads as all ones (R111). -/
def Team.rm (t : Team) (n : BitVec 3) : Double := if n = 0 then BitVec.allOnes 64 else vget t.m n.toNat 0

/-- v63 reads the VHOLD latch (R94, R111). -/
def Team.rv (t : Team) (n : BitVec 6) : VReg := vget t.v n.toNat VReg.zero

/-- The lanes of `new` whose bits are set over those of `old` (R35). -/
def mergeLanes (lanes : Double) (new old : VReg) : VReg :=
  Vector.ofFn fun i => if lanes.getLsbD i.val then new[i] else old[i]

/-- The masked bits of `new` over those of `old`. -/
def mergeBits (mask new old : Double) : Double := (new &&& mask) ||| (old &&& ~~~mask)

/-- CSRW's write of a system register that a team may write (R179, R180, R182, R183). -/
def Team.writeCsr (t : Team) (num : BitVec 12) (x : Double) : Team :=
  match num.toNat with
  | 0x000 =>
    let w := setField t.tsw 2 0 (field x 2 0)
    { t with tsw := if x.getLsbD 8 then setField w 8 8 0 else w }
  | 0x008 => { t with yls := vput t.yls 0 x }
  | 0x009 => { t with yls := vput t.yls 1 x }
  | 0x00a => { t with yls := vput t.yls 2 x }
  | 0x00b => { t with yls := vput t.yls 3 x }
  | 0x00c => { t with nsm := vput t.nsm 0 x }
  | 0x00d => { t with nsm := vput t.nsm 1 x }
  | 0x00e => { t with nsm := vput t.nsm 2 x }
  | 0x00f => { t with nsm := vput t.nsm 3 x }
  | _ => t

/-- A result reaches its register: writes to s0, p0 and m0 are discarded (R111). -/
def Team.write (t : Team) : Write → Team
  | .s n x => if n = 0 then t else { t with s := vput t.s n.toNat x }
  | .a n x => { t with a := vput t.a n.toNat x }
  | .d n x => { t with d := vput t.d n.toNat x }
  | .p n x => if n = 0 then t else { t with p := vput t.p n.toNat x }
  | .m n lanes x =>
    if n = 0 then t else { t with m := vput t.m n.toNat (mergeBits lanes x (vget t.m n.toNat 0)) }
  | .v n lanes x => { t with v := vput t.v n.toNat (mergeLanes lanes x (t.rv n)) }
  | .latch x => { t with v := vput t.v 63 x }
  | .csr num x => t.writeCsr num x
  | .lcnt x => { t with lcnt := x }

/-! ## Clock domains -/

/-- The place of a domain in CLKD (R95). -/
def Domain.idx : Domain → Nat
  | .core => 0 | .vx => 1 | .mx => 2 | .dx => 3

/-- The divisor of a domain (R95). -/
def Core.divisor (c : Core) (d : Domain) : Nat := field c.clkd (4 * d.idx + 3) (4 * d.idx)

/-- Whether a domain of the core starts a cycle in a reference cycle (R96); none does in a stall bundle (R100). -/
def Core.starts (c : Core) (d : Domain) (now : Nat) : Bool :=
  !c.stalled && decide (vget c.base d.idx 0 ≤ now) && decide ((now - vget c.base d.idx 0) % c.divisor d = 0)

/-- Whether a core cycle starts, a stall bundle's included (R55, R196). -/
def Core.coreCycle (c : Core) (now : Nat) : Bool :=
  decide (vget c.base 0 0 ≤ now) && decide ((now - vget c.base 0 0) % c.divisor .core = 0)

/-! ## Positions -/

/-- Positions that a slot has passed (R69). -/
def Team.passed (t : Team) (j : Slot) : Nat := vget t.pass (slotNum j) 0

/-- Every slot has passed every position below this one (R73). -/
def Team.oldest (t : Team) : Nat := (List.range 8).foldl (fun q j => min q (vget t.pass j 0)) (vget t.pass 0 0)

/-- The lead of a slot over position `q` (R73). -/
def Team.lead (t : Team) (q j : Nat) : Nat := vget t.pass j 0 - q - 1

/-- SLR: the leads of the eight slots over a position (R73). -/
def Team.slrAt (t : Team) (q : Nat) : Double :=
  dbl ((List.range 8).foldl (fun n j => n + min (t.lead q j) 15 * 2 ^ (4 * j)) 0)

/-- SLR as CSRR reads it (R73). -/
def Team.slr (t : Team) : Double := t.slrAt t.oldest

/-- The bundle placed at a position, while a slot has not passed it. -/
def Team.placedAt (t : Team) (q : Nat) : Option Placed := t.queue.find? fun p => p.pos = q

/-- A slot passes its position (R69); bundles that every slot has passed leave the queues. -/
def Team.pass1 (t : Team) (j : Slot) : Team :=
  let t := { t with pass := vput t.pass (slotNum j) (t.passed j + 1),
                    holding := vput t.holding (slotNum j) false }
  { t with queue := t.queue.filter fun p => t.oldest ≤ p.pos }

/-- The acting team's slot passes its position. -/
def passSlot (j : Slot) (s : State) : State := s.onTeam fun t => t.pass1 j

/-- The acting team's slot holds at its position (R71): it neither issues nor passes, and tries again in its next
cycle. -/
def holdSlot (j : Slot) (s : State) : State :=
  s.onTeam fun t => { t with holding := vput t.holding (slotNum j) true }

/-! ## Issue and landing -/

/-- A resident team's core is in a stall bundle: what comes back to it waits (R100). -/
def coreStalled (s : State) (r : TeamRef) : Bool := (s.teamAt r).resident && (s.coreAt r.die (s.coreOf r)).stalled

/-- The latency profile of the acting team's die (R103): the LP1 or the LP2 column of R104. -/
def lat (s : State) (lp1 lp2 : Nat) : Nat :=
  if (vget s.hub.dieEntries s.die.num { gen := 0, profile := 2, free := 8, failed := 0 }).profile = 1 then lp1
  else lp2

/-- The opcode of a word: bits 18:14 of a CT word, bits 31:26 of another (R107, R113). -/
def opcodeOf (j : Slot) (w : Word32) : Nat :=
  match j with
  | .ct => w.toNat / 2 ^ 14 % 32
  | _ => w.toNat / 2 ^ 26

/-- The class of an operation in the energy table (R441): its slot and its opcode (log entry 9). -/
def energyClass (j : Slot) (i : Instr) : Nat := 64 * slotNum j + opcodeOf j ((encode i).getD 0)

/-- Energy that the acting team's operation adds as it retires, at the voltage step of its domain's divisor (R441,
R442). -/
def retire (c : Core) (d : Domain) (e : Option (Nat × Nat)) (t : Team) : Team :=
  match e with
  | none => t
  | some (cls, w) => { t with ecnt := t.ecnt + dbl (Config.energy cls w (c.divisor d)) }

/-- The results of an operation that issues in slot `j`, with their latencies, of which the first carries its
energy. -/
def landings (j : Slot) (i : Instr) (width pos : Nat) : List (Nat × Write) → List Landing
  | [] => []
  | (l, w) :: t =>
    { slot := j, domain := slotDomain j, pos := pos, rem := l, write := w,
      energy := some (energyClass j i, width) } ::
    t.map fun (l, w) =>
      { slot := j, domain := slotDomain j, pos := pos, rem := l, write := w, energy := none }

/-- A result counts one cycle of its domain: it lands at its last (R74). -/
def Landing.count (starts : Domain → Bool) (l : Landing) : Landing :=
  if starts l.domain then { l with rem := l.rem - 1 } else l

/-- The results of a team count one cycle of the domains that start one, and those due land in issue order (R74,
R75). -/
def landTeam (c : Core) (starts : Domain → Bool) (t : Team) : Team :=
  let fl := t.flight.map (Landing.count starts)
  let due := fl.filter fun l => starts l.domain && l.rem = 0
  let t := { t with flight := fl.filter fun l => !(starts l.domain && l.rem = 0) }
  due.foldl (fun t l => retire c l.domain l.energy (t.write l.write)) t

/-! ## Traps -/

/-- The address of the next bundle that dispatch places. -/
def Team.nextBpc (t : Team) : Nat :=
  match t.loop with
  | some l => (nth l.body l.idx (t.pc, t.cur)).1
  | none => t.pc

/-- The first free position of a team's trap, slot and cause: of two, the one at the earlier position stands, and
at one position the one of the lower slot (R418). -/
def TrapSt.older (a b : TrapSt) : Bool := a.pos < b.pos || (a.pos = b.pos && slotNum a.slot ≤ slotNum b.slot)

/-- A trap of slot `j` at its position: the operation has no effect, slots above issue nothing more, and slots
below catch up (R418). -/
def trapOf (t : Team) (j : Slot) (cause addr : Nat) (word : Word32) : TrapSt :=
  { slot := j, pos := t.passed j, cause := cause, addr := addr, word := word, frozen := false,
    q := 0, pmask := 0, bpc := 0, slr := 0, dly := false, target := 0, loop := none, seq := 0, deferred := false,
    answered := false }

/-- The word that a trap record holds for an instruction (R427): none stands for a row that has no word. -/
def trapWord (i : Instr) : Word32 := (encode i).getD 0

/-- TAKING A TRAP, the one operation of every cause of R429 (R416 to R418): the acting team's slot raises it at its
position, the operation has no effect and does not pass, and the core freezes the team once the slots below have
caught up (`freezeReady`, `freeze`). -/
def raiseTrap (j : Slot) (cause addr : Nat) (word : Word32) (s : State) : State :=
  s.onTeam fun t =>
    let n := trapOf t j cause addr word
    { t with trap := (match t.trap with
        | none => some n
        | some o => if o.frozen || o.older n then some o else some n) }

/-- A trap of a slot's instruction, whose word the record holds (R427). -/
def takeTrap (j : Slot) (i : Instr) (cause addr : Nat) (s : State) : State := raiseTrap j cause addr (trapWord i) s

/-- A trap of the CT operation that dispatch is placing: the record holds the CT word (R427). -/
def ctTrap (cause addr : Nat) (s : State) : State := raiseTrap .ct cause addr s.team.cur.ct s

/-- Slots below the trapping one have passed its position, or hold (R418). -/
def Team.freezeReady (t : Team) : Bool :=
  match t.trap with
  | none => false
  | some x =>
    !x.frozen &&
      (List.range (slotNum x.slot)).all fun j => x.deferred || decide (x.pos < vget t.pass j 0) || vget t.holding j false

/-- A slot may move while a trap is pending: only slots below the trapping one, up to its position (R416, R418). -/
def Team.mayMove (t : Team) (j : Slot) : Bool :=
  match t.trap with
  | none => true
  | some x => !x.frozen && !x.deferred && decide (slotNum j < slotNum x.slot) && decide (t.passed j ≤ x.pos)

/-- The freeze's picture of the positions (R417, R420): q, pmask, the leads, the loop state at q, and the branch target when q is
the delay bundle of a taken branch. -/
def Team.picture (t : Team) (x : TrapSt) : TrapSt :=
  let q := t.oldest
  let pm : BitVec 8 := BitVec.ofNat 8 ((List.range 8).foldl (fun n j => if q < vget t.pass j 0 then n + 2 ^ j else n) 0)
  let tgt := match t.placedAt q with
    | some p => p.target
    | none => t.delay.getD none
  { x with frozen := true, q := q, pmask := pm,
           bpc := (match t.placedAt q with
             | some p => p.bpc
             | none => t.nextBpc),
           slr := t.slrAt q, dly := tgt.isSome, target := tgt.getD 0,
           loop := (match t.placedAt q with
             | some p => p.loop
             | none => t.loop) }

/-- The lowest slot whose bit of pmask is clear (R417). -/
def srsOf (pm : BitVec 8) : Nat := ((List.range 8).find? fun j => !pm.getLsbD j).getD 0

/-- The cove that serves a physical core (R16). -/
def coveOf (p : Nat) : Nat := p / 8

/-- A cove of a die. -/
def Die.cove (d : Die) (v : Nat) : Cove := vget d.coves v Cove.reset

/-- A physical core is the source of a migration (R439). -/
def Die.migrates (d : Die) (p : Nat) : Bool := d.migrating.any fun m => m.1 = p

/-- A record, 16 doubles (R427), enters the trap FIFO of the core's cove with the cove's next sequence number, and the
supervisor's trap interrupt is raised (R426, R430). -/
def Die.pushRecord (d : Die) (p : Nat) (f : Nat → List Double) : Die :=
  let v := vget d.coves (coveOf p) Cove.reset
  let bs := (f v.seq).flatMap fun x => natBytes 8 x.toNat
  let v := { v with fifo := v.fifo.setBytes (128 * v.tail) bs, irq := true, tail := (v.tail + 1) % 64, seq := v.seq + 1 }
  { d with coves := vput d.coves (coveOf p) v }

/-- The sequence number that the core's cove gives its next record (R426). -/
def Die.nextSeq (d : Die) (p : Nat) : Nat := (vget d.coves (coveOf p) Cove.reset).seq

/-- The info double of a record (R428). -/
def recordInfo (kind : Nat) (x : TrapSt) (svseq toff code : Nat) : Double :=
  dbl (svseq % 2 ^ 16 * 2 ^ 40 + kind * 2 ^ 36 + (if x.dly then 2 ^ 35 else 0) + srsOf x.pmask * 2 ^ 32 +
    x.pmask.toNat * 2 ^ 24 + toff % 16 * 2 ^ 20 + slotNum x.slot * 2 ^ 16 + code % 2 ^ 16)

/-- A record's doubles in the order of their offsets (R427). -/
def recordDoubles (seq bpc addr : Nat) (slr info tid : Double) (target save : Nat) (args : List Double) (word : Word32) :
    List Double :=
  [dbl seq, dbl bpc, dbl addr, slr, info, tid, dbl target, dbl save] ++ args ++ [word.setWidth 64, 0]

/-- The trap record of a frozen team (R427). -/
def trapRecord (t : Team) (x : TrapSt) (seq : Nat) : List Double :=
  recordDoubles seq x.bpc x.addr x.slr (recordInfo 0 x 0 (if x.deferred then 0 else x.pos - x.q) x.cause) t.tid
    (if x.dly then x.target else 0) t.saveArea (List.replicate 6 0) x.word

/-- TSW.srs and TSW.dly as the core writes them at a trap (R180, R417, R420). -/
def Team.trapTsw (t : Team) (x : TrapSt) : Team :=
  { t with tsw := setField (setField t.tsw 15 13 (srsOf x.pmask)) 12 12 (if x.dly then 1 else 0) }

/-- The core freezes the acting team and writes its trap record (R416, R417, R426). -/
def freeze (s : State) : State :=
  match s.team.trap with
  | none => s
  | some x =>
    let x := s.team.picture x
    let seq := s.die.nextSeq s.core.pcore
    let x := { x with seq := seq }
    let t := ({ s.team with trap := some x }).trapTsw x
    { s with team := t, die := s.die.pushRecord s.core.pcore fun n => trapRecord t x n }

/-- A trap that the acting team takes with its slots as they stand, q being the oldest position that not every slot
has passed: a completed S bundle's (R419), a fetch fault's (R502), a deferred engine trap's (R530), a fault notice's
(R538). -/
def trapNow (j : Slot) (cause addr : Nat) (word : Word32) (s : State) : State :=
  freeze (s.onTeam fun t =>
    { t with trap := some { trapOf t j cause addr word with pos := t.oldest, deferred := true } })

/-- The frozen acting team resumes: every slot goes on at its own position, and every count from where it stood
(R425). -/
def resume (s : State) : State := s.onTeam fun t => { t with trap := none }

/-- Resume with the trapping operation passed with no effect (R425, R431, R504, R505). A BRM goes on as one not
taken, and its delay bundle follows. A fetch fault and a deferred trap have no operation to pass (R503, R530). -/
def resumeSkip (s : State) : State :=
  match s.team.trap with
  | none => s
  | some x =>
    if x.deferred then resume s
    else if x.slot = .ct then
      { s with team := { s.team with trap := none, skipCt := true } }
    else { s with team := ({ s.team with trap := none }).pass1 x.slot }

/-- A trap that is answered: the team is frozen and its record carries this number (R431). -/
def answers (t : Team) (seq : Nat) : Bool :=
  match t.trap with
  | none => false
  | some x => x.frozen && x.cause != 0 && x.seq % 2 ^ 32 = seq % 2 ^ 32

/-- More than 64 fixed-latency register results would be in flight (R422). -/
def Team.flightFull (t : Team) (n : Nat) : Bool := decide (64 < t.flight.length + n) && decide (0 < n)

/-- An operation of slot `j` issues and passes its position: its results land after their latencies (R69, R74); an
operation with no result retires as it issues (R441). One that would make 65 results in flight raises the schedule
fault (R422, R507). -/
def issue (j : Slot) (i : Instr) (width : Nat) (ws : List (Nat × Write)) (s : State) : State :=
  if s.team.flightFull ws.length then takeTrap j i 0x0018 0 s
  else
    let t := s.team
    let t := { t with flight := t.flight ++ landings j i width (t.passed j) ws }
    let t := if ws.isEmpty then retire s.core (slotDomain j) (some (energyClass j i, width)) t else t
    { s with team := t.pass1 j }

/-- An operation of slot `j` that completes later issues and passes its position: `ws` are the results that land from
the slot, and its energy waits for its completion (R79, R441). -/
def issueLater (j : Slot) (i : Instr) (ws : List (Nat × Write)) (s : State) : State :=
  if s.team.flightFull ws.length then takeTrap j i 0x0018 0 s
  else
    let ls := (landings j i 64 (s.team.passed j) ws).map fun l => { l with energy := none }
    { s with team := ({ s.team with flight := s.team.flight ++ ls }).pass1 j }

/-- An operation of slot `j` as it issues: a reserved value raises 0x0011 whatever the guard holds (R498, R499),
and otherwise the operation has its effect. -/
def slotOp (j : Slot) (i : Instr) (eff : State → State) (s : State) : State :=
  if i.wf then eff s else takeTrap j i 0x0011 0 s

/-- An operation that only the owner of the core's engines may issue (R45, R509). -/
def ownerOp (j : Slot) (i : Instr) (eff : State → State) (s : State) : State :=
  slotOp j i (fun s => if s.team.tid.getLsbD 14 then eff s else takeTrap j i 0x0012 0 s) s

/-- An operation with a guard: when p(g) is false it writes nothing, raises nothing and accesses nothing, and its
slot passes (R115). -/
def guarded (j : Slot) (g : BitVec 3) (eff : State → State) (s : State) : State :=
  if s.team.rp g then eff s else passSlot j s

/-- A guarded operation that may hold at its position (R71, R115): the guard is read as it first comes to its position, and one
that already holds there has found it true. -/
def guardedHold (j : Slot) (g : BitVec 3) (eff : State → State) (s : State) : State :=
  if vget s.team.holding (slotNum j) false then eff s else guarded j g eff s

end Sys2Proof.Machine
end

