-- ==== Sys2Proof/Machine/Operands.lean ====
section
/-! DEFINITION. The operand forms of the slots: which registers, widths, rounding modes and immediates a word's
fields name (spec/04_bundle_encoding.md R111 to R127, spec/07_isa_control_scalar.md R204 to R214). -/

namespace Sys2Proof

open Machine

/-- iw: the integer width 64 >> iw (R112, R204). -/
def RForm.width (f : RForm) : Nat := 64 / 2 ^ f.hi2.toNat

/-- sg = 0: the operands and the result are signed (R204). -/
def RForm.signed (f : RForm) : Bool := f.fn.getLsbD 2 == false

/-- st: saturate (R204). -/
def RForm.sat (f : RForm) : Bool := f.fn.getLsbD 1

/-- The p-register that d<22:20> names. -/
def RForm.pd (f : RForm) : BitVec 3 := f.d.extractLsb' 0 3

/-- The condition that d<25:23> names. -/
def RForm.cond (f : RForm) : BitVec 3 := f.d.extractLsb' 3 3

/-- The scalar floating format of fn<4:3> (R116). -/
def RForm.ffmt (f : RForm) : FFmt := if f.hi2 = 0 then f32 else f64

/-- The integer operand of an s-register (R204). -/
def RForm.int (f : RForm) (x : Double) : Int := readInt f.signed f.width x.toNat

/-- The w-bit pattern of an s-register. -/
def RForm.pattern (f : RForm) (x : Double) : Nat := x.toNat % 2 ^ f.width

/-- imm14 sign-extended (R116). -/
def IForm.simm (f : IForm) : Double := f.imm.signExtend 64

/-- imm14 zero-extended. -/
def IForm.uimm (f : IForm) : Double := f.imm.setWidth 64

/-- The shift amount imm14<5:0>. -/
def IForm.amount (f : IForm) : Nat := (f.imm.extractLsb' 0 6).toNat

/-- The position of an EXT or INS field, imm14<13:8> (R116). -/
def IForm.pos (f : IForm) : Nat := (f.imm.extractLsb' 8 6).toNat

/-- The length of an EXT or INS field, imm14<5:0> + 1. -/
def IForm.len (f : IForm) : Nat := (f.imm.extractLsb' 0 6).toNat + 1

end Sys2Proof

namespace Sys2Proof.Machine

/-- The a- or d-register that the low bits of a field name (R111). -/
def reg4 (x : BitVec 6) : BitVec 4 := x.extractLsb' 0 4

/-- The p- or m-register that the low bits of a field name (R111). -/
def reg3 (x : BitVec 6) : BitVec 3 := x.extractLsb' 0 3

/-- A rounding code: 0 names TSW.rm (R112, R149). -/
def Team.mode (t : Team) (rm : Nat) : Rnd :=
  match (if rm = 0 then field t.tsw 2 0 else rm) with
  | 2 => .tz
  | 3 => .up
  | 4 => .dn
  | _ => .ne

/-- The operand of an s-register in a floating format (R209). -/
def fltBits (f : FFmt) (x : Double) : Nat := x.toNat % 2 ^ f.width

/-- An integer result of a width, wrapped or saturated, and extended to its register (R146, R204). -/
def intReg (signed sat : Bool) (w : Nat) (t : Int) : Double :=
  let r := if sat then clamp (intLo signed w) (intHi signed w) t else readInt signed w (t % 2 ^ w).toNat
  BitVec.ofInt 64 r

/-- A conversion type code (R112). -/
def cvtType (c : BitVec 3) : CvtType :=
  match c.toNat with
  | 0 => .flt f32
  | 1 => .flt f64
  | 2 => .flt f16
  | 3 => .flt bf16
  | 4 => .int true 32
  | 5 => .int true 64
  | 6 => .int false 32
  | _ => .int false 64

/-- The byte width of an LS type (R119, R222). -/
def typeSize (ty : BitVec 3) : Nat :=
  match ty.toNat with
  | 0 | 1 => 1
  | 2 | 3 => 2
  | 4 | 5 => 4
  | _ => 8

/-- A loaded value extended to an s-register (R226). -/
def typeExtend (ty : BitVec 3) (x : Nat) : Double :=
  match ty.toNat with
  | 0 => sextNat 8 x
  | 2 => sextNat 16 x
  | 4 => sextNat 32 x
  | _ => dbl x

/-- A loaded element extended to a lane: types 0 and 2 are signed (R227). -/
def laneExtend (ty : BitVec 3) (x : Nat) : Word32 :=
  match ty.toNat with
  | 0 => (BitVec.ofNat 8 x).signExtend 32
  | 2 => (BitVec.ofNat 16 x).signExtend 32
  | _ => BitVec.ofNat 32 x

end Sys2Proof.Machine
end

