-- ==== Sys2Proof/Machine/Space.lean ====
section
/-! DEFINITION. Address spaces: from a virtual address to an intermediate physical address at issue, from there to
the place that holds the byte, and the page walk at the home (spec/12_memory_translation.md R344 to R365,
spec/22_memory_engine_faults.md R526, R529, R536). -/

namespace Sys2Proof.Machine

/-- The lowest VA of the local view (R344). -/
def localView : Nat := 0x00ffffffffe00000

/-- Whether a VA lies in the local view. -/
def inLocalView (va : Nat) : Bool := decide (localView ≤ va) && decide (va < 2 ^ 56)

/-- The size of a VA window (R353). -/
def winSize (w : Double) : Nat := 2 ^ (30 + field w 60 56)

/-- The VA base of a window. -/
def winVa (w : Double) : Nat := field w 29 4 * 2 ^ 30

/-- The IPA base of a window. -/
def winIpa (w : Double) : Nat := field w 55 30 * 2 ^ 30

/-- A window whose value R353 makes reserved takes part in no translation (R529). -/
def winReserved (w : Double) : Bool :=
  decide (16 < field w 60 56) || decide (winVa w % winSize w ≠ 0) || decide (winIpa w % winSize w ≠ 0)

/-- A window covers a VA (R354). -/
def winCovers (w : Double) (va : Nat) : Bool :=
  w.getLsbD 63 && !winReserved w && decide (winVa w ≤ va) && decide (va < winVa w + winSize w)

/-- The lowest window that covers a VA (R354). -/
def findWindow (win : List Double) (va : Nat) : Option Double := win.find? fun w => winCovers w va

/-- The window allows the access: r for a read, w for a write, both for an atomic (R353, R354, R362). -/
def winAllows (w : Double) : AccKind → Bool
  | .read => w.getLsbD 61
  | .write => w.getLsbD 62
  | .atomic => w.getLsbD 61 && w.getLsbD 62

/-- The IPA of a VA through the windows alone (R354). -/
def windowIpa (win : List Double) (k : AccKind) (va : Nat) : Option Nat :=
  match findWindow win va with
  | none => none
  | some w => if winAllows w k then some (winIpa w + (va - winVa w)) else none

/-- The package whose wait-and-wake table holds a key's entry: none when no window maps the VA (R411, R415). -/
def windowPackage (win : List Double) (va : Nat) : Option Nat :=
  (findWindow win va).map fun w => (winIpa w + (va - winVa w)) / 2 ^ 46

/-- The local IPA of a die region (R356). -/
def dieRegion (d : Nat) : Nat := 0x3f0000000000 + d * 2 ^ 32

/-- The IPA of byte `o` of a logical core's LM (R345, R357). -/
def lmIpa (pkg d l o : Nat) : Nat := pkg * 2 ^ 46 + dieRegion d + l * 2 ^ 21 + o

/-- The IPA of a VA for a team: the local view names the LM of the core that issued (R344, R354). -/
def vaIpa (pkg : Nat) (r : TeamRef) (win : List Double) (k : AccKind) (va : Nat) : Option Nat :=
  if inLocalView va then some (lmIpa pkg r.die r.lcore (va - localView)) else windowIpa win k va

/-- The VA windows of the acting team. -/
def Team.windows (t : Team) : List Double := t.vwin.toList

/-! ## Partitions (R453) -/

/-- No partition: no die belongs to it. -/
def Partition.none : Partition :=
  { id := 0, dies := [], demand := false, classM := [], classI := [], vwin := [], vfTenant := [] }

/-- The partition that the capability list names: the first. -/
def Hub.partition (h : Hub) : Partition := h.partitions.headD Partition.none

/-- A tenant runs in a partition: it has its windows there, or a host-link function. -/
def partitionHas (tenant : Nat) (p : Partition) : Bool := p.vwin.any (fun x => x.1 = tenant) || p.vfTenant.any (fun x => x.2 = tenant)

/-- The partition of a tenant, the one in which it runs. -/
def Hub.partitionOf (h : Hub) (tenant : Nat) : Partition := (h.partitions.find? (partitionHas tenant)).getD h.partition

/-- The compute dies of class M and of class I, and the host-link functions with their tenants, of every partition. -/
def Hub.diesM (h : Hub) : List Nat := h.partitions.flatMap (·.classM)
@[inherit_doc Hub.diesM] def Hub.diesI (h : Hub) : List Nat := h.partitions.flatMap (·.classI)
@[inherit_doc Hub.diesM] def Hub.functions (h : Hub) : List (Nat × Nat) :=
  (h.partitions.flatMap (·.vfTenant)).filter fun x => x.1 ≤ 64

/-- The tenant to which firmware has bound a host-link function (R462). -/
def Hub.functionTenant (h : Hub) (f : Nat) : Option Nat := (h.functions.find? fun x => x.1 = f).map (·.2)

/-- The windows VWIN0 to VWIN6 that the partition configuration gives a tenant's teams (R396, R415); reserved bits read 0
(R5). -/
def tenantWindows (s : State) (tenant : Nat) : List Double :=
  (((SMap.get? (s.hub.partitionOf tenant).vwin tenant).getD (Vector.replicate 8 0)).toList.take 7).map (· &&& 0xfffffffffffffff0)

/-- Where a byte of the intermediate space is held (R356, R357). -/
inductive Spot where
  | translated (loc : Nat)
  | lm (die lcore off : Nat)
  | staging (die off : Nat)
  | weight (die off : Nat)
  | host (iova : Nat)
  | physical (pa : Nat)
  | hubConfig (off : Nat)
  | reserved
  /-- the translated aperture of another package -/
  | remote
  /-- another aperture of another package (R357) -/
  | remoteOther
  deriving DecidableEq, Repr

/-- The contents of a die region by offset (R357). -/
def dieSpot (d off : Nat) : Spot :=
  if off < 0x08000000 then .lm d (off / 2 ^ 21) (off % 2 ^ 21)
  else if 0x10000000 ≤ off ∧ off < 0x12000000 then .staging d (off - 0x10000000)
  else if 0x40000000 ≤ off ∧ off < 0x80000000 then .weight d (off - 0x40000000)
  else .reserved

/-- The contents of the local intermediate space (R356). -/
def localSpot (loc : Nat) : Spot :=
  if loc < 0x200000000000 then .translated loc
  else if loc < 0x240000000000 then .physical (loc - 0x200000000000)
  else if 0x280000000000 ≤ loc ∧ loc < 0x2c0000000000 then .host (loc - 0x280000000000)
  else if 0x3f0000000000 ≤ loc ∧ loc < 0x3f0800000000 then
    dieSpot ((loc - 0x3f0000000000) / 2 ^ 32) ((loc - 0x3f0000000000) % 2 ^ 32)
  else if 0x3ffff0000000 ≤ loc ∧ loc < 0x400000000000 then .hubConfig (loc - 0x3ffff0000000)
  else .reserved

/-- Where an IPA is held, as package `pkg` sees it. -/
def spotOf (pkg ipa : Nat) : Spot :=
  if ipa / 2 ^ 46 = pkg then localSpot (ipa % 2 ^ 46)
  else if ipa % 2 ^ 46 < 0x200000000000 then .remote
  else .remoteOther

/-- The base of the 64-byte line of an address. -/
def lineOf (a : Nat) : Nat := a / 64 * 64

/-- The lines that a range touches. -/
def linesOf (a n : Nat) : List Nat := if n = 0 then [] else (List.range ((a + n - 1) / 64 - a / 64 + 1)).map
  fun i => lineOf a + 64 * i

/-- The memory key of a byte of an LM: its place in the die region, which a remap does not change (R345). -/
def lmKey (d l o : Nat) : Nat := dieRegion d + l * 2 ^ 21 + o

/-- The passenger entry of a socket. -/
def Hub.passenger (h : Hub) (n : Nat) : Passenger := vget h.passengers n { state := 0, cls := 0, kind := 0, gen := 0 }

/-- A die is hung, or has still to be enumerated again: every request to it is discarded (R557). -/
def Hub.dieAway (h : Hub) (d : Nat) : Bool := decide ((h.passenger d).state = 3) || decide ((h.passenger d).state = 1)

/-- The memory key of a physical address (R351, R356). -/
def paKey (pa : Nat) : Nat := 0x200000000000 + pa

/-- A physical address that the package has (R351): one of the twelve HBM4 stacks, or the populated DDR5. -/
def paExists (h : Hub) (pa : Nat) : Bool :=
  decide (pa < 0xc000000000) || (decide (0x20000000000 ≤ pa) && decide (pa < 0x20000000000 + h.ddr))

/-- The HBM4 stack of a physical address (R351). -/
def stackOf (pa : Nat) : Option Nat := if pa < 0xc000000000 then some (pa / 2 ^ 36) else none

/-- The memory key of a byte of another package's aperture: memory holds it as its difference from the unspecified byte
that the other package held (log entry 8). -/
def remoteKey (ipa : Nat) : Nat := 2 ^ 58 + ipa

/-- Bytes of another package's aperture. -/
def remoteBytes (m : Memory) (ipa n : Nat) : List Byte := (upFrom ipa n).map fun a => m.byte (remoteKey a) ^^^ Config.remoteByte a

/-- Memory after the present bytes are written to another package's aperture. -/
def setRemote (m : Memory) (ipa : Nat) (bs : List (Option Byte)) : Memory :=
  m.setSome (remoteKey ipa) (List.zipWith (fun b a => b.map (· ^^^ Config.remoteByte a)) bs (upFrom ipa bs.length))

/-- The memory key of a byte of host memory. -/
def hostKey (a : Nat) : Nat := 2 ^ 56 + a

/-- The memory key of a byte of a cluster's staging share: two clusters reach their own shares (R349). -/
def stagingKey (cluster x : Nat) : Nat := 2 ^ 57 + cluster * 2 ^ 25 + x

/-- The staging share of a cluster on a die, an empty one before its first PHASE. -/
def Die.stage (d : Die) (cluster : Nat) : Stage :=
  (d.staging.find? fun x => x.cluster = cluster).getD { cluster := cluster, req := 0, epochs := [], parked := 0 }

/-- The bytes of a cluster's staging share on a die (R219, R349). -/
def shareBytes (d : Die) (cluster : Nat) : Nat := (d.stage cluster).epochs.length * 2 ^ 22

/-- A byte of a staging share: memory holds it as its difference from the unspecified byte that its step held when
it was added (R219); log entry 3. -/
def stageMask (d : Die) (cluster x : Nat) : Byte :=
  Config.freeByte (nth (d.stage cluster).epochs (x / 2 ^ 22) 0) (x % 2 ^ 22)

/-- Bytes of a cluster's staging share. -/
def stageBytes (s : State) (d cluster x n : Nat) : List Byte :=
  (upFrom x n).map fun o => s.mem.byte (stagingKey cluster o) ^^^ stageMask (s.dieAt d) cluster o

/-- Memory after bytes of a cluster's staging share are written. -/
def setStage (s : State) (d cluster x : Nat) (bs : List Byte) : Memory :=
  s.mem.setBytes (stagingKey cluster x)
    (List.zipWith (fun b o => b ^^^ stageMask (s.dieAt d) cluster o) bs (upFrom x bs.length))

/-- The place of an LM page in `lmEpochs`. -/
def lmPage (d l o : Nat) : Nat := d * 2 ^ 15 + l * 512 + o / 4096

/-- A byte of an LM: memory holds it as its difference from the unspecified byte that its page held; log entry 3. -/
def lmMask (s : State) (d l o : Nat) : Byte :=
  match SMap.get? s.lmEpochs (lmPage d l o) with
  | none => 0
  | some n => Config.freeByte n (o % 4096)

/-- Bytes of an LM. -/
def lmBytes (s : State) (d l o n : Nat) : List Byte :=
  (upFrom o n).map fun x => s.mem.byte (lmKey d l x) ^^^ lmMask s d l x

/-- Memory after bytes of an LM are written. -/
def setLm (s : State) (d l o : Nat) (bs : List Byte) : Memory :=
  s.mem.setBytes (lmKey d l o) (List.zipWith (fun b x => b ^^^ lmMask s d l x) bs (upFrom o bs.length))

/-- A store to the descriptor of a ring that is bound leaves its counters unspecified (R532); log entry 3. -/
def smudgeRings (d l o n : Nat) (s : State) : State :=
  match (s.dieAt d).physical l with
  | none => s
  | some p => (s.coreAt d p).rings.toList.foldl (fun s b => match b with
    | some b =>
      if o < b.off + 32 ∧ b.off < o + n then
        let bs := (List.range 16).map fun i => Config.freeByte s.free i
        { s with mem := setLm s d l (b.off + 8) bs, free := s.free + 1 }
      else s
    | none => s) s

/-- The pages of an LM grant as memory holds them, emptied: unspecified with fresh free values, or zeros. -/
def clearGrant (d l : Nat) (lmg : Double) (unspecified : Bool) (s : State) : State :=
  let p0 := field lmg 8 0
  let n := field lmg 21 12
  let lo := lmKey d l (p0 * 4096)
  let hi := lo + n * 4096
  let es := (upFrom p0 n).foldl (fun es p =>
    if unspecified then SMap.insert es (lmPage d l (p * 4096)) (s.free + p)
    else SMap.remove es (lmPage d l (p * 4096))) s.lmEpochs
  { s with lmEpochs := es, free := if unspecified then s.free + p0 + n else s.free,
           mem := s.mem.filter fun c => !(decide (lo ≤ c.1) && decide (c.1 < hi)) }

/-- An LM byte lies in the grant of a resident team of the tenant (R346). -/
def lmGranted (s : State) (tenant d l o : Nat) : Bool :=
  (List.range 4).any fun r =>
    let t := s.teamAt { die := d, lcore := l, rslot := r }
    t.resident && decide (t.tenant = tenant) && decide (field t.lmg 8 0 * 4096 ≤ o) &&
      decide (o < (field t.lmg 8 0 + field t.lmg 21 12) * 4096)

/-- Every byte of a range lies in one team's LM grant (R346). -/
def lmRangeGranted (s : State) (tenant d l o n : Nat) : Bool :=
  n = 0 || ((List.range ((n + 4095) / 4096)).all (fun i => lmGranted s tenant d l (o + 4096 * i)) &&
    lmGranted s tenant d l (o + n - 1))

/-- The cause that an address raises at issue, if any (R526): 0x0020 or 0x0021. -/
def spotCause (s : State) (t : Team) (sp : Spot) (size : Nat) : Option Nat :=
  match sp with
  | .translated _ | .remote | .host _ => none
  | .lm d l o => if lmRangeGranted s t.tenant d l o size then none else some 0x0021
  | .staging d x =>
    if d = t.ref.die ∧ x + size ≤ shareBytes (s.dieAt d) t.cluster then none else some 0x0020
  | .weight _ _ | .physical _ | .hubConfig _ | .reserved | .remoteOther => some 0x0020

/-- The checks of an element's address at issue: natural alignment, a window that allows it, a place that a team may
reach (R224, R526). -/
def checkAddr (s : State) (t : Team) (k : AccKind) (va size : Nat) : Except Nat Nat :=
  if va % size ≠ 0 then .error 0x0020
  else match vaIpa s.hub.package t.ref t.windows k va with
    | none => .error 0x0020
    | some ipa =>
      match spotCause s t (spotOf s.hub.package ipa) size with
      | some c => .error c
      | none => .ok ipa

/-! ## The page walk at the home -/

/-- Whether an entry stands for a valid one at its level, `low` being the level's lowest index bit (R361). -/
def entryValid (e : Double) (low : Nat) : Bool :=
  let leaf := e.getLsbD 62
  e.getLsbD 63 && decide (field e 11 0 = 0) &&
    (if leaf then decide (low ≠ 39) && (decide (low = 12) || !e.getLsbD 61) &&
        decide (field e 41 12 * 4096 % 2 ^ low = 0)
     else decide (low ≠ 12) && decide (field e 61 42 = 0))

/-- The walk over the levels whose lowest index bits are listed, from a table's PA (R360, R361). -/
def walkLevels (m : Memory) (ipa table : Nat) : List Nat → Option Leaf
  | [] => none
  | low :: rest =>
    let n := if low = 39 then 64 else 512
    let e := m.double (paKey (table + 8 * (ipa / 2 ^ low % n)))
    if entryValid e low then
      if e.getLsbD 62 then some { entry := e, bits := low }
      else walkLevels m ipa (field e 41 12 * 4096) rest
    else none

/-- The PA of a local IPA under its leaf. -/
def Leaf.pa (l : Leaf) (loc : Nat) : Nat := field l.entry 41 12 * 4096 + loc % 2 ^ l.bits

/-- The leaf that the page table holds for a local IPA, if it is valid (R360, R361): one that names a physical address that
the package does not have is taken as not valid (DESIGN CHOICE, log entry 16). -/
def walkLeaf (s : State) (loc : Nat) : Option Leaf :=
  (walkLevels s.mem loc (field s.hub.hptb 41 12 * 4096) [39, 30, 21, 12]).filter fun l => paExists s.hub (l.pa loc)

/-- An entry of the translation caches serves a local IPA. -/
def TlbEntry.serves (e : TlbEntry) (loc : Nat) : Bool := decide (e.base ≤ loc) && decide (loc < e.base + 2 ^ e.leaf.bits)

/-- The leaf of a local IPA in the translation caches (R364): when an entry leaves them is log entry 7. -/
def cachedLeaf (s : State) (loc : Nat) : Option Leaf :=
  (s.hub.tlb.find? fun e => e.serves loc && Config.tlbKeeps s.now e.base).map (·.leaf)

/-- The valid leaf of a local IPA of the translated aperture, if any (R360, R363, R364): the one that the translation caches
hold, and otherwise the table's; with translation disabled there is none. -/
def findLeaf (s : State) (loc : Nat) : Option Leaf :=
  if s.hub.hptb.getLsbD 63 then (cachedLeaf s loc).orElse fun _ => walkLeaf s loc else none

/-- A request that the home translates leaves its page's leaf in the translation caches (R364), unless the page is being
moved. -/
def learnLeaf (loc : Nat) (s : State) : State :=
  match findLeaf s loc with
  | some l =>
    if l.entry.getLsbD 58 || s.hub.tlb.any (·.serves loc) then s
    else s.onHub fun h => { h with tlb := { base := loc / 2 ^ l.bits * 2 ^ l.bits, leaf := l } :: h.tlb }
  | none => s

/-- The leaf allows the access (R361, R362). -/
def Leaf.allows (l : Leaf) : AccKind → Bool
  | .read => l.entry.getLsbD 59
  | .write => l.entry.getLsbD 60
  | .atomic => l.entry.getLsbD 59 && l.entry.getLsbD 60

/-- What the home makes of a request (R536). -/
inductive Verdict where
  | ok (pa : Nat)
  /-- the requesting tenant is killed -/
  | kill (cause : Nat) (detail : Double)
  /-- held, a fault request being raised (R537) -/
  | hold
  /-- the page is being moved (R352) -/
  | wait
  deriving DecidableEq, Repr

/-- What the ownership table names for a local IPA: its partition and its fault service (R365). -/
def ownerOf (h : Hub) (loc : Nat) : Partition × Nat :=
  match h.owners.find? fun x => x.1 = loc / 2 ^ 21 with
  | some (_, p, service) => (nth h.partitions p h.partition, service)
  | none => (h.partition, 0)

/-- The page-fault mode in which the home takes a fault of a local IPA (R365). -/
def homeDemand (h : Hub) (loc : Nat) : Bool := (ownerOf h loc).1.demand

/-- The home's check of a request of a tenant to a local IPA (R352, R362, R536). -/
def homeCheck (s : State) (tenant : Nat) (k : AccKind) (loc : Nat) : Verdict :=
  match findLeaf s loc with
  | none => if homeDemand s.hub loc then .hold else .kill 0x0102 (dbl (loc / 4096))
  | some l =>
    if field l.entry 57 42 ≠ tenant ∨ l.allows k = false then .kill 0x0103 l.entry
    else if l.entry.getLsbD 58 then .wait
    else .ok (l.pa loc)

/-- The home's check of a request to a line of another package (R362, R365, R536); log entry 8. -/
def remoteCheck (tenant : Nat) (k : AccKind) (ipa : Nat) : Verdict :=
  match Config.remoteOutcome tenant (ipa / 4096) (match k with | .read => 0 | .write => 1 | .atomic => 2) with
  | 0 => .ok 0
  | 1 => .kill 0x0102 (dbl (ipa % 2 ^ 46 / 4096))
  | 2 => .kill 0x0103 0
  | _ => .wait

/-- The host-link function bound to a tenant (R359, R462). -/
def functionOf (h : Hub) (tenant : Nat) : Option Nat := (h.functions.find? fun x => x.2 = tenant).map (·.1)

/-- The memory key of a byte of the host aperture for a function, page by page (R463); log entry 12. -/
def functionSpot (f iova : Nat) : Option Nat :=
  (Config.iommu f (iova / 4096)).map fun p => hostKey (p * 4096 + iova % 4096)

/-- The memory key of a byte of the host aperture for a tenant (R359, R463); log entry 12. -/
def hostSpot (s : State) (tenant iova : Nat) : Option Nat := (functionOf s.hub tenant).bind fun f => functionSpot f iova

/-! ## The packet that an error record names (R494) -/

/-- All ones: a record names no packet (R494). -/
def noPkt : Double := BitVec.allOnes 64

/-- The pkt double of a queue and a packet index (R494). -/
def pktOf (qid k : Nat) : Double := dbl (qid % 2 ^ 16 * 2 ^ 48 + k % 2 ^ 48)

/-- The packet of a launch. -/
def Launch.pkt (l : Launch) : Double := pktOf l.qid l.k

/-- The launch of a cluster. -/
def Hub.launchOf (h : Hub) (cluster : Nat) : Option Launch :=
  (h.clusters.find? fun c => c.id = cluster).bind fun c => h.launches.find? fun l => l.id = c.launch

/-- The packet of a team's launch. -/
def teamPkt (s : State) (r : TeamRef) (tenant : Nat) : Double :=
  let t := s.teamAt r
  if t.resident && decide (t.tenant = tenant) then ((s.hub.launchOf t.cluster).map (·.pkt)).getD noPkt else noPkt

/-- The packet that an event's access is part of: that of its team, when a team's access it is. -/
def eventPkt (s : State) (tenant : Nat) (i : Instr) (o : Occ) : Double :=
  match i with
  | .homeRequest | .copyComplete | .cpylProgress => teamPkt s o.team tenant
  | _ => noPkt

end Sys2Proof.Machine
end

