-- ==== Sys2Proof/Machine/Fabric.lean ====
section
/-! DEFINITION. The links of the package: what waits at each, and the deficit round robin by which each sends
(spec/17_fabric_host_boot.md R456 to R458, spec/24_power_link_faults.md R574, R576). A request crosses its die's UCIe socket,
then the memory controller and the socket of the place of its address, or the socket and the port of another package; each link
sends one request in a reference cycle in each direction, and what comes after the last one is time (log entry 27). -/

namespace Sys2Proof.Machine

/-! ## Shares (R457) -/

/-- A tenant's entry of the key table: of two that match the lower governs (R454, R455). -/
def Hub.keyEntry (h : Hub) (tenant : Nat) : Option (Double × Double) :=
  (h.keyTable.find? fun x => x.2.1.getLsbD 63 && decide (field x.2.1 15 0 = tenant)).map (·.2)

/-- The share class of a tenant's requests. -/
def tenantClass (h : Hub) (tenant : Nat) : Nat := ((h.keyEntry tenant).map fun e => field e.1 21 16).getD 0

/-- The weight of a class at a link: SHWTl.j holds those of classes 8 j to 8 j + 7. -/
def linkWeight (h : Hub) (l c : Nat) : Nat :=
  field ((SMap.get? h.shwt (8 * l + c / 8)).getD 0x0101010101010101) (8 * (c % 8) + 7) (8 * (c % 8))

/-- The link of a compute die's UCIe socket: `out` is its direction from the passenger to the hub, as a port's is out of the package. -/
def dieLink (d : Nat) : Nat := 80 + d

/-! ## Deficit round robin (R458) -/

/-- A link in one direction, idle before its first request. -/
def Hub.linkQ (h : Hub) (l : Nat) (out : Bool) : LinkQ :=
  (h.links.find? fun q => q.link = l && q.out = out).getD
    { link := l, out := out, cls := 0, paid := false, deficit := [], waiting := [] }

/-- A link put back. -/
def Hub.putLinkQ (h : Hub) (q : LinkQ) : Hub :=
  { h with links := q :: h.links.filter fun x => !(x.link = q.link && x.out = q.out) }

/-- deficit(c). -/
def LinkQ.owed (q : LinkQ) (c : Nat) : Nat := (SMap.get? q.deficit c).getD 0

/-- The next class of the round. -/
def LinkQ.turn (q : LinkQ) : LinkQ := { q with cls := (q.cls + 1) % 64, paid := false }

/-- The class that the round has come to sends its oldest request. -/
def LinkQ.send (q : LinkQ) (size : Nat) : LinkQ :=
  let rest := q.waiting.eraseP fun x => x.1 = q.cls
  if rest.any fun x => x.1 = q.cls then
    { q with waiting := rest, deficit := SMap.insert q.deficit q.cls (q.owed q.cls - size) }
  else { q with waiting := rest, deficit := SMap.insert q.deficit q.cls 0 }.turn

/-- The next request that a link sends, by the weights of its classes; the fuel covers the rounds that the largest request
takes. -/
def LinkQ.serve (w : Nat → Nat) : Nat → LinkQ → Option LinkReq × LinkQ
  | 0, q => (none, q)
  | n + 1, q =>
    match q.waiting.find? fun x => x.1 = q.cls with
    | none => LinkQ.serve w n q.turn
    | some (_, r) =>
      let q := if q.paid then q
        else { q with paid := true, deficit := SMap.insert q.deficit q.cls (q.owed q.cls + 64 * w q.cls) }
      if r.size ≤ q.owed q.cls then (some r, q.send r.size) else LinkQ.serve w n q.turn

/-- Fuel for a link: each round takes 64 classes, and gives each at least 64 bytes. -/
def LinkQ.fuel (q : LinkQ) : Nat := 64 * (2 + (q.waiting.map (·.2.size)).foldl max 0 / 64)

/-! ## The way of a request (R456, R459, R574) -/

/-- The socket link of the die that carries a port: 9 and 10 are UALink dies, 11 the Ultra Ethernet die (R14). -/
def portLink (l : Nat) : Nat := if l < 32 then 89 else if l < 64 then 90 else 91

/-- The state of a port: 0 down. -/
def portState (h : Hub) (l : Nat) : Nat := if l < 64 then vget h.lanes l 0 else vget h.speeds (l - 64) 0

/-- A trained UALink port that the pod's route table names for a package. -/
def podPort (h : Hub) (pkg : Nat) : Option Nat := (Config.routes pkg).find? fun l => decide (l < 64) && decide (portState h l ≠ 0)

/-- An Ultra Ethernet port that is up. -/
def ethernetPort (h : Hub) : Option Nat := (upFrom 64 16).find? fun l => portState h l ≠ 0

/-- A request joins the queue of a link. -/
def joinLink (l : Nat) (out : Bool) (r : LinkReq) (s : State) : State :=
  s.onHub fun h =>
    let q := h.linkQ l out
    h.putLinkQ { q with waiting := q.waiting ++ [(tenantClass h r.tenant, r)] }

/-- The links from the hub to the place of an address (R457): an LM or a staging share behind its die's socket, the host behind
the control die's, and a line that the hub cache does not hold behind its memory controller, to which it comes back. -/
def placeWay (s : State) (ipa : Nat) : List Hop :=
  match spotOf s.hub.package ipa with
  | .lm d _ _ | .staging d _ => [.link (dieLink d) false]
  | .host _ => [.link 88 false]
  | .translated loc =>
    if s.hub.cache.any fun x => x.ipa = lineOf ipa then []
    else match (findLeaf s loc).map fun l => l.pa loc with
      | none => []
      | some pa => match stackOf pa with
        | some j => [.link (104 + j) true, .link (92 + j) false, .link (92 + j) true, .link (104 + j) false]
        | none => let k := 116 + Config.channel (lineOf pa) % 8
          [.link k true, .link k false]
  | _ => []

/-- The links that a request crosses next. A port that has gone down on the way gives way to another of the same kind (R574). -/
def nextHops (s : State) (r : LinkReq) : List Hop :=
  match r.hops with
  | .place :: rest => placeWay s r.ipa ++ rest
  | .link l true :: rest =>
    if l < 80 ∧ portState s.hub l = 0 then (if l < 64 then Hop.pod (r.ipa / 2 ^ 46) else .ethernet) :: rest else r.hops
  | hops => hops

/-- A request goes on: to the next link of its way, or to what it brings about; with no port that leads on it is stranded. -/
def sendOn (r : LinkReq) (s : State) : State :=
  let onward := fun (port : Option Nat) (rest : List Hop) => match port with
    | some l => joinLink (portLink l) false { r with hops := .link l true :: rest } s
    | none => s.onHub fun h => { h with stranded := h.stranded ++ [r] }
  match nextHops s r with
  | .link l out :: rest => joinLink l out { r with hops := rest } s
  | .pod pkg :: rest => onward (podPort s.hub pkg) rest
  | .ethernet :: rest => onward (ethernetPort s.hub) rest
  | _ => match r.what with
    | some (i, o) => s.later i o
    | none => s

/-- From the hub to the home of an address: of this package, or of another over its ports. -/
def homeHop (h : Hub) (ipa : Nat) : Hop := if ipa / 2 ^ 46 = h.package then .place else .pod (ipa / 2 ^ 46)

/-- The links from a die to the home of an address. -/
def homeWay (h : Hub) (d ipa : Nat) : List Hop := [.link (dieLink d) true, homeHop h ipa]

/-- The links from a port to the home of an address in this package. -/
def portWay (l : Nat) : List Hop := [.link l false, .link (portLink l) true, .place]

/-- The links from the place of an address back to a die. -/
def backWay (h : Hub) (d ipa : Nat) : List Hop :=
  (match spotOf h.package ipa with
  | .lm d' _ _ | .staging d' _ => [Hop.link (dieLink d') true]
  | .host _ => [Hop.link 88 true]
  | .remote | .remoteOther => ((podPort h (ipa / 2 ^ 46)).map fun l => [Hop.link l false, .link (portLink l) true]).getD []
  | _ => []) ++ [.link (dieLink d) false]

/-- A request of a die to the home of an address, of so many bytes of payload (R458: at least 64). -/
def toHome (d tenant ipa size : Nat) (i : Instr) (o : Occ) (s : State) : State :=
  sendOn { tenant := tenant, size := max 64 size, issued := s.now, ipa := ipa, hops := homeWay s.hub d ipa,
           what := some (i, o) } s

/-- An answer from a home to a die. -/
def toDie (d tenant ipa size : Nat) (i : Instr) (o : Occ) (s : State) : State :=
  sendOn { tenant := tenant, size := max 64 size, issued := s.now, ipa := ipa, hops := backWay s.hub d ipa,
           what := some (i, o) } s

/-- A message of a tenant to another package, which what it brings about there is not part of (log entry 8). -/
def toPackage (tenant pkg va : Nat) (s : State) : State :=
  sendOn { tenant := tenant, size := 64, issued := s.now, ipa := pkg * 2 ^ 46 + va % 2 ^ 46, hops := [.pod pkg], what := none } s

/-- One link sends one request in one direction. -/
def serveLink (s : State) (x : Nat × Bool) : State :=
  let q := s.hub.linkQ x.1 x.2
  match q.waiting with
  | [] => s
  | _ =>
    match LinkQ.serve (linkWeight s.hub q.link) q.fuel q with
    | (none, q) => s.onHub fun h => h.putLinkQ q
    | (some r, q) => sendOn r (s.onHub fun h => h.putLinkQ q)

/-- A stranded request looks for a port again; 10 ms after its issue it ends its tenant (R574). -/
def retryStranded (s : State) (r : LinkReq) : State :=
  if r.issued + 24000000 ≤ s.now then
    s.next .remoteRequestTimeout
      { tenant := r.tenant, id := r.ipa, core := if r.hops.head? = some .ethernet then 64 else 0,
        w := (r.what.map fun x => eventPkt s r.tenant x.1 x.2).getD noPkt }
  else sendOn r s

/-- A reference cycle of the links. -/
def serveLinks (s : State) : State :=
  let old := s.hub.stranded
  let s := old.foldl retryStranded (s.onHub fun h => { h with stranded := [] })
  (s.hub.links.map fun q => (q.link, q.out)).foldl serveLink s

/-- The requests of a tenant that wait at the links are discarded (R490). -/
def dropRequests (keep : LinkReq → Bool) (s : State) : State :=
  s.onHub fun h => { h with links := h.links.map fun q => { q with waiting := q.waiting.filter fun x => keep x.2 },
                            stranded := h.stranded.filter keep }

end Sys2Proof.Machine
end

