-- ==== Sys2Proof/Machine/Errors.lean ====
section
/-! DEFINITION. Error records (spec/20_errors_framework.md R492 to R494) and wakes of the wait-and-wake table
(spec/14_launch_scheduling.md R411 to R415). -/

namespace Sys2Proof.Machine

/-- The src double of an error record (R494). -/
def errSrc (tenant : Option Nat) (outcome unit socket index cause : Nat) : Double :=
  dbl ((tenant.getD 0) % 2 ^ 16 * 2 ^ 48 + (if tenant.isSome then 2 ^ 47 else 0) + outcome * 2 ^ 44 + unit * 2 ^ 40 +
    socket * 2 ^ 32 + index % 2 ^ 16 * 2 ^ 16 + cause)

/-- A detected error takes the next sequence number; a record of outcome 0 is lost when the ring is full, and any
other overwrites the oldest (R493). -/
def errorRecord (src : Double) (addr : Nat) (detail pkt : Double) (outcome : Nat) (s : State) : State :=
  s.onHub fun h =>
    let full := decide (1024 ≤ h.errTail - h.errHead)
    if outcome = 0 && full then { h with errTail := h.errTail + 1 }
    else
      { h with log := { seq := h.errTail, time := s.now, src := src, addr := addr, detail := detail, pkt := pkt } ::
                 h.log.filter fun r => r.seq % 1024 ≠ h.errTail % 1024,
               errHead := if full then h.errTail - 1023 else h.errHead,
               errTail := h.errTail + 1 }

/-- A detected error whose record is not written takes its number (R493). -/
def skipRecord (s : State) : State := s.onHub fun h => { h with errTail := h.errTail + 1 }

/-- An error record of a mechanism, with no address. -/
def record (tenant : Option Nat) (outcome unit socket index cause : Nat) (detail pkt : Double) (s : State) : State :=
  errorRecord (errSrc tenant outcome unit socket index cause) 0 detail pkt outcome s

/-! ## Waits and wakes -/

/-- The entry of a key: (tenant, VA<55:3>) (R411). -/
def findKey (h : Hub) (tenant va : Nat) : Option WaitKey :=
  h.waits.find? fun k => k.tenant = tenant && k.va = va / 8

/-- The table with a key's entry replaced; an entry with neither token nor waiter does not exist (R411). -/
def setKey (h : Hub) (tenant va : Nat) (token : Bool) (ws : List Waiter) : Hub :=
  let rest := h.waits.filter fun k => !(k.tenant = tenant && k.va = va / 8)
  { h with waits := if token || !ws.isEmpty
                    then { tenant := tenant, va := va / 8, token := token, waiters := ws } :: rest else rest }

/-- The wake of a team parked at a WWAIT: TSW.wx := 0 (R197). -/
def wakeTeam (t : Team) : Team :=
  match t.park with
  | .wwait _ _ _ _ => { t with park := .none, tsw := setField t.tsw 8 8 0 }
  | _ => t

/-- The wake of a host wait pair: its wait line's first double is incremented and en is cleared (R413). -/
def wakeHost (j : Nat) (s : State) : State :=
  let line := field ((SMap.get? s.hub.hwline j).getD 0) 51 6 * 64
  let m := s.mem.setDouble (hostKey line) (s.mem.double (hostKey line) + 1)
  let key := setField ((SMap.get? s.hub.hwkey j).getD 0) 63 63 0
  { s with mem := m, hub := { s.hub with hwkey := SMap.insert s.hub.hwkey j key } }

/-- A team, resident or saved, that a cluster holds at a resident slot changed. -/
def modHeld (r : TeamRef) (cluster : Nat) (f : Team → Team) (s : State) : State :=
  let s := s.modTeam r fun t => if t.cluster = cluster then f t else t
  s.onHub fun h => { h with saved := h.saved.map fun x =>
    if x.team.ref = r ∧ x.team.cluster = cluster then { x with team := f x.team } else x }

/-- One waiter is woken (R412): a saved team is ready on resume, a queue's head packet is re-evaluated, and another package is
told of its waiter's wake (R415). -/
def wakeOne (tenant : Nat) (s : State) : Waiter → State
  | .team r c => modHeld r c wakeTeam s
  | .host j => wakeHost j s
  | .queue qid => s.next .queueNotify { id := qid, aux := 1 }
  | .remote pkg _ => toPackage tenant pkg 0 s

/-- A WWAKE on a key of this package's table: the first `n` waiters, all of them for 0; with no waiter the key takes a token,
unless the table is full (R198, R412, R548). -/
def wakeKey (tenant va n : Nat) (s : State) : State :=
  match findKey s.hub tenant va with
  | some k =>
    if k.waiters.isEmpty then s
    else
      let n := if n = 0 then k.waiters.length else n
      let s := s.onHub fun h => setKey h tenant va k.token (k.waiters.drop n)
      (k.waiters.take n).foldl (wakeOne tenant) s
  | none =>
    if 65536 ≤ s.hub.waits.length then record (some tenant) 0 10 0xff 0 0x0201 (dbl va) noPkt s
    else s.onHub fun h => setKey h tenant va true []

/-- A WWAKE on a key of a package's table; of another package it leaves over UALink (R411, R415). -/
def wakeAt (pkg tenant va n : Nat) (s : State) : State :=
  if pkg = s.hub.package then wakeKey tenant va n s else toPackage tenant pkg va s

/-- A completion wakes every waiter of its signal's key, in the table of the package to which a window of the tenant maps it
(R403, R415). -/
def wakeSignal (tenant va : Nat) (s : State) : State :=
  match windowPackage (tenantWindows s tenant) va with
  | some pkg => if va = 0 then s else wakeAt pkg tenant va 0 s
  | none => s

/-- What becomes of a waiter that joins a key. -/
inductive Joined where
  /-- it took the key's token -/
  | token
  | waits
  /-- the table is full (R548) -/
  | full
  deriving DecidableEq, Repr

/-- A waiter joins the waiters of a key, or takes its token (R197, R413); for another package's table it goes over UALink, and
its wake comes back (R411, R415). -/
def joinKey (w : Waiter) (pkg tenant va : Nat) (s : State) : Joined × State :=
  if pkg ≠ s.hub.package then
    let (id, s) := s.newId
    let a : Abroad := { id := id, pkg := pkg, tenant := tenant, va := va, who := w }
    (.waits, toPackage tenant pkg va (s.onHub fun h => { h with abroad := h.abroad ++ [a] }))
  else match findKey s.hub tenant va with
    | some k =>
      if k.token then (.token, s.onHub fun h => setKey h tenant va false k.waiters)
      else (.waits, s.onHub fun h => setKey h tenant va false (k.waiters ++ [w]))
    | none =>
      if 65536 ≤ s.hub.waits.length then (.full, record (some tenant) 0 10 0xff 0 0x0201 (dbl va) noPkt s)
      else (.waits, s.onHub fun h => setKey h tenant va false [w])

/-- A waiter stands among those of a key. -/
def waitsAt (w : Waiter) (tenant va : Nat) (s : State) : Bool :=
  ((findKey s.hub tenant va).any fun k => k.waiters.contains w) ||
    s.hub.abroad.any fun a => decide (a.who = w) && decide (a.tenant = tenant) && decide (a.va / 8 = va / 8)

/-- A waiter leaves every key's entry, another package's included (R197, R413). -/
def removeWaiter (w : Waiter) (s : State) : State :=
  let gone := s.hub.abroad.filter fun a => a.who = w
  let s := s.onHub fun h =>
    let ks := h.waits.map fun k => { k with waiters := k.waiters.filter (· ≠ w) }
    { h with waits := ks.filter fun k => k.token || !k.waiters.isEmpty, abroad := h.abroad.filter fun a => a.who ≠ w }
  gone.foldl (fun s a => toPackage a.tenant a.pkg a.va s) s

/-- A waiter leaves one key's entry (R412). -/
def leaveKey (w : Waiter) (tenant va : Nat) (s : State) : State :=
  let mine := fun a : Abroad => decide (a.who = w) && decide (a.tenant = tenant) && decide (a.va / 8 = va / 8)
  let gone := s.hub.abroad.filter mine
  let s := s.onHub fun h =>
    let h := { h with abroad := h.abroad.filter fun a => !mine a }
    match findKey h tenant va with
    | some k => setKey h tenant va k.token (k.waiters.filter (· ≠ w))
    | none => h
  gone.foldl (fun s a => toPackage tenant a.pkg va s) s

/-- HWKEYj after its pair's wait has ended or was refused: en reads 0 (R413, R548). -/
def unarm (j : Nat) (s : State) : State :=
  s.onHub fun h => { h with hwkey := SMap.insert h.hwkey j (setField ((SMap.get? h.hwkey j).getD 0) 63 63 0) }

/-- The queue's next look at its head 10 µs from now, of which there is one at a time (R548). -/
def pollLater (qid : Nat) (s : State) : State :=
  if s.timers.any fun x => decide (x.2.1 = .depFallbackPoll) && decide (x.2.2.id = qid) then s
  else s.after 24000 .depFallbackPoll { id := qid }

/-- A waiter that a full table has refused (R548): a WWAIT ends with TSW.wx = 1, a pair is not armed, and a queue looks again
after 10 µs. -/
def refuseWait (tenant : Nat) (s : State) : Waiter → State
  | .team r c => modHeld r c (fun t => match t.park with
      | .wwait _ _ _ _ => { t with park := .none, tsw := setField t.tsw 8 8 1 }
      | _ => t) s
  | .host j => unarm j s
  | .queue qid => pollLater qid s
  | .remote pkg _ => toPackage tenant pkg 0 s

/-- Another package's answer to a waiter that stood in its table (R415, R548). -/
def answerAbroad (id : Nat) (ok : Bool) (s : State) : State :=
  match s.hub.abroad.find? fun a => a.id = id with
  | none => s
  | some a =>
    let s := s.onHub fun h => { h with abroad := h.abroad.filter fun x => x.id ≠ id }
    if ok then wakeOne a.tenant s a.who else refuseWait a.tenant s a.who

end Sys2Proof.Machine
end

