-- ==== Sys2Proof/Machine/Cache.lean ====
section
/-! DEFINITION. The caches: the hub cache at the home, lines of L2 and L1D with a valid and a dirty mask for each byte,
fills, write-backs, evictions, the scale sideband and the region directory (spec/12_memory_translation.md R347 to R352,
spec/13_consistency.md R377 to R387, spec/06_numbers.md R160 to R165, spec/25_programs_fault_paths.md R585). What the spec
leaves open of replacement is log entry 7. -/

namespace Sys2Proof.Machine

/-- Bytes of a line as a home write carries them. -/
def lineBytes (off : Nat) (bs : List Byte) : List (Option Byte) :=
  List.replicate off none ++ bs.map some ++ List.replicate (64 - off - bs.length) none

/-- The bytes of `new` that are present over those of `old`. -/
def overlay (old : List Byte) (new : List (Option Byte)) : List Byte := List.zipWith (fun o n => n.getD o) old new

/-! ## Lines -/

/-- A line with no byte (R585). -/
def Line.fresh (ipa tenant now : Nat) : Line :=
  { ipa := ipa, tenant := tenant, bytes := List.replicate 64 none, dirty := List.replicate 64 false,
    fill := now, origin := now, side := none, sided := false, leaving := false }

/-- The line at an address that the tenant's accesses brought in, if a cache holds it (R239, R376). -/
def findLine (ls : List Line) (tenant ipa : Nat) : Option Line := ls.find? fun l => l.ipa = ipa && l.tenant = tenant

/-- The cache with a line replaced or entered. -/
def putLine (ls : List Line) (l : Line) : List Line :=
  if ls.any fun x => x.ipa = l.ipa && x.tenant = l.tenant then
    ls.map fun x => if x.ipa = l.ipa ∧ x.tenant = l.tenant then l else x
  else l :: ls

/-- The cache without a line. -/
def dropLine (ls : List Line) (tenant ipa : Nat) : List Line := ls.filter fun l => !(l.ipa = ipa && l.tenant = tenant)

/-- The bytes of a line's part, if all are present. -/
def Line.read (l : Line) (off n : Nat) : Option (List Byte) := ((l.bytes.drop off).take n).mapM id

/-- A line after a store: its bytes are dirty (R377). -/
def Line.store (l : Line) (off : Nat) (bs : List Byte) : Line :=
  let upd {α : Type} (old new : List α) : List α := old.take off ++ new ++ old.drop (off + new.length)
  { l with bytes := upd l.bytes (bs.map some), dirty := upd l.dirty (bs.map fun _ => true) }

/-- The dirty bytes of a line, the others absent: what a write-back carries (R377). -/
def Line.dirtyBytes (l : Line) : List (Option Byte) := List.zipWith (fun b d => if d then b else none) l.bytes l.dirty

/-- A line holds a dirty byte. -/
def Line.isDirty (l : Line) : Bool := l.dirty.any id

/-- A line holds every byte. -/
def Line.full (l : Line) : Bool := l.bytes.all Option.isSome

/-- A line after its dirty bytes have left. -/
def Line.clean (l : Line) : Line := { l with dirty := l.dirty.map fun _ => false, sent := l.sent.map fun _ => none }

/-- What a write-back on its way carries, but for bytes that another write-back has meanwhile taken home. -/
def Line.sentBytes (l : Line) : List (Option Byte) := List.zipWith (fun b d => if d then b else none) l.sent l.dirty

/-- A line after the write-back on its way has been performed: a byte that no store has changed since it left is clean. -/
def Line.arrived (l : Line) : Line :=
  { l with dirty := List.zipWith (fun (x : Option Byte × Option Byte) d => d && !(x.1.isSome && x.1 == x.2)) (l.sent.zip l.bytes) l.dirty,
           sent := l.sent.map fun _ => none }

/-- A line after it has been dropped while a write-back of it is on its way: those bytes alone, until they have arrived (R239). -/
def Line.dropped (l : Line) : Line :=
  { l with bytes := l.sentBytes, dirty := l.sentBytes.map Option.isSome, sent := l.sentBytes, side := none, sided := false,
           leaving := true }

/-- A line filled from the next level, its dirty bytes kept: it has a sideband as far as its source has one (R164, R379). -/
def Line.fillFrom (l : Line) (bs : List (Option Byte)) (side : Option (Nat × List (Nat × Byte))) (sided : Bool)
    (fill origin : Nat) : Line :=
  { l with bytes := List.zipWith (fun (bd : Option Byte × Bool) new => if bd.2 then bd.1 else new) (l.bytes.zip l.dirty) bs,
           fill := fill, origin := origin, side := if sided then side else none, sided := sided, leaving := false }

/-- A line after a write-back into it: only the bytes carried change, and they are dirty here (R377). -/
def Line.absorb (l : Line) (bs : List (Option Byte)) : Line :=
  { l with bytes := List.zipWith (fun old new => if new.isSome then new else old) l.bytes bs,
           dirty := List.zipWith (fun old new => old || new.isSome) l.dirty bs }

/-- An access by a team after its acquires may not use this L1D copy (R379). -/
def Team.staleL1 (t : Team) (l : Line) : Bool := decide (l.fill < t.acqDie) || decide (l.origin < t.acqPkg)

/-- An access by a team after its acquires may not use this L2 copy (R379). -/
def Team.staleL2 (t : Team) (l : Line) : Bool := decide (l.origin < t.acqPkg)

/-! ## The scale sideband (R160 to R164) -/

/-- The mantissa width of a bfp code (R112, R155). -/
def bfpWidth (fmt : Nat) : Nat := fmt + 2

/-- The IPA of block 0 of a format window (R160): it is applied where it points, whatever package its bits 55:46 name
(DESIGN CHOICE, log entry 17). -/
def fwBaseOf (h : Hub) (j : Nat) : Nat := field (vget h.fwBase j 0) 55 6 * 64

/-- The size of a block of a format window. -/
def fwBlock (h : Hub) (j : Nat) : Nat := 4 * bfpWidth (field (vget h.fwBase j 0) 58 56)

/-- The number of blocks of a format window (R161). -/
def fwBlocks (h : Hub) (j : Nat) : Nat := field (vget h.fwLen j 0) 31 0

/-- A format window is enabled and its code is not 7 (R160). -/
def fwOn (h : Hub) (j : Nat) : Bool := (vget h.fwBase j 0).getLsbD 63 && decide (field (vget h.fwBase j 0) 58 56 ≠ 7)

/-- A format window covers a byte (R160, R161). -/
def fwCovers (h : Hub) (j a : Nat) : Bool :=
  fwOn h j && decide (fwBaseOf h j ≤ a) && decide (a < fwBaseOf h j + fwBlock h j * fwBlocks h j)

/-- The lowest window that covers a byte of a line (R162). -/
def fwOfLine (h : Hub) (line : Nat) : Option Nat :=
  (List.range 16).find? fun j => (List.range 64).any fun i => fwCovers h j (line + i)

/-- The exponent byte of a covered line replaced where block `start` begins in it (R164). -/
def HubLine.setScale (l : HubLine) (start : Nat) (e : Byte) : HubLine :=
  { l with side := l.side.map fun (fmt, es) =>
      (fmt, es.map fun x => if l.ipa + x.1 = start then (x.1, e) else x) }

/-- A store of a byte that reaches the hub, at a scale byte of a window: the sideband of a hub-cache copy of the line in
which that block starts takes it (R164). -/
def scaleStore (a : Nat) (e : Byte) (h : Hub) : Hub :=
  (List.range 16).foldl (fun h j =>
    let sb := field (vget h.fwScl j 0) 55 0
    if fwOn h j && decide (sb ≤ a) && decide (a < sb + fwBlocks h j) then
      let start := fwBaseOf h j + (a - sb) * fwBlock h j
      if fwOfLine h (lineOf start) = some j then
        { h with cache := modWhere (fun l => l.ipa = lineOf start) (fun l => l.setScale start e) h.cache }
      else h
    else h) h

/-! ## The hub cache (R350) -/

/-- The hub cache's copy of a line. -/
def Hub.line (h : Hub) (line : Nat) : Option HubLine := h.cache.find? fun l => l.ipa = line

/-- The 64 bytes of a line at its home, whose bytes memory holds at a PA. -/
def homeBytes (s : State) (line pa : Nat) : List Byte :=
  match s.hub.line line with
  | some l => l.bytes
  | none => s.mem.bytes (paKey pa) 64

/-- The hub cache with a line replaced or entered. -/
def Hub.putLine (h : Hub) (l : HubLine) : Hub := { h with cache := l :: h.cache.filter fun x => x.ipa ≠ l.ipa }

/-- The page of a line is being moved (R352). -/
def pageMoving (s : State) (line : Nat) : Bool :=
  ((findLeaf s (line % 2 ^ 46)).map fun l => l.entry.getLsbD 58).getD false

/-- Bytes written at the home of a line: into the hub cache's copy, which is then dirty, and otherwise into memory (log entry
7); a page that is being moved has its lines in the hub cache, which stay valid (R352). Scale bytes among them reach the
sidebands that the hub cache holds (R164). A write of the whole line clears its poison (R491, R585). -/
def homePut (line pa : Nat) (bs : List (Option Byte)) (s : State) : State :=
  let s := if bs.all Option.isSome then s.onHub fun h => { h with poisoned := h.poisoned.filter (· ≠ line) } else s
  let s := match s.hub.line line with
    | some l => s.onHub fun h => h.putLine { l with pa := pa, bytes := overlay l.bytes bs, dirty := true }
    | none =>
      if pageMoving s line then
        s.onHub fun h =>
          h.putLine { ipa := line, pa := pa, bytes := overlay (s.mem.bytes (paKey pa) 64) bs, dirty := true, side := none,
                      sided := false }
      else { s with mem := s.mem.setSome (paKey pa) bs }
  s.onHub fun h => (bs.zip (upFrom line 64)).foldl (fun h x => match x.1 with
    | some e => scaleStore x.2 e h
    | none => h) h

/-- Where the hub cache writes a line back: where its page now stands, and where it was filled from when its page has no
valid leaf any more. -/
def HubLine.place (s : State) (l : HubLine) : Nat :=
  match findLeaf s (l.ipa % 2 ^ 46) with
  | some f => f.pa (l.ipa % 2 ^ 46)
  | none => l.pa

/-- A line leaves the hub cache, its bytes written to memory when they are dirty. -/
def hubEvict (l : HubLine) (s : State) : State :=
  let s : State := if l.dirty then { s with mem := s.mem.setBytes (paKey (l.place s)) l.bytes } else s
  s.onHub fun h => { h with cache := h.cache.filter fun x => x.ipa ≠ l.ipa }

/-- The hub cache holds 256 MiB (R342): lines in excess of it leave, but for those of a page that is being moved. -/
def hubRoom : Nat → State → State
  | 0, s => s
  | n + 1, s =>
    if s.hub.cache.length ≤ 4194304 then s
    else
      let ls := s.hub.cache.filter fun l => !pageMoving s l.ipa
      match ls[Config.victim s.free % ls.length]? with
      | none => s
      | some l => hubRoom n (hubEvict l { s with free := s.free + 1 })

/-! ## The region directory (R382, R385, R386, R540) -/

/-- The directory's number of the control die's cores and of the host as class-M agents (R24). -/
def agentControl : Nat := 8
@[inherit_doc agentControl] def agentHost : Nat := 9

/-- An agent is class M (R24). -/
def classM (h : Hub) (agent : Option Nat) : Bool :=
  match agent with
  | some a => decide (8 ≤ a) || h.diesM.contains a
  | none => false

/-- The class-M compute dies other than an agent. -/
def otherDies (agent : Option Nat) (s : State) : List Nat :=
  s.hub.diesM.filter fun x => some x ≠ agent && decide (x < 8)

/-- The home takes a write of a line's tenant to it (R362). -/
def homeTakes (s : State) (l : Line) : Bool :=
  match homeCheck s l.tenant .write (l.ipa % 2 ^ 46) with
  | .ok _ => true
  | _ => false

/-- A class-M die's copies of a line before another agent's access at the home: dirty bytes are written back, and a
write that acts as class I or M invalidates (R382, R386). Bytes that the home does not take of their tenant (R376), or that are
part of a poisoned line (R491), stay dirty, for their own write-back to end their tenant; of a line that another agent then
writes whole they are gone. -/
def snoopDie (pa line : Nat) (inval : Bool) (s : State) (x : Nat) : State :=
  ((s.dieAt x).l2.filter fun l => l.ipa = line).foldl (fun s l =>
    let part := s.hub.poisoned.contains line && !l.dirty.all id
    if l.isDirty && (!homeTakes s l || (part && !inval)) then s
    else
      let s := if l.isDirty && !part then homePut line pa l.dirtyBytes s else s
      s.modDie x fun d => { d with l2 := if inval then dropLine d.l2 l.tenant line else putLine d.l2 l.clean }) s

/-- The 64 KiB range of a line as one empty region. -/
def emptyRegion (line : Nat) : Region :=
  { base := line / 65536 * 65536, log2 := 16, cls := .empty, last := 0, lines := [], users := [] }

/-- A region holds an address. -/
def Region.holds (q : Region) (a : Nat) : Bool := decide (q.base ≤ a) && decide (a < q.base + 2 ^ q.log2)

/-- The region of a line. -/
def regionOf (h : Hub) (line : Nat) : Region := (h.regions.find? fun q => q.holds line).getD (emptyRegion line)

/-- A region after an access of an agent, `wr` for a write that acts as class I or M: its new class when the access is
conflicting, and with it whether the holders' copies are also invalidated (R386). -/
def Region.conflict (q : Region) (agent : Option Nat) (classM wr : Bool) : Option (RegionClass × Bool) :=
  match q.cls with
  | .empty => if classM then some (.priv (agent.getD 0), false) else none
  | .priv a =>
    if agent = some a then none
    else if wr then some (.shared, true)
    else some (.readOnly (if classM then dedup [a, agent.getD 0] else [a]), false)
  | .readOnly _ => if wr then some (.shared, true) else none
  | .shared => none

/-- The class-M dies that may hold a line of a region. -/
def Region.holders (q : Region) (s : State) : List Nat :=
  match q.cls with
  | .empty => []
  | .priv a => [a]
  | .readOnly as => as
  | .shared => otherDies none s

/-- The directory's record of a line of a shared region after an access (R382, R385): a write by a class-M agent leaves it
modified there, any other write that the directory sees leaves it invalid; a read writes a modified copy back, and a
class-M reader joins the holders. -/
def DirLine.after (l : DirLine) (agent : Option Nat) (classM wr : Bool) : DirLine :=
  match agent, classM, wr with
  | some a, true, true => { l with st := .modified, holders := [a] }
  | _, _, true => { l with st := .invalid, holders := [] }
  | some a, true, false =>
    if l.holders = [a] then l
    else if l.holders.isEmpty then { l with st := .exclusive, holders := [a] }
    else { l with st := .shared, holders := dedup (a :: l.holders) }
  | _, _, false => { l with st := if l.holders.isEmpty then .invalid else .shared }

/-- The records of a shared region after an access to a line. -/
def Region.note (q : Region) (agent : Option Nat) (classM wr : Bool) (line : Nat) : Region :=
  let l := ((q.lines.find? fun x => x.ipa = line).getD { ipa := line, st := .invalid, holders := [] }).after agent classM wr
  let rest := q.lines.filter fun x => x.ipa ≠ line
  { q with lines := if l.holders.isEmpty then rest else l :: rest }

/-- The copies of a range that class-M dies hold are written back, and invalidated when asked (R386, R540): a line
whose page has no valid leaf is dropped. -/
def flushRange (base size : Nat) (inval : Bool) (dies : List Nat) (s : State) : State :=
  (dies.filter (· < 8)).foldl (fun s x =>
    ((s.dieAt x).l2.filter fun l => decide (base ≤ l.ipa) && decide (l.ipa < base + size)).foldl (fun s l =>
      match findLeaf s (l.ipa % 2 ^ 46) with
      | some f => snoopDie (f.pa (l.ipa % 2 ^ 46)) l.ipa inval s x
      | none => s) s) s

/-- The base of a region's 64 KiB range. -/
def Region.range (q : Region) : Nat := q.base / 65536 * 65536

/-- The last conflicting access of each 64 KiB range that has regions. -/
def rangeLasts (qs : List Region) : SMap Nat :=
  qs.foldl (fun m q => SMap.insert m q.range (max q.last ((SMap.get? m q.range).getD 0))) []

/-- The regions with those of one 64 KiB range returned to one empty region: the range whose last conflicting access is
oldest, at most one record being written in a millisecond (R540). -/
def reclaimRange (s : State) : State :=
  match (rangeLasts s.hub.regions).foldl (fun (b : Option (Nat × Nat)) q =>
      match b with
      | none => some q
      | some r => if q.2 < r.2 then some q else b) none with
  | none => s
  | some (base, _) =>
    let mine := fun r : Region => decide (r.range = base)
    let n := (s.hub.regions.filter mine).length
    let s := flushRange base 65536 true (otherDies none s) s
    let s := s.onHub fun h => { h with regions := h.regions.filter fun r => !mine r }
    if (s.hub.directoryReclaimAt.map fun t => decide (s.now < t + 2400000)).getD false then skipRecord s
    else record none 0 11 0xff 0 0x0106 (dbl n) noPkt (s.onHub fun h => { h with directoryReclaimAt := some s.now })

/-- The directory without a region. -/
def Hub.withoutRegion (h : Hub) (q : Region) : List Region := h.regions.filter fun r => !(r.base = q.base && r.log2 = q.log2)

/-- A region changed with no conflict: siblings that are now alike may merge once both have been without a conflict for a
millisecond (R387). -/
def renewRegion (old new : Region) (s : State) : State :=
  if new = old then s
  else
    let s := s.onHub fun h => { h with regions := new :: h.withoutRegion old }
    if new.cls = old.cls then s else s.after (old.last + 2400000 - s.now) .regionMerge { id := old.base }

/-- A conflicting access needs an entry, of a split or of a range that has none, and none is free (R540). -/
def directoryFull (agent : Option Nat) (line : Nat) (wr : Bool) (s : State) : Bool :=
  let q := regionOf s.hub line
  (q.conflict agent (classM s.hub agent) wr).isSome && decide (6 < q.log2) && decide (1048576 ≤ s.hub.regions.length)

/-- The directory's books after an access to a line at the home: a conflicting access splits its region once and
flushes the half with the line, and a MERGE may follow after a millisecond (R386, R387). -/
def touchRegion (agent : Option Nat) (line : Nat) (wr : Bool) (s : State) : State :=
  let s := if directoryFull agent line wr s then reclaimRange s else s
  let cm := classM s.hub agent
  let q := regionOf s.hub line
  match q.conflict agent cm wr with
  | none =>
    match q.cls with
    | .readOnly as =>
      if cm && !as.contains (agent.getD 0) then
        renewRegion q { q with cls := .readOnly (agent.getD 0 :: as) } s
      else s
    | .shared =>
      let n := q.note agent cm wr line
      renewRegion q (if cm then { n with users := SMap.insert q.users (agent.getD 0) s.now } else n) s
    | _ => s
  | some (cls, inval) =>
    let half := if 6 < q.log2 then q.log2 - 1 else q.log2
    let base := line / 2 ^ half * 2 ^ half
    let rest := if 6 < q.log2 then [{ q with base := if base = q.base then q.base + 2 ^ half else q.base, log2 := half }]
      else []
    let s := flushRange base (2 ^ half) inval (q.holders s) s
    let new : Region := { base := base, log2 := half, cls := cls, last := s.now, lines := [], users := [] }
    let new := if cls = .shared then new.note agent cm wr line else new
    let s := s.onHub fun h => { h with regions := new :: rest ++ h.withoutRegion q }
    s.after 2400000 .regionMerge { id := base }

/-- The directory's action for an access of an agent to a line at the home (R382): other dies' dirty copies are written
back, and a write that acts as class I or M invalidates them. -/
def snoop (agent : Option Nat) (pa line : Nat) (wr : Bool) (s : State) : State :=
  (otherDies agent s).foldl (snoopDie pa line wr) (touchRegion agent line wr s)

/-! ## Fills at the home (R162, R350) -/

/-- An exponent byte as the hub reads it, as privileged software does: of a byte with no valid leaf, or of a place that
holds no memory, it is 255, and there is a record to write (R162). Of a poisoned line, which is never returned as data (R491), it
is 255 with no record (DESIGN CHOICE, log entry 18). -/
def exponentAt (ipa : Nat) (s : State) : (Byte × Bool) × State :=
  match spotOf s.hub.package ipa with
  | .translated loc =>
    (match findLeaf s loc with
    | some l =>
      let s := snoop none (l.pa (lineOf loc)) (lineOf ipa) false s
      if s.hub.poisoned.contains (lineOf ipa) then ((255, true), s)
      else ((nth (homeBytes s (lineOf ipa) (l.pa (lineOf loc))) (ipa % 64) 0, true), s)
    | none => ((255, false), s))
  | .physical pa => if paExists s.hub pa then ((s.mem.byte (paKey pa), true), s) else ((255, false), s)
  | .lm d l o => (((lmBytes s d l o 1).headD 0, true), s)
  | .weight d o => (((s.dieAt d).weight.byte o, true), s)
  | .remote => (((remoteBytes s.mem ipa 1).headD 0, true), s)
  | _ => ((255, false), s)

/-- The record of a scale byte with no valid leaf, at most one for each window in a millisecond (R162, R493, R494). -/
def scaleRecord (j ipa : Nat) (s : State) : State :=
  if ((vget s.hub.fwLast j none).map fun t => decide (s.now < t + 2400000)).getD false then skipRecord s
  else errorRecord (errSrc none 0 4 0xff 0 0x0109) ipa (dbl j) noPkt 0
    (s.onHub fun h => { h with fwLast := vput h.fwLast j (some s.now) })

/-- The exponents of the blocks that start at offsets of a line, with a record for each that had no valid leaf (R162). -/
def exponentsOf (j line : Nat) : List Nat → State → List (Nat × Byte) × State
  | [], s => ([], s)
  | i :: is, s =>
    let b := (line + i - fwBaseOf s.hub j) / fwBlock s.hub j
    let ipa := field (vget s.hub.fwScl j 0) 55 0 + b
    let ((e, ok), s) := exponentAt ipa s
    let (es, s) := exponentsOf j line is (if ok then s else scaleRecord j ipa s)
    ((i, e) :: es, s)

/-- The sideband of a line, with the code of its window (R162). -/
def sideband (line : Nat) (s : State) : Option (Nat × List (Nat × Byte)) × State :=
  match fwOfLine s.hub line with
  | none => (none, s)
  | some j =>
    let fmt := field (vget s.hub.fwBase j 0) 58 56
    let starts := (List.range 64).filter fun i =>
      decide (fwBaseOf s.hub j ≤ line + i) && decide ((line + i - fwBaseOf s.hub j) % fwBlock s.hub j = 0) &&
        fwCovers s.hub j (line + i)
    let (es, s) := exponentsOf j line starts s
    (some (fmt, es), s)

/-- The hub cache's line for a read at the home, filled from memory when the cache lacks it, and its sideband with it (R162, R164,
R350). -/
def hubFill (line pa : Nat) (s : State) : HubLine × State :=
  let fill := fun (dirty : Bool) =>
    let (side, s) := sideband line s
    let l : HubLine := { ipa := line, pa := pa, bytes := homeBytes s line pa, dirty := dirty, side := side, sided := true }
    (l, s.onHub fun h => h.putLine l)
  match s.hub.line line with
  | some l => if l.sided then (l, s) else fill l.dirty
  | none => fill false

/-- A page that holds an exponent of a line's sideband is being moved, and the hub has still to read it (R162, R352). -/
def scaleMoving (s : State) (line : Nat) : Bool :=
  if (s.hub.line line).any (·.sided) then false
  else match fwOfLine s.hub line with
  | none => false
  | some j => (List.range 64).any fun i =>
      let off := line + i - fwBaseOf s.hub j
      fwCovers s.hub j (line + i) && decide (off % fwBlock s.hub j = 0) &&
        (match spotOf s.hub.package (field (vget s.hub.fwScl j 0) 55 0 + off / fwBlock s.hub j) with
        | .translated loc => pageMoving s loc
        | _ => false)

/-- The home's check of a request of a tenant to an IPA of a translated aperture, whichever package is its home (R352, R362). -/
def lineCheck (s : State) (tenant : Nat) (k : AccKind) (ipa : Nat) : Verdict :=
  match spotOf s.hub.package ipa with
  | .translated loc =>
    (match homeCheck s tenant k loc with
    | .ok pa => if k ≠ .write && scaleMoving s (lineOf ipa) then .wait else .ok pa
    | v => v)
  | .remote => remoteCheck tenant k ipa
  | _ => .ok 0

/-! ## The home of a line -/

/-- What a line at the home gives a request (R362, R491, R536). -/
inductive HomeLine where
  | bytes (bs : List Byte) (side : Option (Nat × List (Nat × Byte)))
  | stop (v : Verdict)
  deriving DecidableEq, Repr

/-- A read of a line at its home (R362, R491): its bytes and the sideband that travels with them (R162). -/
def homeRead (agent : Option Nat) (tenant line : Nat) (s : State) : HomeLine × State :=
  match spotOf s.hub.package line with
  | .translated loc =>
    match lineCheck s tenant .read line with
    | .ok pa =>
      if s.hub.poisoned.contains line then (.stop (.kill 0x0105 0), s)
      else
        let (l, s) := hubFill line pa (snoop agent pa line false (learnLeaf loc s))
        (.bytes l.bytes l.side, s)
    | v => (.stop v, s)
  | .remote =>
    match remoteCheck tenant .read line with
    | .ok _ => (.bytes (remoteBytes s.mem line 64) (Config.remoteSide line), s)
    | v => (.stop v, s)
  | _ => (.bytes (List.replicate 64 0) none, s)

/-- A write of bytes of a line at its home: a write of the whole line clears poison, and a write of part of a
poisoned line kills (R491, R585). `dir` makes it act as a class-I write; any other takes no directory action (R382,
R383). -/
def homeWrite (agent : Option Nat) (tenant line : Nat) (bs : List (Option Byte)) (dir : Bool) (s : State) :
    Option Verdict × State :=
  match spotOf s.hub.package line with
  | .translated loc =>
    match homeCheck s tenant .write loc with
    | .ok pa =>
      if s.hub.poisoned.contains line && !bs.all Option.isSome then (some (.kill 0x0105 0), s)
      else
        let s := learnLeaf loc s
        let s := if dir then snoop agent pa line true s else s
        (none, homePut line pa bs s)
    | v => (some v, s)
  | .remote =>
    match remoteCheck tenant .write line with
    | .ok _ => (none, { s with mem := setRemote s.mem line bs })
    | v => (some v, s)
  | _ => (none, s)

/-- Whether the writes of a die act at the home as class I or M (R382). -/
def dieTracked (s : State) (d : Nat) : Bool := s.hub.diesM.contains d || s.hub.diesI.contains d

/-! ## Unacknowledged writes (R184) -/

/-- A write that no place has performed yet: every field of RELC counts it. -/
def PendingWrite.new (path : Path) : PendingWrite :=
  { id := 0, path := path, pos := 0, count := 1, entries := 0, core := true, die := true, pkg := true, sys := true }

/-- A write joins the count, in every field whose scope it has not reached (R377). -/
def addWrite (r : TeamRef) (w : PendingWrite) (s : State) : Nat × State :=
  let (id, s) := s.newId
  (id, s.modTeam r fun t => { t with writes := t.writes ++ [{ w with id := id }] })

/-- A write performed at a place of these scopes leaves their fields (R377). -/
def reachWrite (r : TeamRef) (id : Option Nat) (f : PendingWrite → PendingWrite) (s : State) : State :=
  match id with
  | none => s
  | some i => s.modTeam r fun t => { t with writes := modWhere (fun w => w.id = i) f t.writes }

/-- A write performed in the team's die, beyond its core: it stays counted at .core until it is acknowledged there. -/
def sendWrite (r : TeamRef) (path : Path) (s : State) : State :=
  let (id, s) := addWrite r { PendingWrite.new path with die := false, pkg := false, sys := false } s
  s.later .writeAcknowledge { team := r, id := id }

/-- A place outside the package: the host's memory, or another package's (R359, R357). -/
def offPackage (s : State) (ipa : Nat) : Bool :=
  match spotOf s.hub.package ipa with
  | .host _ | .remote => true
  | _ => false

/-- A write of a line performed at its home: it stays counted at .core and .die until it is acknowledged there, and at .pkg when
the home is another package's. -/
def sendHomeWrite (r : TeamRef) (path : Path) (line : Nat) (s : State) : State :=
  let (id, s) := addWrite r { PendingWrite.new path with pkg := offPackage s line, sys := false } s
  s.later .writeAcknowledge { team := r, id := id }

/-! ## L2 -/

/-- The die's L2 serves this line for the team with no access to the home. -/
def l2Ready (s : State) (d : Nat) (t : Team) (line : Nat) (side : Bool) : Bool :=
  match findLine (s.dieAt d).l2 t.tenant line with
  | some l => l.full && !t.staleL2 l && (!side || l.sided)
  | none => false

/-- A stale L2 copy's dirty bytes written to the home before it is filled again, as a write of the team (R377, R379). -/
def freshenL2 (d : Nat) (t : Team) (path : Path) (line : Nat) (s : State) : Option Verdict × State :=
  match findLine (s.dieAt d).l2 t.tenant line with
  | none => (none, s)
  | some l =>
    if t.staleL2 l && l.isDirty then
      match homeWrite (some d) l.tenant line l.dirtyBytes (dieTracked s d) s with
      | (some v, s) => (some v, s)
      | (none, s) => (none, sendHomeWrite t.ref path line (s.modDie d fun x => { x with l2 := putLine x.l2 l.clean }))
    else (none, s)

/-- The die's L2 line brought from its home (R348, R379). -/
def fillL2 (d : Nat) (t : Team) (path : Path) (line : Nat) (s : State) : Option Verdict × State :=
  match freshenL2 d t path line s with
  | (some v, s) => (some v, s)
  | (none, s) =>
    match homeRead (some d) t.tenant line s with
    | (.stop v, s) => (some v, s)
    | (.bytes bs side, s) =>
      (none, s.modDie d fun x =>
        let old := (findLine x.l2 t.tenant line).getD (Line.fresh line t.tenant s.now)
        { x with l2 := putLine x.l2 (old.fillFrom (bs.map some) side true s.now s.now) })

/-- A class-M die takes a line for writing: the directory invalidates other class-M copies (R382). -/
def ownLine (d line : Nat) (s : State) : State :=
  if s.hub.diesM.contains d then
    match spotOf s.hub.package line with
    | .translated loc =>
      (match findLeaf s loc with
      | some f => snoop (some d) (f.pa loc) line true s
      | none => s)
    | _ => s
  else s

/-- A store or a write-back into the die's L2: a missing line is allocated and nothing is read (R585). -/
def storeL2 (d tenant line : Nat) (bs : List (Option Byte)) (s : State) : State :=
  (ownLine d line s).modDie d fun x =>
    let l := (findLine x.l2 tenant line).getD (Line.fresh line tenant s.now)
    { x with l2 := putLine x.l2 (l.absorb bs) }

/-- The VA under which a team's windows map an IPA: 0 when none does. -/
def vaOf (t : Team) (ipa : Nat) : Nat :=
  match t.windows.find? fun w => w.getLsbD 63 && !winReserved w && decide (winIpa w ≤ ipa) && decide (ipa < winIpa w + winSize w) with
  | some w => winVa w + (ipa - winIpa w)
  | none => 0

/-- An L2 line's write-back leaves for its home with the bytes that are dirty, counted as a write of the team that causes it (R377,
R378): they stay dirty in the line until it is performed there. A fault of it names the team's LS word (R538). -/
def sendWriteBack (r : TeamRef) (path : Path) (dir : Bool) (d : Nat) (s : State) (l : Line) : State :=
  let t := s.teamAt r
  let (id, s) := s.newId
  let (w, s) := addWrite r (PendingWrite.new path) s
  let a : Access :=
    { id := id, team := r, die := d, pcore := s.coreOf r, tenant := l.tenant, slot := .ls, pos := t.passed .ls,
      word := ((t.placedAt (t.passed .ls)).map fun p => nth p.words 2 0).getD 0, va := vaOf t l.ipa, path := path,
      scope := none, rp := false, place := .home, op := .writeback dir,
      parts := [{ ipa := l.ipa, size := 64, lane := 0, data := 0, va := vaOf t l.ipa }], early := [], got := [], waits := none, sent := false,
      phase := .pending, results := [], wid := some w, issued := s.now }
  let s := (s.modTeam r fun t => { t with vars := t.vars ++ [a] }).modDie d fun x =>
    { x with l2 := putLine x.l2 { l with sent := l.dirtyBytes } }
  toHome d l.tenant l.ipa 64 .homeRequest { team := r, id := id } s

/-- The steps of 4 MiB of a die's L2 storage that are staging (R185). -/
def Die.stagedSteps (d : Die) : Nat := d.staging.foldl (fun n x => n + x.epochs.length) 0

/-- The lines that a slice of a die's L2 cache holds (R342, R348): a sixty-fourth of 32 MiB less the staging steps. -/
def Die.sliceLines (d : Die) : Nat := 8192 - 1024 * d.stagedSteps

/-- The slice of a line (R348). -/
def sliceOf (line : Nat) : Nat := Config.slice (line / 64) % 64

/-- A panel touches a line. -/
def Panel.covers (p : Panel) (line : Nat) : Bool := p.pieces.any fun (ipa, n) => (linesOf ipa n).contains line

/-- A line is pinned in a die's L2 (R266), or an operation of the matrix array still reads it there (log entry 7). -/
def pinnedAt (s : State) (d line : Nat) : Bool :=
  s.allCores.any fun c => c.die = d && ((c.pins.any fun p => p.lines.contains line) ||
    c.mxq.any fun o => !o.arrived && (o.aPanel.any (·.covers line) || o.bPanel.any (·.covers line)))

/-- A line is evicted from a die's L2: at once when it is clean, and otherwise once its write-back, as a write of a team, has reached
its home. With no team to count it, it is written there at once, and stays where the home does not take it. -/
def evictL2 (by_ : Option (TeamRef × Path)) (d : Nat) (l : Line) (s : State) : State :=
  let drop := fun s : State => s.modDie d fun x => { x with l2 := dropLine x.l2 l.tenant l.ipa }
  if !l.isDirty then drop s
  else match by_ with
    | some (r, path) =>
      let s := sendWriteBack r path (dieTracked s d) d s l
      s.modDie d fun x => { x with l2 := putLine x.l2 { l with leaving := true, sent := l.dirtyBytes } }
    | none =>
      match homeWrite (some d) l.tenant l.ipa l.dirtyBytes (dieTracked s d) s with
      | (none, s) => drop s
      | (some _, s) => s

/-- The lines of a slice that count against its room. -/
def Die.sliceSet (d : Die) (line : Nat) : List Line := d.l2.filter fun l => !l.leaving && decide (sliceOf l.ipa = sliceOf line)

/-- Up to so many lines of a line's slice, in excess of what the slice holds, are evicted: not a pinned one, and not the line
itself while a step is left to the cache (R266, R348). -/
def shrinkSlice (by_ : Option (TeamRef × Path)) (d line : Nat) : Nat → State → State
  | 0, s => s
  | k + 1, s =>
    let n := (s.dieAt d).sliceLines
    let set := (s.dieAt d).sliceSet line
    if set.length ≤ n then s
    else
      let vs := set.filter fun l => !pinnedAt s d l.ipa && (decide (n = 0) || decide (l.ipa ≠ line))
      match vs[Config.victim s.free % vs.length]? with
      | none => s
      | some l => shrinkSlice by_ d line k (evictL2 by_ d l { s with free := s.free + 1 })

/-- Room in the slice of a line that has come into a die's L2, by a team if one has brought it. -/
def roomL2 (by_ : Option (TeamRef × Path)) (d line : Nat) (s : State) : State :=
  shrinkSlice by_ d line (((s.dieAt d).sliceSet line).length - (s.dieAt d).sliceLines) s

/-! ## L1D -/

/-- The L1D set of a line (R342): 256 sets, indexed by the low line-address bits; log entry 7. -/
def l1Set (line : Nat) : Nat := line / 64 % 256

/-- An L1D line's dirty bytes written back to its die's L2 (R377), as a write of the team that causes it, if one does. -/
def writeBackL1 (by_ : Option TeamRef) (d : Nat) (l : Line) (s : State) : State :=
  if l.isDirty then
    let s := storeL2 d l.tenant l.ipa l.dirtyBytes s
    match by_ with
    | some r => roomL2 (some (r, .ls)) d l.ipa (sendWrite r .ls s)
    | none => roomL2 none d l.ipa s
  else s

/-- The lines of a core's L1D in the set of a line. -/
def Core.l1SetLines (c : Core) (line : Nat) : List Line := c.l1d.filter fun l => l1Set l.ipa = l1Set line

/-- So many other lines of a line's set are evicted from a core's L1D, their dirty bytes going to the L2 (R347). -/
def shrinkSet (r : TeamRef) (d p line : Nat) : Nat → State → State
  | 0, s => s
  | k + 1, s =>
    let vs := ((s.coreAt d p).l1SetLines line).filter fun l => l.ipa ≠ line
    match vs[Config.victim s.free % vs.length]? with
    | none => s
    | some l =>
      let s := writeBackL1 (some r) d l { s with free := s.free + 1 }
      shrinkSet r d p line k (s.modCore d p fun c => { c with l1d := dropLine c.l1d l.tenant l.ipa })

/-- Room in the set of a line that a team has brought into a core's L1D, which holds four ways (R342, R347). -/
def roomL1 (r : TeamRef) (d p line : Nat) (s : State) : State :=
  shrinkSet r d p line (((s.coreAt d p).l1SetLines line).length - 4) s

/-- The core's L1D serves these bytes of a line for the team. -/
def l1Ready (s : State) (d p : Nat) (t : Team) (line off n : Nat) (side : Bool) : Bool :=
  match findLine (s.coreAt d p).l1d t.tenant line with
  | some l => (l.read off n).isSome && !t.staleL1 l && (!side || l.sided)
  | none => false

/-- An L1D line's dirty bytes written to the L2, the copy staying clean. -/
def cleanL1 (by_ : Option TeamRef) (d p tenant line : Nat) (s : State) : State :=
  match findLine (s.coreAt d p).l1d tenant line with
  | some l => (writeBackL1 by_ d l s).modCore d p fun c => { c with l1d := putLine c.l1d l.clean }
  | none => s

/-- The core's L1D line brought from the L2, which holds it: dirty bytes of a stale copy are written back first, and the copy
has a sideband as far as the L2's has one (R164, R379). -/
def fillL1 (d p : Nat) (t : Team) (line : Nat) (s : State) : State :=
  let stale := ((findLine (s.coreAt d p).l1d t.tenant line).map t.staleL1).getD false
  let s := if stale then cleanL1 (some t.ref) d p t.tenant line s else s
  match findLine (s.dieAt d).l2 t.tenant line with
  | none => s
  | some b => s.modCore d p fun c =>
    let old := (findLine c.l1d t.tenant line).getD (Line.fresh line t.tenant s.now)
    { c with l1d := putLine c.l1d (old.fillFrom b.bytes b.side b.sided s.now b.origin) }

/-- A store into the core's L1D: a missing line is allocated and nothing is read (R347, R585). -/
def storeL1 (d p tenant line off : Nat) (bs : List Byte) (s : State) : State :=
  s.modCore d p fun c =>
    let l := (findLine c.l1d tenant line).getD (Line.fresh line tenant s.now)
    { c with l1d := putLine c.l1d (l.store off bs) }

/-- The lines of a core's L1D that hold a dirty byte. -/
def l1Dirty (c : Core) : List Line := c.l1d.filter Line.isDirty

/-- The dirty lines of a core's L1D that pass a test written back to its die's L2 (R378): the copies stay, clean. -/
def flushL1 (by_ : Option TeamRef) (d p : Nat) (keep : Line → Bool) (s : State) : State :=
  ((l1Dirty (s.coreAt d p)).filter keep).foldl (fun s l => cleanL1 by_ d p l.tenant l.ipa s) s

end Sys2Proof.Machine
end

