-- ==== Sys2Proof/Machine/Kill.lean ====
section
/-! DEFINITION. The hub's own accesses to memory and its report records (spec/14_launch_scheduling.md R389, R404), the end
of clusters and launches (spec/20_errors_framework.md R489), the kill of a tenant context (R490) and fault requests
(spec/22_memory_engine_faults.md R536, R537). -/

namespace Sys2Proof.Machine

/-! ## Reports -/

/-- A queue by its identifier. -/
def Hub.queue (h : Hub) (qid : Nat) : Option Queue := h.queues.find? fun q => q.qid = qid

/-- A queue changed. -/
def Hub.modQueue (h : Hub) (qid : Nat) (f : Queue → Queue) : Hub :=
  { h with queues := modWhere (fun q => q.qid = qid) f h.queues }

/-- An access of the hub's own that the home makes wait is noted, for its event to be tried again (R352, R536). -/
def noteWait (tenant ipa : Nat) (k : AccKind) (hold : Bool) (s : State) : State :=
  s.onHub fun h => { h with wait := h.wait.orElse fun _ => some { tenant := tenant, ipa := ipa, kind := k, hold := hold } }

/-- The home's check of an access of the hub's own under a tenant's translation (R362, R399, R403, R545): the physical address when
it may be performed. -/
def hubCheck (tenant ipa : Nat) (k : AccKind) (s : State) : Option Nat × State :=
  match lineCheck s tenant k ipa with
  | .ok pa => (some pa, s)
  | .kill _ _ => (none, s)
  | .hold => (none, noteWait tenant ipa k true s)
  | .wait => (none, noteWait tenant ipa k false s)

/-- The hub's read of a line's bytes for a tenant: none where the home of the line refuses it or makes it wait. The
directory is consulted as for any read at the home (R382), a line of another package is read there (R230), one of the host
aperture in host memory (R359), and one of an LM where a team of the tenant holds it (R346). A poisoned line is
never returned as data, and a write of part of one is discarded (R491); the hub is no team, and kills nobody for it (log entry
41). -/
def hubLineRead (tenant line : Nat) (s : State) : Option (List Byte) × State :=
  match spotOf s.hub.package line with
  | .translated loc =>
    (match hubCheck tenant line .read s with
    | (none, s) => (none, s)
    | (some pa, s) =>
      if s.hub.poisoned.contains line then (none, s)
      else
        let (l, s) := hubFill line pa (snoop none pa line false (learnLeaf loc s))
        (some l.bytes, s))
  | .remote =>
    let (ok, s) := hubCheck tenant line .read s
    (ok.map fun _ => remoteBytes s.mem line 64, s)
  | .host iova => ((hostSpot s tenant iova).map fun k => s.mem.bytes k 64, s)
  | .lm d l o => (if lmGranted s tenant d l o then some (lmBytes s d l o 64) else none, s)
  | _ => (none, s)

/-- The hub's write of bytes of a line for a tenant, with the directory's action of a class-I write (R382, R384); one that the
home refuses writes nothing. -/
def hubLineWrite (tenant line : Nat) (bs : List (Option Byte)) (s : State) : State :=
  match spotOf s.hub.package line with
  | .translated loc =>
    (match hubCheck tenant line .write s with
    | (none, s) => s
    | (some pa, s) =>
      if s.hub.poisoned.contains line && !bs.all Option.isSome then s
      else homePut line pa bs (snoop none pa line true (learnLeaf loc s)))
  | .remote =>
    (match hubCheck tenant line .write s with
    | (none, s) => s
    | (some _, s) => { s with mem := setRemote s.mem line bs })
  | .host iova =>
    (match hostSpot s tenant iova with
    | some k => { s with mem := s.mem.setSome k bs }
    | none => s)
  | .lm d l o =>
    if lmGranted s tenant d l o then { s with mem := setLm s d l o (overlay (lmBytes s d l o 64) bs) } else s
  | _ => s

/-- The hub's read of a double of a tenant's intermediate space, in the one line or the two that hold it: none where it does not
translate. -/
def ipaLoad (tenant ipa : Nat) (s : State) : Option Double × State :=
  let (bs, s) := hubLineRead tenant (lineOf ipa) s
  if ipa % 64 ≤ 56 then (bs.map fun b => doubleAt b (ipa % 64), s)
  else
    let (more, s) := hubLineRead tenant (lineOf ipa + 64) s
    (bs.bind fun b => more.map fun m => doubleAt (b ++ m) (ipa % 64), s)

/-- The hub's write of a double of a tenant's intermediate space; one that does not translate writes nothing. -/
def ipaStore (tenant ipa : Nat) (x : Double) (s : State) : State :=
  hubLineWrite tenant (lineOf ipa) (lineBytes (ipa % 64) (natBytes 8 x.toNat)) s

/-- The hub's read of a tenant's double (R399, R403). -/
def hubLoad (tenant va : Nat) (s : State) : Option Double × State :=
  match windowIpa (tenantWindows s tenant) .read va with
  | some ipa => ipaLoad tenant ipa s
  | none => (none, s)

/-- The hub's write of a tenant's double. -/
def hubStore (tenant va : Nat) (x : Double) (s : State) : State :=
  match windowIpa (tenantWindows s tenant) .write va with
  | some ipa => ipaStore tenant ipa x s
  | none => s

/-- The hub's read of a tenant's doubles from a VA up: none unless every one translates. -/
def hubDoubles (tenant va : Nat) : Nat → State → Option (List Double) × State
  | 0, s => (some [], s)
  | n + 1, s =>
    match hubLoad tenant va s with
    | (none, s) => (none, s)
    | (some x, s) =>
      match hubDoubles tenant (va + 8) n s with
      | (some xs, s) => (some (x :: xs), s)
      | (none, s) => (none, s)

/-- A double of a queue's descriptor (R389). -/
def descRead (q : Queue) (off : Nat) (s : State) : Double × State :=
  let (x, s) := ipaLoad q.tenant (q.desc + off) s
  (x.getD 0, s)

/-- A report record, and rtail (R404): status, packet index, tag and the queue's report sequence number. -/
def writeReport (qid status k : Nat) (tag : Nat) (s : State) : State :=
  match s.hub.queue qid with
  | none => s
  | some q =>
    let (rtail, s) := descRead q 40 s
    let (rbase, s) := descRead q 32 s
    let at_ := rbase.toNat + 16 * (rtail.toNat % 2 ^ field q.cfg 44 40)
    let s := hubStore q.tenant at_ (dbl (status * 2 ^ 48 + k % 2 ^ 48)) s
    let s := hubStore q.tenant (at_ + 8) (dbl (tag * 2 ^ 32 + q.rseq % 2 ^ 32)) s
    let s := ipaStore q.tenant (q.desc + 40) (rtail + 1) s
    s.onHub fun h => h.modQueue qid fun q => { q with rseq := q.rseq + 1 }

/-- The double of a packet at an offset (R393). -/
def pktField (p : List Byte) (off : Nat) : Double := doubleAt p off

/-- The tag of a packet (R394). -/
def pktTag (p : List Byte) : Nat := field (pktField p 0) 63 32

/-! ## Ending teams -/

/-- The owner state of a core after its owner has ended or been discarded: nothing is pinned, bound or in flight, and the latch is
unspecified (R94, R266, R301, R315). The accumulator memory, tri and the context-code store keep what they hold (R468, R473). -/
def Core.endOwner (c : Core) : Core :=
  { c with latchOpen := true, mxq := [], pins := [], rxq := [], fixed := [], rxBusy := 0, rings := Vector.replicate 8 none,
           fills := [], shoals := Vector.replicate 4 none, sweep := Sweep.idle }

/-- The owner state of a core after its owner has been killed: zeros (R490). -/
def Core.clearOwner (c : Core) : Core :=
  { c.endOwner with acc := { epoch := 0, rows := [] }, tags := Vector.replicate 8 false, latch := none, latchOpen := false,
                    tri := Tri.zero, code := [], codeEpoch := 0 }

/-- A core after one of its teams has been discarded: its copies and results are gone, and the core arbitrates if
it was issuing (R410, R489). -/
def Core.dropTeam (c : Core) (r : TeamRef) (owner : Bool) : Core :=
  let c := if owner then c.endOwner else c
  { c with copies := c.copies.filter (fun x => x.team ≠ r),
           dxBusy := if c.dxTeam = r then 0 else c.dxBusy,
           issuing := if c.issuing = some r.rslot then none else c.issuing }

/-- A team is discarded without a save (R489, R490): its resident slot is free. -/
def dropTeam (r : TeamRef) (s : State) : State :=
  let owner := (s.teamAt r).tid.getLsbD 14
  let id := (s.teamAt r).cluster
  let p := s.coreOf r
  let s := s.modCore r.die p fun c => c.dropTeam r owner
  let s := s.modTeam r fun _ => Team.reset r
  removeWaiter (.team r id) s

/-- A team's LM grant is filled with zeros, and an owner's state of its core (R490). -/
def zeroGrant (r : TeamRef) (s : State) : State :=
  let t := s.teamAt r
  let s := clearGrant r.die r.lcore t.lmg false s
  if t.tid.getLsbD 14 then s.modCore r.die (s.coreOf r) Core.clearOwner else s

/-- A cluster ends: its teams are discarded, and its resident slots, grants, barriers and staging share return
(R192, R489). -/
def endCluster (id : Nat) (s : State) : State :=
  match s.hub.clusters.find? fun c => c.id = id with
  | none => s
  | some c =>
    let s := if c.phase = .saved then c.teams.foldl (fun s r => removeWaiter (.team r id) s) s
      else c.teams.foldl (fun s r => dropTeam r s) s
    let fin := fun x : Cluster => { x with phase := .ended }
    let s := s.onHub fun h =>
      { h with saved := h.saved.filter (fun x => !(x.team.cluster = id)),
               clusters := modWhere (fun x => x.id = id) fin h.clusters }
    s.modDie c.die fun d => { d with staging := d.staging.filter fun x => x.cluster ≠ id }

/-- The clusters of a launch that have not ended. -/
def launchClusters (h : Hub) (l : Nat) : List Cluster := h.clusters.filter fun c => c.launch = l && c.phase ≠ .ended

/-- A launch leaves the hub's books, its report written or due: its clusters end, and the pins of its working set with it (R403,
R551). -/
def forgetLaunch (l : Launch) (s : State) : State :=
  let s := l.clusters.foldl (fun s id => endCluster id s) s
  s.onHub fun h =>
    let qs := modWhere (fun q => q.qid = l.qid)
      (fun q => { q with started := q.started.filter (· ≠ l.k) }) h.queues
    { h with launches := h.launches.filter (fun x => x.id ≠ l.id),
             clusters := h.clusters.filter (fun c => c.launch ≠ l.id), queues := qs }

/-! ## The kill of a tenant context (R490) -/

/-- Save areas filled with zeros (R432, R490). -/
def zeroAreas (areas : List Nat) (s : State) : State :=
  { s with mem := s.mem.filter fun c => !(areas.any fun a => decide (a % 2 ^ 46 ≤ c.1) && decide (c.1 < a % 2 ^ 46 + 2883584)) }

/-- Steps 2 and 4: every resident team of the tenant is discarded, its LM grant and owner state zeroed, and every
saved one with it; their save areas are zeroed. -/
def killTeams (tenant : Nat) (s : State) : State :=
  let ts := s.allTeams.filter fun t => t.resident && t.tenant = tenant
  let areas := ts.map (·.saveArea) ++ (s.hub.saved.filter fun x => x.team.tenant = tenant).map (·.team.saveArea)
  let s := zeroAreas areas ((ts.map (·.ref)).foldl (fun s r => dropTeam r (zeroGrant r s)) s)
  s.onHub fun h => { h with saved := h.saved.filter fun x => x.team.tenant ≠ tenant }

/-- A killed tenant's dirty line of a die's L2 is performed at its home, or discarded where the home refuses it. -/
def killLine (d : Nat) (s : State) (l : Line) : State :=
  let (_, s) := if l.isDirty then homeWrite (some d) l.tenant l.ipa l.dirtyBytes (dieTracked s d) s else (none, s)
  s.modDie d fun x => { x with l2 := dropLine x.l2 l.tenant l.ipa }

/-- A killed tenant's L1D lines go to the L2, and its copies are discarded. -/
def killCore (tenant : Nat) (s : State) (c : Core) : State :=
  let s := flushL1 none c.die c.pcore (fun l => l.tenant = tenant) s
  s.modCore c.die c.pcore fun c => { c with l1d := c.l1d.filter fun l => l.tenant ≠ tenant,
                                            copies := c.copies.filter fun x => x.tenant ≠ tenant }

/-- An event that would perform an access of a killed tenant that has come before: a scale-out entry, or a request that is tried
again. -/
def accessOf (h : Hub) (tenant : Nat) (i : Instr) (o : Occ) : Bool :=
  match i with
  | .scaleoutEntryDone => h.rings.any fun r => r.ring = o.id && decide (r.tenant = tenant)
  | .portRequest => !o.ok && decide (o.req.tenant = tenant)
  | .hostBar4Request => !o.ok && decide (h.functionTenant o.core = some tenant)
  | _ => false

/-- Step 3: what the tenant's caches hold is performed at its home, and what waits elsewhere is discarded whole; its lines
are evicted, so that no access of it is performed later. -/
def killAccesses (tenant : Nat) (s : State) : State :=
  let s : State := { s with timers := s.timers.filter fun x => !accessOf s.hub tenant x.2.1 x.2.2,
                            agenda := s.agenda.filter fun t => match t with
                              | .event i o => !accessOf s.hub tenant i o
                              | _ => true }
  let s := s.allCores.foldl (killCore tenant) s
  let s := (List.range 8).foldl (fun s d =>
    ((s.dieAt d).l2.filter fun l => l.tenant = tenant).foldl (killLine d) s) s
  dropRequests (fun r => r.tenant ≠ tenant) (s.onHub fun h =>
    { h with faults := modWhere (fun f => f.tenant = tenant) (fun f => { f with answered := true }) h.faults })

/-- Step 5: the tenant's wait-and-wake entries are removed, and its armed host pairs are woken. -/
def killWaits (tenant : Nat) (s : State) : State :=
  let ks := s.hub.waits.filter fun k => k.tenant = tenant
  let away := s.hub.abroad.filter fun a => a.tenant = tenant
  let js := (ks.flatMap (·.waiters) ++ away.map (·.who)).filterMap fun
    | .host j => some j
    | _ => none
  let s := s.onHub fun h => { h with waits := h.waits.filter fun k => k.tenant ≠ tenant,
                                     abroad := h.abroad.filter fun a => a.tenant ≠ tenant }
  let s := away.foldl (fun s a => toPackage tenant a.pkg a.va s) s
  js.foldl (fun s j => wakeHost j s) s

/-- Step 1: the tenant's queues are held. -/
def killQueues (tenant : Nat) (s : State) : State :=
  let hold := fun q : Queue => { q with stopped := true, kicks := [], replay := none, work := [] }
  s.onHub fun h => { h with queues := modWhere (fun q => q.tenant = tenant) hold h.queues }

/-- Step 6: each started, unretired packet is reported with status 6. -/
def killPackets (tenant : Nat) (s : State) : State :=
  (s.hub.launches.filter fun l => l.tenant = tenant).foldl
    (fun s l => forgetLaunch l (if l.replay.isSome then s else writeReport l.qid 6 l.k (pktTag l.packet) s)) s

/-! ## The ebb sequence (R449, R564) -/

/-- The largest fall of the package power in 1 µs: PSLEW.fall, in picojoules per µs (R449). -/
def State.slew (s : State) : Nat := field s.hub.pslew 15 0 * 1000000

/-- The reference cycles in which a load falls linearly to zero, no faster than PSLEW.fall and in at most 200 µs (R449). -/
def State.ebbTime (s : State) (load : Nat) : Nat :=
  if s.slew = 0 then 480000 else min 480000 (2400 * ((load + s.slew - 1) / s.slew))

/-- What the ebb of a core draws as it falls linearly (R449). -/
def Core.ebbDraw (c : Core) : Nat := c.ebbLoad * c.ebb / c.ebbLength

/-- The load that the chosen cores had over the last µs. -/
def State.loadOf (s : State) (on : Core → Bool) : Nat := ((s.allCores.filter on).map (·.load)).sum

/-- The chosen cores run one ebb, each from its own starting load; it changes no value of any tenant (R449, R450, R564). -/
def ebbFrom (on : Core → Bool) (load : Core → Nat) (s : State) : State :=
  let n := s.ebbTime ((s.allCores.filter on).map load).sum
  s.modCores on fun c => { c with ebb := n, ebbLength := n, ebbLoad := load c }

/-- The load that a run time-out ends ebbs away where its fall to zero in 1 µs would be too fast (R449, R564). -/
def ebbOut (on : Core → Bool) (s : State) : State :=
  if s.loadOf on ≤ s.slew then s else ebbFrom on (·.load) s

/-- So does the load that a kill or a hang ends, with one record for all its cores (R564). -/
def startEbb (on : Core → Bool) (s : State) : State :=
  if s.loadOf on ≤ s.slew then s
  else record none 0 0 0xff 0xffff 0x0300 (dbl (s.ebbTime (s.loadOf on))) noPkt (ebbFrom on (·.load) s)

/-- The energy in picojoules that the resident teams of a core retired since the last sample. -/
def State.retiredOn (s : State) (c : Core) : Nat :=
  ((s.residents c.die c.pcore).map fun r => ((s.teamAt r).ecnt - (s.teamAt r).ecntMark).toNat).sum

/-- Every µs the controller takes the retired load of each core, and the load of the cores that fell ebbs away where the package
power would fall too fast (R449; the µs are those of the package reference counter: log entry 10). -/
def sampleLoads (s : State) : State :=
  let now := s.retiredOn
  let power := fun c : Core => now c + c.ebbDraw
  let fall := s.loadOf (fun _ => true) - (s.allCores.map power).sum
  let s := if s.slew < fall then ebbFrom (fun c => decide (power c < c.load)) (fun c => c.load - now c) s else s
  let s := s.modCores (fun _ => true) fun c => { c with load := now c + c.ebbDraw }
  s.modTeams (fun _ => true) fun t => { t with ecntMark := t.ecnt }

/-- Whether a core holds a resident team of a tenant. -/
def coreRuns (s : State) (tenant : Nat) (c : Core) : Bool :=
  (s.residents c.die c.pcore).any fun r => (s.teamAt r).tenant = tenant

/-- THE KILL OF A TENANT CONTEXT, the one operation of every rule that kills (R490), steps 1 to 6 in their order. A report that
the home makes wait is not written (log entry 41): a kill waits for nothing. -/
def endContext (tenant : Nat) (s : State) : State :=
  let w := s.hub.wait
  let s := killQueues tenant (startEbb (coreRuns s tenant) s)
  let s := killAccesses tenant (killTeams tenant s)
  let s := killPackets tenant (killWaits tenant s)
  s.onHub fun h => { h with clusters := h.clusters.filter (fun c => c.tenant ≠ tenant), wait := w }

/-- The kill of a tenant context with the error record that its cause gives, for an access of a packet: step 7 of R490 for a TKILL,
the detected error's own otherwise. -/
def killPacket (tenant : Nat) (src : Double) (addr : Nat) (detail pkt : Double) (s : State) : State :=
  errorRecord src addr detail pkt 3 (endContext tenant s)

/-- A kill that no packet's access causes. -/
def killTenant (tenant : Nat) (src : Double) (addr : Nat) (detail : Double) (s : State) : State :=
  killPacket tenant src addr detail noPkt s

/-- A kill for an error of an access of a team, whose packet the record names (R494). -/
def killWork (r : TeamRef) (tenant unit cause addr : Nat) (detail : Double) (s : State) : State :=
  killPacket tenant (errSrc (some tenant) 3 unit 0xff 0 cause) addr detail (teamPkt s r tenant) s

/-- A kill for an error found at the home or in an array of the hub, of no packet's access. -/
def killFor (tenant unit cause addr : Nat) (detail : Double) (s : State) : State :=
  killTenant tenant (errSrc (some tenant) 3 unit 0xff 0 cause) addr detail s

/-! ## Fault requests (R537) -/

/-- The records that stand in the ring, and behind them those that firmware has consumed and not yet answered (R537). -/
def keepFaults (fs : List FaultReq) : List FaultReq := fs.take 256 ++ (fs.drop 256).filter fun f => !f.answered

/-- The package that an event's request comes from (R537). -/
def requester (s : State) (i : Instr) (o : Occ) : Nat :=
  match i with
  | .portRequest => o.req.pkg
  | _ => s.hub.package

/-- A request that misses in demand mode is held: it joins its page's record, or appends one while the ring has room;
with a full ring it waits at the home. -/
def raiseFault (tenant page kind : Nat) (i : Instr) (o : Occ) (s : State) : State :=
  if s.hub.faults.any fun f => !f.answered && f.page = page && f.tenant = tenant then
    let join := fun f : FaultReq => { f with waiters := f.waiters ++ [(i, o)] }
    s.onHub fun h => { h with faults := modFirst (fun f => !f.answered && f.page = page && f.tenant = tenant) join h.faults }
  else if 256 ≤ s.hub.fqTail - s.hub.fqHead then s.later i o
  else
    let (id, s) := s.newId
    let r : FaultReq := { id := id, page := page, kind := kind, tenant := tenant, pkg := requester s i o,
                          waiters := [(i, o)],
                          service := (ownerOf s.hub (page * 4096)).2, time := s.now, answered := false }
    let s := s.onHub fun h => { h with faults := keepFaults (r :: h.faults), fqTail := h.fqTail + 1, faultIrq := true }
    s.after 240000000 .faultRequestTimeout { id := id, tenant := tenant }

/-- The kind of an access in a fault request. -/
def AccKind.code : AccKind → Nat
  | .read => 0
  | .write => 1
  | .atomic => 2

/-- What the home makes of a request that it does not perform (R352, R536): the event is tried again later, is held
with a fault request, or its tenant is killed, by the host link for a host address that does not translate (R577). One addressed
to an LM that is being moved is held at its die, behind those that came before it (R439, R440); one to a die that is away is
discarded there, never answered (R557). -/
def stopped (tenant ipa : Nat) (k : AccKind) (v : Verdict) (i : Instr) (o : Occ) (s : State) : State :=
  match v with
  | .ok _ => s
  | .wait =>
    (match spotOf s.hub.package ipa with
    | .lm d l _ => if s.hub.dieAway d then s else s.modDie d fun x => { x with heldLm := x.heldLm ++ [(l, i, o)] }
    | _ => s.later i o)
  | .hold => raiseFault tenant (ipa % 2 ^ 46 / 4096) k.code i o s
  | .kill c det =>
    killPacket tenant (errSrc (some tenant) 3 (if c = 0x0330 then 9 else 4) 0xff 0 c) ipa det (eventPkt s tenant i o) s

/-- An event of the hub, which has its effect once the home makes none of its memory accesses wait: until then it has none, and is
tried again, a fault request being raised for a page with no valid leaf (R352, R536). -/
def hubEvent (i : Instr) (eff : State → State) (s : State) : State :=
  let s' := eff (s.onHub fun h => { h with wait := none })
  match s'.hub.wait with
  | none => s'
  | some w => stopped w.tenant w.ipa w.kind (if w.hold then .hold else .wait) i s.occ s

end Sys2Proof.Machine
end

