-- ==== Sys2Proof/Machine/Rings.lean ====
section
/-! DEFINITION. Ring bindings: a bound ring's counters as its descriptor holds them, and the slots that producers have written
(spec/10_copy_rings_weights.md R298 to R300, spec/08_isa_memory_vector.md R240 to R242, spec/22_memory_engine_faults.md R532). -/

namespace Sys2Proof.Machine

/-- A bound ring with its counters, which its descriptor in the core's LM holds (R298, R299). -/
structure RingView where
  off : Nat
  cnt : Nat
  lsz : Nat
  base : Nat
  head : Nat
  tail : Nat
  filled : Nat
  free : Nat
  deriving DecidableEq, Repr

/-- Bytes of the core's own LM. -/
def ownLm (s : State) (o n : Nat) : List Byte := lmBytes s s.team.ref.die s.team.ref.lcore o n

/-- The state after bytes of the core's own LM are written. -/
def setOwnLm (s : State) (o : Nat) (bs : List Byte) : State :=
  { s with mem := setLm s s.team.ref.die s.team.ref.lcore o bs }

/-- The ring bound to k on a team's core: its indexes stay among its slots whatever its descriptor holds (R532). -/
def ringAt (s : State) (r : TeamRef) (k : Nat) : Option RingView :=
  match vget (s.coreAt r.die (s.coreOf r)).rings k none with
  | none => none
  | some b =>
    let c := lmBytes s r.die r.lcore (b.off + 8) 16
    let n := b.cnt + 1
    some { off := b.off, cnt := b.cnt, lsz := b.lsz, base := b.base, head := (numAt c 0 4).mod n,
           tail := (numAt c 4 4).mod n, filled := numAt c 8 4, free := numAt c 12 4 }

/-- The ring bound to k on the acting team's core. -/
def ringView (s : State) (k : Nat) : Option RingView := ringAt s s.team.ref k

/-- The counters of a ring of a team's core written back to its descriptor, clamped to 0 and cnt + 1 (R299, R532). -/
def putRing (t : TeamRef) (r : RingView) (s : State) : State :=
  let bs := natBytes 4 r.head ++ natBytes 4 r.tail ++ natBytes 4 (min r.filled (r.cnt + 1)) ++
    natBytes 4 (min r.free (r.cnt + 1))
  { s with mem := setLm s t.die t.lcore (r.off + 8) bs }

/-- The counters written back to the descriptor. -/
def setRing (r : RingView) (s : State) : State := putRing s.team.ref r s

/-- A ring's filled counter raised (R240, R300). -/
def raiseFilled (t : TeamRef) (k n : Nat) (s : State) : State :=
  match ringAt s t k with
  | none => s
  | some r => (putRing t { r with filled := r.filled + n } s)

/-- The oldest slots of a ring whose bytes are written are counted as filled, up to one that a copy still writes (R242). -/
def popFills (t : TeamRef) (k : Nat) : Nat → State → State
  | 0, s => s
  | n + 1, s =>
    match (s.coreAt t.die (s.coreOf t)).fills.find? fun f => f.ring = k with
    | some { ring := _, copy := none, n := m } =>
      let s := s.modCore t.die (s.coreOf t) fun c => { c with fills := c.fills.eraseP fun f => f.ring = k }
      popFills t k n (raiseFilled t k m s)
    | _ => s

/-- Slots that a producer has written are counted as filled once every slot before them is (R242). -/
def fillSlots (t : TeamRef) (k n : Nat) (s : State) : State :=
  let s := s.modCore t.die (s.coreOf t) fun c => { c with fills := c.fills ++ [{ ring := k, copy := none, n := n }] }
  popFills t k (s.coreAt t.die (s.coreOf t)).fills.length s

/-- Of the slots that a producer took, the first `m` of those not yet written are written. -/
def splitFill (id m : Nat) : List RingFill → List RingFill
  | [] => []
  | x :: xs =>
    if x.copy = some id then
      { x with copy := none, n := min m x.n } :: (if m < x.n then { x with n := x.n - m } :: xs else xs)
    else x :: splitFill id m xs

/-- filled counts the first `m` slots that a CPYR, or an RPUT whose bytes had to wait, has now written, in slot order, under the
ring's counters as they now are (R242, R300, R532). -/
def fillWritten (t : TeamRef) (id m : Nat) (s : State) : State :=
  match (s.coreAt t.die (s.coreOf t)).fills.find? fun f => f.copy = some id with
  | none => s
  | some f =>
    if m = 0 then s
    else
      let s := s.modCore t.die (s.coreOf t) fun x => { x with fills := splitFill id m x.fills }
      popFills t f.ring (s.coreAt t.die (s.coreOf t)).fills.length s

/-- The LM offset of a slot. -/
def RingView.slot (r : RingView) (i : Nat) : Nat := r.base + i * 2 ^ r.lsz

/-- An index advanced, wrapping modulo cnt + 1 (R300). -/
def RingView.advance (r : RingView) (i n : Nat) : Nat := (i + n) % (r.cnt + 1)

end Sys2Proof.Machine
end

