-- ==== Sys2Proof/Machine/Access.lean ====
section
/-! DEFINITION. Accesses of the ls path: where they are performed, in which order, their completion, and the count of
unacknowledged writes (spec/08_isa_memory_vector.md R224 to R238, spec/07_isa_control_scalar.md R184,
spec/12_memory_translation.md R366, spec/13_consistency.md R377 to R383). An access that its core and die can serve
is performed as it issues; any other is performed when its HOME_REQUEST comes (log entries 4 and 5). -/

namespace Sys2Proof.Machine

/-! ## Unacknowledged writes (R184) -/

/-- The RELC field that covers a scope: 0 core, 1 die, 2 pkg, 3 sys. -/
def relcField (scope : BitVec 3) : Nat :=
  match scope.toNat with
  | 0 => 0
  | 1 | 2 => 1
  | 3 => 2
  | _ => 3

/-- A write is counted in a field of RELC. -/
def PendingWrite.counts (w : PendingWrite) : Nat → Bool
  | 0 => w.core
  | 1 => w.die
  | 2 => w.pkg
  | _ => w.sys

/-- How many writes a field of RELC counts. -/
def Team.relc (t : Team) (f : Nat) : Nat := ((t.writes.filter fun w => w.counts f).map (·.count)).sum

/-- RELC as CSRR reads it (R184); a field shows its count modulo 4,096 (DESIGN CHOICE, log entry 91). -/
def Team.relcReg (t : Team) : Double :=
  dbl (t.relc 0 % 4096 + t.relc 1 % 4096 * 2 ^ 12 + t.relc 2 % 4096 * 2 ^ 24 + t.relc 3 % 4096 * 2 ^ 36)

/-- The writes that a field of RELC counts now (R184, R193, R216). -/
def Team.countedWrites (t : Team) (f : Nat) : List Nat := (t.writes.filter fun w => w.counts f).map (·.id)

/-- None of these writes is still counted in the field. -/
def Team.acked (t : Team) (f : Nat) (ids : List Nat) : Bool :=
  t.writes.all fun w => !(w.counts f && ids.contains w.id)

/-! ## Places -/

/-- Where an ls access to a spot is performed, by its scope: none is plain (R230). -/
def placeOf (sp : Spot) (scope : Option (BitVec 3)) : Place :=
  match sp with
  | .lm _ _ _ => .lm
  | .staging _ _ => .staging
  | .host _ => .host
  | _ =>
    match (scope.getD 0).toNat with
    | 0 => .l1d
    | 1 | 2 => .l2
    | _ => .home

/-- The cached lines that an access touches. -/
def Access.lines (a : Access) : List Nat :=
  dedup (a.parts.flatMap fun p => linesOf p.ipa p.size)

/-- An access that reads what it touches. -/
def AccOp.reads : AccOp → Bool
  | .store | .writeback _ | .maint _ _ _ _ => false
  | _ => true

/-- An operation of variable latency (R79). -/
def AccOp.variable : AccOp → Bool
  | .store | .writeback _ | .maint _ _ _ _ => false
  | _ => true

/-- An access reads the line's sideband (R243). -/
def AccOp.wantsSide : AccOp → Bool
  | .ldsc _ => true
  | _ => false

/-- A write-back of an L2 line. -/
def AccOp.isWriteback : AccOp → Bool
  | .writeback _ => true
  | _ => false

/-- An acquire: an LDA (R233). -/
def Access.acquires (a : Access) : Bool :=
  a.scope.isSome && (match a.op with | .load _ _ => true | _ => false)

/-- A release: an STL (R233), or an AMO or CAS at a scope at which the team has made a FENCE of its stores (R380). -/
def Access.releases (t : Team) (a : Access) : Bool :=
  match a.op, a.scope with
  | .store, some _ => true
  | .amo _ _ _, some sc | .cas _ _ _, some sc => t.relScopes.contains sc
  | _, _ => false

/-- What an access is at the home. -/
def AccOp.kind : AccOp → AccKind
  | .store | .writeback _ | .mstz _ => .write
  | .load _ _ | .vload _ _ _ | .ldsc _ | .maint _ _ _ _ => .read
  | _ => .atomic

/-- A copy-queue entry of the sweep engine. -/
def CopyKind.isSweep : CopyKind → Bool
  | .shoal _ _ | .tide _ _ _ _ | .reefLd _ _ | .reefSt _ _ | .reefWake _ | .reefClr _ | .ctxi _ _ => true
  | _ => false

/-- A TIDE or TIDEQ. -/
def CopyKind.isTide : CopyKind → Bool
  | .tide _ _ _ _ => true
  | _ => false

/-- A tide, or a sweep operation behind one, which a save or a migration takes along (R336, R340, R435). -/
def Core.carries (c : Core) (x : Copy) : Bool :=
  x.kind.isSweep && c.copies.any fun y => y.kind.isTide && decide (y.id ≤ x.id)

/-- A team stands for its core's migration (R439, R571): at its boundary, at an SVC or at its end, its accesses, copies and matrix
operations having completed, but for a tide and what stands behind it (R340). -/
def standsToMove (c : Core) (t : Team) : Bool :=
  t.trap.isNone && (decide (t.park = .boundary) || decide (t.park = .svc) || decide (t.park = .ending)) && t.vars.isEmpty &&
    !(c.copies.any fun x => x.team = t.ref && !c.carries x) && !(c.mxq.any fun x => x.team = t.ref)

/-- A core is migrating and its teams stand (R439). -/
def coreHeld (s : State) (d p : Nat) : Bool :=
  (s.dieAt d).migrates p && (s.residents d p).all fun r => standsToMove (s.coreAt d p) (s.teamAt r)

/-- A request from outside its core to the LM of a logical core is not performed now: its core is migrating and its teams stand
(R345, R439), requests that have come before it are still to be delivered (R440), or its die is away (R557). -/
def lmAway (s : State) (d l : Nat) : Bool :=
  s.hub.dieAway d || (match (s.dieAt d).physical l with
    | some p => coreHeld s d p
    | none => false) || (s.dieAt d).heldLm.any fun x => x.1 = l

/-- An access of another core's team to the LM of a logical core waits at the die, or is discarded there. -/
def migratingLm (s : State) (r : TeamRef) (d l : Nat) : Bool :=
  !(decide (r.die = d) && decide (r.lcore = l)) && lmAway s d l

/-- The first part of an access that waits for the move of the LM that it names. -/
def heldPart (s : State) (a : Access) : Option Part :=
  a.parts.find? fun p => match spotOf s.hub.package p.ipa with
    | .lm d l _ => migratingLm s a.team d l
    | _ => false

/-- The bytes of a line that an access needs. -/
def Access.need (a : Access) (line : Nat) : Nat × Nat :=
  let offs := (a.parts.filter fun p => lineOf p.ipa = line).map fun p => (p.ipa - line, p.ipa - line + p.size)
  (offs.foldl (fun m x => min m x.1) 64, min 64 (offs.foldl (fun m x => max m x.2) 0))

/-- A line of an access can be served now, by its core and its die (R230). -/
def lineReady (s : State) (a : Access) (t : Team) (line : Nat) : Bool :=
  match a.place with
  | .l1d =>
    !a.op.reads || l1Ready s a.die a.pcore t line (a.need line).1 ((a.need line).2 - (a.need line).1) a.op.wantsSide ||
      l2Ready s a.die t line a.op.wantsSide
  | .l2 => !a.op.reads || l2Ready s a.die t line false
  | _ => false

/-- A part of an access can be performed now. -/
def partReady (s : State) (a : Access) (t : Team) (p : Part) : Bool :=
  match spotOf s.hub.package p.ipa with
  | .lm d l _ => !migratingLm s a.team d l
  | .staging _ _ => true
  | .host _ => false
  | _ => (linesOf p.ipa p.size).all (lineReady s a t)

/-- A line lies in the extent of a maintenance operation (R239). -/
def maintTouches (ext ipa line : Nat) : Bool :=
  match ext with
  | 0 => decide (line = lineOf ipa)
  | 1 => decide (line / 4096 = ipa / 4096)
  | _ => true

/-- An access touches a line. -/
def Access.touches (a : Access) (line : Nat) : Bool :=
  match a.op with
  | .maint _ _ ext _ => maintTouches ext ((a.parts.head?.map (·.ipa)).getD 0) line
  | _ => a.lines.contains line

/-- The lines that an access needs from the caches or the home. -/
def Access.cacheLines (a : Access) (pkg : Nat) : List Nat :=
  dedup ((a.parts.filter fun p =>
    match spotOf pkg p.ipa with
    | .translated _ | .remote => true
    | _ => false).flatMap fun p => linesOf p.ipa p.size)

/-- A maintenance operation. -/
def AccOp.isMaint : AccOp → Bool
  | .maint _ _ _ _ => true
  | _ => false

/-- Two accesses touch one line; a maintenance operation acts on cached lines alone (R239). -/
def overlaps (pkg : Nat) (a b : Access) : Bool :=
  match a.op.isMaint, b.op.isMaint with
  | true, true => true
  | true, false => (b.cacheLines pkg).any a.touches
  | false, true => (a.cacheLines pkg).any b.touches
  | false, false => a.lines.any b.touches || b.lines.any a.touches

/-- `b` comes before `a` in position order: of one slot, in the order of issue. -/
def Access.before (b a : Access) : Bool :=
  if b.slot = a.slot then decide (b.id < a.id) else decide (b.pos < a.pos) || (decide (b.pos = a.pos) && decide (b.id < a.id))

/-- A LAUNCH of the acting team at an earlier position than `p` has not left the AD slot (R369). -/
def Team.launchAhead (t : Team) (p : Nat) : Bool :=
  t.queue.any fun x => decide (x.pos < p) && decide (t.passed .ad ≤ x.pos) &&
    (match decodeSlot .ad (nth x.words 1 0) with | .launch _ => true | _ => false)

/-- A double at its home as it stands there. -/
def homeDouble (s : State) (ipa : Nat) : Nat :=
  match spotOf s.hub.package ipa with
  | .translated loc => ((findLeaf s loc).map fun f => numAt (homeBytes s (lineOf ipa) (f.pa (lineOf loc))) (ipa % 64) 8).getD 0
  | .remote => leNat (remoteBytes s.mem ipa 8)
  | _ => 0

/-- The slots of the queue that a pending LAUNCH names hold a line (R369): it writes one of them on ls. -/
def launchTouches (s : State) (t : Team) (b : Access) (line : Nat) : Bool :=
  match b.op, b.parts with
  | .launch _ _ _, d :: _ =>
    let n := 2 ^ (homeDouble s (d.ipa + 24) % 32)
    (match vaIpa s.hub.package t.ref t.windows .write (homeDouble s (d.ipa + 16)) with
    | some base => decide (lineOf base ≤ line) && decide (line < base + 128 * n)
    | none => false)
  | _, _ => false

/-- An earlier access of the team to one of its lines has not been performed (R231, R366, R369), or an LDA before it has not
returned its value (R233, R371). -/
def blockedBy (s : State) (t : Team) (a : Access) : Bool :=
  (t.vars.any fun b =>
    !b.op.isWriteback && b.before a && decide (b.path = a.path) &&
      ((decide (b.phase ≠ .performed) && (overlaps s.hub.package a b || a.lines.any (launchTouches s t b))) ||
        (b.acquires && decide (a.path = .ls)))) ||
    (decide (a.path = .ls) && decide (a.slot = .ls) && t.launchAhead a.pos)

/-- A release waits until the team's earlier loads have returned (R370). -/
def loadsBefore (t : Team) (a : Access) : Bool :=
  t.vars.any fun b => decide (b.slot = .ls) && b.op.variable && b.before a

/-! ## Performing -/

/-- The bytes of a cached line, where the cache lacks them free values. -/
def cachedBytes (l : Option Line) (off n free : Nat) : List Byte :=
  match l with
  | some l => (l.read off n).getD ((List.range n).map fun i => Config.freeByte free i)
  | none => (List.range n).map fun i => Config.freeByte free i

/-- The bytes that a part of an access reads, every line it needs being in place. An LM byte that no resident team of the tenant is
granted any more is not read (R346): the value is free (log entry 3). -/
def readPart (a : Access) (p : Part) (s : State) : List Byte × State :=
  let t := s.teamAt a.team
  match spotOf s.hub.package p.ipa with
  | .lm d l o =>
    if lmGranted s a.tenant d l o then (lmBytes s d l o p.size, s)
    else ((List.range p.size).map fun i => Config.freeByte s.free i, { s with free := s.free + 1 })
  | .staging d x => (stageBytes s d t.cluster x p.size, s)
  | .host iova =>
    match hostSpot s a.tenant iova with
    | some k => (s.mem.bytes k p.size, s)
    | none => (List.replicate p.size 0, s)
  | _ =>
    let line := lineOf p.ipa
    match a.place with
    | .l1d => (cachedBytes (findLine (s.coreAt a.die a.pcore).l1d a.tenant line) (p.ipa - line) p.size s.free, s)
    | .l2 => (cachedBytes (findLine (s.dieAt a.die).l2 a.tenant line) (p.ipa - line) p.size s.free, s)
    | _ =>
      match homeRead (some a.die) a.tenant line s with
      | (.bytes bs _, s) => ((bs.drop (p.ipa - line)).take p.size, s)
      | (.stop _, s) => (List.replicate p.size 0, s)

/-- A copy of a line whose bytes were written at the next level: it holds the new bytes, clean (R231). -/
def patchLine (ls : List Line) (tenant line off : Nat) (bs : List Byte) : List Line :=
  match findLine ls tenant line with
  | none => ls
  | some l =>
    let n := l.store off bs
    let upd {α : Type} (old new : List α) : List α := old.take off ++ new ++ old.drop (off + new.length)
    putLine ls { n with dirty := upd l.dirty (bs.map fun _ => false), sent := upd l.sent (bs.map fun _ => none) }

/-- A part of an access writes its bytes where the access is performed (R230), in an LM only where a resident team of the tenant is
still granted them (R346). Of a class-N die's writes at the home those at .sys alone act as class I (R383; log entry 84). -/
def writePart (a : Access) (p : Part) (bs : List Byte) (s : State) : State :=
  let t := s.teamAt a.team
  match spotOf s.hub.package p.ipa with
  | .lm d l o => if lmGranted s a.tenant d l o then smudgeRings d l o bs.length { s with mem := setLm s d l o bs } else s
  | .staging d x => { s with mem := setStage s d t.cluster x bs }
  | .host iova =>
    match hostSpot s a.tenant iova with
    | some k => { s with mem := s.mem.setBytes k bs }
    | none => s
  | _ =>
    let line := lineOf p.ipa
    let off := p.ipa - line
    match a.place with
    | .l1d => storeL1 a.die a.pcore a.tenant line off bs s
    | .l2 =>
      let s := storeL2 a.die a.tenant line (lineBytes off bs) s
      s.modCore a.die a.pcore fun c => { c with l1d := patchLine c.l1d a.tenant line off bs }
    | _ =>
      let dir := decide (a.scope = some 5) || dieTracked s a.die
      let (_, s) := homeWrite (some a.die) a.tenant line (lineBytes off bs) dir s
      let s := s.modDie a.die fun x => { x with l2 := patchLine x.l2 a.tenant line off bs }
      s.modCore a.die a.pcore fun c => { c with l1d := patchLine c.l1d a.tenant line off bs }

/-- The result of AMO on `w`-bit patterns (R236). -/
def amoNew (op w old x : Nat) : Nat :=
  let so := readInt true w old
  let sx := readInt true w x
  match op with
  | 0 => (old + x) % 2 ^ w
  | 1 => old &&& x
  | 2 => old ||| x
  | 3 => old ^^^ x
  | 4 => if sx < so then x else old
  | 5 => if so < sx then x else old
  | 6 => min old x
  | 7 => max old x
  | _ => x

/-- The result of VAMO on 32-bit patterns (R238): fadd rounds to nearest even. -/
def vamoNew (op old x : Nat) : Nat :=
  match op with
  | 6 => x
  | 7 => f32.add .ne old x
  | n => amoNew n 32 old x

/-- The exponent of the block that contains an offset of a line (R163, R243). -/
def blockExponent (l : Line) (off : Nat) : Option Nat :=
  match l.side with
  | none => none
  | some (fmt, es) =>
    ((es.filter fun e => e.1 ≤ off && decide (off < e.1 + 4 * bfpWidth fmt)).map fun e => e.2.toNat).getLast?

/-- The block that contains an offset of a covered line starts in an earlier line (R163): no block of the line starts at or
before it. -/
def Line.earlierBlock (l : Line) (off : Nat) : Bool :=
  match l.side with
  | none => false
  | some (_, es) => !(es.any fun e => decide (e.1 ≤ off))

/-- The first byte of the block that contains a byte, when that block starts in an earlier line, of a line in which no block
starts: the byte must lie in the window (R161, R163). -/
def tailBlock (s : State) (fmt ipa : Nat) : Option Nat :=
  match spotOf s.hub.package ipa with
  | .remote =>
    ((Config.remoteSide (lineOf ipa - 64)).bind fun x => x.2.getLast?).bind fun e =>
      let start := lineOf ipa - 64 + e.1
      if ipa < start + 4 * bfpWidth fmt then some start else none
  | _ => (fwOfLine s.hub (lineOf ipa)).bind fun j =>
      if fwCovers s.hub j ipa then some (fwBaseOf s.hub j + (ipa - fwBaseOf s.hub j) / fwBlock s.hub j * fwBlock s.hub j) else none

/-- The first byte of the block that contains a byte, when that block starts in an earlier line (R163): from a sideband's fmt and
the first block that starts in the line. -/
def earlierStart (s : State) (side : Option (Nat × List (Nat × Byte))) (ipa : Nat) : Option Nat :=
  match side with
  | none => none
  | some (fmt, []) => tailBlock s fmt ipa
  | some (fmt, e :: _) => if ipa < lineOf ipa + e.1 then some (lineOf ipa + e.1 - 4 * bfpWidth fmt) else none

/-- The sideband with which a team's line stands in its core or its die, or with which its home would fill it now. -/
def teamSide (s : State) (t : Team) (line : Nat) : Option (Nat × List (Nat × Byte)) :=
  match (findLine s.core.l1d t.tenant line).filter (·.sided), (findLine s.die.l2 t.tenant line).filter (·.sided) with
  | some l, _ => l.side
  | none, some l => l.side
  | none, none =>
    match spotOf s.hub.package line with
    | .remote => Config.remoteSide line
    | _ => (sideband line s).1

/-- The parts of a LDSC: the addressed byte, and with it the first byte of its block when that stands in an earlier line, which
LDSC fills too (R163). -/
def ldscParts (s : State) : List Part → List Part
  | p :: _ =>
    match earlierStart s (teamSide s s.team (lineOf p.ipa)) p.ipa with
    | some b => [p, { ipa := b, size := 1, lane := 1, data := 0, va := p.va - (p.ipa - b) }]
    | none => [p]
  | [] => []

/-- LDSC's value (R163, R243): from the addressed line, or from the line before when the block starts there. -/
def ldscValue (c : Core) (tenant ea : Nat) : Nat :=
  let line := lineOf ea
  match findLine c.l1d tenant line with
  | none => 0
  | some l =>
    if l.earlierBlock (ea - line) then
      ((findLine c.l1d tenant (line - 64)).bind fun b => blockExponent b (ea - line + 64)).getD 0
    else (blockExponent l (ea - line)).getD 0

/-- What an element leaves where it read `old`, if it writes (R226, R236, R238). -/
def partWrites (op : AccOp) (p : Part) (old : Nat) : Option Nat :=
  let x := p.data.toNat % 2 ^ (8 * p.size)
  match op with
  | .store => some x
  | .amo _ o _ => some (amoNew o (8 * p.size) old x)
  | .cas _ _ new => if old = x then some new.toNat else none
  | .vamo _ o _ => some (vamoNew o old x)
  | _ => none

/-- One element of an access is performed: what it read, and the state after its write (R236, R238). A store reads nothing
(R585). -/
def performPart (a : Access) (s : State) (p : Part) : Nat × State :=
  match a.op with
  | .store => (0, writePart a p (natBytes p.size (p.data.toNat % 2 ^ (8 * p.size))) s)
  | .ldsc _ => (ldscValue (s.coreAt a.die a.pcore) a.tenant p.ipa, s)
  | _ =>
    let (bs, s) := readPart a p s
    let old := leNat bs
    (old, match partWrites a.op p old with
      | some x => writePart a p (natBytes p.size x) s
      | none => s)

/-- The lanes of a vector load. -/
def laneValues (ty : BitVec 3) (xs : List (Nat × Nat)) : VReg :=
  xs.foldl (fun v (i, x) => vput v i (laneExtend ty x)) VReg.zero

/-- The registers that a performed access writes as it completes (R226, R227, R236, R238, R243). -/
def resultsOf (op : AccOp) (xs : List (Nat × Nat)) : List Write :=
  let x := (xs.head?.getD (0, 0)).2
  match op with
  | .load n ty => [.s n (typeExtend (BitVec.ofNat 3 ty) x)]
  | .vload n lanes ty => [.v n lanes (laneValues (BitVec.ofNat 3 ty) xs)]
  | .amo n _ ty | .cas n ty _ => [.s n (if ty = 4 then sextNat 32 x else dbl x)]
  | .vamo n _ lanes => [.v n lanes (laneValues 4 xs)]
  | .ldsc n | .launch n _ _ => [.s n (dbl x)]
  | _ => []

/-! ### The lines that an access needs, in place -/

/-- An L1D line in place for an access that reads it there. -/
def ensureL1 (a : Access) (line off n : Nat) (s : State) : Option Verdict × State :=
  let t := s.teamAt a.team
  let side := a.op.wantsSide
  if l1Ready s a.die a.pcore t line off n side then (none, s)
  else
    let (v, s) := if l2Ready s a.die t line side then (none, s) else fillL2 a.die t a.path line s
    match v with
    | some v => (some v, s)
    | none => (none, fillL1 a.die a.pcore t line s)

/-- The die's own copies of a line written back to its home before an access there (R231), as writes of the team. -/
def ensureHome (a : Access) (line : Nat) (s : State) : Option Verdict × State :=
  let s := cleanL1 (some a.team) a.die a.pcore a.tenant line s
  match findLine (s.dieAt a.die).l2 a.tenant line with
  | some l =>
    if l.isDirty then
      match homeWrite (some a.die) l.tenant line l.dirtyBytes (dieTracked s a.die) s with
      | (some v, s) => (some v, s)
      | (none, s) =>
        (none, sendHomeWrite a.team a.path line (s.modDie a.die fun x => { x with l2 := putLine x.l2 l.clean }))
    else (none, s)
  | none => (none, s)

/-- A line that an access reads or writes brought to where it is performed; a verdict stops it (R362, R536). -/
def ensureLine (a : Access) (line : Nat) (s : State) : Option Verdict × State :=
  match a.place with
  | .l1d =>
    if !a.op.reads then (none, s)
    else
      let (lo, hi) := a.need line
      ensureL1 a line lo (hi - lo) s
  | .l2 =>
    let s := cleanL1 (some a.team) a.die a.pcore a.tenant line s
    if !a.op.reads || l2Ready s a.die (s.teamAt a.team) line false then (none, s)
    else fillL2 a.die (s.teamAt a.team) a.path line s
  | .home =>
    match ensureHome a line s with
    | (some v, s) => (some v, s)
    | (none, s) =>
      match lineCheck s a.tenant a.op.kind line with
      | .ok _ => if s.hub.poisoned.contains line then (some (.kill 0x0105 0), s) else (none, s)
      | v => (some v, s)
  | _ => (none, s)

/-- The lines of an access, in order, until one stops it. -/
def ensureLines (a : Access) : List Nat → State → Option (Nat × Verdict) × State
  | [], s => (none, s)
  | l :: ls, s =>
    match ensureLine a l s with
    | (some v, s) => (some (l, v), s)
    | (none, s) => ensureLines a ls s

/-- The parts of an access performed in lane order, with what each read (R229, R238): lines that an earlier part's write-backs have
moved out are brought again. -/
def performParts (a : Access) : List Part → State → List (Nat × Nat) × State
  | [], s => ([], s)
  | p :: ps, s =>
    let (_, s) := ensureLines a ({ a with parts := [p] }.cacheLines s.hub.package) s
    let (x, s) := performPart a s p
    let (xs, s) := performParts a ps s
    ((p.lane, x) :: xs, s)

/-- The lines that an access has brought into its core and its die make room (R347, R348). -/
def makeRoom (a : Access) (s : State) : State :=
  (a.cacheLines s.hub.package).foldl (fun s line =>
    let s := roomL2 (some (a.team, a.path)) a.die line s
    if a.place = .l1d then roomL1 a.team a.die a.pcore line s else s) s

/-- An access replaced in its team's list. -/
def putAccess (a : Access) (s : State) : State :=
  s.modTeam a.team fun t => { t with vars := modWhere (fun b => b.id = a.id) (fun _ => a) t.vars }

/-- A spot of the acting team's own core: its own LM, or its L1D (R377). -/
def ownSpot (s : State) (a : Access) (p : Part) : Bool :=
  match spotOf s.hub.package p.ipa with
  | .lm d l _ => decide (d = a.team.die) && decide (l = a.team.lcore)
  | .translated _ | .remote => decide (a.place = .l1d)
  | _ => false

/-- A spot outside the team's die: another die's LM, the home, the host or another package. -/
def farSpot (s : State) (a : Access) (p : Part) : Bool :=
  match spotOf s.hub.package p.ipa with
  | .host _ => true
  | .lm d _ _ => decide (d ≠ a.team.die)
  | .translated _ | .remote => decide (a.place = .home)
  | _ => false

/-- A write reaches the place where it is performed (R377): the fields whose scope holds that place no longer count
it. -/
def reached (s : State) (a : Access) (w : PendingWrite) : PendingWrite :=
  let ps := a.parts ++ a.early
  if ps.all (ownSpot s a) then { w with core := false, die := false, pkg := false, sys := false }
  else if ps.any fun p => farSpot s a p && offPackage s p.ipa then { w with sys := false }
  else if ps.any (farSpot s a) then { w with pkg := false, sys := false }
  else { w with die := false, pkg := false, sys := false }

/-- A write that no field counts any more leaves the list. -/
def settleWrites (t : Team) : Team :=
  { t with writes := t.writes.filter fun w => w.core || w.die || w.pkg || w.sys }

/-- Every dirty line of a die's L2 that passes a test written to its home at once, for a reader or a hub action that waits for it
(R234, R378, R403): a line that the home makes wait stays dirty, and is noted for the action to be tried again (R352, R536). -/
def flushL2Home (d : Nat) (keep : Line → Bool) (dir : Bool) (s : State) : State :=
  ((s.dieAt d).l2.filter fun l => l.isDirty && keep l).foldl (fun s l =>
    match homeWrite (some d) l.tenant l.ipa l.dirtyBytes (dir || dieTracked s d) s with
    | (some (.kill c det), s) => killFor l.tenant 4 c l.ipa det s
    | (some v, s) => noteWait l.tenant l.ipa .write (decide (v = .hold)) s
    | (none, s) => s.modDie d fun x => { x with l2 := putLine x.l2 l.clean }) s

/-- The core whose LM an LDA.rp reads, where it is not the reader's scope of .core: its die and physical core, and whether its
L2 is written back too (R234, R381). -/
def promotes (s : State) (a : Access) : Option (Nat × Nat × Bool) :=
  if !a.rp then none
  else match a.parts.head? with
    | none => none
    | some p =>
      match spotOf s.hub.package p.ipa, (a.scope.getD 0).toNat with
      | .lm _ _ _, 0 => none
      | .lm d l _, sc => some (d, ((s.dieAt d).physical l).getD 72, decide (3 ≤ sc))
      | _, _ => none

/-- promote(c, sc): the core whose LM holds the location writes back its lines of the reader's tenant, to which every release at
the location belongs (R234, R346, R381). -/
def promote (s : State) (a : Access) : State :=
  match promotes s a with
  | none => s
  | some (d, p, far) =>
    let mine := fun l : Line => decide (l.tenant = a.tenant)
    let s := flushL1 none d p mine s
    if far then flushL2Home d mine false s else s

/-- A promotion whose write-backs have not all been acknowledged: its LDA does not read yet (R381). -/
def promoting (s : State) (a : Access) : Bool :=
  match promotes s a with
  | some (d, _, true) => (s.dieAt d).l2.any fun l => l.isDirty && decide (l.tenant = a.tenant)
  | _ => false

/-- The first byte of an access, and its payload. -/
def Access.ipa (a : Access) : Nat := (a.parts.head?.map (·.ipa)).getD 0
@[inherit_doc Access.ipa] def Access.payload (a : Access) : Nat := (a.parts.map (·.size)).sum

/-- A performed access: its results wait for its completion, its write for its acknowledgement, and the slot that a delayed RPUT,
whose place is the LM itself, has written is counted (R242). -/
def finishAccess (a : Access) (xs : List (Nat × Nat)) (s : State) : State :=
  let xs := sortBy (fun x y => decide (x.1 < y.1)) (a.got ++ xs)
  let a := { a with phase := .performed, results := resultsOf a.op xs }
  let s := putAccess a s
  let s := (reachWrite a.team a.wid (reached s a) s).modTeam a.team settleWrites
  let s := match a.wid with
    | some w =>
      if (s.teamAt a.team).writes.any fun x => x.id = w then s.later .writeAcknowledge { team := a.team, id := w } else s
    | none => s
  let s := if a.place = .lm then fillWritten a.team a.id 1 s else s
  let done : Occ := { team := a.team, id := a.id }
  if a.op.variable then
    (if a.parts.any (farSpot s a) then toDie a.die a.tenant a.ipa a.payload .variableOpComplete done s
     else s.later .variableOpComplete done)
  else s.modTeam a.team fun t => { t with vars := t.vars.filter fun b => b.id ≠ a.id }

/-- An access that can be performed is performed, and what it brought in makes room. -/
def performAccess (a : Access) (s : State) : State :=
  let (xs, s) := performParts a a.parts s
  makeRoom a (finishAccess a xs s)

/-- Destination registers hold unspecified values until the operation completes (R79); log entry 3. -/
def unspecify (op : AccOp) (s : State) : State :=
  let bump (t : Team) : State := { s with team := t, free := s.free + 1 }
  match op with
  | .load n _ | .amo n _ _ | .cas n _ _ | .ldsc n | .rget n _ 6 | .launch n _ _ =>
    bump (s.team.write (.s n (Config.freeDouble s.free)))
  | .vload n lanes _ | .vamo n _ lanes => bump (s.team.write (.v n lanes (freeV s.free)))
  | .rget n _ _ => bump (s.team.write (.v n (BitVec.allOnes 64) (freeV s.free)))
  | _ => s

/-- An access of lanes, or of one element: its parts are elements that it reads or writes. -/
def AccOp.elements : AccOp → Bool
  | .launch _ _ _ | .mstz _ => false
  | _ => true

/-- A load or store of lanes: lanes to different bytes are in no order (R229, R231), which those of a VAMO are (R238). -/
def AccOp.anyOrder : AccOp → Bool
  | .vload _ _ _ | .store => true
  | _ => false

/-- The parts of a vector load or store in its core's own LM are performed as it leaves its slot (R228, R343): no other part keeps
them waiting. -/
def performOwn (a : Access) (s : State) : Access × State :=
  let own := fun p : Part => match spotOf s.hub.package p.ipa with
    | .lm d l _ => decide (d = a.team.die) && decide (l = a.team.lcore)
    | _ => false
  let mine := a.parts.filter own
  if !a.op.anyOrder || mine.length = a.parts.length || blockedBy s s.team { a with parts := mine } then (a, s)
  else
    let (xs, s) := performParts a mine s
    ({ a with parts := a.parts.filter fun p => !own p, early := mine, got := xs }, s)

/-- A place that an access reaches over its die's socket (R458). -/
def Access.crosses (pkg : Nat) (a : Access) : Bool :=
  a.parts.any fun p => match spotOf pkg p.ipa with
    | .lm d _ _ | .staging d _ => decide (d ≠ a.die)
    | _ => true

/-- An access goes to where it is performed (R366), over its die's socket when that is outside the die (R458). -/
def leaveDie (a : Access) (s : State) : State :=
  let o : Occ := { team := a.team, id := a.id }
  if a.crosses s.hub.package then toHome a.die a.tenant a.ipa a.payload .homeRequest o s else s.later .homeRequest o

/-- An access of the acting team leaves its slot (R225): it is performed at once when its core and die can serve it
and no earlier access of the team to its lines is pending, and otherwise goes to its home. -/
def sendAccess (a : Access) (s : State) : State :=
  let s := unspecify a.op s
  let (a, s) := performOwn a s
  let s := s.onTeam fun t => { t with vars := t.vars ++ [a] }
  if (a.parts.all (partReady s a s.team)) && !blockedBy s s.team a && !(a.releases s.team && loadsBefore s.team a) && !a.rp &&
      a.op.elements then
    match ensureLines a (a.cacheLines s.hub.package) s with
    | (none, s) => performAccess a s
    | (some _, s) => leaveDie a s
  else leaveDie a s

/-- An access of the acting team's slot at its position. -/
def newAccess (j : Slot) (i : Instr) (va : Nat) (scope : Option (BitVec 3)) (rp : Bool) (place : Place) (op : AccOp)
    (parts : List Part) (s : State) : Access × State :=
  let (id, s) := s.newId
  ({ id := id, team := s.team.ref, die := s.core.die, pcore := s.core.pcore, tenant := s.team.tenant, slot := j,
     pos := s.team.passed j, word := trapWord i, va := va, path := .ls, scope := scope, rp := rp, place := place,
     op := op, parts := parts, early := [], got := [], waits := none, sent := false, phase := .pending, results := [], wid := none,
     issued := s.now }, s)

/-- The request entries of an access: one for each line outside the core's own LM (R225). -/
def Access.entries (s : State) (a : Access) : Nat :=
  (dedup ((a.parts.filter fun p => match spotOf s.hub.package p.ipa with
    | .lm d l _ => !(decide (d = a.team.die) && decide (l = a.team.lcore))
    | _ => true).flatMap fun p => linesOf p.ipa p.size)).length

/-- A writing access, counted in RELC until it is performed or acknowledged (R225, R377). -/
def countStore (a : Access) (s : State) : Access × State :=
  let (w, s) := addWrite a.team { PendingWrite.new a.path with pos := a.pos, entries := if a.path = .ls then a.entries s else 0 } s
  ({ a with wid := some w }, s)

/-- The request entries that a team holds (R225): a store's until it is acknowledged at .core, a load's until its data
returns, and an atomic's until both. -/
def Team.entriesHeld (s : State) (t : Team) : Nat :=
  let counted := fun a : Access => t.writes.any fun w => w.core && some w.id = a.wid
  ((t.writes.filter (·.core)).map (·.entries)).sum +
    ((t.vars.filter fun a => a.path = .ls && a.op.variable && !counted a).map
      fun a => { a with parts := a.parts ++ a.early }.entries s).sum

/-- The request entries that the core's teams hold (R225, R366). -/
def requestsOut (s : State) : Nat :=
  (s.residents s.core.die s.core.pcore).foldl (fun n r => n + (s.teamAt r).entriesHeld s) 0

end Sys2Proof.Machine
end

