-- ==== Sys2Proof/Machine/LoadStore.lean ====
section
/-! DEFINITION. The LS slot: loads and stores, acquire and release, atomics, cache maintenance, rings and LDSC
(spec/08_isa_memory_vector.md R222 to R243, spec/10_copy_rings_weights.md R298 to R300, spec/22_memory_engine_faults.md
R526, R532). -/

namespace Sys2Proof

open Machine

/-! ## Addresses -/

/-- A signed offset of the word's low bits, scaled (R222). -/
def Machine.lsOff (bits : Nat) (f : LsForm) (scale : Nat) : Double := sextNat bits f.low.toNat * dbl scale

/-- The effective address of a scalar form (R226). -/
def LsForm.ea (f : LsForm) (t : Team) : Double := t.ra f.a + lsOff 12 f (typeSize f.ty)

/-- The effective address of LDA and STL (R233). -/
def LsForm.ea8 (f : LsForm) (t : Team) : Double := t.ra f.a + lsOff 8 f (typeSize f.ty)

/-- The lane mask of each vector layout (R120). -/
def LsForm.maskHigh (f : LsForm) : BitVec 3 := f.low.extractLsb' 9 3
@[inherit_doc LsForm.maskHigh] def LsForm.maskIdx (f : LsForm) : BitVec 3 := f.low.extractLsb' 1 3
@[inherit_doc LsForm.maskHigh] def LsForm.maskVamo (f : LsForm) : BitVec 3 := f.low.extractLsb' 3 3

end Sys2Proof

namespace Sys2Proof.Machine

/-- The active lanes of a mask register, in ascending order (R35). -/
def activeLanes (m : Double) : List Nat := (List.range 64).filter fun i => m.getLsbD i

/-- The address of a lane (R227). -/
def addrUnit (f : LsForm) (t : Team) (i : Nat) : Double := t.ra f.a + lsOff 9 f 64 + dbl (i * typeSize f.ty)
@[inherit_doc addrUnit] def addrStride (f : LsForm) (t : Team) (i : Nat) : Double :=
  t.ra f.a + dbl i * t.rs (f.low.extractLsb' 3 6)
@[inherit_doc addrUnit] def addrIndex (f : LsForm) (t : Team) (i : Nat) : Double :=
  t.ra f.a + sextNat 32 (vget (t.rv (f.low.extractLsb' 6 6)) i 0).toNat * dbl (2 ^ (f.low.extractLsb' 4 2).toNat)
@[inherit_doc addrUnit] def addrVamo (f : LsForm) (t : Team) (i : Nat) : Double :=
  t.ra f.a + sextNat 32 (vget (t.rv (f.low.extractLsb' 6 6)) i 0).toNat * 4

/-- The elements of a vector form: lane, address, and the lane of the data register. -/
def vecElems (f : LsForm) (t : Team) (mask : BitVec 3) (addr : Nat → Double) : List (Nat × Double × Double) :=
  (activeLanes (t.rm mask)).map fun i => (i, addr i, (vget (t.rv f.data) i 0).setWidth 64)

/-! ## The checks at issue (R224, R526) -/

/-- The parts of an access, or the cause and the address of its lowest failing lane (R526). -/
def checkParts (s : State) (t : Team) (f : LsForm) (k : AccKind) (size : Nat) :
    List (Nat × Double × Double) → Except (Nat × Nat) (List Part)
  | [] => .ok []
  | (i, a, x) :: es =>
    if (t.ra f.a).extractLsb' 56 8 ≠ 0 then .error (0x0020, a.toNat)
    else match checkAddr s t k a.toNat size with
      | .error c => .error (c, a.toNat)
      | .ok ipa =>
        match checkParts s t f k size es with
        | .error e => .error e
        | .ok ps => .ok ({ ipa := ipa, size := size, lane := i, data := x, va := a.toNat } :: ps)

/-- The post-increment that a form makes (R222): one a-register result of latency 1. -/
def postInc (f : LsForm) (t : Team) : List (Nat × Write) :=
  if f.pi = 1 then [(1, .a f.a (t.ra f.a + t.rd f.a))] else []

/-- An acquire of the team has not returned its value (R233). -/
def acquiring (t : Team) : Bool := t.vars.any Access.acquires

/-- Every part lies in the core's own LM (R80, R228). -/
def allOwnLm (s : State) (ps : List Part) : Bool :=
  ps.all fun p => match spotOf s.hub.package p.ipa with
    | .lm d l _ => decide (d = s.team.ref.die) && decide (l = s.team.ref.lcore)
    | _ => false

/-- An LS operation as it issues: an acquire that is still out holds it (R233), reserved values and failing
addresses raise their causes with no effect (R498, R526), 0x0018 before an address's (R500), and a core whose request entries are
all taken holds it, unless it needs none (R71, R225, R366); one that needs several issues as soon as one is free (DESIGN CHOICE,
log entry 85). -/
def lsOp (i : Instr) (f : LsForm) (k : AccKind) (size : Nat) (els : Team → List (Nat × Double × Double))
    (eff : List Part → State → State) (s : State) : State :=
  slotOp .ls i (fun s =>
    if acquiring s.team then holdSlot .ls s
    else match checkParts s s.team f k size (els s.team) with
      | .error (c, va) =>
        if s.team.flightFull (postInc f s.team).length then takeTrap .ls i 0x0018 0 s else takeTrap .ls i c va s
      | .ok ps =>
        if !allOwnLm s ps && decide (1024 ≤ requestsOut s) then holdSlot .ls s
        else if s.team.flightFull (postInc f s.team).length then takeTrap .ls i 0x0018 0 s
        else eff ps s) s

/-- The scope that an access's place follows. -/
def partPlace (s : State) (ps : List Part) (scope : Option (BitVec 3)) : Place :=
  match ps.head? with
  | none => .l1d
  | some p => placeOf (spotOf s.hub.package p.ipa) scope

/-- The access places by cache level whatever its first part is. -/
def scopePlace (scope : Option (BitVec 3)) : Place := placeOf .remote scope

/-- An element that waits to be performed in the core's own LM, over what those before it leave there. -/
def pendingPart (s : State) (op : AccOp) (m : SMap Byte) (p : Part) : SMap Byte :=
  match spotOf s.hub.package p.ipa with
  | .lm d l o =>
    if d = s.team.ref.die ∧ l = s.team.ref.lcore then
      let old := (upFrom o p.size).zipWith (fun x b => (SMap.get? m x).getD b) (lmBytes s d l o p.size)
      match partWrites op p (leNat old) with
      | some x => ((upFrom o p.size).zip (natBytes p.size x)).foldl (fun m y => SMap.insert m y.1 y.2) m
      | none => m
    else m
  | _ => m

/-- The bytes of the core's own LM that the acting team's stores and atomics will have left there once those that wait are
performed. -/
def pendingOwn (s : State) : SMap Byte :=
  (s.team.vars.filter fun b => decide (b.phase ≠ .performed)).foldl (fun m b => b.parts.foldl (pendingPart s b.op) m) []

/-- Bytes of the core's own LM as the acting team's next load sees them: the team's writes to them that wait to be performed
are before it (R231). -/
def ownBytes (s : State) (o n : Nat) : List Byte :=
  let m := pendingOwn s
  (upFrom o n).zipWith (fun x b => (SMap.get? m x).getD b) (lmBytes s s.team.ref.die s.team.ref.lcore o n)

/-- The elements read from memory at once: for loads of the core's own LM. -/
def readNow (s : State) (ps : List Part) : List (Nat × Nat) :=
  ps.map fun p => match spotOf s.hub.package p.ipa with
    | .lm _ _ o => (p.lane, leNat (ownBytes s o p.size))
    | _ => (p.lane, 0)

/-- An access that reads leaves the slot: of the core's own LM with the LM load latency when its form has one (R80),
otherwise with a variable latency. -/
def loadEff (i : Instr) (f : LsForm) (width : Nat) (va : Double) (scope : Option (BitVec 3)) (rp fixedLm : Bool)
    (op : AccOp) (ps : List Part) (s : State) : State :=
  if ps.isEmpty then issue .ls i width (postInc f s.team) s
  else if fixedLm && allOwnLm s ps then
    issue .ls i width ((resultsOf op (readNow s ps)).map (fun w => (lat s 7 6, w)) ++ postInc f s.team) s
  else
    let (a, s) := newAccess .ls i va.toNat scope rp (scopePlace scope) op ps s
    sendAccess a (issueLater .ls i (postInc f s.team) s)

/-- An access that writes leaves the slot, counted in RELC (R225). -/
def writeEff (i : Instr) (f : LsForm) (width : Nat) (va : Double) (scope : Option (BitVec 3)) (op : AccOp)
    (ps : List Part) (s : State) : State :=
  if ps.isEmpty then issue .ls i width (postInc f s.team) s
  else
    let (a, s) := newAccess .ls i va.toNat scope false (scopePlace scope) op ps s
    let (a, s) := countStore a s
    sendAccess a ((if op.variable then issueLater .ls i else issue .ls i width) (postInc f s.team) s)

/-- The element width of an access in bits. -/
def accWidth (f : LsForm) : Nat := 8 * typeSize f.ty

/-- LD (R226): of the core's own LM with the LM load latency, else of variable latency. -/
def execLd (f : LsForm) (s : State) : Host.Outcome State Fault Refusal :=
  .next (lsOp (.ld f) f .read (typeSize f.ty) (fun t => [(0, f.ea t, 0)])
    (fun ps s => loadEff (.ld f) f (accWidth f) (f.ea s.team) none false true (.load f.data f.ty.toNat) ps s) s)

/-- ST (R226). -/
def execSt (f : LsForm) (s : State) : Host.Outcome State Fault Refusal :=
  .next (lsOp (.st f) f .write (typeSize f.ty) (fun t => [(0, f.ea t, t.rs f.data)])
    (fun ps s => writeEff (.st f) f (accWidth f) (f.ea s.team) none .store ps s) s)

/-- A vector load (R227, R228): LDVG has no fixed latency. -/
def vecLoad (i : Instr) (f : LsForm) (mask : BitVec 3) (addr : Team → Nat → Double) (fixedLm : Bool) (s : State) :
    State :=
  lsOp i f .read (typeSize f.ty) (fun t => vecElems f t mask (addr t))
    (fun ps s => loadEff i f (accWidth f) (addr s.team 0) none false fixedLm
      (.vload f.data (s.team.rm mask) f.ty.toNat) ps s) s

/-- A vector store (R227, R229). -/
def vecStore (i : Instr) (f : LsForm) (mask : BitVec 3) (addr : Team → Nat → Double) (s : State) : State :=
  lsOp i f .write (typeSize f.ty) (fun t => vecElems f t mask (addr t))
    (fun ps s => writeEff i f (accWidth f) (addr s.team 0) none .store ps s) s

/-- LDV (R227). -/
def execLdv (f : LsForm) (s : State) : Host.Outcome State Fault Refusal :=
  .next (vecLoad (.ldv f) f f.maskHigh (addrUnit f) true s)

/-- STV (R227). -/
def execStv (f : LsForm) (s : State) : Host.Outcome State Fault Refusal :=
  .next (vecStore (.stv f) f f.maskHigh (addrUnit f) s)

/-- LDVS (R227). -/
def execLdvs (f : LsForm) (s : State) : Host.Outcome State Fault Refusal :=
  .next (vecLoad (.ldvs f) f f.maskHigh (addrStride f) true s)

/-- STVS (R227, R229). -/
def execStvs (f : LsForm) (s : State) : Host.Outcome State Fault Refusal :=
  .next (vecStore (.stvs f) f f.maskHigh (addrStride f) s)

/-- LDVG (R227, R228). -/
def execLdvg (f : LsForm) (s : State) : Host.Outcome State Fault Refusal :=
  .next (vecLoad (.ldvg f) f f.maskIdx (addrIndex f) false s)

/-- STVX (R227, R229). -/
def execStvx (f : LsForm) (s : State) : Host.Outcome State Fault Refusal :=
  .next (vecStore (.stvx f) f f.maskIdx (addrIndex f) s)

/-! ## Acquire and release -/

/-- LDA (R233, R234): an acquire at its scope; `.rp` promotes. -/
def execLda (f : LsForm) (s : State) : Host.Outcome State Fault Refusal :=
  .next (lsOp (.lda f) f .read (typeSize f.ty) (fun t => [(0, f.ea8 t, 0)])
    (fun ps s => loadEff (.lda f) f (accWidth f) (f.ea8 s.team) (some f.hi3) (f.low.getLsbD 8) false
      (.load f.data f.ty.toNat) ps s) s)

/-- Write-backs of the core's L1D lines to the L2, each a write of the acting team (R377). -/
def sendL1 (keep : Line → Bool) (s : State) : State := flushL1 (some s.team.ref) s.core.die s.core.pcore keep s

/-- Write-backs of the die's L2 lines to their homes, each a write of the acting team (R377). -/
def sendL2 (keep : Line → Bool) (dir : Bool) (s : State) : State :=
  ((s.dieAt s.core.die).l2.filter fun l => l.isDirty && keep l).foldl (sendWriteBack s.team.ref .ls dir s.core.die) s

/-- What a release at a scope writes back (R378): the core's L1D at .cove and .die, and the die's L2 too at .pkg and
wider. -/
def releaseWriteBacks (scope : BitVec 3) (s : State) : State :=
  match scope.toNat with
  | 0 => s
  | 1 | 2 => sendL1 (fun _ => true) s
  | _ => sendL2 (fun _ => true) (dieTracked s s.core.die) (sendL1 (fun _ => true) s)

/-- The writes of a RELC field that a release at the team's LS slot waits for: all but those of ls at later positions, a LAUNCH's,
which itself waits for the release (R369, R370; DEDUCED, log entry 86). -/
def Team.relcBefore (t : Team) (f : Nat) : Nat :=
  ((t.writes.filter fun w => w.counts f && !(decide (w.path = .ls) && decide (t.passed .ls < w.pos))).map (·.count)).sum

/-- The LS slot that waits for RELC: it first waits for the earlier writes, then writes back, then waits for those
write-backs, and then goes on (R71, R233, R378). -/
def releaseThen (scope : BitVec 3) (go : State → State) (s : State) : State :=
  let f := relcField scope
  if s.team.relcBefore f ≠ 0 then holdSlot .ls s
  else if s.team.stlSent then go (s.onTeam fun t => { t with stlSent := false })
  else
    let s := releaseWriteBacks scope s
    if s.team.relcBefore f ≠ 0 then holdSlot .ls (s.onTeam fun t => { t with stlSent := true }) else go s

/-- STL (R233, R378): a release at its scope. -/
def execStl (f : LsForm) (s : State) : Host.Outcome State Fault Refusal :=
  .next (lsOp (.stl f) f .write (typeSize f.ty) (fun t => [(0, f.ea8 t, t.rs f.data)])
    (fun ps s => releaseThen f.hi3
      (fun s => writeEff (.stl f) f (accWidth f) (f.ea8 s.team) (some f.hi3) .store ps s) s) s)

/-! ## Atomics -/

/-- An AMO or CAS at a scope at which the team has made a FENCE of its stores is a release there (R378, R380). -/
def atomicThen (scope : BitVec 3) (go : State → State) (s : State) : State :=
  if s.team.relScopes.contains scope then releaseThen scope go s else go s

/-- AMO (R236). -/
def execAmo (f : LsForm) (s : State) : Host.Outcome State Fault Refusal :=
  .next (lsOp (.amo f) f .atomic (typeSize f.ty) (fun t => [(0, t.ra f.a, t.rs f.data)])
    (fun ps s => atomicThen f.hi3 (fun s => writeEff (.amo f) f (accWidth f) (s.team.ra f.a) (some f.hi3)
      (.amo f.data (f.low.extractLsb' 5 4).toNat f.ty.toNat) ps s) s) s)

/-- CAS (R236): the new value stands in the next register. -/
def execCas (f : LsForm) (s : State) : Host.Outcome State Fault Refusal :=
  .next (lsOp (.cas f) f .atomic (typeSize f.ty) (fun t => [(0, t.ra f.a, t.rs f.data)])
    (fun ps s => atomicThen f.hi3 (fun s => writeEff (.cas f) f (accWidth f) (s.team.ra f.a) (some f.hi3)
      (.cas f.data f.ty.toNat (s.team.rs (f.data + 1))) ps s) s) s)

/-- VAMO (R238): the scope stands in the type field. -/
def execVamo (f : LsForm) (s : State) : Host.Outcome State Fault Refusal :=
  .next (lsOp (.vamo f) f .atomic 4 (fun t => vecElems f t f.maskVamo (addrVamo f t))
    (fun ps s => writeEff (.vamo f) f 32 (addrVamo f s.team 0) (some f.ty)
      (.vamo f.data (f.low.extractLsb' 0 3).toNat (s.team.rm f.maskVamo)) ps s) s)

/-! ## Cache maintenance (R239) -/

/-- The lines on which a maintenance operation acts: those of its extent, or the tenant's with `.all`. -/
def maintains (a : Access) (ext : Nat) (l : Line) : Bool :=
  if ext = 2 then decide (l.tenant = a.tenant) else maintTouches ext ((a.parts.head?.map (·.ipa)).getD 0) l.ipa

/-- Dirty copies are written back (R239): at .sys as class-I writes (R383). -/
def cacheWriteBack (scope : Nat) (keep : Line → Bool) (s : State) : State :=
  match scope with
  | 0 => s
  | 1 | 2 => sendL1 keep s
  | n => sendL2 keep (decide (n = 5) || dieTracked s s.core.die) (sendL1 keep s)

/-- Copies are dropped, dirty data with them (R239), but for the bytes that a write-back on its way still carries. -/
def cacheDrop (scope : Nat) (keep : Line → Bool) (s : State) : State :=
  let l1 := fun s : State => s.onCore fun c => { c with l1d := c.l1d.filter fun l => !keep l }
  match scope with
  | 0 => s
  | 1 | 2 => l1 s
  | _ =>
    (l1 s).modDie s.core.die fun x =>
      { x with l2 := x.l2.filterMap fun l => if !keep l then some l else if l.dropped.isDirty then some l.dropped else none }

/-- A maintenance operation of the acting team takes its effect, and its own count ends: its write-backs are counted. -/
def performMaint (a : Access) (wb drop : Bool) (ext scope : Nat) (s : State) : State :=
  let keep := maintains a ext
  let s := if wb then cacheWriteBack scope keep s else s
  let s := if drop then cacheDrop scope keep s else s
  s.modTeam a.team fun t => { t with vars := t.vars.filter fun b => b.id ≠ a.id,
                                     writes := t.writes.filter fun w => some w.id ≠ a.wid }

/-- A maintenance operation: with `.all` the address is ignored; otherwise any byte address that the windows let the team
read (R224, R239; which right it needs is DESIGN CHOICE, log entry 19). It takes its effect after the team's earlier accesses
to its lines (R369), and until then it is counted in RELC when it writes back. -/
def cacheOp (i : Instr) (f : LsForm) (wb drop : Bool) (s : State) : State :=
  lsOp i f .read 1 (fun t => if f.ty = 2 then [] else [(0, t.ra f.a, 0)])
    (fun ps s =>
      let (a, s) := newAccess .ls i (s.team.ra f.a).toNat none false .l1d (.maint wb drop f.ty.toNat f.hi3.toNat) ps s
      let (w, s) := if wb then (fun x : Nat × State => (some x.1, x.2)) (addWrite a.team (PendingWrite.new .ls) s) else (none, s)
      let a := { a with wid := w }
      let s := (issue .ls i 8 (postInc f s.team) s).onTeam fun t => { t with vars := t.vars ++ [a] }
      if blockedBy s s.team a then s.later .homeRequest { team := a.team, id := a.id }
      else performMaint a wb drop f.ty.toNat f.hi3.toNat s) s

/-- CWB (R239). -/
def execCwb (f : LsForm) (s : State) : Host.Outcome State Fault Refusal := .next (cacheOp (.cwb f) f true false s)

/-- CINV (R239). -/
def execCinv (f : LsForm) (s : State) : Host.Outcome State Fault Refusal := .next (cacheOp (.cinv f) f false true s)

/-- CFLUSH (R239): CWB, then CINV. -/
def execCflush (f : LsForm) (s : State) : Host.Outcome State Fault Refusal := .next (cacheOp (.cflush f) f true true s)

/-! ## Rings (R240 to R242, R298 to R300, R532) -/

/-- The bytes of a vector register, lane 0 first (R34, R240). -/
def vecBytes (v : VReg) : List Byte := v.toList.flatMap fun w => natBytes 4 w.toNat

/-- A vector register from its bytes. -/
def vecOfBytes (bs : List Byte) : VReg := Vector.ofFn fun i => BitVec.ofNat 32 (numAt bs (4 * i.val) 4)

/-- A ring operation as it issues: an unbound ring raises 0x0018, a v-register on slots below 256 bytes 0x0011
(R532). -/
def ringOp (i : Instr) (f : LsForm) (eff : RingView → State → State) (s : State) : State :=
  slotOp .ls i (fun s =>
    if acquiring s.team then holdSlot .ls s
    else match ringView s f.hi3.toNat with
      | none => takeTrap .ls i 0x0018 0 s
      | some r => if f.ty = 7 ∧ r.lsz < 8 then takeTrap .ls i 0x0011 0 s else eff r s) s

/-- The bytes of a slot as parts of an access to the core's own LM. -/
def slotParts (s : State) (o : Nat) (bs : List Byte) : List Part :=
  (List.range (bs.length / 8)).map fun i =>
    { ipa := lmIpa s.hub.package s.team.ref.die s.team.ref.lcore (o + 8 * i), size := 8, lane := 0, data := doubleAt bs (8 * i),
      va := localView + o + 8 * i }

/-- RPUT writes its slot: at once, or as an access of the team when an earlier one to those bytes waits to be performed (R231), and
the slot is counted as filled once its bytes are written (R242). -/
def putSlot (i : Instr) (k : Nat) (r : RingView) (bs : List Byte) (s : State) : State :=
  let o := r.slot r.tail
  let next := { r with tail := r.advance r.tail 1, free := r.free - 1 }
  let (a, s') := newAccess .ls i (localView + o) none false .lm .store (slotParts s o bs) s
  if blockedBy s s.team a then
    let (a, s) := countStore a (setRing next s')
    sendAccess a (issue .ls i 64 [] (s.onCore fun c => { c with fills := c.fills ++ [{ ring := k, copy := some a.id, n := 1 }] }))
  else issue .ls i 64 [] (fillSlots s.team.ref k 1 (setRing next (setOwnLm s o bs)))

/-- RPUT (R240): it holds while no slot is free. -/
def execRput (f : LsForm) (s : State) : Host.Outcome State Fault Refusal :=
  .next (ringOp (.rput f) f (fun r s =>
    if r.free = 0 then holdSlot .ls s
    else
      let bs := if f.ty = 7 then vecBytes (s.team.rv f.data) else natBytes 8 (s.team.rs f.data).toNat
      putSlot (.rput f) f.hi3.toNat r bs s) s)

/-- RGET (R241): it holds while no slot is filled; its register is written when it completes (R79). -/
def execRget (f : LsForm) (s : State) : Host.Outcome State Fault Refusal :=
  .next (ringOp (.rget f) f (fun r s =>
    if r.filled = 0 then holdSlot .ls s
    else
      let w : Write := if f.ty = 7 then .v f.data (BitVec.allOnes 64) (vecOfBytes (ownBytes s (r.slot r.head) 256))
        else .s f.data (doubleAt (ownBytes s (r.slot r.head) 8) 0)
      let r := { r with head := r.advance r.head 1, filled := r.filled - 1, free := r.free + 1 }
      let s := setRing r s
      let op := AccOp.rget f.data f.hi3.toNat f.ty.toNat
      let (a, s) := newAccess .ls (.rget f) 0 none false .lm op [] s
      let a := { a with phase := .performed, results := [w] }
      let s := issueLater .ls (.rget f) [] (unspecify op s)
      let s := s.onTeam fun t => { t with vars := t.vars ++ [a] }
      s.later .variableOpComplete { team := a.team, id := a.id }) s)

/-- RFREE (R241): more slots than filled counts raises 0x0018 and changes no counter (R532). -/
def execRfree (f : LsForm) (s : State) : Host.Outcome State Fault Refusal :=
  .next (ringOp (.rfree f) f (fun r s =>
    let n := (f.low.extractLsb' 0 9).toNat + 1
    if r.filled < n then takeTrap .ls (.rfree f) 0x0018 0 s
    else
      let r := { r with head := r.advance r.head n, filled := r.filled - n, free := r.free + n }
      issue .ls (.rfree f) 64 [] (setRing r s)) s)

/-- LDSC (R163, R243). -/
def execLdsc (f : LsForm) (s : State) : Host.Outcome State Fault Refusal :=
  .next (lsOp (.ldsc f) f .read 1 (fun t => [(0, t.ra f.a + lsOff 12 f 1, 0)])
    (fun ps s => loadEff (.ldsc f) f 8 (s.team.ra f.a + lsOff 12 f 1) none false false (.ldsc f.data) (ldscParts s ps) s) s)

end Sys2Proof.Machine
end

