-- ==== Sys2Proof/Machine/Address.lean ====
section
/-! DEFINITION. The AD slot: address and system-register moves, fences, PHASE, LAUNCH and PREF
(spec/07_isa_control_scalar.md R178 to R185, R214 to R221; spec/21_instruction_faults.md R501). -/

namespace Sys2Proof.Machine

/-- An AD operation under a guard, with one result of latency 1 (R104, R115, R214). -/
def adMove (i : Instr) (g : BitVec 3) (w : Team → Write) (s : State) : State :=
  slotOp .ad i (guarded .ad g fun s => issue .ad i 64 [(1, w s.team)] s) s

/-- AMOV (R214). -/
def execAmov (f : RForm) (s : State) : Host.Outcome State Fault Refusal :=
  .next (adMove (.amov f) f.g (fun t => .a (reg4 f.d) (t.rs f.a)) s)

/-- AGET (R214). -/
def execAget (f : RForm) (s : State) : Host.Outcome State Fault Refusal :=
  .next (adMove (.aget f) f.g (fun t => .s f.d (t.ra (reg4 f.a))) s)

/-- AADD (R214). -/
def execAadd (f : RForm) (s : State) : Host.Outcome State Fault Refusal :=
  .next (adMove (.aadd f) f.g (fun t => .a (reg4 f.d) (t.ra (reg4 f.a) + t.rs f.b)) s)

/-- AADDI (R214): the I form carries no guard. -/
def execAaddi (f : IForm) (s : State) : Host.Outcome State Fault Refusal :=
  .next (slotOp .ad (.aaddi f) (fun s =>
    issue .ad (.aaddi f) 64 [(1, .a (reg4 f.d) (s.team.ra (reg4 f.a) + f.simm))] s) s)

/-- DSET (R214). -/
def execDset (f : RForm) (s : State) : Host.Outcome State Fault Refusal :=
  .next (adMove (.dset f) f.g (fun t => .d (reg4 f.d) (t.rs f.a)) s)

/-- DGET (R214). -/
def execDget (f : RForm) (s : State) : Host.Outcome State Fault Refusal :=
  .next (adMove (.dget f) f.g (fun t => .s f.d (t.rd (reg4 f.a))) s)

/-- LEA (R214). -/
def execLea (f : RForm) (s : State) : Host.Outcome State Fault Refusal :=
  .next (adMove (.lea f) f.g (fun t => .s f.d (t.ra (reg4 f.a) + t.rs f.b <<< f.lo3.toNat)) s)

/-! ## System registers (R178 to R185) -/

/-- The number in bits 19:8 of a CSRR or CSRW. -/
def csrNum (f : RForm) : BitVec 12 := f.a ++ f.b

/-- L2SPLIT (R185). -/
def l2split (d : Die) (cluster : Nat) : Double :=
  let x := d.stage cluster
  dbl (d.stagedSteps % 16 * 2 ^ 8 + x.req % 16 * 2 ^ 4 + x.epochs.length % 16)

/-- EGRANT (R98). -/
def Core.egrant (c : Core) : Double := dbl (c.wsum % 2 ^ 20 * 2 ^ 32 + c.grant % 2 ^ 20)

/-- REFCAL (R306): the calendar, whose phase firmware fixes. -/
def refcal (h : Hub) : Double := dbl (h.refreshPhase % 2 ^ 17 * 2 ^ 43 + 0x2580 * 2 ^ 29 + 0x200 * 2 ^ 17 + 0x12c00)

/-- The value of a team-visible system register at the AD issue (R178, R179); a number that R178 does not list has
none. -/
def csrValue (s : State) (num : BitVec 12) : Option Double :=
  let t := s.team
  let here := t.placedAt (t.passed .ad)
  match num.toNat with
  | 0x000 => some t.tsw
  | 0x001 => some t.slr
  | 0x002 => some (dbl ((here.map (·.bpc)).getD t.bpc))
  | 0x003 => some t.tid
  | 0x004 => some t.cid
  | 0x005 => some t.lmg
  | 0x006 => some (((here.map (·.lcnt)).getD t.lcnt).setWidth 64)
  | 0x008 => some (vget t.yls 0 0)
  | 0x009 => some (vget t.yls 1 0)
  | 0x00a => some (vget t.yls 2 0)
  | 0x00b => some (vget t.yls 3 0)
  | 0x00c => some (vget t.nsm 0 0)
  | 0x00d => some (vget t.nsm 1 0)
  | 0x00e => some (vget t.nsm 2 0)
  | 0x00f => some (vget t.nsm 3 0)
  | 0x010 => some t.relcReg
  | 0x011 => some t.ecnt
  | 0x018 => some s.core.egrant
  | 0x019 => some s.core.ewt0
  | 0x01a => some s.core.ewt1
  | 0x01b => some s.core.clkd
  | 0x020 => some (l2split s.die t.cluster)
  | 0x021 => some (refcal s.hub)
  | 0x030 => some (vget t.vwin 0 0)
  | 0x031 => some (vget t.vwin 1 0)
  | 0x032 => some (vget t.vwin 2 0)
  | 0x033 => some (vget t.vwin 3 0)
  | 0x034 => some (vget t.vwin 4 0)
  | 0x035 => some (vget t.vwin 5 0)
  | 0x036 => some (vget t.vwin 6 0)
  | 0x037 => some (vget t.vwin 7 0)
  | _ => none

/-- A team may write the register (R178). -/
def csrWritable (num : BitVec 12) : Bool :=
  num = 0 || (decide (8 ≤ num.toNat) && decide (num.toNat ≤ 15))

/-- The write would put a reserved value into TSW.rm (R180, R501). -/
def csrReserved (num : BitVec 12) (x : Double) : Bool :=
  num = 0 && (field x 2 0 = 0 || decide (4 < field x 2 0))

/-- CSRR (R179): an unlisted number raises 0x0011 (R501). -/
def execCsrr (f : RForm) (s : State) : Host.Outcome State Fault Refusal :=
  .next (slotOp .ad (.csrr f) (fun s =>
    match csrValue s (csrNum f) with
    | none => takeTrap .ad (.csrr f) 0x0011 0 s
    | some x => guarded .ad f.g (fun s => issue .ad (.csrr f) 64 [(1, .s f.d x)] s) s) s)

/-- CSRW (R179): a register that a team may not write, and a reserved value, raise 0x0011 (R501). -/
def execCsrw (f : RForm) (s : State) : Host.Outcome State Fault Refusal :=
  .next (slotOp .ad (.csrw f) (fun s =>
    if !csrWritable (csrNum f) then takeTrap .ad (.csrw f) 0x0011 0 s
    else guarded .ad f.g (fun s =>
      let x := s.team.rs f.d
      if csrReserved (csrNum f) x then takeTrap .ad (.csrw f) 0x0011 0 s
      else issue .ad (.csrw f) 64 [(1, .csr (csrNum f) x)] s) s) s)

/-! ## Fences (R215 to R218, R380) -/

/-- Slot `j` has passed position `p`, or only NOPs stand between. -/
def Team.doneBy (t : Team) (j : Nat) (p : Nat) : Bool :=
  decide (p < vget t.pass j 0) ||
    (t.queue.filter fun x => decide (vget t.pass j 0 ≤ x.pos) && decide (x.pos ≤ p)).all fun x =>
      nth x.words (j - 1) 0 = 0

/-- Every other slot has issued its operations up to the AD slot's position (R215, R216). -/
def Team.othersDone (t : Team) : Bool := [1, 3, 4, 5, 6, 7].all fun j => t.doneBy j (t.passed .ad)

/-- Loads of the ls path up to a position that have not returned (R216). -/
def Team.loadsOut (t : Team) (p : Nat) : Bool :=
  t.vars.any fun a => a.path = .ls && a.op.variable && decide (a.pos ≤ p)

/-- Stores of the ls path up to a position that no cache, memory or LM has yet performed. -/
def Team.storesOut (t : Team) (p : Nat) : Bool :=
  t.vars.any fun a => a.path = .ls && a.wid.isSome && !a.op.isWriteback && decide (a.phase ≠ .performed) && decide (a.pos ≤ p)

/-- What an acquire at a scope makes stale for the acting team's later accesses (R379, R380): copies whose bytes left
before the next reference cycle. -/
def acquireAt (scope : BitVec 3) (s : State) : State :=
  s.onTeam fun t =>
    { t with acqDie := if scope = 0 then t.acqDie else s.now + 1,
             acqPkg := if scope.toNat < 3 then t.acqPkg else s.now + 1 }

/-- The writes that the FENCE waits for have been acknowledged at its scope. -/
def Team.fenced (t : Team) (scope : BitVec 3) : Bool := t.acked (relcField scope) (t.fenceSet.getD [])

/-- A FENCE of a kind that covers stores (R216, R372, R380): it waits for the writes of every path that its field counts as it comes
to its position, and for the team's earlier stores to be performed; then it writes back as a release does, and waits for those
write-backs. -/
def fenceStart (scope : BitVec 3) (s : State) : State :=
  let counted := fun t : Team => { t with fenceSet := some (t.countedWrites (relcField scope)) }
  let s := if s.team.fenceSet.isNone then s.onTeam counted else s
  if s.team.fenceSent || !s.team.fenced scope || s.team.storesOut (s.team.passed .ad) then s
  else (releaseWriteBacks scope s).onTeam fun t => { counted t with fenceSent := true }

/-- A FENCE that has completed: one of a kind that covers stores makes the team's later AMOs and CASs at its scope releases
(R380). -/
def Team.endFence (t : Team) (st : Bool) (scope : BitVec 3) : Team :=
  { t with fenceSet := none, fenceSent := false,
           relScopes := if st && !t.relScopes.contains scope then scope :: t.relScopes else t.relScopes }

/-- FENCE (R216, R380): it holds until its condition is met (R71). -/
def execFence (f : RForm) (s : State) : Host.Outcome State Fault Refusal :=
  .next (slotOp .ad (.fence f) (guardedHold .ad f.g fun s =>
    let st := f.hi2 ≠ 1
    let ld := f.hi2 ≠ 2
    if !s.team.othersDone then holdSlot .ad s
    else
      let s := if st then fenceStart f.lo3 s else s
      if (st && !(s.team.fenceSent && s.team.fenced f.lo3)) || (ld && s.team.loadsOut (s.team.passed .ad)) then holdSlot .ad s
      else
        let s := if ld then acquireAt f.lo3 s else s
        issue .ad (.fence f) 64 [] (s.onTeam fun t => t.endFence st f.lo3)) s)

/-- The core's sweep is paused at a chunk boundary (R338). -/
def Sweep.isPaused (w : Sweep) : Bool := match w.phase with | .paused _ => true | _ => false

/-- Every sweep operation of the core from before the team's position has completed, or the sweep is paused at a chunk
boundary (R196, R217, R336). -/
def sweepStill (c : Core) (r : TeamRef) (p : Nat) : Bool :=
  c.sweep.isPaused || !(c.copies.any fun x => x.kind.isSweep && (x.team ≠ r || decide (x.pos < p)))

/-- The team's copies from before a position have completed (R196, R217). -/
def copiesDone (c : Core) (r : TeamRef) (p : Nat) : Bool :=
  !(c.copies.any fun x => !x.kind.isSweep && x.team = r && decide (x.pos < p))

/-- An MSTZ's write. -/
def AccOp.isMstz : AccOp → Bool
  | .mstz _ => true
  | _ => false

/-- The tile fetch of the team's MX operations from before a position has ended, and MSTZ has finished writing
(R217). -/
def fetchesDone (c : Core) (t : Team) (p : Nat) : Bool :=
  !(c.mxq.any fun x => x.team = t.ref && decide (x.pos < p) && !x.arrived) &&
    !(t.vars.any fun a => a.op.isMstz && decide (a.pos < p))

/-- The team's ls accesses have been performed at .core (R217). -/
def lsDone (t : Team) (p : Nat) : Bool := !t.loadsOut p && !(t.writes.any fun w => w.path = .ls && w.core)

/-- XFENCE (R217): two paths that it names are never both ls, so that it writes the core's L1D lines back; naming ls, it makes
the core's copies stale (R371, R379). -/
def execXfence (f : RForm) (s : State) : Host.Outcome State Fault Refusal :=
  .next (slotOp .ad (.xfence f) (guardedHold .ad f.g fun s =>
    let t := s.team
    let p := t.passed .ad
    let on := fun i => f.b.getLsbD i
    let ready := t.othersDone && (!on 0 || lsDone t p) && (!on 1 || fetchesDone s.core t p) &&
      (!on 2 || copiesDone s.core t.ref p) && (!on 3 || sweepStill s.core t.ref p)
    if !ready then holdSlot .ad s
    else
      let s := sendL1 (fun _ => true) s
      issue .ad (.xfence f) 64 [] (if on 0 then acquireAt 2 s else s)) s)

/-- RELW (R218). -/
def execRelw (f : RForm) (s : State) : Host.Outcome State Fault Refusal :=
  .next (slotOp .ad (.relw f) (guardedHold .ad f.g fun s =>
    if s.team.othersDone && decide (s.team.relc (relcField f.lo3) = 0) then issue .ad (.relw f) 64 [] s
    else holdSlot .ad s) s)

/-! ## PHASE (R185, R219) -/

/-- The share that a cluster is granted: at most 8 steps for all the resident clusters of the die. -/
def grantedSteps (d : Die) (cluster req : Nat) : Nat :=
  min req (8 - ((d.staging.filter fun x => x.cluster ≠ cluster).foldl (fun n x => n + x.epochs.length) 0))

/-- The lines of the L2 that lie in the steps from `lo` up to `hi` (R219). -/
def stepLines (d : Die) (lo hi : Nat) : List Line :=
  d.l2.filter fun l => decide (lo ≤ Config.l2Step l.ipa % 8) && decide (Config.l2Step l.ipa % 8 < hi)

/-- A share of a die's staging takes new steps: those that are added hold unspecified bytes, those that are removed lose
theirs (R219). -/
def setShare (d cluster req n : Nat) (s : State) : State :=
  let old := (s.dieAt d).stage cluster
  let have_ := old.epochs.length
  let lo := stagingKey cluster (n * 2 ^ 22)
  let hi := stagingKey cluster (2 ^ 25)
  let eps := old.epochs.take n ++ (List.range (n - have_)).map (s.free + ·)
  let st : Stage := { cluster := cluster, req := req, epochs := eps, parked := 0 }
  let s : State := { s with free := s.free + (n - have_), mem := s.mem.filter fun x => !(decide (lo ≤ x.1) && decide (x.1 < hi)) }
  s.modDie d fun x => { x with staging := st :: x.staging.filter fun y => y.cluster ≠ cluster,
                               stageSide := x.stageSide.filter fun y => !(decide (lo ≤ y.1) && decide (y.1 < hi)) }

/-- The steps that staging takes from the cache are written back and evicted (R219), but for pinned lines, and every slice is
left no more lines than it then holds. Which lines a step holds is log entry 7. -/
def drainSteps (r : TeamRef) (d before : Nat) (s : State) : State :=
  let now := (s.dieAt d).stagedSteps
  let ls := (stepLines (s.dieAt d) (8 - now) (8 - before)).filter fun l => !l.leaving && !pinnedAt s d l.ipa
  let s := ls.foldl (fun s l => evictL2 (some (r, .ls)) d l s) s
  (s.dieAt d).l2.foldl (fun s l => roomL2 (some (r, .ls)) d l.ipa s) s

/-- A PHASE of the acting team reaches the L2 (R219). -/
def phaseApply (req : Nat) (s : State) : State :=
  let d := s.team.ref.die
  let c := s.team.cluster
  let before := (s.dieAt d).stagedSteps
  drainSteps s.team.ref d before (setShare d c req (grantedSteps (s.dieAt d) c req) s)

/-- Lines of the die's L2 are still on their way out, or stay over what a slice holds. -/
def draining (d : Die) : Bool := d.l2.any fun l => l.leaving || decide (d.sliceLines < (d.sliceSet l.ipa).length)

/-- PHASE (R219): its bundle completes when the drain has ended, at most 8,192 core cycles for each step moved but for what
the home makes wait. -/
def execPhase (f : RForm) (s : State) : Host.Outcome State Fault Refusal :=
  .next (slotOp .ad (.phase f) (guardedHold .ad f.g fun s =>
    match s.team.phaseEnd with
    | some t =>
      if s.now < t || draining s.die then holdSlot .ad s
      else issue .ad (.phase f) 64 [] (s.onTeam fun t => { t with phaseEnd := none })
    | none =>
      let old := (s.die.stage s.team.cluster).epochs.length
      let new := grantedSteps s.die s.team.cluster f.b.toNat
      let moved := (new - old) + (old - new)
      let s := phaseApply f.b.toNat s
      if moved = 0 then issue .ad (.phase f) 64 [] s
      else
        let drain := Config.latency s.free % (8192 * moved + 1) * s.core.divisor .core
        holdSlot .ad { s with free := s.free + 1, team := { s.team with phaseEnd := some (s.now + drain) } }) s)

/-! ## LAUNCH and PREF -/

/-- The addresses that LAUNCH names: the queue descriptor's tail, claimed by an atomic, and the packet image (R220,
R389). -/
def launchParts (s : State) (desc src : Nat) : Except (Nat × Nat) (List Part) :=
  match checkAddr s s.team .atomic desc 8 with
  | .error c => .error (c, desc)
  | .ok d =>
    match checkAddr s s.team .read src 1, checkAddr s s.team .read (src + 127) 1 with
    | .ok a, .ok _ => .ok [{ ipa := d, size := 8, lane := 0, data := 0, va := desc },
        { ipa := a, size := 128, lane := 1, data := 0, va := src }]
    | .error c, _ => .error (c, src)
    | _, .error c => .error (c, src + 127)

/-- LAUNCH (R220): variable-latency (R79); it claims its slot and writes the packet at its HOME_REQUEST. -/
def execLaunch (f : RForm) (s : State) : Host.Outcome State Fault Refusal :=
  .next (slotOp .ad (.launch f) (guarded .ad f.g fun s =>
    let desc := (s.team.rs f.a).toNat
    let src := (s.team.rs f.b).toNat
    match launchParts s desc src with
    | .error (c, va) => takeTrap .ad (.launch f) c va s
    | .ok ps =>
      let (a, s) := newAccess .ad (.launch f) desc none false .home (.launch f.d desc src) ps s
      let (a, s) := countStore a s
      sendAccess a (issueLater .ad (.launch f) [] s)) s)

/-- PREF (R221): a hint, which changes no register and no value that any path sees, and raises no fault. -/
def execPref (f : RForm) (s : State) : Host.Outcome State Fault Refusal :=
  .next (slotOp .ad (.pref f) (guarded .ad f.g fun s => issue .ad (.pref f) 64 [] s) s)

end Sys2Proof.Machine
end

