-- ==== Sys2Proof/Machine/Vector.lean ====
section
/-! DEFINITION. The VX slot (spec/08_isa_memory_vector.md R244 to R259, spec/03_core_timing.md R104): every operation
reads its sources at issue and writes its lanes when it lands; none traps, but for a reserved field value. -/

namespace Sys2Proof.Machine

/-! ## Issue -/

/-- The VX datapath belongs to a TIDE or TIDEQ (R37, R338): from its first step until it completes, but for a
pause. -/
def Sweep.holdsVx (w : Sweep) : Bool := match w.phase with | .idle | .paused _ => false | _ => true

/-- A VX operation: it holds while a tide runs (R71), and otherwise issues whatever its mask holds. -/
def vxOp (i : Instr) (width : Nat) (ws : Team → List (Nat × Write)) (s : State) : State :=
  if s.core.sweep.holdsVx then holdSlot .vx s
  else slotOp .vx i (fun s => issue .vx i width (ws s.team) s) s

/-- Lane `i` of a v-register. -/
def lane (v : VReg) (i : Nat) : Word32 := vget v i 0

/-- A vector register from what each lane holds. -/
def ofLanes (f : Nat → Nat) : VReg := Vector.ofFn fun i => BitVec.ofNat 32 (f i.val)

/-- The element views of fn<4:3> (R245). -/
inductive View where
  | vi32 | vn32 | vf32 | vi16
  deriving DecidableEq, Repr

/-- vt. -/
def viewOf (vt : BitVec 2) : View :=
  match vt.toNat with
  | 0 => .vi32
  | 1 => .vn32
  | 2 => .vf32
  | _ => .vi16

/-- The element width of a view in bits. -/
def View.width : View → Nat
  | .vi16 => 16
  | _ => 32

/-- Whether a view reads its integers signed (R246). -/
def View.signed : View → Bool
  | .vn32 => false
  | _ => true

/-- A function of elements applied to each element of a lane (R245): once, or to each half. -/
def View.each2 (v : View) (op : Nat → Nat → Nat) (x y : Nat) : Nat :=
  match v with
  | .vi16 => op (x % 2 ^ 16) (y % 2 ^ 16) % 2 ^ 16 + 2 ^ 16 * (op (x / 2 ^ 16) (y / 2 ^ 16) % 2 ^ 16)
  | _ => op x y % 2 ^ 32

/-- An exact integer result of an element: saturated to the view's format, or wrapped (R246). -/
def View.fit (v : View) (sat : Bool) (t : Int) : Nat :=
  let w := v.width
  ((if sat then clamp (intLo v.signed w) (intHi v.signed w) t else t) % 2 ^ w).toNat

/-- The integer that an element pattern holds in a view. -/
def View.int (v : View) (x : Nat) : Int := readInt v.signed v.width x

/-- The v-register that two sources give lane by lane. -/
def lanes2 (op : Nat → Nat → Nat) (a b : VReg) : VReg := ofLanes fun i => op (lane a i).toNat (lane b i).toNat

/-- A masked write of the destination register. -/
def vWrite (f : RForm) (t : Team) (x : VReg) : Write := .v f.d (t.rm f.g) x

/-- A lane operation on two sources. -/
def vxBin (i : Instr) (f : RForm) (l : Nat) (op : Team → Nat → Nat → Nat) (s : State) : State :=
  vxOp i (viewOf f.hi2).width (fun t => [(l, vWrite f t (lanes2 (op t) (t.rv f.a) (t.rv f.b)))]) s

/-- An arithmetic operation in the view that vt names (R246). -/
def vxArith (i : Instr) (f : RForm) (lInt lFlt : Nat) (int : Int → Int → Int) (flt : Rnd → Nat → Nat → Nat) (s : State) :
    State :=
  match viewOf f.hi2 with
  | .vf32 => vxBin i f lFlt (fun t => flt (t.mode f.lo3.toNat)) s
  | v => vxBin i f lInt (fun _ => v.each2 fun x y => v.fit (f.fn.getLsbD 0) (int (v.int x) (v.int y))) s

/-- VADD (R246). -/
def execVadd (f : RForm) (s : State) : Host.Outcome State Fault Refusal :=
  .next (vxArith (.vadd f) f 2 (lat s 5 4) (· + ·) f32.add s)

/-- VSUB (R246). -/
def execVsub (f : RForm) (s : State) : Host.Outcome State Fault Refusal :=
  .next (vxArith (.vsub f) f 2 (lat s 5 4) (· - ·) f32.sub s)

/-- VMUL (R246). -/
def execVmul (f : RForm) (s : State) : Host.Outcome State Fault Refusal :=
  .next (vxArith (.vmul f) f 3 (lat s 5 4) (· * ·) f32.mul s)

/-- VFMA (R246): one rounding. -/
def execVfma (f : RForm) (s : State) : Host.Outcome State Fault Refusal :=
  .next (vxOp (.vfma f) 32 (fun t =>
    [(lat s 5 4, vWrite f t (ofLanes fun i => f32.fma (t.mode f.lo3.toNat) (lane (t.rv f.a) i).toNat
      (lane (t.rv f.b) i).toNat (lane (t.rv f.d) i).toNat))]) s)

/-- The smaller or larger of two elements in a view (R153, R246). -/
def View.pick (v : View) (int : Int → Int → Int) (flt : Nat → Nat → Nat) (x y : Nat) : Nat :=
  match v with
  | .vf32 => flt x y
  | v => (int (v.int x) (v.int y) % 2 ^ v.width).toNat

/-- VMIN (R246). -/
def execVmin (f : RForm) (s : State) : Host.Outcome State Fault Refusal :=
  .next (vxBin (.vmin f) f 2 (fun _ => (viewOf f.hi2).each2 ((viewOf f.hi2).pick min f32.min)) s)

/-- VMAX (R246). -/
def execVmax (f : RForm) (s : State) : Host.Outcome State Fault Refusal :=
  .next (vxBin (.vmax f) f 2 (fun _ => (viewOf f.hi2).each2 ((viewOf f.hi2).pick max f32.max)) s)

/-- The magnitude of an element (R246): a natural view returns its input, and the f32 form clears bit 31 (R152). -/
def View.abs (v : View) (sat : Bool) (x : Nat) : Nat :=
  match v with
  | .vf32 => x % 2 ^ 31
  | .vn32 => x
  | v => v.fit sat (v.int x).natAbs

/-- VABS (R246). -/
def execVabs (f : RForm) (s : State) : Host.Outcome State Fault Refusal :=
  .next (vxBin (.vabs f) f 2 (fun _ x _ => (viewOf f.hi2).each2 (fun x _ => (viewOf f.hi2).abs (f.fn.getLsbD 0) x) x 0) s)

/-- VAND (R247). -/
def execVand (f : RForm) (s : State) : Host.Outcome State Fault Refusal :=
  .next (vxBin (.vand f) f 2 (fun _ => (· &&& ·)) s)

/-- VOR (R247). -/
def execVor (f : RForm) (s : State) : Host.Outcome State Fault Refusal :=
  .next (vxBin (.vor f) f 2 (fun _ => (· ||| ·)) s)

/-- VXOR (R247). -/
def execVxor (f : RForm) (s : State) : Host.Outcome State Fault Refusal :=
  .next (vxBin (.vxor f) f 2 (fun _ => (· ^^^ ·)) s)

/-- A shift of each element by the matching element modulo its width (R248). -/
def vxShift (i : Instr) (f : RForm) (op : Nat → Nat → Nat → Nat) (s : State) : State :=
  let w := (viewOf f.hi2).width
  vxBin i f 2 (fun _ => (viewOf f.hi2).each2 fun x y => op w x (y % w)) s

/-- VSHL (R248). -/
def execVshl (f : RForm) (s : State) : Host.Outcome State Fault Refusal :=
  .next (vxShift (.vshl f) f (fun _ x n => x * 2 ^ n) s)

/-- VSHR (R248). -/
def execVshr (f : RForm) (s : State) : Host.Outcome State Fault Refusal :=
  .next (vxShift (.vshr f) f (fun _ x n => x / 2 ^ n) s)

/-- VSHRA (R248): the top bit enters in every integer view. -/
def execVshra (f : RForm) (s : State) : Host.Outcome State Fault Refusal :=
  .next (vxShift (.vshra f) f (fun w x n => (readInt true w x / 2 ^ n % 2 ^ w).toNat) s)

/-! ## Compares, selects and masks (R249, R250) -/

/-- A mask whose bit `i` is given by a test. -/
def maskOf (p : Nat → Bool) : Double :=
  dbl ((List.range 64).foldl (fun n i => if p i then n + 2 ^ i else n) 0)

/-- VCMP (R249): inactive lanes keep their bits. -/
def execVcmp (f : RForm) (s : State) : Host.Outcome State Fault Refusal :=
  let c := fun x y : Nat => if f.hi2 = 2 then fcond f32 f.cond x y else icond f.cond 32 x y
  .next (vxOp (.vcmp f) 32 (fun t =>
    [(2, .m f.pd (t.rm f.g) (maskOf fun i => c (lane (t.rv f.a) i).toNat (lane (t.rv f.b) i).toNat))]) s)

/-- VSEL (R249): the mask field is the selector, and every lane is written. -/
def execVsel (f : RForm) (s : State) : Host.Outcome State Fault Refusal :=
  .next (vxOp (.vsel f) 32 (fun t =>
    [(2, .v f.d (BitVec.allOnes 64) (mergeLanes (t.rm f.g) (t.rv f.a) (t.rv f.b)))]) s)

/-- An operation on whole masks (R250). -/
def vxMask (i : Instr) (f : RForm) (op : Double → Double → Double) (s : State) : State :=
  vxOp i 64 (fun t => [(2, .m (reg3 f.d) (BitVec.allOnes 64) (op (t.rm (reg3 f.a)) (t.rm (reg3 f.b))))]) s

/-- MAND (R250). -/
def execMand (f : RForm) (s : State) : Host.Outcome State Fault Refusal := .next (vxMask (.mand f) f (· &&& ·) s)

/-- MOR (R250). -/
def execMor (f : RForm) (s : State) : Host.Outcome State Fault Refusal := .next (vxMask (.mor f) f (· ||| ·) s)

/-- MXOR (R250). -/
def execMxor (f : RForm) (s : State) : Host.Outcome State Fault Refusal := .next (vxMask (.mxor f) f (· ^^^ ·) s)

/-- MNOT (R250). -/
def execMnot (f : RForm) (s : State) : Host.Outcome State Fault Refusal := .next (vxMask (.mnot f) f (fun x _ => ~~~x) s)

/-- MPOP (R250). -/
def execMpop (f : RForm) (s : State) : Host.Outcome State Fault Refusal :=
  .next (vxOp (.mpop f) 64 (fun t => [(2, .s f.d (dbl (popCount (t.rm (reg3 f.a)))))]) s)

/-- The lowest set bit of a mask, or 64 (R121). -/
def firstBit (m : Double) : Nat := ((List.range 64).find? fun i => m.getLsbD i).getD 64

/-- MFIRST (R250). -/
def execMfirst (f : RForm) (s : State) : Host.Outcome State Fault Refusal :=
  .next (vxOp (.mfirst f) 64 (fun t => [(2, .s f.d (dbl (firstBit (t.rm (reg3 f.a)))))]) s)

/-! ## Conversions and block packing (R251, R252) -/

/-- A vector conversion type (R127). -/
def vcvtType (c : BitVec 3) : CvtType :=
  match c.toNat with
  | 0 => .int true 32
  | 1 => .int false 32
  | 2 => .flt f32
  | 3 => .flt bf16
  | 4 => .flt f16
  | 5 => .int true 16
  | _ => .int true 8

/-- VCVT (R251): destination type in b<5:3>, source type in b<2:0>; an integer result is sign-extended to its lane. -/
def execVcvt (f : RForm) (s : State) : Host.Outcome State Fault Refusal :=
  let dst := vcvtType (f.b.extractLsb' 3 3)
  let src := vcvtType (f.b.extractLsb' 0 3)
  .next (vxOp (.vcvt f) 32 (fun t => [(3, vWrite f t (ofLanes fun i =>
    (convert (t.mode f.lo3.toNat) src dst (lane (t.rv f.a) i).toNat % 2 ^ 32).toNat))]) s)

/-- The f32 patterns of a v-register's lanes, in order. -/
def lanesOf (v : VReg) : List Nat := v.toList.map (·.toNat)

/-- VPACK (R157, R159, R252): its two destinations land together. -/
def execVpack (f : RForm) (s : State) : Host.Outcome State Fault Refusal :=
  .next (vxOp (.vpack f) 32 (fun t =>
    let m := bfpWidth f.lo3.toNat
    let (e0, q0) := bfpPack m ((lanesOf (t.rv f.a)).take 32)
    let (e1, q1) := bfpPack m ((lanesOf (t.rv f.a)).drop 32)
    let bytes := natBytes (4 * m) (bfpBits m q0) ++ natBytes (4 * m) (bfpBits m q1)
    [(3, .v f.d (BitVec.allOnes 64) (vecOfBytes bytes)), (3, .s f.b (dbl (e1 * 2 ^ 8 + e0)))]) s)

/-- Lane `i` of a packed register (R158, R159). -/
def unpackLane (m : Nat) (bytes : List Byte) (es : Double) (i : Nat) : Nat :=
  let blk := i / 32
  bfpValue m (field es (8 * blk + 7) (8 * blk)) (bfpMant m (numAt bytes (4 * m * blk) (4 * m)) (i % 32))

/-- VUNPK (R158, R252). -/
def execVunpk (f : RForm) (s : State) : Host.Outcome State Fault Refusal :=
  .next (vxOp (.vunpk f) 32 (fun t =>
    let bytes := vecBytes (t.rv f.a)
    [(3, .v f.d (BitVec.allOnes 64) (ofLanes (unpackLane (bfpWidth f.lo3.toNat) bytes (t.rs f.b))))]) s)

/-! ## Reductions and scans (R253, R254) -/

/-- A reduction of two elements in a view. -/
def View.reduce (v : View) (mode : Rnd) (op : Nat) (x y : Nat) : Nat :=
  match op with
  | 0 => (match v with
    | .vf32 => f32.add mode x y
    | v => v.fit false (v.int x + v.int y))
  | 1 => v.pick min f32.min x y
  | 2 => v.pick max f32.max x y
  | 3 => x &&& y
  | 4 => x ||| y
  | _ => x ^^^ y

/-- The result when no lane is active (R253). -/
def View.identity (v : View) (op : Nat) : Nat :=
  match op with
  | 1 => (match v with
    | .vf32 => f32.inf false
    | v => (intHi v.signed v.width).toNat)
  | 2 => (match v with
    | .vf32 => f32.inf true
    | v => (intLo v.signed v.width % 2 ^ v.width).toNat)
  | 3 => 2 ^ v.width - 1
  | _ => 0

/-- op with an empty value: op(empty, x) = x (R253). -/
def opEmpty (op : Nat → Nat → Nat) : Option Nat → Option Nat → Option Nat
  | none, y => y
  | x, none => x
  | some x, some y => some (op x y)

/-- One level of the tree (R253). -/
def pairUp (op : Nat → Nat → Nat) : List (Option Nat) → List (Option Nat)
  | x :: y :: t => opEmpty op x y :: pairUp op t
  | t => t

/-- The tree over 2^n elements. -/
def treeOf (op : Nat → Nat → Nat) : Nat → List (Option Nat) → Option Nat
  | 0, l => (l.head?).join
  | n + 1, l => treeOf op n (pairUp op l)

/-- The elements of a register in a view, empty where the lane is inactive. -/
def View.elements (v : View) (mask : Double) (a : VReg) : List (Option Nat) :=
  (List.range 64).flatMap fun i =>
    let x := (lane a i).toNat
    let on := mask.getLsbD i
    match v with
    | .vi16 => if on then [some (x % 2 ^ 16), some (x / 2 ^ 16)] else [none, none]
    | _ => if on then [some x] else [none]

/-- VRED (R253): every lane of v(d) is written. -/
def execVred (f : RForm) (s : State) : Host.Outcome State Fault Refusal :=
  .next (vxOp (.vred f) (viewOf f.hi2).width (fun t =>
    let v := viewOf f.hi2
    let op := v.reduce (t.mode 0) f.lo3.toNat
    let r := (treeOf op (if v = .vi16 then 7 else 6) (v.elements (t.rm f.g) (t.rv f.a))).getD (v.identity f.lo3.toNat)
    [(6, .v f.d (BitVec.allOnes 64) (ofLanes fun i => if i = 0 then r else 0))]) s)

/-- The running values of an inclusive scan (R254). -/
def scanFrom (op : Nat → Nat → Nat) (acc : Option Nat) : List (Option Nat) → List Nat
  | [] => []
  | x :: t =>
    let acc := match x with
      | none => acc
      | some _ => opEmpty op acc x
    acc.getD 0 :: scanFrom op acc t

/-- VSCAN (R254): inactive lanes keep their values. -/
def execVscan (f : RForm) (s : State) : Host.Outcome State Fault Refusal :=
  .next (vxOp (.vscan f) (viewOf f.hi2).width (fun t =>
    let v := viewOf f.hi2
    let r := scanFrom (v.reduce (t.mode 0) f.lo3.toNat) none (v.elements (t.rm f.g) (t.rv f.a))
    [(8, vWrite f t (ofLanes fun i =>
      if v = .vi16 then nth r (2 * i) 0 + 2 ^ 16 * nth r (2 * i + 1) 0 else nth r i 0))]) s)

/-! ## Permutes and lane moves (R255, R256) -/

/-- VPERM (R255): the source lanes are read whatever the mask holds. -/
def execVperm (f : RForm) (s : State) : Host.Outcome State Fault Refusal :=
  .next (vxOp (.vperm f) 32 (fun t =>
    [(3, vWrite f t (ofLanes fun i => (lane (t.rv f.a) ((lane (t.rv f.b) i).toNat % 64)).toNat))]) s)

/-- Lane `i` of a VSHUF pattern (R255). -/
def shufLane (p : Nat) (a b : VReg) (i : Nat) : Nat :=
  let x := fun k => (lane a k).toNat
  let y := fun k => (lane b k).toNat
  if p = 0 then (if i % 2 = 0 then x (i / 2) else y (i / 2))
  else if p = 1 then (if i % 2 = 0 then x (32 + i / 2) else y (32 + i / 2))
  else if p = 2 then (if i < 32 then x (2 * i) else y (2 * i - 64))
  else if p = 3 then (if i < 32 then x (2 * i + 1) else y (2 * i - 63))
  else if p = 4 then x (63 - i)
  else if p < 16 then x (i ^^^ 2 ^ (p - 8))
  else if p < 24 then (if 2 ^ (p - 16) ≤ i then x (i - 2 ^ (p - 16)) else y (64 - 2 ^ (p - 16) + i))
  else if p = 24 then x (8 * (i % 8) + i / 8)
  else x i / 2 ^ 16 + 2 ^ 16 * (x i % 2 ^ 16)

/-- VSHUF (R255). -/
def execVshuf (f : RForm) (s : State) : Host.Outcome State Fault Refusal :=
  .next (vxOp (.vshuf f) 32 (fun t =>
    [(3, vWrite f t (ofLanes (shufLane f.fn.toNat (t.rv f.a) (t.rv f.b))))]) s)

/-- VBCAST (R256). -/
def execVbcast (f : RForm) (s : State) : Host.Outcome State Fault Refusal :=
  .next (vxOp (.vbcast f) 32 (fun t => [(2, vWrite f t (ofLanes fun _ => (t.rs f.a).toNat))]) s)

/-- VEXT (R256): sign-extended for i32. -/
def execVext (f : RForm) (s : State) : Host.Outcome State Fault Refusal :=
  .next (vxOp (.vext f) 32 (fun t =>
    let x := lane (t.rv f.a) f.b.toNat
    [(2, .s f.d (if f.hi2 = 0 then x.signExtend 64 else x.setWidth 64))]) s)

/-- VINS (R256): the other lanes are unchanged. -/
def execVins (f : RForm) (s : State) : Host.Outcome State Fault Refusal :=
  .next (vxOp (.vins f) 32 (fun t =>
    [(2, .v f.d (dbl (2 ^ f.b.toNat)) (ofLanes fun _ => (t.rs f.a).toNat))]) s)

/-- VIOTA (R256). -/
def execViota (f : RForm) (s : State) : Host.Outcome State Fault Refusal :=
  .next (vxOp (.viota f) 32 (fun t => [(2, vWrite f t (ofLanes fun i => i))]) s)

/-- VHOLD (R94, R259). -/
def execVhold (f : RForm) (s : State) : Host.Outcome State Fault Refusal :=
  .next (vxOp (.vhold f) 32 (fun t => [(2, .latch (t.rv f.a))]) s)

/-! ## Dot products (R257) -/

/-- The elements of a lane, low first: `n` of `w` bits. -/
def subElems (w n x : Nat) : List Nat := (List.range n).map fun i => x / 2 ^ (w * i) % 2 ^ w

/-- The exact sum of products of integer sub-elements. -/
def dotInt (signed : Bool) (w n x y : Nat) : Int :=
  (List.zipWith (fun a b => readInt signed w a * readInt signed w b) (subElems w n x) (subElems w n y)).foldl (· + ·) 0

/-- The sum of an f32 and two products of bf16 patterns, exact before its one rounding (R257): with an infinity or a
NaN among them, R151 and R152 give the result. -/
def dotBf16 (mode : Rnd) (z x y : Nat) : Nat :=
  let wide := fun p : Nat => p * 2 ^ 16
  let a0 := wide (x % 2 ^ 16)
  let b0 := wide (y % 2 ^ 16)
  let a1 := wide (x / 2 ^ 16)
  let b1 := wide (y / 2 ^ 16)
  match f32.unpack a0, f32.unpack b0, f32.unpack a1, f32.unpack b1, f32.unpack z with
  | .fin s m e, .fin t n e', .fin u k g, .fin v l g', .fin w q h =>
    let (p, ep) := addExact (sgn (s != t) (m * n)) (e + e') (sgn (u != v) (k * l)) (g + g')
    let (r, er) := addExact p ep (sgn w q) h
    f32.roundInt mode (if (s != t) = (u != v) then zeroSign mode w (s != t) else decide (mode = .dn)) r er
  | _, _, _, _, _ =>
    -- products of finite factors cannot overflow an exact sum, so each counts as a zero of its sign beside an infinity
    let prod := fun c d : Nat =>
      match f32.unpack c, f32.unpack d with
      | .fin s _ _, .fin t _ _ => f32.zero (s != t)
      | _, _ => f32.mul .ne c d
    let term := match f32.unpack z with
      | .fin s _ _ => f32.zero s
      | _ => z
    f32.add .ne (f32.add .ne (prod a0 b0) (prod a1 b1)) term

/-- The value that a lane of VDOT receives (R257). -/
def dotLane (f : RForm) (mode : Rnd) (z x y : Nat) : Nat :=
  match f.hi2.toNat with
  | 0 => ((readInt true 32 z + dotInt true 8 4 x y) % 2 ^ 32).toNat
  | 1 => ((readInt false 32 z + dotInt false 8 4 x y) % 2 ^ 32).toNat
  | 2 => dotBf16 mode z x y
  | _ => ((readInt true 32 z + dotInt true 16 2 x y) % 2 ^ 32).toNat

/-- VDOT (R257). -/
def execVdot (f : RForm) (s : State) : Host.Outcome State Fault Refusal :=
  .next (vxOp (.vdot f) 32 (fun t => [(lat s 7 6, vWrite f t (ofLanes fun i =>
    dotLane f (t.mode f.lo3.toNat) (lane (t.rv f.d) i).toNat (lane (t.rv f.a) i).toNat (lane (t.rv f.b) i).toNat))]) s)

/-! ## Approximations (R258), each the exact value rounded once to nearest even -/

/-- VRCP of a pattern. -/
def rcpBits (x : Nat) : Nat := f32.div .ne 0x3f800000 x

/-- VRSQ of a pattern: with m × 2^(2h) for the input, the root of 2^120 / m holds more bits than the format. -/
def rsqBits (x : Nat) : Nat :=
  match f32.unpack x with
  | .nan => f32.nan
  | .inf neg => if neg then f32.nan else 0
  | .fin neg m e =>
    if m = 0 then f32.inf neg
    else if neg then f32.nan
    else
      let (m, e) := if e % 2 = 0 then (m, e) else (2 * m, e - 1)
      let r := isqrt (2 ^ 120 / m)
      f32.round .ne false (2 * r + (if r * r * m = 2 ^ 120 then 0 else 1)) (-e / 2 - 61)

/-- 2^f × 2^192 rounded down, for f the fraction whose bits below the point are given: `c` is 2^(2^-i) × 2^192 for the
bit at hand (log entry 15). -/
def exp2Bits (c acc : Nat) : List Bool → Nat
  | [] => acc
  | b :: t => exp2Bits (isqrt (c * 2 ^ 192)) (if b then acc * c / 2 ^ 192 else acc) t

/-- VEXP2 of a pattern: an input of magnitude below 2^-30 gives 1, every other one 2^n × 2^f with 53 bits of f. -/
def exp2Of (x : Nat) : Nat :=
  match f32.unpack x with
  | .nan => f32.nan
  | .inf neg => if neg then 0 else f32.inf false
  | .fin neg m e =>
    if m = 0 ∨ e + m.log2 < -30 then 0x3f800000
    else if 8 ≤ e + m.log2 then (if neg then 0 else f32.inf false)
    else
      let k : Int := sgn neg (if -53 ≤ e then m * 2 ^ (e + 53).toNat else m / 2 ^ (-53 - e).toNat)
      let n := k / 2 ^ 53
      let fr := (k % 2 ^ 53).toNat
      let bits := (List.range 53).map fun i => fr.testBit (52 - i)
      let v := exp2Bits (isqrt (2 * 2 ^ 384)) (2 ^ 192) bits
      f32.round .ne false (2 * v + (if fr = 0 then 0 else 1)) (n - 193)

/-- The bits of log2 of a value in [1, 2) held with 256 bits below the point, `k` of them after `acc`. -/
def log2Bits : Nat → Nat → Nat → Nat
  | 0, _, acc => acc
  | k + 1, y, acc =>
    let y := y * y / 2 ^ 256
    if 2 ^ 257 ≤ y then log2Bits k (y / 2) (2 * acc + 1) else log2Bits k y (2 * acc)

/-- VLOG2 of a pattern: of a power of two it is exact, and otherwise 110 bits below the point fix the rounding
(log entry 15). -/
def log2Of (x : Nat) : Nat :=
  match f32.unpack x with
  | .nan => f32.nan
  | .inf neg => if neg then f32.nan else f32.inf false
  | .fin neg m e =>
    if m = 0 then f32.inf true
    else if neg then f32.nan
    else
      let n : Int := e + m.log2
      if m = 2 ^ m.log2 then f32.roundInt .ne false n 0
      else
        let l := log2Bits 110 (m * 2 ^ (256 - m.log2)) 0
        f32.roundInt .ne false (2 * (n * 2 ^ 110 + l) + 1) (-111)

/-- An operation of one source on f32 lanes. -/
def vxApprox (i : Instr) (f : RForm) (op : Nat → Nat) (s : State) : State :=
  vxOp i 32 (fun t => [(8, vWrite f t (ofLanes fun i => op (lane (t.rv f.a) i).toNat))]) s

/-- VRCP (R258). -/
def execVrcp (f : RForm) (s : State) : Host.Outcome State Fault Refusal := .next (vxApprox (.vrcp f) f rcpBits s)

/-- VRSQ (R258). -/
def execVrsq (f : RForm) (s : State) : Host.Outcome State Fault Refusal := .next (vxApprox (.vrsq f) f rsqBits s)

/-- VEXP2 (R258). -/
def execVexp2 (f : RForm) (s : State) : Host.Outcome State Fault Refusal := .next (vxApprox (.vexp2 f) f exp2Of s)

/-- VLOG2 (R258). -/
def execVlog2 (f : RForm) (s : State) : Host.Outcome State Fault Refusal := .next (vxApprox (.vlog2 f) f log2Of s)

end Sys2Proof.Machine
end

