-- ==== Sys2Proof/Machine/Matrix.lean ====
section
/-! DEFINITION. The MX slot and the matrix array: the accumulator memory and its interlock, panels and the tile fetch
unit, beats, the B latch and pins (spec/09_isa_matrix_rotation.md R260 to R273, spec/06_numbers.md R166, R167;
spec/21_instruction_faults.md R507, spec/22_memory_engine_faults.md R527, R528). -/

namespace Sys2Proof.Machine

/-! ## Formats (R123, R263) -/

/-- K. -/
def mxK (fmt : Nat) : Nat := nth [256, 160, 128, 96, 64, 64, 64, 32, 32, 64, 64] fmt 0
/-- rb, which is also bf, the beats of a full shape. -/
def mxRb (fmt : Nat) : Nat := nth [64, 60, 64, 60, 48, 56, 64, 64, 64, 64, 64] fmt 0
/-- The bfp formats. -/
def mxBfp (fmt : Nat) : Bool := decide (fmt ≤ 6)
/-- The element width of a format in bits. -/
def mxWidth (fmt : Nat) : Nat := if fmt ≤ 6 then bfpWidth fmt else if fmt ≤ 8 then 16 else 8
/-- The formats of an i32 tile (R261). -/
def mxInt (fmt : Nat) : Bool := decide (9 ≤ fmt)

/-- N. -/
def mxN (n16 : BitVec 6) : Nat := 16 * n16.toNat
/-- M. -/
def mxM (msel : BitVec 2) : Nat := 32 * 2 ^ msel.toNat

/-! ## The accumulator memory (R260) -/

/-- Row `i` of tile `t`, always 128 words. -/
def Acc.row (a : Acc) (t i : Nat) : List Word32 :=
  let r := SMap.get? a.rows (128 * t + i)
  (List.range 128).map fun c =>
    match r with
    | some r => nth r c 0
    | none => if a.epoch = 0 then 0 else Config.freeWord a.epoch ((128 * t + i) * 128 + c)

/-- Row `i` of the tiles from `z` on, one after another. -/
def Acc.span (a : Acc) (z i : Nat) : List Word32 := (List.range (8 - z)).flatMap fun t => a.row (z + t) i

/-- The accumulator with words of a row replaced, from column `c0` of the tiles from `z` on. -/
def Acc.setSpan (a : Acc) (z i c0 : Nat) (xs : List Word32) : Acc :=
  let t0 := c0 / 128
  let t1 := (c0 + xs.length + 127) / 128
  { a with rows := (upFrom t0 (t1 - t0)).foldl (fun rs t =>
      let new := (List.zip (upFrom (128 * t) 128) (a.row (z + t) i)).map fun (c, old) =>
        if c0 ≤ c then nth xs (c - c0) old else old
      SMap.insert rs (128 * (z + t) + i) new) a.rows }

/-- The covered words. -/
def Acc.read (a : Acc) (c : Cover) : List (List Word32) :=
  (upFrom c.row0 c.rows).map fun i => ((a.span c.z i).drop c.col0).take c.cols

/-- The covered words replaced. -/
def Acc.write (a : Acc) (c : Cover) (xs : List (List Word32)) : Acc :=
  (List.zip (upFrom c.row0 c.rows) xs).foldl (fun a (i, r) => a.setSpan c.z i c.col0 r) a

/-- The shape M × N on tile z. -/
def shapeCover (z : BitVec 3) (n16 : BitVec 6) (msel : BitVec 2) : Cover :=
  { z := z.toNat, row0 := 0, rows := mxM msel, col0 := 0, cols := mxN n16 }

/-- Half a row, as MRD and MWR name it. -/
def halfCover (f : MrForm) : Cover :=
  { z := f.z.toNat, row0 := f.row.toNat, rows := 1, col0 := 64 * f.half.toNat, cols := 64 }

/-- Two covers share a word (R260). -/
def Cover.meets (a b : Cover) : Bool :=
  decide (a.row0 < b.row0 + b.rows) && decide (b.row0 < a.row0 + a.rows) &&
    decide (128 * a.z + a.col0 < 128 * b.z + b.col0 + b.cols) && decide (128 * b.z + b.col0 < 128 * a.z + a.col0 + a.cols)

/-! ## Panels (R263 to R265, R527) -/

/-- A range cut at 4 KiB boundaries. -/
def pagesOf (va n : Nat) : List (Nat × Nat) :=
  (List.range ((va % 4096 + n + 4095) / 4096)).map fun i =>
    let lo := max va ((va / 4096 + i) * 4096)
    let hi := min (va + n) ((va / 4096 + i + 1) * 4096)
    (lo, hi - lo)

/-- What a panel is for. -/
inductive PanelUse where
  | a (bfp : Bool)
  | b (bfp : Bool)
  /-- MLDZ and MSTZ -/
  | tile
  deriving DecidableEq, Repr

/-- The cause that a piece of a panel raises at issue, if any (R526, R527, R359). -/
def panelCause (s : State) (t : Team) (use : PanelUse) (sp : Spot) (n : Nat) : Option Nat :=
  match sp, use with
  | .host _, _ => some 0x0020
  | .weight d _, .b _ => if d = t.ref.die then none else some 0x0020
  | .lm _ _ _, .a true | .lm _ _ _, .b true => some 0x0020
  | sp, _ => spotCause s t sp n

/-- The pieces of a panel in the intermediate space, or its lowest failing byte with its cause (R527). -/
def checkPieces (s : State) (t : Team) (use : PanelUse) (k : AccKind) :
    List (Nat × Nat) → Except (Nat × Nat) (List (Nat × Nat))
  | [] => .ok []
  | (va, n) :: rest =>
    match vaIpa s.hub.package t.ref t.windows k va with
    | none => .error (0x0020, va)
    | some ipa =>
      match panelCause s t use (spotOf s.hub.package ipa) n with
      | some c => .error (c, va)
      | none => (checkPieces s t use k rest).map ((ipa, n) :: ·)

/-- A panel of `rows` rows of `rb` bytes at an a-register's address. -/
def panelAt (s : State) (use : PanelUse) (k : AccKind) (base : Double) (rows rb : Nat) : Except (Nat × Nat) Panel :=
  (checkPieces s s.team use k (pagesOf base.toNat (rows * rb))).map fun ps =>
    { va := base.toNat, pieces := ps, rowBytes := rb }

/-- The L2 lines of a panel. -/
def Panel.lines (pkg : Nat) (p : Panel) : List Nat :=
  p.pieces.flatMap fun (ipa, n) =>
    match spotOf pkg ipa with
    | .translated _ | .remote => linesOf ipa n
    | _ => []

/-- The weight-store bank groups of a panel (R302). -/
def Panel.groups (pkg : Nat) (p : Panel) : List Nat :=
  p.pieces.filterMap fun (ipa, _) =>
    match spotOf pkg ipa with
    | .weight _ o => some (o / 2 ^ 27)
    | _ => none

/-- The IPA of byte `o` of a panel. -/
def pieceByte : List (Nat × Nat) → Nat → Nat
  | [], _ => 0
  | (ipa, n) :: rest, o => if o < n then ipa + o else pieceByte rest (o - n)

/-- The bytes of a piece as the tile fetch unit reads them, its lines being in the L2. Bytes of an LM that no resident team of the
tenant is granted any more are not read (R346): their values are free (log entry 3). -/
def pieceBytes (s : State) (die : Nat) (t : Team) (piece : Nat × Nat) : List Byte :=
  let (ipa, n) := piece
  match spotOf s.hub.package ipa with
  | .lm d l o => if lmRangeGranted s t.tenant d l o n then lmBytes s d l o n else (List.range n).map (Config.freeByte s.free)
  | .staging d x => stageBytes s d t.cluster x n
  | .weight _ o => (s.dieAt die).weight.bytes o n
  | _ =>
    (linesOf ipa n).flatMap fun line =>
      let lo := max ipa line
      let hi := min (ipa + n) (line + 64)
      cachedBytes (findLine (s.dieAt die).l2 t.tenant line) (lo - line) (hi - lo) s.free

/-- The sideband that a line holds where the panel lies: in the L2, the staging storage or the weight store (R265). -/
def sidebandAt (s : State) (die : Nat) (t : Team) (ipa : Nat) : Option (Nat × List (Nat × Byte)) × Nat :=
  match spotOf s.hub.package ipa with
  | .staging d x => (SMap.get? (s.dieAt d).stageSide (stagingKey t.cluster (lineOf x)), x % 64)
  | .weight _ o => (SMap.get? (s.dieAt die).weightSide (lineOf o), o % 64)
  | _ => ((findLine (s.dieAt die).l2 t.tenant (lineOf ipa)).bind (·.side), ipa % 64)

/-- The exponent of the block that starts at an address (R265): 255 where no enabled window's sideband of that format covers
the line (R528). A block of the panel that does not start where a block of the window starts has an unspecified exponent
(DESIGN CHOICE, log entry 21). -/
def blockAt (s : State) (die : Nat) (t : Team) (fmt ipa : Nat) : Nat :=
  match sidebandAt s die t ipa with
  | (some (f, es), off) =>
    if f ≠ fmt then 255
    else match es.find? fun e => e.1 = off with
      | some e => e.2.toNat
      | none => (Config.freeByte s.free ipa).toNat
  | (none, _) => 255

/-- The rows of a panel with the exponents of their blocks. -/
def readPanel (s : State) (die : Nat) (t : Team) (fmt rows : Nat) (p : Panel) : List (List Byte × List Nat) :=
  let bs := p.pieces.flatMap (pieceBytes s die t)
  (List.range rows).map fun i =>
    ((bs.drop (i * p.rowBytes)).take p.rowBytes,
      if mxBfp fmt then (List.range (mxK fmt / 32)).map fun b =>
        blockAt s die t fmt (pieceByte p.pieces (i * p.rowBytes + b * 4 * bfpWidth fmt))
      else [])

/-! ## Products (R166, R167) -/

/-- The mantissas of the blocks of a row. -/
def rowBlocks (fmt : Nat) (r : List Byte × List Nat) : List (Nat × List Int) :=
  let m := bfpWidth fmt
  (List.zip (upFrom 0 r.2.length) r.2).map fun (b, e) =>
    let bits := numAt r.1 (4 * m * b) (4 * m)
    (e, (List.range 32).map (bfpMant m bits))

/-- The 16-bit elements of a row, widened to f32. -/
def rowHalves (fmt : Nat) (r : List Byte × List Nat) : List Nat :=
  (List.range 32).map fun k =>
    (convert .ne (.flt (if fmt = 7 then bf16 else f16)) (.flt f32) (numAt r.1 (2 * k) 2)).toNat

/-- The 8-bit elements of a row. -/
def rowBytes8 (fmt : Nat) (r : List Byte × List Nat) : List Int :=
  r.1.map fun b => readInt (fmt = 9) 8 b.toNat

/-- Σ x y. -/
def sumProducts (xs ys : List Int) : Int := (List.zipWith (· * ·) xs ys).foldl (· + ·) 0

/-- One output element of a bfp MMA (R166). -/
def bfpDot (m : Nat) (acc : Nat) (as bs : List (Nat × List Int)) : Nat :=
  (List.zip as bs).foldl (fun acc ((ea, qa), (eb, qb)) =>
    let p := if ea = 255 ∨ eb = 255 then f32.nan
      else if ea = 0 ∨ eb = 0 then 0
      else f32.roundInt .ne false (sumProducts qa qb) ((ea : Int) - 127 - (m - 1) + (eb - 127 - (m - 1)))
    f32.add .ne acc p) acc

/-- One output element of a bf16 or f16 MMA (R167). -/
def halfDot (acc : Nat) (as bs : List Nat) : Nat :=
  (List.zip as bs).foldl (fun acc (a, b) => f32.fma .ne a b acc) acc

/-- The old elements as an MMA starts from them. -/
def oldOr (clr : Bool) (old : Word32) : Nat := if clr then 0 else old.toNat

/-- The result of an MMA on its covered elements (R268). -/
def mmaValue (fmt : Nat) (clr : Bool) (old : List (List Word32)) (as bs : List (List Byte × List Nat)) :
    List (List Word32) :=
  if mxBfp fmt then
    let cols := bs.map (rowBlocks fmt)
    List.zipWith (fun a row => let a := rowBlocks fmt a
      List.zipWith (fun b x => BitVec.ofNat 32 (bfpDot (bfpWidth fmt) (oldOr clr x) a b)) cols row) as old
  else if mxInt fmt then
    let cols := bs.map (rowBytes8 fmt)
    List.zipWith (fun a row => let a := rowBytes8 fmt a
      List.zipWith (fun b x => BitVec.ofInt 32 ((oldOr clr x : Int) + sumProducts a b)) cols row) as old
  else
    let cols := bs.map (rowHalves fmt)
    List.zipWith (fun a row => let a := rowHalves fmt a
      List.zipWith (fun b x => BitVec.ofNat 32 (halfDot (oldOr clr x) a b)) cols row) as old

/-- MSCL on one element (R272). -/
def scaleElem (int : Bool) (k : Int) (x : Word32) : Word32 :=
  if int then
    if 0 ≤ k then BitVec.ofNat 32 (x.toNat * 2 ^ k.toNat) else BitVec.ofInt 32 (x.toInt / 2 ^ (-k).toNat)
  else
    BitVec.ofNat 32 (match f32.unpack x.toNat with
      | .nan => f32.nan
      | .inf neg => f32.inf neg
      | .fin neg m e => if m = 0 then f32.zero neg else f32.round .ne neg m (e + k))

/-! ## Issue -/

/-- MX and RX operations of the core in flight (R422): those that write the arrays, those of fixed latency, and each MSTZ that has
not completed. -/
def arraysInFlight (s : State) : Nat :=
  s.core.mxq.length + s.core.rxq.length + s.core.fixed.length +
    ((s.residents s.core.die s.core.pcore).foldl (fun n r => n + ((s.teamAt r).vars.filter fun a => a.op.isMstz).length) 0)

/-- An operation of fixed latency of the acting team is in flight from its issue (R422). -/
def trackFixed (j : Slot) (i : Instr) (a : Double) (src : VReg) (rem : Nat) (s : State) : State :=
  let (id, s) := s.newId
  s.onCore fun c =>
    { c with fixed := c.fixed ++ [{ id := id, team := s.team.ref, slot := j, pos := s.team.passed j, word := trapWord i, aBase := a,
                                    src := src, rem := rem, age := 0 }] }

/-- One with a v-register result issues (R104): its result is one of the team's in flight too. -/
def issueFixed (j : Slot) (i : Instr) (src : VReg) (rem : Nat) (w : Write) (s : State) : State :=
  if s.team.flightFull 1 then takeTrap j i 0x0018 0 s else issue j i 32 [(rem, w)] (trackFixed j i 0 src rem s)

/-- An MX cycle of an operation of fixed latency. -/
def FixedOp.count (o : FixedOp) : FixedOp := { o with rem := o.rem - 1, age := o.age + 1 }

/-- An earlier MX operation has still to write a word of a cover (R82). -/
def interlocked (c : Core) (v : Cover) : Bool := c.mxq.any fun o => o.writes && o.cover.meets v

/-- REPT's step of an address register that an MX operation has used (R93). -/
def reptStep (r : BitVec 4) (t : Team) : Team := t.write (.a r (t.ra r + t.rd r))

/-- The MX slot passes a position that it has issued, stepping the address registers under REPT (R93). -/
def passMx (regs : List (BitVec 4)) (s : State) : State :=
  s.onTeam fun t =>
    let rept := match t.placedAt (t.passed .mx) with
      | some p => p.rept
      | none => false
    (if rept then regs.foldl (fun t r => reptStep r t) t else t).pass1 .mx

/-- An MX operation as it issues: the owner's only; it holds for the interlock (R82), and one that would make 65
operations in flight raises the schedule fault (R507). -/
def mxOp (i : Instr) (cover : Option Cover) (eff : State → State) (s : State) : State :=
  ownerOp .mx i (fun s =>
    if cover.any (interlocked s.core) then holdSlot .mx s
    else if 64 ≤ arraysInFlight s then takeTrap .mx i 0x0018 0 s
    else eff s) s

/-- An empty operation of the acting team at its MX position. -/
def newMx (i : Instr) (kind : MxKind) (cover : Cover) (writes : Bool) (s : State) : MxOp × State :=
  let (id, s) := s.newId
  ({ id := id, team := s.team.ref, tenant := s.team.tenant, pos := s.team.passed .mx, word := trapWord i, aBase := 0,
     bBase := 0, src := VReg.zero, issued := s.now, kind := kind, cover := cover, writes := writes, aPanel := none,
     bPanel := none, bFrom := none, waiting := [], held := [], arrived := true, aRows := [], bCols := none, beats := 0,
     tail := 21, after := none, age := 0, value := [] }, s)

/-- An MX operation joins the array's queue. -/
def enqueueMx (o : MxOp) (regs : List (BitVec 4)) (s : State) : State :=
  passMx regs (s.onCore fun c => { c with mxq := c.mxq ++ [o] })

/-- An operation whose rows are fixed at its issue, written after so many MX cycles (R271). -/
def putOp (i : Instr) (cover : Cover) (src : VReg) (rows : List (List Word32)) (after : Nat) (s : State) : State :=
  let (o, s) := newMx i (.put rows) cover true s
  enqueueMx { o with after := some after, value := rows, src := src } [] s

/-- The rows that MZERO, MWR and MSCL write, from the v source at their issue and the tiles as they stand (R271, R272). -/
def putRows (s : State) (v : VReg) : Instr → Option (Cover × List (List Word32))
  | .mzero f =>
    let c := shapeCover f.z f.n16 f.msel
    some (c, List.replicate c.rows (List.replicate c.cols 0))
  | .mwr f => some (halfCover f, [v.toList])
  | .mscl f =>
    let c := shapeCover f.z f.n16 f.msel
    some (c, (s.core.acc.read c).map fun r => (List.zip (upFrom 0 c.cols) r).map fun (j, x) =>
      scaleElem (vget s.core.tags (c.z + j / 128) false) f.k.toInt x)
  | _ => none

/-- Such an operation issues, to be written after so many MX cycles. -/
def putExec (i : Instr) (v : VReg) (after : Nat) (s : State) : State :=
  match putRows s v i with
  | none => s
  | some (c, rows) => mxOp i (some c) (putOp i c v rows after) s

/-- MZERO (R271). -/
def execMzero (f : MxForm) (s : State) : Host.Outcome State Fault Refusal :=
  let c := shapeCover f.z f.n16 f.msel
  .next (putExec (.mzero f) VReg.zero (4 + (c.rows * c.cols + 4095) / 4096) s)

/-- MRD (R271): it reads the tile at its issue. -/
def execMrd (f : MrForm) (s : State) : Host.Outcome State Fault Refusal :=
  let c := halfCover f
  .next (mxOp (.mrd f) (some c) (fun s =>
    let xs := nth (s.core.acc.read c) 0 []
    issueFixed .mx (.mrd f) VReg.zero 8 (.v f.v (BitVec.allOnes 64) (Vector.ofFn fun l => nth xs l.val 0)) s) s)

/-- MWR (R271): it reads its source at its issue. -/
def execMwr (f : MrForm) (s : State) : Host.Outcome State Fault Refusal :=
  .next (putExec (.mwr f) (s.team.rv f.v) 4 s)

/-- MSCL (R272): by each tile's tag. -/
def execMscl (f : MsForm) (s : State) : Host.Outcome State Fault Refusal :=
  let c := shapeCover f.z f.n16 f.msel
  .next (putExec (.mscl f) VReg.zero (4 + (c.rows * c.cols + 1023) / 1024) s)

/-! ## Pins (R266, R271) -/

/-- A pin whose lines may leave. -/
def Pin.done (p : Pin) : Bool := p.ended && (!p.held || p.released)

/-- The distinct lines that a core pins. -/
def pinned (c : Core) : List Nat := dedup (c.pins.flatMap (·.lines))

/-- The lines of an operation that are not yet pinned. -/
def newPins (c : Core) (lines : List Nat) : List Nat := (dedup lines).filter fun l => !(pinned c).contains l

/-- Whether lines fit the 2,048 pins. -/
def pinsFit (c : Core) (lines : List Nat) : Bool := decide ((pinned c).length + (newPins c lines).length ≤ 2048)

/-- The operation that pins: it holds while pins are to be released, and raises the schedule fault when every held pin
waits for an MREL not yet issued (R266, R507). -/
def withPins (i : Instr) (lines : List Nat) (eff : State → State) (s : State) : State :=
  if pinsFit s.core lines then eff s
  else if s.core.pins.all fun p => p.held && !p.released then takeTrap .mx i 0x0018 0 s
  else holdSlot .mx s

/-- An MMA with a panel that fails its checks raises that cause, but 0x0018 before it where the lines of its other panel alone can
never be pinned (R500, R507; log entry 96). -/
def panelFault (i : Instr) (lines : List Nat) (cause va : Nat) (s : State) : State :=
  if !pinsFit s.core lines && s.core.pins.all (fun p => p.held && !p.released) then takeTrap .mx i 0x0018 0 s
  else takeTrap .mx i cause va s

/-- MREL (R271), of latency 1 (R104). -/
def execMrel (f : MxForm) (s : State) : Host.Outcome State Fault Refusal :=
  .next (mxOp (.mrel f) none (fun s =>
    let b := s.team.ra f.aA
    let mark := fun p : Pin => if p.held && p.bases.contains b then { p with released := true } else p
    let s := s.onCore fun c => { c with pins := (c.pins.map mark).filter fun p => !p.done }
    let s := s.onTeam (retire s.core .mx (some (energyClass .mx (.mrel f), 32)))
    passMx [f.aA] (trackFixed .mx (.mrel f) b VReg.zero 1 s)) s)

/-! ## The B latch (R270, R507) -/

/-- An operation that still fills the latch. -/
def MxOp.fills (o : MxOp) : Bool :=
  match o.kind with
  | .mma _ _ hold => hold
  | .mldb _ => true
  | _ => false

/-- Its format. -/
def MxOp.fmt (o : MxOp) : Nat :=
  match o.kind with
  | .mma f _ _ | .mldb f => f
  | _ => 0

/-- Where an MMA with aB = 15 takes its columns from: the latest fill in flight, or the latch. -/
inductive LatchSource where
  | refuse
  | ready (cols : List (List Byte × List Nat))
  | fromOp (id : Nat)
  deriving DecidableEq, Repr

/-- Unspecified columns of a format; log entry 3. -/
def freeCols (n fmt cols : Nat) : List (List Byte × List Nat) :=
  (List.range cols).map fun j =>
    ((List.range (mxRb fmt)).map fun k => Config.freeByte n (j * 128 + k),
      (List.range (mxK fmt / 32)).map fun b => (Config.freeByte n (j * 128 + 64 + b)).toNat)

/-- The latch as an MMA of a format and an N finds it (R268, R507). -/
def latchSource (s : State) (fmt n : Nat) : LatchSource :=
  match (s.core.mxq.filter MxOp.fills).getLast? with
  | some o => if o.fmt = fmt ∧ n ≤ o.cover.cols then .fromOp o.id else .refuse
  | none =>
    if s.core.latchOpen then (if Config.freeBit s.free then .ready (freeCols s.free fmt n) else .refuse)
    else match s.core.latch with
      | some l => if l.fmt = fmt ∧ n ≤ l.n then .ready (l.cols.take n) else .refuse
      | none => .refuse

/-- The array's beats for a shape (R269). -/
def beatsOf (fmt m n : Nat) : Nat := (mxRb fmt * m * n + 16383) / 16384

/-- The tags of the tiles that an MMA covers (R261). -/
def setTags (tags : Vector Bool 8) (c : Cover) (int : Bool) : Vector Bool 8 :=
  (List.range ((c.cols + 127) / 128)).foldl (fun v t => vput v (c.z + t) int) tags

/-- An MMA's operands are in order: it pins its lines, sets its tags and joins the queue (R266, R268). -/
def startMma (f : MxForm) (a : Panel) (b : Option Panel) (src : LatchSource) (s : State) : State :=
  let pkg := s.hub.package
  let c := shapeCover f.z f.n16 f.msel
  let fmt := f.fmt.toNat
  let lines := dedup (a.lines pkg ++ (b.map (Panel.lines pkg)).getD [])
  withPins (.mma f) lines (fun s =>
    let (o, s) := newMx (.mma f) (.mma fmt (f.clr = 1) (f.hold = 1)) c true s
    let bases := s.team.ra f.aA :: (if f.aB = 15 then [] else [s.team.ra f.aB])
    let o := { o with aBase := s.team.ra f.aA, bBase := if f.aB = 15 then 0 else s.team.ra f.aB, aPanel := some a,
                      bPanel := b, arrived := false, beats := beatsOf fmt c.rows c.cols,
                      bCols := (match src with | .ready cs => some cs | _ => none),
                      bFrom := (match src with | .fromOp id => some id | _ => none) }
    let pin : Pin := { mid := o.id, team := o.team, bases := bases, lines := lines, held := decide (f.rel = 0),
                       ended := false, released := false }
    let s := s.onCore fun k => { k with pins := k.pins ++ [pin], tags := setTags k.tags c (mxInt fmt) }
    let s : State := { s with free := s.free + 1 }
    enqueueMx o (if f.aB = 15 then [f.aA] else [f.aA, f.aB]) s) s

/-- MMA (R268, R269, R527). -/
def execMma (f : MxForm) (s : State) : Host.Outcome State Fault Refusal :=
  let c := shapeCover f.z f.n16 f.msel
  let fmt := f.fmt.toNat
  .next (mxOp (.mma f) (some c) (fun s =>
    let src := if f.aB = 15 then latchSource s fmt c.cols else .ready []
    if src = .refuse then takeTrap .mx (.mma f) 0x0018 0 s
    else
      let pkg := s.hub.package
      let a := panelAt s (.a (mxBfp fmt)) .read (s.team.ra f.aA) c.rows (mxRb fmt)
      let b := if f.aB = 15 then .ok none else (panelAt s (.b (mxBfp fmt)) .read (s.team.ra f.aB) c.cols (mxRb fmt)).map some
      match a, b with
      | .ok a, .ok b => startMma f a b (if b.isNone then src else .refuse) s
      | .ok a, .error (cause, va) => panelFault (.mma f) (a.lines pkg) cause va s
      | .error (cause, va), .ok (some b) => panelFault (.mma f) (b.lines pkg) cause va s
      | .error (cause, va), _ => takeTrap .mx (.mma f) cause va s) s)

/-- MLDB (R271). -/
def execMldb (f : MxForm) (s : State) : Host.Outcome State Fault Refusal :=
  let fmt := f.fmt.toNat
  let n := mxN f.n16
  .next (mxOp (.mldb f) none (fun s =>
    match panelAt s (.b (mxBfp fmt)) .read (s.team.ra f.aB) n (mxRb fmt) with
    | .error (cause, va) => takeTrap .mx (.mldb f) cause va s
    | .ok b =>
      let lines := dedup (b.lines s.hub.package)
      withPins (.mldb f) lines (fun s =>
        let (o, s) := newMx (.mldb f) (.mldb fmt) { z := 0, row0 := 0, rows := 0, col0 := 0, cols := n } false s
        let pin : Pin := { mid := o.id, team := o.team, bases := [], lines := lines, held := false, ended := false,
                           released := false }
        let s := s.onCore fun k => { k with pins := k.pins ++ [pin] }
        let s := s.onTeam (retire s.core .mx (some (energyClass .mx (.mldb f), mxWidth fmt)))
        enqueueMx { o with bBase := s.team.ra f.aB, bPanel := some b, arrived := false } [f.aB] s) s) s)

/-- MLDZ (R271, R273). -/
def execMldz (f : MxForm) (s : State) : Host.Outcome State Fault Refusal :=
  let c := shapeCover f.z f.n16 f.msel
  let a := s.team.ra f.aA
  .next (mxOp (.mldz f) (some c) (fun s =>
    if a.toNat % 4 ≠ 0 then takeTrap .mx (.mldz f) 0x0020 a.toNat s
    else match panelAt s .tile .read a c.rows (4 * c.cols) with
      | .error (cause, va) => takeTrap .mx (.mldz f) cause va s
      | .ok p =>
        let (o, s) := newMx (.mldz f) .mldz c true s
        enqueueMx { o with aBase := a, aPanel := some p, arrived := false } [f.aA] s) s)

/-- MSTZ (R271, R273): it reads the tile at its issue; its writes are performed at its HOME_REQUEST, and a W marker
waits for them. -/
def execMstz (f : MxForm) (s : State) : Host.Outcome State Fault Refusal :=
  let c := shapeCover f.z f.n16 f.msel
  let a := s.team.ra f.aA
  .next (mxOp (.mstz f) (some c) (fun s =>
    if a.toNat % 4 ≠ 0 then takeTrap .mx (.mstz f) 0x0020 a.toNat s
    else match panelAt s .tile .write a c.rows (4 * c.cols) with
      | .error (cause, va) => takeTrap .mx (.mstz f) cause va s
      | .ok p =>
        let data := (s.core.acc.read c).flatMap fun r => r.flatMap fun w => natBytes 4 w.toNat
        let parts := p.pieces.map fun (ipa, n) => ({ ipa := ipa, size := n, lane := 0, data := 0 } : Part)
        let (x, s) := newAccess .mx (.mstz f) a.toNat none false .l2 (.mstz data) parts s
        let (x, s) := countStore { x with path := .tf } s
        passMx [f.aA] (sendAccess x s)) s)

/-! ## The array (R267, R269) -/

/-- Whether a bank group of a panel is in its unavailable window (R305). -/
def groupsBusy (s : State) (p : Option Panel) : Bool :=
  match p, s.hub.refreshing with
  | some p, some g => (p.groups s.hub.package).contains g
  | _, _ => false

/-- The lines that a panel still lacks in the L2, its sidebands included for a bfp format (R164). -/
def lacks (s : State) (die : Nat) (t : Team) (side : Bool) (p : Option Panel) : List Nat :=
  match p with
  | none => []
  | some p => (dedup (p.lines s.hub.package)).filter fun l => !l2Ready s die t l side

/-- The lines that a panel covers wherever it lies. -/
def panelLines (p : Option Panel) : List Nat :=
  match p with
  | none => []
  | some p => p.pieces.flatMap fun (ipa, n) => linesOf ipa n

/-- An earlier MSTZ of the team that has still to write a line of the panels (R267). -/
def behindMstz (t : Team) (o : MxOp) : Bool :=
  let ls := panelLines o.aPanel ++ panelLines o.bPanel
  t.vars.any fun a => a.op.isMstz && decide (a.id < o.id) && decide (a.phase ≠ .performed) &&
    a.lines.any ls.contains

/-- A panel lies in another core's LM that is being moved (R345, R439). -/
def movingPanel (s : State) (r : TeamRef) (p : Option Panel) : Bool :=
  p.any fun p => p.pieces.any fun (ipa, _) => match spotOf s.hub.package ipa with
    | .lm d l _ => migratingLm s r d l
    | _ => false

/-- A poisoned weight-store line that a panel reads (R539). -/
def poisonedLine (s : State) (die : Nat) (p : Option Panel) : Option Nat :=
  match p with
  | none => none
  | some p =>
    (p.pieces.flatMap fun (ipa, n) =>
      match spotOf s.hub.package ipa with
      | .weight _ o => linesOf o n
      | _ => []).find? (s.dieAt die).weightPoison.contains

/-- An MX operation replaced in the queue. -/
def putMx (o : MxOp) (s : State) : State := s.onCore fun c => { c with mxq := modWhere (fun x => x.id = o.id) (fun _ => o) c.mxq }

/-- The tiles' words of an MLDZ panel. -/
def tileWords (cols : Nat) (r : List Byte × List Nat) : List Word32 :=
  (List.range cols).map fun j => BitVec.ofNat 32 (numAt r.1 (4 * j) 4)

/-- The tile fetch unit reads an operation's operands once every line is there (R267). -/
def fetchOperands (o : MxOp) (s : State) : State :=
  let die := s.core.die
  let t := s.teamAt o.team
  if o.arrived || !o.waiting.isEmpty then s
  else
    let side := mxBfp o.fmt && decide (o.kind ≠ .mldz)
    let miss := dedup (lacks s die t side o.aPanel ++ lacks s die t side o.bPanel)
    if !miss.isEmpty then
      miss.foldl (fun s l => toHome die o.tenant l 64 .tileFetchLineArrival { team := o.team, id := o.id, aux := l } s)
        (putMx { o with waiting := miss } s)
    else if behindMstz t o || groupsBusy s o.bPanel || movingPanel s o.team o.aPanel || movingPanel s o.team o.bPanel then s
    else match poisonedLine s die o.bPanel with
      | some l => killWork o.team o.tenant 3 0x0105 l 0 s
      | none =>
        let rows := (o.aPanel.map (readPanel s die t o.fmt o.cover.rows)).getD []
        let cols := match o.bPanel with
          | some p => some (readPanel s die t o.fmt o.cover.cols p)
          | none => o.bCols
        let o := { o with arrived := true, aRows := rows, bCols := cols }
        let o := if o.kind = .mldz then { o with after := some 4, value := rows.map (tileWords o.cover.cols) } else o
        putMx o { s with free := s.free + 1 }

/-- The latch is filled by the oldest fill whose B panel has arrived, and the operations that read that fill have their
columns (R270). -/
def fillLatch (c : Core) : Core :=
  match c.mxq.find? MxOp.fills with
  | none => c
  | some o =>
    match o.arrived, o.bCols with
    | true, some cols =>
      let feed := fun x : MxOp => if x.bFrom = some o.id then { x with bCols := some (cols.take x.cover.cols) } else x
      let q := (c.mxq.map feed).filterMap fun x =>
        if x.id ≠ o.id then some x
        else match x.kind with
          | .mma f clr _ => some { x with kind := .mma f clr false }
          | _ => none
      let stays := q.any fun x => x.id = o.id
      let pins := if stays then c.pins else modWhere (fun p => p.mid = o.id) (fun p => { p with ended := true }) c.pins
      { c with latch := some { fmt := o.fmt, n := o.cover.cols, cols := cols }, latchOpen := false, mxq := q, pins := pins }
    | _, _ => c

/-- One beat of the oldest MMA that has beats to run (R269). -/
def runBeat (s : State) : State :=
  match s.core.mxq.find? fun o => decide (0 < o.beats) with
  | none => s
  | some o =>
    match o.arrived, o.bCols with
    | true, some cols =>
      if groupsBusy s o.bPanel then s
      else if 1 < o.beats then putMx { o with beats := o.beats - 1 } s
      else
        let clr := match o.kind with
          | .mma _ c _ => c
          | _ => false
        let v := mmaValue o.fmt clr (s.core.acc.read o.cover) o.aRows cols
        let s := putMx { o with beats := 0, after := some o.tail, value := v } s
        s.onCore fun c => { c with pins := modWhere (fun p => p.mid = o.id) (fun p => { p with ended := true }) c.pins }
    | _, _ => s

/-- One MX cycle of the matrix array, after the MX slot's (R269): pins whose operation has ended leave, operands
arrive, the latch fills, and one beat runs. -/
def matrixCycle (s : State) : State :=
  let s := s.onCore fun c => { c with pins := c.pins.filter fun p => !p.done }
  let s := s.core.mxq.foldl (fun s o => fetchOperands o s) s
  let s := (List.range s.core.mxq.length).foldl (fun s _ => s.onCore fillLatch) s
  runBeat s

/-- One MX cycle towards the writes of MX operations, before the MX slot's (R269). -/
def MxOp.count (o : MxOp) : MxOp := { o with after := o.after.map (· - 1), age := o.age + 1 }

/-- MMA_WRITE (R269): an operation's writes to the accumulator memory complete, and its energy is counted. -/
def writeMx (id : Nat) (s : State) : State :=
  match s.core.mxq.find? fun o => o.id = id with
  | none => s
  | some o =>
    let cls := 64 * slotNum .mx + o.word.toNat / 2 ^ 26
    let w := match o.kind with
      | .mma f _ _ => mxWidth f
      | _ => 32
    let s := s.modTeam o.team (retire s.core .mx (some (cls, w)))
    s.onCore fun c => { c with acc := c.acc.write o.cover o.value, mxq := c.mxq.filter fun x => x.id ≠ id }

/-- MMA_WRITE (R269). -/
def execMmaWrite (s : State) : Host.Outcome State Fault Refusal :=
  .next (writeMx s.occ.id (s.focus s.occ.team))

/-- A line that the tile fetch unit waits for reaches the L2 (R264, R267), or the home stops it (R536, R538). -/
def tileLine (o : MxOp) (line : Nat) (s : State) : State :=
  match fillL2 s.core.die (s.teamAt o.team) .tf line s with
  | (some (.kill c det), s) => killWork o.team o.tenant 4 c line det s
  | (some v, s) =>
    let s := if v = .hold then putMx { o with held := line :: o.held } s else s
    stopped o.tenant line .read v .tileFetchLineArrival s.occ s
  | (none, s) =>
    roomL2 (some (o.team, .tf)) s.core.die line
      (putMx { o with waiting := o.waiting.filter (· ≠ line), held := o.held.filter (· ≠ line) } s)

/-- TILE_FETCH_LINE_ARRIVAL (R267). -/
def execTileFetchLineArrival (s : State) : Host.Outcome State Fault Refusal :=
  let s := s.focus s.occ.team
  .next (match s.core.mxq.find? fun o => o.id = s.occ.id with
    | none => s
    | some o => tileLine o s.occ.aux s)

/-! ## MSTZ at its place (R264, R273) -/

/-- An MSTZ waits while an earlier operation still reads one of its lines (R267). -/
def mstzWaits (s : State) (a : Access) : Bool :=
  (s.coreAt a.die a.pcore).mxq.any fun o => decide (o.id < a.id) && !o.arrived &&
    (panelLines o.aPanel ++ panelLines o.bPanel).any a.lines.contains

/-- The bytes of one part of an MSTZ reach the L2, the staging storage or an LM. -/
def storeTile (a : Access) (s : State) (p : Part × List Byte) : State :=
  match spotOf s.hub.package p.1.ipa with
  | .lm d l o => if lmRangeGranted s a.tenant d l o p.2.length then { s with mem := setLm s d l o p.2 } else s
  | .staging d x => { s with mem := setStage s d (s.teamAt a.team).cluster x p.2 }
  | _ =>
    (linesOf p.1.ipa p.2.length).foldl (fun s line =>
      let lo := max p.1.ipa line
      let hi := min (p.1.ipa + p.2.length) (line + 64)
      roomL2 (some (a.team, .tf)) a.die line
        (storeL2 a.die a.tenant line (lineBytes (lo - line) ((p.2.drop (lo - p.1.ipa)).take (hi - lo))) s)) s

/-- The data of an access cut along its parts. -/
def cutParts : List Part → List Byte → List (Part × List Byte)
  | [], _ => []
  | p :: ps, bs => (p, bs.take p.size) :: cutParts ps (bs.drop p.size)

/-- An MSTZ is performed. -/
def performMstz (a : Access) (data : List Byte) (s : State) : State :=
  finishAccess a [] ((cutParts a.parts data).foldl (storeTile a) s)

end Sys2Proof.Machine
end

