-- ==== Sys2Proof/Machine/Rotation.lean ====
section
/-! DEFINITION. The RX slot and the rotation array (spec/09_isa_matrix_rotation.md R274 to R287, spec/06_numbers.md
R168 to R176, spec/21_instruction_faults.md R514 to R517). A fraction f is held as the integer f × 2^38. -/

namespace Sys2Proof.Machine

/-! ## Fractions and rows (R168 to R170) -/

/-- x × 2^−sh rounded to nearest even. -/
def rneShift (x : Int) (sh : Nat) : Int := roundToInt .ne (decide (x < 0)) x.natAbs (-(sh : Int))

/-- The largest magnitude of a row. -/
def rowMax (fs : List Int) : Nat := fs.foldl (fun m f => max m f.natAbs) 0

/-- The doublings of R170: while a row is below 0.25, with no step taking g below 1. -/
def renormUp : Nat → List Int → Nat → List Int × Nat
  | 0, fs, g => (fs, g)
  | n + 1, fs, g => if rowMax fs < 2 ^ 36 ∧ 1 < g then renormUp n (fs.map (· * 2)) (g - 1) else (fs, g)

/-- The halvings of R170: while a row is at least 0.5. -/
def renormDown : Nat → List Int → Nat → List Int × Nat
  | 0, fs, g => (fs, g)
  | n + 1, fs, g => if 2 ^ 37 ≤ rowMax fs then renormDown n (fs.map (· / 2)) (g + 1) else (fs, g)

/-- A row renormalised (R170). -/
def renorm (fs : List Int) (g : Nat) : List Int × Nat :=
  if rowMax fs = 0 then (fs.map fun _ => 0, 0)
  else
    let (fs, g) := renormDown 4 fs g
    renormUp 40 fs g

/-- A row aligned to a larger exponent (R170). -/
def alignTo (g2 : Nat) (fs : List Int) (g : Nat) : List Int := fs.map (· / 2 ^ (g2 - g))

/-- The exponent that entering magnitudes give (R169, R514). -/
def entryExp (vs : List Nat) : Nat :=
  let amax := vs.foldl (fun m v => max m (f32Abs v)) 0
  if amax = 0 then 0 else (max 1 (f32Log2 amax + 129)).toNat

/-- The fraction of an f32 value under an exponent (R169). -/
def fracOf (g v : Nat) : Int :=
  match f32.unpack v with
  | .fin neg m e => roundToInt .ne neg m (e + 127 - g + 38)
  | _ => 0

/-- A row as it enters (R169). -/
def entry (vs : List Nat) : List Int × Nat :=
  let g := entryExp vs
  (vs.map fun v => if g = 0 then 0 else fracOf g v, g)

/-- A value as it leaves (R169, R516). -/
def exitVal (f : Int) (g : Nat) : Word32 :=
  if g = 0 then 0 else BitVec.ofNat 32 (f32.roundInt .ne false f ((g : Int) - 127 - 38))

/-- Values that may not enter: a NaN, an infinity, or a magnitude of 2^126 or above (R514). -/
def entersBad (vs : List Nat) : Bool := vs.any fun v => decide (253 ≤ f32.exp v)

/-! ## Rotations (R171, R172) -/

/-- One micro-rotation. -/
def microStep (pos : Bool) (i : Nat) (x y : Int) : Int × Int :=
  let tx := x / 2 ^ i
  let ty := y / 2 ^ i
  if pos then (x - ty, y + tx) else (x + ty, y - tx)

/-- The 32 steps under a direction word. -/
def rotateSteps (s : Word32) (x y : Int) : Int × Int :=
  (List.range 32).foldl (fun (x, y) i => microStep (s.getLsbD i) i x y) (x, y)

/-- A rotation by a direction word and a flip bit (R276). -/
def rotate (r : Word32 × Bool) (x y : Int) : Int × Int :=
  if r.2 then rotateSteps r.1 (-x) (-y) else rotateSteps r.1 x y

/-- The vectoring steps: each direction is chosen before its step. -/
def vectorSteps (x y : Int) : Nat × Int × Int :=
  (List.range 32).foldl (fun (s, x, y) i =>
    let pos := decide (y < 0)
    let (x, y) := microStep pos i x y
    (if pos then s + 2 ^ i else s, x, y)) (0, x, y)

/-- Vectoring a pair: the direction word, the flip bit, and the magnitude (R171). -/
def vectoring (x y : Int) : (Word32 × Bool) × Int :=
  let flip := decide (x < 0)
  let (s, r, _) := if flip then vectorSteps (-x) (-y) else vectorSteps x y
  ((BitVec.ofNat 32 s, flip), r)

/-- The gain constants: c_n and t_n for n from 1 (R172). -/
def gainTable : List (Nat × Nat) :=
  [(166920415761, 0), (202725824767, 1), (246211704184, 2), (149512779999, 2),
   (181584148952, 3), (220535014804, 4), (267841070024, 5), (162647275888, 5),
   (197536071309, 6), (239908718144, 7), (145685273227, 7), (176935619510, 8),
   (214889348510, 9), (260984375170, 10), (158483527813, 10), (192479174830, 11),
   (233767087688, 12), (141955750107, 12), (172406091787, 13), (209388210503, 14),
   (254303210768, 15), (154426371121, 15), (187551734212, 16), (227782682133, 17),
   (138321702269, 17), (167992519357, 18), (204027900878, 19), (247793083264, 20),
   (150473077087, 20), (182750435401, 21), (221951476543, 22), (269561371121, 23),
   (163691933778, 23), (198804814448, 24), (241449614135, 25), (146620986840, 25),
   (178072049185, 26), (216269549022, 27), (262660636793, 28), (159501442604, 28),
   (193715438319, 29), (235268536951, 30), (142867509579, 30), (173513429018, 31),
   (210733078070, 32), (255936560322, 33), (155418227432, 33), (188756349524, 34),
   (229245694500, 35), (139210120823, 35), (169071508906, 36), (205338340019, 37),
   (249384619292, 38), (151439542011, 38), (183924212726, 39), (223377035994, 40),
   (271292721441, 41), (164743301342, 41), (200081706526, 42), (243000407059, 43),
   (147562710395, 43), (179215777970, 44), (217658614345, 45)]

/-- c_n and t_n. -/
def gainOf (n : Nat) : Nat × Nat := nth gainTable (n - 1) (0, 0)

/-- Compensation (R172, R276). -/
def compensate (f : Int) : Int := rneShift (f * 166920415761) 38

/-- Compensation in compensated mode, nothing in deferred mode. -/
def compIf (deferred : Bool) (f : Int) : Int := if deferred then f else compensate f

/-! ## Feeds (R273, R277, R278) -/

/-- A row that a step inside the array leaves: one whose exponent would pass 254 is saturated, and sets the range flag
(R515). -/
def settleRow (r : List Int) (y : Int) (g : Nat) : TriRow × Bool :=
  let (fs, g) := renorm (r ++ [y]) g
  let sat := decide (254 < g)
  let fs := if sat then fs.map fun f => clamp (-(2 ^ 39)) (2 ^ 39 - 1) (f * 2 ^ (g - 254)) else fs
  ({ r := fs.take 16, y := nth fs 16 0, g := min g 254 }, sat)

/-- The forgetting step on one value (R173). -/
def forget (c : Nat) (f : Int) : Int := f - f / 2 ^ (c + 1)

/-- The forgetting step (R173). -/
def forgetTri (c : Nat) (t : Tri) : Tri :=
  let rs := t.rows.map fun r => settleRow (r.r.map (forget c)) (forget c r.y) r.g
  { t with rows := rs.map (·.1), range := t.range || rs.any (·.2) }

/-- Row `i` and the passing row (R277): what the row becomes, the passing row with its exponent, the rotation, and
whether the row saturated. -/
def feedRow (deferred : Bool) (i : Nat) (row : TriRow) (x : List Int) (gx : Nat) :
    TriRow × (List Int × Nat) × (Word32 × Bool) × Bool :=
  let g := max row.g gx
  let r := alignTo g (row.r ++ [row.y]) row.g
  let x := alignTo g x gx
  let (rot, mag) := vectoring (nth r i 0) (nth x i 0)
  let pairs := (List.zip (upFrom 0 17) (List.zip r x)).map fun (j, u, w) =>
    if j < i then (u, w)
    else if j = i then (compIf deferred mag, 0)
    else
      let (u, w) := rotate rot u w
      (compIf deferred u, compensate w)
  let (row, sat) := settleRow ((pairs.map (·.1)).take 16) (nth (pairs.map (·.1)) 16 0) g
  (row, renorm (pairs.map (·.2)) g, rot, sat)

/-- The passing row through rows `i` on. -/
def feedRows (deferred : Bool) : Nat → List TriRow → List Int → Nat → List TriRow × List (Word32 × Bool) × Bool
  | _, [], _, _ => ([], [], false)
  | i, row :: rows, x, gx =>
    let (row, (x, gx), rot, sat) := feedRow deferred i row x gx
    let (rows, rots, sats) := feedRows deferred (i + 1) rows x gx
    (row :: rows, rot :: rots, sat || sats)

/-- Lanes `lo` to `hi` of a register as f32 patterns. -/
def lanesFrom (v : VReg) (lo n : Nat) : List Nat := (upFrom lo n).map fun i => (lane v i).toNat

/-- A feed (R277). -/
def feedTri (deferred record : Bool) (v : VReg) (t : Tri) : Tri :=
  let (x, gx) := entry (lanesFrom v 0 17)
  let (rows, rots, sat) := feedRows deferred 0 t.rows x gx
  { rows := rows, record := if record then some rots else t.record, range := t.range || sat }

/-! ## Reads and writes of rows (R279 to R282) -/

/-- A register from its lanes from 0 up, the others +0. -/
def laneList (xs : List Word32) : VReg := Vector.ofFn fun i => nth xs i.val 0

/-- RQAPP's column through the record (R279): the entries so far, the rest, and lane 16. -/
def applyRecord (deferred : Bool) : Nat → List (Word32 × Bool) → List Int → Nat → List Int × Nat
  | _, [], xs, g => (xs, g)
  | i, rot :: rots, xs, g =>
    let (u, w) := rotate rot (nth xs i 0) (nth xs 16 0)
    let xs := put (put xs i (compIf deferred u)) 16 (compensate w)
    let (xs, g) := renorm xs g
    applyRecord deferred (i + 1) rots xs g

/-- RQAPP (R279). -/
def rqappValue (deferred : Bool) (t : Tri) (v : VReg) : VReg :=
  let (xs, g) := entry (lanesFrom v 0 17)
  let (xs, g) := match t.record with
    | some rots => applyRecord deferred 0 rots xs g
    | none => (xs, g)
  laneList (xs.map fun f => exitVal f g)

/-- A row of tri; a row that does not exist is zero. -/
def Tri.row (t : Tri) (i : Nat) : TriRow := nth t.rows i { r := List.replicate 16 0, y := 0, g := 0 }

/-- RREAD with dir = 0 (R280). -/
def rreadValue (t : Tri) (i : Nat) : VReg :=
  let r := t.row i
  laneList ((List.range 17).map fun j =>
    if j = 16 then exitVal r.y r.g else if i ≤ j then exitVal (nth r.r j 0) r.g else 0)

/-- RREAD with dir = 1 (R280). -/
def rreadStore (t : Tri) (i : Nat) (v : VReg) : Tri :=
  let (fs, g) := entry (lanesFrom v i (17 - i))
  let row : TriRow := { r := (List.range 16).map fun j => if i ≤ j then nth fs (j - i) 0 else 0, y := nth fs (16 - i) 0,
                        g := g }
  { t with rows := put t.rows i row }

/-- RRHS with dir = 0 (R281). -/
def rrhsValue (t : Tri) : VReg := laneList (t.rows.map fun r => exitVal r.y r.g)

/-- RRHS with dir = 1 (R281). -/
def rrhsStore (t : Tri) (v : VReg) : Tri :=
  let rs := (List.zip (upFrom 0 16) t.rows).map fun (i, r) =>
    let x := (lane v i).toNat
    let g := max r.g (entryExp [x])
    settleRow (alignTo g r.r r.g) (if g = 0 then 0 else fracOf g x) g
  { t with rows := rs.map (·.1), range := t.range || rs.any (·.2) }

/-- An exact sum that may have met an infinity or a NaN (R282, R517). -/
inductive Sum where
  | fin (x e : Int)
  | inf (neg : Bool)
  | nan
  deriving DecidableEq, Repr

/-- The sum of two. -/
def Sum.add : Sum → Sum → Sum
  | .fin x ex, .fin y ey => let (z, e) := addExact x ex y ey; .fin z e
  | .nan, _ | _, .nan => .nan
  | .inf a, .inf b => if a = b then .inf a else .nan
  | .inf a, _ | _, .inf a => .inf a

/-- −val(f) × x for an f32 value x (R282, R517). -/
def negProduct (f : Int) (g x : Nat) : Sum :=
  match f32.unpack x with
  | .nan => .nan
  | .inf neg => if f = 0 then .nan else .inf (neg != decide (0 < f))
  | .fin neg m e => .fin (-(f * sgn neg m)) ((g : Int) - 127 - 38 + e)

/-- The linear-mode quotient, times 2^31 (R174). -/
def linearQuotient (y x : Int) : Int :=
  ((List.range 32).foldl (fun (y, z) i =>
    let pos := decide (0 ≤ y) == decide (0 < x)
    if pos then (y - x / 2 ^ i, z + 2 ^ (31 - i)) else (y + x / 2 ^ i, z - 2 ^ (31 - i))) (y, (0 : Int))).2

/-- One unknown of RSOLVE (R282): `f` and `g` are the diagonal's fraction and exponent. -/
def solveOne (num : Sum) (f : Int) (g : Nat) : Nat :=
  match num with
  | .nan => f32.nan
  | .inf neg => f32.inf (neg != decide (f < 0))
  | .fin n e =>
    if n = 0 then 0
    else
      let ed : Int := (f.natAbs.log2 : Int) + g - 127 - 38
      let en : Int := (n.natAbs.log2 : Int) + e
      let dd := roundToInt .ne (decide (f < 0)) f.natAbs (36 - f.natAbs.log2)
      let nn := roundToInt .ne (decide (n < 0)) n.natAbs (e - en - 3 + 38)
      f32.roundInt .ne false (linearQuotient nn dd) (en - ed + 1 - 31)

/-- x(i) with the unknowns after it. -/
def solveStep (t : Tri) (i : Nat) (xs : List Nat) : List Nat :=
  let r := t.row i
  let num := (List.zip (upFrom (i + 1) (15 - i)) xs).foldl (fun a (j, x) => a.add (negProduct (nth r.r j 0) r.g x))
    (Sum.fin r.y ((r.g : Int) - 127 - 38))
  solveOne num (nth r.r i 0) r.g :: xs

/-- RSOLVE (R282). -/
def rsolveValue (t : Tri) : VReg :=
  laneList (((List.range 16).foldl (fun xs k => solveStep t (15 - k) xs) []).map (BitVec.ofNat 32))

/-- A diagonal element is zero (R517). -/
def singular (t : Tri) : Bool := (List.range 16).any fun i => (t.row i).g = 0 || nth (t.row i).r i 0 = 0

/-! ## Layers and angles (R175, R176, R283 to R285) -/

/-- A_i (R176). -/
def atanTable : List Nat :=
  [0x20000000, 0x12e4051e, 0x9fb385b, 0x51111d4, 0x28b0d43, 0x145d7e1, 0xa2f61e, 0x517c55,
   0x28be53, 0x145f2f, 0xa2f98, 0x517cc, 0x28be6, 0x145f3, 0xa2fa, 0x517d,
   0x28be, 0x145f, 0xa30, 0x518, 0x28c, 0x146, 0xa3, 0x51,
   0x29, 0x14, 0xa, 0x5, 0x3, 0x1, 0x1, 0x0]

/-- The half-turn of an angle: what remains of it, and whether one was dropped (R176, R283). -/
def halfTurn (a : Word32) : Int × Bool :=
  let z := a.toInt
  if 2 ^ 30 < z then (z - 2 ^ 31, true) else if z < -(2 ^ 30) then (z + 2 ^ 31, true) else (z, false)

/-- The σ32 word of an angle within a quarter-turn (R176). -/
def sigmaOf (z : Int) : Word32 :=
  BitVec.ofNat 32 ((List.range 32).foldl (fun (s, z) i =>
    let a : Int := (nth atanTable i 0 : Nat)
    if 0 ≤ z then (s + 2 ^ i, z - a) else (s, z + a)) ((0 : Nat), z)).1

/-- The brad32 angle of a σ32 word, as an integer (R176). -/
def angleOf (s : Word32) : Int :=
  (List.range 32).foldl (fun n i => n + (if s.getLsbD i then 1 else -1) * (nth atanTable i 0 : Nat)) 0

/-- One pair of RLAY (R283). -/
def layPair (deferred inverse : Bool) (u w : Nat) (a : Word32) : Word32 × Word32 :=
  let a := if inverse then 0 - a else a
  let (z, neg) := halfTurn a
  let (fs, g) := entry [u, w]
  let (x, y) := rotateSteps (sigmaOf z) (nth fs 0 0) (nth fs 1 0)
  let x := compIf deferred x
  let y := compIf deferred y
  let (fs, g) := renorm (if neg then [-x, -y] else [x, y]) g
  (exitVal (nth fs 0 0) g, exitVal (nth fs 1 0) g)

/-- The lower lane of the pair of a lane (R283). -/
def layLane (k l : Nat) : Nat := if l / 2 ^ k % 2 = 1 then l - 2 ^ k else l

/-- The pair of a lane. -/
def layPairOf (k l : Nat) : Nat := layLane k l / 2 ^ (k + 1) * 2 ^ k + layLane k l % 2 ^ k

/-- RLAY and RLAYI (R283). -/
def rlayValue (deferred inverse : Bool) (k : Nat) (va vb : VReg) : VReg :=
  Vector.ofFn fun l =>
    let j := layLane k l.val
    let r := layPair deferred inverse (lane va j).toNat (lane va (j + 2 ^ k)).toNat (lane vb (layPairOf k l.val))
    if l.val = j then r.1 else r.2

/-- One pair of RVEC (R284). -/
def vecPair (u w : Nat) : Word32 × Word32 :=
  let (fs, g) := entry [u, w]
  if g = 0 then (0, 0)
  else
    let (rot, mag) := vectoring (nth fs 0 0) (nth fs 1 0)
    let (fs, g) := renorm [compensate mag] g
    (exitVal (nth fs 0 0) g, BitVec.ofInt 32 (-(angleOf rot.1) + if rot.2 then 2 ^ 31 else 0))

/-- RVEC (R284). -/
def rvecValue (va : VReg) : VReg :=
  Vector.ofFn fun l =>
    let r := vecPair (lane va (l.val / 2 * 2)).toNat (lane va (l.val / 2 * 2 + 1)).toNat
    if l.val % 2 = 0 then r.1 else r.2

/-- ANGC (R285). -/
def angcValue (toBrad : Bool) (va : VReg) : VReg :=
  va.map fun x => if toBrad then BitVec.ofInt 32 (angleOf x) else sigmaOf (halfTurn x).1

/-- RGAIN on a lane (R286). -/
def gainLane (n : Nat) (x : Word32) : Word32 :=
  let (c, t) := gainOf n
  BitVec.ofNat 32 (match f32.unpack x.toNat with
    | .nan => f32.nan
    | .inf neg => f32.inf neg
    | .fin neg m e => if m = 0 then f32.zero neg else f32.round .ne neg (m * c) (e - 38 - t))

/-- RGAIN on a row of tri (R172, R516). -/
def gainRow (n : Nat) (r : TriRow) : TriRow × Bool :=
  let (c, t) := gainOf n
  let mul := fun f : Int => rneShift (f * c) 38
  if r.g = 0 then (r, false)
  else if t < r.g then settleRow (r.r.map mul) (mul r.y) (r.g - t)
  else
    let low := fun f : Int => mul f / 2 ^ (1 + t - r.g)
    settleRow (r.r.map low) (low r.y) 1

/-- RGAIN on tri (R286). -/
def gainTri (n : Nat) (t : Tri) : Tri :=
  let rs := t.rows.map (gainRow n)
  { t with rows := rs.map (·.1), range := t.range || rs.any (·.2) }

/-! ## Issue (R69, R70, R275) -/

/-- An RX operation as it issues: the owner's only; inside an occupation it raises the schedule fault, or holds when
the occupation is another team's (R70); one that would make 65 operations in flight raises it too (R507). -/
def rxOp (i : Instr) (eff : State → State) (s : State) : State :=
  if 0 < s.core.rxBusy ∧ s.core.rxTeam ≠ s.team.ref then holdSlot .rx s
  else ownerOp .rx i (fun s =>
    if 0 < s.core.rxBusy ∨ 64 ≤ arraysInFlight s then takeTrap .rx i 0x0018 0 s else eff s) s

/-- The RX engine is occupied for so many MX cycles (R69). -/
def occupyRx (n : Nat) (s : State) : State := s.onCore fun c => { c with rxBusy := n, rxTeam := s.team.ref }

/-- The state of tri that the next updating operation acts on (R275). -/
def Core.pendingTri (c : Core) : Tri := ((c.rxq.getLast?).map (·.tri)).getD c.tri

/-- The gain mode of bit 0: deferred. -/
def dfr (f : RxForm) : Bool := f.op.getLsbD 0

/-- The row that bits 3:0 name. -/
def rowOf (f : RxForm) : Nat := (f.op.extractLsb' 0 4).toNat

/-- n of RGAIN. -/
def gainN (f : RxForm) : Nat := (f.op.extractLsb' 0 6).toNat

/-- What an RX operation that updates tri makes of it, from its v source (R173, R275 to R287). -/
def rxUpdate : Instr → Option (VReg → Tri → Tri)
  | .rzero _ => some fun _ _ => Tri.zero
  | .rfeed f => some (feedTri (dfr f) (f.op.getLsbD 1))
  | .rfeedl f => some fun v t => feedTri (dfr f) (f.op.getLsbD 1) v (forgetTri (f.op.extractLsb' 4 4).toNat t)
  | .rreadSt f => some fun v t => rreadStore t (rowOf f) v
  | .rrhsSt _ => some fun v t => rrhsStore t v
  | .rgainTri f => some fun _ t => gainTri (gainN f) t
  | _ => none

/-- The operations that are feeds (R275). -/
def isFeed : Instr → Bool
  | .rfeed _ | .rfeedl _ => true
  | _ => false

/-- An updating RX operation of the acting team at its position, from its v source: it acts on the state that the earlier ones
leave (R275). -/
def newRx (i : Instr) (src : VReg) (rem age : Nat) (s : State) : RxOp × State :=
  let (id, s) := s.newId
  ({ id := id, team := s.team.ref, pos := s.team.passed .rx, word := trapWord i, src := src, issued := s.now,
     feed := isFeed i, rem := rem, age := age,
     tri := ((rxUpdate i).map fun u => u src s.core.pendingTri).getD s.core.pendingTri }, s)

/-- An updating RX operation joins those in flight. -/
def enqueueRx (o : RxOp) (s : State) : State := s.onCore fun c => { c with rxq := c.rxq ++ [o] }

/-- An RX operation that updates tri: after an earlier update that has not landed only a feed after feeds may issue
(R275, R507). Once the range flag has landed, and for values that may not enter, 0x0031 (R514, R515). -/
def triOp (i : Instr) (clears : Bool) (vals : State → List Nat) (src : State → VReg) (rem busy : Nat) (s : State) : State :=
  rxOp i (fun s =>
    let early := if isFeed i then s.core.rxq.any fun o => !o.feed else !s.core.rxq.isEmpty
    if early then takeTrap .rx i 0x0018 0 s
    else if entersBad (vals s) || (s.core.tri.range && !clears) then takeTrap .rx i 0x0031 0 s
    else
      let (o, s) := newRx i (src s) rem 0 s
      let s := if busy = 0 then s else occupyRx busy s
      passSlot .rx (enqueueRx o s)) s

/-- An RX operation whose result is a v-register (R104): values that may not enter raise 0x0031 (R514). -/
def rxResult (i : Instr) (vd : BitVec 6) (vals : State → List Nat) (src : State → VReg) (rem busy : Nat) (value : State → VReg)
    (s : State) : State :=
  rxOp i (fun s =>
    if s.team.flightFull 1 then takeTrap .rx i 0x0018 0 s
    else if entersBad (vals s) then takeTrap .rx i 0x0031 0 s
    else
      let x := value s
      issueFixed .rx i (src s) rem (.v vd (BitVec.allOnes 64) x) (if busy = 0 then s else occupyRx busy s)) s

/-- The source register of an RX word. -/
def rxSrc (f : RxForm) (s : State) : VReg := s.team.rv f.va

/-- RZERO (R287). -/
def execRzero (f : RxForm) (s : State) : Host.Outcome State Fault Refusal :=
  .next (triOp (.rzero f) true (fun _ => []) (fun _ => VReg.zero) 1 0 s)

/-- RFEED (R277). -/
def execRfeed (f : RxForm) (s : State) : Host.Outcome State Fault Refusal :=
  .next (triOp (.rfeed f) false (fun s => lanesFrom (rxSrc f s) 0 17) (rxSrc f) 40 4 s)

/-- RFEEDL (R173, R277). -/
def execRfeedl (f : RxForm) (s : State) : Host.Outcome State Fault Refusal :=
  .next (triOp (.rfeedl f) false (fun s => lanesFrom (rxSrc f s) 0 17) (rxSrc f) 44 4 s)

/-- RQAPP (R279): by the record of the last recording feed that issued before it. -/
def execRqapp (f : RxForm) (s : State) : Host.Outcome State Fault Refusal :=
  .next (rxResult (.rqapp f) f.vd (fun s => lanesFrom (rxSrc f s) 0 17) (rxSrc f) 40 4
    (fun s => rqappValue (dfr f) s.core.pendingTri (rxSrc f s)) s)

/-- RREAD with dir = 0 (R280). -/
def execRread (f : RxForm) (s : State) : Host.Outcome State Fault Refusal :=
  .next (rxResult (.rread f) f.vd (fun _ => []) (fun _ => VReg.zero) 6 0 (fun s => rreadValue s.core.tri (rowOf f)) s)

/-- RREAD with dir = 1 (R280). -/
def execRreadSt (f : RxForm) (s : State) : Host.Outcome State Fault Refusal :=
  .next (triOp (.rreadSt f) false (fun s => lanesFrom (rxSrc f s) (rowOf f) (17 - rowOf f)) (rxSrc f) 6 0 s)

/-- RRHS with dir = 0 (R281). -/
def execRrhs (f : RxForm) (s : State) : Host.Outcome State Fault Refusal :=
  .next (rxResult (.rrhs f) f.vd (fun _ => []) (fun _ => VReg.zero) 6 0 (fun s => rrhsValue s.core.tri) s)

/-- RRHS with dir = 1 (R281). -/
def execRrhsSt (f : RxForm) (s : State) : Host.Outcome State Fault Refusal :=
  .next (triOp (.rrhsSt f) false (fun s => lanesFrom (rxSrc f s) 0 16) (rxSrc f) 6 0 s)

/-- RSOLVE (R282): the range flag raises 0x0031, and a zero diagonal 0x0030 (R515, R517). -/
def execRsolve (f : RxForm) (s : State) : Host.Outcome State Fault Refusal :=
  .next (rxOp (.rsolve f) (fun s =>
    if s.team.flightFull 1 then takeTrap .rx (.rsolve f) 0x0018 0 s
    else if s.core.tri.range then takeTrap .rx (.rsolve f) 0x0031 0 s
    else if singular s.core.tri then takeTrap .rx (.rsolve f) 0x0030 0 s
    else issueFixed .rx (.rsolve f) VReg.zero 80 (.v f.vd (BitVec.allOnes 64) (rsolveValue s.core.tri)) (occupyRx 16 s)) s)

/-- k of RLAY. -/
def layK (f : RxForm) : Nat := (f.op.extractLsb' 5 3).toNat

/-- RLAY (R283). -/
def execRlay (f : RxForm) (s : State) : Host.Outcome State Fault Refusal :=
  .next (rxResult (.rlay f) f.vd (fun s => lanesFrom (rxSrc f s) 0 64) (rxSrc f) 24 0
    (fun s => rlayValue (dfr f) false (layK f) (rxSrc f s) (s.team.rv f.vb)) s)

/-- RLAYI (R283). -/
def execRlayi (f : RxForm) (s : State) : Host.Outcome State Fault Refusal :=
  .next (rxResult (.rlayi f) f.vd (fun s => lanesFrom (rxSrc f s) 0 64) (rxSrc f) 24 0
    (fun s => rlayValue (dfr f) true (layK f) (rxSrc f s) (s.team.rv f.vb)) s)

/-- RVEC (R284). -/
def execRvec (f : RxForm) (s : State) : Host.Outcome State Fault Refusal :=
  .next (rxResult (.rvec f) f.vd (fun s => lanesFrom (rxSrc f s) 0 64) (rxSrc f) 40 0 (fun s => rvecValue (rxSrc f s)) s)

/-- ANGC (R285). -/
def execAngc (f : RxForm) (s : State) : Host.Outcome State Fault Refusal :=
  .next (rxResult (.angc f) f.vd (fun _ => []) (rxSrc f) 8 0 (fun s => angcValue (f.op.getLsbD 0) (rxSrc f s)) s)

/-- RGAIN on a register (R286). -/
def execRgain (f : RxForm) (s : State) : Host.Outcome State Fault Refusal :=
  .next (rxResult (.rgain f) f.vd (fun _ => []) (rxSrc f) 12 0 (fun s => (rxSrc f s).map (gainLane (gainN f))) s)

/-- RGAIN on tri (R286). -/
def execRgainTri (f : RxForm) (s : State) : Host.Outcome State Fault Refusal :=
  .next (triOp (.rgainTri f) false (fun _ => []) (fun _ => VReg.zero) 12 0 s)

/-! ## Landing (R275) -/

/-- One MX cycle of the rotation array: occupations end, and updates of tri land in issue order. -/
def rotationCycle (s : State) : State :=
  let q := s.core.rxq.map fun o => { o with rem := o.rem - 1, age := o.age + 1 }
  let due := q.filter fun o => o.rem = 0
  let s := due.foldl (fun s o =>
    s.modTeam o.team (retire s.core .mx (some (64 * slotNum .rx + o.word.toNat / 2 ^ 26, 32)))) s
  s.onCore fun c => { c with rxBusy := c.rxBusy - 1, tri := ((due.getLast?).map (·.tri)).getD c.tri,
                             rxq := q.filter fun o => o.rem ≠ 0 }

end Sys2Proof.Machine
end

