-- ==== Sys2Proof/Machine/Copy.lean ====
section
/-! DEFINITION. The copy instructions of the DX slot and the copy engine (spec/10_copy_rings_weights.md R289 to R304;
spec/22_memory_engine_faults.md R530 to R535). A copy moves its bytes when its COPY_COMPLETE comes, a tensor copy one
granule with each CPYL_PROGRESS (log entry 4). -/

namespace Sys2Proof.Machine

/-! ## One access of the engine (R291, R355) -/

/-- Why a copy stops: a condition of R530, or what the home makes of a request (R536). -/
inductive EngineStop where
  | trap (cause va : Nat)
  | home (ipa : Nat) (k : AccKind) (v : Verdict)
  deriving DecidableEq, Repr

/-- The place of a range of an engine access, in one line: its IPA (R526, R530). -/
def enginePlace (s : State) (c : Copy) (k : AccKind) (sw : Bool) (va n : Nat) : Except EngineStop Nat :=
  match vaIpa s.hub.package c.team c.vwin.toList k va with
  | none => .error (.trap 0x0020 va)
  | some ipa =>
    match spotOf s.hub.package ipa, spotCause s (s.teamAt c.team) (spotOf s.hub.package ipa) n with
    | _, some cause => .error (.trap cause va)
    | .host iova, none =>
      if sw then .error (.trap 0x0020 va)
      else if (hostSpot s c.tenant iova).isNone then .error (.home ipa k (.kill 0x0330 (dbl ((functionOf s.hub c.tenant).getD 0))))
      else .ok ipa
    | .lm d l _, none => if migratingLm s c.team d l then .error (.home ipa k .wait) else .ok ipa
    | _, none => .ok ipa

/-- The path of an engine access (R9). -/
def enginePath (sw : Bool) : Path := if sw then .sw else .cp

/-- The pieces of a range by lines. -/
def linePieces (va n : Nat) : List (Nat × Nat) :=
  (linesOf va n).map fun line => (max va line, min (va + n) (line + 64) - max va line)

/-- A sideband. -/
abbrev Side := Option (Nat × List (Nat × Byte))

/-- The engine reads bytes of one line at an IPA, with the line's sideband where its place keeps one (R162, R291), which `side`
asks for. -/
def readAt (c : Copy) (sw side : Bool) (ipa n : Nat) (s : State) : Except EngineStop (List Byte × Side) × State :=
  match spotOf s.hub.package ipa with
  | .lm d l o => (.ok (lmBytes s d l o n, none), s)
  | .staging d x =>
    let cl := (s.teamAt c.team).cluster
    (.ok (stageBytes s d cl x n, SMap.get? (s.dieAt d).stageSide (stagingKey cl (lineOf x))), s)
  | .host iova => (.ok (s.mem.bytes ((hostSpot s c.tenant iova).getD 0) n, none), s)
  | _ =>
    let line := lineOf ipa
    let die := c.team.die
    let (v, s) := if l2Ready s die (s.teamAt c.team) line side then (none, s)
      else fillL2 die (s.teamAt c.team) (enginePath sw) line s
    match v with
    | some v => (.error (.home ipa .read v), s)
    | none =>
      let l := findLine (s.dieAt die).l2 c.tenant line
      (.ok (cachedBytes l (ipa - line) n s.free, l.bind (·.side)), roomL2 (some (c.team, enginePath sw)) die line s)

/-- Bytes that a copy reads, those that it has itself overwritten as they stood before (R292). -/
def Copy.recall (c : Copy) (ipa : Nat) (bs : List Byte) : List Byte :=
  (upFrom ipa bs.length).zipWith (fun a b => (SMap.get? c.kept a).getD b) bs

/-- The engine reads a piece of one line. -/
def readPiece (c : Copy) (sw side : Bool) (va n : Nat) (s : State) : Except EngineStop (List Byte × Side) × State :=
  match enginePlace s c .read sw va n with
  | .error e => (.error e, s)
  | .ok ipa =>
    match readAt c sw side ipa n s with
    | (.ok (bs, x), s) => (.ok (c.recall ipa bs, x), s)
    | (.error e, s) => (.error e, s)

/-- The engine reads a range. -/
def readPieces (c : Copy) (sw side : Bool) : List (Nat × Nat) → State → Except EngineStop (List Byte) × State
  | [], s => (.ok [], s)
  | (va, n) :: ps, s =>
    match readPiece c sw side va n s with
    | (.error e, s) => (.error e, s)
    | (.ok (bs, _), s) =>
      match readPieces c sw side ps s with
      | (.error e, s) => (.error e, s)
      | (.ok bs', s) => (.ok (bs ++ bs'), s)

/-- The engine reads `n` bytes from a VA. -/
def engineRead (c : Copy) (sw side : Bool) (va n : Nat) (s : State) : Except EngineStop (List Byte) × State :=
  readPieces c sw side (linePieces va n) s

/-- The engine writes a piece of one line: a write to a page that the home refuses stops it (R535). -/
def writePiece (c : Copy) (sw : Bool) (va : Nat) (bs : List Byte) (s : State) : Option EngineStop × State :=
  match enginePlace s c .write sw va bs.length with
  | .error e => (some e, s)
  | .ok ipa =>
    match spotOf s.hub.package ipa with
    | .lm d l o => (none, { s with mem := setLm s d l o bs })
    | .staging d x => (none, { s with mem := setStage s d (s.teamAt c.team).cluster x bs })
    | .host iova => (none, { s with mem := s.mem.setBytes ((hostSpot s c.tenant iova).getD 0) bs })
    | _ =>
      match lineCheck s c.tenant .write ipa with
      | .ok _ =>
        (none, roomL2 (some (c.team, enginePath sw)) c.team.die (lineOf ipa)
          (storeL2 c.team.die c.tenant (lineOf ipa) (lineBytes (ipa % 64) bs) s))
      | v => (some (.home ipa .write v), s)

/-- The engine writes the pieces of a range. -/
def writePieces (c : Copy) (sw : Bool) : List (Nat × Nat) → List Byte → State → Option EngineStop × State
  | [], _, s => (none, s)
  | (va, n) :: ps, bs, s =>
    match writePiece c sw va (bs.take n) s with
    | (some e, s) => (some e, s)
    | (none, s) => writePieces c sw ps (bs.drop n) s

/-- The engine writes bytes from a VA up. -/
def engineWrite (c : Copy) (sw : Bool) (va : Nat) (bs : List Byte) (s : State) : Option EngineStop × State :=
  writePieces c sw (linePieces va bs.length) bs s

/-! ## Deferred traps (R530) -/

/-- A deferred trap of a team: it is taken when the team is the issuing team and is not parked. -/
def deferTrap (r : TeamRef) (cause addr : Nat) (word : Word32) (s : State) : State :=
  s.next .deferredTrap { team := r, aux := cause, id := addr, w := word.setWidth 64 }

/-- The first deferred trap of the acting team is taken, if it may be now. -/
def takeDeferred (s : State) : State :=
  match s.team.deferred with
  | [] => s
  | (cause, addr, word) :: rest =>
    if s.core.issuing = some s.team.ref.rslot ∧ (s.team.park = .none ∨ s.team.park = .w) ∧ s.team.trap = none ∧
        s.team.handover = false then
      trapNow .dx cause addr word (s.onTeam fun t => { t with deferred := rest })
    else s

/-- DEFERRED_TRAP (R530). -/
def execDeferredTrap (s : State) : Host.Outcome State Fault Refusal :=
  let s := s.focus s.occ.team
  let d := (s.occ.aux, s.occ.id, s.occ.w.setWidth 32)
  .next (takeDeferred (if s.team.resident then s.onTeam fun t => { t with deferred := t.deferred ++ [d] } else s))

/-! ## Moves -/

/-- Where a unit of a copy goes. -/
inductive Dest where
  | va (a : Nat)
  | weight (off : Nat)
  deriving DecidableEq, Repr

/-- A unit of a copy, at most 64 bytes of it: its runs, each a source VA, a destination and a length. -/
abbrev Unit64 := List (Nat × Dest × Nat)

/-- A run that was read: its source, its destination, its bytes and the sidebands of its lines. -/
structure Run where
  src : Nat
  dst : Dest
  bytes : List Byte
  sides : List (Nat × Side)
  deriving DecidableEq, Repr

/-- Whether a destination keeps its source line's sideband (R291). -/
def keepsSide (s : State) (c : Copy) (d : Dest) : Bool :=
  match d with
  | .weight _ => true
  | .va a => match vaIpa s.hub.package c.team c.vwin.toList .write a with
    | none => false
    | some ipa => match spotOf s.hub.package ipa with
      | .staging _ _ => true
      | _ => false

/-- The pieces of a run are read, each with its line's sideband. -/
def readRun (c : Copy) (side : Bool) : List (Nat × Nat) → State → Except EngineStop (List Byte × List (Nat × Side)) × State
  | [], s => (.ok ([], []), s)
  | (va, n) :: ps, s =>
    match readPiece c false side va n s with
    | (.error e, s) => (.error e, s)
    | (.ok (bs, x), s) =>
      match readRun c side ps s with
      | (.error e, s) => (.error e, s)
      | (.ok (bs', xs), s) => (.ok (bs ++ bs', (lineOf va, if side then x else none) :: xs), s)

/-- A unit is read. -/
def readUnit (c : Copy) : Unit64 → State → Except EngineStop (List Run) × State
  | [], s => (.ok [], s)
  | (src, dst, n) :: rest, s =>
    match readRun c (keepsSide s c dst) (linePieces src n) s with
    | (.error e, s) => (.error e, s)
    | (.ok (bs, xs), s) =>
      match readUnit c rest s with
      | (.error e, s) => (.error e, s)
      | (.ok rs, s) => (.ok ({ src := src, dst := dst, bytes := bs, sides := xs } :: rs), s)

/-- Units are read in order until one stops. -/
def readUnits (c : Copy) : List Unit64 → State → List (List Run) × Option EngineStop × State
  | [], s => ([], none, s)
  | u :: us, s =>
    match readUnit c u s with
    | (.error e, s) => ([], some e, s)
    | (.ok r, s) =>
      let (rs, e, s) := readUnits c us s
      (r :: rs, e, s)

/-- A line's sideband put. -/
def setSideMap (m : SMap (Nat × List (Nat × Byte))) (k : Nat) (x : Side) : SMap (Nat × List (Nat × Byte)) :=
  match x with
  | none => SMap.remove m k
  | some v => SMap.insert m k v

/-- A range of one line written into the weight store: a whole line clears poison (R303, R539). -/
def writeWeight (die off : Nat) (bs : List Byte) (s : State) : State :=
  s.modDie die fun d => { d with weight := d.weight.setBytes off bs, weightPoison := d.weightPoison.filter (· ≠ off) }

/-! ## Overlap (R292) -/

/-- The IPA that a VA of a copy names, whatever the window allows. -/
def ipaOf (s : State) (c : Copy) (va : Nat) : Option Nat :=
  (vaIpa s.hub.package c.team c.vwin.toList .read va).orElse fun _ =>
    vaIpa s.hub.package c.team c.vwin.toList .write va

/-- The LM that a VA of a copy lies in. -/
def lmOf (s : State) (c : Copy) (va : Nat) : Option (Nat × Nat) :=
  match ipaOf s c va with
  | none => none
  | some ipa => match spotOf s.hub.package ipa with
    | .lm d l _ => some (d, l)
    | _ => none

/-- A destination byte that the source ranges cover too, of a copy whose ranges do not both lie in one core's LM. -/
def clobbers (s : State) (c : Copy) (covered : Nat → Bool) (va : Nat) : Bool := ((ipaOf s c va).map covered).getD false

/-- A range of VAs as ranges of the intermediate space. -/
def ipaPieces (s : State) (c : Copy) (va n : Nat) : List (Nat × Nat) :=
  (linePieces va n).filterMap fun (va, n) => (ipaOf s c va).map fun ipa => (ipa, n)

/-- The source bytes of units, as ranges of the intermediate space. -/
def sourceRanges (s : State) (c : Copy) (us : List Unit64) : List (Nat × Nat) :=
  us.flatMap fun u => u.flatMap fun (src, _, n) => ipaPieces s c src n

/-- An address lies in one of the ranges. -/
def inRanges (rs : List (Nat × Nat)) (a : Nat) : Bool := rs.any fun r => decide (r.1 ≤ a) && decide (a < r.1 + r.2)

/-- The destination bytes of units, as VAs. -/
def destBytes (us : List Unit64) : List Nat :=
  us.flatMap fun u => u.flatMap fun (_, dst, n) => match dst with
    | .va a => upFrom a n
    | .weight _ => []

/-- The source and the destination bytes of units have one in common. -/
def unitsOverlap (s : State) (c : Copy) (covered : Nat → Bool) (us : List Unit64) : Bool :=
  (destBytes us).any fun a => ((ipaOf s c a).map covered).getD false

/-- The bytes that a copy is about to overwrite and has still to read are kept as they stand. -/
def keepOld (covered : Nat → Bool) : List (Nat × Nat) → Copy → State → Option EngineStop × Copy × State
  | [], c, s => (none, c, s)
  | (va, n) :: ps, c, s =>
    if (upFrom va n).any (clobbers s c covered) then
      let ipa := (ipaOf s c va).getD 0
      match readAt c false false ipa n s with
      | (.error e, s) => (some e, c, s)
      | (.ok (bs, _), s) =>
        let kept := ((upFrom ipa n).zip bs).foldl (fun m x =>
          if (SMap.get? m x.1).isSome then m else SMap.insert m x.1 x.2) c.kept
        keepOld covered ps { c with kept := kept } s
    else keepOld covered ps c s

/-- A run is written; a byte that the source ranges cover takes an unspecified value, unless both ranges lie in one LM (R292);
log entry 3. -/
def writeRun (covered : Nat → Bool) (r : Run) (c : Copy) (s : State) : Option EngineStop × State :=
  match r.dst with
  | .weight off => (none, writeWeight c.team.die off r.bytes s)
  | .va a =>
    let bs := (upFrom a r.bytes.length).zipWith (fun x b =>
      if clobbers s c covered x then Config.freeByte s.free x else b) r.bytes
    engineWrite c false a bs s

/-- The runs of a unit are written. -/
def writeRuns (covered : Nat → Bool) (c : Copy) : List Run → State → Option EngineStop × State
  | [], s => (none, s)
  | r :: rs, s =>
    match writeRun covered r c s with
    | (some e, s) => (some e, s)
    | (none, s) => writeRuns covered c rs s

/-- The pieces that a unit writes. -/
def unitPieces (u : List Run) : List (Nat × Nat) :=
  u.flatMap fun r => match r.dst with
    | .va a => linePieces a r.bytes.length
    | .weight _ => []

/-- Why a piece of one line cannot be written, if it cannot. -/
def writeStop (s : State) (c : Copy) (x : Nat × Nat) : Option EngineStop :=
  match enginePlace s c .write false x.1 x.2 with
  | .error e => some e
  | .ok ipa => match spotOf s.hub.package ipa with
    | .lm _ _ _ | .staging _ _ | .host _ => none
    | _ => match lineCheck s c.tenant .write ipa with
      | .ok _ => none
      | v => some (.home ipa .write v)

/-- A unit is written whole or not at all (R535): each of its pieces has passed its check before the first is written. -/
def writeUnit (covered : Nat → Bool) (u : List Run) (c : Copy) (s : State) : Option EngineStop × Copy × State :=
  match (unitPieces u).findSome? (writeStop s c) with
  | some e => (some e, c, s)
  | none =>
    match keepOld covered (unitPieces u) c s with
    | (some e, c, s) => (some e, c, s)
    | (none, c, s) =>
      let (e, s) := writeRuns covered c u s
      (e, c, s)

/-- Units are written in order until one stops: how many were written. -/
def writeUnits (covered : Nat → Bool) : List (List Run) → Copy → State → Nat × Option EngineStop × Copy × State
  | [], c, s => (0, none, c, s)
  | u :: us, c, s =>
    match writeUnit covered u c s with
    | (some e, c, s) => (0, some e, c, s)
    | (none, c, s) =>
      let (n, e, c, s) := writeUnits covered us c s
      (n + 1, e, c, s)

/-! ### Sidebands of lines that are copied whole (R291, R302) -/

/-- Where byte `i` of a destination comes from: of two runs the later one stands (R295). -/
def sourceOf (us : List Unit64) (d : Dest) (i : Nat) : Option Nat :=
  (us.flatMap id).foldl (fun (b : Option Nat) (src, dst, n) =>
    match dst, d with
    | .va a, .va x => if a ≤ x + i ∧ x + i < a + n then some (src + (x + i - a)) else b
    | .weight a, .weight x => if a ≤ x + i ∧ x + i < a + n then some (src + (x + i - a)) else b
    | _, _ => b) none

/-- The aligned source line that units copy whole to an aligned destination line. -/
def wholeSource (us : List Unit64) (d : Dest) : Option Nat :=
  match sourceOf us d 0 with
  | none => none
  | some src => if src % 64 = 0 ∧ (List.range 64).all (fun i => sourceOf us d i = some (src + i)) then some src else none

/-- The destination lines of units. -/
def destLines (us : List Unit64) : List Dest :=
  (us.flatMap id).flatMap fun (_, dst, n) => match dst with
    | .va a => (linesOf a n).map .va
    | .weight a => (linesOf a n).map .weight

/-- The place of a line in staging that a VA names. -/
def stagingLine (s : State) (c : Copy) (va : Nat) : Option (Nat × Nat) :=
  match vaIpa s.hub.package c.team c.vwin.toList .write va with
  | none => none
  | some ipa => match spotOf s.hub.package ipa with
    | .staging d x => some (d, stagingKey (s.teamAt c.team).cluster x)
    | _ => none

/-- The sidebands of the lines that `all` units copy whole reach staging and the weight store with them, as the lines of the
runs `rs` are written. -/
def carrySides (c : Copy) (all now : List Unit64) (rs : List Run) (s : State) : State :=
  let sides := rs.flatMap (·.sides)
  (destLines now).foldl (fun s d =>
    match wholeSource all d with
    | none => s
    | some src =>
      let side : Side := ((sides.find? fun x => x.1 = src).map (·.2)).getD none
      match d with
      | .weight off => s.modDie c.team.die fun x => { x with weightSide := setSideMap x.weightSide off side }
      | .va a => match stagingLine s c a with
        | some (die, k) => s.modDie die fun x => { x with stageSide := setSideMap x.stageSide k side }
        | none => s) s

/-- Units are moved: every source byte is read before any destination byte is written (R292), and a fault leaves a
prefix of whole units (R535). `all` are the units that the copy has moved with these. -/
def moveUnits (covered : Nat → Bool) (all us : List Unit64) (c : Copy) (s : State) :
    Nat × Option EngineStop × Copy × State :=
  let (rs, e, s) := readUnits c us s
  let (n, e', c, s) := writeUnits covered rs c s
  let s := carrySides c all (us.take n) ((rs.take n).flatMap id) { s with free := s.free + 1 }
  (n, e'.orElse fun _ => e, c, s)

/-! ## The units of each copy -/

/-- The beats of CPY and CPY2 (R293). -/
def cpyUnits (dst src ds ss beats row : Nat) : List Unit64 :=
  (List.range beats).map fun b =>
    let at_ := fun base stride : Nat => (base + b / row * stride + 64 * (b % row)) % 2 ^ 64
    [(at_ src ss, .va (at_ dst ds), 64)]

/-- The slots of CPYR, in slot order, cut into lines (R300): each slot is one unit. -/
def cpyrUnits (lm src base lsz cnt slot0 n : Nat) : List Unit64 :=
  (List.range n).map fun i =>
    [(src + i * 2 ^ lsz, .va (lm + base + (slot0 + i) % (cnt + 1) * 2 ^ lsz), 2 ^ lsz)]

/-- The lines of WSLD (R303). -/
def wsldUnits (off src count : Nat) : List Unit64 :=
  (List.range (count / 64)).map fun i => [(src + 64 * i, .weight (off + 64 * i), 64)]

/-- The runs of `len` bytes of a tensor's sequence from `t` on (R295). -/
def tensorRuns (x : Tensor) : Nat → Nat → Nat → Unit64
  | 0, _, _ => []
  | fuel + 1, t, len =>
    if len = 0 then []
    else
      let n := fun i => nth x.n i 1
      let b := t % n 0
      let i1 := t / n 0 % n 1
      let i2 := t / (n 0 * n 1) % n 2
      let i3 := t / (n 0 * n 1 * n 2)
      let addr := fun (base : Nat) (st : List Int) =>
        (((base : Int) + b + i1 * nth st 0 0 + i2 * nth st 1 0 + i3 * nth st 2 0) % 2 ^ 64).toNat
      let l := min len (n 0 - b)
      (addr x.src x.ss, .va (addr x.dst x.ds), l) :: tensorRuns x fuel (t + l) (len - l)

/-- T. -/
def Tensor.total (x : Tensor) : Nat := x.n.foldl (· * ·) 1

/-- G. -/
def Tensor.granules (x : Tensor) : Nat := (x.total + 4095) / 4096

/-- The units of a granule. -/
def tensorUnits (x : Tensor) (g : Nat) : List Unit64 :=
  let len := min (4096 * (g + 1)) x.total - 4096 * g
  (List.range ((len + 63) / 64)).map fun u => tensorRuns x 64 (4096 * g + 64 * u) (min 64 (len - 64 * u))

/-- A VA is a source byte of a tensor copy (R292). -/
def Tensor.reads (x : Tensor) (va : Nat) : Bool :=
  let n := fun i => nth x.n i 1
  (List.range (n 3)).any fun i3 => (List.range (n 2)).any fun i2 => (List.range (n 1)).any fun i1 =>
    let a := (x.src : Int) + i1 * nth x.ss 0 0 + i2 * nth x.ss 1 0 + i3 * nth x.ss 2 0
    decide (a ≤ va) && decide ((va : Int) < a + n 0)

/-- The VAs of a copy that name an IPA. -/
def vasOf (s : State) (c : Copy) (ipa : Nat) : List Nat :=
  let own := lmIpa s.hub.package c.team.die c.team.lcore 0
  ((if own ≤ ipa ∧ ipa < own + 2 ^ 21 then [localView + (ipa - own)] else []) ++
    c.vwin.toList.filterMap fun w =>
      if w.getLsbD 63 && !winReserved w && decide (winIpa w ≤ ipa) && decide (ipa < winIpa w + winSize w) then
        some (winVa w + (ipa - winIpa w)) else none).filter fun va => ipaOf s c va = some ipa

/-- A byte of the intermediate space is a source byte of a tensor copy. -/
def Tensor.covers (x : Tensor) (s : State) (c : Copy) (ipa : Nat) : Bool := (vasOf s c ipa).any x.reads

/-- Every unit of a tensor copy. -/
def Tensor.units (x : Tensor) : List Unit64 := (List.range x.granules).flatMap (tensorUnits x)

/-- The ranges of a tensor copy overlap. -/
def Tensor.meets (x : Tensor) (s : State) (c : Copy) : Bool := unitsOverlap s c (x.covers s c) x.units

/-- Every byte of every unit, of both sides, lies in an LM that a test picks. -/
def unitsIn (s : State) (c : Copy) (p : Nat × Nat → Bool) (us : List Unit64) : Bool :=
  us.all fun u => u.all fun (src, dst, n) =>
    ((lmOf s c src).map p).getD false && ((lmOf s c (src + n - 1)).map p).getD false && (match dst with
      | .va a => ((lmOf s c a).map p).getD false && ((lmOf s c (a + n - 1)).map p).getD false
      | .weight _ => false)

/-- Both ranges of a copy lie in one core's LM. -/
def unitsInOneLm (s : State) (c : Copy) (us : List Unit64) : Bool :=
  match us with
  | ((src, _, _) :: _) :: _ => unitsIn s c (fun x => lmOf s c src = some x) us
  | _ => false

/-- Both ranges of a copy lie in the core's own LM. -/
def unitsInOwnLm (s : State) (c : Copy) (us : List Unit64) : Bool :=
  unitsIn s c (fun x => x = (c.team.die, c.team.lcore)) us

/-- The units of a gather, its indices read first (R297): those before a stop, and the stop. -/
def gatherUnits (c : Copy) (dst base list e : Nat) : List Nat → State → List Unit64 × Option EngineStop × State
  | [], s => ([], none, s)
  | i :: is, s =>
    match engineRead c false false (list + 4 * i) 4 s with
    | (.error x, s) => ([], some x, s)
    | (.ok bs, s) =>
      let x := (BitVec.ofNat 32 (leNat bs)).toInt
      let src := (((base : Int) + x * 2 ^ e) % 2 ^ 64).toNat
      let (us, x, s) := gatherUnits c dst base list e is s
      ([(src, .va (dst + i * 2 ^ e), 2 ^ e)] :: us, x, s)

/-- The units of a copy as the engine finds them. -/
def copyUnits (c : Copy) (s : State) : List Unit64 × Option EngineStop × State :=
  match c.kind with
  | .cpy dst src ds ss beats row => (cpyUnits dst src ds ss beats row, none, s)
  | .cpyg dst base list count e => gatherUnits c dst base list e (List.range count) s
  | .cpyr _ src base lsz cnt slot0 n => (cpyrUnits localView src base lsz cnt slot0 n, none, s)
  | .wsld off src count => (wsldUnits off src count, none, s)
  | _ => ([], none, s)

/-! ## Issue (R69, R70, R289) -/

/-- A DX operation as it issues: inside an occupation it raises the schedule fault, or holds when the occupation is
another team's; with 16 copies in the queue it holds (R71). -/
def dxOp (i : Instr) (owner : Bool) (entry : Bool) (eff : State → State) (s : State) : State :=
  if 0 < s.core.dxBusy ∧ s.core.dxTeam ≠ s.team.ref then holdSlot .dx s
  else
    let go := fun s : State =>
      if 0 < s.core.dxBusy then takeTrap .dx i 0x0018 0 s
      else if entry && decide (16 ≤ s.core.copies.length) then holdSlot .dx s
      else eff s
    if owner then ownerOp .dx i go s else slotOp .dx i go s

/-- The writes of a copy or sweep operation that are still to be acknowledged: one for each 64-byte line of its destination,
and a CPYL's progress and done writes (R184, R289); what counts as one write is DESIGN CHOICE, log entry 22. A TIDE's are
counted as its chunks commit. -/
def Copy.writesLeft (c : Copy) : Nat :=
  match c.kind with
  | .cpy _ _ _ _ beats _ => beats - c.moved
  | .cpyl _ => match c.tensor with
    | none => 1
    | some x => (x.total - 4096 * x.next + 63) / 64 + (x.granules - x.next) + 1
  | .cpyg _ _ _ count _ => count - c.moved
  | .cpyr _ _ _ lsz _ _ n => (n - c.moved) * ((2 ^ lsz + 63) / 64)
  | .wsld _ _ count => count / 64 - c.moved
  | .shoal _ _ | .tide _ _ _ _ => 0
  | _ => 1

/-- An entry changed in its core's copy queue, its count in RELC with it. -/
def putCopy (c : Copy) (s : State) : State :=
  let s := s.modCore c.team.die (s.coreOf c.team) fun k =>
    { k with copies := modWhere (fun x => x.id = c.id) (fun _ => c) k.copies }
  reachWrite c.team c.wid (fun w => { w with count := c.writesLeft }) s

/-- An operation takes an entry of the copy queue and passes its position; its writes count in RELC from here on. -/
def enqueueCopy (i : Instr) (kind : CopyKind) (s : State) : Copy × State :=
  let (id, s) := s.newId
  let c : Copy := { id := id, team := s.team.ref, tenant := s.team.tenant, pos := s.team.passed .dx,
                    word := trapWord i, vwin := s.team.vwin, kind := kind, tensor := none, wid := none, held := false,
                    sent := false, beats := none, exact := false, moved := 0, kept := [] }
  let (c, s) :=
    if c.writesLeft = 0 then (c, s)
    else
      let (w, s) := addWrite s.team.ref { PendingWrite.new (enginePath kind.isSweep) with count := c.writesLeft } s
      ({ c with wid := some w }, s)
  let s := s.onCore fun k => { k with copies := k.copies ++ [c] }
  (c, issueLater .dx i [] s)

/-- The DX cycles of a copy of `n` beats, and whether it completes with the last of them: one beat each cycle, or every second
one when its ranges overlap in one core's LM; within the core's own LM it completes 4 cycles later, and otherwise after a time
that the spec does not state (R79, R292). -/
def copyBeats (s : State) (c : Copy) (us : List Unit64) (n : Nat) : Nat × Bool :=
  let meets := unitsInOneLm s c us && unitsOverlap s c (inRanges (sourceRanges s c us)) us
  let own := unitsInOwnLm s c us
  ((if meets then 2 * n else n) + (if own then 4 else 0), own)

/-- A copy's beats start to run. -/
def scheduleCopy (c : Copy) (us : List Unit64) (n : Nat) (s : State) : State :=
  let (b, own) := copyBeats s c us n
  putCopy { c with beats := some b, exact := own } s

/-- The element width that the energy table is asked with: CPYG's elements, the 32-bit words of the sweep operations, and the
bytes of the other copies (R441, log entry 9). -/
def CopyKind.width : CopyKind → Nat
  | .cpyg _ _ _ _ e => 8 * 2 ^ e
  | k => if k.isSweep then 32 else 8

/-- An entry leaves the copy queue, its writes acknowledged and its energy counted (R289, R441). -/
def endCopy (c : Copy) (s : State) : State :=
  let s := s.modCore c.team.die (s.coreOf c.team) fun k => { k with copies := k.copies.filter fun x => x.id ≠ c.id }
  let e := some (64 * slotNum .dx + c.word.toNat / 2 ^ 26, c.kind.width)
  s.modTeam c.team fun t =>
    retire (s.coreAt c.team.die (s.coreOf c.team)) .dx e { t with writes := t.writes.filter fun w => some w.id ≠ c.wid }

/-- A copy stops at a fault (R530, R536, R538): a condition of R530 ends it with a deferred trap, a kill discards it,
and a hold or a wait tries it again. -/
def stopEngine (c : Copy) (e : EngineStop) (i : Instr) (s : State) : State :=
  match e with
  | .trap cause va => deferTrap c.team cause va c.word (endCopy c s)
  | .home ipa k v =>
    let s := if v = .hold then putCopy { c with held := true } s else s
    stopped c.tenant ipa k v i s.occ s

/-- The DX engine is occupied for so many DX cycles (R69). -/
def occupyDx (n : Nat) (s : State) : State := s.onCore fun c => { c with dxBusy := n, dxTeam := s.team.ref }

/-- The fields of a DX word. -/
def dxLow (f : DxForm) : Nat := (f.f.extractLsb' 0 8).toNat
@[inherit_doc dxLow] def dxRow (f : DxForm) : Nat := (f.f.extractLsb' 8 4).toNat
@[inherit_doc dxLow] def dxE (f : DxForm) : Nat := (f.f.extractLsb' 9 3).toNat
@[inherit_doc dxLow] def dxBase (f : DxForm) : BitVec 4 := f.f.extractLsb' 5 4
@[inherit_doc dxLow] def dxH (f : DxForm) : Nat := (f.f.extractLsb' 10 2).toNat

/-- A beat-counted copy issues (R293). -/
def beatCopy (i : Instr) (kind : Team → CopyKind) (n : Nat) (s : State) : State :=
  dxOp i false true (fun s =>
    let (c, s) := enqueueCopy i (kind s.team) s
    let us := match c.kind with
      | .cpy dst src ds ss beats row => cpyUnits dst src ds ss beats row
      | _ => []
    occupyDx n (scheduleCopy c us n s)) s

/-- CPY (R293). -/
def execCpy (f : DxForm) (s : State) : Host.Outcome State Fault Refusal :=
  .next (beatCopy (.cpy f) (fun t => .cpy (t.ra f.aD).toNat (t.ra f.aS).toNat 0 0 (dxLow f) (dxLow f)) (dxLow f) s)

/-- CPY2 (R293). -/
def execCpy2 (f : DxForm) (s : State) : Host.Outcome State Fault Refusal :=
  .next (beatCopy (.cpy2 f) (fun t =>
    .cpy (t.ra f.aD).toNat (t.ra f.aS).toNat (t.rd f.aD).toNat (t.rd f.aS).toNat (dxLow f) (dxRow f)) (dxLow f) s)

/-- CPYG and WSLD: a count of 0 moves nothing and completes at once (R297, R303). -/
def countedCopy (i : Instr) (owner : Bool) (cr : BitVec 6) (kind : Team → CopyKind)
    (start : Copy → State → State) (s : State) : State :=
  dxOp i owner true (fun s =>
    if field (s.team.rs cr) 31 0 = 0 then issue .dx i 8 [] s
    else
      let (c, s) := enqueueCopy i (kind s.team) s
      start c s) s

/-- A gather whose index list lies in the core's own LM has its units at its issue; of any other the time is open (R79). -/
def gatherKnown (s : State) (c : Copy) : Option (List Unit64) :=
  match c.kind with
  | .cpyg _ _ list count _ =>
    if (linePieces list (4 * count)).all fun (va, _) => lmOf s c va = some (c.team.die, c.team.lcore) then
      match copyUnits c s with
      | (us, none, _) => some us
      | _ => none
    else none
  | _ => none

/-- The addresses at which the ranges of a copy start, the destination's first. -/
def Copy.bases (c : Copy) : List Nat :=
  match c.kind with
  | .cpy dst src _ _ _ _ => [dst, src]
  | .cpyl desc => match c.tensor with
    | some x => [x.dst, x.src]
    | none => [desc]
  | .cpyg dst base list _ _ => [dst, base, list]
  | .cpyr _ src _ _ _ _ _ => [src]
  | .wsld _ src _ => [src]
  | _ => []

/-- The place that a copy reaches over the links: another package's where a range lies there (R456), and otherwise that of a
range outside its die. -/
def copyHome (s : State) (c : Copy) : Nat :=
  let xs := c.bases.filterMap (ipaOf s c)
  let away := fun ipa => match spotOf s.hub.package ipa with
    | .lm d _ _ | .staging d _ => decide (d ≠ c.team.die)
    | _ => true
  ((xs.find? fun x => x / 2 ^ 46 ≠ s.hub.package).orElse fun _ => xs.find? away).getD (s.hub.package * 2 ^ 46)

/-- A copy whose time is open completes over its die's socket and the links beyond it (R79, R456, R458): its payload is the
lines that it still writes. -/
def leaveCopy (i : Instr) (c : Copy) (s : State) : State :=
  toHome c.team.die c.tenant (copyHome s c) (64 * c.writesLeft) i { team := c.team, id := c.id } s

/-- CPYG (R297). -/
def execCpyg (f : DxForm) (s : State) : Host.Outcome State Fault Refusal :=
  .next (countedCopy (.cpyg f) false f.cr (fun t => .cpyg (t.ra f.aD).toNat (t.ra (dxBase f)).toNat (t.ra f.aS).toNat
    (field (t.rs f.cr) 31 0) (dxE f))
    (fun c s => match gatherKnown s c with
      | some us => scheduleCopy c us ((us.length * 2 ^ dxE f + 63) / 64) s
      | none => leaveCopy .copyComplete c s) s)

/-- WSLD (R303). -/
def execWsld (f : DxForm) (s : State) : Host.Outcome State Fault Refusal :=
  .next (countedCopy (.wsld f) true f.cr (fun t => .wsld (t.ra f.aD).toNat (t.ra f.aS).toNat (field (t.rs f.cr) 31 0))
    (leaveCopy .copyComplete) s)

/-- CPYR (R300, R532): an unbound ring, or more slots than the ring has, raises 0x0018; it holds while too few slots
are free, and takes its slots at issue. -/
def execCpyr (f : DxForm) (s : State) : Host.Outcome State Fault Refusal :=
  .next (dxOp (.cpyr f) false true (fun s =>
    let n := dxLow f
    match ringView s (dxE f) with
    | none => takeTrap .dx (.cpyr f) 0x0018 0 s
    | some r =>
      if r.cnt + 1 < n then takeTrap .dx (.cpyr f) 0x0018 0 s
      else if r.free < n then holdSlot .dx s
      else
        let src := (s.team.ra f.aS).toNat
        let s := setRing { r with tail := r.advance r.tail n, free := r.free - n } s
        let (c, s) := enqueueCopy (.cpyr f) (.cpyr (dxE f) src r.base r.lsz r.cnt r.tail n) s
        let s := s.onCore fun k => { k with fills := k.fills ++ [{ ring := dxE f, copy := some c.id, n := n }] }
        scheduleCopy c (cpyrUnits localView src r.base r.lsz r.cnt r.tail n) ((n * 2 ^ r.lsz + 63) / 64) s) s)

/-- A range lies in the acting team's own LM grant. -/
def ownGrant (t : Team) (o n : Nat) : Bool :=
  decide (field t.lmg 8 0 * 4096 ≤ o) && decide (o + n ≤ (field t.lmg 8 0 + field t.lmg 21 12) * 4096)

/-- The first byte of a range of the LM that lies outside the acting team's own grant. -/
def firstOutside (t : Team) (o : Nat) : Nat :=
  if ownGrant t o 1 then (field t.lmg 8 0 + field t.lmg 21 12) * 4096 else o

/-- The layout of the ring that a RINIT descriptor gives, or the cause and address of its fault (R298, R530): the engine reads
the descriptor and writes it. -/
def ringDescriptor (s : State) (va : Nat) : Except (Nat × Nat) RingBind :=
  if va % 32 ≠ 0 then .error (0x0020, va)
  else match vaIpa s.hub.package s.team.ref s.team.windows .atomic va with
    | none => .error (0x0020, va)
    | some ipa => match spotOf s.hub.package ipa with
      | .lm d l o =>
        if d = s.team.ref.die ∧ l = s.team.ref.lcore ∧ ownGrant s.team o 32 then
          let b := doubleAt (ownLm s o 8) 0
          let r : RingBind := { off := o, cnt := field b 43 32, lsz := field b 27 24, base := field b 20 0 }
          if r.lsz < 3 ∨ 12 < r.lsz ∨ r.base % 2 ^ r.lsz ≠ 0 then .error (0x0011, va)
          else if ownGrant s.team r.base ((r.cnt + 1) * 2 ^ r.lsz) then .ok r
          else .error (0x0021, firstOutside s.team r.base + localView)
        else .error (0x0021, va)
      | _ => .error (0x0021, va)

/-- RINIT (R298, R299): its fault is a deferred trap, and leaves the ring unbound. Slots that a stopped CPYR never wrote stand
in the way no longer (log entry 24), and slots written by then count under the new counters (R532). -/
def execRinit (f : DxForm) (s : State) : Host.Outcome State Fault Refusal :=
  .next (dxOp (.rinit f) true true (fun s =>
    let va := (s.team.ra f.aS).toNat
    let k := dxE f
    match ringDescriptor s va with
    | .error (cause, addr) =>
      let s := s.onCore fun c => { c with rings := vput c.rings k none }
      deferTrap s.team.ref cause addr (trapWord (.rinit f)) (issue .dx (.rinit f) 8 [] s)
    | .ok r =>
      let s := s.onCore fun c =>
        { c with rings := vput c.rings k (some r),
                 fills := c.fills.filter fun x =>
                   decide (x.ring ≠ k) || x.copy.all fun i => c.copies.any fun y => y.id = i }
      let s := setOwnLm s (r.off + 8) (natBytes 4 0 ++ natBytes 4 0 ++ natBytes 4 0 ++ natBytes 4 (r.cnt + 1))
      issue .dx (.rinit f) 8 [] (popFills s.team.ref k s.core.fills.length s)) s)

/-! ## CPYL (R294 to R296) -/

/-- A signed field of a descriptor. -/
def intAt (bs : List Byte) (off : Nat) : Int := (doubleAt bs off).toInt

/-- A tensor descriptor from its 96 bytes, or none when a value is reserved (R530). -/
def tensorOf (bs : List Byte) : Option Tensor :=
  let x : Tensor := { src := (doubleAt bs 0).toNat, dst := (doubleAt bs 8).toNat,
                      n := [numAt bs 16 4, numAt bs 20 4, numAt bs 24 4, numAt bs 28 4],
                      ss := [intAt bs 32, intAt bs 40, intAt bs 48], ds := [intAt bs 56, intAt bs 64, intAt bs 72],
                      next := field (doubleAt bs 80) 32 0 }
  if x.n.any (· = 0) ∨ 2 ^ 44 < x.total ∨ field (doubleAt bs 80) 63 33 ≠ 0 ∨ field (doubleAt bs 88) 63 1 ≠ 0 then none
  else some x

/-- The engine reads a CPYL descriptor. -/
def readTensor (c : Copy) (desc : Nat) (s : State) : Except EngineStop Tensor × State :=
  if desc % 64 ≠ 0 then (.error (.trap 0x0020 desc), s)
  else match engineRead c false false desc 96 s with
    | (.error e, s) => (.error e, s)
    | (.ok bs, s) => match tensorOf bs with
      | some x => (.ok x, s)
      | none => (.error (.trap 0x0011 desc), s)

/-- The next step of a tensor copy: a granule's beats, or all that remain when its ranges overlap in one LM, and then its last
writes; within the core's own LM its copy ends with them, and otherwise after a time that the spec does not state (R292). -/
def scheduleTensor (c : Copy) (x : Tensor) (s : State) : State :=
  let own := unitsInOwnLm s c x.units
  let n :=
    if x.granules ≤ x.next then 4
    else if unitsInOneLm s c x.units && x.meets s c then 2 * ((x.total - 4096 * x.next + 63) / 64)
    else (min (4096 * (x.next + 1)) x.total - 4096 * x.next + 63) / 64
  putCopy { c with tensor := some x, beats := some n, exact := own } s

/-- The IPA of a byte of a die's weight store (R302, R357). -/
def weightIpa (pkg d off : Nat) : Nat := pkg * 2 ^ 46 + dieRegion d + 0x40000000 + off

/-- Two lists of ranges share a byte. -/
def rangesMeet (xs ys : List (Nat × Nat)) : Bool :=
  xs.any fun x => ys.any fun y => decide (x.1 < y.1 + y.2) && decide (y.1 < x.1 + x.2)

/-- The bytes that a copy reads and those that it writes, as ranges of the intermediate space: a CPYL's descriptor is among
them, and of a CPYG the index list alone is read here. What the engine cannot tell before the copy starts has no ranges (R290). -/
def plainRanges (s : State) (c : Copy) : Option (List (Nat × Nat) × List (Nat × Nat)) :=
  let ranges := fun us : List Unit64 =>
    (sourceRanges s c us, us.flatMap fun u => u.flatMap fun (_, dst, n) => match dst with
      | .va a => ipaPieces s c a n
      | .weight off => [(weightIpa s.hub.package c.team.die off, n)])
  match c.kind with
  | .cpyl desc =>
    let rd := ipaPieces s c desc 96
    let wr := ipaPieces s c (desc + 80) 16
    c.tensor.map fun x =>
      let row := fun (base : Nat) (st : List Int) (i1 i2 i3 : Nat) =>
        (((base : Int) + i1 * nth st 0 0 + i2 * nth st 1 0 + i3 * nth st 2 0) % 2 ^ 64).toNat
      let rows := fun (base : Nat) (st : List Int) =>
        (List.range (nth x.n 3 1)).flatMap fun i3 => (List.range (nth x.n 2 1)).flatMap fun i2 =>
          (List.range (nth x.n 1 1)).flatMap fun i1 => ipaPieces s c (row base st i1 i2 i3) (nth x.n 0 1)
      (rd ++ rows x.src x.ss, wr ++ rows x.dst x.ds)
  | .cpyg dst _ list count e => some (ipaPieces s c list (4 * count), ipaPieces s c dst (count * 2 ^ e))
  | _ => some (ranges (copyUnits c s).1)

/-- An earlier copy of the core that has not completed may write bytes of these ranges. -/
def maybeWritten (s : State) (c : Copy) (rs : List (Nat × Nat)) : Bool :=
  (s.coreAt c.team.die (s.coreOf c.team)).copies.any fun x =>
    decide (x.id < c.id) && !x.kind.isSweep && (match plainRanges s x with
      | some (_, w) => rangesMeet w rs
      | none => true)

/-- The ranges of a copy, a CPYG's sources among them once nothing before it may still write its index list (R290). -/
def copyRanges (s : State) (c : Copy) : Option (List (Nat × Nat) × List (Nat × Nat)) :=
  match c.kind, plainRanges s c with
  | .cpyg _ _ _ _ _, some (r, w) =>
    if maybeWritten s c r then none
    else match copyUnits c s with
      | (us, none, _) => some (r ++ sourceRanges s c us, w)
      | _ => none
  | _, x => x

/-- Reads and writes of one copy and those of another touch a common byte, and one of the two writes it; a copy whose ranges
are not known may touch any (R290); log entry 25. -/
def rangesClash (a b : Option (List (Nat × Nat) × List (Nat × Nat))) : Bool :=
  match a, b with
  | some (r, w), some (r', w') => rangesMeet w w' || rangesMeet w r' || rangesMeet r w'
  | _, _ => true

/-- An earlier copy of the core has not completed, and touches bytes of these ranges of a copy (R290). -/
def behindRanges (s : State) (c : Copy) (mine : Option (List (Nat × Nat) × List (Nat × Nat))) : Bool :=
  (s.coreAt c.team.die (s.coreOf c.team)).copies.any fun x =>
    decide (x.id < c.id) && !x.kind.isSweep && rangesClash mine (copyRanges s x)

/-- An earlier copy of the core that touches bytes of this one has not completed (R290). -/
def behindCopy (s : State) (c : Copy) : Bool := behindRanges s c (copyRanges s c)

/-- An earlier copy of the core that touches the descriptor of this CPYL has not completed (R290). -/
def behindDescriptor (s : State) (c : Copy) (desc : Nat) : Bool :=
  behindRanges s c (some (ipaPieces s c desc 96, ipaPieces s c (desc + 80) 16))

/-- CPYL (R294, R295): the engine reads the descriptor at issue, unless a copy before it may write there (R290). -/
def execCpyl (f : DxForm) (s : State) : Host.Outcome State Fault Refusal :=
  .next (dxOp (.cpyl f) false true (fun s =>
    let desc := (s.team.ra f.aS).toNat
    let (c, s) := enqueueCopy (.cpyl f) (.cpyl desc) s
    let later := fun s : State => s.later .cpylProgress { team := c.team, id := c.id }
    if behindDescriptor s c desc then later s
    else match readTensor c desc s with
      | (.ok x, s) => scheduleTensor c x s
      | (.error (.trap cause va), s) => stopEngine c (.trap cause va) .cpylProgress s
      | (.error _, s) => later s) s)

/-! ## Moving (COPY_COMPLETE, CPYL_PROGRESS) -/

/-- A misaligned address or stride of a copy, or a range beyond the weight store: its cause and address (R530). The address of
a misaligned stride or count is its value (DESIGN CHOICE, log entry 23). -/
def copyFault (k : CopyKind) : Option (Nat × Nat) :=
  let mis := fun n (l : List Nat) => (l.find? fun a => a % n ≠ 0).map fun a => (0x0020, a)
  match k with
  | .cpy dst src ds ss _ _ => mis 64 [src, dst, ss, ds]
  | .cpyg dst base list count e => if count = 0 then none else (mis 4 [list]).orElse fun _ => mis (2 ^ e) [base, dst]
  | .wsld off src count =>
    if count = 0 then none
    else (mis 64 [off, src, count]).orElse fun _ => if 2 ^ 30 < off + count then some (0x0020, off) else none
  | _ => none

/-- A WSLD waits for the refresh window of a bank group that it writes (R303). -/
def wsldWaits (s : State) (k : CopyKind) : Bool :=
  match k, s.hub.refreshing with
  | .wsld off _ count, some g => decide (0 < count) && decide (off / 2 ^ 27 ≤ g) && decide (g ≤ (off + count - 1) / 2 ^ 27)
  | _, _ => false

/-- The slots that a CPYR has written are counted (R300). -/
def fillCopied (c : Copy) (m : Nat) (s : State) : State :=
  match c.kind with
  | .cpyr _ _ _ _ _ _ _ => fillWritten c.team c.id m s
  | _ => s

/-- A copy moves the units that it has still to move and completes, or stops after some of them (R292, R530, R535). -/
def completeCopy (c : Copy) (s : State) : State :=
  match copyFault c.kind with
  | some (cause, va) => stopEngine c (.trap cause va) .copyComplete s
  | none =>
    if behindCopy s c || wsldWaits s c.kind then s.after 2 .copyComplete s.occ
    else
      let (us, e, s) := copyUnits c s
      let covered := if unitsInOneLm s c us then fun _ => false else inRanges (sourceRanges s c us)
      let (n, e', c, s) := moveUnits covered us (us.drop c.moved) c s
      let c := { c with moved := c.moved + n }
      let s := fillCopied c n (putCopy c s)
      match e'.orElse fun _ => e with
      | some x => stopEngine c x .copyComplete s
      | none => endCopy c s

/-- The copy-queue entry that an event names, its core in the foreground. -/
def eventCopy (s : State) : Option Copy := s.core.copies.find? fun c => c.id = s.occ.id

/-- CPYL's last writes: ctl.done := 1, and the copy completes (R295). -/
def endTensor (c : Copy) (desc : Nat) (s : State) : State :=
  match engineWrite c false (desc + 88) (natBytes 8 1) s with
  | (some e, s) => stopEngine c e .cpylProgress s
  | (none, s) => endCopy c s

/-- One granule of a tensor copy, or all that remain when its ranges overlap in one LM, and its progress, a release at .die:
every write before it is in the die's L2 or beyond (R292, R296). -/
def moveGranule (c : Copy) (desc : Nat) (x : Tensor) (s : State) : State :=
  let meets := x.meets s c
  let all := meets && unitsInOneLm s c x.units
  let next := if all then x.granules else x.next + 1
  let covered := if meets && !all then x.covers s c else fun _ => false
  let now := (upFrom x.next (next - x.next)).flatMap (tensorUnits x)
  let whole := (List.range next).flatMap (tensorUnits x)
  let (_, e, c, s) := moveUnits covered whole now c s
  let s := putCopy c s
  match e with
  | some e => stopEngine c e .cpylProgress s
  | none =>
    match engineWrite c false (desc + 80) (natBytes 8 next) s with
    | (some e, s) => stopEngine c e .cpylProgress s
    | (none, s) => scheduleTensor c { x with next := next } s

/-- A tensor copy goes on: the descriptor if it has not been read, a granule, or its end. -/
def progressTensor (c : Copy) (desc : Nat) (s : State) : State :=
  match c.tensor with
  | none =>
    if behindDescriptor s c desc then s.after 2 .cpylProgress s.occ
    else match readTensor c desc s with
      | (.ok x, s) => scheduleTensor c x s
      | (.error e, s) => stopEngine c e .cpylProgress s
  | some x =>
    if behindCopy s c then s.after 2 .cpylProgress s.occ
    else if x.granules ≤ x.next then endTensor c desc s
    else moveGranule c desc x s

/-- CPYL_PROGRESS (R296): in a stall bundle it waits at the core (R100). -/
def execCpylProgress (s : State) : Host.Outcome State Fault Refusal :=
  let s := s.focus s.occ.team
  .next (match eventCopy s with
    | none => s
    | some c => if coreStalled s c.team then s.after 1 .cpylProgress s.occ else match c.kind with
      | .cpyl desc => progressTensor { c with held := false } desc (putCopy { c with held := false } s)
      | _ => s)

end Sys2Proof.Machine
end

