-- ==== Sys2Proof/Machine/Context.lean ====
section
/-! DEFINITION. Shoals, the sweep operations of the DX slot, context code and tides (spec/11_shoals_tides.md R308 to
R341; spec/21_instruction_faults.md R518 to R521, spec/22_memory_engine_faults.md R530, R531). A context instruction
acts on the lanes of the group that the sweep engine has picked for the VX cycle (`Sweep.lanes`). -/

namespace Sys2Proof.Machine

/-! ## The shoal in local memory (R308, R313) -/

/-- n. -/
def Shoal.n (h : Shoal) : Nat := field h.cfg 15 0 + 1
/-- C. -/
def Shoal.chunks (h : Shoal) : Nat := (h.n + 63) / 64
/-- S. -/
def Shoal.sums (h : Shoal) : Nat := (h.chunks + 63) / 64
/-- The elements are f32. -/
def Shoal.isF32 (h : Shoal) : Bool := h.cfg.getLsbD 16
/-- J mode. -/
def Shoal.isJ (h : Shoal) : Bool := h.cfg.getLsbD 17
/-- The 2-D neighbour rule. -/
def Shoal.is2D (h : Shoal) : Bool := h.cfg.getLsbD 18
/-- L. -/
def Shoal.rowLen (h : Shoal) : Nat := field h.cfg 39 24 + 1
/-- clen. -/
def Shoal.clen (h : Shoal) : Nat := field h.cfg 51 40
/-- wentry. -/
def Shoal.wentry (h : Shoal) : Nat := field h.cfg 63 52

/-- The size of the region (R309). -/
def Shoal.size (h : Shoal) : Nat := 24 * (64 * h.chunks) + 8 * h.chunks + 16 * h.sums + 4

/-- Element e in an element buffer. -/
def Shoal.elemAt (h : Shoal) (buf e : Nat) : Nat := h.plane + buf * (4 * (64 * h.chunks)) + 4 * e
/-- Context e. -/
def Shoal.ctxAt (h : Shoal) (e : Nat) : Nat := h.plane + 8 * (64 * h.chunks) + 16 * e
/-- The reef element bits of a chunk. -/
def Shoal.reefAt (h : Shoal) (c : Nat) : Nat := h.plane + 24 * (64 * h.chunks) + 8 * c
/-- Summary double. -/
def Shoal.sumAt (h : Shoal) (k : Nat) : Nat := h.reefAt h.chunks + 8 * k
/-- Parity double. -/
def Shoal.parAt (h : Shoal) (k : Nat) : Nat := h.sumAt h.sums + 8 * k
/-- The accumulator. -/
def Shoal.accAt (h : Shoal) : Nat := h.parAt h.sums

/-- The LM of the sweep's core, by logical core. -/
structure SweepLm where
  die : Nat
  lcore : Nat
  deriving DecidableEq, Repr

/-- A word of an LM. -/
def SweepLm.word (m : SweepLm) (s : State) (o : Nat) : Word32 := BitVec.ofNat 32 (leNat (lmBytes s m.die m.lcore o 4))
/-- A double of an LM. -/
def SweepLm.double (m : SweepLm) (s : State) (o : Nat) : Double := dbl (leNat (lmBytes s m.die m.lcore o 8))
/-- An LM with a word written. -/
def SweepLm.setWord (m : SweepLm) (o : Nat) (x : Word32) (s : State) : State :=
  { s with mem := setLm s m.die m.lcore o (natBytes 4 x.toNat) }
/-- An LM with a double written. -/
def SweepLm.setDouble (m : SweepLm) (o : Nat) (x : Double) (s : State) : State :=
  { s with mem := setLm s m.die m.lcore o (natBytes 8 x.toNat) }

/-- The LM of a team. -/
def lmOfTeam (r : TeamRef) : SweepLm := { die := r.die, lcore := r.lcore }

/-- Bit `i` of a double put to a value. -/
def setBit (x : Double) (i : Nat) (b : Bool) : Double := setField x i i b.toNat

/-- Bit `i` of a bit string of doubles at an LM offset. -/
def SweepLm.bit (m : SweepLm) (s : State) (o i : Nat) : Bool := (m.double s (o + 8 * (i / 64))).getLsbD (i % 64)

/-- A bit of such a string written. -/
def SweepLm.putBit (m : SweepLm) (o i : Nat) (b : Bool) (s : State) : State :=
  m.setDouble (o + 8 * (i / 64)) (setBit (m.double s (o + 8 * (i / 64))) (i % 64) b) s

/-- The elements of a chunk. -/
def Shoal.elems (h : Shoal) (c : Nat) : List Nat := upFrom (64 * c) (min 64 (h.n - 64 * c))

/-- Reef bits of a chunk, those of no element at 0 (R309). -/
def Shoal.liveReef (h : Shoal) (c : Nat) (x : Double) : Double :=
  (List.range 64).foldl (fun y i => if 64 * c + i < h.n then y else setBit y i false) x

/-- The reef bits of a chunk as the sweep engine reads them. -/
def reefOf (m : SweepLm) (s : State) (h : Shoal) (c : Nat) : Double := h.liveReef c (m.double s (h.reefAt c))

/-- The reef bits of a chunk written, those of no element at 0, and its summary bit := the OR of them (R309, R310, R317). -/
def setReef (m : SweepLm) (h : Shoal) (c : Nat) (x : Double) (s : State) : State :=
  let live := h.liveReef c x
  m.putBit (h.sumAt 0) c (live != 0) (m.setDouble (h.reefAt c) live s)

/-! ## Binding (R313 to R315, R518, R531) -/

/-- A descriptor as the engine reads it. -/
def shoalOf (bs : List Byte) (desc : Nat) : Shoal :=
  let cfg := doubleAt bs 0
  let plane := numAt bs 8 4
  let h : Shoal := { cfg := cfg, plane := plane % 2 ^ 21, edge := BitVec.ofNat 32 (numAt bs 12 4),
                     code := (doubleAt bs 16).toNat, desc := desc, invalid := false }
  { h with invalid := decide (h.clen < h.wentry) || (!h.is2D && decide (h.rowLen ≠ 1)) || decide (h.n < h.rowLen) ||
      decide (2 ^ 21 ≤ plane) || decide (plane % 64 ≠ 0) || decide (field cfg 23 21 ≠ 0) }

/-- The engine reads a descriptor (R313). -/
def readShoal (c : Copy) (desc : Nat) (s : State) : Except EngineStop Shoal × State :=
  if desc % 32 ≠ 0 then (.error (.trap 0x0020 desc), s)
  else match engineRead c true false desc 32 s with
    | (.error e, s) => (.error e, s)
    | (.ok bs, s) =>
      let h := shoalOf bs desc
      if h.code % 4 ≠ 0 then (.error (.trap 0x0020 h.code), s) else (.ok h, s)

/-- The engine reads the context code (R314). -/
def readCode (c : Copy) (h : Shoal) (s : State) : Except EngineStop (List Byte) × State :=
  if h.code = 0 then (.ok [], s) else engineRead c true false h.code (4 * (h.clen + 1)) s

/-- The code store with its words from 0 on replaced. -/
def putCode (m : SMap Word32) (bs : List Byte) : SMap Word32 :=
  (List.range (bs.length / 4)).foldl (fun m i => SMap.insert m i (BitVec.ofNat 32 (numAt bs (4 * i) 4))) m

/-- A word of the context-code store. -/
def Core.codeWord (c : Core) (i : Nat) : Word32 :=
  (SMap.get? c.code i).getD (if c.codeEpoch = 0 then 0 else Config.freeWord c.codeEpoch i)

/-- The region of a shoal lies in its owner's grant (R309). -/
def Shoal.inGrant (h : Shoal) (t : Team) : Bool := ownGrant t h.plane h.size

/-- A binding of h on the foreground core. -/
def bindShoal (h : Nat) (x : Option Shoal) (s : State) : State :=
  s.onCore fun k => { k with shoals := vput k.shoals h x }

/-- SHOAL as the engine performs it (R314, R518, R531). -/
def performShoal (c : Copy) (h desc : Nat) (s : State) : State :=
  match readShoal c desc s with
  | (.error e, s) => stopEngine c e .copyComplete s
  | (.ok x, s) =>
    if x.invalid then endCopy c (bindShoal h (some x) s)
    else if !x.inGrant (s.teamAt c.team) then
      stopEngine c (.trap 0x0021 (localView + firstOutside (s.teamAt c.team) x.plane)) .copyComplete (bindShoal h none s)
    else match readCode c x s with
      | (.error e, s) => stopEngine c e .copyComplete (bindShoal h (some x) s)
      | (.ok bs, s) => endCopy c ((bindShoal h (some x) s).onCore fun k => { k with code := putCode k.code bs })

/-! ## CTXI and REEF (R316, R317) -/

/-- Every chunk's reef bits, and so every summary bit, put: the bits of a summary double that stand for no chunk become 0
(log entry 36). -/
def putReefs (m : SweepLm) (h : Shoal) (x : Nat → Double) (s : State) : State :=
  let s := (List.range h.sums).foldl (fun s k => m.setDouble (h.sumAt k) 0 s) s
  (List.range h.chunks).foldl (fun s c => setReef m h c (x c) s) s

/-- CTXI. -/
def performCtxi (m : SweepLm) (h : Shoal) (img : Word32) (s : State) : State :=
  let s := (List.range h.n).foldl (fun s e =>
    let s := m.setWord (h.ctxAt e) img s
    m.setDouble (h.ctxAt e + 8) 0 (m.setWord (h.ctxAt e + 4) 0 s)) s
  let x : Double := if img.getLsbD 20 then BitVec.allOnes 64 else 0
  let s := putReefs m h (fun _ => x) s
  if h.isJ then (List.range h.sums).foldl (fun s k => m.setDouble (h.parAt k) 0 s) s else s

/-- The reef element bits as an image. -/
def reefImage (m : SweepLm) (h : Shoal) (s : State) : List Byte :=
  (List.range h.chunks).flatMap fun c => natBytes 8 (reefOf m s h c).toNat

/-- A sweep operation other than SHOAL, TIDE and TIDEQ as the engine performs it. -/
def performOn (c : Copy) (h : Shoal) (s : State) : State :=
  let m := lmOfTeam c.team
  match c.kind with
  | .ctxi _ img => endCopy c (performCtxi m h img s)
  | .reefLd _ img =>
    (match engineRead c true false img (8 * h.chunks) s with
    | (.error e, s) => stopEngine c e .copyComplete s
    | (.ok bs, s) => endCopy c (putReefs m h (fun k => doubleAt bs (8 * k)) s))
  | .reefSt _ img =>
    (match engineWrite c true img (reefImage m h s) s with
    | (some e, s) => stopEngine c e .copyComplete s
    | (none, s) => endCopy c (putReefs m h (reefOf m s h) s))
  | .reefWake _ => endCopy c (putReefs m h (fun _ => BitVec.allOnes 64) s)
  | .reefClr _ => endCopy c (putReefs m h (fun _ => 0) s)
  | _ => s

/-- h of a sweep operation. -/
def CopyKind.h : CopyKind → Nat
  | .shoal h _ | .tide h _ _ _ | .reefLd h _ | .reefSt h _ | .reefWake h | .reefClr h | .ctxi h _ => h
  | _ => 0

/-- A sweep operation that finds its h unbound or invalid when the engine reaches it. -/
def noBinding (c : Copy) (x : Option Shoal) (s : State) : State :=
  match x with
  | none => stopEngine c (.trap 0x0018 0) .copyComplete s
  | some h => stopEngine c (.trap 0x0011 h.desc) .copyComplete s

/-- A valid binding of h on a core. -/
def validShoal (c : Core) (h : Nat) : Option Shoal :=
  match vget c.shoals h none with
  | some x => if x.invalid then none else some x
  | none => none

/-- A sweep operation other than TIDE and TIDEQ is performed (R336). -/
def performSweep (c : Copy) (s : State) : State :=
  match c.kind with
  | .shoal h desc => performShoal c h desc s
  | k => match validShoal s.core k.h with
    | some h => performOn c h s
    | none => noBinding c (vget s.core.shoals k.h none) s

/-- COPY_COMPLETE (R289, R336): an entry of the copy queue moves what it has to move and leaves the queue; in a stall bundle it
waits at the core (R100). -/
def execCopyComplete (s : State) : Host.Outcome State Fault Refusal :=
  let s := s.focus s.occ.team
  .next (match eventCopy s with
    | none => s
    | some c =>
      if coreStalled s c.team then s.after 1 .copyComplete s.occ
      else
      let c := { c with held := false }
      let s := putCopy c s
      if c.kind.isSweep then performSweep c s else completeCopy c s)

/-! ## The sweep operations issue (R314 to R317, R333, R334, R518) -/

/-- What h stands for when a sweep operation issues: the latest SHOAL on h that has not been performed, as the engine
would read it now, or the binding. -/
def issuedShoal (s : State) (h : Nat) : Option (Option Shoal) :=
  match (s.core.copies.filter fun c => match c.kind with | .shoal h' _ => h' = h | _ => false).getLast? with
  | some c => match c.kind with
    | .shoal _ desc => match (readShoal c desc s).1 with
      | .ok x => some (some x)
      | .error _ => some none
    | _ => some none
  | none => match vget s.core.shoals h none with
    | some x => some (some x)
    | none => none

/-- The descriptor's address of an invalid binding that a sweep operation on h would find (R518). -/
def invalidShoal (s : State) (h : Nat) : Option Nat :=
  match issuedShoal s h with
  | some (some x) => if x.invalid then some x.desc else none
  | _ => none

/-- A sweep operation on a bound h: an invalid binding raises 0x0011, before 0x0012 and 0x0018 (R500), no binding 0x0018, and a
misaligned address 0x0020 (R518). -/
def sweepOp (i : Instr) (h : Nat) (align : Option Nat) (kind : Team → CopyKind) (after : State → State) (s : State) :
    State :=
  if 0 < s.core.dxBusy ∧ s.core.dxTeam ≠ s.team.ref then holdSlot .dx s
  else match invalidShoal s h with
    | some desc => slotOp .dx i (takeTrap .dx i 0x0011 desc) s
    | none =>
      dxOp i true true (fun s =>
        match issuedShoal s h with
        | none => takeTrap .dx i 0x0018 0 s
        | some _ =>
          if (align.map fun a => decide (a % 8 ≠ 0)).getD false then takeTrap .dx i 0x0020 (align.getD 0) s
          else
            let (_, s) := enqueueCopy i (kind s.team) s
            after s) s

/-- SHOAL (R314): a misaligned descriptor or code address raises 0x0020. -/
def execShoal (f : DxForm) (s : State) : Host.Outcome State Fault Refusal :=
  .next (dxOp (.shoal f) true true (fun s =>
    let desc := (s.team.ra f.aS).toNat
    let c : Copy := { id := 0, team := s.team.ref, tenant := s.team.tenant, pos := 0, word := 0, vwin := s.team.vwin,
                      kind := .shoal 0 desc, tensor := none, wid := none, held := false,
                      sent := false, beats := none, exact := false, moved := 0, kept := [] }
    let bad := if desc % 32 ≠ 0 then some desc
      else match (engineRead c true false (desc + 16) 8 s).1 with
        | .ok bs => if leNat bs % 4 ≠ 0 then some (leNat bs) else none
        | .error _ => none
    match bad with
    | some a => takeTrap .dx (.shoal f) 0x0020 a s
    | none => (enqueueCopy (.shoal f) (.shoal (dxH f) desc) s).2) s)

/-- CTXI (R316). -/
def execCtxi (f : DxForm) (s : State) : Host.Outcome State Fault Refusal :=
  .next (sweepOp (.ctxi f) (dxH f) none (fun t => .ctxi (dxH f) ((t.rs f.cr).setWidth 32)) id s)

/-- REEF load (R317). -/
def execReefLd (f : DxForm) (s : State) : Host.Outcome State Fault Refusal :=
  .next (sweepOp (.reefLd f) (dxH f) (some (s.team.ra f.aS).toNat) (fun t => .reefLd (dxH f) (t.ra f.aS).toNat) id s)

/-- REEF store (R317). -/
def execReefSt (f : DxForm) (s : State) : Host.Outcome State Fault Refusal :=
  .next (sweepOp (.reefSt f) (dxH f) (some (s.team.ra f.aS).toNat) (fun t => .reefSt (dxH f) (t.ra f.aS).toNat) id s)

/-- REEF wake all (R317). -/
def execReefWake (f : DxForm) (s : State) : Host.Outcome State Fault Refusal :=
  .next (sweepOp (.reefWake f) (dxH f) none (fun _ => .reefWake (dxH f)) id s)

/-- REEF clear all (R317). -/
def execReefClr (f : DxForm) (s : State) : Host.Outcome State Fault Refusal :=
  .next (sweepOp (.reefClr f) (dxH f) none (fun _ => .reefClr (dxH f)) id s)

/-- The status register holds an unspecified value until the instruction completes (R79, R340); log entry 3. -/
def freeStatus (cr : BitVec 6) (s : State) : State :=
  { s with team := s.team.write (.s cr (Config.freeDouble s.free)), free := s.free + 1 }

/-- TIDE (R333). -/
def execTide (f : DxForm) (s : State) : Host.Outcome State Fault Refusal :=
  .next (sweepOp (.tide f) (dxH f) none (fun _ => .tide (dxH f) f.cr 1 false) (freeStatus f.cr) s)

/-- TIDEQ (R334). -/
def execTideq (f : DxForm) (s : State) : Host.Outcome State Fault Refusal :=
  .next (sweepOp (.tideq f) (dxH f) none (fun _ => .tide (dxH f) f.cr (dxLow f) true) (freeStatus f.cr) s)

/-! ## What a context sees (R321, R330) -/

/-- The element that a 1-D or 2-D offset names, if it exists (R321). -/
def Shoal.neighbour (h : Shoal) (e : Nat) (n : BitVec 20) : Option Nat :=
  let x : Int :=
    if h.is2D then
      let dr := (n.extractLsb' 10 10).toInt
      let dc := (n.extractLsb' 0 10).toInt
      let col := (e % h.rowLen : Int) + dc
      if 0 ≤ col ∧ col < h.rowLen then ((e / h.rowLen : Int) + dr) * h.rowLen + col else -1
    else (e : Int) + n.toInt
  if 0 ≤ x ∧ x < h.n then some x.toNat else none

/-- The buffer that holds an element's current value. -/
def currentBuf (m : SweepLm) (s : State) (h : Shoal) (c : Nat) : Nat :=
  if h.isJ && m.bit s (h.parAt 0) c then 1 else 0

/-- The value that a running context sees for an element (R330). -/
def seenElem (s : State) (h : Shoal) (e : Nat) : Word32 :=
  let w := s.core.sweep
  let m := lmOfTeam w.team
  let c := e / 64
  if c = w.chunk then nth w.elems (e % 64) 0
  else
    let b := currentBuf m s h c
    m.word s (h.elemAt (if h.isJ && w.commits.contains c then 1 - b else b) e)

/-- A named element, the edge value outside the shoal (R321). -/
def readElem (s : State) (h : Shoal) (e : Option Nat) : Word32 :=
  match e with
  | none => h.edge
  | some e => seenElem s h e

/-! ## Context operations (R318 to R323, R519, R521) -/

/-- A context register (R127). -/
def Runner.reg (r : Runner) (n : BitVec 2) : Word32 :=
  match n.toNat with
  | 0 => r.e0
  | 1 => r.e1
  | 2 => r.e2
  | _ => r.ev

/-- A context register written. -/
def Runner.set (r : Runner) (n : BitVec 2) (x : Word32) : Runner :=
  match n.toNat with
  | 0 => { r with e0 := x }
  | 1 => { r with e1 := x }
  | 2 => { r with e2 := x }
  | _ => { r with ev := x }

/-- Word 0 (R311). -/
def ctxWord (state cond cpc wakes : Nat) : Word32 :=
  BitVec.ofNat 32 (wakes * 2 ^ 24 + state * 2 ^ 20 + cond * 2 ^ 16 + cpc % 2 ^ 16)

/-- wakes of word 0. -/
def ctxWakes (w : Word32) : Nat := w.toNat / 2 ^ 24
/-- Bits 23:20 of word 0. -/
def ctxState (w : Word32) : Nat := w.toNat / 2 ^ 20 % 16
/-- cond of word 0. -/
def ctxCond (w : Word32) : Nat := w.toNat / 2 ^ 16 % 16
/-- cpc of word 0. -/
def ctxCpc (w : Word32) : Nat := w.toNat % 2 ^ 16

/-- A context's run ends in a state, at a cpc, with a cond (R323, R521). -/
def Runner.stop (r : Runner) (state cpc cond : Nat) : Runner :=
  { r with w0 := ctxWord state cond cpc (ctxWakes r.w0), cpc := cpc, active := false }

/-- A context fault (R521). -/
def Runner.fault (r : Runner) : Runner := r.stop 8 r.cpc (ctxCond r.w0)

/-- The next word. -/
def Runner.step (r : Runner) : Runner := { r with cpc := r.cpc + 1 }

/-- The second operand of an operand layout (R128, R320). -/
def CxForm.operand (f : CxForm) (r : Runner) : Word32 :=
  if f.i = 1 then (if f.t = 1 then f.k ++ (0 : BitVec 16) else f.k.signExtend 32) else r.reg f.b

/-- The distinct cpcs of the runners whose run goes on. -/
def pendingCpcs (rs : List Runner) : List Nat := dedup ((rs.filter (·.active)).map (·.cpc))

/-- The chunk goes over to serial mode when it would hold more than 8 groups (R327). -/
def Sweep.regroup (w : Sweep) : Sweep :=
  { w with serial := w.serial || decide (8 < (pendingCpcs w.runners).length), lanes := [] }

/-- One lane executes an operation: a reserved field value is a context fault (R519), which has no effect. -/
def laneOp (ok : Bool) (f : Runner → Sweep → Runner × Sweep) (w : Sweep) (i : Nat) : Sweep :=
  match w.runners[i]? with
  | none => w
  | some r =>
    if ok then
      let (r, w) := f { r with ops := r.ops + 1 } w
      { w with runners := put w.runners i r }
    else { w with runners := put w.runners i r.fault }

/-- The lanes of the group execute an operation, in ascending element index (R326, R332). -/
def ctxOp (i : Instr) (extra : Shoal → Bool) (f : State → Shoal → Runner → Sweep → Runner × Sweep) (s : State) : State :=
  match validShoal s.core s.core.sweep.h with
  | none => s
  | some h =>
    let w := s.core.sweep
    let w := w.lanes.foldl (laneOp (i.wf && extra h) (f s h)) w
    s.onCore fun c => { c with sweep := w.regroup }

/-- An operation on registers alone. -/
def ctxReg (i : Instr) (f : Runner → Runner) (s : State) : Host.Outcome State Fault Refusal :=
  .next (ctxOp i (fun _ => true) (fun _ _ r w => ((f r).step, w)) s)

/-- An arithmetic operation of the operand layout (R320): its i32 and its f32 form. -/
def ctxArith (i : Instr) (f : CxForm) (int : Word32 → Word32 → Word32) (flt : Nat → Nat → Nat) (s : State) :
    Host.Outcome State Fault Refusal :=
  ctxReg i (fun r =>
    let a := r.reg f.a
    let b := CxForm.operand f r
    r.set f.d (if f.t = 1 then BitVec.ofNat 32 (flt a.toNat b.toNat) else int a b)) s

/-- CNOP (R319). -/
def execCnop (s : State) : Host.Outcome State Fault Refusal := ctxReg .cnop id s

/-- CADD (R319). -/
def execCadd (f : CxForm) (s : State) : Host.Outcome State Fault Refusal :=
  ctxArith (.cadd f) f (· + ·) (f32.add .ne) s

/-- CSUB (R319). -/
def execCsub (f : CxForm) (s : State) : Host.Outcome State Fault Refusal :=
  ctxArith (.csub f) f (· - ·) (f32.sub .ne) s

/-- CMUL (R319). -/
def execCmul (f : CxForm) (s : State) : Host.Outcome State Fault Refusal :=
  ctxArith (.cmul f) f (· * ·) (f32.mul .ne) s

/-- CFMA (R319, R320). -/
def execCfma (d a b : BitVec 2) (t : BitVec 1) (s : State) : Host.Outcome State Fault Refusal :=
  ctxReg (.cfma d a b t) (fun r =>
    let x := r.reg a
    let y := r.reg b
    let z := r.reg d
    r.set d (if t = 1 then BitVec.ofNat 32 (f32.fma .ne x.toNat y.toNat z.toNat) else x * y + z)) s

/-- The smaller and the larger of two i32 values. -/
def minI32 (a b : Word32) : Word32 := if a.toInt ≤ b.toInt then a else b
@[inherit_doc minI32] def maxI32 (a b : Word32) : Word32 := if a.toInt ≤ b.toInt then b else a

/-- CMIN (R319). -/
def execCmin (f : CxForm) (s : State) : Host.Outcome State Fault Refusal :=
  ctxArith (.cmin f) f minI32 f32.min s

/-- CMAX (R319). -/
def execCmax (f : CxForm) (s : State) : Host.Outcome State Fault Refusal :=
  ctxArith (.cmax f) f maxI32 f32.max s

/-- A bitwise operation or a shift (R319): T = 0. -/
def ctxBits (i : Instr) (d a b : BitVec 2) (im : BitVec 1) (k : BitVec 16) (op : Word32 → Word32 → Word32) (s : State) :
    Host.Outcome State Fault Refusal :=
  ctxReg i (fun r => r.set d (op (r.reg a) (if im = 1 then k.signExtend 32 else r.reg b))) s

/-- CAND (R319). -/
def execCand (d a b : BitVec 2) (i : BitVec 1) (k : BitVec 16) (s : State) : Host.Outcome State Fault Refusal :=
  ctxBits (.cand d a b i k) d a b i k (· &&& ·) s

/-- COR (R319). -/
def execCor (d a b : BitVec 2) (i : BitVec 1) (k : BitVec 16) (s : State) : Host.Outcome State Fault Refusal :=
  ctxBits (.cor d a b i k) d a b i k (· ||| ·) s

/-- CXOR (R319). -/
def execCxor (d a b : BitVec 2) (i : BitVec 1) (k : BitVec 16) (s : State) : Host.Outcome State Fault Refusal :=
  ctxBits (.cxor d a b i k) d a b i k (· ^^^ ·) s

/-- CSHL (R319). -/
def execCshl (d a b : BitVec 2) (i : BitVec 1) (k : BitVec 16) (s : State) : Host.Outcome State Fault Refusal :=
  ctxBits (.cshl d a b i k) d a b i k (fun x y => x <<< (y.toNat % 32)) s

/-- CSHR (R319). -/
def execCshr (d a b : BitVec 2) (i : BitVec 1) (k : BitVec 16) (s : State) : Host.Outcome State Fault Refusal :=
  ctxBits (.cshr d a b i k) d a b i k (fun x y => x >>> (y.toNat % 32)) s

/-- CLI (R319). -/
def execCli (d : BitVec 2) (t : BitVec 1) (k : BitVec 16) (s : State) : Host.Outcome State Fault Refusal :=
  ctxReg (.cli d t k) (fun r => r.set d (if t = 1 then k ++ (0 : BitVec 16) else k.signExtend 32)) s

/-- CMOV (R319). -/
def execCmov (d a : BitVec 2) (s : State) : Host.Outcome State Fault Refusal :=
  ctxReg (.cmov d a) (fun r => r.set d (r.reg a)) s

/-- A condition of CCMP (R129, R320): 0 eq, 1 ne, 2 lt, 3 ge. -/
def ctxCond2 (c : BitVec 2) (t : BitVec 1) (a b : Word32) : Bool :=
  if t = 1 then
    match c.toNat with
    | 0 => fcond f32 0 a.toNat b.toNat
    | 1 => fcond f32 1 a.toNat b.toNat
    | 2 => fcond f32 2 a.toNat b.toNat
    | _ => fcond f32 3 b.toNat a.toNat
  else
    match c.toNat with
    | 0 => a = b
    | 1 => a ≠ b
    | 2 => a.toInt < b.toInt
    | _ => b.toInt ≤ a.toInt

/-- CCMP (R319). -/
def execCcmp (f : CxForm) (s : State) : Host.Outcome State Fault Refusal :=
  ctxReg (.ccmp f) (fun r => { r with cp := ctxCond2 f.d f.t (r.reg f.a) (CxForm.operand f r) }) s

/-- CBR (R319, R322). -/
def execCbr (c : BitVec 1) (t : BitVec 12) (s : State) : Host.Outcome State Fault Refusal :=
  .next (ctxOp (.cbr c t) (fun _ => true) (fun _ _ r w =>
    (if r.cp = decide (c = 0) then { r with cpc := t.toNat } else r.step, w)) s)

/-- CJ (R319, R322). -/
def execCj (t : BitVec 12) (s : State) : Host.Outcome State Fault Refusal :=
  .next (ctxOp (.cj t) (fun _ => true) (fun _ _ r w => ({ r with cpc := t.toNat }, w)) s)

/-- CLDN (R319, R321). -/
def execCldn (d : BitVec 2) (n : BitVec 20) (s : State) : Host.Outcome State Fault Refusal :=
  .next (ctxOp (.cldn d n) (fun _ => true) (fun s h r w =>
    ((r.set d (readElem s h (h.neighbour r.elem n))).step, w)) s)

/-- CLDE (R319, R321). -/
def execClde (d a : BitVec 2) (n : BitVec 20) (s : State) : Host.Outcome State Fault Refusal :=
  .next (ctxOp (.clde d a n) (fun _ => true) (fun s h r w =>
    let x := (r.reg a + n.signExtend 32).toInt
    ((r.set d (readElem s h (if 0 ≤ x ∧ x < h.n then some x.toNat else none))).step, w)) s)

/-- CSTE (R319). -/
def execCste (a : BitVec 2) (s : State) : Host.Outcome State Fault Refusal :=
  ctxReg (.cste a) (fun r => { r with ev := r.reg a, ste := some (r.reg a) }) s

/-- CWAKE (R331): of an element that does not exist it has no effect. -/
def execCwake (n : BitVec 20) (s : State) : Host.Outcome State Fault Refusal :=
  .next (ctxOp (.cwake n) (fun _ => true) (fun _ h r w =>
    (r.step, match h.neighbour r.elem n with
      | some e => { w with wakes := e :: w.wakes }
      | none => w)) s)

/-- CWAIT (R323). -/
def execCwait (c : BitVec 4) (s : State) : Host.Outcome State Fault Refusal :=
  .next (ctxOp (.cwait c) (fun _ => true) (fun _ _ r w =>
    (r.stop (if c = 0 then 1 else 2) (r.cpc + 1) c.toNat, w)) s)

/-- CSLEEP (R323). -/
def execCsleep (s : State) : Host.Outcome State Fault Refusal :=
  .next (ctxOp .csleep (fun _ => true) (fun _ h r w => (r.stop 2 h.wentry (ctxCond r.w0), w)) s)

/-- CDONE (R323). -/
def execCdone (s : State) : Host.Outcome State Fault Refusal :=
  .next (ctxOp .cdone (fun _ => true) (fun _ _ r w => (r.stop 4 (r.cpc + 1) (ctxCond r.w0), w)) s)

/-- The accumulator's operation (R332). -/
def emitNew (t : BitVec 1) (o : BitVec 2) (acc x : Word32) : Word32 :=
  if t = 1 then
    BitVec.ofNat 32 (match o.toNat with
      | 0 => f32.add .ne acc.toNat x.toNat
      | 1 => f32.min acc.toNat x.toNat
      | _ => f32.max acc.toNat x.toNat)
  else
    match o.toNat with
    | 0 => acc + x
    | 1 => minI32 acc x
    | _ => maxI32 acc x

/-- CEMIT (R332): a T that differs from the shoal's type is a context fault (R519). -/
def execCemit (a : BitVec 2) (t : BitVec 1) (o : BitVec 2) (s : State) : Host.Outcome State Fault Refusal :=
  .next (ctxOp (.cemit a t o) (fun h => h.isF32 == decide (t = 1)) (fun _ _ r w =>
    (r.step, { w with acc := emitNew t o w.acc (r.reg a) })) s)

/-- CATOM (R332). -/
def execCatom (d a : BitVec 2) (t : BitVec 1) (o : BitVec 2) (s : State) : Host.Outcome State Fault Refusal :=
  .next (ctxOp (.catom d a t o) (fun h => h.isF32 == decide (t = 1)) (fun _ _ r w =>
    ((r.set d w.acc).step, { w with acc := emitNew t o w.acc (r.reg a) })) s)

/-- CCVT (R154, R319). -/
def execCcvt (d a : BitVec 2) (v : BitVec 1) (s : State) : Host.Outcome State Fault Refusal :=
  ctxReg (.ccvt d a v) (fun r =>
    let x := (r.reg a).toNat
    r.set d (BitVec.ofInt 32 (if v = 0 then convert .ne (.int true 32) (.flt f32) x
      else convert .ne (.flt f32) (.int true 32) x))) s

/-! ## The steps of a tide (R324 to R337) -/

/-- A context as the chunk load takes it (R312, R325, R520): it runs, or only its reef bit and word 0 follow its
state. -/
def loadContext (m : SweepLm) (s : State) (h : Shoal) (w : Sweep) (e : Nat) : Sweep :=
  let w0 := m.word s (h.ctxAt e)
  let r : Runner :=
    { elem := e, w0 := w0, e0 := m.word s (h.ctxAt e + 4), e1 := m.word s (h.ctxAt e + 8),
      e2 := m.word s (h.ctxAt e + 12), ev := nth w.elems (e % 64) 0, cp := false, cpc := ctxCpc w0, ops := 0,
      active := true, ste := none }
  match ctxState w0 with
  | 1 => { w with runners := w.runners ++ [r] }
  | 2 =>
    let wakes := min (ctxWakes w0 + 1) 255
    let r := { r with w0 := ctxWord 1 (ctxCond w0) (ctxCpc w0) wakes }
    { w with runners := w.runners ++ [r] }
  | 4 | 8 => { w with loaded := w.loaded ++ [(e, w0)] }
  | _ => { w with runners := w.runners ++ [r.fault] }

/-- TIDE_CHUNK_LOAD (R325): the chunk's elements, and the contexts whose reef bit is 1. -/
def loadChunk (s : State) : State :=
  match validShoal s.core s.core.sweep.h with
  | none => s
  | some h =>
    let w := s.core.sweep
    let m := lmOfTeam w.team
    let es := h.elems w.chunk
    let b := currentBuf m s h w.chunk
    let w := { w with elems := es.map fun e => m.word s (h.elemAt b e), runners := [], loaded := [], serial := false,
                      wakes := [], acc := m.word s h.accAt }
    let reef := reefOf m s h w.chunk
    let w := (es.filter fun e => reef.getLsbD (e % 64)).foldl (loadContext m s h) w
    s.onCore fun c => { c with sweep := { w.regroup with phase := .run } }

/-- TIDE_CHUNK_LOAD (R325). -/
def execTideChunkLoad (s : State) : Host.Outcome State Fault Refusal :=
  .next (loadChunk (s.focus s.occ.team))

/-- A runner's context and element are written (R328). -/
def commitRunner (m : SweepLm) (h : Shoal) (buf : Nat) (s : State) (r : Runner) : State :=
  let s := m.setWord (h.ctxAt r.elem) r.w0 s
  let s := m.setWord (h.ctxAt r.elem + 4) r.e0 s
  let s := m.setWord (h.ctxAt r.elem + 8) r.e1 s
  let s := m.setWord (h.ctxAt r.elem + 12) r.e2 s
  match r.ste with
  | some x => m.setWord (h.elemAt buf r.elem) x s
  | none => s

/-- A wake sets its target's reef bit, and the target chunk's summary bit (R331). -/
def applyWake (m : SweepLm) (h : Shoal) (s : State) (e : Nat) : State :=
  setReef m h (e / 64) (setBit (reefOf m s h (e / 64)) (e % 64) true) s

/-- CHUNK_COMMIT (R328): everything that the chunk's run changed reaches LM in one step, a write of the owner on the sw path
(R184). -/
def commitChunk (s : State) : State :=
  match validShoal s.core s.core.sweep.h with
  | none => s
  | some h =>
    let w := s.core.sweep
    let m := lmOfTeam w.team
    let b := currentBuf m s h w.chunk
    let buf := if h.isJ then 1 - b else 0
    let s := if h.isJ then
        let s := (List.zip (h.elems w.chunk) w.elems).foldl (fun s (e, x) => m.setWord (h.elemAt buf e) x s) s
        m.putBit (h.parAt 0) w.chunk (b = 0) s
      else s
    let s := w.runners.foldl (commitRunner m h buf) s
    let bits := w.runners.map (fun r => (r.elem, decide (ctxState r.w0 = 1))) ++
      w.loaded.map fun (e, w0) => (e, decide (ctxState w0 = 1))
    let s := setReef m h w.chunk (bits.foldl (fun x (e, b) => setBit x (e % 64) b) (reefOf m s h w.chunk)) s
    let s := w.wakes.foldl (applyWake m h) s
    let s := m.setWord h.accAt w.acc s
    let w := { w with runs := w.runs + w.runners.length,
                      dones := w.dones + (w.runners.filter fun r => ctxState r.w0 = 4).length,
                      commits := w.chunk :: w.commits, chunk := w.chunk + 1, phase := .boundary, elems := [],
                      runners := [], loaded := [], serial := false, wakes := [], lanes := [] }
    sendWrite w.team .sw (s.onCore fun c => { c with sweep := w })

/-- CHUNK_COMMIT (R328). -/
def execChunkCommit (s : State) : Host.Outcome State Fault Refusal :=
  .next (commitChunk (s.focus s.occ.team))

/-- The reef bits that are set in a shoal. -/
def reefCount (m : SweepLm) (s : State) (h : Shoal) : Nat :=
  (List.range h.chunks).foldl (fun n c => n + popCount (reefOf m s h c)) 0

/-- The status of a TIDE or TIDEQ (R335). -/
def tideStatus (next ran runs dones : Nat) : Double :=
  dbl ((if next = 0 then 2 ^ 63 else 0) + ran % 256 * 2 ^ 51 + dones % 2 ^ 17 * 2 ^ 34 + next % 2 ^ 17 * 2 ^ 17 +
    runs % 2 ^ 17)

/-- TIDE_END (R333, R334): TIDEQ goes on while a reef bit is set and tides remain; otherwise the status is written and
the entry leaves the queue. -/
def endTide (s : State) : State :=
  match validShoal s.core s.core.sweep.h with
  | none => s
  | some h =>
    let w := s.core.sweep
    let next := reefCount (lmOfTeam w.team) s h
    let ran := w.ran + 1
    if w.quiet && decide (0 < next) && decide (1 < w.left) then
      s.onCore fun c => { c with sweep := { w with phase := .boundary, left := w.left - 1, ran := ran, chunk := 0,
                                                   runs := 0, dones := 0, commits := [] } }
    else
      let s := s.modTeam w.team fun t => t.write (.s w.cr (tideStatus next ran w.runs w.dones))
      let s := match s.core.copies.find? fun c => some c.id = w.op with
        | some c => endCopy c s
        | none => s
      s.onCore fun c => { c with sweep := Sweep.idle }

/-- TIDE_END (R333). -/
def execTideEnd (s : State) : Host.Outcome State Fault Refusal :=
  .next (endTide (s.focus s.occ.team))

/-- The issuing team's VX slot stands at a non-NOP operation (R338). -/
def vxWaits (s : State) : Bool :=
  match (s.residents s.core.die s.core.pcore).find? fun r => s.core.issuing = some r.rslot with
  | none => false
  | some r =>
    let t := s.teamAt r
    t.trap.isNone && (match t.placedAt (t.passed .vx) with
      | some p => decide (nth p.words 3 0 ≠ 0)
      | none => false)

/-- SWEEP_PAUSE (R338): for at most 16 VX cycles. -/
def execSweepPause (s : State) : Host.Outcome State Fault Refusal :=
  let s := s.focus s.occ.team
  .next (s.onCore fun c => { c with sweep := { c.sweep with phase := .paused 16 } })

/-- The owner's cluster is being saved or moved, and the owner stands at its boundary, or is parked at an SVC in a migration
(R340, R439), or the owner is frozen (R556). An owner that waits elsewhere reaches its boundary only as the sweep goes on. -/
def sweepAsked (s : State) : Bool :=
  let t := s.teamAt s.core.sweep.team
  (t.stopAsked && (decide (t.park = .boundary) || (decide (t.park = .svc) && s.die.migrates s.core.pcore))) ||
    (t.trap.map (·.frozen)).getD false

/-- The sweep's phase put. -/
def setPhase (p : SweepPhase) (s : State) : State := s.onCore fun c => { c with sweep := { c.sweep with phase := p } }

/-- A tide finds its h changed under it: it stops as the engine stops (R530, R556). -/
def stopTide (x : Option Shoal) (f : Copy → State → State) (s : State) : State :=
  let w := s.core.sweep
  let s := s.onCore fun c => { c with sweep := Sweep.idle, shoals := vput c.shoals w.h x }
  match s.core.copies.find? fun c => some c.id = w.op with
  | some c => f c s
  | none => s

/-- The next chunk of a tide is decided, and this VX cycle is the first of what follows (R324, R337). A plane that a supervisor
has put outside the grant stops the tide, and h is unbound (R531, R556). -/
def decideChunk (h : Shoal) (s : State) : State × Option Instr :=
  let w := s.core.sweep
  let m := lmOfTeam w.team
  let wanted := fun c => m.bit s (h.sumAt 0) c
  if !h.inGrant (s.teamAt w.team) then
    (stopTide none (fun c => stopEngine c (.trap 0x0021 (localView + firstOutside (s.teamAt c.team) h.plane)) .copyComplete) s, none)
  else if h.chunks ≤ w.chunk then (setPhase (.ending 1) s, none)
  else if wanted w.chunk then (setPhase (.load 7) s, none)
  else
    let skip := ((upFrom w.chunk (min 64 (h.chunks - w.chunk))).takeWhile fun c => !wanted c).length
    (s.onCore fun c => { c with sweep := { c.sweep with phase := .boundary, chunk := w.chunk + skip } }, none)

/-- A chunk boundary (R338, R340): a waiting VX operation pauses the sweep, and a save holds it there. -/
def atBoundary (h : Shoal) (s : State) : State × Option Instr :=
  if sweepAsked s then (setPhase (.paused 1) s, none)
  else if vxWaits s then (s, some .sweepPause)
  else decideChunk h s

/-- The lanes of the group that executes next, as indexes of the runners (R326, R327). -/
def pickLanes (w : Sweep) : List Nat :=
  let act := (List.range w.runners.length).filter fun i => ((w.runners[i]?).map (·.active)).getD false
  if w.serial then act.take 1
  else
    let cpcs := pendingCpcs w.runners
    let lo := cpcs.foldl min (cpcs.head?.getD 0)
    act.filter fun i => ((w.runners[i]?).map fun r => decide (r.cpc = lo)).getD false

/-- The lanes of a group fault without executing (R519). -/
def faultLanes (ls : List Nat) (w : Sweep) : Sweep := (ls.foldl (laneOp false fun r w => (r, w)) w).regroup

/-- One VX cycle of a chunk's run: the operation of the next group, or the first cycle of the commit. A turn in which every lane
of the group faults without executing takes a VX cycle too (DESIGN CHOICE, log entry 83). -/
def runGroup (h : Shoal) (s : State) : State × Option Instr :=
  let w := s.core.sweep
  match pickLanes w with
  | [] => (setPhase (.commit 3) s, none)
  | l :: ls =>
    let r := w.runners[l]?
    let cpc := (r.map (·.cpc)).getD 0
    let spent := (l :: ls).filter fun i => ((w.runners[i]?).map fun r => decide (4096 ≤ r.ops)).getD false
    let bad := fun ls => (s.onCore fun c => { c with sweep := faultLanes ls c.sweep }, none)
    if h.clen < cpc then bad (l :: ls)
    else match decodeContext (s.core.codeWord cpc) with
      | .error _ => bad (l :: ls)
      | .ok i =>
        let s := if spent.isEmpty then s else s.onCore fun c => { c with sweep := faultLanes spent c.sweep }
        let go := (l :: ls).filter fun i => !spent.contains i
        if go.isEmpty then (s, none) else (s.onCore fun c => { c with sweep := { c.sweep with lanes := go } }, some i)

/-- The head of the sweep operations starts (R336): TIDE and TIDEQ take the VX datapath from their first step on, since their
start is no chunk boundary (DEDUCED, log entry 82), and the others are performed after a variable time. -/
def startSweep (s : State) : State × Option Instr :=
  match s.core.copies.find? fun c => c.kind.isSweep with
  | none => (s, none)
  | some c =>
    match c.kind with
    | .tide h cr max quiet =>
      match validShoal s.core h with
      | none => (noBinding c (vget s.core.shoals h none) s, none)
      | some x =>
        let w := { Sweep.idle with phase := .boundary, op := some c.id, team := c.team, h := h, cr := cr, quiet := quiet,
                                   left := max }
        let s := s.onCore fun k => { k with sweep := w }
        if sweepAsked s then (setPhase (.paused 1) s, none) else decideChunk x s
    | _ =>
      if !c.sent then
        let s := s.onCore fun k =>
          { k with copies := modWhere (fun x => x.id = c.id) (fun x => { x with sent := true }) k.copies }
        (s.later .copyComplete { team := c.team, id := c.id }, none)
      else (s, none)

/-- One VX cycle of the sweep engine (R337), before the VX slot's (R338). -/
def sweepCycle (s : State) : State × Option Instr :=
  match validShoal s.core s.core.sweep.h, s.core.sweep.phase with
  | _, .idle => startSweep s
  | none, .paused n =>
    if sweepAsked s then (setPhase (.paused n) s, none)
    else
      let x := vget s.core.shoals s.core.sweep.h none
      (stopTide x (fun c => noBinding c x) s, none)
  | none, _ => (setPhase .idle s, none)
  | some h, .boundary => atBoundary h s
  | some _, .load n => if n ≤ 1 then (s, some .tideChunkLoad) else (setPhase (.load (n - 1)) s, none)
  | some h, .run => runGroup h s
  | some _, .commit n => if n ≤ 1 then (s, some .chunkCommit) else (setPhase (.commit (n - 1)) s, none)
  | some _, .ending n => if n ≤ 1 then (s, some .tideEnd) else (setPhase (.ending (n - 1)) s, none)
  | some h, .paused n =>
    if sweepAsked s then (s, none)
    else if n ≤ 1 || !vxWaits s then decideChunk h s
    else (setPhase (.paused (n - 1)) s, none)

end Sys2Proof.Machine
end

