-- ==== Sys2Proof/Machine/Control.lean ====
section
/-! DEFINITION. The CT slot: a CT operation executes as dispatch places its bundle (spec/07_isa_control_scalar.md R186 to
R203, spec/03_core_timing.md R68 to R93, spec/21_instruction_faults.md R504 to R511). The bundle that dispatch is
placing is `Team.cur`, at `Team.bpc`. -/

namespace Sys2Proof.Machine

/-! ## Placing a bundle (R68, R69, R90, R91) -/

/-- The weight of the E field (R97). -/
def Core.weight (c : Core) (e : BitVec 4) : Nat :=
  if e.toNat < 8 then field c.ewt0 (8 * e.toNat + 7) (8 * e.toNat)
  else field c.ewt1 (8 * (e.toNat - 8) + 7) (8 * (e.toNat - 8))

/-- LCNT of the pass that the next bundle belongs to (R181, R189). -/
def Team.passLcnt (t : Team) : Word32 :=
  match t.loop with
  | some l => BitVec.ofNat 32 l.left
  | none => 0

/-- A result of the CT slot, of latency 1 (R104), with the energy of the operation that it ends, if any (R441). -/
def ctResult (e : Option (Nat × Nat)) (t : Team) (w : Write) : Landing :=
  { slot := .ct, domain := .core, pos := t.passed .ct, rem := 1, write := w, energy := e }

/-- Where dispatch goes on after the bundle at hand when no branch is taken: the next body bundle, the next pass, or
the next address (R90, R106, R189). -/
def Team.onward (t : Team) : Team :=
  match t.loop with
  | none => { t with pc := t.bpc + bundleLen t.cur.ct }
  | some l =>
    if l.idx + 1 < l.body.length then { t with loop := some { l with idx := l.idx + 1 } }
    else
      let t := { t with flight := t.flight ++ [ctResult none t (.lcnt (BitVec.ofNat 32 (l.left - 1)))] }
      if l.left ≤ 1 then { t with loop := none, pc := l.after }
      else { t with loop := some { l with idx := 0, left := l.left - 1 } }

/-- Where dispatch goes on: at the target after the delay bundle of a taken branch, which ends a loop that the branch
leaves (R88, R91). -/
def Team.advance (t : Team) : Team :=
  match t.delay with
  | some (some target) =>
    let t' := t.onward
    let fl := if t'.loop.isSome then t'.flight ++ [ctResult none t (.lcnt 0)] else t'.flight
    { t' with loop := none, pc := target, delay := none, flight := fl }
  | _ => { t.onward with delay := none }

/-- FENCE, XFENCE, RELW and PHASE act as S bundles (R215). -/
def fenceWord (w : Word32) : Bool :=
  match decodeSlot .ad w with
  | .fence _ | .xfence _ | .relw _ | .phase _ => true
  | _ => false

/-- What the completion of the bundle at hand is followed by, if it has one (R83, R85). -/
def syncOf (b : Bundle) (k : Option SyncKind) : Option SyncKind :=
  match k with
  | some k => some k
  | none => if b.s || b.w || fenceWord (nth b.words 1 0) then some .plain else none

/-- Whether a bundle acts as a W bundle: its marker, or its operation (R60, R85, R192, R202). -/
def actsW (b : Bundle) (k : Option SyncKind) : Bool :=
  b.w || (match k with
    | some (.node _ _) | some .ending | some (.svc _) => true
    | _ => false)

/-- The bundle at hand enters the slots' queues at a new position, and the CT slot passes it (R68, R69, R90): `e` is the energy
of its CT operation. The run after a NODE counts towards its budget from its first issue, this core cycle included (R191). -/
def Team.enqueue (t : Team) (e : Option (Nat × Nat)) (ws : List Write) (sync : Option SyncKind) : Team :=
  let p : Placed :=
    { pos := t.passed .ct, bpc := t.bpc, ct := t.cur.ct, words := t.cur.words,
      rept := (match t.loop with | some l => l.rept | none => false), lcnt := t.passLcnt,
      target := (match t.delay with | some x => x | none => none), delay := t.delay.isSome, loop := t.loop }
  let w := actsW t.cur sync
  let sy := (syncOf t.cur sync).map fun k => ({ pos := p.pos, w := w, kind := k, bpc := t.bpc, ct := t.cur.ct } : Sync)
  let t := { t with queue := t.queue ++ [p], flight := t.flight ++ ws.map (ctResult e t), lcntNow := p.lcnt,
                    skipCt := false, issued := true, sync := sy,
                    counted := if t.atNode && !t.issued then t.counted + 1 else t.counted,
                    park := if w then .w else t.park }
  t.advance.pass1 .ct

/-- The bundles after which the core may hand over to another team, 8 reference cycles after their placement (R57,
R58). -/
def handsOver : Option SyncKind → Bool
  | some (.yield _ _) | some (.node _ _) | some .ending | some (.waitx _ _) | some (.wwait _ _ _) | some (.svc _) | some (.barw _ _) => true
  | _ => false

/-- The placement of the bundle at hand with so many results of its CT operation would make 65 results in flight (R422). -/
def placeFull (n : Nat) (s : State) : Bool :=
  let t := s.team.enqueue none (List.replicate n (.lcnt 0)) none
  decide (64 < t.flight.length) && decide (s.team.flight.length < t.flight.length)

/-- The bundle at hand is placed: its weight joins the window's sum (R99), and its CT operation retires, or
carries its energy to its result (R441). One whose placement makes 65 results in flight raises the schedule fault (R422). -/
def place (i : Instr) (ws : List Write) (sync : Option SyncKind) (s : State) : State :=
  let c := s.core
  let e := match i with
    | .nop _ => none
    | _ => some (energyClass .ct i, 64)
  let t := s.team.enqueue e ws sync
  if placeFull ws.length s then ctTrap 0x0018 0 s
  else
    let t := if ws.isEmpty then retire c .core e t else t
    { s with team := t, core := { c with wsum := c.wsum + c.weight s.team.cur.e, freshWindow := false,
                                         issueFrom := if handsOver sync then s.now + 8 else c.issueFrom } }

/-- The bundle at hand is placed, and its CT operation has an effect if it could be. -/
def placeThen (i : Instr) (ws : List Write) (sync : Option SyncKind) (eff : State → State) (s : State) : State :=
  let s' := place i ws sync s
  if s'.team.passed .ct = s.team.passed .ct then s' else eff s'

/-- The operations that may not stand in a delay bundle (R89). -/
def barredInDelay : Instr → Bool
  | .br _ | .brc _ _ _ | .brm _ _ _ _ | .call _ | .jmpr _ _ _ | .ret _ | .loop _ _ _ | .rept _ _ _ | .yield _ _ |
    .node _ _ | .endTeam _ | .barw _ _ | .waitx _ _ | .wwait _ _ | .svc _ => true
  | _ => false

/-- A CT operation as dispatch places its bundle: passed with no effect after an action 1 (R425, R504, R505), refused
for a reserved value (R498) or in a delay bundle (R504), and otherwise performed. A BRM that is passed goes on as one not
taken, and its delay bundle follows, unless it stands in a delay bundle itself or holds a reserved value. -/
def ctOp (i : Instr) (eff : State → State) (s : State) : State :=
  if s.team.skipCt then
    let late := s.team.delay.isNone && i.wf
    placeThen (.nop .ct) [] none (fun s => match i with
      | .brm _ _ _ _ => if late then s.onTeam fun t => { t with delay := some none } else s
      | _ => s) s
  else if !i.wf then ctTrap 0x0011 0 s
  else if s.team.delay.isSome && barredInDelay i then ctTrap 0x0013 0 s
  else eff s

/-- NOP in any slot (R107, R113): the CT slot places its bundle, any other slot passes its position. -/
def execNop (slot : Slot) (s : State) : Host.Outcome State Fault Refusal :=
  .next (if slot = .ct then ctOp (.nop .ct) (place (.nop .ct) [] none) s else passSlot slot s)

/-- Another team's operation occupies the slot's engine (R69, R70). -/
def occupiedByOther (slot : Slot) (s : State) : Bool :=
  match slot with
  | .dx => decide (0 < s.core.dxBusy) && decide (s.core.dxTeam ≠ s.team.ref)
  | .rx => decide (0 < s.core.rxBusy) && decide (s.core.rxTeam ≠ s.team.ref)
  | _ => false

/-- A word of an unassigned opcode (R497); an opcode of 0 with other bits set holds a reserved value (R498). In the VX
slot it holds while a tide runs (R338), and in a slot that another team's operation occupies until the occupation ends (R70),
as any non-NOP operation there. -/
def execUnassignedOpcode (slot : Slot) (w : Word32) (s : State) : Host.Outcome State Fault Refusal :=
  let zero := if slot = .ct then w.extractLsb' 14 5 = 0 else w.extractLsb' 26 6 = 0
  .next (
    if slot = .ct ∧ s.team.skipCt then place (.nop .ct) [] none s
    else if slot = .vx ∧ s.core.sweep.holdsVx = true then holdSlot .vx s
    else if occupiedByOther slot s then holdSlot slot s
    else if slot = .ct then ctTrap (if zero then 0x0011 else 0x0010) 0 s
    else raiseTrap slot (if zero then 0x0011 else 0x0010) 0 w s)

/-! ## Branches (R186 to R188) -/

/-- BPC + sext(off) × 4. -/
def Team.branchTo (t : Team) (bits off : Nat) : Nat := (dbl t.bpc + sextNat bits off * 4).toNat

/-- A VA lies in the body of the loop at hand (R91). -/
def Team.inBody (t : Team) (va : Nat) : Bool :=
  match t.loop with
  | some l => decide (l.start ≤ va) && decide (va < l.after)
  | none => false

/-- A branch is placed: its delay bundle follows, and then its target if it is taken (R88, R187). A taken branch to
a target inside its own loop's body raises the schedule fault (R507). -/
def branch (i : Instr) (taken : Bool) (target : Nat) (ws : List Write) (s : State) : State :=
  if taken && s.team.inBody target then ctTrap 0x0018 0 s
  else placeThen i ws none (fun s => s.onTeam fun t => { t with delay := some (if taken then some target else none) }) s

/-- The bundle that follows the bundle at hand, in dispatch order, and its address: the next body bundle or pass, or
the bundle at the next address. -/
def Team.following (t : Team) : Nat :=
  match t.onward.loop with
  | some l => (nth l.body l.idx (0, t.cur)).1
  | none => t.onward.pc

/-- The address of the bundle after the delay bundle (R187): its length is known from its CT word. -/
def linkOf (t : Team) (delayCt : Word32) : Double := dbl (t.following + bundleLen delayCt)

/-- BR (R186). -/
def execBr (off : BitVec 14) (s : State) : Host.Outcome State Fault Refusal :=
  .next (ctOp (.br off) (fun s => branch (.br off) true (s.team.branchTo 14 off.toNat) [] s) s)

/-- The condition of BRC (R113, R186). -/
def brcTaken (t : Team) (mode : BitVec 2) (reg : BitVec 4) : Bool :=
  match mode.toNat with
  | 0 => t.rp (reg.setWidth 3)
  | 1 => !t.rp (reg.setWidth 3)
  | 2 => decide (t.rs (reg.setWidth 6) ≠ 0)
  | _ => decide (t.rs (reg.setWidth 6) = 0)

/-- BRC (R186). -/
def execBrc (mode : BitVec 2) (reg : BitVec 4) (off : BitVec 8) (s : State) : Host.Outcome State Fault Refusal :=
  .next (ctOp (.brc mode reg off) (fun s =>
    branch (.brc mode reg off) (brcTaken s.team mode reg) (s.team.branchTo 8 off.toNat) [] s) s)

/-- BRM (R186, R188, R505): a mask that is not uniform over the active lanes raises 0x0014. -/
def execBrm (sense : BitVec 1) (tested active : BitVec 3) (off : BitVec 7) (s : State) :
    Host.Outcome State Fault Refusal :=
  .next (ctOp (.brm sense tested active off) (fun s =>
    let m := s.team.rm tested
    let a := s.team.rm active
    let ones := decide (m &&& a = a)
    let zeros := decide (m &&& a = 0)
    if !ones && !zeros then ctTrap 0x0014 0 s
    else
      let taken := decide (a = 0) || (if sense = 0 then ones else zeros)
      branch (.brm sense tested active off) taken (s.team.branchTo 7 off.toNat) [] s) s)

/-! ## Instruction fetch (R106, R355, R502) -/

/-- The IPA from which a VA is fetched: none when no window with r maps it (R355, R502). -/
def fetchIpa (s : State) (va : Nat) : Option Nat := vaIpa s.hub.package s.team.ref s.team.windows .read va

/-- The bytes of the instruction store at a VA, within one line. -/
def fetchBytes (s : State) (va n : Nat) : Option (List Byte) :=
  match fetchIpa s va with
  | none => none
  | some ipa => (s.core.istore.find? fun l => l.ipa = lineOf ipa).map fun l => (l.bytes.drop (ipa % 64)).take n

/-- What dispatch finds at an address: a bundle, or the fault that it raises: its cause, the line's VA and the CT word
when that one is present (R502). -/
inductive Fetched where
  | bundle (b : Bundle)
  | missing (cause line : Nat) (ct : Word32)
  deriving DecidableEq, Repr

/-- The cause of a line that the store lacks: 0x0001, or 0x0002 when it does not translate (R502). -/
def missCause (s : State) (va : Nat) : Nat := if (fetchIpa s va).isSome then 0x0001 else 0x0002

/-- The bundle at an address (R106). -/
def fetchBundle (s : State) (va : Nat) : Fetched :=
  match fetchBytes s va 4 with
  | none => .missing (missCause s va) (lineOf va) 0
  | some b0 =>
    let ct : Word32 := BitVec.ofNat 32 (leNat b0)
    let len := bundleLen ct
    match fetchBytes s (va + len - 4) 4 with
    | none => .missing (missCause s (va + len - 4)) (lineOf (va + len - 4)) ct
    | some _ =>
      let bs := (List.range (len / 4)).flatMap fun k => (fetchBytes s (va + 4 * k) 4).getD []
      match decodeBundle bs with
      | .ok (b, _) => .bundle b
      | .error _ => .missing (missCause s va) (lineOf va) ct

/-- The bundles of a loop body, with their addresses, or the first miss (R90, R503). -/
def fetchBody (s : State) : Nat → Nat → List (Nat × Bundle) × Option (Nat × Nat)
  | _, 0 => ([], none)
  | va, n + 1 =>
    match fetchBundle s va with
    | .missing cause line _ => ([], some (cause, line))
    | .bundle b =>
      let (bs, m) := fetchBody s (va + bundleLen b.ct) n
      ((va, b) :: bs, m)

/-- A line of the foreground core's instruction store, which the supervisor loads at a VA of the acting team (R106, R355,
R396, R503): one that does not translate is left out, as is a line of an LM that no resident team of the tenant is granted
(R346), or whose move is under way (R439), and one that the home does not serve now. -/
def loadLine (s : State) (va : Nat) : State :=
  match fetchIpa s va with
  | none => s
  | some ipa =>
    let line := lineOf ipa
    let (bs, s) := match spotOf s.hub.package line with
      | .lm d l o =>
        (if lmRangeGranted s s.team.tenant d l o 64 && !migratingLm s s.team.ref d l then some (lmBytes s d l o 64) else none, s)
      | .staging d x => (some (stageBytes s d s.team.cluster x 64), s)
      | _ =>
        let (bs, s') := hubLineRead s.team.tenant line s
        (bs, s'.onHub fun h => { h with wait := s.hub.wait })
    match bs with
    | none => s
    | some bs => s.onCore fun c =>
        { c with istore := ({ ipa := line, bytes := bs } :: c.istore.filter fun l => l.ipa ≠ line).take 4096 }

/-! ## Fetching again on resume (R417) -/

/-- The bundle at an address, its lines being loaded where the store lacks them. -/
def fetchAgain : Nat → Nat → State → Option Bundle × State
  | 0, _, s => (none, s)
  | n + 1, va, s =>
    match fetchBundle s va with
    | .bundle b => (some b, s)
    | .missing _ line _ => fetchAgain n va (loadLine s line)

/-- The placed bundles from q onward fetched again, in order: each where it was placed, or, when the supervisor has moved the
trap bundle, at the address after the one before. The answer has the address after the last. -/
def fetchPlaced (moved : Bool) : List Placed → Nat → State → List Placed × Nat × State
  | [], va, s => ([], va, s)
  | p :: ps, va, s =>
    let at_ := if moved then va else p.bpc
    let (b, s) := fetchAgain 3 at_ s
    let p := match b with
      | some b => { p with bpc := at_, ct := b.ct, words := b.words }
      | none => { p with bpc := at_ }
    let (rest, next, s) := fetchPlaced moved ps (p.target.getD (at_ + bundleLen p.ct)) s
    (p :: rest, next, s)

/-- Bundles one after another from an address, fetched again. -/
def fetchRun : Nat → Nat → State → List (Nat × Bundle) × State
  | 0, _, s => ([], s)
  | n + 1, va, s =>
    let (b, s) := fetchAgain 3 va s
    let b := b.getD s.team.cur
    let (rest, s) := fetchRun n (va + bundleLen b.ct) s
    ((va, b) :: rest, s)

/-- The loop at q that a supervisor has changed, its body fetched again: its place in the body is that of the trap bundle, and one
that does not hold the trap bundle is over (R417, R431). -/
def loopAgain (x : TrapSt) (s : State) : Option LoopSt × State :=
  match x.loop with
  | none => (none, s)
  | some l =>
    let (bs, s) := fetchRun l.body.length l.start s
    let i := (bs.findIdx? fun b => decide (b.1 = x.bpc))
    let last := bs.getLast?.getD (l.start, s.team.cur)
    (i.map fun i => { l with body := bs, idx := i, after := last.1 + bundleLen last.2.ct }, s)

/-- A loop so many positions on; none once it has ended. -/
def LoopSt.onward : Nat → LoopSt → Option LoopSt
  | 0, l => some l
  | n + 1, l =>
    if l.idx + 1 < l.body.length then LoopSt.onward n { l with idx := l.idx + 1 }
    else if l.left ≤ 1 then none else LoopSt.onward n { l with idx := 0, left := l.left - 1 }

/-- The frozen acting team's slot queues are filled again from q onward; the loop buffer keeps the body that it holds (R109); a
trap bundle, a loop or a branch target that the supervisor has changed is the one that dispatch goes on with (R417, R420,
R425, R431). -/
def refill (s : State) : State :=
  match s.team.trap with
  | none => s
  | some x =>
    let t := s.team
    let aim := fun p : Placed => if x.dly && decide (p.pos = x.q) then { p with target := some x.target } else p
    let ps := (t.queue.filter fun p => x.q ≤ p.pos).map aim
    let was := match t.placedAt x.q with
      | some p => p.bpc
      | none => t.nextBpc
    let loop := match t.placedAt x.q with
      | some p => p.loop
      | none => t.loop
    let moved := decide (was ≠ x.bpc)
    let changed := moved || decide (x.loop ≠ loop)
    let (ps, next, s) := fetchPlaced moved ps x.bpc s
    let (again, s) := loopAgain x s
    let last := ps.length = 1 && x.dly
    s.onTeam fun t =>
      { t with queue := (t.queue.filter fun p => p.pos < x.q) ++ ps,
               pc := if changed then next else if last then x.target else t.pc,
               delay := if x.dly && ps.isEmpty then some (some x.target) else t.delay,
               loop := if changed then again.bind (LoopSt.onward ps.length) else t.loop }

/-- The CT word of the bundle that follows the bundle at hand: of the loop buffer, or of the instruction store. -/
def nextCt (s : State) : Option Word32 :=
  match s.team.onward.loop with
  | some l => some (nth l.body l.idx (0, s.team.cur)).2.ct
  | none => (fetchBytes s s.team.onward.pc 4).map fun b => BitVec.ofNat 32 (leNat b)

/-- A branch with a link: s62 receives the address of the bundle after the delay bundle (R187), at once when the
instruction store holds the delay bundle's CT word, and otherwise when dispatch has that bundle, whose CT operation reads the
new s62 (`present`). -/
def linked (s : State) (link : Bool) : List Write :=
  match link, nextCt s with
  | true, some ct => [.s 62 (linkOf s.team ct)]
  | _, _ => []

/-- The link that waits for its delay bundle. -/
def linkLater (link : Bool) (s0 s : State) : State :=
  if link && (nextCt s0).isNone && decide (s.team.passed .ct ≠ s0.team.passed .ct) then
    s.onTeam fun t => { t with link := true }
  else s

/-- CALL (R186). -/
def execCall (off : BitVec 14) (s : State) : Host.Outcome State Fault Refusal :=
  .next (ctOp (.call off) (fun s =>
    if placeFull 1 s then ctTrap 0x0018 0 s
    else linkLater true s (branch (.call off) true (s.team.branchTo 14 off.toNat) (linked s true) s)) s)

/-- A register target (R187, R506): one with bits 1:0 or 63:56 set raises 0x0041, after the schedule fault (R500). A link makes one
more result in flight whether or not its delay bundle is in the store (R422, R507). -/
def branchReg (i : Instr) (target : Double) (link : Bool) (s : State) : State :=
  if s.team.inBody target.toNat || placeFull (if link then 1 else 0) s then ctTrap 0x0018 0 s
  else if target.extractLsb' 0 2 ≠ 0 ∨ target.extractLsb' 56 8 ≠ 0 then ctTrap 0x0041 0 s
  else linkLater link s (branch i true target.toNat (linked s link) s)

/-- JMPR (R186). -/
def execJmpr (reg : BitVec 6) (link : BitVec 1) (z : BitVec 7) (s : State) : Host.Outcome State Fault Refusal :=
  .next (ctOp (.jmpr reg link z) (fun s => branchReg (.jmpr reg link z) (s.team.rs reg) (link = 1) s) s)

/-- RET (R186). -/
def execRet (z : BitVec 14) (s : State) : Host.Outcome State Fault Refusal :=
  .next (ctOp (.ret z) (fun s => branchReg (.ret z) (s.team.rs 62) false s) s)

/-! ## Loops (R189, R507) -/

/-- The count of a LOOP or REPT. -/
def loopCount (t : Team) (cf : BitVec 1) (cnt : BitVec 9) : Nat :=
  if cf = 1 then field (t.rs (cnt.extractLsb' 3 6)) 31 0 else cnt.toNat

/-- The MX operations of a body. -/
def bodyMx (body : List (Nat × Bundle)) : Nat := (body.filter fun b => nth b.2.words 4 0 ≠ 0).length

/-- LOOP and REPT (R90, R189): inside a body, and for a REPT whose body does not hold exactly one MX operation, the
schedule fault (R507). The body is in the instruction store (R503). -/
def loopOp (i : Instr) (rept : Bool) (cf : BitVec 1) (len : BitVec 4) (cnt : BitVec 9) (s : State) : State :=
  let t := s.team
  let start := t.bpc + bundleLen t.cur.ct
  match fetchBody s start (len.toNat + 1) with
  | (body, none) =>
    let after := body.foldl (fun _ b => b.1 + bundleLen b.2.ct) start
    if t.loop.isSome || (rept && decide (bodyMx body ≠ 1)) then ctTrap 0x0018 0 s
    else
      let c := loopCount t cf cnt
      let pos := t.passed .ct
      placeThen i (if c = 0 then [.lcnt 0] else [.lcnt (BitVec.ofNat 32 c)]) none (fun s => s.onTeam fun t =>
        if c = 0 then { t with pc := after }
        else { t with loop := some { rept := rept, start := start, body := body, after := after, left := c, idx := 0,
                                     pos0 := pos + 1, count := c } }) s
  | (_, some (cause, line)) => if t.loop.isSome then ctTrap 0x0018 0 s else trapNow .ct cause line t.cur.ct s

/-- LOOP (R189). -/
def execLoop (cf : BitVec 1) (len : BitVec 4) (cnt : BitVec 9) (s : State) : Host.Outcome State Fault Refusal :=
  .next (ctOp (.loop cf len cnt) (loopOp (.loop cf len cnt) false cf len cnt) s)

/-- REPT (R92, R93, R189). -/
def execRept (cf : BitVec 1) (len : BitVec 4) (cnt : BitVec 9) (s : State) : Host.Outcome State Fault Refusal :=
  .next (ctOp (.rept cf len cnt) (loopOp (.rept cf len cnt) true cf len cnt) s)

/-! ## Boundaries (R190 to R192) -/

/-- YIELD (R190): the live set is read at placement, from which the new budget counts (R55). -/
def execYield (sel : BitVec 2) (b : BitVec 12) (s : State) : Host.Outcome State Fault Refusal :=
  .next (ctOp (.yield sel b) (fun s =>
    placeThen (.yield sel b) [] (some (.yield b.toNat (vget s.team.yls sel.toNat 0)))
      (fun s => s.onTeam fun t => { t with budget := b.toNat, counted := 0 }) s) s)

/-- NODE (R191): the save mask is read at placement. -/
def execNode (sel : BitVec 2) (b : BitVec 12) (s : State) : Host.Outcome State Fault Refusal :=
  .next (ctOp (.node sel b) (fun s => place (.node sel b) [] (some (.node b.toNat (vget s.team.nsm sel.toNat 0))) s) s)

/-- END (R192). -/
def execEndTeam (z : BitVec 14) (s : State) : Host.Outcome State Fault Refusal :=
  .next (ctOp (.endTeam z) (place (.endTeam z) [] (some .ending)) s)

/-! ## Barriers (R193 to R195) -/

/-- The acting team's cluster. -/
def teamCluster (s : State) : Option Cluster := s.hub.clusters.find? fun c => c.id = s.team.cluster

/-- A barrier of a cluster. -/
def Cluster.barrier (c : Cluster) (b : Nat) : Barrier := vget c.barriers b { expected := 0, next := none, phase := 0, arrived := 0 }

/-- A cluster changed. -/
def modCluster (id : Nat) (f : Cluster → Cluster) (s : State) : State :=
  s.onHub fun h => { h with clusters := modWhere (fun c => c.id = id) f h.clusters }

/-- BARA (R193): the phase is noted now, and the arrival leaves once the LS slot has passed this position. -/
def execBara (bar : BitVec 4) (z : BitVec 10) (s : State) : Host.Outcome State Fault Refusal :=
  .next (ctOp (.bara bar z) (fun s =>
    let pos := s.team.passed .ct
    let phase := ((teamCluster s).map fun c => (c.barrier bar.toNat).phase).getD 0
    placeThen (.bara bar z) [] none (fun s => s.onTeam fun t =>
      { t with noted := vput t.noted bar.toNat (some phase),
               arrivals := t.arrivals ++ [{ bar := bar.toNat, pos := pos, ids := none, sent := false }] }) s) s)

/-- The phase of a barrier of the acting team's cluster. -/
def barPhase (s : State) (bar : Nat) : Nat := ((teamCluster s).map fun c => (c.barrier bar).phase).getD 0

/-- The acting team waits at a BARW until the phase has completed; one that has completed lets it go on at once, with the
acquire of R50. -/
def barWait (bar p pos : Nat) (s : State) : State :=
  if p < barPhase s bar then acquireAt 2 s
  else s.onTeam fun t => { t with park := .barw bar p pos, handover := true }

/-- BARW (R194): the team parks until the noted phase has completed, after the completion of a W bundle (R85); with none noted
it goes on at once with the acquire of R50. -/
def execBarw (bar : BitVec 4) (z : BitVec 10) (s : State) : Host.Outcome State Fault Refusal :=
  .next (ctOp (.barw bar z) (fun s =>
    let pos := s.team.passed .ct
    match vget s.team.noted bar.toNat none with
    | none => placeThen (.barw bar z) [] none (acquireAt 2) s
    | some p =>
      if s.team.cur.w then place (.barw bar z) [] (some (.barw bar.toNat p)) s
      else placeThen (.barw bar z) [] none (fun s =>
        let s := barWait bar.toNat p pos s
        if s.team.handover then s.onCore fun c => { c with issueFrom := s.now + 8 } else s) s) s)

/-- BARC (R195). -/
def execBarc (bar : BitVec 4) (cnt : BitVec 6) (z : BitVec 4) (s : State) : Host.Outcome State Fault Refusal :=
  .next (ctOp (.barc bar cnt z) (fun s =>
    let n := cnt.toNat + 1
    let set := fun b : Barrier => if b.arrived = 0 then { b with expected := n, next := none } else { b with next := some n }
    placeThen (.barc bar cnt z) [] none (fun s => modCluster s.team.cluster (fun c =>
      { c with barriers := vput c.barriers bar.toNat (set (c.barrier bar.toNat)) }) s) s) s)

/-! ## Waits and wakes (R196 to R199) -/

/-- WAITX (R196): the team parks once the bundle has completed. -/
def execWaitx (ev : BitVec 4) (t : BitVec 10) (s : State) : Host.Outcome State Fault Refusal :=
  .next (ctOp (.waitx ev t) (place (.waitx ev t) [] (some (.waitx ev.toNat (64 * t.toNat)))) s)

/-- The key of a VA: the package whose table holds it, or none when it is misaligned or no window maps it (R411,
R511). -/
def keyPackage (t : Team) (va : Double) : Option Nat :=
  if va.extractLsb' 0 3 ≠ 0 ∨ va.extractLsb' 56 8 ≠ 0 then none
  else windowPackage t.windows va.toNat

/-- WWAIT (R197, R511). -/
def execWwait (reg : BitVec 6) (t : BitVec 8) (s : State) : Host.Outcome State Fault Refusal :=
  .next (ctOp (.wwait reg t) (fun s =>
    let va := s.team.rs reg
    match keyPackage s.team va with
    | none => ctTrap (if placeFull 0 s then 0x0018 else 0x0020) va.toNat s
    | some pkg => place (.wwait reg t) [] (some (.wwait va.toNat pkg (1024 * t.toNat))) s) s)

/-- WWAKE (R198, R511): the wake leaves once the LS slot has passed this position. -/
def execWwake (reg : BitVec 6) (n : BitVec 8) (s : State) : Host.Outcome State Fault Refusal :=
  .next (ctOp (.wwake reg n) (fun s =>
    let va := s.team.rs reg
    let pos := s.team.passed .ct
    match keyPackage s.team va with
    | none => ctTrap (if placeFull 0 s then 0x0018 else 0x0020) va.toNat s
    | some pkg =>
      placeThen (.wwake reg n) [] none (fun s => s.onTeam fun t =>
        { t with wakes := t.wakes ++ [(pos, va.toNat, pkg, n.toNat)] }) s) s)

/-- REFW (R199). -/
def execRefw (group : BitVec 3) (z : BitVec 11) (s : State) : Host.Outcome State Fault Refusal :=
  .next (ctOp (.refw group z) (place (.refw group z) [] (some (.refw group.toNat))) s)

/-! ## Clocks, power, services and breaks (R200 to R203) -/

/-- The domain of a CLKDIV. -/
def domainOf (d : BitVec 2) : Domain :=
  match d.toNat with
  | 0 => .core
  | 1 => .vx
  | 2 => .mx
  | _ => .dx

/-- CLKDIV (R200): it takes effect when its bundle completes. -/
def execClkdiv (dom : BitVec 2) (dv : BitVec 4) (z : BitVec 8) (s : State) : Host.Outcome State Fault Refusal :=
  .next (ctOp (.clkdiv dom dv z) (place (.clkdiv dom dv z) [] (some (.clkdiv (domainOf dom) dv.toNat))) s)

/-- PWRQ (R201). -/
def execPwrq (level : BitVec 4) (z : BitVec 10) (s : State) : Host.Outcome State Fault Refusal :=
  .next (ctOp (.pwrq level z) (fun s =>
    placeThen (.pwrq level z) [] none (fun s => s.onCore fun c => { c with pwrq := some level.toNat }) s) s)

/-- SVC (R202): the call leaves when its bundle completes. -/
def execSvc (num : BitVec 14) (s : State) : Host.Outcome State Fault Refusal :=
  .next (ctOp (.svc num) (place (.svc num) [] (some (.svc num.toNat))) s)

/-- BRK (R203): the trap is raised when its bundle completes. -/
def execBrk (code : BitVec 14) (s : State) : Host.Outcome State Fault Refusal :=
  .next (ctOp (.brk code) (place (.brk code) [] (some (.brk code.toNat))) s)

end Sys2Proof.Machine
end

