-- ==== Sys2Proof/Machine/Front.lean ====
section
/-! DEFINITION. How a core goes from one reference cycle to the next: results land, dispatch places a bundle, the slot
engines take their positions, the sweep engine and the matrix array take a cycle, bundles complete, teams park, freeze
and hand over, and the core arbitrates (spec/03_core_timing.md R67 to R104, spec/02_work_hierarchy.md R55 to R63,
spec/14_launch_scheduling.md R410, spec/15_traps_preemption.md R416 to R420). A reference cycle is cut into turns
(`Turn`), and `prepare` says what a turn does: it changes the state, and may name one instruction that `exec` then
performs. The order of the turns of one reference cycle is log entry 6. -/

namespace Sys2Proof.Machine

/-! ## The issuing team -/

/-- The issuing team of the foreground core (R39). -/
def issuer (s : State) : Option TeamRef :=
  match s.core.issuing, s.die.logical s.core.pcore with
  | some r, some l => some { die := s.core.die, lcore := l, rslot := r }
  | _, _ => none

/-- A core with its die in the foreground, and its issuing team if it has one. -/
def focusPlace (d p : Nat) (s : State) : State :=
  let s := (s.focusDie d).focusCore d p
  match issuer s with
  | some r => s.focusTeam r
  | none => s

/-- The acting team is the issuing team of the foreground core. -/
def issues (s : State) : Bool := issuer s = some s.team.ref

/-- A team is frozen (R416). -/
def Team.frozen (t : Team) : Bool := (t.trap.map (·.frozen)).getD false

/-- The owner of the foreground core's engines is frozen: its MX and RX operations keep their counts (R416). -/
def ownerFrozen (s : State) : Bool :=
  (s.residents s.core.die s.core.pcore).any fun r => (s.teamAt r).tid.getLsbD 14 && (s.teamAt r).frozen

/-- Turns that follow at once, before those still to be taken. -/
def first (ts : List Turn) (s : State) : State := { s with agenda := ts ++ s.agenda }

/-! ## Landing (R74) -/

/-- A DX cycle of the copies: one whose beats have all run completes, or makes progress, with them in the core's own LM, and
otherwise after a time that the spec does not state (R96, R100, R292). -/
def beatCopies (s : State) : State :=
  let due := s.core.copies.filter fun c => c.beats.any (· ≤ 1)
  let s := s.onCore fun k => { k with copies := k.copies.map fun c => match c.beats with
    | some n => { c with beats := if n ≤ 1 then none else some (n - 1) }
    | none => c }
  due.foldl (fun s c =>
    let i : Instr := match c.kind with
      | .cpyl _ => .cpylProgress
      | _ => .copyComplete
    if c.exact then first [.event i { team := c.team, id := c.id }] s else leaveCopy i c s) s

/-- One cycle of the foreground core's domains towards every result in flight: those due land, and MX operations whose
writes complete are named. -/
def landCore (s : State) : State :=
  let c := s.core
  let on := fun d => c.starts d s.now
  let s := (s.residents c.die c.pcore).foldl
    (fun s r => s.modTeam r fun t => if t.frozen then t else landTeam c on t) s
  let s := if on .mx && !ownerFrozen s then
      let s := rotationCycle (s.onCore fun c => { c with mxq := c.mxq.map MxOp.count, fixed := (c.fixed.map FixedOp.count).filter fun o => o.rem ≠ 0 })
      first ((s.core.mxq.filter fun o => o.after = some 0).map fun o =>
        .event .mmaWrite { team := o.team, id := o.id }) s
    else s
  if on .dx then beatCopies (s.onCore fun c => { c with dxBusy := c.dxBusy - 1 }) else s

/-- RESULT_LANDS (R74, R75). -/
def execResultLands (s : State) : Host.Outcome State Fault Refusal := .next (landCore s)

/-- Something of the foreground core counts cycles. -/
def counting (s : State) : Bool :=
  !s.core.mxq.isEmpty || !s.core.rxq.isEmpty || !s.core.fixed.isEmpty || decide (0 < s.core.rxBusy) || decide (0 < s.core.dxBusy) ||
    s.core.copies.any (fun c => c.beats.isSome) ||
    (s.residents s.core.die s.core.pcore).any fun r => !(s.teamAt r).flight.isEmpty

/-! ## Dispatch (R68, R71, R72, R502, R503) -/

/-- No slot is 16 positions behind (R72). -/
def Team.withinSlip (t : Team) : Bool :=
  (List.range 8).all fun j => decide (t.passed .ct ≤ vget t.pass j 0 + 15)

/-- Every slot has passed every position placed. -/
def Team.drained (t : Team) : Bool := decide (t.oldest = t.passed .ct)

/-- Dispatch of the acting team may place a bundle, if it has one: no S or W bundle waits to complete, the team is not
parked, frozen or handing over, no trap is pending, and a forced save lets only a delay bundle pass (R71, R72, R83,
R199, R420, R530). -/
def mayPlace (s : State) : Bool :=
  let t := s.team
  issues s && t.sync.isNone && decide (t.park = .none) && !t.handover && t.trap.isNone && t.deferred.isEmpty &&
    t.withinSlip && decide (s.core.issueFrom ≤ s.now) && decide (t.refwUntil.getD 0 ≤ s.now) &&
    (!t.forcedAsked || t.delay.isSome)

/-- The CT word is that of a LOOP or REPT: its length in bundles. -/
def loopLength (ct : Word32) : Option Nat :=
  match decodeCt ct with
  | .loop _ len _ | .rept _ len _ => some (len.toNat + 1)
  | _ => none

/-- The bundle that the acting team's dispatch places next, with its address, or the fetch fault that it raises: a LOOP
or REPT needs its whole body (R502, R503). -/
def nextBundle (s : State) : Nat × Fetched :=
  let t := s.team
  match t.loop with
  | some l =>
    let b := nth l.body l.idx (t.pc, t.cur)
    (b.1, .bundle b.2)
  | none =>
    (t.pc, match fetchBundle s t.pc with
      | .missing c l w => .missing c l w
      | .bundle b =>
        match t.skipCt, loopLength b.ct with
        | false, some n =>
          (match fetchBody s (t.pc + bundleLen b.ct) n with
          | (_, some (cause, line)) => .missing cause line b.ct
          | _ => .bundle b)
        | _, _ => .bundle b)

/-- The foreground core inserts a stall bundle in the core cycle that starts: its next bundle would exceed the grant,
and is not the first of its window (R99, R100). -/
def stallNow (s : State) : Bool :=
  mayPlace s && !s.core.freshWindow &&
    (match (nextBundle s).2 with
    | .bundle b => decide (s.core.grant < s.core.wsum + s.core.weight b.e)
    | .missing _ _ _ => false)

/-- A bundle is put before dispatch: its CT operation is the instruction that is performed. A link that waited for the length
of its delay bundle reaches s62 now, so that a CT operation there reads it (R187). -/
def present (va : Nat) (b : Bundle) (s : State) : State :=
  s.onTeam fun t =>
    let t := { t with cur := b, bpc := va }
    if t.link then { t.write (.s 62 (dbl (va + bundleLen b.ct))) with link := false } else t

/-- The dispatch turn of the foreground core: the CT operation of the next bundle, or a fetch fault once every slot has
passed the positions placed. -/
def dispatchTurn (s : State) : State × Option Instr :=
  if mayPlace s && s.core.starts .core s.now then
    match nextBundle s with
    | (va, .bundle b) => (present va b s, some (decodeCt b.ct))
    | (_, .missing cause line ct) =>
      if s.team.drained then
        ({ s with occ := { team := s.team.ref, aux := cause, id := line, w := ct.setWidth 64 } }, some .fetchFault)
      else (s, none)
  else (s, none)

/-- FETCH_FAULT (R502). -/
def execFetchFault (s : State) : Host.Outcome State Fault Refusal :=
  let s := s.focus s.occ.team
  .next (trapNow .ct s.occ.aux s.occ.id (s.occ.w.setWidth 32) s)

/-! ## Slots (R69, R93) -/

/-- The word of a slot in a placed bundle. -/
def Placed.word (p : Placed) (j : Slot) : Word32 := nth p.words (slotNum j - 1) 0

/-- The MX engine passes the NOP positions of a REPT body at no cost (R93). -/
def skipRept (t : Team) : Nat → Team
  | 0 => t
  | n + 1 =>
    match t.placedAt (t.passed .mx) with
    | some p => if p.rept && p.word .mx = 0 && t.mayMove .mx then skipRept (t.pass1 .mx) n else t
    | none => t

/-- The turn of a slot engine of the foreground core's issuing team: the operation at its position. -/
def slotTurn (j : Slot) (s : State) : State × Option Instr :=
  if issues s && s.core.starts (slotDomain j) s.now then
    let s := if j = .mx then s.onTeam fun t => skipRept t 17 else s
    match s.team.placedAt (s.team.passed j) with
    | some p => if s.team.mayMove j then (s, some (decodeSlot j (p.word j))) else (s, none)
    | none => (s, none)
  else (s, none)

/-! ## Arbitration (R410) -/

/-- Restored from a forced save, and still frozen: its counts go on with its dispatch (R425, R435). -/
def Team.resuming (t : Team) : Bool :=
  t.resident && !t.forcedAsked && (t.trap.map fun x => x.frozen && decide (x.cause = 0)).getD false

/-- A team asked to stop that has issued nothing since its last boundary is at that boundary still: R61 says so of a YIELD and of a
gang start, and the model of a NODE as well (DESIGN CHOICE, log entry 30). -/
def Team.stands (t : Team) : Bool := t.stopAsked && !t.issued && decide (t.park = .none) && t.sync.isNone

/-- Ready: resident and not parked (R56), and not standing at a boundary at which it has been asked to stop (R61). A freeze is no
park (R416). A team that resumes from a forced save is ready in a W park too, which does not hand over the core (R58). -/
def Team.ready (t : Team) : Bool :=
  t.resident && ((decide (t.park = .none) && !t.stands) || (t.resuming && decide (t.park = .w)))

/-- The queue that a team's launch came from. -/
def teamQueue (s : State) (t : Team) : Option Queue :=
  match s.hub.clusters.find? fun c => c.id = t.cluster with
  | none => none
  | some c =>
    match s.hub.launches.find? fun l => l.id = c.launch with
    | none => none
    | some l => s.hub.queue l.qid

/-- prio(T). -/
def teamPrio (s : State) (t : Team) : Nat := ((teamQueue s t).map fun q => field q.cfg 18 16).getD 0

/-- The slice of T's queue, in counted cycles. -/
def fullSlice (s : State) (t : Team) : Nat := 64 * ((teamQueue s t).map fun q => field q.cfg 35 24).getD 0

/-- rem(T), in units of 64 counted cycles. -/
def Team.rem (t : Team) : Nat := (t.slice + 63) / 64

/-- fits(T). -/
def Team.fits (t : Team) : Bool := decide (t.budget ≤ t.rem)

/-- Some count of candidates has no slack left. -/
def tight (cand : List Team) : Bool :=
  (List.range 4).any fun j => decide (j + 1 ≤ (cand.filter fun t => decide (3 - t.miss ≤ j)).length)

/-- `a` ranks above `b`, which has a lower resident slot. -/
def outranks (s : State) (a b : Team) : Bool :=
  let pa := teamPrio s a
  let pb := teamPrio s b
  if pa ≠ pb then decide (pb < pa)
  else if a.fits ≠ b.fits then a.fits
  else decide (b.miss < a.miss)

/-- The first of the candidates, in ascending resident slot, that no other ranks above. -/
def best (above : Team → Team → Bool) : List Team → Option Team
  | [] => none
  | t :: ts => some (ts.foldl (fun b x => if above x b then x else b) t)

/-- The pick (R410). -/
def pickTeam (s : State) (cand : List Team) : Option Team :=
  if tight cand then best (fun a b => decide (3 - a.miss < 3 - b.miss)) cand else best (outranks s) cand

/-- The foreground core arbitrates (R410). A team that follows itself needs no hand-over (R57). -/
def arbitrate (s : State) : State :=
  let rs := s.residents s.core.die s.core.pcore
  let cand := (rs.map s.teamAt).filter Team.ready
  let pick := pickTeam s cand
  let ref := pick.map (·.ref)
  let upd := fun s r => s.modTeam r fun t =>
    if some r = ref then { t with miss := 0, slice := if t.fits then t.slice else fullSlice s t }
    else if t.ready then { t with miss := t.miss + 1 } else { t with miss := 0 }
  let s := rs.foldl upd s
  let slot := ref.map (·.rslot)
  s.onCore fun c => { c with issuing := slot, issueFrom := if slot = c.issuing then 0 else c.issueFrom }

/-- A core on which no team issues arbitrates once one is ready, in the core cycle after; the first bundle of the team that it
picks follows in the core cycle after that (R48, R410). -/
def idleArbitrate (s : State) : State :=
  if s.core.issuing.isNone && ((s.residents s.core.die s.core.pcore).map s.teamAt).any Team.ready then
    let s := arbitrate s
    s.onCore fun c => { c with issueFrom := max c.issueFrom (s.now + 1) }
  else s

/-! ## What a park waits for (R60, R196) -/

/-- The team's copies and sweep operations, MX and RX operations and variable-latency operations have completed and
RELC is zero (R60). -/
def nodeReady (s : State) (t : Team) : Bool :=
  let c := s.coreAt t.ref.die (s.coreOf t.ref)
  t.vars.isEmpty && t.writes.isEmpty && !(c.copies.any fun x => x.team = t.ref) &&
    !(c.mxq.any fun x => x.team = t.ref) && !(c.rxq.any fun x => x.team = t.ref) && !(c.fixed.any fun x => x.team = t.ref)

/-- The event of a WAITX holds (R196). -/
def waitHolds (s : State) (t : Team) (ev pos : Nat) : Bool :=
  let c := s.coreAt t.ref.die (s.coreOf t.ref)
  match ev with
  | 0 => copiesDone c t.ref pos
  | 1 => !(c.mxq.any fun x => x.team = t.ref && decide (x.pos < pos)) &&
      !(t.vars.any fun a => a.op.isMstz && decide (a.pos < pos)) && !(c.rxq.any fun x => x.team = t.ref && decide (x.pos < pos)) &&
      !(c.fixed.any fun x => x.team = t.ref && decide (x.pos < pos))
  | 2 => sweepStill c t.ref pos
  | _ => false

/-- TSW.wx at the end of a wait. -/
def Team.endWait (wx : Nat) (t : Team) : Team := { t with park := .none, tsw := setField t.tsw 8 8 wx }

/-- A team parks, and its core hands over once its results have landed (R58). -/
def parkAt (p : Park) (s : State) : State := s.onTeam fun t => { t with park := p, handover := true }

/-- A team that has been asked to stop stays at the boundary that it has reached (R61): an issuing team's core arbitrates, as R57
has it after a YIELD, and another team has no core to hand over (R39). -/
def standAtBoundary (s : State) : State :=
  let s' := s.onTeam fun t => { t with park := .boundary, handover := false }
  if issues s then arbitrate s' else s'

/-! ## Registers that a boundary leaves unspecified (R59, R60); log entry 3 -/

/-- The team's registers of each file for which `keep` does not hold replaced by free values. -/
def freeFiles (n : Nat) (ks ka kd kv : Nat → Bool) (t : Team) : Team :=
  { t with
    s := Vector.ofFn fun i => if ks i.val then t.s[i] else Config.freeDouble (n + i.val),
    a := Vector.ofFn fun i => if ka i.val then t.a[i] else Config.freeDouble (n + 64 + i.val),
    d := Vector.ofFn fun i => if kd i.val then t.d[i] else Config.freeDouble (n + 80 + i.val),
    v := Vector.ofFn fun i => if kv i.val then t.v[i] else freeV (n + 96 + i.val) }

/-- The predicates, masks and LCNT replaced by free values. -/
def freeBits (n : Nat) (t : Team) : Team :=
  { t with p := Vector.ofFn fun i => Config.freeBit (n + 160 + i.val),
           m := Vector.ofFn fun i => Config.freeDouble (n + 168 + i.val),
           lcnt := Config.freeWord (n + 176) 0 }

/-- TSW, YLS and NSM replaced by free values: TSW keeps its layout, and rm one of its four codes (R180). -/
def freeControl (n : Nat) (t : Team) : Team :=
  let x := Config.freeDouble (n + 177)
  let w := setField (setField (setField 0 47 32 (field x 47 32)) 15 12 (field x 15 12)) 8 8 (field x 8 8)
  { t with tsw := setField w 2 0 (1 + field x 1 0),
           yls := Vector.ofFn fun i => Config.freeDouble (n + 178 + i.val),
           nsm := Vector.ofFn fun i => Config.freeDouble (n + 182 + i.val) }

/-- The registers outside a YIELD's live set (R59, R182). -/
def yieldFree (live : Double) (s : State) : State :=
  { s with team := freeFiles s.free (fun i => live.getLsbD (48 + i / 4)) (fun i => live.getLsbD (16 + i))
             (fun i => live.getLsbD i) (fun i => live.getLsbD (32 + i / 4)) s.team,
           free := s.free + 256 }

/-- An unspecified tri; log entry 3. -/
def freeTri (n : Nat) : Tri :=
  let q := fun i => (BitVec.ofNat 40 (Config.freeDouble (n + i)).toNat).toInt
  { rows := (List.range 16).map fun i =>
      { r := (List.range 16).map fun j => if j < i then 0 else q (16 * i + j), y := q (256 + i),
        g := (Config.freeByte n i).toNat % 255 },
    record := if Config.freeBit n then
        some ((List.range 16).map fun i => (Config.freeWord n i, Config.freeBit (n + 1 + i))) else none,
    range := Config.freeBit (n + 17) }

/-- The owner state of the foreground core after a NODE, or at a gang start (R60, R94, R301, R315): unspecified, the
rings and shoals unbound, nothing pinned. -/
def freeOwner (s : State) : State :=
  let n := s.free
  { s with free := n + 512,
           core := { s.core with acc := { epoch := n + 300, rows := [] },
                                 tags := Vector.ofFn fun i => Config.freeBit (n + 301 + i.val), latchOpen := true,
                                 pins := [], tri := freeTri n, rings := Vector.replicate 8 none, fills := [],
                                 shoals := Vector.replicate 4 none, code := [], codeEpoch := n + 310 } }

/-- What a NODE leaves (R60). -/
def nodeFree (mask : Double) (s : State) : State :=
  let t := freeControl s.free (freeBits s.free
    (freeFiles s.free (fun i => decide (i = 0) || mask.getLsbD i) (fun _ => true) (fun _ => false) (fun _ => false) s.team))
  let s : State := { s with team := t, free := s.free + 256 }
  let s := clearGrant t.ref.die t.ref.lcore t.lmg true s
  if t.tid.getLsbD 14 then freeOwner s else s

/-- The node boundary is reached (R60): the team continues at the bundle after the NODE under its new budget, or stops
there for a boundary save (R61). -/
def finishNode (b : Nat) (mask : Double) (s : State) : State :=
  let s := nodeFree mask s
  let s := s.onTeam fun t => { t with budget := b, counted := 0, issued := false, park := .none, atNode := true }
  if s.team.stopAsked then standAtBoundary s else s

/-- The team ends (R192): its registers are discarded, its slot and grant stay with its cluster until that ends; when
every team of the cluster has, the cluster ends, and with its launch's last cluster the packet may retire (R403). -/
def finishEnd (s : State) : State :=
  let t := s.team
  let s := if t.tid.getLsbD 14 then s.onCore fun c => c.endOwner else s
  let s := removeWaiter (.team t.ref t.cluster) s
  let s := s.onTeam fun t =>
    { Team.reset t.ref with resident := true, tenant := t.tenant, cluster := t.cluster, tid := t.tid, cid := t.cid,
                            lmg := t.lmg, park := .ending, handover := t.handover }
  let s := modCluster t.cluster (fun c => { c with ended := t.ref :: c.ended }) s
  match s.hub.clusters.find? fun c => c.id = t.cluster with
  | none => s
  | some c =>
    if c.teams.all c.ended.contains then
      let s := (endCluster c.id s).next .queueNotify { aux := 2 }
      match s.hub.launches.find? fun l => l.id = c.launch with
      | none => s
      | some l => if (launchClusters s.hub l.id).isEmpty then s.next .packetRetire { id := l.id } else s
    else s

/-- A team of the cluster has ended. -/
def hasEnded (s : State) (t : Team) : Bool :=
  match s.hub.clusters.find? fun c => c.id = t.cluster with
  | none => true
  | some c => c.ended.contains t.ref

/-! ## Completion of S and W bundles (R83, R85) -/

/-- The floors that the package controller holds for a core (R445). -/
def floorsOf (s : State) (d p : Nat) : Double := (SMap.get? s.hub.clkflr (72 * d + p)).getD 0x1211

/-- The divisors of the foreground core raised to the floors, after a request for one domain; a change starts every
domain's cycles anew in the next reference cycle (R96, R200, R445). -/
def setDivisors (req : Option (Domain × Nat)) (s : State) : State :=
  let f := floorsOf s s.core.die s.core.pcore
  let new := [Domain.core, .vx, .mx, .dx].foldl (fun x d =>
    let cur := match req with
      | some (r, n) => if r = d then n else s.core.divisor d
      | none => s.core.divisor d
    setField x (4 * d.idx + 3) (4 * d.idx) (max cur (field f (4 * d.idx + 3) (4 * d.idx)))) 0
  if new = s.core.clkd then s.onCore fun c => { c with floorChange := false }
  else s.onCore fun c => { c with clkd := new, floorChange := false, base := Vector.replicate 4 (s.now + 1) }

/-- The end of the current or next unavailable window of a bank group (R199, R305). -/
def windowEnd (s : State) (g : Nat) : Nat :=
  let e := (s.hub.refreshPhase + 9600 * g) % 76800 + 512
  e + (s.now + 76800 - e) / 76800 * 76800

/-- The call record of an SVC (R202, R427, R436). -/
def callRecord (y : Sync) (num : Nat) (s : State) : State :=
  let n := (field s.team.tsw 47 32 + 1) % 2 ^ 16
  let t := { s.team with tsw := setField s.team.tsw 47 32 n, callSeq := some n }
  let x := trapOf t .ct 0 0 0
  let args := (List.range 6).map fun i => t.rs (BitVec.ofNat 6 (i + 1))
  { s with team := t, die := s.die.pushRecord s.core.pcore fun seq =>
             recordDoubles seq y.bpc 0 0 (recordInfo 1 x n 0 num) t.tid 0 t.saveArea args y.ct }

/-- A WWAIT proceeds (R197, R411, R548). -/
def startWait (va pkg limit : Nat) (s : State) : State :=
  match joinKey (.team s.team.ref s.team.cluster) pkg s.team.tenant va s with
  | (.token, s) => s.onTeam (Team.endWait 0)
  | (.full, s) => s.onTeam (Team.endWait 1)
  | (.waits, s) => parkAt (.wwait va pkg limit 0) s

/-- What follows the completion of an S or W bundle of the acting team. -/
def afterSync (y : Sync) (s : State) : State :=
  match y.kind with
  | .plain => s
  | .yield _ live =>
    let s := (yieldFree live s).onTeam fun t => { t with issued := false, atNode := false }
    if s.team.stopAsked then standAtBoundary s else arbitrate s
  | .node b mask => if nodeReady s s.team then finishNode b mask s else parkAt (.node b mask) s
  | .ending => (if nodeReady s s.team then finishEnd else id) (parkAt .ending s)
  | .waitx ev limit =>
    if waitHolds s s.team ev y.pos then s.onTeam (Team.endWait 0) else parkAt (.waitx ev y.pos limit 0) s
  | .clkdiv dom dv => setDivisors (some (dom, dv)) s
  | .svc num => callRecord y num (parkAt .svc s)
  | .brk _ => trapNow .ct 0x0040 0 y.ct s
  | .wwait va pkg limit => startWait va pkg limit s
  | .refw g => s.onTeam fun t => { t with refwUntil := some (windowEnd s g) }
  | .barw b p => barWait b p y.pos s

/-- The issuing team hands its core over: every slot has passed the bundle and every result has landed (R58). -/
def handOver (s : State) : State :=
  let t := s.team
  if t.handover && issues s && t.drained && t.flight.isEmpty && !(s.core.rxq.any fun x => x.team = t.ref) then
    arbitrate (s.onTeam fun t => { t with handover := false })
  else s

/-- Results of slots 0 to 4 and of DX at or before a position have landed. -/
def Team.landed (t : Team) (p : Nat) (array : Bool) : Bool :=
  t.flight.all fun l => decide (p < l.pos) || ((l.slot = .mx || l.slot = .rx) && !array)

/-- Updates of tri at or before a position have landed. -/
def triLanded (c : Core) (r : TeamRef) (p : Nat) : Bool := c.rxq.all fun x => x.team ≠ r || decide (p < x.pos)

/-- The bundle completes (R83, R85): every slot has passed it, every fixed-latency result at or before it has landed,
and for a W bundle every variable-latency operation has completed. -/
def syncDone (s : State) (y : Sync) : Bool :=
  let t := s.team
  decide (y.pos < t.oldest) && t.landed y.pos true && triLanded s.core t.ref y.pos &&
    (!y.w || (t.vars.all fun a => !a.op.variable || decide (y.pos < a.pos)) &&
      !(s.core.copies.any fun x => x.team = t.ref && decide (x.pos ≤ y.pos) &&
        (match x.kind with | .tide _ _ _ _ => true | _ => false)))

/-- A YIELD hands its core over before its MX and RX results have landed (R57). -/
def yieldDone (s : State) (y : Sync) : Bool :=
  (match y.kind with | .yield _ _ => true | _ => false) && !y.w && decide (y.pos < s.team.oldest) &&
    s.team.landed y.pos false

/-- An S or W bundle of the acting team completes. -/
def completeSync (s : State) : State :=
  match s.team.sync with
  | none => s
  | some y =>
    let full := syncDone s y
    let s := s.onTeam fun t =>
      { t with sync := if full then none else some { y with kind := .plain }, park := if t.park = .w then .none else t.park }
    let s := if s.core.floorChange then setDivisors none s else s
    handOver (afterSync y s)

/-- S_BUNDLE_COMPLETE (R83). -/
def execSBundleComplete (s : State) : Host.Outcome State Fault Refusal := .next (completeSync (s.focus s.occ.team))

/-- W_BUNDLE_COMPLETE (R85). -/
def execWBundleComplete (s : State) : Host.Outcome State Fault Refusal := .next (completeSync (s.focus s.occ.team))

/-! ## Barriers, waits and wakes (R193 to R198) -/

/-- One more arrival: a phase with the expected count completes (R49, R195). -/
def Barrier.arrive (b : Barrier) : Barrier :=
  if b.expected ≤ b.arrived + 1 then
    { expected := b.next.getD b.expected, next := none, phase := b.phase + 1, arrived := 0 }
  else { b with arrived := b.arrived + 1 }

/-- A team parked at a BARW whose phase has completed goes on, with the acquire of R50 (R63, R194). -/
def Team.barReady (now bar phase : Nat) (t : Team) : Team :=
  match t.park with
  | .barw b p _ => if b = bar ∧ p < phase then { t with park := .none, acqDie := now + 1 } else t
  | _ => t

/-- An arrival at a barrier of a cluster. -/
def arrive (cluster bar : Nat) (s : State) : State :=
  let s := modCluster cluster (fun c => { c with barriers := vput c.barriers bar (c.barrier bar).arrive }) s
  match s.hub.clusters.find? fun c => c.id = cluster with
  | none => s
  | some c =>
    let up := Team.barReady s.now bar (c.barrier bar).phase
    let s := s.modTeams (fun t => t.resident && t.cluster = cluster) up
    s.onHub fun h => { h with saved := h.saved.map fun x =>
      if x.team.cluster = cluster then { x with team := up x.team } else x }

/-- BARRIER_ARRIVAL (R193). -/
def execBarrierArrival (s : State) : Host.Outcome State Fault Refusal :=
  .next (arrive (s.teamAt s.occ.team).cluster s.occ.aux s)

/-- WAITX_TIMEOUT (R196): an event that holds in the same core cycle ends the wait instead. -/
def execWaitxTimeout (s : State) : Host.Outcome State Fault Refusal :=
  let s := s.focus s.occ.team
  .next (match s.team.park with
    | .waitx ev pos _ _ => s.onTeam (Team.endWait (if waitHolds s s.team ev pos then 0 else 1))
    | _ => s)

/-- WWAIT_TIMEOUT (R197): the team leaves the waiters of its key. -/
def execWwaitTimeout (s : State) : Host.Outcome State Fault Refusal :=
  let s := s.focus s.occ.team
  .next (match s.team.park with
    | .wwait _ _ _ _ => (removeWaiter (.team s.team.ref s.team.cluster) s).onTeam (Team.endWait 1)
    | _ => s)

/-- An arrival of the acting team goes on (R50, R193, R370, R378): as the LS slot passes the BARA's position, the writes that it
waits for are fixed; once the earlier loads have returned and the earlier stores have been performed, the write-backs of a
release at .die join them; and it leaves once they are all acknowledged. -/
def moveArrival (s : State) (x : Arrival) : State :=
  let keep := fun (y : Arrival) (s : State) => s.onTeam fun t : Team => { t with arrivals := t.arrivals ++ [y] }
  if s.team.passed .ls ≤ x.pos then keep x s
  else
    let ids := x.ids.getD (s.team.countedWrites 1)
    if !x.sent && (s.team.loadsOut x.pos || s.team.storesOut x.pos) then keep { x with ids := some ids } s
    else
      let old := s.team.countedWrites 1
      let s := if x.sent then s else releaseWriteBacks 2 s
      let ids := ids ++ (if x.sent then [] else (s.team.countedWrites 1).filter fun i => !old.contains i)
      if s.team.acked 1 ids then s.next .barrierArrival { team := s.team.ref, aux := x.bar }
      else keep { x with ids := some ids, sent := true } s

/-- The arrivals of the acting team that are not yet sent. -/
def moveArrivals (s : State) : State :=
  s.team.arrivals.foldl moveArrival (s.onTeam fun t => { t with arrivals := [] })

/-- The wakes of the acting team whose position the LS slot has passed leave the core (R198); one with no
window has been refused at its placement. -/
def moveWakes (s : State) : State :=
  let t := s.team
  let go := t.wakes.filter fun w => decide (w.1 < t.passed .ls)
  let s := s.onTeam fun t => { t with wakes := t.wakes.filter fun w => !decide (w.1 < t.passed .ls) }
  go.foldl (fun s (_, va, pkg, n) => wakeAt pkg t.tenant va n s) s

/-! ## Parks and freezes at the end of a cycle -/

/-- A parked team whose condition holds is ready (R63). -/
def unpark (s : State) : State :=
  match s.team.park with
  | .waitx ev pos _ _ => if waitHolds s s.team ev pos then s.onTeam (Team.endWait 0) else s
  | .node b mask => if nodeReady s s.team then finishNode b mask s else s
  | .ending => if !hasEnded s s.team && nodeReady s s.team then finishEnd s else s
  | _ => s

/-- A forced save freezes a team at any position that is not a delay bundle, with no record (R416, R420, R435). -/
def forcedFreeze (s : State) : State :=
  let t := s.team
  let atDelay := t.delay.isSome || ((t.placedAt t.oldest).map (·.delay)).getD false
  if t.forcedAsked && t.trap.isNone && !atDelay then
    let x := t.picture { trapOf t .ct 0 0 0 with pos := t.oldest, deferred := true }
    s.onTeam fun t => ({ t with trap := some { x with cause := 0 } }).trapTsw x
  else s

/-- A team that stands at a boundary parks there (R61). -/
def atBoundaryNow (s : State) : State := if s.team.stands then standAtBoundary s else s

/-- The acting team at the end of a reference cycle. -/
def settleTeam (s : State) : State :=
  let s := moveWakes (moveArrivals s)
  if s.team.freezeReady then freeze s
  else if s.team.trap.isSome then s
  else
    let s := takeDeferred s
    if s.team.trap.isSome then s
    else
      let s := match s.team.sync with
        | some y =>
          if yieldDone s y || syncDone s y then
            s.next (if y.w then .wBundleComplete else .sBundleComplete) { team := s.team.ref }
          else s
        | none => s
      let s := handOver (forcedFreeze (atBoundaryNow (unpark s)))
      if issues s && !s.team.forcedAsked && decide (64 * s.team.budget < s.team.counted) then
        s.next .budgetOverrun { team := s.team.ref }
      else s

/-- A team's own operations have ended, as a boundary save, a forced save and a migration wait for; a tide in flight is waited for
only up to its chunk boundary, and by a forced save not at all (R340, R435). What stands behind the tide cannot run before it, and
is carried with it, its writes still counted (R336; DEDUCED, log entry 87). -/
def quiet (s : State) (t : Team) (forced : Bool) : Bool :=
  let c := s.coreAt t.ref.die (s.coreOf t.ref)
  let mine := c.copies.filter fun x => x.team = t.ref
  t.vars.isEmpty && (t.writes.all fun w => mine.any fun x => c.carries x && decide (x.wid = some w.id)) && mine.all c.carries &&
    (forced || (!(c.mxq.any fun x => x.team = t.ref) && !(c.rxq.any fun x => x.team = t.ref) &&
      !(c.fixed.any fun x => x.team = t.ref) && t.flight.isEmpty &&
      t.sync.isNone && (c.sweep.team ≠ t.ref || c.sweep.phase = .idle || c.sweep.isPaused)))

/-- A team stands where its save takes it (R434, R435). -/
def atStop (s : State) (t : Team) (forced : Bool) : Bool :=
  if forced then (match t.trap with
    | some x => x.frozen && decide (x.cause = 0)
    | none => false) && quiet s t true
  else decide (t.park = .boundary) && t.trap.isNone && quiet s t false

/-- The clusters that are saved, restored and placed together with one: the whole grid when it is cooperative (R54). -/
def saveGroup (s : State) (c : Cluster) : List Cluster :=
  match s.hub.launches.find? fun l => l.id = c.launch with
  | some l => if (pktField l.packet 0).getLsbD 11 then launchClusters s.hub l.id else [c]
  | none => [c]

/-- Every team of a cluster stands where a save that has been asked for takes it. -/
def clusterStopped (s : State) (c : Cluster) : Bool :=
  decide (c.phase = .saving) && c.teams.all fun r => c.ended.contains r || atStop s (s.teamAt r) c.forced

/-- The save of a cluster can be taken, with the clusters that are saved with it (R54, R61, R552). -/
def saveReady (s : State) (c : Cluster) : Bool := (saveGroup s c).all (clusterStopped s)

/-- The clusters whose first team the foreground core holds and whose save can be taken. -/
def settleSaves (s : State) : State :=
  let rs := s.residents s.core.die s.core.pcore
  let due := s.hub.clusters.filter fun c => ((c.teams.head?).map rs.contains).getD false && saveReady s c
  first (due.map fun c => .event .boundarySave { id := c.id }) s

/-- Every resident team of a migrating core stands at its boundary, or is parked at an SVC, and waits no more (R439,
R571). -/
def settleMigration (s : State) : State :=
  if s.die.migrates s.core.pcore then
    let ts := (s.residents s.core.die s.core.pcore).map s.teamAt
    if ts.all fun t => t.trap.isNone && (decide (t.park = .boundary) || decide (t.park = .svc) || hasEnded s t) &&
        (hasEnded s t || quiet s t false) then
      s.next .migrationMove { die := s.core.die, core := s.core.pcore }
    else s
  else s

/-- The settle turn of a core: its teams and its saves. -/
def settleTurn (s : State) : State :=
  let rs := s.residents s.core.die s.core.pcore
  settleMigration (settleSaves (rs.foldl (fun s r => settleTeam (s.focusTeam r)) s))

/-! ## The start of a core cycle (R55, R99, R196) -/

/-- A parked team counts a core cycle towards its time-out; past it, the wait ends (R196, R197). -/
def countPark (s : State) (r : TeamRef) : State :=
  let t := s.teamAt r
  match t.park with
  | .waitx ev pos limit n =>
    if limit ≠ 0 ∧ limit ≤ n then first [.event .waitxTimeout { team := r }] s
    else s.modTeam r fun t => { t with park := .waitx ev pos limit (n + 1) }
  | .wwait va pkg limit n =>
    if limit ≠ 0 ∧ limit ≤ n then first [.event .wwaitTimeout { team := r }] s
    else s.modTeam r fun t => { t with park := .wwait va pkg limit (n + 1) }
  | _ => s

/-- The issuing team counts a core cycle towards its budget and its slice while it is not parked or frozen (R55, R410,
R416): after a NODE its budget counts from its first issue (R191). -/
def countIssue (s : State) : State :=
  if issues s && decide (s.team.park = .none) && !s.team.frozen then
    s.onTeam fun t => { t with counted := if t.atNode && !t.issued then t.counted else t.counted + 1, slice := t.slice - 1 }
  else s

/-- The issuing team, restored from a forced save, unfreezes in the core cycle in which it may place its first bundle
(R425). -/
def unfreeze (s : State) : State :=
  if issues s && s.team.resuming && decide (s.core.issueFrom ≤ s.now) then resume (refill s) else s

/-- The start of a reference cycle in which a domain of the core starts a cycle: in a core cycle, a restored team unfreezes,
the stall bundle is decided, the counts of core cycles go on, and an idle core arbitrates; then results land. -/
def landTurn (s : State) : State × Option Instr :=
  let s := if s.core.coreCycle s.now then
      let s := unfreeze s
      let stall := stallNow s
      let s := countIssue (s.onCore fun c => { c with stalled := stall })
      idleArbitrate ((s.residents s.core.die s.core.pcore).foldl countPark s)
    else s
  (s, if counting s then some .resultLands else none)

/-- ENERGY_WINDOW_END (R99, R444): the declared sums start anew, and a re-grant takes effect. -/
def execEnergyWindowEnd (s : State) : Host.Outcome State Fault Refusal :=
  .next (s.modCores (fun _ => true) fun c =>
    { c with wsum := 0, freshWindow := true, grant := c.nextGrant.getD c.grant, nextGrant := none })

/-! ## Turns -/

/-- What a turn does: a change of the state, and the instruction that it has the machine perform, if any. -/
def prepare (t : Turn) (s : State) : State × Option Instr :=
  match t with
  | .land d p => landTurn (focusPlace d p s)
  | .dispatch d p => dispatchTurn (focusPlace d p s)
  | .slot d p j => slotTurn j (focusPlace d p s)
  | .sweep d p =>
    let s := (s.focusDie d).focusCore d p
    if s.core.starts .vx s.now then
      let (s, i) := sweepCycle s
      ({ s with occ := { team := s.core.sweep.team } }, i)
    else (s, none)
  | .array d p =>
    let s := (s.focusDie d).focusCore d p
    (if s.core.starts .mx s.now && !ownerFrozen s then matrixCycle s else s, none)
  | .settle d p => (settleTurn (focusPlace d p s), none)
  | .event i o => ({ s with occ := o }, some i)

end Sys2Proof.Machine
end

