-- ==== Sys2Proof/Machine/Home.lean ====
section
/-! DEFINITION. What happens at the home of a line and when an access comes back: requests at the home, completions and
acknowledgements, fault requests and their answers, invalidations of the translation caches, the region directory,
refresh windows and check-code errors (spec/12_memory_translation.md R360 to R366, spec/13_consistency.md R382 to
R387, spec/22_memory_engine_faults.md R535 to R541, spec/10_copy_rings_weights.md R305). -/

namespace Sys2Proof.Machine

/-! ## Completion (R79, R184) -/

/-- The element width of an access in bits, for the energy table (R441). -/
def AccOp.width : AccOp → Nat
  | .load _ ty | .vload _ _ ty | .amo _ _ ty | .cas _ ty _ => 8 * typeSize (BitVec.ofNat 3 ty)
  | .vamo _ _ _ | .mstz _ => 32
  | .ldsc _ => 8
  | _ => 64

/-- A variable-latency operation of the acting team completes: its results reach their registers, and its energy is
counted (R79, R441). An acquire orders what the team reads next (R379). -/
def completeAccess (a : Access) (s : State) : State :=
  let s := s.onTeam fun t => { t with vars := t.vars.filter fun b => b.id ≠ a.id }
  let e := some (64 * slotNum a.slot + a.word.toNat / 2 ^ 26, a.op.width)
  let s := s.onTeam fun t => retire s.core (slotDomain a.slot) e (a.results.foldl Team.write t)
  match a.op, a.scope with
  | .load _ _, some sc => acquireAt sc s
  | _, _ => s

/-- VARIABLE_OP_COMPLETE (R79): in a stall bundle the return waits at the core (R100). -/
def execVariableOpComplete (s : State) : Host.Outcome State Fault Refusal :=
  let s := s.focus s.occ.team
  .next (match s.team.vars.find? fun a => a.id = s.occ.id && decide (a.phase = .performed) with
    | none => s
    | some a => if s.core.stalled then s.after 1 .variableOpComplete s.occ else completeAccess a s)

/-- WRITE_ACKNOWLEDGE (R184): the write is acknowledged at every scope; in a stall bundle it waits at the core (R100). -/
def execWriteAcknowledge (s : State) : Host.Outcome State Fault Refusal :=
  let id := s.occ.id
  .next (if coreStalled s s.occ.team then s.after 1 .writeAcknowledge s.occ
    else s.modTeam s.occ.team fun t => { t with writes := t.writes.filter fun w => w.id ≠ id })

/-! ## Demand-mode faults of the ls path (R538) -/

/-- A team frozen by a fault notice goes on once the record has been answered and every held request of the team has
passed its home check. -/
def resumeNotice (s : State) : State :=
  match s.team.trap with
  | some x =>
    if x.frozen && decide (x.cause = 0x0022) && x.answered && !(s.team.vars.any fun a => a.phase = .held) then resume (refill s)
    else s
  | none => s

/-- The address that names a line of an access: the first byte of the line that the access touches (R538). -/
def Access.vaOn (a : Access) (line : Nat) : Nat :=
  match a.parts.find? fun p => (linesOf p.ipa p.size).contains line with
  | some p => p.va + (line - p.ipa)
  | none => a.va

/-- An ls request is held at the home: its team will be told (R538). A tile's writes are of the tf path, which only
waits. -/
def holdAccess (a : Access) (va : Nat) (s : State) : State :=
  let fresh := decide (a.phase ≠ .held)
  let s := putAccess { a with phase := .held } s
  if fresh && !a.op.isMstz && decide (a.tenant = (s.teamAt a.team).tenant) then
    s.later .demandFaultNotice { team := a.team, id := a.id, tenant := a.tenant, aux := va, w := a.word.setWidth 64 }
  else s

/-- DEMAND_FAULT_NOTICE (R538): the team freezes with the record of slot 3; a notice that arrives while it is frozen
adds none, and one that finds a trap still being taken, or a call record of the team outstanding (R426), waits. -/
def execDemandFaultNotice (s : State) : Host.Outcome State Fault Refusal :=
  let s := s.focus s.occ.team
  .next (
    if !s.team.resident || decide (s.team.tenant ≠ s.occ.tenant) then s
    else match s.team.trap with
      | none => if s.team.callSeq.isSome then s.after 2 .demandFaultNotice s.occ else trapNow .ls 0x0022 s.occ.aux (s.occ.w.setWidth 32) s
      | some x => if x.frozen then s else s.after 2 .demandFaultNotice s.occ)

/-! ## Requests at the home (R362, R366, R536) -/

/-- A request of the acting team to a line, named by an address, that the home does not perform (R536). -/
def refuseAt (a : Access) (va line : Nat) (k : AccKind) (v : Verdict) (s : State) : State :=
  let s := if v = .hold then holdAccess a va s else s
  stopped a.tenant line k v .homeRequest s.occ s

/-- A request of the acting team whose own parts name the line. -/
def refuseAccess (a : Access) (line : Nat) (k : AccKind) (v : Verdict) (s : State) : State := refuseAt a (a.vaOn line) line k v s

/-- The first line that the home refuses an access of. -/
def refusedLine (s : State) (tenant : Nat) (k : AccKind) : List Nat → Option (Nat × Verdict)
  | [] => none
  | line :: ls =>
    match lineCheck s tenant k line with
    | .ok _ => refusedLine s tenant k ls
    | v => some (line, v)

/-- A line of a die's L2 after its write-back: one that was leaving is gone, unless an operation pins it or a store has come into
it since (R266, R348). -/
def settleLine (d tenant line : Nat) (s : State) : State :=
  match findLine (s.dieAt d).l2 tenant line with
  | none => s
  | some l =>
    let n := l.arrived
    let gone := n.leaving && !n.isDirty && !pinnedAt s d line
    s.modDie d fun x => { x with l2 := if gone then dropLine x.l2 tenant line else putLine x.l2 { n with leaving := false } }

/-- An L2 line's write-back reaches its home with the bytes that it carries (R377, R378), and the line makes room if it stays. -/
def arriveWriteBack (a : Access) (dir : Bool) (s : State) : State :=
  let line := a.ipa
  let bs := ((findLine (s.dieAt a.die).l2 a.tenant line).map Line.sentBytes).getD []
  let done := fun s : State => roomL2 (some (a.team, a.path)) a.die line (settleLine a.die a.tenant line (finishAccess a [] s))
  if !bs.any Option.isSome then done s
  else match homeWrite (some a.die) a.tenant line bs dir s with
    | (some v, s) => refuseAccess a line .write v s
    | (none, s) => done s

/-! ### LAUNCH at the home (R220, R392) -/

/-- The value of a double of the queue descriptor, and the state after the read. -/
def launchRead (a : Access) (ipa : Nat) (s : State) : Nat × State :=
  let (bs, s) := readPart { a with place := .home } { ipa := ipa, size := 8, lane := 0, data := 0 } s
  (leNat bs, s)

/-- The packet image of a LAUNCH as the team's ls path reads it, line by line. -/
def launchImage (a : Access) : List (Nat × Nat) → State → List Byte × State
  | [], s => ([], s)
  | (ipa, n) :: ps, s =>
    let (bs, s) := readPart { a with place := .l1d } { ipa := ipa, size := n, lane := 0, data := 0 } s
    let (rest, s) := launchImage a ps s
    (bs ++ rest, s)

/-- A part of a place of the intermediate space. -/
def partAt (ipa n : Nat) : Part := { ipa := ipa, size := n, lane := 0, data := 0 }

/-- The queue as a LAUNCH finds it: its configuration, head, tail and slot base. -/
structure LaunchView where
  cfg : Double
  head : Nat
  tail : Nat
  base : Nat
  deriving DecidableEq, Repr

/-- The number of slots. -/
def LaunchView.size (v : LaunchView) : Nat := 2 ^ field v.cfg 4 0

/-- No slot is free, or the queue takes graphs (R406, R546). -/
def LaunchView.closed (v : LaunchView) : Bool :=
  v.cfg.getLsbD 19 || decide (v.size ≤ (v.tail + 2 ^ 64 - v.head) % 2 ^ 64)

/-- The VA of the slot that a LAUNCH would claim. -/
def LaunchView.slot (v : LaunchView) : Nat := v.base + 128 * (v.tail % v.size)

/-- The descriptor is read at its home (R389). -/
def viewLaunch (a : Access) (d : Part) (s : State) : LaunchView × State :=
  let (head, s) := launchRead a d.ipa s
  let (tail, s) := launchRead a (d.ipa + 8) s
  let (base, s) := launchRead a (d.ipa + 16) s
  let (cfg, s) := launchRead a (d.ipa + 24) s
  let q := s.hub.queues.find? fun q => q.desc = d.ipa && decide (q.tenant = a.tenant)
  ({ cfg := (q.map (·.cfg)).getD (dbl cfg), head := head, tail := tail, base := base }, s)

/-- The places of a packet's two lines in its slot; one that the team's windows do not map has none, and receives nothing
(log entry 26). -/
def slotPlaces (s : State) (va : Nat) : List Nat :=
  match vaIpa s.hub.package s.team.ref s.team.windows .write va with
  | none => []
  | some ipa => [ipa, ipa + 64]

/-- LAUNCH is performed: one claim on the descriptor's head and tail, the slot's bytes, the header's release at .pkg being
behind every write before it, and the notify, which for a queue of another package is that package's register's; a full queue, or
one with cfg.graph, writes nothing and answers all ones (R220, R392, R406, R546). -/
def performLaunch (a : Access) (d p : Part) (v : LaunchView) (s : State) : State :=
  let home := { a with place := .home }
  let (packet, s) := launchImage a (linePieces p.ipa 128) s
  let s := writePart home (partAt (d.ipa + 8) 8) (natBytes 8 (v.tail + 1)) s
  let s := ((slotPlaces s v.slot).zip [0, 64]).foldl (fun s x =>
    writePart home (partAt x.1 64) ((packet.drop x.2).take 64) s) s
  let s := makeRoom { a with place := .l1d, parts := [p] } (finishAccess a [(0, v.tail)] s)
  if spotOf s.hub.package d.ipa = .remote then s
  else s.next .queueNotify { id := field v.cfg 63 48, tenant := a.tenant, w := dbl v.tail }

/-- A place in the host aperture whose tenant has no bound function, or whose address the function's tables do not translate
(R577). -/
def unmappedPlace (s : State) (tenant ipa : Nat) : Bool :=
  match spotOf s.hub.package ipa with
  | .host iova => (hostSpot s tenant iova).isNone
  | _ => false

/-- An access to such a place kills its tenant. -/
def killUnmapped (a : Access) (ipa : Nat) (s : State) : State :=
  killWork a.team a.tenant 9 0x0330 ipa (dbl ((functionOf s.hub a.tenant).getD 0)) s

/-- LAUNCH at the home, its descriptor and image reached and its earlier writes acknowledged: the slot is checked before any
of its effects. -/
def claimLaunch (a : Access) (d p : Part) (s : State) : State :=
  let (v, s) := viewLaunch a d s
  if v.closed then finishAccess a [(0, 2 ^ 64 - 1)] s
  else
    let slots := slotPlaces s v.slot
    match slots.find? (unmappedPlace s a.tenant), refusedLine s a.tenant .write (slots.map lineOf) with
    | some ipa, _ => killUnmapped a ipa s
    | _, some (line, e) => refuseAt a (v.slot + (line - slots.headD 0)) line .write e s
    | _, none =>
      match heldPart s { a with parts := slots.map fun ipa => partAt ipa 64 } with
      | some x => stopped a.tenant x.ipa .write .wait .homeRequest s.occ s
      | none => performLaunch a d p v s

/-- LAUNCH at the home: the descriptor and the image are reached first. -/
def reachLaunch (a : Access) (d p : Part) (s : State) : State :=
  let desc := { a with place := .home, parts := [d] }
  let image := { a with place := .l1d, parts := [p], op := .load 0 0 }
  match [d.ipa, p.ipa, p.ipa + 127].find? (unmappedPlace s a.tenant), heldPart s a with
  | some ipa, _ => killUnmapped a ipa s
  | none, some x => stopped a.tenant x.ipa .atomic .wait .homeRequest s.occ s
  | none, none =>
    match ensureLines desc (desc.cacheLines s.hub.package) s with
    | (some (line, v), s) => refuseAccess a line .atomic v s
    | (none, s) =>
      match ensureLines image (image.cacheLines s.hub.package) s with
      | (some (line, v), s) => refuseAccess a line .read v s
      | (none, s) => claimLaunch a d p s

/-- Accesses of the ls path before a LAUNCH have not all issued, been performed and returned (R369, R370). -/
def launchBehind (t : Team) (a : Access) : Bool :=
  decide (t.passed .ls < a.pos) || loadsBefore t a ||
    t.vars.any fun b => b.before a && decide (b.path = .ls) && !b.op.isWriteback && decide (b.phase ≠ .performed)

/-- The writes that a LAUNCH's header follows, as the pkg field of RELC counts them (R184, R370): those of ls at earlier positions,
its write-backs among them, and those of the other paths that have issued before it. -/
def launchWrites (t : Team) (a : Access) : List Nat :=
  (t.writes.filter fun w => w.pkg && decide (some w.id ≠ a.wid) &&
    (if w.path = .ls then decide (w.pos < a.pos) else a.wid.all fun i => decide (w.id < i))).map (·.id)

/-- A LAUNCH writes its header as a release at .pkg (R220, R370, R372, R378, R392): it waits for what comes before it, then writes
back as such a release does, and goes on once those write-backs are acknowledged. -/
def arriveLaunch (a : Access) (s : State) : State :=
  let again := fun s : State => s.after 2 .homeRequest s.occ
  match a.parts, a.waits with
  | [_, _], none =>
    if launchBehind s.team a then again s else again (putAccess { a with waits := some (launchWrites s.team a) } s)
  | [d, p], some ids =>
    if !s.team.acked 2 ids then again s
    else if a.sent then reachLaunch a d p s
    else
      let s := releaseWriteBacks 3 s
      again (putAccess { a with waits := some (launchWrites s.team a), sent := true } s)
  | _, _ => s

/-- An access of the acting team is performed, every line that it needs being reached first, or it is held or refused (R536);
an LDA.rp waits for the write-backs that it causes (R234, R381), which the home may hold or refuse. -/
def reachAccess (a : Access) (s : State) : State :=
  match (a.parts.map (·.ipa)).find? (unmappedPlace s a.tenant) with
  | some ipa => killUnmapped a ipa s
  | none =>
    let s := promote s a
    let w := s.hub.wait
    let s := s.onHub fun h => { h with wait := none }
    if !(s.team.vars.any fun b => b.id = a.id) then s
    else if promoting s a then
      (match w with
      | some w => stopped w.tenant w.ipa w.kind (if w.hold then .hold else .wait) .homeRequest s.occ s
      | none => s.after 2 .homeRequest s.occ)
    else match ensureLines a (a.cacheLines s.hub.package) s with
      | (some (line, v), s) => refuseAccess a line a.op.kind v s
      | (none, s) => performAccess a s

/-- A request of the acting team reaches its home: earlier requests of the team to its lines are performed first (R366), a
release waits for the loads before it (R370), and then it is performed, held or refused (R536). -/
def arriveHome (a : Access) (s : State) : State :=
  let again := fun s : State => s.after 2 .homeRequest s.occ
  match a.op with
  | .writeback dir => arriveWriteBack a dir s
  | .launch _ _ _ => arriveLaunch a s
  | .mstz data =>
    if blockedBy s s.team a || mstzWaits s a then again s
    else match refusedLine s a.tenant .write (a.cacheLines s.hub.package), heldPart s a with
      | some (line, v), _ => refuseAccess a line .write v s
      | none, some p => stopped a.tenant p.ipa .write .wait .homeRequest s.occ s
      | none, none => performMstz a data s
  | .maint wb drop ext scope => if blockedBy s s.team a then again s else performMaint a wb drop ext scope s
  | _ =>
    if blockedBy s s.team a || (a.releases s.team && loadsBefore s.team a) then again s
    else match heldPart s a with
      | some p => stopped a.tenant p.ipa a.op.kind .wait .homeRequest s.occ s
      | none => reachAccess a s

/-- HOME_REQUEST (R362). -/
def execHomeRequest (s : State) : Host.Outcome State Fault Refusal :=
  let s := s.focus s.occ.team
  .next (match s.team.vars.find? fun a => a.id = s.occ.id && decide (a.phase ≠ .performed) with
    | none => s
    | some a => resumeNotice (arriveHome a s))

/-! ## Fault requests and their answers (R537) -/

/-- Firmware's answer to a fault record: with retry, every joined request walks again, in the order of arrival. -/
def answerFaults (p : FaultReq → Bool) (s : State) : State :=
  let fs := s.hub.faults.filter fun f => p f && !f.answered
  let s := s.onHub fun h => { h with faults := modWhere p (fun f => { f with answered := true }) h.faults }
  first ((fs.reverse.flatMap (·.waiters)).map fun (i, o) => .event i o) s

/-- FRES_RETRY (R537): `tenant` and the page number `id` name the record. -/
def execFresRetry (s : State) : Host.Outcome State Fault Refusal :=
  let o := s.occ
  .next (answerFaults (fun f => f.page = o.id && f.tenant = o.tenant) s)

/-- A tenant killed for a fault that no service cured (R399, R537). -/
def declineFault (tenant page : Nat) (s : State) : State := killFor tenant 12 0x0104 0 (dbl (page % 2 ^ 34)) s

/-- FRES_DECLINE (R537). -/
def execFresDecline (s : State) : Host.Outcome State Fault Refusal :=
  let o := s.occ
  .next (if s.hub.faults.any fun f => f.page = o.id && f.tenant = o.tenant && !f.answered then
      declineFault o.tenant o.id s
    else s)

/-- FAULT_REQUEST_TIMEOUT (R537). -/
def execFaultRequestTimeout (s : State) : Host.Outcome State Fault Refusal :=
  .next (match s.hub.faults.find? fun f => f.id = s.occ.id && !f.answered with
    | some f => declineFault f.tenant f.page s
    | none => s)

/-! ## Invalidation of the translation caches (R363, R364) -/

/-- An invalidation starts: `busy` reads 1 until its end. -/
def startHtinv (s : State) : State :=
  (s.onHub fun h => { h with htinvBusy := true, htinvNow := s.occ.w }).later .htinvDone {}

/-- An entry of the translation caches that an invalidation drops: of one page of a tenant, of a tenant, or every one (R363,
R364). -/
def TlbEntry.dropped (x : Double) (e : TlbEntry) : Bool :=
  let mine := decide (field e.leaf.entry 57 42 = field x 60 45)
  match field x 62 61 with
  | 0 => mine && e.serves (field x 44 12 * 4096)
  | 1 => mine
  | _ => true

/-- HTINV_PAGE (R363). -/
def execHtinvPage (s : State) : Host.Outcome State Fault Refusal := .next (startHtinv s)

/-- HTINV_TENANT (R363). -/
def execHtinvTenant (s : State) : Host.Outcome State Fault Refusal := .next (startHtinv s)

/-- HTINV_ALL (R363). -/
def execHtinvAll (s : State) : Host.Outcome State Fault Refusal := .next (startHtinv s)

/-- The invalidation that a written HTINV value starts: kind 3 is reserved and starts none. -/
def htinvEvent (x : Double) : Option Instr :=
  match field x 62 61 with
  | 0 => some .htinvPage
  | 1 => some .htinvTenant
  | 2 => some .htinvAll
  | _ => none

/-- HTINV_DONE (R364): no request is translated by a dropped entry from now on, and the oldest write that waits starts next. -/
def execHtinvDone (s : State) : Host.Outcome State Fault Refusal :=
  let q := s.hub.htinvQueue.dropWhile fun x => (htinvEvent x).isNone
  let s := s.onHub fun h => { h with htinvBusy := false, htinvQueue := q.drop 1,
                                     tlb := h.tlb.filter fun e => !e.dropped h.htinvNow }
  .next (match q.head?.bind htinvEvent with
    | some i => s.next i { w := q.head?.getD 0 }
    | none => s)

/-! ## The region directory (R387) -/

/-- A region that has had no conflicting access for 1 ms. -/
def Region.idle (q : Region) (now : Nat) : Bool := decide (q.last + 2400000 ≤ now)

/-- A shared region whose lines at most one class-M agent has accessed for 1 ms becomes private to it, or empty. -/
def Region.settle (q : Region) (now : Nat) : Region :=
  let recent := q.users.filter fun u => decide (now < u.2 + 2400000)
  match q.cls, recent with
  | .shared, [] => { q with cls := .empty, lines := [], users := [] }
  | .shared, [u] => { q with cls := .priv u.1, lines := [], users := [] }
  | _, _ => q

/-- Two lists hold the same agents. -/
def sameAgents (xs ys : List Nat) : Bool := xs.all ys.contains && ys.all xs.contains

/-- Two regions have the same class and the same holders. -/
def RegionClass.alike : RegionClass → RegionClass → Bool
  | .readOnly xs, .readOnly ys => sameAgents xs ys
  | x, y => decide (x = y)

/-- Two sibling regions as one: no data moves. -/
def Region.join (q x : Region) : Region :=
  { base := min q.base x.base, log2 := q.log2 + 1, cls := q.cls, last := max q.last x.last, lines := q.lines ++ x.lines,
    users := x.users.foldl (fun m u => SMap.insert m u.1 (max u.2 ((SMap.get? m u.1).getD 0))) q.users }

/-- The regions after the one at `base` has merged with its siblings as far as they qualify, up to 64 KiB. -/
def mergeUp (now base : Nat) : Nat → List Region → List Region
  | 0, rs => rs
  | n + 1, rs =>
    match rs.find? fun q => q.holds base with
    | none => rs
    | some q =>
      let sz := 2 ^ q.log2
      let sib := if q.base / sz % 2 = 0 then q.base + sz else q.base - sz
      match rs.find? fun x => x.base = sib && x.log2 = q.log2 with
      | none => rs
      | some x =>
        if q.log2 < 16 ∧ q.idle now = true ∧ x.idle now = true ∧ q.cls.alike x.cls = true then
          mergeUp now base n (q.join x :: rs.filter fun r => !((r.base = q.base || r.base = sib) && r.log2 = q.log2))
        else rs

/-- REGION_MERGE (R387): the region that holds the address settles and merges; a shared one in use is looked at again
a millisecond later. -/
def execRegionMerge (s : State) : Host.Outcome State Fault Refusal :=
  let base := s.occ.id
  let now := s.now
  let s := s.onHub fun h =>
    let rs := modWhere (fun q => q.holds base && q.idle now) (fun q => q.settle now) h.regions
    { h with regions := mergeUp now base 10 rs }
  .next (if s.hub.regions.any fun q => q.holds base && decide (q.cls = .shared) then s.after 2400000 .regionMerge s.occ
    else s)

/-! ## Refresh windows of the weight store (R305) -/

/-- The bank group whose window is open at a reference cycle: 512 cycles from its offset in each period of 76,800 (R305). -/
def openWindow (phase now : Nat) : Option Nat :=
  (List.range 8).find? fun g => decide ((now + 76800 - (phase + 9600 * g) % 76800) % 76800 < 512 ∧
    (phase + 9600 * g) % 76800 ≤ now)

/-- REFRESH_WINDOW_START (R305). -/
def execRefreshWindowStart (s : State) : Host.Outcome State Fault Refusal :=
  let g := s.occ.aux
  .next (s.onHub fun h => { h with refreshing := some g })

/-- REFRESH_WINDOW_END (R305). -/
def execRefreshWindowEnd (s : State) : Host.Outcome State Fault Refusal :=
  let g := s.occ.aux
  .next (s.onHub fun h => { h with refreshing := if h.refreshing = some g then none else h.refreshing })

end Sys2Proof.Machine
end

