-- ==== Sys2Proof/Machine/Queues.lean ====
section
/-! DEFINITION. The hub scheduler's view of its queues: the checks of a packet, the conditions under which the packet at
head starts, where its clusters go, and the order in which the hub takes its queues, its waiting clusters and its saved
clusters (spec/14_launch_scheduling.md R389 to R402, spec/23_scheduler_recovery.md R544 to R553,
spec/05_assembly.md R142 to R145, spec/02_work_hierarchy.md R47 to R54). The hub's choice of places is log entry 14. -/

namespace Sys2Proof.Machine

/-! ## Packets (R393 to R395) -/

/-- A packet's header. -/
def pktHeader (p : List Byte) : Double := pktField p 0
@[inherit_doc pktHeader] def pktType (p : List Byte) : Nat := field (pktHeader p) 7 0
@[inherit_doc pktHeader] def pktNdep (p : List Byte) : Nat := field (pktHeader p) 18 16
@[inherit_doc pktHeader] def pktOwn (p : List Byte) : Bool := (pktHeader p).getLsbD 12
@[inherit_doc pktHeader] def pktCoop (p : List Byte) : Bool := (pktHeader p).getLsbD 11
@[inherit_doc pktHeader] def pktSys (p : List Byte) : Bool := (pktHeader p).getLsbD 13

/-- A packet's code, grid and res doubles, its dependences and its signal. -/
def pktTgt (p : List Byte) : Nat := field (pktField p 8) 63 62
@[inherit_doc pktTgt] def pktTeams (p : List Byte) : Nat := field (pktField p 16) 37 32 + 1
@[inherit_doc pktTgt] def pktClusters (p : List Byte) : Nat := field (pktField p 16) 15 0 + 1
@[inherit_doc pktTgt] def pktBudget (p : List Byte) : Nat := field (pktField p 24) 43 32
@[inherit_doc pktTgt] def pktAm (p : List Byte) : Nat := field (pktField p 24) 27 24
@[inherit_doc pktTgt] def pktLm (p : List Byte) : Nat := field (pktField p 24) 9 0
@[inherit_doc pktTgt] def pktDep (p : List Byte) (i : Nat) : Double := pktField p (56 + 8 * i)
@[inherit_doc pktTgt] def pktSignal (p : List Byte) : Nat := (pktField p 88).toNat

/-- A packet that runs on compute dies. -/
def pktOnDies (p : List Byte) : Bool := decide (pktType p = 1) && decide (pktTgt p < 3)

/-- A reserved bit of a packet is set (R5, R544). -/
def pktReserved (p : List Byte) : Bool :=
  pktHeader p &&& 0xfff8c100 != 0 || pktField p 16 &&& 0xffffffc0ffff0000 != 0 ||
    pktField p 24 &&& 0xfffff000f0fffc00 != 0 || pktField p 48 &&& 0xffffffffffff0000 != 0

/-- A dependence entry that R393 or R407 does not allow: `node` is the entry's own node in a graph. -/
def depBad (node : Option Nat) (d : Double) : Bool :=
  match node with
  | some i => if d.getLsbD 63 then decide (i ≤ field d 11 0) || decide (field d 62 12 ≠ 0) else decide (field d 2 0 ≠ 0)
  | none => decide (field d 2 0 ≠ 0)

/-- A packet that the hub refuses with status 2 for what it holds itself (R544). -/
def pktInvalid (node : Option Nat) (p : List Byte) : Bool :=
  let n := pktNdep p
  let barrier := decide (pktType p = 2)
  (pktType p = 0 || 2 < pktType p) || pktReserved p || decide (4 < n) ||
    ((List.range 4).any fun i => if i < n then depBad node (pktDep p i) else pktDep p i != 0) ||
    decide (pktSignal p % 8 ≠ 0) || decide ((pktField p 40).toNat % 16 ≠ 0) || decide (8 < pktAm p) ||
    (pktAm p != 0 && !pktOwn p) ||
    (if barrier then
      pktField p 8 != 0 || pktField p 16 != 0 || pktField p 24 != 0 || pktField p 32 != 0 || pktField p 40 != 0 ||
        field (pktField p 48) 15 0 != 0 || (List.range 4).any fun i => pktField p (96 + 8 * i) != 0
    else if pktTgt p = 3 then pktOwn p || pktCoop p || pktAm p != 0 || pktLm p != 0
    else pktBudget p = 0 || pktLm p = 0 || decide (512 < pktLm p))

/-! ## The fat object (R142 to R145) -/

/-- What the hub finds in a packet's fat object: for LP1, LP2 and RV64 in turn the kernel's entry and the bytes from it to the
end of its section, where the kernel has that variant. -/
structure KernelInfo where
  entries : List (Option (Nat × Nat))
  deriving DecidableEq, Repr

/-- The sections of a fat object: kind, offset and size. -/
def readSections (tenant va : Nat) : Nat → State → Option (List (Nat × Nat × Nat)) × State
  | 0, s => (some [], s)
  | n + 1, s =>
    match hubDoubles tenant va 3 s with
    | (some ds, s) =>
      let e := (field (nth ds 0 0) 15 0, (nth ds 1 0).toNat, (nth ds 2 0).toNat)
      (match readSections tenant (va + 32) n s with
      | (some es, s) => (some (e :: es), s)
      | (none, s) => (none, s))
    | (none, s) => (none, s)

/-- The entry of a variant in its code section (R144): its have bit alone does not make it present without that section, and of
several sections of a kind the first in the table counts (DESIGN CHOICE, log entry 28). -/
def entryOf (base : Nat) (secs : List (Nat × Nat × Nat)) (kind : Nat) (present : Bool) (e : Nat) : Option (Nat × Nat) :=
  if present then (secs.find? fun x => x.1 = kind).map fun (_, off, size) => (base + off + e, size - e) else none

/-- The kernel of a packet's code field: none when a read of the object does not translate, none within when the object
has no such kernel (R545). -/
def readKernel (tenant : Nat) (code : Double) (s : State) : Option (Option KernelInfo) × State :=
  let base := field code 47 0 * 256
  let kernel := field code 61 48
  match hubDoubles tenant base 4 s with
  | (none, s) => (none, s)
  | (some hd, s) =>
    let h := fun i => nth hd i 0
    if field (h 0) 31 0 ≠ 0x4f5a4658 ∨ field (h 0) 63 48 ≤ kernel then (some none, s)
    else match hubDoubles tenant (base + (h 1).toNat + 32 * kernel) 4 s with
      | (none, s) => (none, s)
      | (some ke, s) =>
        match readSections tenant (base + (h 2).toNat) (field (h 3) 15 0) s with
        | (none, s) => (none, s)
        | (some secs, s) =>
          let have_ := field (nth ke 1 0) 2 0
          let lp := fun k e => entryOf base secs k (have_ / 2 ^ (k - 1) % 2 = 1) e
          let x := nth ke 2 0
          let y := nth ke 3 0
          (some (some { entries := [lp 1 (field x 31 0), lp 2 (field x 63 32), lp 3 (field y 31 0)] }), s)

/-! ## Places (R40, R43, R47, R54) -/

/-- A resident slot with its LM grant, taken or to be taken. -/
structure Seat where
  ref : TeamRef
  base : Nat
  size : Nat
  own : Bool
  cluster : Nat
  deriving DecidableEq, Repr

/-- The seats that are taken, but for those of the clusters named. -/
def takenSeats (s : State) (ignore : List Nat) : List Seat :=
  (s.allTeams.filter fun t => t.resident && !ignore.contains t.cluster).map fun t =>
    { ref := t.ref, base := field t.lmg 8 0, size := field t.lmg 21 12, own := t.tid.getLsbD 14, cluster := t.cluster }

/-- The lowest base of a grant that meets no other on the core. -/
def grantBase (mine : List Seat) (lm : Nat) : Option Nat :=
  let ok := fun b : Nat => decide (b + lm ≤ 512) && mine.all fun x => decide (x.base + x.size ≤ b) || decide (b + lm ≤ x.base)
  ((0 :: mine.map fun x => x.base + x.size).filter ok).foldl
    (fun (m : Option Nat) b => match m with
      | some x => some (min x b)
      | none => some b) none

/-- A seat on a logical core, if it has one (R40, R43). -/
def seatOn (s : State) (occ : List Seat) (cluster d l lm : Nat) (own : Bool) : Option Seat :=
  match (s.dieAt d).physical l with
  | none => none
  | some p =>
    let mine := occ.filter fun x => x.ref.die = d && x.ref.lcore = l
    if (s.dieAt d).migrates p || ((s.dieAt d).cove (coveOf p)).failed || (own && mine.any (·.own)) then none
    else match (List.range 4).find? fun r => mine.all fun x => x.ref.rslot ≠ r, grantBase mine lm with
      | some r, some b => some { ref := { die := d, lcore := l, rslot := r }, base := b, size := lm, own := own,
                                 cluster := cluster }
      | _, _ => none

/-- Resident clusters of a die. -/
def clustersOn (occ : List Seat) (d : Nat) : Nat :=
  (dedup ((occ.filter fun x => x.ref.die = d).map (·.cluster))).length

/-- How many grants of so many pages fit between the grants of a core, from a page up. -/
def gapRoom (lm : Nat) : Nat → List Seat → Nat
  | lo, [] => (512 - lo) / lm
  | lo, x :: xs => (x.base - lo) / lm + gapRoom lm (x.base + x.size) xs

/-- How many more seats of one kind a logical core has (R40, R43). -/
def seatRoom (s : State) (occ : List Seat) (d lm : Nat) (own : Bool) (l : Nat) : Nat :=
  let mine := sortBy (fun a b => decide (a.base < b.base)) (occ.filter fun x => x.ref.die = d && x.ref.lcore = l)
  if (seatOn s occ 0 d l lm own).isNone then 0
  else if own then 1
  else if lm = 0 then 4 - mine.length
  else min (4 - mine.length) (gapRoom lm 0 mine)

/-- Seats for one cluster on the first die that has them (R47): on the logical cores with the most room, so that as many
clusters as can be resident on the die at once find theirs; its teams stand on them in ascending order. -/
def planCluster (s : State) (occ : List Seat) (dies : List Nat) (cluster n lm : Nat) (own : Bool) : Option (List Seat) :=
  dies.findSome? fun d =>
    if 4 ≤ clustersOn occ d then none
    else
      let room := ((List.range 64).map fun l => (l, seatRoom s occ d lm own l)).filter fun x => x.2 ≠ 0
      let ls := ((sortBy (fun a b => decide (b.2 < a.2) || (decide (a.2 = b.2) && decide (a.1 < b.1))) room).take n).map (·.1)
      let xs := (sortBy (fun a b => decide (a < b)) ls).filterMap fun l => seatOn s occ cluster d l lm own
      if xs.length = n then some xs else none

/-- How many clusters of `n` teams a die can take at once: `k` of them can stand on it, each on `n` different cores, just when
the cores have room for that many seats, no core giving more than `k` (R47). -/
def dieTakes (s : State) (occ : List Seat) (n lm : Nat) (own : Bool) (d : Nat) : Nat :=
  let room := (List.range 64).map (seatRoom s occ d lm own)
  ((List.range (4 - clustersOn occ d)).filter fun k => (k + 1) * n ≤ (room.map fun r => min r (k + 1)).sum).length

/-- Seats for `m` clusters at once exist (R54). -/
def placeable (s : State) (dies : List Nat) (n lm : Nat) (own : Bool) (m : Nat) (occ : List Seat) : Bool :=
  decide (m ≤ (dies.map (dieTakes s occ n lm own)).sum)

/-- The profile of a compute die (R31). -/
def profileOf (s : State) (d : Nat) : Nat :=
  (vget s.hub.dieEntries d { gen := 0, profile := 2, free := 8, failed := 0 }).profile

/-- A die that has the variant which a packet demands (R145). -/
def hasVariant (s : State) (tgt : Nat) (entries : List (Option (Nat × Nat))) (d : Nat) : Bool :=
  decide (profileOf s d ≤ 2) && (nth entries (profileOf s d - 1) none).isSome && (decide (tgt = 0) || decide (tgt = profileOf s d))

/-- The dies of a tenant's partition on which a packet's clusters may be placed now, in the hub's order: online ones only (R23,
R453). -/
def placeDies (s : State) (tenant tgt : Nat) (entries : List (Option (Nat × Nat))) : List Nat :=
  let ds := (s.hub.partitionOf tenant).dies.filter fun d =>
    hasVariant s tgt entries d && decide ((s.hub.passenger d).state = 2)
  let ds := sortBy (fun a b => decide (a < b)) ds
  ds.filter (s.hub.lastDie < ·) ++ ds.filter (· ≤ s.hub.lastDie)

/-- A placement of a packet exists, the clusters named being away (R399). -/
def fitsNow (s : State) (tenant : Nat) (p : List Byte) (entries : List (Option (Nat × Nat))) (ignore : List Nat) : Bool :=
  placeable s (placeDies s tenant (pktTgt p) entries) (pktTeams p) (pktLm p) (pktOwn p)
    (if pktCoop p then pktClusters p else 1) (takenSeats s ignore)

/-- How many clusters of a packet a die could ever hold at once: each of a cluster's teams has a logical core of its own (R47,
R545). -/
def dieRoom (s : State) (p : List Byte) (d : Nat) : Nat :=
  let cores := ((List.range 64).filter fun l => ((s.dieAt d).physical l).isSome).length
  let layers := if pktOwn p then 1 else min 4 (512 / max 1 (pktLm p))
  if cores < pktTeams p then 0 else min 4 (cores * layers / pktTeams p)

/-- The status with which a kernel packet is refused for its kernel or its size, if any (R545). -/
def kernelStatus (s : State) (tenant : Nat) (p : List Byte) (k : Option KernelInfo) : Nat :=
  match k with
  | none => 3
  | some k =>
    if pktTgt p = 3 then (if (nth k.entries 2 none).isSome then 0 else 3)
    else
      let ds := (s.hub.partitionOf tenant).dies.filter (hasVariant s (pktTgt p) k.entries)
      if ds.isEmpty then 3
      else if (ds.map (dieRoom s p)).sum < (if pktCoop p then pktClusters p else 1) then 4 else 0

/-! ## The working set (R399) -/

/-- The pages of a working-set entry in the intermediate space: none when a page of it lies in no window. -/
def entryPages (s : State) (tenant va len : Nat) : Option (List Nat) :=
  if len = 0 then some []
  else (upFrom (va / 4096) ((va + len - 1) / 4096 - va / 4096 + 1)).mapM fun p =>
    (findWindow (tenantWindows s tenant) (p * 4096)).map fun w => (winIpa w + (p * 4096 - winVa w)) / 4096

/-- The pages of a working-set list. -/
def listPages (s : State) (tenant : Nat) : List Double → Option (List Nat)
  | va :: len :: rest =>
    match entryPages s tenant va.toNat len.toNat, listPages s tenant rest with
    | some a, some b => some (a ++ b)
    | _, _ => none
  | _ => some []

/-- A page of this package has a valid leaf; a page of another package counts as valid (log entry 8). -/
def pageValid (s : State) (page : Nat) : Bool :=
  match spotOf s.hub.package (page * 4096) with
  | .translated loc => (findLeaf s loc).isSome
  | _ => true

/-- A packet that stands at head: its index in the queue, or its replay's number and its node, and its bytes. -/
structure HeadPacket where
  k : Nat
  packet : List Byte
  node : Option Nat
  deriving DecidableEq, Repr

/-- A working set is that of a packet at head. -/
def WorkSet.of (w : WorkSet) (p : HeadPacket) : Bool := decide (w.k = p.k) && decide (w.node = (p.node.map (· + 1)).getD 0)

/-- The working set of a packet at head, once it has been read. -/
def Queue.workOf (q : Queue) (p : HeadPacket) : Option WorkSet := q.work.find? (·.of p)

/-- A packet's working set is read once, when it first stands at head: valid pages are pinned, and the fault service is asked for
the others, each for at most 100 ms. A list that the hub cannot read makes the packet invalid (R399, R544; DESIGN CHOICE, log entry
94). -/
def readWorkingSet (q : Queue) (p : HeadPacket) (s : State) : State :=
  if (q.workOf p).isSome then s
  else
    let set := fun (ask pin : List Nat) (bad : Bool) (s : State) => s.onHub fun h => h.modQueue q.qid fun q =>
      { q with work := q.work ++ [{ node := (p.node.map (· + 1)).getD 0, k := p.k, pinned := pin,
                                    asked := ask.map fun x => (x, s.now), bad := bad }] }
    let n := field (pktField p.packet 48) 15 0
    let ws := (pktField p.packet 40).toNat
    if (s.hub.partitionOf q.tenant).demand || pktType p.packet ≠ 1 || ws = 0 || n = 0 then set [] [] false s
    else match hubDoubles q.tenant ws (2 * n) s with
      | (none, s) => set [] [] true s
      | (some ds, s) =>
        match listPages s q.tenant ds with
        | none => set [] [] true s
        | some ps =>
          let ps := dedup ps
          let ask := ps.filter fun x => !pageValid s x
          let s := set ask (ps.filter (pageValid s)) false s
          ask.foldl (fun s x => s.after 240000000 .workingSetTimeout { id := q.qid, aux := x }) s

/-- The pages that a packet at head has pinned, and whether pages of it are still asked for. -/
def Queue.pins (q : Queue) (p : HeadPacket) : List Nat := ((q.workOf p).map (·.pinned)).getD []
@[inherit_doc Queue.pins] def Queue.asking (q : Queue) (p : HeadPacket) : Bool := (q.workOf p).any fun w => !w.asked.isEmpty

/-! ## The packet at head (R399) -/

/-- What the hub finds of a packet at the head of a queue. -/
inductive HeadView where
  /-- held by the order of its queue or by the room in its report ring -/
  | ordered
  /-- held by these signals, by them alone or not -/
  | signals (vas : List Nat) (only : Bool)
  /-- pages of its working set have not been answered for -/
  | pages
  /-- refused with a status, and whether its kernel could not be read -/
  | refused (status : Nat) (unread : Bool)
  /-- no placement exists -/
  | full (entries : List (Option (Nat × Nat)))
  | ready (entries : List (Option (Nat × Nat)))
  deriving DecidableEq, Repr

/-- The signals that hold a packet: those above 0, and those that the hub cannot read. -/
def heldSignals (tenant : Nat) : List Nat → State → List Nat × State
  | [], s => ([], s)
  | va :: vas, s =>
    let (x, s) := hubLoad tenant va s
    let held := match x with
      | some x => decide (0 < x.toInt)
      | none => true
    let (rest, s) := heldSignals tenant vas s
    (if held then va :: rest else rest, s)

/-- The signals that a packet depends on, and in a graph its predecessors (R407). -/
def pktDeps (p : HeadPacket) : List Nat × List Nat :=
  let ds := (List.range (min 4 (pktNdep p.packet))).map (pktDep p.packet)
  let pred := fun d : Double => p.node.isSome && d.getLsbD 63
  ((ds.filter fun d => !pred d).map (·.toNat), (ds.filter pred).map fun d => field d 11 0)

/-- The report ring has room for one more report (R399). -/
def reportRoom (q : Queue) (s : State) : Bool × State :=
  let (rtail, s) := descRead q 40 s
  let (rhead, s) := descRead q 56 s
  (decide ((rtail.toNat + q.started.length + 2 ^ 64 - rhead.toNat) % 2 ^ 64 < 2 ^ field q.cfg 44 40), s)

/-- The order of the queue lets the packet start: B and C in a packet queue, the predecessors in a graph. -/
def orderOpen (q : Queue) (p : HeadPacket) (preds : List Nat) : Bool :=
  match p.node with
  | some _ => preds.all fun i => ((q.replay.map fun r => r.retired.contains i).getD false)
  | none =>
    let h := pktHeader p.packet
    !(h.getLsbD 10 && !q.started.isEmpty) && (h.getLsbD 9 || p.k = 0 || !q.started.contains (p.k - 1))

/-- Whether some judgement lets its packet be consumed. -/
def HeadView.acts : HeadView → Bool
  | .ready _ | .refused _ _ => true
  | _ => false

/-- The judgement of a valid packet at head, its signals apart (R399, R544, R545). -/
def judgeRest (q : Queue) (p : HeadPacket) (preds : List Nat) (s : State) : HeadView × State :=
  let (room, s) := if p.node.isSome then (true, s) else reportRoom q s
  if !(orderOpen q p preds && room) then (.ordered, s)
  else if pktInvalid p.node p.packet || (q.workOf p).any (·.bad) then (.refused 2 false, s)
  else if pktType p.packet = 2 then (.ready [], s)
  else
    match readKernel q.tenant (pktField p.packet 8) s with
    | (none, s) => (.refused 3 true, s)
    | (some info, s) =>
      let st := kernelStatus s q.tenant p.packet info
      let es := (info.map (·.entries)).getD []
      if st ≠ 0 then (.refused st false, s)
      else if q.asking p then (.pages, s)
      else if pktTgt p.packet < 3 ∧ fitsNow s q.tenant p.packet es [] = false then (.full es, s)
      else (.ready es, s)

/-- The judgement of a valid packet at head (R399): its signals hold it whatever else does, by them alone when nothing else
would. -/
def judge (q : Queue) (p : HeadPacket) (s : State) : HeadView × State :=
  let s := readWorkingSet q p s
  let q := (s.hub.queue q.qid).getD q
  let (sigs, preds) := pktDeps p
  let (held, s) := heldSignals q.tenant sigs s
  let (v, s) := judgeRest q p preds s
  if held.isEmpty then (v, s) else (.signals held v.acts, s)

/-- The VA of slot k of a queue (R389). -/
def slotVa (q : Queue) (base k : Nat) : Nat := base + 128 * (k % 2 ^ field q.cfg 4 0)

/-- A packet queue's head: its packet, or whether its slot has been claimed. -/
def headPacket (q : Queue) (s : State) : Except Bool HeadPacket × State :=
  let (k, s) := descRead q 0 s
  let (tail, s) := descRead q 8 s
  let (base, s) := descRead q 16 s
  let claimed := decide (0 < (tail - k).toInt)
  match hubDoubles q.tenant (slotVa q base.toNat k.toNat) 16 s with
  | (none, s) => (.error claimed, s)
  | (some ds, s) =>
    if field (nth ds 0 0) 7 0 = 0 then (.error claimed, s)
    else (.ok { k := k.toNat, packet := ds.flatMap fun d => natBytes 8 d.toNat, node := none }, s)

/-- The nodes of a replay that have not started, judged in order up to the first that may (R409). -/
def judgeNodes (q : Queue) (r : Replay) : List Nat → State → List (HeadView × HeadPacket) × State
  | [], s => ([], s)
  | i :: is, s =>
    let p : HeadPacket := { k := r.num, packet := nth r.nodes i [], node := some i }
    let (v, s) := judge q p s
    if v.acts then ([(v, p)], s)
    else
      let (vs, s) := judgeNodes q r is s
      ((v, p) :: vs, s)

/-- The nodes of a replay that have not started. -/
def Replay.left (r : Replay) : List Nat := (List.range r.nodes.length).filter fun i => !r.started.contains i

/-- What stands at the head of a queue: its packet judged, or the nodes of its replay; none with no valid packet there (R399,
R409). -/
def evaluate (q : Queue) (s : State) : List (HeadView × HeadPacket) × State :=
  if q.cfg.getLsbD 19 then
    match q.replay with
    | none => ([], s)
    | some r => judgeNodes q r r.left s
  else
    match headPacket q s with
    | (.error _, s) => ([], s)
    | (.ok p, s) =>
      let (v, s) := judge q p s
      ([(v, p)], s)

/-- The packet that the hub consumes next, if one may be. -/
def nextAct (vs : List (HeadView × HeadPacket)) : Option (HeadView × HeadPacket) := vs.find? fun x => x.1.acts

/-! ## Waiting at the head (R402, R551) -/

/-- A limit of QTMO in reference cycles; 0 disables it (R550). -/
def limitOf (s : State) (hi lo : Nat) : Nat := 65536 * field s.hub.qtmo hi lo

/-- A queue changed. -/
def onQueue (qid : Nat) (f : Queue → Queue) (s : State) : State := s.onHub fun h => h.modQueue qid f

/-! ## Accesses of the hub that their home makes wait (R352, R536) -/

/-- A queue whose memory the home makes the hub wait for: the queue is looked at again once the access can be performed. -/
def waitQueue (qid : Nat) (w : HubWait) (s : State) : State :=
  stopped w.tenant w.ipa w.kind (if w.hold then .hold else .wait) .queueNotify { id := qid, aux := 1 }
    (onQueue qid (fun q => { q with held := true }) s)

/-- What the hub does for one queue, unless an access of it has to wait: then it does nothing for it yet. -/
def forQueue {α : Type} (qid : Nat) (none_ : α) (eff : State → α × State) (s : State) : α × State :=
  if s.hub.wait.isSome then (none_, s)
  else
    let (x, s') := eff s
    match s'.hub.wait with
    | none => (x, s')
    | some w => (none_, waitQueue qid w s)

/-- A limit's count, from the first reference cycle in which its condition holds; when the condition ends, so does the count
(R551). -/
def countLimit (qid : Nat) (holds : Bool) (since : Option Nat) (set : Option Nat → Queue → Queue) (lim : Nat) (i : Instr)
    (s : State) : State :=
  if !holds then (if since.isSome then onQueue qid (set none) s else s)
  else if since.isSome then s
  else (onQueue qid (set (some s.now)) s).after lim i { id := qid, aux := s.now }

/-- The slot at the head of a packet queue has been claimed and still reads type 0 (R550). -/
def headClaimed (q : Queue) (s : State) : Bool :=
  let k := (descRead q 0 s).1
  !q.cfg.getLsbD 19 && decide (0 < ((descRead q 8 s).1 - k).toInt) &&
    decide (field ((hubLoad q.tenant (slotVa q (descRead q 16 s).1.toNat k.toNat) s).1.getD 0) 7 0 = 0)

/-- A valid packet at head is held only by its dependence signals (R550). -/
def heldBySignals (x : HeadView × HeadPacket) : Bool :=
  match x.1 with
  | .signals _ only => only
  | _ => false

/-- Such a packet stands at the head of a queue. -/
def headWaits (q : Queue) (s : State) : Bool := (evaluate q s).1.any heldBySignals

/-- The limits of the bound queues count (R398, R551). -/
def countLimits (s : State) : State :=
  let hdr := limitOf s 47 32
  let dep := limitOf s 31 16
  (s.hub.queues.filter fun q => q.bound && !q.stopped).foldl (fun s q =>
    let s := if hdr = 0 then s
      else countLimit q.qid (headClaimed q s) q.hdrFrom (fun x q => { q with hdrFrom := x }) hdr .hdrTimeout s
    if dep = 0 then s
    else countLimit q.qid (headWaits q s) q.depFrom (fun x q => { q with depFrom := x }) dep .depTimeout s) s

/-- The hub waits on the signal of a head packet as one waiter of its key; with the table full it looks again every
10 µs (R402, R411, R412, R548). -/
def waitSignal (q : Queue) (s : State) (va : Nat) : State :=
  match windowPackage (tenantWindows s q.tenant) va with
  | none => s
  | some pkg =>
    if waitsAt (.queue q.qid) q.tenant va s then s
    else match joinKey (.queue q.qid) pkg q.tenant va s with
      | (.token, s) => s.next .queueNotify { id := q.qid, aux := 1 }
      | (.waits, s) => s
      | (.full, s) => pollLater q.qid s

/-- A packet leaves the head: the hub waits no more on its signals, but for those that another node at head waits on (R412). -/
def leaveSignals (q : Queue) (p : HeadPacket) (s : State) : State :=
  let others := match p.node, q.replay with
    | some i, some r => (r.left.filter (· ≠ i)).flatMap fun j => (pktDeps { p with packet := nth r.nodes j [], node := some j }).1
    | _, _ => []
  ((pktDeps p).1.filter fun va => !others.contains va).foldl (fun s va => leaveKey (.queue q.qid) q.tenant va s) s

/-! ## Saves that make room (R61, R401, R552) -/

/-- A save of a cluster is asked: at its teams' boundaries, or forced; a forced one takes the place of a boundary save
that still waits (R61, R552). -/
def askSave (forced : Bool) (id : Nat) (s : State) : State :=
  let mark := fun t : Team =>
    if forced then
      let park := match t.park with
        | .boundary => Park.none
        | p => p
      { t with forcedAsked := true, stopAsked := false, park := park }
    else { t with stopAsked := true }
  let ask := fun c : Cluster => { c with phase := .saving, forced := forced || c.forced }
  let s := s.onHub fun h => { h with clusters := modWhere (fun c => c.id = id) ask h.clusters }
  s.modTeams (fun t => t.resident && t.cluster = id && t.park ≠ .ending) mark

/-- The priority of a launch's queue. -/
def launchPrio (s : State) (id : Nat) : Nat :=
  match s.hub.launches.find? fun l => l.id = id with
  | some l => ((s.hub.queue l.qid).map fun q => field q.cfg 18 16).getD 0
  | none => 0

/-- Clusters of lower priority are saved, lowest first, until the packet would fit; none when it would not fit without
all of them. Answers whether room is being made (R401). -/
def makePlace (prio tenant : Nat) (p : List Byte) (entries : List (Option (Nat × Nat))) (s : State) : Bool × State :=
  let lower := s.hub.clusters.filter fun c =>
    (decide (c.phase = .resident) || decide (c.phase = .saving)) && decide (launchPrio s c.launch < prio)
  if fitsNow s tenant p entries (lower.map (·.id)) then
    let saving := (lower.filter fun c => c.phase = .saving).map (·.id)
    let order := sortBy (fun a b => decide (launchPrio s a.launch < launchPrio s b.launch))
      (lower.filter fun c => c.phase = .resident)
    let (_, s) := order.foldl (fun (away, s) c =>
      if fitsNow s tenant p entries away || away.contains c.id then (away, s)
      else
        let g := (saveGroup s c).filter fun x => x.phase = .resident
        (away ++ g.map (·.id), g.foldl (fun s x => askSave false x.id s) s)) (saving, s)
    (true, s)
  else (false, s)

/-! ## Restores (R61, R553) -/

/-- The places of a saved cluster are free again (R553), and its die has room for the clusters that come back with it. -/
def placesFree (s : State) (c : Cluster) : Bool :=
  let occ := takenSeats s []
  let online := decide ((s.hub.passenger c.die).state = 2)
  let saved := (s.hub.saved.filter fun x => x.team.cluster = c.id).map (·.team)
  let with_ := ((saveGroup s c).filter fun x => x.phase = .saved && x.die = c.die).length
  online && decide (clustersOn occ c.die + with_ ≤ 4) && saved.all fun t =>
    let mine := occ.filter fun x => x.ref.die = t.ref.die && x.ref.lcore = t.ref.lcore
    let b := field t.lmg 8 0
    let n := field t.lmg 21 12
    (match (s.dieAt t.ref.die).physical t.ref.lcore with
      | some p => !(s.dieAt t.ref.die).migrates p && !((s.dieAt t.ref.die).cove (coveOf p)).failed
      | none => false) &&
      mine.all fun x => x.ref.rslot ≠ t.ref.rslot && !(x.own && t.tid.getLsbD 14) &&
        (decide (x.base + x.size ≤ b) || decide (b + n ≤ x.base))

/-- The clusters that a restore brings back together, when all of them can be (R54, R61). -/
def restoreGroup (s : State) (c : Cluster) : List Cluster :=
  let g := saveGroup s c
  if g.all fun x => decide (x.phase = .saved) && placesFree s x then g else []

/-! ## The order of the hub (R398, R400, R552) -/

/-- The hardware queue slots are 64. A queue is bound to a free one, or in place of an idle queue when its priority is
above that of every idle one: the lowest priority, then the longest idle (R398). -/
def bindQueue (qid : Nat) (s : State) : State :=
  match s.hub.queue qid with
  | none => s
  | some q =>
    if q.bound || q.stopped then s
    else
      let bound := s.hub.queues.filter (·.bound)
      let prio := fun q : Queue => field q.cfg 18 16
      let bind := onQueue qid fun q => { q with bound := true, waiting := false }
      if bound.length < 64 then bind s
      else
        let idle := sortBy (fun a b : Queue => decide (prio a < prio b) || (prio a = prio b && decide (a.idleFrom < b.idleFrom)))
          (bound.filter fun q => q.started.isEmpty && q.replay.isNone)
        match idle with
        | v :: _ =>
          if idle.all fun x => decide (prio x < prio q) then
            bind (onQueue v.qid (fun q => { q with bound := false }) s)
          else onQueue qid (fun q => { q with waiting := true }) s
        | [] => onQueue qid (fun q => { q with waiting := true }) s

/-- Something the hub may act on: a queue's head, a launch's waiting clusters, or a saved cluster. -/
inductive HubItem where
  | head (qid : Nat)
  | more (launch : Nat)
  | back (cluster : Nat)
  deriving DecidableEq, Repr

/-- A cluster that waits for its place. -/
def waitingCluster (id launch tenant index : Nat) (p : List Byte) : Cluster :=
  { id := id, launch := launch, tenant := tenant, die := 0, index := index, teams := [], ended := [], own := pktOwn p,
    phase := .placed, forced := false,
    barriers := Vector.replicate 16 { expected := pktTeams p, next := none, phase := 0, arrived := 0 } }

/-- Clusters of a launch join the hub's books, waiting for their places: all of them are named to start at once when the
grid is cooperative, and otherwise the first (R53, R54). -/
def enterClusters (l : Launch) (s : State) : State :=
  let n := if pktOnDies l.packet then pktClusters l.packet else 0
  let id0 := s.fresh
  let cs := (List.range n).map fun i => waitingCluster (id0 + i) l.id l.tenant i l.packet
  let s : State := { s with fresh := id0 + n }
  let l := { l with clusters := cs.map (·.id) }
  let s := s.onHub fun h => { h with clusters := h.clusters ++ cs, launches := l :: h.launches.filter fun x => x.id ≠ l.id }
  let go := if pktCoop l.packet then cs else cs.take 1
  first ((go.map fun c => .event .clusterStart { id := c.id }) ++ [.event .queueNotify { aux := 2 }]) s

/-- A launch ends with a status, its clusters without a save; the packet retires with it (R403, R543). -/
def endLaunch (l : Launch) (status : Nat) (s : State) : State :=
  let s := s.onHub fun h => { h with launches := modWhere (fun x => x.id = l.id) (fun x => { x with status := some status }) h.launches }
  let s := (launchClusters s.hub l.id).foldl (fun s c => endCluster c.id s) s
  s.next .packetRetire { id := l.id }

/-- Clusters of a launch end without a save; the packet retires with the status once none is left (R489). -/
def endClusters (l : Launch) (ids : List Nat) (status : Nat) (s : State) : State :=
  let s := s.onHub fun h => { h with launches := modWhere (fun x => x.id = l.id) (fun x => { x with status := some status }) h.launches }
  let s := ids.foldl (fun s id => endCluster id s) s
  if (launchClusters s.hub l.id).isEmpty then s.next .packetRetire { id := l.id } else s.next .queueNotify { aux := 2 }

/-- The lost launch runs again from the hub's own copy, its pages still pinned, or ends with status 10 at its third loss
(R560). What ran stays in the books until the packet retires, whose write-back covers it (R543). -/
def redispatch (s : State) (l : Launch) : State :=
  let n := l.losses + 1
  let s := s.onHub fun h => { h with launches := modWhere (fun x => x.id = l.id) (fun x => { x with losses := n }) h.launches }
  if 3 ≤ n then endLaunch l 10 s
  else
    let s := (launchClusters s.hub l.id).foldl (fun s c => endCluster c.id s) s
    enterClusters { l with losses := n, status := none, clusters := [] } s

/-- The hub's items with their rank: priority, then startable packets before waiting and saved clusters, then the oldest
last start (R400, R552). -/
def hubItems (s : State) : List (Nat × Nat × Nat × HubItem) :=
  let qs := (s.hub.queues.filter fun q => q.bound && !q.stopped && !q.held).map fun q =>
    (field q.cfg 18 16, 0, q.lastStart, HubItem.head q.qid)
  let ls := (s.hub.launches.filter fun l => s.hub.clusters.any fun c => c.launch = l.id && c.phase = .placed).map fun l =>
    (launchPrio s l.id, 1, l.firstStart, HubItem.more l.id)
  let cs := (s.hub.clusters.filter fun c => c.phase = .saved).map fun c =>
    (launchPrio s c.launch, 2, c.id, HubItem.back c.id)
  sortBy (fun a b => decide (b.1 < a.1) || (a.1 = b.1 && (decide (a.2.1 < b.2.1) ||
    (a.2.1 = b.2.1 && decide (a.2.2.1 < b.2.2.1))))) (qs ++ ls ++ cs)

/-- What holds a packet at head is waited for: its signals, or places, which lower clusters may have to give up. The answer is
whether room is being made for the packet. -/
def waitHead (q : Queue) (x : Bool × State) (v : HeadView × HeadPacket) : Bool × State :=
  match v.1 with
  | .signals vas _ => (x.1, vas.foldl (waitSignal q) x.2)
  | .full es =>
    let (room, s) := makePlace (field q.cfg 18 16) q.tenant v.2.packet es x.2
    (x.1 || room, s)
  | _ => x

/-- A queue's head is looked at: what may start is named as an event, and what may not is left to wait. The answer is
whether the hub acts, and whether room is being made. -/
def tryHead (q : Queue) (s : State) : Bool × Bool × State :=
  let (vs, s) := forQueue q.qid none (fun s => ((evaluate q s).1 |> some, (evaluate q s).2)) s
  match vs.map nextAct, vs.getD [] with
  | none, _ => (false, false, s)
  | some (some _), _ => (true, false, first [.event .packetStart { id := q.qid }] s)
  | some none, vs =>
    let (room, s) := vs.foldl (waitHead q) (false, onQueue q.qid (fun q => { q with held := true }) s)
    (false, room, if room || vs.any fun v => (match v.1 with | .full _ => true | _ => false)
      then onQueue q.qid (fun q => { q with held := false }) s else s)

/-- The next waiting cluster of a launch, when it can be placed. -/
def tryMore (id : Nat) (s : State) : Bool × State :=
  match s.hub.launches.find? fun l => l.id = id with
  | none => (false, s)
  | some l =>
    match s.hub.clusters.find? fun c => c.launch = id && c.phase = .placed with
    | none => (false, s)
    | some c =>
      if fitsNow s l.tenant l.packet l.entries [] then
        let cs := if pktCoop l.packet then (s.hub.clusters.filter fun x => x.launch = id && x.phase = .placed) else [c]
        (true, first ((cs.map fun x => .event .clusterStart { id := x.id }) ++ [.event .queueNotify { aux := 2 }]) s)
      else (false, s)

/-- A cove can be used: it is neither gated nor waking nor failed. -/
def Cove.usable (v : Cove) : Bool := !v.gated && v.waking.isNone && !v.failed

/-- The coves that hold a cluster's teams. -/
def clusterCoves (s : State) (c : Cluster) : List Nat := dedup (c.teams.map fun r => coveOf (s.coreOf r))

/-- The coves of a cluster that cannot be used now. -/
def coldCoves (s : State) (c : Cluster) : List Nat := (clusterCoves s c).filter fun v => !((s.dieAt c.die).cove v).usable

/-- A saved cluster can never be restored: a logical core of its teams maps to no physical core any more (R542, R553). -/
def Cluster.stranded (s : State) (c : Cluster) : Bool :=
  (s.hub.saved.filter fun x => x.team.cluster = c.id).any fun x => ((s.dieAt c.die).physical x.team.ref.lcore).isNone

/-- Clusters marked as waiting for their coves, or no longer. -/
def markWaking (on : Bool) (ids : List Nat) (s : State) : State :=
  s.onHub fun h => { h with clusters := modWhere (fun c => ids.contains c.id) (fun c => { c with waking := on }) h.clusters }

/-- A saved cluster goes back, when its places are free and its coves awake: all its coves are asked to wake, and those that are
awake are kept for it (R448). One whose die has left its tenant's partition runs again elsewhere (R553), and one that can never be
restored ends its packet with status 10 (R542). -/
def tryBack (id : Nat) (s : State) : Bool × State :=
  match s.hub.clusters.find? fun c => c.id = id with
  | none => (false, s)
  | some c =>
    match s.hub.launches.find? fun l => l.id = c.launch, restoreGroup s c with
    | none, _ => (false, s)
    | some l, g =>
      if !(s.hub.partitionOf c.tenant).dies.contains c.die then (true, redispatch s l)
      else if c.stranded s then (true, endLaunch l 10 s)
      else if g.isEmpty then (false, if c.waking then markWaking false [id] s else s)
      else if g.any fun x => !(coldCoves s x).isEmpty then
        (false, first (g.flatMap fun x => (clusterCoves s x).map fun v => .event .coveWakeRequest { die := x.die, aux := v })
          (markWaking true (g.map (·.id)) s))
      else (true, first ((g.map fun x => .event .clusterRestore { id := x.id }) ++ [.event .queueNotify { aux := 2 }]) s)

/-- The hub takes its items in order, up to the first on which it acts; saved clusters of a priority below that of a
packet for which room is being made stay away. -/
def tryItems : List (Nat × Nat × Nat × HubItem) → Option Nat → State → State
  | [], _, s => s
  | (prio, _, _, .head qid) :: is, making, s =>
    match s.hub.queue qid with
    | none => tryItems is making s
    | some q =>
      let (acts, room, s) := tryHead q s
      if acts then s else tryItems is (if room then some ((making.getD prio).max prio) else making) s
  | (_, _, _, .more id) :: is, making, s =>
    let (acts, s) := tryMore id s
    if acts then s else tryItems is making s
  | (prio, _, _, .back id) :: is, making, s =>
    if (making.map fun m => decide (prio < m)).getD false then tryItems is making s
    else
      let (acts, s) := tryBack id s
      if acts then s else tryItems is making s

/-- The hub looks at everything that it may start or restore: not within an event that is still to wait for memory, which has no
effect yet. Of several queues that wait for a hardware slot, the first in the hub's list takes a freed one (R398; DESIGN CHOICE, log entry 93). -/
def schedule (s : State) : State :=
  if s.hub.wait.isSome then s
  else
  let s := ((s.hub.queues.filter (·.waiting)).map (·.qid)).foldl (fun s q => bindQueue q s) s
  tryItems (hubItems s) none s

end Sys2Proof.Machine
end

