-- ==== Sys2Proof/Machine/Hub.lean ====
section
/-! DEFINITION. What the hub does: queues and their doorbells, packets from start to retirement, graph replays, time-outs,
working sets, host waits and kills (spec/14_launch_scheduling.md R391 to R415, spec/23_scheduler_recovery.md R542 to
R552, spec/20_errors_framework.md R490). -/

namespace Sys2Proof.Machine

/-! ## Registration (R391, R407) -/

/-- The values of a descriptor that the control die refuses (R391). -/
def queueRefused (desc : Nat) (base cfg rbase : Double) : Bool :=
  let lsz := field cfg 4 0
  let rlsz := field cfg 44 40
  decide (desc % 64 ≠ 0) || decide (base.toNat % 4096 ≠ 0) || decide (rbase.toNat % 64 ≠ 0) || lsz = 0 ||
    decide (16 < lsz) || rlsz = 0 || decide (16 < rlsz) || decide (field cfg 35 24 = 0) ||
    cfg &&& 0x0000e0f000f0ffe0 != 0

/-- A graph object (R407): its completion signal and its nodes, or none when it is not one. -/
def readGraph (tenant base : Nat) (s : State) : Option (Nat × List (List Byte)) × State :=
  match hubDoubles tenant base 8 s with
  | (none, s) => (none, s)
  | (some ds, s) =>
    let h := nth ds 0 0
    let n := field h 63 48
    if field h 31 0 ≠ 0x4f5a4752 ∨ field h 47 32 ≠ 1 ∨ n = 0 ∨ 4096 < n ∨ (ds.drop 2).any (· ≠ 0) then (none, s)
    else
      match hubDoubles tenant (base + 64) (16 * n) s with
      | (none, s) => (none, s)
      | (some xs, s) =>
        (some ((nth ds 1 0).toNat, (List.range n).map fun i =>
          ((xs.drop (16 * i)).take 16).flatMap fun d => natBytes 8 d.toNat), s)

/-- A queue as it is registered: it has no packet of its own yet, and the time of its registration stands for its last start
(R400; DESIGN CHOICE, log entry 93). -/
def freshQueue (tenant desc : Nat) (cfg rtail : Double) (now : Nat) (graph : List (List Byte)) (signal : Nat) : Queue :=
  { qid := field cfg 63 48, tenant := tenant, desc := desc, cfg := cfg, bound := false, stopped := false,
    waiting := false, held := false, lastStart := now, idleFrom := now, started := [], rseq := rtail.toNat % 2 ^ 32,
    hdrFrom := none, depFrom := none, work := [], graph := graph,
    graphSignal := signal, kicks := [], dropped := 0, replays := 0, replay := none }

/-- QUEUE_REGISTER (R391): `id` is the descriptor's IPA. A refused queue leaves nothing, and so does a graph queue whose object is
ill-formed (R407; DESIGN CHOICE, log entry 94); a queue that is registered again keeps its started packets. -/
def execQueueRegister (s : State) : Host.Outcome State Fault Refusal :=
  let o := s.occ
  let desc := o.id
  .next (hubEvent .queueRegister (fun s =>
    let (base, s) := ipaLoad o.tenant (desc + 16) s
    let (cfg, s) := ipaLoad o.tenant (desc + 24) s
    let (rbase, s) := ipaLoad o.tenant (desc + 32) s
    let (rtail, s) := ipaLoad o.tenant (desc + 40) s
    match base, cfg, rbase with
    | some base, some cfg, some rbase =>
      if queueRefused desc base cfg rbase then s
      else
        let (g, s) := if cfg.getLsbD 19 then readGraph o.tenant base.toNat s else (some (0, []), s)
        (match g with
        | none => s
        | some (signal, nodes) =>
          let q := freshQueue o.tenant desc cfg (rtail.getD 0) s.now nodes signal
          let old := s.hub.queue q.qid
          let q := { q with started := (old.map (·.started)).getD [], bound := (old.map (·.bound)).getD false }
          s.onHub fun h => { h with queues := q :: h.queues.filter fun x => x.qid ≠ q.qid })
    | _, _, _ => s) s)

/-! ## Graph replays (R407 to R409) -/

/-- A patch of a replay's copy (R408): its reserved bits are not looked at (R5), and one that names no node or a reserved offset
changes nothing (DESIGN CHOICE, log entry 29). -/
def patchNodes (nodes : List (List Byte)) (e v : Double) : List (List Byte) :=
  let i := field e 11 0
  let off := field e 22 16
  if [32, 88, 96, 104, 112, 120].contains off = false then nodes
  else match nodes[i]? with
    | none => nodes
    | some p => nodes.set i (p.take off ++ natBytes 8 v.toNat ++ p.drop (off + 8))

/-- The patch table read and applied in order. -/
def applyPatches (tenant va : Nat) : Nat → List (List Byte) → State → List (List Byte) × State
  | 0, ns, s => (ns, s)
  | n + 1, ns, s =>
    match hubDoubles tenant va 2 s with
    | (some ds, s) => applyPatches tenant (va + 16) n (patchNodes ns (nth ds 0 0) (nth ds 1 0)) s
    | (none, s) => applyPatches tenant (va + 16) n ns s

/-- The oldest kick of a graph queue starts its replay, when none runs and the report ring has room (R409). -/
def beginReplay (qid : Nat) (s : State) : State :=
  match s.hub.queue qid with
  | none => s
  | some q =>
    match q.replay, q.kicks with
    | none, (count, tag) :: rest =>
      (forQueue qid () (fun s =>
        let (room, s) := reportRoom q s
        if !room || q.stopped then ((), s)
        else
          let (table, s) := descRead q 48 s
          let (nodes, s) := applyPatches q.tenant table.toNat count q.graph s
          let r : Replay := { num := q.replays, tag := tag, nodes := nodes, started := [], retired := [], status := 0 }
          ((), onQueue qid (fun q => { q with replay := some r, kicks := rest, replays := q.replays + 1, work := [] }) s)) s).2
    | _, _ => s

/-- The lowering of a signal by the hub: amo.add of −1, then a wake of its key (R403, R409). -/
def lowerSignal (tenant va : Nat) (s : State) : State :=
  if va = 0 then s
  else
    let (x, s) := hubLoad tenant va s
    let s := match x with
      | some x => hubStore tenant va (x - 1) s
      | none => s
    wakeSignal tenant va s

/-- A node of a replay has retired (R409): with the last one, the graph's signal falls and its one report is written, with the
status of the first node that did not retire normally (DESIGN CHOICE, log entry 29). -/
def nodeRetired (qid node status : Nat) (s : State) : State :=
  let add := fun r : Replay =>
    { r with retired := node :: r.retired, status := if r.status = 0 ∨ r.status = 1 then max r.status status else r.status }
  let s := onQueue qid (fun q => { q with replay := q.replay.map add }) s
  match s.hub.queue qid with
  | none => s
  | some q =>
    match q.replay with
    | none => s
    | some r =>
      if r.retired.length < r.nodes.length then s
      else
        let s := lowerSignal q.tenant q.graphSignal s
        let s := writeReport qid r.status r.num r.tag.toNat s
        beginReplay qid (onQueue qid (fun q => { q with replay := none, idleFrom := s.now }) s)

/-! ## Doorbells (R391, R402, R405, R546, R549) -/

/-- The tenant of a write to the hub: that of the host-link function through which it was made (R413, R414, R453, R462), and of
a write by another agent the one it names. -/
def writerTenant (h : Hub) (o : Occ) : Option Nat :=
  match o.agent with
  | .physicalFunction => h.functionTenant 0
  | .virtualFunction f => h.functionTenant f
  | _ => some o.tenant

/-- A doorbell write by a tenant that is not the queue's (R546). -/
def strangerBell (q : Queue) (tenant : Option Nat) (x : Double) (s : State) : State :=
  record tenant 0 10 0xff 0 0x0200 x (pktOf q.qid (2 ^ 48 - 1)) s

/-- A queue is looked at again (R402). -/
def reconsider (qid : Nat) (s : State) : State :=
  schedule (beginReplay qid (onQueue qid (fun q => { q with held := false }) s))

/-- QUEUE_NOTIFY: a notify write, whose value is a hint (R402, R405). With `aux` 1 a wake has reached the queue's dependence
wait, and with `aux` 2 places have become free. -/
def execQueueNotify (s : State) : Host.Outcome State Fault Refusal :=
  let o := s.occ
  .next (
    if o.aux = 2 then schedule s
    else match s.hub.queue o.id with
      | none => s
      | some q =>
        if o.aux = 1 then reconsider o.id s
        else if writerTenant s.hub o ≠ some q.tenant then strangerBell q (writerTenant s.hub o) o.w s
        else reconsider o.id (bindQueue o.id s))

/-- GRAPH_KICK (R408, R409, R549): a kick that finds 16 waiting is dropped. -/
def execGraphKick (s : State) : Host.Outcome State Fault Refusal :=
  let o := s.occ
  .next (match s.hub.queue o.id with
    | none => s
    | some q =>
      if writerTenant s.hub o ≠ some q.tenant then strangerBell q (writerTenant s.hub o) o.w s
      else if q.stopped || !q.cfg.getLsbD 19 then s
      else if 16 ≤ q.kicks.length then
        let s := onQueue o.id (fun q => { q with dropped := (q.dropped + 1) % 2 ^ 32 }) s
        record (some q.tenant) 0 10 0xff 0 0x0203 (dbl ((q.dropped + 1) % 2 ^ 32)) (pktOf q.qid (2 ^ 48 - 1)) s
      else
        let kick := (field o.w 15 0, BitVec.ofNat 32 (field o.w 47 16))
        reconsider o.id (bindQueue o.id (onQueue o.id (fun q => { q with kicks := q.kicks ++ [kick] }) s)))

/-- What the kick register reads (R549). -/
def kickState (q : Queue) : Double := dbl (q.dropped * 2 ^ 32 + q.kicks.length)

/-! ## Starting a packet (R392, R399, R403) -/

/-- A packet queue's slot is consumed: its header double becomes 0, and then head k + 1 (R392). -/
def consumeSlot (q : Queue) (k : Nat) (s : State) : State :=
  let (base, s) := descRead q 16 s
  let s := hubStore q.tenant (slotVa q base.toNat k) 0 s
  let s := ipaStore q.tenant q.desc (dbl (k + 1)) s
  onQueue q.qid (fun q => { q with hdrFrom := none, depFrom := none, idleFrom := s.now }) s

/-- The hub consumes a packet at head: its slot, or its node of the replay, which counts as started; its waits and its working
set leave with it. -/
def consume (q : Queue) (p : HeadPacket) (s : State) : State :=
  let s := leaveSignals q p s
  let s := onQueue q.qid (fun q => { q with work := q.work.filter fun w => !w.of p }) s
  match p.node with
  | some i => onQueue q.qid (fun q => { q with replay := q.replay.map fun r => { r with started := i :: r.started } }) s
  | none => consumeSlot q p.k s

/-- A packet at head is consumed and reported before any team runs: its signal does not fall, and its waiters are woken
(R543). -/
def refuseHead (q : Queue) (p : HeadPacket) (status : Nat) (s : State) : State :=
  let s := wakeSignal q.tenant (pktSignal p.packet) (consume q p s)
  match p.node with
  | some i => nodeRetired q.qid i status s
  | none => writeReport q.qid status p.k (pktTag p.packet) s

/-- The threads of a packet for the control die, cluster by cluster, each with its entry state (R397). -/
def packetThreads (p : List Byte) (entry : Nat) : List Thread :=
  (List.range (pktClusters p * pktTeams p)).map fun i =>
    let index := i / pktTeams p
    let rank := i % pktTeams p
    { index := index, rank := rank, entry := entry, returned := false,
      x := [pktField p 32, dbl index, dbl rank] ++ (List.range 4).map fun j => pktField p (96 + 8 * j) }

/-- A packet is handed to the control die: each of its threads returns at a time that the resident operating system fixes (R397;
log entry 4). -/
def handToControl (l : Launch) (s : State) : State :=
  let ts := packetThreads l.packet ((nth l.entries 2 none).getD (0, 0)).1
  let s := s.onHub fun h => { h with launches := { l with threads := ts } :: h.launches }
  (List.range ts.length).foldl (fun s i => s.later .packetRetire { id := l.id, aux := i + 1 }) s

/-- The packet at head starts (R399), with the pins of its working set. A barrier packet retires at once, and a control-die packet
after its threads have returned (R394, R397). -/
def startPacket (q : Queue) (p : HeadPacket) (entries : List (Option (Nat × Nat))) (s : State) : State :=
  let pins := q.pins p
  let begun := fun q : Queue => if p.node.isSome then q.started else q.started ++ [p.k]
  let s := onQueue q.qid (fun q => { q with lastStart := s.now, started := begun q }) (consume q p s)
  let (id, s) := s.newId
  let l : Launch :=
    { id := id, qid := q.qid, k := p.k, tenant := q.tenant, packet := p.packet, clusters := [], entries := entries,
      losses := 0, firstStart := s.now, status := none, replay := p.node.map fun i => (p.k, i), pins := pins, threads := [] }
  let run := limitOf s 15 0
  let s := if run = 0 then s else s.after run .runTimeout { id := id }
  if pktOnDies p.packet then enterClusters l s
  else if pktType p.packet = 2 then
    first [.event .packetRetire { id := id }] (s.onHub fun h => { h with launches := l :: h.launches })
  else schedule (handToControl l s)

/-- The packet at the head of a queue is refused or started, where one may be. -/
def startHead (q : Queue) (s : State) : State :=
  let (vs, s) := evaluate q s
  let q := (s.hub.queue q.qid).getD q
  match nextAct vs with
  | some (.refused st unread, p) =>
    let s := if unread then record (some q.tenant) 0 10 0xff 0 0x0207 (pktField p.packet 8) (pktOf q.qid p.k) s else s
    schedule (refuseHead q p st s)
  | some (.ready es, p) => startPacket q p es s
  | _ => s

/-- PACKET_START (R399): the hub consumes the packet at the head of a queue, refuses it or starts it. While the home makes it wait
for the slot or the descriptor, it goes on with its other queues. -/
def execPacketStart (s : State) : Host.Outcome State Fault Refusal :=
  .next (match s.hub.queue s.occ.id with
    | none => s
    | some q =>
      if q.stopped || !q.bound then s
      else
        let (done, s) := forQueue q.qid false (fun s => (true, startHead q s)) s
        if done then s else schedule s)

/-! ## Gang start (R41, R42, R48, R51, R396) -/

/-- A record for each VA window of a team that R353 makes reserved, as the supervisor starts or resumes it (R529). -/
def badWindows (s : State) : State :=
  let t := s.team
  (List.range 8).foldl (fun s j =>
    if winReserved (vget t.vwin j 0) then
      errorRecord (errSrc (some t.tenant) 0 1 s.core.die s.core.pcore 0x0108) 0 (dbl j) noPkt 0 s
    else s) s

/-- The owner state at the start of ownership (R261, R274, R507): tags f32, accumulators and context code unspecified, tri
zero with an empty record, no latch, nothing bound; the core's ebb gives way (R450). -/
def startOwner (s : State) : State :=
  let n := s.free
  { s with free := n + 2,
           core := { s.core.clearOwner with acc := { epoch := n + 1, rows := [] }, codeEpoch := n + 1, ebb := 0 } }

/-- The IPA of a save area in the physical aperture of its package (R432): the areas lie below the top of the twelfth HBM4 stack,
by their number (DESIGN CHOICE, log entry 14). -/
def saveAreaOf (pkg n : Nat) : Nat := pkg * 2 ^ 46 + 0x200000000000 + (12 * 2 ^ 36 - (n + 1) * 2883584)

/-- The save areas that teams hold, resident or saved. -/
def usedAreas (s : State) : List Nat :=
  ((s.allTeams.filter (·.resident)).map (·.saveArea)) ++ s.hub.saved.map (·.team.saveArea)

/-- A free save area: the lowest by number. -/
def freeArea (s : State) : Nat :=
  let used := usedAreas s
  let n := ((List.range (used.length + 1)).find? fun n => !used.contains (saveAreaOf s.hub.package n)).getD used.length
  saveAreaOf s.hub.package n

/-- VWIN7 of a team: the die window (R345). -/
def dieWindow (pkg d : Nat) : Double :=
  dbl (7 * 2 ^ 61 + 2 * 2 ^ 56 + (pkg * 2 ^ 46 + dieRegion d) / 2 ^ 30 * 2 ^ 30 + 0x00ffff0000000000 / 2 ^ 30 * 2 ^ 4)

/-- A team of a cluster in its seat with its entry state (R396): what the rule does not name is unspecified. -/
def entryTeam (s : State) (l : Launch) (c : Cluster) (rank : Nat) (x : Seat) (entry : Nat) : Team :=
  let n := s.free
  let p := l.packet
  let t := freeBits n (freeFiles n (fun i => decide (i = 0)) (fun _ => false) (fun _ => false) (fun _ => false)
    (Team.reset x.ref))
  let t := { t with a := vput t.a 0 (pktField p 32) }
  let t := (List.range 4).foldl (fun t i => { t with s := vput t.s (i + 1) (pktField p (96 + 8 * i)) }) t
  let own := if x.own then 1 else 0
  let win := Vector.ofFn fun i : Fin 8 => nth (tenantWindows s l.tenant) i.val 0
  { t with
    resident := true, tenant := l.tenant, cluster := c.id,
    tid := dbl ((pktTeams p - 1) * 2 ^ 32 + own * 2 ^ 14 + x.ref.rslot * 2 ^ 12 + x.ref.lcore * 2 ^ 6 + rank),
    cid := dbl ((if pktCoop p then 2 ^ 45 else 0) + x.ref.die * 2 ^ 42 + s.hub.package * 2 ^ 32 +
      (pktClusters p - 1) * 2 ^ 16 + c.index),
    lmg := dbl (x.size * 2 ^ 12 + x.base),
    vwin := vput win 7 (dieWindow s.hub.package x.ref.die), pc := entry, budget := pktBudget p,
    slice := 64 * (((s.hub.queue l.qid).map fun q => field q.cfg 35 24).getD 0),
    park := .start, saveArea := freeArea s }

/-- A team takes its seat: its grant and its registers hold unspecified values but for the entry state, and the
supervisor loads the code from the entry to the end of its section, as far as the store reaches (R396). -/
def seatTeam (l : Launch) (c : Cluster) (s : State) (x : Nat × Seat) : State :=
  let (rank, x) := x
  let s := s.focus x.ref
  let (entry, len) := (nth l.entries (profileOf s x.ref.die - 1) none).getD (0, 0)
  let t := entryTeam s l c rank x entry
  let s : State := { s with team := t, free := s.free + 256 }
  let s := clearGrant x.ref.die x.ref.lcore t.lmg true s
  let s := if x.own then startOwner s else s
  let lines := min 4096 ((entry % 64 + len + 63) / 64)
  badWindows ((List.range lines).reverse.foldl (fun s i => loadLine s (lineOf entry + 64 * i)) s)

/-- The start message releases the teams of a placed cluster, once every cove that holds them can be used; a gated cove
is asked to wake (R48, R448). The clusters of a cooperative grid are released together (R54). -/
def releaseCluster (c : Cluster) (s : State) : State :=
  let g := saveGroup s c
  let down := g.flatMap fun c => (coldCoves s c).map fun v => Turn.event .coveWakeRequest { die := c.die, aux := v }
  if g.any fun c => c.phase = .placed then s
  else if down.isEmpty then
    s.modTeams (fun t => t.resident && (g.any fun c => t.cluster = c.id) && t.park = .start) fun t => { t with park := .none }
  else first down s

/-- A waiting cluster is placed and released; a placed one is released (R48). -/
def startCluster (id : Nat) (s : State) : State :=
  match s.hub.clusters.find? fun c => c.id = id with
  | none => s
  | some c =>
    match c.phase, s.hub.launches.find? fun l => l.id = c.launch with
    | .placed, some l =>
      (match planCluster s (takenSeats s []) (placeDies s l.tenant (pktTgt l.packet) l.entries) c.id (pktTeams l.packet)
          (pktLm l.packet) c.own with
      | none => s
      | some xs =>
        let d := (xs.head?.map fun x => x.ref.die).getD 0
        let c := { c with die := d, teams := xs.map (·.ref), phase := .resident }
        let s := s.onHub fun h => { h with clusters := modWhere (fun x => x.id = id) (fun _ => c) h.clusters, lastDie := d }
        releaseCluster c ((List.zip (List.range xs.length) xs).foldl (seatTeam l c) s))
    | .resident, _ => releaseCluster c s
    | _, _ => s

/-- CLUSTER_START (R48): the gang start of a cluster. -/
def execClusterStart (s : State) : Host.Outcome State Fault Refusal := .next (startCluster s.occ.id s)

/-! ## Retirement (R403, R543) -/

/-- Every dirty L1D and L2 line of a launch's cores and dies is written back to its home, at .sys as CWB.sys does
(R378, R383, R403). -/
def writeBackLaunch (sys : Bool) (cs : List Cluster) (s : State) : State :=
  let s := cs.foldl (fun s c => c.teams.foldl (fun s r => flushL1 none r.die (s.coreOf r) (fun _ => true) s) s) s
  (dedup ((cs.filter fun c => !c.teams.isEmpty).map (·.die))).foldl
    (fun s d => flushL2Home d (fun _ => true) sys s) s

/-- A launch leaves with a status: its write-backs, its signal, the wake and the report (R403, R543). -/
def retireLaunch (l : Launch) (status : Nat) (s : State) : State :=
  let s := writeBackLaunch (pktSys l.packet) (s.hub.clusters.filter fun c => c.launch = l.id) s
  if !(s.hub.launches.any fun x => x.id = l.id) then s
  else
    let sig := pktSignal l.packet
    let s := if status ≤ 1 then lowerSignal l.tenant sig s else wakeSignal l.tenant sig s
    let s := match l.replay with
      | none => forgetLaunch l (writeReport l.qid status l.k (pktTag l.packet) s)
      | some (_, i) => nodeRetired l.qid i status (forgetLaunch l s)
    reconsider l.qid (onQueue l.qid (fun q => { q with idleFrom := s.now }) s)

/-- The status of a launch whose clusters have all ended (R542). -/
def Launch.finalStatus (l : Launch) : Nat := l.status.getD (if l.losses = 0 then 0 else 1)

/-- A thread of a launch has returned (R397). -/
def threadReturned (l : Launch) (i : Nat) (s : State) : State :=
  let ret := fun l : Launch => { l with threads := l.threads.modify i fun t => { t with returned := true } }
  s.onHub fun h => { h with launches := modWhere (fun x => x.id = l.id) ret h.launches }

/-- A thread of the launch that the event names has returned, or a cluster of it has ended: the packet retires with the last. -/
def launchAdvances (s : State) : State :=
  match s.hub.launches.find? fun l => l.id = s.occ.id with
  | none => s
  | some l =>
    let s := if s.occ.aux = 0 then s else threadReturned l (s.occ.aux - 1) s
    let l := (s.hub.launches.find? fun x => x.id = l.id).getD l
    if (launchClusters s.hub l.id).isEmpty && (l.status.isSome || l.threads.all (·.returned)) then
      retireLaunch l l.finalStatus s
    else s

/-- PACKET_RETIRE (R397, R403): every team of the launch `id` has ended; or, with `aux` n, its thread n − 1 has returned, and with
the last one the packet retires. -/
def execPacketRetire (s : State) : Host.Outcome State Fault Refusal := .next (hubEvent .packetRetire launchAdvances s)

/-! ## Time-outs (R550, R551) -/

/-- The limit of the slot at the head of the queue that the event names has run out. -/
def hdrExpires (s : State) : State :=
  let o := s.occ
  match s.hub.queue o.id with
  | none => s
  | some q =>
    if q.hdrFrom ≠ some o.aux || q.stopped then s
    else
      let (v, s) := headPacket q s
      match v with
      | .error true =>
        let (k, s) := descRead q 0 s
        let s := writeReport q.qid 7 k.toNat 0 s
        schedule (onQueue q.qid (fun q => { q with bound := false, stopped := true, hdrFrom := none }) s)
      | _ => reconsider o.id (onQueue o.id (fun q => { q with hdrFrom := none }) s)

/-- HDR_TIMEOUT (R551): the slot at head was claimed and never became valid. -/
def execHdrTimeout (s : State) : Host.Outcome State Fault Refusal := .next (hubEvent .hdrTimeout hdrExpires s)

/-- The limit of the signals that the head of the queue that the event names waits for has run out. -/
def depExpires (s : State) : State :=
  let o := s.occ
  match s.hub.queue o.id with
  | none => s
  | some q =>
    if q.depFrom ≠ some o.aux || q.stopped then s
    else
      let (vs, s) := evaluate q s
      let s := onQueue o.id (fun q => { q with depFrom := none }) s
      let q := (s.hub.queue o.id).getD q
      match vs.find? heldBySignals with
      | some (_, p) => reconsider o.id (refuseHead q p 8 s)
      | none => reconsider o.id s

/-- DEP_TIMEOUT (R551): the head packet is consumed with status 8. -/
def execDepTimeout (s : State) : Host.Outcome State Fault Refusal := .next (hubEvent .depTimeout depExpires s)

/-- RUN_TIMEOUT (R551, R564): every cluster of the packet ends, saved ones with them, with status 9. -/
def execRunTimeout (s : State) : Host.Outcome State Fault Refusal :=
  .next (match s.hub.launches.find? fun l => l.id = s.occ.id with
    | none => s
    | some l =>
      let mine := fun c : Core => (s.residents c.die c.pcore).any fun r => l.clusters.contains (s.teamAt r).cluster
      endLaunch l 9 (ebbOut mine s))

/-- DEP_FALLBACK_POLL (R548). -/
def execDepFallbackPoll (s : State) : Host.Outcome State Fault Refusal := .next (reconsider s.occ.id s)

/-! ## Working sets (R399) -/

/-- A page that a working set has asked for is answered for. -/
def WorkSet.answered (w : WorkSet) (page : Nat) : WorkSet :=
  if w.asked.any fun x => x.1 = page then
    { w with asked := w.asked.filter (fun x => x.1 ≠ page), pinned := page :: w.pinned }
  else w

/-- WORKING_SET_ANSWER (R399): `id` is the queue and `aux` the page; a page that the service declines kills the
tenant. -/
def execWorkingSetAnswer (s : State) : Host.Outcome State Fault Refusal :=
  let o := s.occ
  .next (match s.hub.queue o.id with
    | none => s
    | some q =>
      if !(q.work.any fun w => w.asked.any fun x => x.1 = o.aux) then s
      else if !o.ok then schedule (declineFault q.tenant o.aux s)
      else reconsider o.id (onQueue o.id (fun q => { q with work := q.work.map (·.answered o.aux) }) s))

/-- WORKING_SET_TIMEOUT (R399): a page left unanswered for 100 ms. -/
def execWorkingSetTimeout (s : State) : Host.Outcome State Fault Refusal :=
  let o := s.occ
  .next (match s.hub.queue o.id with
    | none => s
    | some q =>
      if q.work.any fun w => w.asked.any fun x => x.1 = o.aux && decide (x.2 + 240000000 ≤ s.now) then
        schedule (declineFault q.tenant o.aux s)
      else s)

/-! ## Kills and host waits (R413 to R415, R490) -/

/-- TKILL (R490): `tenant` as firmware wrote it with go = 1. -/
def execTkill (s : State) : Host.Outcome State Fault Refusal :=
  let t := s.occ.tenant
  let s := s.onHub fun h => { h with tkill := dbl (t % 2 ^ 16) }
  .next (schedule (killTenant t (errSrc (some t) 3 12 0xff 0 0x0206) 0 0 s))

/-- The key VA of a host register. -/
def hostKeyVa (x : Double) : Nat := field x 55 3 * 8

/-- The value of HWKEYj put, with its reserved bits clear. -/
def putHwkey (j : Nat) (x : Double) (en : Bool) (s : State) : State :=
  s.onHub fun h => { h with hwkey := SMap.insert h.hwkey j (dbl (hostKeyVa x + if en then 2 ^ 63 else 0)) }

/-- A host pair joins the waiters of its key, or takes its token and is woken at once (R413, R415, R548). -/
def armPair (j tenant : Nat) (x : Double) (s : State) : State :=
  let va := hostKeyVa x
  let off := putHwkey j x false s
  let on := putHwkey j x true s
  match windowPackage (tenantWindows s tenant) va with
  | none => record (some tenant) 0 10 0xff j 0x0204 (dbl va) noPkt off
  | some pkg =>
    match joinKey (.host j) pkg tenant va on with
    | (.token, s) => wakeHost j s
    | (.waits, s) => s
    | (.full, s) => unarm j s

/-- HWKEY_ARM (R413): a write of HWKEYj; an armed pair first leaves its old key. A function with no tenant has no window. -/
def execHwkeyArm (s : State) : Host.Outcome State Fault Refusal :=
  let o := s.occ
  let s := removeWaiter (.host o.id) s
  .next (match writerTenant s.hub o, o.w.getLsbD 63 with
    | some t, true => armPair o.id t o.w (s.onHub fun h => { h with hwTenant := SMap.insert h.hwTenant o.id t })
    | none, true => record none 0 10 0xff o.id 0x0204 (dbl (hostKeyVa o.w)) noPkt (putHwkey o.id o.w false s)
    | _, false => putHwkey o.id o.w false s)

/-- HWAKE (R414, R415). -/
def execHwake (s : State) : Host.Outcome State Fault Refusal :=
  let o := s.occ
  let va := hostKeyVa o.w
  .next (match writerTenant s.hub o with
    | none => record none 0 10 0xff 0xffff 0x0204 (dbl va) noPkt s
    | some t => match windowPackage (tenantWindows s t) va with
      | none => record (some t) 0 10 0xff 0xffff 0x0204 (dbl va) noPkt s
      | some pkg => wakeAt pkg t va (field o.w 63 56) s)

end Sys2Proof.Machine
end

