-- ==== Sys2Proof/Machine/Area.lean ====
section
/-! DEFINITION. The bytes of a save area, which are those of the team-state window too: what each double of it holds for the acting
team and its core, and what the team and the core become when its doubles hold other values (spec/15_traps_preemption.md R421 to
R437, spec/23_scheduler_recovery.md R553 to R556). What the spec leaves open of the layout is log entry 33. -/

namespace Sys2Proof.Machine

/-! ## Values (R424) -/

/-- A v-register as doubles, low bytes first. -/
def vDoubles (x : VReg) : List Double :=
  (List.range 32).map fun i => dbl ((lane x (2 * i)).toNat + (lane x (2 * i + 1)).toNat * 2 ^ 32)

/-- A v-register from its doubles. -/
def vOf (xs : List Double) : VReg := Vector.ofFn fun l => (nth xs (l.val / 2) 0).extractLsb' (32 * (l.val % 2)) 32

/-- `n` doubles of an area from an offset up. -/
def doublesAt (f : Nat → Double) (o n : Nat) : List Double := (List.range n).map fun i => f (o + 8 * i)

/-- The words from an offset up, two to a double. -/
def wordAt (f : Nat → Double) (o : Nat) : Word32 := (f (o / 8 * 8)).extractLsb' (8 * (o % 8)) 32

/-! ## Slack entries (R421, R424) -/

/-- The code of a domain, and the domain of a code. -/
def domainCode (d : Domain) : Nat := d.idx
@[inherit_doc domainCode] def domainAt (n : Nat) : Domain := nth [Domain.core, .vx, .mx, .dx] (n % 4) .core

/-- A result's file, number, lane mask and value; a CSRW's has no code, and stays with the hub (log entry 33). -/
def Write.coded : Write → Option (Nat × Nat × Double × List Double)
  | .s n x => some (0, n.toNat, BitVec.allOnes 64, [x])
  | .a n x => some (1, n.toNat, BitVec.allOnes 64, [x])
  | .d n x => some (2, n.toNat, BitVec.allOnes 64, [x])
  | .p n x => some (3, n.toNat, BitVec.allOnes 64, [if x then 1 else 0])
  | .m n lanes x => some (4, n.toNat, lanes, [x])
  | .v n lanes x => some (5, n.toNat, lanes, vDoubles x)
  | .latch x => some (6, 63, BitVec.allOnes 64, vDoubles x)
  | .lcnt x => some (7, 0, BitVec.allOnes 64, [x.setWidth 64])
  | .csr _ _ => none

/-- The result that an entry's file, number, lane mask and value stand for. -/
def codedWrite (file num : Nat) (lanes : Double) (xs : List Double) : Write :=
  let x := nth xs 0 0
  match file with
  | 0 => .s (BitVec.ofNat 6 num) x
  | 1 => .a (BitVec.ofNat 4 num) x
  | 2 => .d (BitVec.ofNat 4 num) x
  | 3 => .p (BitVec.ofNat 3 num) (x.getLsbD 0)
  | 4 => .m (BitVec.ofNat 3 num) lanes x
  | 5 => .v (BitVec.ofNat 6 num) lanes (vOf xs)
  | 6 => .latch (vOf xs)
  | _ => .lcnt (x.setWidth 32)

/-- The results of a team that have a slack entry, in issue order. -/
def Team.slack (t : Team) : List Landing := t.flight.filter fun l => l.write.coded.isSome

/-- The 36 doubles of a slack entry: its remaining count is that of the first frozen cycle (R421). -/
def slackEntry (l : Landing) : List Double :=
  match l.write.coded with
  | none => []
  | some (file, num, lanes, xs) =>
    [dbl (2 ^ 63 + domainCode l.domain * 2 ^ 60 + file * 2 ^ 56 + num * 2 ^ 50 + (l.rem - 1) % 2 ^ 16), lanes, 0, 0] ++
      (xs ++ List.replicate 32 0).take 32

/-- A result from its slack entry: what the entry does not hold is that of the result that had the place. -/
def slackLanding (old : Option Landing) (pos : Nat) (ds : List Double) : Option Landing :=
  let h := nth ds 0 0
  if !h.getLsbD 63 then none
  else
    let d := domainAt (field h 62 60)
    some { slot := (old.map (·.slot)).getD (match d with | .core => .ct | .vx => .vx | .mx => .mx | .dx => .dx), domain := d,
           pos := (old.map (·.pos)).getD pos, rem := field h 15 0 + 1,
           write := codedWrite (field h 59 56) (field h 55 50) (nth ds 1 0) (ds.drop 4),
           energy := old.bind (·.energy) }

/-! ## Array entries (R423, R424) -/

/-- An operation of the matrix array or of the rotation array in flight. -/
inductive ArrayOp where
  | mx (o : MxOp)
  | rx (o : RxOp)
  | fixed (o : FixedOp)
  deriving DecidableEq, Repr

/-- Its identity, which rises in issue order. -/
def ArrayOp.id : ArrayOp → Nat
  | .mx o => o.id
  | .rx o => o.id
  | .fixed o => o.id

/-- The operations of the acting team in flight, in issue order. -/
def arrayOps (s : State) : List ArrayOp :=
  sortBy (fun a b => decide (a.id < b.id))
    ((s.core.mxq.filter fun o => o.team = s.team.ref).map .mx ++ (s.core.rxq.filter fun o => o.team = s.team.ref).map .rx ++
      (s.core.fixed.filter fun o => o.team = s.team.ref).map .fixed)

/-- The remaining cycles of an operation, behind so many beats of earlier ones; the answer's second part is the beats that the next
one is behind (R269). -/
def ArrayOp.left (before : Nat) : ArrayOp → Nat × Nat
  | .mx o => match o.after with
    | some n => (n - 1, before)
    | none => (before + o.beats + o.tail - 1, before + o.beats)
  | .rx o => (o.rem - 1, before)
  | .fixed o => (o.rem - 1, before)

/-- The 36 doubles of an array entry; its number is that of its slot (DESIGN CHOICE, log entry 33), and the cycles since its issue
are the MX cycles that have been counted towards its landing (DESIGN CHOICE, log entry 88). -/
def ArrayOp.entry (left : Nat) : ArrayOp → List Double
  | .mx o =>
    [dbl (2 ^ 63 + 2 * 2 ^ 60 + slotNum .mx * 2 ^ 50 + 2 ^ 49 + o.age % 2 ^ 17 * 2 ^ 32 + left % 2 ^ 16), o.word.setWidth 64,
      o.aBase, o.bBase] ++ vDoubles o.src
  | .rx o =>
    [dbl (2 ^ 63 + 2 * 2 ^ 60 + slotNum .rx * 2 ^ 50 + 2 ^ 49 + o.age % 2 ^ 17 * 2 ^ 32 + left % 2 ^ 16), o.word.setWidth 64,
      0, 0] ++ vDoubles o.src
  | .fixed o =>
    [dbl (2 ^ 63 + 2 * 2 ^ 60 + slotNum o.slot * 2 ^ 50 + 2 ^ 49 + o.age % 2 ^ 17 * 2 ^ 32 + left % 2 ^ 16), o.word.setWidth 64,
      o.aBase, 0] ++ vDoubles o.src

/-- The array entries of operations behind so many beats. -/
def arrayEntries : Nat → List ArrayOp → List (List Double)
  | _, [] => []
  | before, o :: os =>
    let (n, before) := o.left before
    o.entry n :: arrayEntries before os

/-- The panel at an address, or the one that the operation had. -/
def panelOr (s : State) (use : PanelUse) (base : Double) (rows rb : Nat) (old : Option Panel) : Option Panel :=
  match panelAt s use .read base rows rb with
  | .ok p => some p
  | .error _ => old

/-- An MX operation run again from its entry (R423): it fetches its operands anew, and lands after the entry's remaining count or
later. -/
def rerunMx (s : State) (o : MxOp) (word : Word32) (a b : Double) (src : VReg) (rem age before : Nat) : MxOp :=
  let i := decodeSlot .mx word
  let o := { o with word := word, aBase := a, bBase := b, src := src, age := age, waiting := [], held := [], aRows := [] }
  match i with
  | .mma f =>
    let c := shapeCover f.z f.n16 f.msel
    let fmt := f.fmt.toNat
    let beats := max 1 (rem + 1 - 21 - before)
    { o with kind := .mma fmt (f.clr = 1) (f.hold = 1), cover := c, writes := true,
             aPanel := panelOr s (.a (mxBfp fmt)) a c.rows (mxRb fmt) o.aPanel,
             bPanel := if f.aB = 15 then none else panelOr s (.b (mxBfp fmt)) b c.cols (mxRb fmt) o.bPanel,
             bCols := if f.aB = 15 then (o.bCols.orElse fun _ => s.core.latch.map fun l => l.cols.take c.cols) else none,
             bFrom := if f.aB = 15 then o.bFrom else none, arrived := false, beats := beats, tail := min 21 rem,
             after := none, value := [] }
  | .mldb f =>
    let fmt := f.fmt.toNat
    let n := mxN f.n16
    { o with kind := .mldb fmt, cover := { z := 0, row0 := 0, rows := 0, col0 := 0, cols := n }, writes := false,
             bPanel := panelOr s (.b (mxBfp fmt)) b n (mxRb fmt) o.bPanel, bCols := none, arrived := false }
  | .mldz f =>
    let c := shapeCover f.z f.n16 f.msel
    { o with kind := .mldz, cover := c, writes := true, aPanel := panelOr s .tile a c.rows (4 * c.cols) o.aPanel,
             arrived := false, after := none, value := [] }
  | i => match putRows s src i with
    | some (c, rows) => { o with kind := .put rows, cover := c, writes := true, value := rows, after := some (rem + 1) }
    | none => o

/-- The updates of tri in flight run again, one after another, from what tri holds (R275, R423). -/
def rerunRx : Tri → List RxOp → List RxOp
  | _, [] => []
  | t, o :: os =>
    let t := ((rxUpdate (decodeSlot .rx o.word)).map fun u => u o.src t).getD t
    { o with tri := t } :: rerunRx t os

/-- An operation of fixed latency: its register result is a slack entry's (R421). -/
def isFixed : Instr → Bool
  | .mrd _ | .mrel _ | .rqapp _ | .rread _ | .rrhs _ | .rsolve _ | .rlay _ | .rlayi _ | .rvec _ | .angc _ | .rgain _ => true
  | _ => false

/-- The operation of an array entry: it takes the place of the one that stood there, or a new one. One of fixed latency has its
register result as its slack entry has it (R421; log entry 33). -/
def runEntry (old : Option ArrayOp) (ds : List Double) (before : Nat) (s : State) : Option ArrayOp × State :=
  let h := nth ds 0 0
  let word := (nth ds 1 0).setWidth 32
  let src := vOf (ds.drop 4)
  let rem := field h 15 0
  let age := field h 48 32
  let slot : Slot := if field h 55 50 = slotNum .rx then .rx else .mx
  if !h.getLsbD 63 then (none, s)
  else if isFixed (decodeSlot slot word) then
    let (id, s) := match old with
      | some o => (o.id, s)
      | none => s.newId
    (some (.fixed { id := id, team := s.team.ref, slot := slot, pos := s.team.oldest, word := word, aBase := nth ds 2 0, src := src,
                    rem := rem + 1, age := age }), s)
  else if slot = .rx then
    let i := decodeSlot .rx word
    match old with
    | some (.rx o) => (some (.rx { o with word := word, src := src, feed := isFeed i, rem := rem + 1, age := age }), s)
    | _ =>
      let (o, s) := newRx i src (rem + 1) age s
      (some (.rx o), s)
  else
    let (o, s) := match old with
      | some (.mx o) => (o, s)
      | _ => newMx (decodeSlot .mx word) (.put []) { z := 0, row0 := 0, rows := 0, col0 := 0, cols := 0 } false s
    (some (.mx (rerunMx s o word (nth ds 2 0) (nth ds 3 0) src rem age before)), s)

/-- The operations of array entries, in their order. -/
def runEntries : List (Option ArrayOp × List Double) → Nat → State → List ArrayOp × State
  | [], _, s => ([], s)
  | (old, ds) :: es, before, s =>
    match runEntry old ds before s with
    | (none, s) => runEntries es before s
    | (some o, s) =>
      let (os, s) := runEntries es (o.left before).2 s
      (o :: os, s)

/-! ## The parts of the area (R433), each as it reads and as it is written -/

/-- A part of the area: the first and the last offset, what a double of it reads, and what its doubles make of the acting team and
its core. -/
structure AreaPart where
  lo : Nat
  hi : Nat
  read : State → Nat → Double
  write : (Nat → Double) → State → State

/-- The trap that a frozen team stands at. -/
def Team.frozenAt (t : Team) : Option TrapSt := t.trap.filter (·.frozen)

/-- The trap of a frozen acting team changed. -/
def onTrap (f : TrapSt → TrapSt) (s : State) : State := s.onTeam fun t => { t with trap := t.trap.map f }

/-- Header, BPC, T and SLR: a boundary save has every lead 0 (R417, R420, R435). The format is put by what saves. -/
def readPositions (s : State) (o : Nat) : Double :=
  let t := s.team
  match t.frozenAt, o with
  | some x, 0 => dbl ((arrayOps s).length * 2 ^ 27 + t.slack.length * 2 ^ 20 + (if x.dly then 2 ^ 19 else 0) +
      srsOf x.pmask * 2 ^ 16 + x.pmask.toNat * 2 ^ 8)
  | some x, 8 => dbl x.bpc
  | some x, 16 => if x.dly then dbl x.target else 0
  | some x, 24 => x.slr
  | none, 8 => dbl t.nextBpc
  | _, _ => 0

/-- Where each slot goes on, from pmask and SLR (R425); dispatch goes on where it stood (log entry 33). -/
def Team.placeSlots (t : Team) (q : Nat) (pm : BitVec 8) (slr : Double) : Team :=
  { t with pass := Vector.ofFn fun j : Fin 8 =>
      if j.val = 0 then t.passed .ct
      else min (t.passed .ct) (if pm.getLsbD j.val then q + 1 + field slr (4 * j.val + 3) (4 * j.val) else q) }

@[inherit_doc readPositions] def writePositions (f : Nat → Double) (s : State) : State :=
  let bpc := (f 8).toNat
  match s.team.frozenAt with
  | some x =>
    let pm := BitVec.ofNat 8 (field (f 0) 15 8)
    let slr := f 24 &&& 0xffffffff
    let s := s.onTeam fun t => t.placeSlots x.q pm slr
    onTrap (fun x => { x with pmask := pm, slr := slr, dly := (f 0).getLsbD 19, target := (f 16).toNat, bpc := bpc }) s
  | none => s.onTeam fun t => if t.nextBpc = bpc then t else { t with pc := bpc, loop := none }

/-- The loop state at q (R417, R433). -/
def Team.loopNow (t : Team) : Option LoopSt :=
  match t.frozenAt with
  | some x => x.loop
  | none => t.loop

/-- The MX operation of the pass stands before the position of a loop's state: a REPT's pass has issued it (R93, R433). -/
def LoopSt.mxBehind (l : LoopSt) : Nat := if (l.body.take l.idx).any fun b => nth b.2.words 4 0 ≠ 0 then 1 else 0

/-- Its two doubles: of a REPT the MX issues that remain from q on; of a LOOP the passes are those of LCNT (R181). -/
def readLoop (s : State) (o : Nat) : Double :=
  match s.team.loopNow with
  | none => 0
  | some l =>
    if o = 0x28 then dbl (2 ^ 63 + (if l.rept then 2 ^ 62 + (l.left - l.mxBehind) % 2 ^ 32 else 0) + (l.body.length - 1) % 16 * 2 ^ 58)
    else dbl l.start

/-- The loop state that two doubles give. -/
def loopOf (cur : Nat × Bundle) (old : Option LoopSt) (x : Double) (start lcnt : Nat) : Option LoopSt :=
  if !x.getLsbD 63 then none
  else
    let l := old.getD { rept := false, start := start, body := [], after := 0, left := lcnt, idx := 0, pos0 := 0, count := lcnt }
    let n := field x 61 58 + 1
    some { l with rept := x.getLsbD 62, start := start, left := if x.getLsbD 62 then field x 31 0 + l.mxBehind else l.left,
                  body := (l.body ++ List.replicate 16 cur).take n }

@[inherit_doc readLoop] def writeLoop (f : Nat → Double) (s : State) : State :=
  let t := s.team
  let l := loopOf (t.pc, t.cur) t.loopNow (f 0x28) (f 0x30).toNat t.lcnt.toNat
  if t.frozenAt.isSome then onTrap (fun x => { x with loop := l }) s else s.onTeam fun t => { t with loop := l }

/-- The reply slot lies in memory alone (R437). -/
def areaKey (t : Team) (o : Nat) : Nat := t.saveArea % 2 ^ 46 + o

@[inherit_doc areaKey] def writeReplySlot (f : Nat → Double) (s : State) : State :=
  let bs := (doublesAt f 0x40 8).flatMap fun d => natBytes 8 d.toNat
  { s with mem := s.mem.setBytes (areaKey s.team 0x40) bs }

/-- A register file from the doubles at an offset. -/
def fileAt (n : Nat) (f : Nat → Double) (o : Nat) : Vector Double n := Vector.ofFn fun i => f (o + 8 * i.val)

/-- The eight p registers as bytes of one double. -/
def readPreds (t : Team) : Double :=
  dbl ((List.range 8).foldl (fun n i => n + (if vget t.p i false then 2 ^ (8 * i) else 0)) 0)

/-- A slack or array entry's double. -/
def entryDouble (base : Nat) (es : List (List Double)) (o : Nat) : Double := nth (nth es ((o - base) / 288) []) ((o - base) % 288 / 8) 0

@[inherit_doc slackLanding] def writeSlack (f : Nat → Double) (s : State) : State :=
  s.onTeam fun t =>
    let old := t.slack
    let new := (List.range (min 64 (field (f 0) 26 20))).filterMap fun i =>
      slackLanding old[i]? t.oldest (doublesAt f (0x4800 + 288 * i) 36)
    { t with flight := (t.flight.filter fun l => l.write.coded.isNone) ++ new }

@[inherit_doc runEntry] def writeArrays (f : Nat → Double) (s : State) : State :=
  let old := arrayOps s
  let es := (List.range (min 64 (field (f 0) 33 27))).map fun i => (old[i]?, doublesAt f (0x9000 + 288 * i) 36)
  let (os, s) := runEntries es 0 s
  let mine := s.team.ref
  let mx := os.filterMap fun
    | .mx o => some o
    | _ => none
  let rx := os.filterMap fun
    | .rx o => some o
    | _ => none
  let fixed := os.filterMap fun
    | .fixed o => some o
    | _ => none
  s.onCore fun c => { c with mxq := c.mxq.filter (fun o => o.team ≠ mine) ++ mx,
                             rxq := c.rxq.filter (fun o => o.team ≠ mine) ++ rerunRx c.tri rx,
                             fixed := c.fixed.filter (fun o => o.team ≠ mine) ++ fixed }

/-! ### tri (R554) -/

/-- A double of row i. -/
def readTri (s : State) (o : Nat) : Double :=
  let t := s.core.tri
  let i := (o - 0xe000) / 256
  let r := t.row i
  match (o - 0xe000) % 256 / 8 with
  | 16 => BitVec.ofInt 64 r.y
  | 17 => dbl (r.g % 256)
  | 18 => (match t.record with
    | some rs =>
      let x := nth rs i (0, false)
      dbl (2 ^ 63 + (if x.2 then 2 ^ 32 else 0) + x.1.toNat)
    | none => 0)
  | 19 => if i = 0 ∧ t.range then 1 else 0
  | j => if j < 16 ∧ i ≤ j then BitVec.ofInt 64 (nth r.r j 0) else 0

/-- The q38 value in bits 39:0. -/
def q38Of (x : Double) : Int := (x.setWidth 40).toInt

/-- tri put: the updates in flight act on what it then holds (R275, R423, R556). -/
def writeTri (f : Nat → Double) (s : State) : State :=
  let row := fun i => 0xe000 + 256 * i
  let rows := (List.range 16).map fun i =>
    ({ r := (List.range 16).map fun j => if j < i then 0 else q38Of (f (row i + 8 * j)), y := q38Of (f (row i + 128)),
       g := field (f (row i + 136)) 7 0 } : TriRow)
  let rec_ := (List.range 16).map fun i => ((f (row i + 144)).setWidth 32, (f (row i + 144)).getLsbD 32)
  let tri : Tri := { rows := rows, record := if (f (row 0 + 144)).getLsbD 63 then some rec_ else none,
                     range := (f (row 0 + 152)).getLsbD 0 }
  s.onCore fun c => { c with tri := tri, rxq := rerunRx tri c.rxq }

/-! ### Shoals and the sweep position (R313, R335, R555) -/

/-- A double of the image of h. -/
def readShoalImage (s : State) (o : Nat) : Double :=
  match vget s.core.shoals ((o - 0xf000) / 32) none with
  | none => 0
  | some h => match (o - 0xf000) % 32 / 8 with
    | 0 => h.cfg
    | 1 => dbl (h.plane + h.edge.toNat * 2 ^ 32)
    | 2 => dbl h.code
    | _ => dbl (2 ^ 63 + if h.invalid then 2 ^ 62 else 0)

/-- The binding that an image gives: a reserved value leaves it invalid (R518, R556). -/
def shoalImage (old : Option Shoal) (ds : List Double) : Option Shoal :=
  let h := nth ds 3 0
  if !h.getLsbD 63 then none
  else
    let x := shoalOf (ds.flatMap fun d => natBytes 8 d.toNat) ((old.map (·.desc)).getD 0)
    some { x with invalid := x.invalid || h.getLsbD 62 }

@[inherit_doc shoalImage] def writeShoals (f : Nat → Double) (s : State) : State :=
  s.onCore fun c =>
    { c with shoals := Vector.ofFn fun i : Fin 4 => shoalImage (c.shoals[i]) (doublesAt f (0xf000 + 32 * i.val) 4) }

/-- The sweep position. -/
def readSweep (s : State) (o : Nat) : Double :=
  let w := s.core.sweep
  if w.phase = .idle then 0
  else if o = 0xf080 then
    dbl (2 ^ 63 + (if w.quiet then 2 ^ 62 else 0) + w.cr.toNat * 2 ^ 50 + w.h % 4 * 2 ^ 48 + w.chunk % 2 ^ 16 * 2 ^ 16 + w.left % 256)
  else if o = 0xf088 then dbl (w.dones % 2 ^ 17 * 2 ^ 34 + w.runs % 2 ^ 17)
  else if o = 0xf090 then dbl (w.ran % 256)
  else 0

/-- The sweep position put: one that is no longer present drops its instruction, and none starts one (log entry 33). -/
def writeSweep (f : Nat → Double) (s : State) : State :=
  let x := f 0xf080
  let w := s.core.sweep
  if w.phase = .idle then s
  else if !x.getLsbD 63 then
    s.onCore fun c => { c with sweep := Sweep.idle, copies := c.copies.filter fun y => some y.id ≠ w.op }
  else
    let w := { w with quiet := x.getLsbD 62, cr := BitVec.ofNat 6 (field x 55 50), h := field x 49 48, chunk := field x 31 16,
                      left := field x 7 0, dones := field (f 0xf088) 50 34, runs := field (f 0xf088) 16 0,
                      ran := field (f 0xf090) 7 0 }
    s.onCore fun c => { c with sweep := w }

/-! ### Rings (R555) -/

/-- The binding of ring k. -/
def readRing (s : State) (o : Nat) : Double :=
  if (o - 0xf100) % 32 ≠ 0 then 0
  else match vget s.core.rings ((o - 0xf100) / 32) none with
    | some r => dbl (2 ^ 63 + r.off)
    | none => 0

/-- A binding put: at a new offset the ring takes its layout from the descriptor there (R298, R299). -/
def ringImage (s : State) (old : Option RingBind) (x : Double) : Option RingBind :=
  let o := field x 20 0
  if !x.getLsbD 63 then none
  else if old.map (·.off) = some o then old
  else
    let b := doubleAt (ownLm s o 8) 0
    some { off := o, cnt := field b 43 32, lsz := field b 27 24, base := field b 20 0 }

@[inherit_doc ringImage] def writeRings (f : Nat → Double) (s : State) : State :=
  s.onCore fun c => { c with rings := Vector.ofFn fun i : Fin 8 => ringImage s (c.rings[i]) (f (0xf100 + 32 * i.val)) }

/-! ### The latch, the tags, the context code and the accumulator (R260, R261, R270, R333) -/

/-- The B latch's shape and the tile tags; their layout is the model's (DESIGN CHOICE, log entry 33). -/
def readShape (s : State) (o : Nat) : Double :=
  if o = 0xf200 then (match s.core.latch with
    | some l => dbl (2 ^ 63 + l.n * 2 ^ 16 + l.fmt)
    | none => 0)
  else if o = 0xf208 then dbl ((List.range 8).foldl (fun n i => n + (if vget s.core.tags i false then 2 ^ i else 0)) 0)
  else 0

/-- A latch of another shape: its columns are those that were there, and empty ones. -/
def shapeLatch (old : Option BLatch) (x : Double) : Option BLatch :=
  if !x.getLsbD 63 then none
  else
    let n := min 1008 (field x 27 16)
    let cols := (old.map (·.cols)).getD []
    some { fmt := field x 3 0, n := n,
           cols := (cols ++ List.replicate (n - cols.length) (List.replicate (mxRb (field x 3 0)) 0, [])).take n }

@[inherit_doc shapeLatch] def writeShape (f : Nat → Double) (s : State) : State :=
  s.onCore fun c => { c with latch := shapeLatch c.latch (f 0xf200), tags := Vector.ofFn fun i : Fin 8 => (f 0xf208).getLsbD i.val }

/-- A column of the latch takes 64 bytes; the exponents of its blocks stay with the hub (log entry 33). -/
def readCols (s : State) (o : Nat) : Double :=
  doubleAt (nth ((s.core.latch.map (·.cols)).getD []) ((o - 0x10000) / 64) ([], [])).1 ((o - 0x10000) % 64)

@[inherit_doc readCols] def writeCols (f : Nat → Double) (s : State) : State :=
  let put := fun l : BLatch => { l with cols := (List.zip (List.range l.cols.length) l.cols).map fun (j, c) =>
    (((doublesAt f (0x10000 + 64 * j) 8).flatMap fun d => natBytes 8 d.toNat).take c.1.length, c.2) }
  s.onCore fun c => { c with latch := c.latch.map put }

/-- Two words of the context-code store. -/
def readCodeImage (s : State) (o : Nat) : Double :=
  let i := (o - 0x20000) / 4
  dbl ((s.core.codeWord i).toNat + (s.core.codeWord (i + 1)).toNat * 2 ^ 32)

@[inherit_doc readCodeImage] def writeCodeImage (f : Nat → Double) (s : State) : State :=
  s.onCore fun c =>
    { c with code := (List.range 4096).foldl (fun m i => SMap.insert m i (wordAt f (0x20000 + 4 * i))) [], codeEpoch := 0 }

/-- Two words of the accumulator memory, z0 upward. -/
def readAcc (s : State) (o : Nat) : Double :=
  let i := (o - 0x40000) / 4
  let r := s.core.acc.row (i / 16384) (i % 16384 / 128)
  dbl ((nth r (i % 128) 0).toNat + (nth r (i % 128 + 1) 0).toNat * 2 ^ 32)

/-- The first tiles of the accumulator memory put. -/
def writeTiles (tiles : Nat) (f : Nat → Double) (s : State) : State :=
  let row := fun r => (List.range 128).map fun j => wordAt f (0x40000 + 512 * r + 4 * j)
  let put := fun rows => (List.range (128 * tiles)).foldl (fun m r => SMap.insert m r (row r)) rows
  s.onCore fun c => { c with acc := { c.acc with rows := put c.acc.rows } }

/-! ## The area as a whole -/

/-- The parts that hold the team's state. -/
def teamParts : List AreaPart :=
  [{ lo := 0, hi := 0x20, read := readPositions, write := writePositions },
   { lo := 0x20, hi := 0x28, read := fun s _ => s.team.tsw,
     write := fun f s => s.onTeam fun t => { t with tsw := f 0x20 &&& 0xffff0000f107 } },
   { lo := 0x28, hi := 0x38, read := readLoop, write := writeLoop },
   { lo := 0x38, hi := 0x40, read := fun s _ => s.team.lcnt.setWidth 64,
     write := fun f s => s.onTeam fun t => { t with lcnt := (f 0x38).setWidth 32 } },
   { lo := 0x40, hi := 0x80, read := fun s o => s.mem.double (areaKey s.team o),
     write := writeReplySlot },
   { lo := 0x80, hi := 0xa0, read := fun s o => vget s.team.yls ((o - 0x80) / 8) 0,
     write := fun f s => s.onTeam fun t => { t with yls := fileAt 4 f 0x80 } },
   { lo := 0xa0, hi := 0xc0, read := fun s o => vget s.team.nsm ((o - 0xa0) / 8) 0,
     write := fun f s => s.onTeam fun t => { t with nsm := fileAt 4 f 0xa0 } },
   { lo := 0x100, hi := 0x300, read := fun s o => vget s.team.s ((o - 0x100) / 8) 0,
     write := fun f s => s.onTeam fun t => { t with s := vput (fileAt 64 f 0x100) 0 0 } },
   { lo := 0x300, hi := 0x380, read := fun s o => vget s.team.a ((o - 0x300) / 8) 0,
     write := fun f s => s.onTeam fun t => { t with a := fileAt 16 f 0x300 } },
   { lo := 0x380, hi := 0x400, read := fun s o => vget s.team.d ((o - 0x380) / 8) 0,
     write := fun f s => s.onTeam fun t => { t with d := fileAt 16 f 0x380 } },
   { lo := 0x400, hi := 0x408, read := fun s _ => readPreds s.team,
     write := fun f s => s.onTeam fun t => { t with p := Vector.ofFn fun i : Fin 8 => (f 0x400).getLsbD (8 * i.val) } },
   { lo := 0x408, hi := 0x448, read := fun s o => vget s.team.m ((o - 0x408) / 8) 0,
     write := fun f s => s.onTeam fun t => { t with m := fileAt 8 f 0x408 } },
   { lo := 0x800, hi := 0x4800,
     read := fun s o => nth (vDoubles (vget s.team.v ((o - 0x800) / 256) VReg.zero)) ((o - 0x800) % 256 / 8) 0,
     write := fun f s => s.onTeam fun t => { t with v := Vector.ofFn fun i : Fin 64 => vOf (doublesAt f (0x800 + 256 * i.val) 32) } },
   { lo := 0x4800, hi := 0x9000, read := fun s o => entryDouble 0x4800 (s.team.slack.map slackEntry) o, write := writeSlack },
   { lo := 0x9000, hi := 0xd800, read := fun s o => entryDouble 0x9000 (arrayEntries 0 (arrayOps s)) o, write := writeArrays }]

/-- The parts that hold the owner state. -/
def ownerParts : List AreaPart :=
  [{ lo := 0xe000, hi := 0xf000, read := readTri, write := writeTri },
   { lo := 0xf000, hi := 0xf080, read := readShoalImage, write := writeShoals },
   { lo := 0xf080, hi := 0xf100, read := readSweep, write := writeSweep },
   { lo := 0xf100, hi := 0xf200, read := readRing, write := writeRings },
   { lo := 0xf200, hi := 0xf240, read := readShape, write := writeShape },
   { lo := 0x10000, hi := 0x1fc00, read := readCols, write := writeCols },
   { lo := 0x20000, hi := 0x24000, read := readCodeImage, write := writeCodeImage },
   { lo := 0x40000, hi := 0xc0000, read := readAcc, write := writeTiles 8 }]

/-- The parts of an area for a team that owns its core's engines, or does not (R431). -/
def areaParts (own : Bool) : List AreaPart := if own then teamParts ++ ownerParts else teamParts

/-- A double of the area of the acting team; an offset that no part holds reads 0. -/
def areaDouble (s : State) (o : Nat) : Double :=
  match (areaParts (s.team.tid.getLsbD 14)).find? fun p => decide (p.lo ≤ o) && decide (o < p.hi) with
  | some p => p.read s o
  | none => 0

/-- The acting team and its core take what parts of the area hold: those that are named. -/
def takeArea (named : AreaPart → Bool) (f : Nat → Double) (s : State) : State :=
  ((areaParts (s.team.tid.getLsbD 14)).filter named).foldl (fun s p => p.write f s) s

/-! ## The team-state window (R431, R556) -/

/-- Writes through the window, as offsets and values one after another. -/
def windowWrites : List Double → List (Nat × Double)
  | o :: x :: rest => (o.toNat / 8 * 8, x) :: windowWrites rest
  | _ => []

/-- A supervisor's writes through the window of the frozen acting team (R431): a part takes those that fall in it, with the entry
counts of the header for the entries; the format is not written. -/
def writeWindow (ws : List (Nat × Double)) (s : State) : State :=
  let f := fun o => ((ws.reverse.find? fun w => w.1 = o).map (·.2)).getD (areaDouble s o)
  let hit := fun lo hi => ws.any fun w => decide (lo ≤ w.1) && decide (w.1 < hi)
  takeArea (fun p => hit p.lo p.hi || ((p.lo = 0x4800 || p.lo = 0x9000) && hit 0 8)) f s

/-- Window accesses to the shoals and the sweep position wait for the pause of the sweep (R556). -/
def windowWaits (ws : List (Nat × Double)) (s : State) : Bool :=
  s.team.tid.getLsbD 14 && (ws.any fun w => decide (0xf000 ≤ w.1) && decide (w.1 < 0xf100)) &&
    s.core.sweep.phase ≠ .idle && !s.core.sweep.isPaused

/-! ## Saves and restores (R433, R434, R553) -/

/-- A part is one of those that a format saves (R434): a yield save has no entries, and a node save the positions and the s and a
registers. -/
def AreaPart.savedIn (format : Nat) (p : AreaPart) : Bool :=
  p.lo ≠ 0x40 && (match format with
    | 3 => true
    | 1 => p.lo ≠ 0x4800 && p.lo ≠ 0x9000
    | 2 => decide (p.lo = 0) || decide (p.lo = 0x100) || decide (p.lo = 0x300)
    | _ => false)

/-- Where a part ends that is as long as what it holds: entries, latch columns and tiles. -/
def AreaPart.endIn (s : State) (tiles : Nat) (p : AreaPart) : Nat :=
  if p.lo = 0x4800 then 0x4800 + 288 * s.team.slack.length
  else if p.lo = 0x9000 then 0x9000 + 288 * (arrayOps s).length
  else if p.lo = 0x10000 then 0x10000 + 64 * ((s.core.latch.map (·.n)).getD 0)
  else if p.lo = 0x40000 then 0x40000 + 0x10000 * tiles
  else p.hi

/-- The bytes of the acting team's save area as a format leaves them, the LM grant with it (R434): what the format does not save
stays as memory held it. -/
def writeArea (format tiles : Nat) (s : State) : Memory :=
  let t := s.team
  let ps := (areaParts (t.tid.getLsbD 14)).filter (·.savedIn format)
  let m := ps.foldl (fun m p => (List.range ((p.endIn s tiles - p.lo) / 8)).foldl (fun m i =>
    let o := p.lo + 8 * i
    m.setDouble (areaKey t o) (p.read s o + if o = 0 then dbl format else 0)) m) s.mem
  if format = 2 then m
  else (List.range (field t.lmg 21 12)).foldl (fun m i =>
    m.setBytes (areaKey t (0xc0000 + 4096 * i)) (lmBytes s t.ref.die t.ref.lcore ((field t.lmg 8 0 + i) * 4096) 4096)) m

/-- The LM grant of the acting team from its save area. -/
def restoreGrant (s : State) : State :=
  let t := s.team
  (List.range (field t.lmg 21 12)).foldl (fun s i =>
    { s with mem := setLm s t.ref.die t.ref.lcore ((field t.lmg 8 0 + i) * 4096) (s.mem.bytes (areaKey t (0xc0000 + 4096 * i)) 4096) }) s

/-- The acting team and its core take what a save area of a format holds (R435). -/
def readArea (format tiles : Nat) (s : State) : State :=
  let f := fun o => s.mem.double (areaKey s.team o)
  let s := takeArea (fun p => p.savedIn format && p.lo ≠ 0x40000) f s
  if s.team.tid.getLsbD 14 && format ≠ 2 then
    let s : State := { s with free := s.free + 1,
                              core := { s.core with acc := { epoch := s.free, rows := [] } } }
    writeTiles tiles f s
  else s

/-- What restore checks of a slack or an array entry (R553): the codes and the reserved fields of R424. -/
def entryGood (array : Bool) (f : Nat → Double) (o : Nat) : Bool :=
  let h := f o
  decide (field h 62 60 < 4) && decide (field h 59 56 < 8) && decide (field h 31 16 = 0) && (h.getLsbD 49 == array) &&
    (if array then decide (field h 59 56 = 0) else decide (field h 48 32 = 0))

/-- What restore checks of a save area before it writes anything (R553): a format of 1 to 3, entry counts of at most 64, codes
that R424 lists, and zero reserved fields in what the format saves. -/
def areaGood (own : Bool) (f : Nat → Double) : Bool :=
  let h := f 0
  let format := field h 3 0
  decide (1 ≤ format) && decide (format ≤ 3) && decide (field h 7 4 = 0) && decide (field h 63 34 = 0) &&
    decide (field h 26 20 ≤ 64) && decide (field h 33 27 ≤ 64) &&
    (format = 2 || (decide (field (f 0x28) 57 32 = 0) && f 0x20 &&& 0xffff0000ffff0ef8 = 0 &&
      (!own || ((List.range 16).all (fun i => (List.range 12).all (fun j => f (0xe000 + 256 * i + 160 + 8 * j) = 0) &&
          decide (field (f (0xe000 + 256 * i + 136)) 63 8 = 0) && decide (field (f (0xe000 + 256 * i + 144)) 62 33 = 0) &&
          decide (field (f (0xe000 + 256 * i + 152)) 63 (if i = 0 then 1 else 0) = 0)) &&
        (List.range 4).all (fun i => field (f (0xf000 + 32 * i + 24)) 61 0 = 0) &&
        decide (field (f 0xf080) 61 56 = 0) && decide (field (f 0xf080) 47 32 = 0) && decide (field (f 0xf080) 15 8 = 0) &&
        decide (field (f 0xf088) 63 51 = 0) && decide (field (f 0xf090) 63 8 = 0) &&
        (List.range 13).all (fun i => f (0xf098 + 8 * i) = 0) &&
        (List.range 8).all (fun i => field (f (0xf100 + 32 * i)) 62 21 = 0))))) &&
    (format ≠ 3 || ((List.range (field h 26 20)).all (fun i => entryGood false f (0x4800 + 288 * i)) &&
      (List.range (field h 33 27)).all (fun i => entryGood true f (0x9000 + 288 * i))))

end Sys2Proof.Machine
end

