-- ==== Sys2Proof/Machine/Save.lean ====
section
/-! DEFINITION. How a supervisor answers a trap or a call, and how clusters are saved and restored
(spec/15_traps_preemption.md R425 to R438, spec/14_launch_scheduling.md R401, spec/23_scheduler_recovery.md R552, R553,
spec/21_instruction_faults.md R503 to R506, spec/20_errors_framework.md R489). -/

namespace Sys2Proof.Machine

/-! ## Run budgets (R552) -/

/-- BUDGET_OVERRUN (R552): the core asks for a forced save of the team's cluster, or of its whole cooperative grid. -/
def execBudgetOverrun (s : State) : Host.Outcome State Fault Refusal :=
  let t := s.teamAt s.occ.team
  .next (match s.hub.clusters.find? fun c => c.id = t.cluster with
    | none => s
    | some c =>
      ((saveGroup s c).filter fun x => x.phase = .resident || x.phase = .saving).foldl (fun s x => askSave true x.id s) s)

/-! ## Answers to trap records (R431) -/

/-- A TRES write answers the acting team's outstanding trap record: the team is frozen and the numbers match; a forced
freeze has no record. -/
def answersTrap (t : Team) (seq : Nat) : Option TrapSt :=
  match t.trap with
  | some x => if t.resident && x.frozen && decide (x.cause ≠ 0) && decide (x.seq % 2 ^ 32 = seq % 2 ^ 32) then some x else none
  | none => none

/-- The acting team's record is answered: the words of `image` are the writes that the supervisor has made through the window before,
and what follows the answer finds them done (R431; log entry 33); while those that touch a running sweep wait for its pause, so
does the answer (R556). -/
def answered (i : Instr) (f : TrapSt → State → State) (s : State) : State :=
  let ws := windowWrites s.occ.image.words
  match answersTrap s.team s.occ.id with
  | none => s
  | some x =>
    if windowWaits ws s then s.after 1 i s.occ
    else f x (badWindows (if ws.isEmpty then s else writeWindow ws s))

/-- TRES_RESUME (R425, R431): after a fetch fault of a missing line the supervisor has loaded the line (R503), and a
notice of a demand fault resumes once every held request has passed its home check (R538). -/
def execTresResume (s : State) : Host.Outcome State Fault Refusal :=
  .next (answered .tresResume (fun x s =>
    if x.cause = 0x0001 then resume (refill (loadLine s x.addr))
    else if x.cause = 0x0022 then
      resumeNotice (s.onTeam fun t => { t with trap := t.trap.map (fun x => { x with answered := true }) })
    else resume (refill s)) (s.focus s.occ.team))

/-- TRES_SKIP (R431): of a fetch fault and of a demand fault it has no effect (R503, R538). -/
def execTresSkip (s : State) : Host.Outcome State Fault Refusal :=
  let s := s.focus s.occ.team
  .next (if (answersTrap s.team s.occ.id).any fun x => x.cause = 0x0001 || x.cause = 0x0002 || x.cause = 0x0022 then s
    else answered .tresSkip (fun _ s => resumeSkip (refill s)) s)

/-- TRES_END (R431, R489): the trapping team's cluster ends, and with a cooperative grid every cluster of it; the packet
retires with status 5. -/
def execTresEnd (s : State) : Host.Outcome State Fault Refusal :=
  let t := s.teamAt s.occ.team
  .next (match answersTrap t s.occ.id, s.hub.clusters.find? fun c => c.id = t.cluster with
    | some _, some c =>
      (match s.hub.launches.find? fun l => l.id = c.launch with
      | some l => endClusters l (if pktCoop l.packet then l.clusters else [c.id]) 5 s
      | none => s)
    | _, _ => s)

/-! ## Replies to service calls (R436 to R438) -/

/-- The core accepts the reply in the reply slot of a team when it answers the call that the team waits on: s1 and s2 are loaded,
valid is cleared and the team is unparked (R202, R438). One that does not match has no effect. -/
def acceptReply (r : TeamRef) (s : State) : State :=
  let t := s.teamAt r
  let tag := s.mem.double (areaKey t 0x40)
  if t.resident ∧ t.park = .svc ∧ tag = setField (dbl (2 ^ 63)) 47 32 (t.callSeq.getD 0) ∧ s.mem.double (areaKey t 0x48) = t.tid then
    let x := s.mem.double (areaKey t 0x50)
    let y := s.mem.double (areaKey t 0x58)
    let s := s.modTeam r fun t => { t with s := vput (vput t.s 1 x) 2 y, park := .none, callSeq := none }
    { s with mem := s.mem.setDouble (areaKey t 0x40) (setField tag 63 63 0) }
  else s

/-- SVDONE (R438): `id` is the IPA of the save area whose reply slot the supervisor has written; words of `image`, when there are
any, are what it has written there: tag, tid, s1 and s2. -/
def execSvdone (s : State) : Host.Outcome State Fault Refusal :=
  let id := s.occ.id
  let bs := s.occ.image.words.flatMap fun d => natBytes 8 d.toNat
  let s : State := if (usedAreas s).contains id then { s with mem := s.mem.setBytes (id % 2 ^ 46 + 0x40) (bs.take 64) } else s
  let rs := (s.allTeams.filter fun t => t.resident && t.saveArea = id).map (·.ref)
  let s := s.onHub fun h => { h with saved := modWhere (fun x => x.team.saveArea = id) (fun x => { x with reply := true }) h.saved }
  .next (rs.foldl (fun s r => acceptReply r s) s)

/-! ## Saving a cluster (R61, R434, R435) -/

/-- The sweep position that a save records (R340): a chunk whose run has not committed runs again from its load. -/
def Sweep.position (w : Sweep) : Sweep :=
  { w with phase := if w.phase = .idle then .idle else .boundary, elems := [], runners := [], loaded := [],
           serial := false, acc := 0, wakes := [], lanes := [] }

/-- The owner state of a core (R434, R435), with the sweep operations and the MX and RX operations of one team in flight. -/
def Core.ownerImage (c : Core) (r : TeamRef) : Core :=
  { Core.reset c.die c.pcore with
    acc := c.acc, tags := c.tags, latch := c.latch, latchOpen := c.latchOpen,
    mxq := c.mxq.filter (fun x => x.team = r), pins := c.pins, tri := c.tri, rxq := c.rxq.filter (fun x => x.team = r),
    fixed := c.fixed.filter (fun x => x.team = r),
    rings := c.rings, fills := c.fills, shoals := c.shoals, code := c.code, codeEpoch := c.codeEpoch,
    sweep := c.sweep.position, rxBusy := c.rxBusy, rxTeam := c.rxTeam,
    copies := (c.copies.filter fun x => x.team = r && x.kind.isSweep).map fun x => { x with sent := false } }

/-- A team of a cluster that has ended, which has no state to save. -/
def Cluster.isOver (c : Cluster) (r : TeamRef) : Bool := c.ended.contains r

/-- The format of a team's save (R434), 0 for a team that has ended. -/
def saveFormat (c : Cluster) (t : Team) : Nat :=
  if c.isOver t.ref then 0 else if c.forced then 3 else if t.atNode then 2 else 1

/-- The tiles that a save of a cluster's teams keeps (R395). -/
def savedTiles (s : State) (c : Cluster) : Nat :=
  ((s.hub.launches.find? fun l => l.id = c.launch).map fun l => pktAm l.packet).getD 8

/-- A team is saved: its save area is written, and the hub keeps what the area does not hold (R433, R434). -/
def saveTeam (c : Cluster) (s : State) (r : TeamRef) : State :=
  let s := s.focus r
  let f := saveFormat c s.team
  let own := s.team.tid.getLsbD 14 && (decide (f = 1) || decide (f = 3))
  let x : Saved := { team := s.team, format := f, owner := if own then some (s.core.ownerImage r) else none, reply := false }
  let s := if own then s.onCore fun k => { k with sweep := k.sweep.position } else s
  let s := if f = 0 then s else { s with mem := writeArea f (savedTiles s c) s }
  s.onHub fun h => { h with saved := h.saved ++ [x] }

/-- A saved team leaves its core: its slot and its grant are free, and the core's dirty lines reach the L2. -/
def leaveCore (r : TeamRef) (s : State) : State :=
  let t := s.teamAt r
  let p := s.coreOf r
  let s := flushL1 none r.die p (fun _ => true) s
  let s := s.modCore r.die p fun c => c.dropTeam r (t.tid.getLsbD 14)
  let s := clearGrant r.die r.lcore t.lmg false s
  s.modTeam r fun _ => Team.reset r

/-- A saved cluster gives its staging share up, to ask for as many steps when it comes back (DESIGN CHOICE, log entry 20). -/
def Die.parkShare (d : Die) (cluster : Nat) : Die :=
  let st := fun x : Stage => { x with parked := x.epochs.length, epochs := [] }
  { d with staging := modWhere (fun x => x.cluster = cluster) st d.staging }

/-- A cluster is saved as a whole (R61). -/
def saveCluster (s : State) (c : Cluster) : State :=
  let s := c.teams.foldl (saveTeam c) s
  let s := c.teams.foldl (fun s r => leaveCore r s) s
  let s := s.modDie c.die fun d => d.parkShare c.id
  let done := fun x : Cluster => { x with phase := .saved, forced := false }
  s.onHub fun h => { h with clusters := modWhere (fun x => x.id = c.id) done h.clusters }

/-- BOUNDARY_SAVE (R61, R435): with the clusters of its cooperative grid (R54). -/
def execBoundarySave (s : State) : Host.Outcome State Fault Refusal :=
  .next (match s.hub.clusters.find? fun c => c.id = s.occ.id with
    | none => s
    | some c => if saveReady s c then schedule ((saveGroup s c).foldl saveCluster s) else s)

/-! ## Restoring a cluster (R425, R435, R553) -/

/-- What restore checks of a team's save area (R553); a team that has ended has none. -/
def areaPasses (s : State) (c : Cluster) (x : Saved) : Bool :=
  c.isOver x.team.ref || areaGood (x.team.tid.getLsbD 14) fun o => s.mem.double (areaKey x.team o)

/-- A restored team goes on where its save took it, at every slot's own position, its count of budget at 0 and its slice
whole (R410, R425, R552); it has no core to hand over. -/
def Team.restored (t : Team) (slice : Nat) : Team :=
  { t with stopAsked := false, forcedAsked := false, counted := 0, slice := slice, miss := 0, handover := false,
           park := (match t.park with | .boundary => .none | p => p) }

/-- An owner's state returns to the team's core, whose ebb gives way (R434, R450). -/
def Core.restoreOwner (c o : Core) : Core :=
  { c with acc := o.acc, tags := o.tags, latch := o.latch, latchOpen := o.latchOpen, mxq := c.mxq ++ o.mxq,
           pins := o.pins, tri := o.tri, rxq := o.rxq, fixed := o.fixed, rings := o.rings, fills := o.fills, shoals := o.shoals, code := o.code,
           codeEpoch := o.codeEpoch, sweep := o.sweep, rxBusy := o.rxBusy, rxTeam := o.rxTeam,
           copies := c.copies ++ o.copies, ebb := 0 }

/-- A team that was saved by force with its core's issue stays frozen until it has it again; another resumes at once (R425). -/
def resumeParked (s : State) : State :=
  if s.team.trap.isSome && !(decide (s.team.park = .none) || decide (s.team.park = .w)) then resume (refill s) else s

/-- A saved team is put back in its slot, with what its save area holds. The dirty lines of the core's L1D reach the L2, and the L1D
is left empty. -/
def putBack (c : Cluster) (s : State) (x : Saved) : State :=
  let r := x.team.ref
  let s := s.focus r
  let s : State := { s with team := x.team.restored (fullSlice s x.team) }
  let s := clearGrant r.die r.lcore x.team.lmg (decide (x.format = 2)) s
  let s := (flushL1 none r.die (s.coreOf r) (fun _ => true) s).onCore fun c => { c with l1d := [] }
  let s := match x.owner with
    | some o => s.onCore fun c => c.restoreOwner o
    | none => if x.format = 2 && x.team.tid.getLsbD 14 then (freeOwner s).onCore fun c => { c with ebb := 0 } else s
  if x.format = 0 then s
  else
    let s := if x.format = 2 then s else restoreGrant s
    let s := resumeParked (readArea x.format (savedTiles s c) s)
    badWindows (if x.reply then acceptReply r s else s)

/-- A cluster whose places are free goes back to them (R61), and asks for the staging steps that it gave up. -/
def restoreCluster (s : State) (c : Cluster) : State :=
  let xs := s.hub.saved.filter fun x => x.team.cluster = c.id
  let s := s.onHub fun h =>
    { h with saved := h.saved.filter (fun x => !(x.team.cluster = c.id)),
             clusters := modWhere (fun x => x.id = c.id) (fun x => { x with phase := .resident, waking := false }) h.clusters }
  let st := (s.dieAt c.die).stage c.id
  let before := (s.dieAt c.die).stagedSteps
  let s := if st.parked = 0 then s
    else drainSteps ((c.teams.head?).getD s.team.ref) c.die before
      (setShare c.die c.id st.req (grantedSteps (s.dieAt c.die) c.id st.parked) s)
  xs.foldl (putBack c) s

/-- A save area has a poisoned line, which its restore would consume (R491). -/
def areaPoisoned (s : State) (x : Saved) : Bool :=
  s.hub.poisoned.any fun l => decide (x.team.saveArea ≤ l) && decide (l < x.team.saveArea + 2883584)

/-- CLUSTER_RESTORE (R553), with the clusters of its cooperative grid (R54): a save area that fails its check ends the packet's
clusters with status 5, and one with a poisoned line kills its tenant (R491). -/
def execClusterRestore (s : State) : Host.Outcome State Fault Refusal :=
  .next (match s.hub.clusters.find? fun c => c.id = s.occ.id with
    | none => s
    | some c =>
      match restoreGroup s c with
      | [] => s
      | g =>
        let xs := g.flatMap fun c => s.hub.saved.filter fun x => x.team.cluster = c.id && !c.isOver x.team.ref
        match (xs.find? (areaPoisoned s)).map (·.team) with
        | some t => schedule (killPacket t.tenant (errSrc (some t.tenant) 3 5 0xff 0 0x0105) t.saveArea 0
            (((s.hub.launchOf t.cluster).map (·.pkt)).getD noPkt) s)
        | none =>
        if g.all fun c => (s.hub.saved.filter fun x => x.team.cluster = c.id).all (areaPasses s c) then g.foldl restoreCluster s
        else match s.hub.launches.find? fun l => l.id = c.launch with
          | some l => endClusters l l.clusters 5 s
          | none => s)

end Sys2Proof.Machine
end

