-- ==== Sys2Proof/Machine/Power.lean ====
section
/-! DEFINITION. Power and heat: re-grants and floors, cove gating and the in-rush arbiter, sensors, migration of a core's
teams, and the failure of a cove (spec/16_power_clocks.md R443 to R452, spec/15_traps_preemption.md R439, R440,
spec/24_power_link_faults.md R563 to R572, spec/20_errors_framework.md R495, spec/22_memory_engine_faults.md R541). -/

namespace Sys2Proof.Machine

/-! ## The capability list's entry of a compute die (R31, R32) -/

/-- A change of the capability list: the root counts it once (R31). -/
def Hub.listChanged (h : Hub) : Hub := { h with lgen := (h.lgen + 1) % 2 ^ 32 }

/-- Physical cores of a die that no logical core uses and that lie in no failed cove (R31). -/
def Die.freeCores (d : Die) : List Nat :=
  (List.range 72).filter fun p => (d.logical p).isNone && !(d.cove (coveOf p)).failed

/-- The entry of a die is rewritten from its remap table and its coves: gen goes through an odd value to the next even
one (R32). -/
def updateDieEntry (d : Nat) (s : State) : State :=
  let x := s.dieAt d
  let failed : BitVec 9 := BitVec.ofNat 9 ((List.range 9).foldl (fun n v => if (x.cove v).failed then n + 2 ^ v else n) 0)
  let e := vget s.hub.dieEntries d { gen := 0, profile := 2, free := 8, failed := 0 }
  let e := { e with gen := (e.gen + 2) % 2 ^ 32, free := x.freeCores.length, failed := failed }
  s.onHub fun h => ({ h with dieEntries := vput h.dieEntries d e }).listChanged

/-! ## Sensors and floors (R445, R451) -/

/-- The number of a physical core among the package's (R445). -/
def coreNumber (d p : Nat) : Nat := 72 * d + p

/-- TSENSc: at reset hyst 5, thr 95 and the first reading (R451). -/
def tsensOf (h : Hub) (c : Nat) : Double :=
  (SMap.get? h.tsens c).getD (dbl (5 * 2 ^ 24 + 95 * 2 ^ 16 + (Config.reading 0 c).toNat))

/-- The reading, the threshold, and the temperature below which a sensor re-arms. -/
def sensorTemp (x : Double) : Nat := field x 7 0
@[inherit_doc sensorTemp] def sensorThr (x : Double) : Nat := field x 23 16
@[inherit_doc sensorTemp] def sensorCool (x : Double) : Bool := decide (field x 7 0 + field x 31 24 < field x 23 16)

/-- CLKFLRc put, which the core's next S bundle looks at (R445). -/
def setFloors (d p : Nat) (x : Double) (s : State) : State :=
  let s := s.onHub fun h => { h with clkflr := SMap.insert h.clkflr (coreNumber d p) x }
  s.modCore d p fun c => { c with floorChange := true }

/-- Each floor of a core raised by 1, up to 8 (R569). -/
def raiseFloors (d p : Nat) (s : State) : State :=
  let x := floorsOf s d p
  let up := fun x hi lo => setField x hi lo (min 8 (field x hi lo + 1))
  let c := coreNumber d p
  setFloors d p (up (up (up (up x 3 0) 7 4) 11 8) 15 12) (s.onHub fun h => { h with raised := c :: h.raised.filter (· ≠ c) })

/-- A core has cooled down (R569): the floors that its trip raised return to their reset values, and what its trip asked for is
not asked for any more (DEDUCED, log entry 40). -/
def coolDown (c : Nat) (s : State) : State :=
  let s := if s.hub.raised.contains c then setFloors (c / 72) (c % 72) 0x1211 s else s
  s.onHub fun h => { h with pendingTrips := h.pendingTrips.filter (· ≠ c), raised := h.raised.filter (· ≠ c) }

/-! ## Migrations start (R439, R452) -/

/-- The target of a migration (R452): of the unused cores whose reading is below thr − hyst the coolest, and of equals the
lowest-numbered. -/
def migrationTarget (s : State) (d : Nat) : Option Nat :=
  let x := s.dieAt d
  let temp := fun p => sensorTemp (tsensOf s.hub (coreNumber d p))
  let ok := x.freeCores.filter fun p => sensorCool (tsensOf s.hub (coreNumber d p)) && x.migrating.all fun m => m.2 ≠ p
  ok.foldl (fun (m : Option Nat) p => match m with
    | some q => if temp p < temp q then some p else some q
    | none => some p) none

/-- A resident team of the core has migrated within the last millisecond (R570). -/
def migratedLately (s : State) (d p : Nat) : Bool :=
  (s.residents d p).any fun r => ((s.teamAt r).lastMigration.map fun t => decide (s.now < t + 2400000)).getD false

/-- A migration starts: every resident team is asked to stop at its next boundary, and the target's cove is asked to wake (R448). -/
def startMigration (d p q : Nat) (s : State) : State :=
  let rs := s.residents d p
  let s := s.modDie d fun x => { x with migrating := x.migrating ++ [(p, q)] }
  let s := s.modTeams (fun t => rs.contains t.ref && t.park ≠ .ending) fun t => { t with stopAsked := true }
  s.next .coveWakeRequest { die := d, aux := coveOf q }

/-- The trip of a core waits for a target (R569). -/
def keepTrip (d p : Nat) (s : State) : State :=
  s.onHub fun h => { h with pendingTrips := h.pendingTrips.filter (· ≠ coreNumber d p) ++ [coreNumber d p] }

/-- A core is the target of a migration under way (R439, R570). -/
def targeted (s : State) (d p : Nat) : Bool := (s.dieAt d).migrating.any fun m => m.2 = p

/-- A team goes on at the end of a migration, unless its cluster is being saved. -/
def Team.goOn (saving : Bool) (t : Team) : Team :=
  let park := match t.park with
    | .boundary => Park.none
    | p => p
  if saving then t else { t with stopAsked := false, park := park, handover := false }

/-- The teams of a core go on at the end of a migration. -/
def goOnTeams (rs : List TeamRef) (s : State) : State :=
  let saving := fun t : Team => s.hub.clusters.any fun c => c.id = t.cluster && c.phase = .saving
  s.modTeams (fun t => rs.contains t.ref) fun t => t.goOn (saving t)

/-- A migration whose target has failed takes another, or waits for one (R568, R569). -/
def retarget (d : Nat) (s : State) (p : Nat) : State :=
  match migrationTarget s d with
  | some q => startMigration d p q s
  | none => keepTrip d p (goOnTeams (s.residents d p) s)

/-! ## Failed coves (R495, R541, R568, R572) -/

/-- A core whose power or whose die is lost keeps nothing but its control registers and its ebb. -/
def Core.lost (c : Core) : Core := { c.clearOwner with l1d := [], istore := [], copies := [], issuing := none }

/-- An LM without its bytes: what its next grant finds there is unspecified (R396). -/
def loseLm (d l : Nat) (s : State) : State := clearGrant d l (dbl (512 * 2 ^ 12)) false s

/-- The logical cores that a cove holds. -/
def Die.coveCores (d : Die) (v : Nat) : List (Nat × Nat) :=
  (List.range 64).filterMap fun l => match d.physical l with
    | some p => if coveOf p = v then some (l, p) else none
    | none => none

/-- The logical cores of a cove take other free cores of the die, in ascending order, as far as there are any (R17,
R495). -/
def remapCores (ls ps : List Nat) (d : Die) : Die :=
  { d with remap := (List.range ls.length).foldl (fun m i => vput m (nth ls i 0) (ps[i]?)) d.remap }

/-- The clusters that have been placed on a cove and whose teams have not been released. -/
def unreleased (s : State) (d v : Nat) : List Cluster :=
  s.hub.clusters.filter fun c => c.phase = .resident && c.die = d && (clusterCoves s c).contains v &&
    c.teams.all fun r => decide ((s.teamAt r).park = .start)

/-- A placed cluster that has not been released gives its places back and waits for others (R568), with the other clusters of a
cooperative grid, which are released together with it (R54). -/
def unplace (s : State) (c : Cluster) : State :=
  (saveGroup s c).foldl (fun s c =>
    let s := c.teams.foldl (fun s r => dropTeam r s) s
    let back := fun x : Cluster => { x with phase := .placed, teams := [] }
    s.onHub fun h => { h with clusters := modWhere (fun x => x.id = c.id) back h.clusters }) s

/-- The tenants whose state a cove holds: those with a resident team on it, or a dirty line in an L1D of it (R488). -/
def coveTenants (s : State) (d v : Nat) : List Nat :=
  dedup ((s.allTeams.filter fun t => t.resident && t.ref.die = d && coveOf (s.coreOf t.ref) = v).map (·.tenant) ++
    (s.allCores.filter fun c => c.die = d && coveOf c.pcore = v).flatMap fun c => (l1Dirty c).map (·.tenant))

/-- A cove fails (R495): the contexts with a team on it are killed, and its logical cores are remapped. Placements that
still wait for it look for others (R568). -/
def failCove (d v : Nat) (s : State) : State :=
  let s := (unreleased s d v).foldl unplace s
  let s := (coveTenants s d v).foldl (fun s t => endContext t s) s
  let ls := (s.dieAt d).coveCores v
  let s := ls.foldl (fun s x => loseLm d x.1 s) s
  let s := s.modCores (fun c => c.die = d && coveOf c.pcore = v) Core.lost
  let lost := ((s.dieAt d).migrating.filter fun m => coveOf m.2 = v && coveOf m.1 ≠ v).map (·.1)
  let bad := fun x : Die =>
    let dead := { Cove.reset with gated := true, failed := true, seq := (x.cove v).seq }
    let gone := x.migrating.filter fun m => coveOf m.1 ≠ v && coveOf m.2 ≠ v
    let x := { x with coves := vput x.coves v dead, migrating := gone }
    remapCores (ls.map (·.1)) (x.freeCores.filter fun p => gone.all fun m => m.2 ≠ p) x
  schedule (lost.foldl (retarget d) (updateDieEntry d (s.modDie d bad)))

/-- SVFAIL (R541): the record's detail is the cause of the oldest record in the cove's trap FIFO; with none there it is
open (log entry 3). -/
def execSvfail (s : State) : Host.Outcome State Fault Refusal :=
  let o := s.occ
  let x := (s.dieAt o.die).cove o.aux
  let n := (x.tail + 64 - x.head) % 64
  let (free, s) := s.freeD
  let detail := if n = 0 then free else dbl (field (x.fifo.double (128 * x.head + 32)) 15 0)
  .next (if x.failed && (coveTenants s o.die o.aux).isEmpty then s else failCove o.die o.aux (record none 1 1 o.die 0xffff 0x0107 detail noPkt s))

/-- COVE_POWERUP_FAIL (R568): the cove was not usable 3 µs after its grant. -/
def execCovePowerupFail (s : State) : Host.Outcome State Fault Refusal :=
  let o := s.occ
  .next (if ((s.dieAt o.die).cove o.aux).waking.isSome then
      failCove o.die o.aux (record none 1 0 o.die 0xffff 0x0302 (dbl o.aux) noPkt s)
    else s)

/-! ## Gating and the in-rush arbiter (R447, R448, R567) -/

/-- A cove of a die changed. -/
def modCove (d v : Nat) (f : Cove → Cove) (s : State) : State :=
  s.modDie d fun x => { x with coves := vput x.coves v (f (x.cove v)) }

/-- The coves whose LMs have accesses waiting at the die. -/
def heldCoves (s : State) : List (Nat × Nat) :=
  ((List.range 8).flatMap fun d => (s.dieAt d).heldLm.filterMap fun x =>
    ((s.dieAt d).physical x.1).map fun p => (d, coveOf p)) ++
  s.allTeams.flatMap fun t => (t.vars.filter fun a => a.phase ≠ .performed).flatMap fun a => a.parts.filterMap fun p =>
    match spotOf s.hub.package p.ipa with
    | .lm d l _ => ((s.dieAt d).physical l).map fun p => (d, coveOf p)
    | _ => none

/-- The coves that hold a resident team, a copy or sweep in flight, a held access of their LMs, or an ebb (R447,
R450), and those that the hub keeps for a cluster that comes back (R448; log entry 10). -/
def busyCoves (s : State) : List (Nat × Nat) :=
  dedup ((s.allTeams.filter (·.resident)).map (fun t => (t.ref.die, coveOf (s.coreOf t.ref))) ++
    (s.allCores.filter fun c => !c.copies.isEmpty || decide (c.sweep.phase ≠ .idle) || decide (0 < c.ebb)).map
      (fun c => (c.die, coveOf c.pcore)) ++ heldCoves s ++
    (s.hub.clusters.filter fun c => c.phase = .saved && c.waking).flatMap fun c => (clusterCoves s c).map fun v => (c.die, v))

/-- A cove has been awake and idle for 4 µs (R447). -/
def gateDue (s : State) (busy : List (Nat × Nat)) (d v : Nat) : Bool :=
  let x := (s.dieAt d).cove v
  x.usable && decide (x.idleFrom + 9600 ≤ s.now) && !busy.contains (d, v)

/-- COVE_GATE (R447): the cores write their dirty L1D lines back and lose what they hold, and the hold begins. -/
def execCoveGate (s : State) : Host.Outcome State Fault Refusal :=
  let d := s.occ.die
  let v := s.occ.aux
  .next (if !gateDue s (busyCoves s) d v then s
    else
      let ps := (s.allCores.filter fun c => c.die = d && coveOf c.pcore = v).map (·.pcore)
      let s := ps.foldl (fun s p => flushL1 none d p (fun _ => true) s) s
      let s := ((s.dieAt d).coveCores v).foldl (fun s x => loseLm d x.1 s) s
      let s := s.modCores (fun c => c.die = d && coveOf c.pcore = v) Core.lost
      modCove d v (fun x => { x with gated := true, holdEnd := s.now + 48000 }) s)

/-- The reference cycle from which a queued request can be granted. -/
def Die.eligibleAt (d : Die) (v : Cove) : Nat := max v.holdEnd ((d.lastGrant.map (· + 4800)).getD 0)

/-- The arbiter is looked at when the earliest queued request of a die becomes eligible. -/
def armArbiter (d : Nat) (s : State) : State :=
  let x := s.dieAt d
  let at_ := ((List.range 9).map x.cove).filterMap fun v => if v.wanted.isSome then some (x.eligibleAt v) else none
  match at_ with
  | [] => s
  | a :: as =>
    let t := as.foldl min a
    if t ≤ s.now then s.next .coveWakeGrant { die := d } else s.after (t - s.now) .coveWakeGrant { die := d }

/-- COVE_WAKE_REQUEST (R448, R567): on a cove that is awake it restarts the idle count, and on one that is queued or
waking it joins the first request. -/
def execCoveWakeRequest (s : State) : Host.Outcome State Fault Refusal :=
  let d := s.occ.die
  let v := s.occ.aux
  let x := (s.dieAt d).cove v
  let now := s.now
  .next (if x.failed then s
    else if x.usable then modCove d v (fun x => { x with idleFrom := now }) s
    else if x.wanted.isSome || x.waking.isSome then s
    else armArbiter d (modCove d v (fun x => { x with wanted := some now }) s))

/-- The oldest eligible request of a die. -/
def oldestRequest (d : Die) (now : Nat) : Option Nat :=
  let vs := (List.range 9).filter fun v => (d.cove v).wanted.isSome && decide (d.eligibleAt (d.cove v) ≤ now)
  (sortBy (fun a b => decide (((d.cove a).wanted.getD 0) < ((d.cove b).wanted.getD 0))) vs).head?

/-- COVE_WAKE_GRANT (R448): the arbiter grants the oldest eligible request. -/
def execCoveWakeGrant (s : State) : Host.Outcome State Fault Refusal :=
  let d := s.occ.die
  let now := s.now
  .next (armArbiter d (match oldestRequest (s.dieAt d) now with
    | none => s
    | some v =>
      let s := modCove d v (fun x => { x with wanted := none, waking := some now }) s
      let s := s.modDie d fun x => { x with lastGrant := some now }
      s.after 7200 .coveUsable { die := d, aux := v, id := now }))

/-- COVE_USABLE (R448): what waits for the cove goes on. -/
def execCoveUsable (s : State) : Host.Outcome State Fault Refusal :=
  let d := s.occ.die
  let v := s.occ.aux
  let now := s.now
  .next (if ((s.dieAt d).cove v).waking ≠ some s.occ.id then s
    else
      let s := modCove d v (fun x => { x with gated := false, waking := none, idleFrom := now }) s
      let cs := s.hub.clusters.filter fun c => c.phase = .resident && c.die = d &&
        c.teams.any fun r => (s.teamAt r).park = .start
      first ((cs.map fun c => .event .clusterStart { id := c.id }) ++ [.event .queueNotify { aux := 2 }]) s)

/-! ## Migration (R439, R440, R452, R569 to R571) -/

/-- THERMAL_TRIP (R452): on a core with no resident team it requests nothing; one with a team that has migrated lately
takes raised floors instead (R570). -/
def execThermalTrip (s : State) : Host.Outcome State Fault Refusal :=
  let d := s.occ.die
  let p := s.occ.core
  .next (if (s.dieAt d).migrates p then s
    else if (s.residents d p).isEmpty then if targeted s d p then keepTrip d p s else s
    else if migratedLately s d p then keepTrip d p s
    else match migrationTarget s d with
      | some q => startMigration d p q s
      | none =>
        let temp := sensorTemp (tsensOf s.hub (coreNumber d p))
        keepTrip d p (record none 0 0 d p 0x0303 (dbl temp) noPkt s))

/-- The teams of a migrating core stand where it takes them (R439, R571). -/
def migrationReady (s : State) (d p : Nat) : Bool :=
  (s.residents d p).all fun r =>
    let t := s.teamAt r
    t.trap.isNone && (hasEnded s t || (t.park = .boundary || t.park = .svc) && quiet s t false)

/-- A core with the state that a migration brings to it: the owner state, CLKD, and the instruction-store lines that its
supervisor loads; its domains start at once (R439). -/
def Core.takeOver (c old : Core) (copies : List Copy) (now : Nat) : Core :=
  { c.restoreOwner (old.ownerImage { die := old.die, lcore := 0, rslot := 0 }) with
    mxq := old.mxq, rxq := old.rxq, fixed := old.fixed, copies := copies, dxBusy := old.dxBusy, dxTeam := old.dxTeam, clkd := old.clkd,
    floorChange := true, base := Vector.replicate 4 (now + 1), istore := old.istore, l1d := [] }

/-- The teams of a core move to another physical core, and the remap table says so (R32, R439). -/
def moveCore (d p q : Nat) (s : State) : State :=
  let rs := s.residents d p
  let s := flushL1 none d q (fun _ => true) (flushL1 none d p (fun _ => true) s)
  let old := s.coreAt d p
  let s := s.modCore d q fun c => c.takeOver old old.copies s.now
  let s := s.modCore d p Core.lost
  let l := (s.dieAt d).logical p
  let s := s.modDie d fun x =>
    { x with migrating := x.migrating.filter (fun m => m.1 ≠ p),
             remap := (match l with | some l => vput x.remap l (some q) | none => x.remap) }
  let s := s.modTeams (fun t => rs.contains t.ref) fun t => { t with lastMigration := some s.now }
  updateDieEntry d (goOnTeams rs s)

/-- MIGRATION_MOVE (R439): with every team at its boundary and the target's cove awake, the teams move; a target that has
failed, or that a logical core uses by then, gives way to another (R17, R568). -/
def execMigrationMove (s : State) : Host.Outcome State Fault Refusal :=
  let d := s.occ.die
  let p := s.occ.core
  .next (match (s.dieAt d).migrating.find? fun m => m.1 = p with
    | none => s
    | some (_, q) =>
      let v := coveOf q
      if !migrationReady s d p then s
      else if !(s.dieAt d).freeCores.contains q then
        schedule (retarget d (s.modDie d fun x => { x with migrating := x.migrating.filter fun m => m.1 ≠ p }) p)
      else if !((s.dieAt d).cove v).usable then
        (if ((s.dieAt d).cove v).wanted.isSome || ((s.dieAt d).cove v).waking.isSome then s
         else s.next .coveWakeRequest { die := d, aux := v })
      else schedule (moveCore d p q s))

/-! ## Sensors (R451, R452, R569, R572) -/

/-- One sensor's new reading: it may trip, re-arm or be critical. -/
def readSensor (n : Nat) (s : State) (c : Nat) : State :=
  let d := c / 72
  let p := c % 72
  let x := setField (tsensOf s.hub c) 7 0 (Config.reading n c).toNat
  let off := s.hub.disarmed.contains c
  let trips := !off && decide (sensorThr x ≤ sensorTemp x)
  let cools := sensorCool x
  let s := s.onHub fun h =>
    { h with tsens := SMap.insert h.tsens c (if trips then setField x 8 8 1 else x),
             disarmed := if trips then c :: h.disarmed else if cools then h.disarmed.filter (· ≠ c) else h.disarmed }
  let s := if cools then coolDown c s else s
  if 120 ≤ sensorTemp x then
    (if ((s.dieAt d).cove (coveOf p)).failed && (coveTenants s d (coveOf p)).isEmpty then s
     else failCove d (coveOf p) (record none 1 0 d p 0x0304 (dbl (sensorTemp x)) noPkt s))
  else if trips then s.next .thermalTrip { die := d, core := p } else s

/-- SENSOR_READING (R451): every sensor of the package takes its reading. -/
def execSensorReading (s : State) : Host.Outcome State Fault Refusal :=
  .next ((List.range 576).foldl (readSensor (s.now / 24000)) s)

/-! ## Re-grants (R443, R444) -/

/-- The levels of a die's cores in ascending order: none above the core's request, or above what the budget leaves, which
does not grow from core to core. -/
def grantCores (n d : Nat) : List Nat → Nat → State → State
  | [], _, s => s
  | p :: ps, cap, s =>
    let cap := min cap (Config.budgetLevel n (coreNumber d p))
    let level := min ((s.coreAt d p).pwrq.getD 15) cap
    let grant := field (vget s.hub.gltab level 0xfffff) 19 0
    grantCores n d ps cap (s.modCore d p fun c => { c with nextGrant := some grant, pwrq := none })

/-- A pending trip is looked at (R569): a migration while a target exists, and otherwise raised floors. -/
def retryTrip (s : State) (c : Nat) : State :=
  let d := c / 72
  let p := c % 72
  let drop := fun s : State => s.onHub fun h => { h with pendingTrips := h.pendingTrips.filter (· ≠ c) }
  if (s.dieAt d).migrates p then drop s
  else if (s.residents d p).isEmpty then if targeted s d p then s else drop s
  else match migratedLately s d p, migrationTarget s d with
    | false, some q => startMigration d p q (drop s)
    | _, _ => raiseFloors d p s

/-- A migration whose teams have all left, ended or been saved, is completed (R571). -/
def emptyMoves (s : State) : List Turn :=
  (List.range 8).flatMap fun d => ((s.dieAt d).migrating.filter fun m => (s.residents d m.1).isEmpty).map fun m =>
    .event .migrationMove { die := d, core := m.1 }

/-- REGRANT (R443): the level that the budget allows is firmware's (log entry 10). -/
def execRegrant (s : State) : Host.Outcome State Fault Refusal :=
  let n := s.hub.regrants
  let s := (List.range 8).foldl (fun s d => grantCores n d (List.range 72) 15 s) s
  let s := s.onHub fun h => { h with regrants := n + 1 }
  let s := s.hub.pendingTrips.foldl retryTrip s
  .next (first (emptyMoves s) s)

end Sys2Proof.Machine
end

