-- ==== Sys2Proof/Machine/Clock.lean ====
section
/-! DEFINITION. How a reference cycle begins: what the package's clock brings, the turns of the cores, and the events that
are due (spec/03_core_timing.md R95 to R100, spec/16_power_clocks.md R443 to R451). The order of the turns of one reference
cycle is log entry 6. -/

namespace Sys2Proof.Machine

/-- A domain of a core starts a cycle by its divisor (R96), a stall bundle's cycle included. -/
def Core.ticks (c : Core) (now : Nat) (x : Domain) : Bool :=
  decide (vget c.base x.idx 0 ≤ now) && decide ((now - vget c.base x.idx 0) % c.divisor x = 0)

/-- A core that holds a team starts its reference cycle: where one of its domains starts a cycle, an idle core arbitrates and
results land, before any core's turn of this cycle can start a cluster on it (R48, R74). -/
def landTurns (s : State) (d p : Nat) : List Turn :=
  if [Domain.core, .vx, .mx, .dx].any ((s.coreAt d p).ticks s.now) then [.land d p] else []

/-- The further turns of a core that holds a team, in a reference cycle. -/
def coreTurns (s : State) (d p : Nat) : List Turn :=
  let c := s.coreAt d p
  let at_ := fun (x : Domain) (ts : List Turn) => if c.ticks s.now x then ts else []
  at_ .core [.dispatch d p, .slot d p .sx, .slot d p .ad, .slot d p .ls] ++
    at_ .vx [.sweep d p, .slot d p .vx] ++ at_ .mx [.slot d p .mx, .slot d p .rx] ++ at_ .dx [.slot d p .dx] ++
    at_ .mx [.array d p] ++ [.settle d p]

/-- The cores that hold a team, on the dies that answer: a die that has stopped answering does nothing more until its reset
(R557, DEDUCED: log entry 35). -/
def liveCores (s : State) : List (Nat × Nat) :=
  dedup ((s.allTeams.filter fun t => t.resident && (s.dieAt t.ref.die).answering).map fun t => (t.ref.die, s.coreOf t.ref))

/-- An event that comes whenever the package reference counter is a multiple of `n`. -/
def every (now n : Nat) (i : Instr) : List Turn := if now % n = 0 then [Turn.event i {}] else []

/-- The events that the package reference counter brings: refresh windows (R305), sensor readings (R451), re-grants (R443) and
probes (R557). -/
def clockEvents (s : State) (now : Nat) : List Turn :=
    ((List.range 8).flatMap fun g =>
      let o := (s.hub.refreshPhase + 9600 * g) % 76800
      (if now % 76800 = o then [Turn.event .refreshWindowStart { aux := g }] else []) ++
        if now % 76800 = (o + 512) % 76800 ∧ 512 ≤ now then [Turn.event .refreshWindowEnd { aux := g }] else []) ++
    every now 24000 .sensorReading ++ every now 24000 .regrant ++ every now 240000 .dieProbe

/-- The coves that gate in this reference cycle (R447). -/
def gateEvents (s : State) (busy : List (Nat × Nat)) : List Turn :=
  (List.range 8).flatMap fun d => ((List.range 9).filter (gateDue s busy d)).map fun v =>
    .event .coveGate { die := d, aux := v }

/-- A reference cycle of the loads and their ebb sequences (R449), and of the idle counts of the coves (R447). -/
def countPower (busy : List (Nat × Nat)) (s : State) : State :=
  let s := if s.now % 2400 = 0 then sampleLoads s else s
  let s := if s.allCores.any fun c => decide (0 < c.ebb) then s.modCores (fun _ => true) fun c => { c with ebb := c.ebb - 1 } else s
  busy.foldl (fun s x => modCove x.1 x.2 (fun v => { v with idleFrom := s.now }) s) s

/-- A held access may be delivered: its core is no longer being moved. -/
def heldFree (s : State) (d : Nat) (x : Nat × Instr × Occ) : Bool :=
  match (s.dieAt d).physical x.1 with
  | some p => !coreHeld s d p
  | none => true

/-- The accesses that the dies have held for LMs whose move is over, in the order in which they came (R439, R440). -/
def deliveries (s : State) : List Turn :=
  (List.range 8).flatMap fun d => ((s.dieAt d).heldLm.filter (heldFree s d)).map fun x => .event x.2.1 x.2.2

/-- They leave the dies. -/
def deliverHeld (s : State) : State :=
  (List.range 8).foldl (fun s d =>
    if (s.dieAt d).heldLm.any (heldFree s d) then
      s.modDie d fun x => { x with heldLm := x.heldLm.filter fun y => !heldFree s d y }
    else s) s

/-- The next reference cycle begins: the queues' limits count (R551), each link sends (R458), the hub cache sheds what it has
no room for (R342), the dies deliver what they held for a move (R440), and its turns are the end of an energy window (R99), the cores' landings and arbitrations, before anything
of this cycle can start a cluster (R48), the clock's further events, the cores' turns and the events that are due. -/
def newCycle (s : State) : State :=
  let now := s.now + 1
  let s : State := { s with now := now }
  let busy := busyCoves s
  let s := countLimits (countPower busy s)
  let s := serveLinks (hubRoom (s.hub.cache.length - 4194304) s)
  let held := deliveries s
  let s := deliverHeld s
  let live := liveCores s
  let due := s.timers.filter fun x => decide (x.1 ≤ now)
  { s with timers := s.timers.filter fun x => !decide (x.1 ≤ now),
           agenda := every now 1024 .energyWindowEnd ++ live.flatMap (fun x => landTurns s x.1 x.2) ++
             clockEvents s now ++ gateEvents s busy ++
             live.flatMap (fun x => coreTurns s x.1 x.2) ++ held ++
             due.map fun (_, i, o) => .event i o }

end Sys2Proof.Machine
end

