-- ==== Sys2Proof/Machine/Recover.lean ====
section
/-! DEFINITION. Lost dies and passengers, redispatch, storage errors, package reset and boot
(spec/23_scheduler_recovery.md R557 to R562, spec/01_sarvo_package.md R23 to R25, spec/22_memory_engine_faults.md R539,
spec/20_errors_framework.md R486 to R495, spec/17_fabric_host_boot.md R464, R465). -/

namespace Sys2Proof.Machine

/-! ## Passengers (R23 to R32) -/

/-- The kind of the passenger that a socket holds (R14, R30). -/
def socketKind (n : Nat) : BitVec 8 :=
  if n < 8 then 1 else if n = 8 then 2 else if n ≤ 10 then 3 else if n = 11 then 4 else 5

/-- The class of a passenger (R24): 0 none, 1 N, 2 I, 3 M; a compute die's is that of its own partition's configuration (R453). -/
def socketClass (h : Hub) (n : Nat) : Nat :=
  if n < 8 then (if h.diesM.contains n then 3 else if h.diesI.contains n then 2 else 1)
  else if n = 8 then 3 else if n ≤ 11 then 2 else 0

/-- A passenger entry rewritten (R32). -/
def putPassenger (n : Nat) (f : Passenger → Passenger) (s : State) : State :=
  s.onHub fun h =>
    let p := f (h.passenger n)
    ({ h with passengers := vput h.passengers n { p with gen := (p.gen + 2) % 2 ^ 32 } }).listChanged

/-- The state of a passenger changes. -/
def setState (n st : Nat) (s : State) : State := putPassenger n (fun p => { p with state := st }) s

/-- A stack's state in the memory entry changes (R31). An isolated stack reads 3, failed, until it has been enumerated again: the
entry has no code of its own for it (DESIGN CHOICE, log entry 37). -/
def setStack (j st : Nat) (s : State) : State :=
  s.onHub fun h => ({ h with stackStates := vput h.stackStates j st, memGen := (h.memGen + 2) % 2 ^ 32 }).listChanged

/-! ## Redispatch (R558 to R560) -/

/-- The launches with a cluster that a test picks. -/
def launchesWith (h : Hub) (p : Cluster → Bool) : List Launch :=
  h.launches.filter fun l => h.clusters.any fun c => c.launch = l.id && p c

/-- Saved clusters of a die that has failed are redispatched (R553, R558). -/
def redispatchSaved (d : Nat) (s : State) : State :=
  (launchesWith s.hub fun c => c.die = d && c.phase = .saved).foldl redispatch s

/-! ## A hung compute die (R557, R564, R565) -/

/-- An access has a part in the region of a die. -/
def Access.onDie (pkg d : Nat) (a : Access) : Bool :=
  a.parts.any fun p => match spotOf pkg p.ipa with
    | .lm x _ _ | .staging x _ => decide (x = d)
    | _ => false

/-- What waits in the die's link, in either direction, is discarded, and with it every other agent's request to the die: it is
never answered. Those that come until the die is online again follow (`migratingLm`, `stopped`). -/
def discardRequests (d : Nat) (s : State) : State :=
  let dead := s.allTeams.flatMap fun t => (t.vars.filter fun a => a.phase ≠ .performed && a.onDie s.hub.package d).map (·.id)
  let keep := fun x : Instr × Occ => !(decide (x.1 = .homeRequest) && dead.contains x.2.id)
  let s := dropRequests (fun r => (r.what.map keep).getD true) s
  { s with timers := s.timers.filter (fun x => keep x.2),
           hub := { s.hub with links := s.hub.links.filter fun q => q.link ≠ dieLink d } }

/-- The lines that a class-M die held dirty (M or O). -/
def dirtyLines (s : State) (d : Nat) : List Nat :=
  dedup (((s.dieAt d).l2.filter Line.isDirty).map (·.ipa) ++
    (s.allCores.filter fun c => c.die = d).flatMap fun c => (l1Dirty c).map (·.ipa))

/-- A line's record without a die among its holders: a copy that only the die held modified is lost with it. -/
def DirLine.without (d : Nat) (l : DirLine) : DirLine :=
  let hs := l.holders.filter (· ≠ d)
  { l with holders := hs, st := if hs.isEmpty then .invalid else l.st }

/-- A region without a die among its holders. -/
def Region.without (d : Nat) (q : Region) : Region :=
  let cls := match q.cls with
    | .priv a => if a = d then RegionClass.empty else q.cls
    | .readOnly as => if (as.filter (· ≠ d)).isEmpty then .empty else .readOnly (as.filter (· ≠ d))
    | x => x
  { q with cls := cls, users := q.users.filter (fun u => u.1 ≠ d),
           lines := (q.lines.map (DirLine.without d)).filter fun l => !l.holders.isEmpty }

/-- The directory is cleaned of a die: what a class-M die held dirty is poisoned at its home. -/
def cleanDirectory (d : Nat) (s : State) : State :=
  let lost := if classM s.hub (some d) then dirtyLines s d else []
  s.onHub fun h => { h with poisoned := dedup (lost ++ h.poisoned), regions := h.regions.map (Region.without d) }

/-- The die's contents read as zero, its supervisors start anew, its remap table stays as it is, and so do the books of its saved
clusters' staging shares (R559). -/
def resetDie (d : Nat) (s : State) : State :=
  let lo := dieRegion d
  let s := s.modCores (fun c => c.die = d) fun c => Core.reset c.die c.pcore
  let s : State := { s with
    mem := s.mem.filter (fun c => !(decide (lo ≤ c.1) && decide (c.1 < lo + 2 ^ 32))),
    lmEpochs := s.lmEpochs.filter fun e => !(decide (d * 2 ^ 15 ≤ e.1) && decide (e.1 < (d + 1) * 2 ^ 15)) }
  s.modDie d fun x =>
    { Die.reset d with remap := x.remap, staging := x.staging,
                       coves := Vector.ofFn fun v =>
                         { Cove.reset with gated := (x.cove v.val).gated, failed := (x.cove v.val).failed } }

/-- The load of the lost die ebbs away on the other dies (R565), and a hang that ends clusters elsewhere covers them too
(R564). -/
def ebbAway (d : Nat) (ls : List Launch) (s : State) : State :=
  let runs := fun c : Core => c.die ≠ d && (s.residents c.die c.pcore).any fun r =>
    ls.any fun l => l.clusters.contains (s.teamAt r).cluster
  if ls.isEmpty then s
  else
    let lost := s.loadOf fun c => c.die = d
    let s := startEbb runs s
    if lost ≤ s.slew then s
    else
      let n := s.ebbTime lost
      let s := s.modCores (fun c => c.die ≠ d) fun c =>
        { c with ebb := max c.ebb n, ebbLength := max c.ebb n, ebbLoad := c.ebbDraw + lost / 504 }
      record none 0 0 0xff 0xffff 0x0301 (dbl d) noPkt s

/-- The hub isolates and resets a compute die: steps 2 to 5 of R557. -/
def loseDie (d : Nat) (s : State) : State :=
  let s := setState d 3 s
  let s := discardRequests d s
  let ls := launchesWith s.hub fun c => c.die = d && (c.phase = .resident || c.phase = .saving)
  let s := ebbAway d ls s
  let s := cleanDirectory d s
  let s := ls.foldl redispatch s
  let s := resetDie d s
  schedule (s.after (1 + Config.latency s.free % 4800000) .dieResetDone { die := d })

/-- A hung die (R557). -/
def hangDie (d : Nat) (s : State) : State :=
  if (s.hub.passenger d).state ≠ 2 then s else loseDie d (record none 4 0 d 0xffff 0x0202 0 noPkt s)

/-- One probe of one die. -/
def probeDie (s : State) (d : Nat) : State :=
  if (s.hub.passenger d).state ≠ 2 then s
  else
    let x := s.dieAt d
    if x.answering then (if x.misses = 0 then s else s.modDie d fun x => { x with misses := 0 })
    else
      let s := s.modDie d fun x => { x with misses := x.misses + 1 }
      if 3 ≤ x.misses + 1 then hangDie d s else s

/-- DIE_PROBE (R557): all dies are probed in one reference cycle. An occurrence that is not `ok` is no probe: from then on
the die that it names gives no answer. -/
def execDieProbe (s : State) : Host.Outcome State Fault Refusal :=
  .next (if s.occ.ok then (List.range 8).foldl probeDie s
    else s.modDie s.occ.die fun x => { x with answering := false })

/-- What a die's capability table gives: the kind of its socket and the die's profile. -/
def ownPassport (s : State) (n : Nat) : Passport := { kind := socketKind n, profile := profileOf s n }

/-- DIE_RESET_DONE (R557): the die is enumerated again, in state 1 for at most 1 ms. -/
def execDieResetDone (s : State) : Host.Outcome State Fault Refusal :=
  let d := s.occ.die
  .next (if (s.hub.passenger d).state ≠ 3 then s
    else (setState d 1 s).after (1 + Config.latency s.free % 2400000) .passengerEnumerate
      { aux := d, passport := ownPassport s d })

/-- The passenger's capability table matches its socket (R558): a compute die keeps the profile that it had. -/
def passportFits (s : State) (n : Nat) (x : Passport) : Bool :=
  decide (x.kind = socketKind n) &&
    (decide (8 ≤ n) || (x.profile = 1 || x.profile = 2) && ((s.hub.passenger n).kind = 0 || decide (x.profile = profileOf s n)))

/-- A die's latency profile in its entry (R31, R32). -/
def setProfile (d profile : Nat) (s : State) : State :=
  let e := vget s.hub.dieEntries d { gen := 0, profile := 2, free := 8, failed := 0 }
  if e.profile = profile then s
  else s.onHub fun h =>
    ({ h with dieEntries := vput h.dieEntries d { e with profile := profile, gen := (e.gen + 2) % 2 ^ 32 } }).listChanged

/-- A passenger's table is accepted: its kind and its class are published, and it is online (R23, R24). -/
def acceptPassenger (n : Nat) (x : Passport) (s : State) : State :=
  let cls := socketClass s.hub n
  let s := if n < 8 then setProfile n x.profile s else s
  let s := if 12 ≤ n then setStack (n - 12) 1 s else s
  putPassenger n (fun p => { p with state := 2, cls := cls, kind := x.kind.toNat }) s

/-- PASSENGER_ENUMERATE (R23, R25, R558): `aux` is the socket. A passenger that fails the check has no range, and its entry keeps the
kind and the class that it had (DESIGN CHOICE, log entry 90). -/
def execPassengerEnumerate (s : State) : Host.Outcome State Fault Refusal :=
  let n := s.occ.aux
  let x := s.occ.passport
  let s := if (s.hub.passenger n).state = 1 then s else setState n 1 s
  .next (if passportFits s n x then schedule (acceptPassenger n x s)
    else
      let s := setState n 4 s
      schedule (if n < 8 then redispatchSaved n s else s))

/-- The unit that a passenger's record names (R494). -/
def socketUnit (n : Nat) : Nat := if n < 8 then 0 else if n = 8 then 12 else if n ≤ 10 then 7 else if n = 11 then 8 else 5

/-- A passenger other than a compute die is isolated, reset, and enumerated again (R25). -/
def isolateOther (n : Nat) (s : State) : State :=
  let s := setState n 3 s
  let s := if 12 ≤ n then setStack (n - 12) 3 s else s
  let ports := if n = 9 then List.range 32 else if n = 10 then upFrom 32 32 else if n = 11 then upFrom 64 16 else []
  let s := first (ports.map fun p => .event .portDown { core := p }) s
  s.later .passengerEnumerate { aux := n, passport := ownPassport s n }

/-- PASSENGER_ISOLATE (R25): `aux` is the socket; a compute die's work goes as that of a lost one (R557). -/
def execPassengerIsolate (s : State) : Host.Outcome State Fault Refusal :=
  let n := s.occ.aux
  .next (if n < 8 then loseDie n s else isolateOther n s)

/-- A passenger other than a compute die has failed: it is isolated, with a record whose cause is not given (R486; log entry 3). -/
def failOther (n : Nat) (s : State) : State :=
  let (x, s) := s.freeD
  isolateOther n (record none 4 (socketUnit n) n 0xffff (field x 15 0) 0 noPkt s)

/-- UCIE_LINK_DOWN (R486, R557): `aux` is the socket. -/
def execUcieLinkDown (s : State) : Host.Outcome State Fault Refusal :=
  let n := s.occ.aux
  .next (if n < 8 then hangDie n s else failOther n s)

/-- CONTROL_DIE_CRASH (R562): the record's cause is not given (log entry 3). -/
def execControlDieCrash (s : State) : Host.Outcome State Fault Refusal := .next (failOther 8 s)

/-! ## Storage errors (R487, R495, R539) -/

/-- A cove whose corrected errors have passed the threshold is retired: its cores' teams migrate, and its empty logical
cores are remapped at once, their dirty L1D lines having reached the L2 (R487, R495). -/
def drainCove (d v : Nat) (s : State) : State :=
  let s := (unreleased s d v).foldl unplace s
  let s := modCove d v (fun x => { x with failed := true }) s
  let ls := (s.dieAt d).coveCores v
  let (full, empty) := ls.partition fun x => !(s.residents d x.2).isEmpty
  let s := full.foldl (fun s x => match migrationTarget s d with
    | some q => startMigration d x.2 q s
    | none => keepTrip d x.2 s) s
  let s := empty.foldl (fun s x => flushL1 none d x.2 (fun _ => true) s) s
  let s := s.modCores (fun c => c.die = d && empty.any fun x => x.2 = c.pcore) fun c => { c with l1d := [] }
  let s := s.modDie d fun x =>
    let free := x.freeCores.filter fun p => x.migrating.all fun m => m.2 ≠ p
    remapCores (empty.map (·.1)) free x
  updateDieEntry d s

/-- The unit of an array in an error record (R494). -/
def arrayUnit : ArrayKind → Nat
  | .l2 => 2
  | .weightStore => 3
  | .hubCache => 4
  | .hbm => 5
  | .ddr => 6
  | .schedulerTable => 10
  | .directory => 11
  | _ => 0

/-- The socket that an array's record names: the hub for its own arrays, the stack's for HBM4 (R494). -/
def arraySocket (a : ArrayKind) (o : Occ) : Nat :=
  match a with
  | .hubCache | .ddr | .schedulerTable | .directory => 0xff
  | .hbm => 12 + o.core
  | _ => o.die

/-- The IPA that a storage error concerns, 0 for an array that holds no memory (R494). -/
def errorIpa (s : State) : Nat :=
  let o := s.occ
  match o.arr with
  | .lm => (((s.dieAt o.die).logical o.core).map fun l => lmIpa s.hub.package o.die l o.id).getD 0
  | .weightStore => weightIpa s.hub.package o.die o.id
  | .l1d | .l2 | .hubCache | .istore | .hbm | .ddr | .directory => o.id
  | .registers | .accumulator | .tri | .latch | .contextCode | .schedulerTable => 0

/-- The record of a storage error. -/
def storageRecord (tenant : Option Nat) (outcome cause : Nat) (detail pkt : Double) (s : State) : State :=
  let o := s.occ
  errorRecord (errSrc tenant outcome (arrayUnit o.arr) (arraySocket o.arr o) o.core cause) (errorIpa s) detail pkt outcome s

/-- Corrected errors: below firmware's threshold they change nothing and write no record, and each takes its number; over it a spare
that is left takes over (R487, R493, R495). -/
def corrected (s : State) : State :=
  let o := s.occ
  let here := storageRecord none 0 0x0101 (dbl o.aux) noPkt s
  let spared := storageRecord none 1 0x0101 (dbl o.aux) noPkt s
  if o.aux = 0 then skipRecord s
  else match o.arr with
    | .hbm => if vget s.hub.stackStates o.core 0 = 2 then here else setStack o.core 2 spared
    | .lm | .l1d | .istore | .accumulator | .registers | .tri | .latch | .contextCode =>
      if ((s.dieAt o.die).cove (coveOf o.core)).failed then here else drainCove o.die (coveOf o.core) spared
    | _ => here

/-- The team whose LM grant holds a byte of a physical core's LM. -/
def lmOwner (s : State) (d p o : Nat) : Option TeamRef :=
  ((s.residents d p).find? fun r =>
    let t := s.teamAt r
    decide (field t.lmg 8 0 * 4096 ≤ o) && decide (o < (field t.lmg 8 0 + field t.lmg 21 12) * 4096))

/-- The tenant of the team that holds an uncorrectable error is killed, with the error's own record (R490). -/
def killStorage (team : Option TeamRef) (s : State) : State :=
  match team with
  | none => storageRecord none 0 0x0100 s.occ.w noPkt s
  | some r =>
    let t := (s.teamAt r).tenant
    schedule (storageRecord (some t) 3 0x0100 s.occ.w (teamPkt s r t) (endContext t s))

/-- Lines are poisoned at their home (R491): nobody is affected until one is consumed, and the record's outcome, which the spec does
not give, is 0 (DESIGN CHOICE, log entry 89). -/
def poison (ls : List Nat) (s : State) : State :=
  storageRecord none 0 0x0100 s.occ.w noPkt (s.onHub fun h => { h with poisoned := dedup (ls.map lineOf ++ h.poisoned) })

/-- A cached line with an error: a clean one is fetched again, a dirty one is poisoned, and no older copy of it below serves for it
(R539). -/
def badLine (dirty : Bool) (s : State) : State :=
  if dirty then poison [s.occ.id] s else storageRecord none 0 0x0100 s.occ.w noPkt s

/-- A tenant's copies of a line in a die's caches are discarded. -/
def dropCopies (tenant d line : Nat) (s : State) : State :=
  let s := s.modDie d fun x => { x with l2 := dropLine x.l2 tenant line }
  s.modCores (fun c => c.die = d) fun c => { c with l1d := dropLine c.l1d tenant line }

/-- Both copies of a queue's entry in the scheduler table have failed (R495): the queue is unbound, and its started
packets are reported as killed, with the write-backs and the wakes of R543. -/
def loseQueue (qid : Nat) (s : State) : State :=
  let s := onQueue qid (fun q => { q with bound := false, stopped := true, kicks := [], replay := none }) s
  schedule ((s.hub.launches.filter fun l => l.qid = qid).foldl (fun s l => endLaunch l 6 s) s)

/-- An uncorrectable error in an array (R539): `id` is the address, for a cached line its IPA and `tenant` the tenant whose access
brought it in; `core` is the core, stack or channel. -/
def uncorrectable (s : State) : State :=
  let o := s.occ
  let line := lineOf o.id
  match o.arr with
  | .lm => killStorage (lmOwner s o.die o.core o.id) s
  | .registers | .accumulator | .tri | .latch | .contextCode =>
    killStorage (if (s.teamAt o.team).resident then some o.team else none) s
  | .l1d =>
    let dirty := ((findLine (s.coreAt o.die o.core).l1d o.tenant line).map Line.isDirty).getD false
    badLine dirty (if dirty then dropCopies o.tenant o.die line s
      else s.modCore o.die o.core fun c => { c with l1d := dropLine c.l1d o.tenant line })
  | .l2 =>
    let dirty := ((findLine (s.dieAt o.die).l2 o.tenant line).map Line.isDirty).getD false
    badLine dirty (if dirty then dropCopies o.tenant o.die line s
      else s.modDie o.die fun d => { d with l2 := dropLine d.l2 o.tenant line })
  | .hubCache =>
    badLine (((s.hub.line line).map (·.dirty)).getD false)
      (s.onHub fun h => { h with cache := h.cache.filter fun l => l.ipa ≠ line })
  | .istore =>
    storageRecord none 0 0x0100 o.w noPkt
      (s.modCore o.die o.core fun c => { c with istore := c.istore.filter fun l => l.ipa ≠ line })
  | .hbm | .ddr => poison [o.id] s
  | .weightStore =>
    storageRecord none 0 0x0100 o.w noPkt
      (s.modDie o.die fun d => { d with weightPoison := dedup (line :: d.weightPoison) })
  | .directory =>
    let q := regionOf s.hub line
    let of := fun ls : List Line => (ls.filter fun l => q.holds l.ipa).map (·.ipa)
    let held := (List.range 8).flatMap fun d => if classM s.hub (some d) then
        of (s.dieAt d).l2 ++ (s.allCores.filter fun c => c.die = d).flatMap fun c => of c.l1d else []
    let gone := fun ls : List Line => ls.filter fun l => !held.contains l.ipa
    let s := (List.range 8).foldl (fun s d => if classM s.hub (some d) then
      (s.modDie d fun x => { x with l2 := gone x.l2 }).modCores (fun c => c.die = d) fun c => { c with l1d := gone c.l1d }
      else s) s
    poison held s
  | .schedulerTable =>
    if o.aux = 0 then storageRecord none 1 0x0100 o.w noPkt s
    else loseQueue (o.id % 65536) (storageRecord none 3 0x0100 o.w noPkt s)

/-- CHECK_CODE_ERROR (R487, R539): corrected when `ok`, with `aux` the count of corrected errors since the last record once
firmware's threshold is passed, 0 before; of an uncorrectable error in the scheduler table `aux` 1 says that both copies have
failed. -/
def execCheckCodeError (s : State) : Host.Outcome State Fault Refusal :=
  .next (if s.occ.ok then corrected s else uncorrectable s)

/-! ## Reset and boot (R464, R465, R492, R562) -/

/-- Events that come from outside the package, which its reset does not withdraw. -/
def outside (i : Instr) (o : Occ) : Bool :=
  match i with
  | .queueNotify => decide (o.aux = 0)
  | .dieProbe => !o.ok
  | .packageReset | .bootImageOffer | .portTrained | .laneFail | .portDown | .portRequest | .hostBar4Request | .hwkeyArm
  | .hwake | .graphKick | .scaleoutDoorbell | .ucieLinkDown | .controlDieCrash | .passengerIsolate | .flitCrcFail | .checkCodeError | .registerWrite | .queueRegister | .scaleoutRegister => true
  | _ => false

/-- PACKAGE_RESET (R464, R562): the package is as State.reset has it; the host's memory is outside, and each die keeps its
profile. -/
def execPackageReset (s : State) : Host.Outcome State Fault Refusal :=
  let later := (s.timers.filter fun x => outside x.2.1 x.2.2).map fun x => (x.1 - s.now, x.2)
  let entries : Vector DieEntry 8 := Vector.ofFn fun i =>
    { gen := 0, profile := (s.hub.dieEntries[i]).profile, free := 8, failed := 0 }
  .next { State.reset with free := s.free, fresh := s.fresh, timers := later, hub := { Hub.reset with dieEntries := entries },
                           mem := s.mem.filter fun c => decide (2 ^ 56 ≤ c.1) && decide (c.1 < 2 ^ 57) }

/-- The checks of an image (R464): its signature over its digest, under the key that the fuses name, and its version. -/
def accepted (x : BootImage) : Bool :=
  Config.sm2Verifies x.key (Config.sm3 x.words) x.signature && decide (Config.sm3 x.key = Config.fusedKeyHash) &&
    decide (Config.fusedVersion ≤ x.version)

/-- The doubles of a digest, its first bytes first. -/
def digestDoubles (x : BitVec 256) : List Double := (List.range 4).map fun i => (x >>> (192 - 64 * i)).setWidth 64

/-- The doubles that a partition's configuration is measured as (R453, R465; DESIGN CHOICE, log entry 11). -/
def partitionWords (p : Partition) : List Double :=
  [dbl p.id, boolDbl p.demand] ++ counted p.dies ++ counted p.classM ++ counted p.classI ++
    (dbl p.vwin.length :: p.vwin.flatMap fun x => dbl x.1 :: x.2.toList) ++
    (dbl p.vfTenant.length :: p.vfTenant.flatMap fun x => [dbl x.1, dbl x.2])
where
  boolDbl (b : Bool) : Double := if b then 1 else 0
  counted (xs : List Nat) : List Double := dbl xs.length :: xs.map dbl

/-- The components of a boot in their load order (R465): the image, the operating system, the firmware of the 72 supervisors in
ascending die and cove order, and the partition configuration. -/
def components (x : BootImage) : List (List Double) :=
  [x.words, x.system] ++ ((List.range 72).map fun k => x.firmware.getD k []) ++ [x.partitions.flatMap partitionWords]

/-- M extended by a component: M := SM3(M ‖ SM3(component)) (R465). -/
def extendMeasure (m : BitVec 256) (ws : List Double) : BitVec 256 :=
  Config.sm3 (digestDoubles m ++ digestDoubles (Config.sm3 ws))

/-- M after every component of a boot has been loaded (R465). -/
def measured (x : BootImage) : BitVec 256 := (components x).foldl extendMeasure 0

/-- The identity's key (R465). -/
def identityOf (x : BootImage) : BitVec 256 := Config.identityKey Config.fusedSecret (Config.sm3 x.words)

/-- The quote that the operating system's attestation service answers to a nonce: signed under the identity's key, over the nonce, M
and the package number (R465). -/
def quote (h : Hub) (nonce : List Double) : BitVec 512 :=
  Config.sm2Sign h.identity (Config.sm3 (nonce ++ digestDoubles h.measure ++ [dbl h.package]))

/-- The measurements of a package's passengers follow its boot in ascending socket order (R23). -/
def enumerations (s : State) : List Turn :=
  (List.range 24).map fun n => .event .passengerEnumerate { aux := n, passport := ownPassport s n }

/-- The package offers its image on a trained UALink port, its neighbour's answer being outside this model (R464, log entry 8). -/
def offerImage (l : Nat) (s : State) : State :=
  if s.hub.imageOk && decide (l < 64) && decide (portState s.hub l ≠ 0) then
    joinLink l true { tenant := 0, size := max 64 (8 * s.hub.image.length), issued := s.now, ipa := s.hub.package * 2 ^ 46, hops := [],
                        what := none } s
  else s

/-- What a verified image brings (R306, R365, R453, R465, R492): the entries of the capability list that it changes count each
change (R32). -/
def loadImage (x : BootImage) (s : State) : State :=
  let s := s.onHub fun h =>
    ((({ h with imageOk := true, image := x.words, booted := true, errEpoch := x.epoch, measure := measured x, identity := identityOf x,
                package := x.package, partitions := x.partitions, owners := x.owners, refreshPhase := x.phase % 76800, refreshing := openWindow (x.phase % 76800) s.now,
                ddr := x.ddr, chan := x.chan, memGen := (h.memGen + 2) % 2 ^ 32,
                width := x.width, cxl := x.cxl, hostGen := (h.hostGen + 2) % 2 ^ 32 }).listChanged).listChanged).listChanged
  (List.zip (List.range 8) x.profiles).foldl (fun s d => setProfile d.1 d.2 s) s

/-- BOOT_IMAGE_OFFER (R464): a package that has no image verifies the one it is offered, loads it and offers it in turn; a failed
check leaves it waiting for a further offer. -/
def execBootImageOffer (s : State) : Host.Outcome State Fault Refusal :=
  let x := s.occ.image
  .next (if s.hub.imageOk || !accepted x then s
    else
      let s := loadImage x s
      (List.range 64).foldl (fun s l => offerImage l s) (first (enumerations s) s))

end Sys2Proof.Machine
end

