-- ==== Sys2Proof/Machine/Links.lean ====
section
/-! DEFINITION. The package's links: UALink and Ultra Ethernet ports, requests from other packages and from the host, and
scale-out rings (spec/17_fabric_host_boot.md R454 to R463, spec/24_power_link_faults.md R573 to R577,
spec/20_errors_framework.md R487). What other packages answer is outside this model (log entry 8). -/

namespace Sys2Proof.Machine

/-! ## Ports (R31, R456, R573, R574) -/

/-- The unit of a port in an error record (R494): links 0 to 63 are UALink's, 64 to 79 Ultra Ethernet's (R457). -/
def portUnit (l : Nat) : Nat := if l < 64 then 7 else 8
@[inherit_doc portUnit] def portSocket (l : Nat) : Nat := if l < 32 then 9 else if l < 64 then 10 else 11
@[inherit_doc portUnit] def portIndex (l : Nat) : Nat := if l < 64 then l else l - 64

/-- The src double of a port's record. -/
def portSrc (tenant : Option Nat) (outcome l cause : Nat) : Double :=
  errSrc tenant outcome (portUnit l) (portSocket l) (portIndex l) cause

/-- The lane state of a UALink port, or the speed of an Ultra Ethernet port, changes in its list entry (R31, R32). -/
def setPort (l st : Nat) (s : State) : State :=
  s.onHub fun h =>
    (if l < 64 then { h with lanes := vput h.lanes l st, ualGen := (h.ualGen + 2) % 2 ^ 32 }
     else { h with speeds := vput h.speeds (l - 64) st, ueGen := (h.ueGen + 2) % 2 ^ 32 }).listChanged

/-- PORT_TRAINED (R456, R464): `core` is the link, `aux` its lanes; an Ultra Ethernet port comes up at its one speed, and over a
UALink port the package offers its image. -/
def execPortTrained (s : State) : Host.Outcome State Fault Refusal :=
  let o := s.occ
  .next (offerImage o.core <| setPort o.core (if o.core < 64 then (if o.aux = 1 then 1 else 2) else 1) s)

/-- A request that waited in a port that has gone down, or whose answer is lost with it, is sent again over another port (R574): what
the answer had still to cross follows. -/
def resend (l : Nat) (s : State) (x : Nat × LinkReq) : State :=
  let r := x.2
  sendOn { r with hops := (if l < 64 then Hop.pod (r.ipa / 2 ^ 46) else .ethernet) :: r.hops } s

/-- A port goes down (R574): the requests that wait in it, and those whose answers wait there, go over other ports, but for its image
offer, and the record counts them. Another package sends its own requests again, which go on here. -/
def dropPort (l : Nat) (s : State) : State :=
  if portState s.hub l = 0 then s
  else
    let abroad := fun x : Nat × LinkReq => decide (64 ≤ l) || decide (x.2.ipa / 2 ^ 46 ≠ s.hub.package)
    let (lost, come) := (s.hub.linkQ l false).waiting.partition abroad
    let waiting := (s.hub.linkQ l true).waiting.filter abroad ++ lost
    let s := s.onHub fun h => { h with links := h.links.filter fun q => q.link ≠ l }
    let s := errorRecord (portSrc none 0 l 0x0311) 0 (dbl waiting.length) noPkt 0 (setPort l 0 s)
    come.foldl (fun s x => sendOn x.2 s) (waiting.foldl (resend l) s)

/-- PORT_DOWN (R574). -/
def execPortDown (s : State) : Host.Outcome State Fault Refusal := .next (dropPort s.occ.core s)

/-- LANE_FAIL (R573): the port goes on at ×1; with its second lane gone it is down (R574). -/
def execLaneFail (s : State) : Host.Outcome State Fault Refusal :=
  let l := s.occ.core
  .next (match portState s.hub l with
    | 2 => errorRecord (portSrc none 1 l 0x0310) 0 (dbl s.occ.aux) noPkt 1 (setPort l 1 s)
    | 1 => dropPort l s
    | _ => s)

/-- FLIT_CRC_FAIL (R487, R493): the link layer sends the flit again, and no value changes; the error takes its number. -/
def execFlitCrcFail (s : State) : Host.Outcome State Fault Refusal := .next (skipRecord s)

/-- REMOTE_REQUEST_TIMEOUT (R574): `tenant`'s request to the IPA `id`, of the packet `w`, found no route for 10 ms. -/
def execRemoteRequestTimeout (s : State) : Host.Outcome State Fault Refusal :=
  let o := s.occ
  .next (schedule (killPacket o.tenant (portSrc (some o.tenant) 3 o.core 0x0312) o.id (dbl (o.id % 2 ^ 46)) o.w s))

/-- KEY_FAILURE_RESPONSE (R575): another package has refused the key that a tenant of this one presented as tenant
`aux`, for a request of the packet `w` to the IPA `id`. -/
def execKeyFailureResponse (s : State) : Host.Outcome State Fault Refusal :=
  let o := s.occ
  .next (schedule (killPacket o.tenant (portSrc (some o.tenant) 3 o.core 0x0320) o.id (dbl o.aux) o.w s))

/-! ## Requests from outside at the home (R362, R455, R463) -/

/-- Bytes written at the home from an IPA up, line by line, until one is refused. -/
def outsideWrite (agent : Option Nat) (tenant : Nat) : List (Nat × Nat) → List Byte → State → Option (AccKind × Verdict) × State
  | [], _, s => (none, s)
  | (ipa, n) :: ps, bs, s =>
    let line := lineOf ipa
    match homeWrite agent tenant line (lineBytes (ipa - line) (bs.take n)) true s with
    | (some v, s) => (some (.write, v), s)
    | (none, s) => outsideWrite agent tenant ps (bs.drop n) s

/-- Bytes read at the home from an IPA up. -/
def outsideRead (agent : Option Nat) (tenant : Nat) : List (Nat × Nat) → State → Except (AccKind × Verdict) (List Byte) × State
  | [], s => (.ok [], s)
  | (ipa, n) :: ps, s =>
    let line := lineOf ipa
    match homeRead agent tenant line s with
    | (.stop v, s) => (.error (.read, v), s)
    | (.bytes bs _, s) =>
      match outsideRead agent tenant ps s with
      | (.ok rest, s) => (.ok ((bs.drop (ipa - line)).take n ++ rest), s)
      | (.error e, s) => (.error e, s)

/-- An atomic at the home needs r and w before it does anything (R362). -/
def outsideAtomic (agent : Option Nat) (tenant ipa size : Nat) (new : Nat → Option Nat) (s : State) : Option (AccKind × Verdict) × State :=
  match lineCheck s tenant .atomic ipa with
  | .ok _ =>
    match outsideRead agent tenant [(ipa, size)] s with
    | (.error e, s) => (some e, s)
    | (.ok bs, s) =>
      match new (leNat bs) with
      | none => (none, s)
      | some x => outsideWrite agent tenant [(ipa, size)] (natBytes size x) s
  | v => (some (.atomic, v), s)

/-- A wake, a wait or an answer of another package's, in this package's table (R198, R411, R415, R548). -/
def takeWait (tenant : Nat) (r : PortReq) (s : State) : State :=
  match r.op with
  | .wake n => wakeKey tenant r.ipa n s
  | .wait pkg who =>
    (match joinKey (.remote pkg who) s.hub.package tenant r.ipa s with
    | (.token, s) => toPackage tenant pkg r.ipa s
    | (.waits, s) => s
    | (.full, s) => refuseWait tenant s (.remote pkg who))
  | .unwait pkg who => leaveKey (.remote pkg who) tenant r.ipa s
  | .woken who ok => answerAbroad who ok s
  | _ => s

/-- What an atomic of another package's writes for the old value, and its bytes; none for a compare that fails. -/
def atomicOf (r : PortReq) : Option (Nat × (Nat → Option Nat)) :=
  match r.op with
  | .amo op n => some (n, fun old => some (amoNew op (8 * n) old (leNat r.data)))
  | .vamo op => some (4, fun old => some (vamoNew op old (leNat r.data)))
  | .cas new => some (new.length, fun old => if old = leNat r.data then some (leNat new) else none)
  | _ => none

/-- A request of a tenant from outside at the home of a translated aperture. -/
def outsideLines (agent : Option Nat) (tenant : Nat) (r : PortReq) (s : State) : Option (AccKind × Verdict) × State :=
  match r.op with
  | .read n => (match outsideRead agent tenant (linePieces r.ipa n) s with
    | (.error e, s) => (some e, s)
    | (.ok _, s) => (none, s))
  | .write => outsideWrite agent tenant (linePieces r.ipa r.data.length) r.data s
  | _ =>
    match atomicOf r with
    | some (n, new) => outsideAtomic agent tenant r.ipa n new s
    | none => (none, s)

/-- A request of the host, or of a scale-out entry, to bytes of an LM: performed where they lie in a grant of its tenant (R346, R463), at the new core
when theirs is migrating (R345). -/
def outsideLm (tenant d l o : Nat) (r : PortReq) (s : State) : Option (AccKind × Verdict) × State :=
  let put := fun bs : List Byte =>
    if lmRangeGranted s tenant d l o bs.length then smudgeRings d l o bs.length { s with mem := setLm s d l o bs } else s
  if lmAway s d l then (some (.write, .wait), s)
  else match r.op, atomicOf r with
    | .write, _ => (none, put r.data)
    | _, some (n, new) =>
      (match new (leNat (lmBytes s d l o n)) with
      | some x => (none, put (natBytes n x))
      | none => (none, s))
    | _, none => (none, s)

/-- A request of a tenant from outside: a port's is performed in this package's translated aperture alone (R357), and the host's
also in another package's and in an LM (R463); any other place performs none (log entry 80). -/
def outsideAccess (agent : Option Nat) (tenant : Nat) (r : PortReq) (s : State) : Option (AccKind × Verdict) × State :=
  match spotOf s.hub.package r.ipa, agent with
  | .translated _, _ => outsideLines agent tenant r s
  | .remote, some _ => outsideLines agent tenant r s
  | .lm d l o, some _ => outsideLm tenant d l o r s
  | _, _ => (none, s)

/-- A request from outside goes where the home takes it (R536). -/
def takeOutside (agent : Option Nat) (tenant : Nat) (r : PortReq) (i : Instr) (o : Occ) (s : State) : State :=
  match outsideAccess agent tenant r s with
  | (none, s) => s
  | (some (k, v), s) => stopped tenant r.ipa k v i o s

/-- A failed key check (R575): one record per tenant, port and millisecond. -/
def keyMismatch (l : Nat) (r : PortReq) (s : State) : State :=
  let tenant := r.tenant
  let same := fun x : Nat × Nat × Nat => decide (x.1 = tenant) && decide (x.2.1 = l)
  if s.hub.keyLog.any fun x => same x && decide (s.now < x.2.2 + 2400000) then skipRecord s
  else
    let s := s.onHub fun h => { h with keyLog := (tenant, l, s.now) :: h.keyLog.filter fun x => !same x }
    errorRecord (portSrc (some tenant) 0 l 0x0320) r.ipa (dbl tenant) noPkt 0 s

/-- An answer to a waiter of this package, which as a response carries no key (R455). -/
def isAnswer (r : PortReq) : Bool :=
  match r.op with
  | .woken _ _ => true
  | _ => false

/-- A request that has come into the package goes over its links to its home (R457). -/
def comeIn (tenant ipa size : Nat) (hops : List Hop) (i : Instr) (o : Occ) (s : State) : State :=
  sendOn { tenant := tenant, size := max 64 size, issued := s.now, ipa := ipa, hops := hops, what := some (i, { o with ok := false }) } s

/-- PORT_REQUEST (R24, R455, R456): `core` is the link; what passes its port's key check as it arrives is an access of a class-I agent,
or a wait or wake. `ok` is false of one that has passed the port and has come to its home. -/
def execPortRequest (s : State) : Host.Outcome State Fault Refusal :=
  let r := s.occ.req
  .next (if !s.occ.ok then takeOutside none r.tenant r .portRequest s.occ (takeWait r.tenant r s)
    else if isAnswer r || decide ((s.hub.keyEntry r.tenant).map (·.2) = some r.key) then
      comeIn r.tenant r.ipa r.data.length (portWay s.occ.core) .portRequest s.occ s
    else keyMismatch s.occ.core r s)

/-! ## The host (R462, R463, R577) -/

/-- The bytes that a request from outside touches. -/
def reqBytes (r : PortReq) : Nat :=
  match r.op with
  | .read n => n
  | _ => r.data.length

/-- A range cut at the boundaries of 4 KiB pages. -/
def pagePieces (a n : Nat) : List (Nat × Nat) :=
  if n = 0 then []
  else (upFrom (a / 4096) ((a + n - 1) / 4096 - a / 4096 + 1)).map fun p =>
    (max a (p * 4096), min (a + n) (p * 4096 + 4096) - max a (p * 4096))

/-- The IPA of an I/O virtual address of BAR4 (R463); log entry 12. -/
def bar4Ipa (f iova : Nat) : Option Nat := (Config.bar4 f (iova / 4096)).map fun p => p * 4096 + iova % 4096

/-- A host request is performed page by page; where its home stops it, what is left of it is tried again. -/
def takeHost (tenant : Nat) (o : Occ) : List (Nat × Nat) → State → State
  | [], s => s
  | (iova, n) :: ps, s =>
    let r := o.req
    let off := iova - r.ipa
    let part := match r.op with
      | .read _ => { r with ipa := (bar4Ipa o.core iova).getD 0, op := .read n }
      | _ => { r with ipa := (bar4Ipa o.core iova).getD 0, data := (r.data.drop off).take n }
    match outsideAccess (some agentHost) tenant part s with
    | (none, s) => takeHost tenant o ps s
    | (some (k, v), s) =>
      let rest := match r.op with
        | .read m => { r with ipa := iova, op := .read (m - off) }
        | _ => { r with ipa := iova, data := r.data.drop off }
      stopped tenant part.ipa k v .hostBar4Request { o with req := rest } s

/-- HOST_BAR4_REQUEST (R463): `core` is the function, `aux` the PASID, and `req` names the I/O virtual address in the place
of the IPA. It is an access of the class-M agent that the host is (R24), which comes over the host link's socket; one of which the
IOMMU does not translate every page changes no state (R577). `ok` is false of one that has come to its home. -/
def execHostBar4Request (s : State) : Host.Outcome State Fault Refusal :=
  let o := s.occ
  let ps := pagePieces o.req.ipa (reqBytes o.req)
  .next (match Config.ownsPasid o.core o.aux && ps.all (fun x => (bar4Ipa o.core x.1).isSome), s.hub.functionTenant o.core with
    | true, some t =>
      if o.ok then
        let ipa := (bar4Ipa o.core o.req.ipa).getD 0
        comeIn t ipa (reqBytes o.req) [.link 88 true, homeHop s.hub ipa] .hostBar4Request o s
      else takeHost t o ps s
    | _, t => record t 0 9 0xff 0 0x0330 (dbl o.core) noPkt s)

/-! ## Scale-out rings (R459 to R461) -/

/-- A ring by its number. -/
def Hub.ring (h : Hub) (r : Nat) : Option ScaleRing := h.rings.find? fun x => x.ring = r

/-- A ring changed. -/
def modRing (r : Nat) (f : ScaleRing → ScaleRing) (s : State) : State :=
  s.onHub fun h => { h with rings := modWhere (fun x => x.ring = r) f h.rings }

/-- The endpoint table as the hub reads it. -/
def readEndpoints (tenant va : Nat) : Nat → State → Option (List (List Double)) × State
  | 0, s => (some [], s)
  | n + 1, s =>
    match hubDoubles tenant va 4 s with
    | (none, s) => (none, s)
    | (some e, s) =>
      match readEndpoints tenant (va + 32) n s with
      | (some es, s) => (some (e :: es), s)
      | (none, s) => (none, s)

/-- SCALEOUT_REGISTER (R460): `id` is the ring descriptor's IPA. One with a value that the rule does not allow registers
nothing. -/
def execScaleoutRegister (s : State) : Host.Outcome State Fault Refusal :=
  let t := s.occ.tenant
  let desc := s.occ.id
  .next (hubEvent .scaleoutRegister (fun s =>
    let (head, s) := ipaLoad t desc s
    let (base, s) := ipaLoad t (desc + 16) s
    let (cfg, s) := ipaLoad t (desc + 24) s
    let (tab, s) := ipaLoad t (desc + 32) s
    let (cnt, s) := ipaLoad t (desc + 40) s
    match head, base, cfg, tab, cnt with
    | some head, some base, some cfg, some tab, some cnt =>
      let lsz := field cfg 4 0
      let n := field cnt 31 0
      if desc % 64 ≠ 0 ∨ base.toNat % 4096 ≠ 0 ∨ lsz = 0 ∨ 16 < lsz ∨ tab.toNat % 32 ≠ 0 ∨ n = 0 ∨ 65536 < n then s
      else match readEndpoints t tab.toNat n s with
        | (none, s) => s
        | (some es, s) =>
          let runs := ((s.hub.ring (field cfg 47 32)).map (·.running)).getD []
          let r : ScaleRing := { ring := field cfg 47 32, tenant := t, desc := desc, base := base.toNat, lsz := lsz,
                                 endpoints := es, head := head.toNat, running := runs }
          s.onHub fun h => { h with rings := r :: h.rings.filter fun x => x.ring ≠ r.ring }
    | _, _, _, _, _ => s) s)

/-- ctl.done of a CPYL descriptor (R294, R461). -/
def hubDone (tenant desc : Nat) (s : State) : State := hubStore tenant (desc + 88) 1 s

/-- Why the local side of an entry stops: an address that no window maps or that the tenant may not reach (R530), or what the home
makes of a request (R536). -/
inductive LocalStop where
  | fault
  | home (ipa : Nat) (k : AccKind) (v : Verdict)
  deriving DecidableEq, Repr

/-- One piece of the local side of an entry at its home: a get writes the bytes that come from the other package (log entry 8), and a
put or put-add reads those that go there. -/
def localPiece (tenant : Nat) (get : Bool) (ipa n : Nat) (bs : List Byte) (s : State) : Option LocalStop × State :=
  let req : PortReq := { tenant := tenant, key := 0, ipa := ipa, op := if get then .write else .read n, data := if get then bs else [] }
  let asked := fun (x : Option (AccKind × Verdict) × State) => (x.1.map fun (k, v) => LocalStop.home ipa k v, x.2)
  match spotOf s.hub.package ipa with
  | .lm d l o => if lmRangeGranted s tenant d l o n then asked (outsideLm tenant d l o req s) else (some .fault, s)
  | .translated _ | .remote => asked (outsideLines none tenant req s)
  | .host iova => (match hostSpot s tenant iova with
    | none => (some (.home ipa .read (.kill 0x0330 (dbl ((functionOf s.hub tenant).getD 0)))), s)
    | some k => (none, if get then { s with mem := s.mem.setBytes k bs } else s))
  | _ => (some .fault, s)

/-- The local side of an entry's granule, piece by piece. -/
def moveLocal (tenant : Nat) (get : Bool) (free : Nat) : List (Nat × Nat) → State → Option LocalStop × State
  | [], s => (none, s)
  | (va, n) :: ps, s =>
    match windowIpa (tenantWindows s tenant) (if get then .write else .read) va with
    | none => (some .fault, s)
    | some ipa =>
      match localPiece tenant get ipa n ((upFrom va n).map (Config.freeByte free)) s with
      | (some x, s) => (some x, s)
      | (none, s) => moveLocal tenant get free ps s

/-- The local pieces of a tensor's next granule, cut into lines: the destinations of a get, the sources of any other entry. -/
def tensorPieces (x : Tensor) (get : Bool) : List (Nat × Nat) :=
  if x.granules ≤ x.next then []
  else (tensorUnits x x.next).flatMap fun u => u.flatMap fun r =>
    match get, r.2.1 with
    | true, .va a => linePieces a r.2.2
    | true, .weight _ => []
    | false, _ => linePieces r.1 r.2.2

/-- An entry leaves the ring's running ones. -/
def leaveRing (x : ScaleRing) (run : ScaleRun) (s : State) : State :=
  modRing x.ring (fun x => { x with running := x.running.filter fun y => y.k ≠ run.k }) s

/-- An entry moves the local side of its next granule and goes on, or stops with the state of R535: an address that it may not use
ends it with no completion, a kill takes its tenant, and a page that makes it wait holds the event (R530, R536). -/
def withLocal (x : ScaleRing) (run : ScaleRun) (get : Bool) (go : State → State) (s : State) : State :=
  match moveLocal x.tenant get s.free (tensorPieces run.tensor get) { s with free := s.free + 1 } with
  | (none, s) => go s
  | (some .fault, s) => leaveRing x run s
  | (some (.home ipa k v), s) =>
    match v with
    | .kill _ _ => stopped x.tenant ipa k v .scaleoutEntryDone s.occ s
    | _ => noteWait x.tenant ipa k (decide (v = .hold)) s

/-- The next granule of a running entry waits for an Ultra Ethernet port: of a put or put-add its bytes have been read. -/
def sendGranule (x : ScaleRing) (run : ScaleRun) (s : State) : State :=
  let t := run.tensor
  let send := sendOn { tenant := x.tenant, size := max 64 (min 4096 (t.total - 4096 * t.next)), issued := s.now,
                       ipa := (if run.op = 2 then t.src else t.dst) % 2 ^ 46, hops := [.ethernet],
                       what := some (.scaleoutEntryDone, { id := x.ring, aux := run.k }) }
  if run.op = 2 then send s else withLocal x run false send s

/-- A scale-out entry has moved its last granule: ctl.done, the signal and its wake (R461). -/
def finishEntry (x : ScaleRing) (run : ScaleRun) (s : State) : State :=
  let s := hubDone x.tenant run.desc s
  lowerSignal x.tenant run.signal (leaveRing x run s)

/-- A scale-out entry has moved a granule: progress, which never falls, and then the next granule or the entry's end (R296,
R461). -/
def granuleMoved (x : ScaleRing) (run : ScaleRun) (s : State) : State :=
  let t := run.tensor
  let s := if t.next < t.granules then hubStore x.tenant (run.desc + 80) (dbl (t.next + 1)) s else s
  if t.next + 1 < t.granules then
    let run := { run with tensor := { t with next := t.next + 1 } }
    sendGranule x run
      (modRing x.ring (fun x => { x with running := modWhere (fun y => y.k = run.k) (fun _ => run) x.running }) s)
  else finishEntry x run s

/-- An entry that is to run (R461): its descriptor is read, and its first granule is sent. One whose descriptor
cannot be read, or holds a reserved value, stops and completes nothing (R535). -/
def startEntry (x : ScaleRing) (op ep desc signal : Nat) (s : State) : State :=
  match hubDoubles x.tenant desc 12 s with
  | (none, s) => s
  | (some ds, s) =>
    match tensorOf (ds.flatMap fun d => natBytes 8 d.toNat) with
    | none => s
    | some t =>
      let run : ScaleRun := { k := x.head, op := op, desc := desc, signal := signal, endpoint := ep, tensor := t }
      sendGranule x run (modRing x.ring (fun x => { x with running := x.running ++ [run] }) s)

/-- The die consumes the ring's entries in index order, up to one whose header is still 0 (R460, R461): each runs, or is
consumed without running. -/
def consumeRing (r : Nat) : Nat → State → State
  | 0, s => s
  | n + 1, s =>
    match s.hub.ring r with
    | none => s
    | some x =>
      let va := x.base + 32 * (x.head % 2 ^ x.lsz)
      match hubDoubles x.tenant va 3 s with
      | (none, s) => s
      | (some ds, s) =>
        let op := field (nth ds 0 0) 7 0
        let ep := field (nth ds 0 0) 31 16
        let desc := (nth ds 1 0).toNat
        let signal := (nth ds 2 0).toNat
        if op = 0 then s
        else
          let s := hubStore x.tenant va 0 s
          let s := ipaStore x.tenant x.desc (dbl (x.head + 1)) s
          let s := modRing r (fun x => { x with head := x.head + 1 }) s
          consumeRing r n (
            if 4 < op ∨ x.endpoints.length ≤ ep then
              record (some x.tenant) 0 8 11 0 0x0205 (dbl (r % 65536 * 2 ^ 48 + x.head % 2 ^ 48)) noPkt
                (wakeSignal x.tenant signal (hubDone x.tenant desc s))
            else startEntry x op ep desc signal s)

/-- SCALEOUT_DOORBELL (R461): of another tenant it is ignored, as a queue's is (R546). -/
def execScaleoutDoorbell (s : State) : Host.Outcome State Fault Refusal :=
  let o := s.occ
  .next (match s.hub.ring o.id with
    | none => s
    | some x => if writerTenant s.hub o = some x.tenant then hubEvent .scaleoutDoorbell (consumeRing o.id (2 ^ x.lsz)) s else s)

/-- A granule of the entry that the event names has been acknowledged. -/
def entryAdvances (s : State) : State :=
  match s.hub.ring s.occ.id with
  | none => s
  | some x =>
    match x.running.find? fun y => y.k = s.occ.aux with
    | none => s
    | some run => if run.op = 2 then withLocal x run true (granuleMoved x run) s else granuleMoved x run s

/-- SCALEOUT_ENTRY_DONE (R461): entry `aux` of ring `id` has a granule acknowledged, of a get with the bytes that it writes here. -/
def execScaleoutEntryDone (s : State) : Host.Outcome State Fault Refusal := .next (hubEvent .scaleoutEntryDone entryAdvances s)

end Sys2Proof.Machine
end

