-- ==== Sys2Proof/Machine/Registers.lean ====
section
/-! DEFINITION. The hub configuration aperture: what each register reads, the capability list, the error log and the fault
ring as they are read, and what a write does (spec/12_memory_translation.md R358, spec/01_sarvo_package.md R26 to R32,
spec/20_errors_framework.md R490 to R494, spec/22_memory_engine_faults.md R537). -/

namespace Sys2Proof.Machine

/-! ## The capability list (R26 to R31): its entries in the order of their offsets -/

/-- A header double (R27): version 1. -/
def capHeader (next len id : Nat) : Double := dbl (next * 2 ^ 48 + len * 2 ^ 32 + 2 ^ 16 + id)

/-- An update count in bits 63:32 (R31). -/
def capGen (gen x : Nat) : Double := dbl (gen % 2 ^ 32 * 2 ^ 32 + x)

/-- The IPA range that a passenger reports (R30). -/
def capRange (n : Nat) : Nat × Nat :=
  if n < 8 then (dieRegion n, 2 ^ 32) else if 12 ≤ n then (0x200000000000 + (n - 12) * 2 ^ 36, 2 ^ 36) else (0, 0)

/-- The body of a passenger entry (R30): a failed passenger has no range (R558). -/
def capPassenger (h : Hub) (n : Nat) : List Double :=
  let p := h.passenger n
  let capRange := fun n => if p.state = 4 then (0, 0) else capRange n
  [capGen p.gen (p.state * 2 ^ 20 + p.cls * 2 ^ 18 + p.kind * 2 ^ 8 + n), dbl (capRange n).1, dbl (capRange n).2, 0]

/-- The body of a compute-die entry (R31). -/
def capDie (s : State) (d : Nat) : List Double :=
  let e := vget s.hub.dieEntries d { gen := 0, profile := 2, free := 8, failed := 0 }
  let byte := fun l => match (s.dieAt d).physical l with
    | some p => 128 + p
    | none => 0
  capGen e.gen (e.free * 2 ^ 24 + e.failed.toNat * 2 ^ 15 + e.profile * 2 ^ 8 + d) :: 0 ::
    (List.range 8).map fun i => dbl ((List.range 8).foldl (fun n j => n + byte (8 * i + j) * 2 ^ (8 * j)) 0)

/-- Codes of some width packed from bit 0 up. -/
def packCodes (w : Nat) (xs : List Nat) : Nat := (List.zip (List.range xs.length) xs).foldl (fun n x => n + x.2 * 2 ^ (w * x.1)) 0

/-- Every entry's identity and body (R29, R31): the order and the offsets are the model's (log entry 34). The root names the first
partition of the package, whose page-fault mode the memory entry gives, and the enabled virtual functions are those that are bound, function 0 being the physical one (DESIGN
CHOICE, log entry 38). -/
def capEntries (s : State) : List (Nat × List Double) :=
  let h := s.hub
  [(0x0001, [capGen h.lgen (h.partition.id % 2 ^ 16 * 2 ^ 16 + h.package % 2 ^ 10)])] ++
  (List.range 24).map (fun n => (0x0010, capPassenger h n)) ++ (List.range 8).map (fun d => (0x0020, capDie s d)) ++
  [(0x0030, [capGen h.memGen ((if h.partition.demand then 2 ^ 24 else 0) + packCodes 2 h.stackStates.toList), dbl h.ddr,
      dbl h.chan.toNat]),
   (0x0040, [capGen h.ualGen 64, dbl (packCodes 2 (h.lanes.toList.take 32)), dbl (packCodes 2 (h.lanes.toList.drop 32))]),
   (0x0041, [capGen h.ueGen 16, dbl (packCodes 4 h.speeds.toList)]),
   (0x0050, [capGen h.hostGen ((h.functions.filter fun f => f.1 ≠ 0).length % 128 * 2 ^ 16 + h.cxl.toNat * 2 ^ 8 + h.width % 32)])]

/-- Entries laid out from an offset on; the last one's next is 0. -/
def layCaps : Nat → List (Nat × List Double) → List Double
  | _, [] => []
  | at_, (id, body) :: rest =>
    let len := 8 * (body.length + 1)
    capHeader (if rest.isEmpty then 0 else at_ + len) len id :: body ++ layCaps (at_ + len) rest

/-- The capability list as doubles from its base. -/
def capList (s : State) : List Double := layCaps 0 (capEntries s)

/-! ## The error log and the fault ring (R492, R494, R537) -/

/-- Double `j` of a record of the error log. -/
def logDouble (r : ErrRec) (j : Nat) : Double := nth [dbl r.seq, dbl r.time, r.src, dbl r.addr, r.detail, r.pkt] j 0

/-- The record that stands at an index of a ring: of those with that index, the latest. -/
def readLog (h : Hub) (i j : Nat) : Double :=
  match h.log.find? fun r => r.seq % 1024 = i with
  | some r => logDouble r j
  | none => 0

/-- Double `j` of a record of the fault request ring. -/
def faultDouble (f : FaultReq) (j : Nat) : Double :=
  match j with
  | 0 => dbl (f.page % 2 ^ 34 * 2 ^ 12 + f.kind)
  | 1 => dbl (f.pkg % 2 ^ 10 * 2 ^ 16 + f.tenant % 2 ^ 16)
  | 2 => dbl f.waiters.length
  | _ => dbl f.time

/-- The fault request ring: `faults` holds the latest records, newest first, the newest at index FQTAIL − 1. -/
def readFault (h : Hub) (i j : Nat) : Double :=
  match (List.range 256).find? fun b => b < h.fqTail && (h.fqTail - 1 - b) % 256 = i with
  | some b => (h.faults[b]?.map fun f => faultDouble f j).getD 0
  | none => 0

/-! ## What the aperture reads (R358) -/

/-- A register of an array of doubles, with its value where none has been written. -/
def smapReg (m : SMap Double) (i : Nat) (reset : Double) : Double := (SMap.get? m i).getD reset

/-- TFTAIL, TFHEAD, TRES and SVFAIL of a cove (R430, R541). -/
def readCove (v : Cove) : Nat → Double
  | 0 => dbl v.tail
  | 1 => dbl v.head
  | _ => 0

/-- The double at an offset of the aperture (R358): what the table does not name reads 0, as do write-only fields. -/
def hubRead (s : State) (o : Nat) : Double :=
  let h := s.hub
  if o % 8 ≠ 0 then 0
  else if o < 0x10000 then nth (capList s) (o / 8) 0
  else if o = 0x10000 then dbl h.errTail
  else if o = 0x10008 then dbl h.errHead
  else if o = 0x10010 then h.errEpoch.setWidth 64
  else if 0x20000 ≤ o ∧ o < 0x30000 then readLog h ((o - 0x20000) / 64) ((o - 0x20000) % 64 / 8)
  else if o = 0x30000 then dbl h.fqTail
  else if o = 0x30008 then dbl h.fqHead
  else if 0x40000 ≤ o ∧ o < 0x42000 then readFault h ((o - 0x40000) / 32) ((o - 0x40000) % 32 / 8)
  else if o = 0x50000 then h.hptb
  else if o = 0x50008 then (if h.htinvBusy then dbl (2 ^ 63) else 0)
  else if o = 0x50010 then h.tkill
  else if o = 0x50018 then h.qtmo
  else if o = 0x50020 then h.pslew
  else if 0x60000 ≤ o ∧ o < 0x60200 then
    let j := (o - 0x60000) / 32
    (match (o - 0x60000) % 32 / 8 with
    | 0 => vget h.fwBase j 0
    | 1 => vget h.fwLen j 0
    | 2 => vget h.fwScl j 0
    | _ => 0)
  else if 0x70000 ≤ o ∧ o < 0x70080 then vget h.gltab ((o - 0x70000) / 8) 0
  else if 0x80000 ≤ o ∧ o < 0x81200 then smapReg h.clkflr ((o - 0x80000) / 8) 0x1211
  else if 0x90000 ≤ o ∧ o < 0x91200 then tsensOf h ((o - 0x90000) / 8)
  else if 0xa0000 ≤ o ∧ o < 0xa1000 then
    (if (o - 0xa0000) % 16 = 0 then smapReg h.hwkey ((o - 0xa0000) / 16) 0 else smapReg h.hwline ((o - 0xa0000) / 16) 0)
  else if 0xb0000 ≤ o ∧ o < 0xb1f00 then smapReg h.shwt ((o - 0xb0000) / 8) 0x0101010101010101
  else if 0xc0000 ≤ o ∧ o < 0xc4800 then
    let i := (o - 0xc0000) / 256
    if (o - 0xc0000) % 256 < 32 then readCove ((s.dieAt (i / 9)).cove (i % 9)) ((o - 0xc0000) % 256 / 8) else 0
  else if 0x1000000 ≤ o ∧ o < 0x1400000 ∧ (o - 0x1000000) % 64 = 8 then
    ((h.queue ((o - 0x1000000) / 64)).map kickState).getD 0
  else if 0x3000000 ≤ o ∧ o < 0x3004000 then
    let e := (SMap.get? h.keyTable ((o - 0x3000000) / 16)).getD (0, 0)
    if o % 16 = 0 then e.1 else e.2
  else 0

/-! ## Who reaches what (R358) -/

/-- The error-log registers and ring. -/
def inErrorLog (o : Nat) : Bool := (decide (0x10000 ≤ o) && decide (o < 0x10018)) || (decide (0x20000 ≤ o) && decide (o < 0x30000))

/-- The host wait pairs. -/
def inPairs (o : Nat) : Bool := decide (0xa0000 ≤ o) && decide (o < 0xa1000)

/-- An agent reaches an offset (R358, R513): `mine` says that control-die firmware has assigned the pair to the
function. -/
def reaches (a : HubAgent) (mine : Bool) (o : Nat) : Bool :=
  match a with
  | .firmware => true
  | .supervisor d v =>
    decide (o < 0x10000) || inErrorLog o || decide (o = 0x50028) ||
      (decide (0xc0000 + 256 * (9 * d + v) ≤ o) && decide (o < 0xc0000 + 256 * (9 * d + v) + 32))
  | .physicalFunction => decide (o < 0x10000) || inErrorLog o || decide (o = 0x50030) || inPairs o
  | .virtualFunction _ => decide (o < 0x10000) || decide (o = 0x50030) || (inPairs o && mine)
  | .team _ => false

/-- The aperture's offset of an agent's address: a host function's are BAR0 offsets, of which those below 0x1_0000 are reserved
(R26, R358). -/
def apertureOffset (a : HubAgent) (o : Nat) : Option Nat :=
  match a with
  | .physicalFunction | .virtualFunction _ => if o < 0x10000 then none else some (o - 0x10000)
  | _ => some o

/-- What a read answers to an agent: an offset that it does not reach reads 0. -/
def agentRead (a : HubAgent) (mine : Bool) (o : Nat) (s : State) : Double :=
  match apertureOffset a o with
  | some o => if reaches a mine o then hubRead s o else 0
  | none => 0

/-! ## Writes (R358) -/

/-- A register write that has a behaviour of its own becomes its event. -/
def asEvent (s : State) (o : Occ) : Option (Instr × Occ) :=
  let w := o.w
  let x := o.id
  if x = 0x30010 then
    let a : Occ := { o with id := field w 45 12, tenant := field w 61 46 }
    match field w 63 62 with
    | 0 => some (.fresRetry, a)
    | 1 => some (.fresDecline, a)
    | _ => none
  else if x = 0x50028 then some (.svdone, { o with id := w.toNat })
  else if x = 0x50030 then some (.hwake, o)
  else if x = 0x50010 then
    (if w.getLsbD 62 then some (.tkill, { o with tenant := field w 15 0 }) else none)
  else if inPairs x ∧ x % 16 = 0 then some (.hwkeyArm, { o with id := (x - 0xa0000) / 16 })
  else if 0xc0000 ≤ x ∧ x < 0xc4800 then
    let i := (x - 0xc0000) / 256
    let d := i / 9
    let v := i % 9
    match (x - 0xc0000) % 256 / 8 with
    | 2 =>
      match (s.dieAt d).logical (8 * v + field w 2 0) with
      | none => none
      | some l =>
        let a : Occ := { o with team := { die := d, lcore := l, rslot := field w 4 3 }, id := field w 36 5 }
        match field w 63 62 with
        | 0 => some (.tresResume, a)
        | 1 => some (.tresSkip, a)
        | 2 => some (.tresEnd, a)
        | _ => none
    | 3 => some (.svfail, { o with die := d, aux := v })
    | _ => none
  else if 0x1000000 ≤ x ∧ x < 0x1400000 then
    let a : Occ := { o with id := (x - 0x1000000) / 64, aux := 0 }
    match (x - 0x1000000) % 64 with
    | 0 => some (.queueNotify, a)
    | 8 => some (.graphKick, a)
    | _ => none
  else if 0x2000000 ≤ x ∧ x < 0x2400000 ∧ (x - 0x2000000) % 64 = 0 then
    some (.scaleoutDoorbell, { o with id := (x - 0x2000000) / 64 })
  else none

/-- A field of CLKFLRc takes a value that R445 defines, and keeps the old one otherwise (log entry 34). -/
def floorField (old w : Double) (hi lo least : Nat) (x : Double) : Double :=
  let v := field w hi lo
  setField x hi lo (if least ≤ v ∧ v ≤ 8 then v else field old hi lo)

/-- A weight register of a link: a byte of 0 leaves its byte as it is (R457). -/
def weightReg (old w : Double) : Double :=
  (List.range 8).foldl (fun x i =>
    let v := field w (8 * i + 7) (8 * i)
    if v = 0 then x else setField x (8 * i + 7) (8 * i) v) old

/-- The RW fields of a plain register take the value written (R4, R5, R358). -/
def plainWrite (x : Nat) (w : Double) (s : State) : State :=
  let now := s.hub.htinvBusy
  if x = 0x10008 then s.onHub fun h => { h with errHead := w.toNat }
  else if x = 0x30008 then s.onHub fun h => { h with fqHead := w.toNat, faultIrq := decide (w.toNat < h.fqTail) }
  else if x = 0x50000 then s.onHub fun h => { h with hptb := w &&& 0x800003fffffff000 }
  else if x = 0x50008 then
    (if now then s.onHub fun h => { h with htinvQueue := h.htinvQueue ++ [w] }
     else match htinvEvent w with
      | some i => s.next i { w := w }
      | none => s)
  else if x = 0x50010 then s.onHub fun h => { h with tkill := w &&& 0xffff }
  else if x = 0x50018 then s.onHub fun h => { h with qtmo := w &&& 0xffffffffffff }
  else if x = 0x50020 then s.onHub fun h => { h with pslew := w &&& 0xffff }
  else if 0x60000 ≤ x ∧ x < 0x60200 then
    let j := (x - 0x60000) / 32
    s.onHub fun h => match (x - 0x60000) % 32 / 8 with
      | 0 => { h with fwBase := vput h.fwBase j (w &&& 0x87ffffffffffffc0) }
      | 1 => { h with fwLen := vput h.fwLen j (w &&& 0xffffffff) }
      | 2 => { h with fwScl := vput h.fwScl j (w &&& 0xffffffffffffff) }
      | _ => h
  else if 0x70000 ≤ x ∧ x < 0x70080 then
    s.onHub fun h => { h with gltab := vput h.gltab ((x - 0x70000) / 8) (w &&& 0xfffff) }
  else if 0x80000 ≤ x ∧ x < 0x81200 then
    let c := (x - 0x80000) / 8
    let old := floorsOf s (c / 72) (c % 72)
    let new := floorField old w 3 0 1 (floorField old w 7 4 1 (floorField old w 11 8 2 (floorField old w 15 12 1 0)))
    setFloors (c / 72) (c % 72) new s
  else if 0x90000 ≤ x ∧ x < 0x91200 then
    let c := (x - 0x90000) / 8
    let old := tsensOf s.hub c
    let new := setField (setField old 31 24 (field w 31 24)) 23 16 (field w 23 16)
    let new := if w.getLsbD 8 then setField new 8 8 0 else new
    s.onHub fun h => { h with tsens := SMap.insert h.tsens c new }
  else if inPairs x then
    s.onHub fun h => { h with hwline := SMap.insert h.hwline ((x - 0xa0000) / 16) (w &&& 0xfffffffffffc0) }
  else if 0xb0000 ≤ x ∧ x < 0xb1f00 then
    let i := (x - 0xb0000) / 8
    s.onHub fun h => { h with shwt := SMap.insert h.shwt i (weightReg (smapReg h.shwt i 0x0101010101010101) w) }
  else if 0xc0000 ≤ x ∧ x < 0xc4800 ∧ (x - 0xc0000) % 256 = 8 then
    let i := (x - 0xc0000) / 256
    modCove (i / 9) (i % 9) (fun v => { v with head := field w 5 0, irq := v.irq && decide (field w 5 0 ≠ v.tail) }) s
  else if 0x3000000 ≤ x ∧ x < 0x3004000 then
    let i := (x - 0x3000000) / 16
    s.onHub fun h =>
      let e := (SMap.get? h.keyTable i).getD (0, 0)
      { h with keyTable := SMap.insert h.keyTable i (if x % 16 = 0 then (w &&& 0x80000000003fffff, e.2) else (e.1, w)) }
  else s

/-- A write of a register at an offset of the aperture. -/
def apertureWrite (s : State) (o : Occ) : State :=
  match asEvent s o with
  | some (i, a) => s.next i a
  | none => plainWrite o.id o.w s

/-! ## Writes outside the aperture (log entry 39) -/

/-- Firmware's writes of the energy weights (R97), for which the spec gives no address: the weights of core c = 72 d + p, half k, are
named 2^60 + 16 c + 8 k (DESIGN CHOICE, log entry 39). -/
def writeWeights (x : Nat) (w : Double) (s : State) : State :=
  let c := x / 16
  s.modCore (c / 72) (c % 72) fun c => if x % 16 = 0 then { c with ewt0 := w } else { c with ewt1 := w }

/-- A double that a supervisor or a control-die core writes at a local IPA of the physical aperture: firmware moves pages and rewrites
the page table there (R352, R360, R432). It passes no cache: a line that the hub cache holds stays as it is, but for the scales
among its bytes (R164). -/
def physicalWrite (ipa pa : Nat) (w : Double) (s : State) : State :=
  if paExists s.hub pa then
    ({ s with mem := s.mem.setDouble (paKey pa) w } : State).onHub fun h =>
      ((natBytes 8 w.toNat).zip (upFrom ipa 8)).foldl (fun h x => scaleStore x.2 x.1 h) h
  else s

/-- A supervisor reaches the save areas, where the reply slots lie (R432, R437). -/
def inSaveArea (s : State) (ipa : Nat) : Bool := (usedAreas s).any fun a => decide (a ≤ ipa) && decide (ipa + 8 ≤ a + 2883584)

/-- A control-die core's access of a tenant's translated aperture, as the class-M agent that it is (R24, R384): with `aux` 1 a
read. -/
def controlAccess (ipa : Nat) (s : State) : State :=
  let o := s.occ
  let r : PortReq := { tenant := o.tenant, key := 0, ipa := ipa, data := natBytes 8 o.w.toNat,
                       op := if o.aux = 1 then .read 8 else .write }
  takeOutside (some agentControl) o.tenant r .registerWrite o s

/-- A double of an LM of a supervisor's cove lies in the LM grant of a frozen team, which the supervisor reaches in place (R431). -/
def inFrozenGrant (s : State) (d v l off : Nat) : Bool :=
  match (s.dieAt d).physical l with
  | none => false
  | some p => decide (coveOf p = v) && (s.residents d p).any fun r => (s.teamAt r).frozen && ownGrant (s.teamAt r) off 8

/-- The double is written there (R431, R556). -/
def lmWrite (d l off : Nat) (w : Double) (s : State) : State :=
  smudgeRings d l off 8 { s with mem := setLm s d l off (natBytes 8 w.toNat) }

/-- A double written at a local IPA outside the aperture; what the agent does not reach ignores it. -/
def memoryWrite (s : State) : State :=
  let o := s.occ
  let ipa := s.hub.package * 2 ^ 46 + o.id % 2 ^ 46
  match o.agent, localSpot (o.id % 2 ^ 46) with
  | .firmware, .physical pa => physicalWrite ipa pa o.w s
  | .firmware, .translated _ => controlAccess ipa s
  | .supervisor _ _, .physical pa => if inSaveArea s ipa then physicalWrite ipa pa o.w s else s
  | .supervisor d v, .lm d' l off => if d = d' ∧ inFrozenGrant s d v l off then lmWrite d l off o.w s else s
  | _, _ => s

/-- A host-link function's write at an offset of BAR2, named 2^59 + offset (log entry 39): the doorbell of a queue lies at
64 × qid, and the write is its function's tenant's (R391, R453, R462). -/
def bar2Write (s : State) : State :=
  let o := s.occ
  let x := o.id - 2 ^ 59
  match o.agent with
  | .physicalFunction | .virtualFunction _ =>
    if x < 0x400000 then (match asEvent s { o with id := 0x1000000 + x } with
      | some (i, a) => s.next i a
      | none => s)
    else s
  | _ => s

/-- REGISTER_WRITE (R358): a double written by an agent at the offset `id`; an offset that the agent does not reach, or that
the table does not name, ignores it. An `id` of 2^28 or more names a place outside the aperture, and from 2^59 on an offset of
BAR2. -/
def execRegisterWrite (s : State) : Host.Outcome State Fault Refusal :=
  let o := s.occ
  .next (
    if o.id % 8 ≠ 0 then s
    else if o.agent = .firmware ∧ 2 ^ 60 ≤ o.id then writeWeights (o.id - 2 ^ 60) o.w s
    else if 2 ^ 59 ≤ o.id then bar2Write s
    else if 2 ^ 28 ≤ o.id then memoryWrite s
    else match apertureOffset o.agent o.id with
      | some x => if reaches o.agent o.ok x then apertureWrite s { o with id := x } else s
      | none => s)

end Sys2Proof.Machine
end

