-- ==== Sys2Proof/Machine/Scalar.lean ====
section
/-! DEFINITION. The SX slot: scalar integer, floating and predicate operations (spec/07_isa_control_scalar.md R204
to R213, spec/03_core_timing.md R104). -/

namespace Sys2Proof.Machine

/-- An SX operation under a guard, with one result of latency `l` (R115, R74). -/
def sxGuarded (i : Instr) (g : BitVec 3) (width l : Nat) (w : Team → Write) (s : State) : State :=
  slotOp .sx i (guarded .sx g fun s => issue .sx i width [(l, w s.team)] s) s

/-- An SX operation without a guard. -/
def sxPlain (i : Instr) (width l : Nat) (w : Team → Write) (s : State) : State :=
  slotOp .sx i (fun s => issue .sx i width [(l, w s.team)] s) s

/-- A register-form integer operation: exact operands, exact result, wrapped or saturated (R204). -/
def sxInt (i : Instr) (f : RForm) (l : Nat) (op : Int → Int → Int) (s : State) : State :=
  sxGuarded i f.g f.width l
    (fun t => .s f.d (intReg f.signed f.sat f.width (op (f.int (t.rs f.a)) (f.int (t.rs f.b))))) s

/-- A register-form integer operation on the w-bit patterns (R205). -/
def sxBits (i : Instr) (f : RForm) (op : Nat → Nat → Nat) (s : State) : State :=
  sxGuarded i f.g f.width 1
    (fun t => .s f.d (intReg f.signed f.sat f.width (op (f.pattern (t.rs f.a)) (f.pattern (t.rs f.b))))) s

/-- A shift: the amount is s(b) mod w (R205). -/
def sxShift (i : Instr) (f : RForm) (op : Double → Nat → Int) (s : State) : State :=
  sxGuarded i f.g f.width 1
    (fun t => .s f.d (intReg f.signed f.sat f.width (op (t.rs f.a) ((t.rs f.b).toNat % f.width)))) s

/-- An immediate-form operation on 64 bits (R206). -/
def sxImm (i : Instr) (f : IForm) (op : Double → Double) (s : State) : State :=
  sxPlain i 64 1 (fun t => .s f.d (op (t.rs f.a))) s

/-- The quotient rounded toward zero; by zero, all ones (R205). -/
def quot (w : Nat) (x y : Int) : Int := if y = 0 then 2 ^ w - 1 else Int.tdiv x y

/-- The remainder of `quot`; by zero, the dividend (R205). -/
def remainder (x y : Int) : Int := if y = 0 then x else x - y * Int.tdiv x y

/-- Leading zeros of a pattern of `w` bits (R207). -/
def leadingZeros (w x : Nat) : Nat := if x = 0 then w else w - 1 - x.log2

/-- The field of R208: from bit `pos`, `len` bits, ending at bit 63 at the latest. -/
def extField (x : Double) (pos len : Nat) (signed : Bool) : Double :=
  let n := min (pos + len) 64 - pos
  let u := x.toNat / 2 ^ pos % 2 ^ n
  if signed then sextNat n u else dbl u

/-- INS (R208): bits that would lie above bit 63 are dropped. -/
def insField (old x : Double) (pos len : Nat) : Double :=
  let mask : Double := dbl ((2 ^ len - 1) * 2 ^ pos)
  (old &&& ~~~mask) ||| (dbl (x.toNat % 2 ^ len * 2 ^ pos) &&& mask)

/-- ADD (R205). -/
def execAdd (f : RForm) (s : State) : Host.Outcome State Fault Refusal := .next (sxInt (.add f) f 1 (· + ·) s)

/-- SUB (R205). -/
def execSub (f : RForm) (s : State) : Host.Outcome State Fault Refusal := .next (sxInt (.sub f) f 1 (· - ·) s)

/-- MUL (R205). -/
def execMul (f : RForm) (s : State) : Host.Outcome State Fault Refusal := .next (sxInt (.mul f) f 3 (· * ·) s)

/-- MULH (R205). -/
def execMulh (f : RForm) (s : State) : Host.Outcome State Fault Refusal :=
  .next (sxInt (.mulh f) f 3 (fun x y => x * y / 2 ^ f.width) s)

/-- DIV (R205). -/
def execDiv (f : RForm) (s : State) : Host.Outcome State Fault Refusal :=
  .next (sxInt (.div f) f (lat s 22 20) (quot f.width) s)

/-- REM (R205). -/
def execRem (f : RForm) (s : State) : Host.Outcome State Fault Refusal :=
  .next (sxInt (.rem f) f (lat s 22 20) remainder s)

/-- AND (R205). -/
def execAnd (f : RForm) (s : State) : Host.Outcome State Fault Refusal := .next (sxBits (.and f) f (· &&& ·) s)

/-- OR (R205). -/
def execOr (f : RForm) (s : State) : Host.Outcome State Fault Refusal := .next (sxBits (.or f) f (· ||| ·) s)

/-- XOR (R205). -/
def execXor (f : RForm) (s : State) : Host.Outcome State Fault Refusal := .next (sxBits (.xor f) f (· ^^^ ·) s)

/-- SHL (R205). -/
def execShl (f : RForm) (s : State) : Host.Outcome State Fault Refusal :=
  .next (sxShift (.shl f) f (fun x n => f.int x * 2 ^ n) s)

/-- SHR (R205): zeros enter. -/
def execShr (f : RForm) (s : State) : Host.Outcome State Fault Refusal :=
  .next (sxShift (.shr f) f (fun x n => ((f.pattern x / 2 ^ n : Nat) : Int)) s)

/-- SHRA (R205): the operand is read signed whatever sg holds. -/
def execShra (f : RForm) (s : State) : Host.Outcome State Fault Refusal :=
  .next (sxShift (.shra f) f (fun x n => readInt true f.width x.toNat / 2 ^ n) s)

/-- CLZ (R207). -/
def execClz (f : RForm) (s : State) : Host.Outcome State Fault Refusal :=
  .next (sxGuarded (.clz f) f.g f.width 1
    (fun t => .s f.d (dbl (leadingZeros f.width (f.pattern (t.rs f.a))))) s)

/-- POPC (R207). -/
def execPopc (f : RForm) (s : State) : Host.Outcome State Fault Refusal :=
  .next (sxGuarded (.popc f) f.g f.width 1
    (fun t => .s f.d (dbl (popCount (dbl (f.pattern (t.rs f.a)))))) s)

/-- MIN (R205). -/
def execMin (f : RForm) (s : State) : Host.Outcome State Fault Refusal := .next (sxInt (.min f) f 1 min s)

/-- MAX (R205). -/
def execMax (f : RForm) (s : State) : Host.Outcome State Fault Refusal := .next (sxInt (.max f) f 1 max s)

/-- CMP (R207): a write to p0 is discarded (R111). -/
def execCmp (f : RForm) (s : State) : Host.Outcome State Fault Refusal :=
  .next (sxGuarded (.cmp f) f.g f.width 1
    (fun t => .p f.pd (icond f.cond f.width (t.rs f.a).toNat (t.rs f.b).toNat)) s)

/-- CMPI (R207). -/
def execCmpi (f : IForm) (s : State) : Host.Outcome State Fault Refusal :=
  .next (sxPlain (.cmpi f) 64 1
    (fun t => .p (f.d.extractLsb' 0 3) (icond (f.d.extractLsb' 3 3) 64 (t.rs f.a).toNat f.simm.toNat)) s)

/-- SEL (R115, R207): g is the selector, and SEL is never guarded. -/
def execSel (f : RForm) (s : State) : Host.Outcome State Fault Refusal :=
  .next (sxPlain (.sel f) 64 1 (fun t => .s f.d (if t.rp f.g then t.rs f.a else t.rs f.b)) s)

/-- ADDI (R206). -/
def execAddi (f : IForm) (s : State) : Host.Outcome State Fault Refusal :=
  .next (sxImm (.addi f) f (fun x => x + f.simm) s)

/-- ANDI (R206): the immediate is sign-extended. -/
def execAndi (f : IForm) (s : State) : Host.Outcome State Fault Refusal :=
  .next (sxImm (.andi f) f (fun x => x &&& f.simm) s)

/-- ORI (R206): the immediate is zero-extended. -/
def execOri (f : IForm) (s : State) : Host.Outcome State Fault Refusal :=
  .next (sxImm (.ori f) f (fun x => x ||| f.uimm) s)

/-- XORI (R206). -/
def execXori (f : IForm) (s : State) : Host.Outcome State Fault Refusal :=
  .next (sxImm (.xori f) f (fun x => x ^^^ f.uimm) s)

/-- SHLI (R206). -/
def execShli (f : IForm) (s : State) : Host.Outcome State Fault Refusal :=
  .next (sxImm (.shli f) f (fun x => x <<< f.amount) s)

/-- SHRI (R206). -/
def execShri (f : IForm) (s : State) : Host.Outcome State Fault Refusal :=
  .next (sxImm (.shri f) f (fun x => x >>> f.amount) s)

/-- SHRAI (R206). -/
def execShrai (f : IForm) (s : State) : Host.Outcome State Fault Refusal :=
  .next (sxImm (.shrai f) f (fun x => x.sshiftRight f.amount) s)

/-- EXT (R208). -/
def execExt (f : IForm) (s : State) : Host.Outcome State Fault Refusal :=
  .next (sxImm (.ext f) f (fun x => extField x f.pos f.len (f.imm.getLsbD 7)) s)

/-- INS (R208): the other bits of s(d) are kept. -/
def execIns (f : IForm) (s : State) : Host.Outcome State Fault Refusal :=
  .next (sxPlain (.ins f) 64 1 (fun t => .s f.d (insField (t.rs f.d) (t.rs f.a) f.pos f.len)) s)

/-- LI (R116, R208). -/
def execLi (f : LForm) (s : State) : Host.Outcome State Fault Refusal :=
  .next (sxPlain (.li f) 64 1 (fun _ => .s f.d (f.imm.signExtend 64)) s)

/-- LIH (R116, R208): one 16-bit chunk of s(d). -/
def execLih (f : LForm) (s : State) : Host.Outcome State Fault Refusal :=
  .next (sxPlain (.lih f) 64 1
    (fun t => .s f.d (insField (t.rs f.d) (f.imm.setWidth 64) (16 * (f.imm.extractLsb' 16 2).toNat) 16)) s)

/-- A scalar floating operation on two operands, rounding under the mode its field names (R209). -/
def sxFlt (i : Instr) (f : RForm) (l : Nat) (op : FFmt → Rnd → Nat → Nat → Nat) (s : State) : State :=
  sxGuarded i f.g f.ffmt.width l
    (fun t => .s f.d (dbl (op f.ffmt (t.mode f.lo3.toNat) (fltBits f.ffmt (t.rs f.a)) (fltBits f.ffmt (t.rs f.b))))) s

/-- The latency of FDIV and FSQRT in its format (R104). -/
def divRootLat (f : RForm) : Nat := if f.hi2 = 0 then 12 else 18

/-- FADD (R209). -/
def execFadd (f : RForm) (s : State) : Host.Outcome State Fault Refusal := .next (sxFlt (.fadd f) f 4 FFmt.add s)

/-- FSUB (R209). -/
def execFsub (f : RForm) (s : State) : Host.Outcome State Fault Refusal := .next (sxFlt (.fsub f) f 4 FFmt.sub s)

/-- FMUL (R209). -/
def execFmul (f : RForm) (s : State) : Host.Outcome State Fault Refusal := .next (sxFlt (.fmul f) f 4 FFmt.mul s)

/-- FFMA (R209): s(a) × s(b) + s(d) with one rounding. -/
def execFfma (f : RForm) (s : State) : Host.Outcome State Fault Refusal :=
  .next (sxGuarded (.ffma f) f.g f.ffmt.width 4
    (fun t => .s f.d (dbl (f.ffmt.fma (t.mode f.lo3.toNat) (fltBits f.ffmt (t.rs f.a)) (fltBits f.ffmt (t.rs f.b))
      (fltBits f.ffmt (t.rs f.d))))) s)

/-- FDIV (R209). -/
def execFdiv (f : RForm) (s : State) : Host.Outcome State Fault Refusal :=
  .next (sxFlt (.fdiv f) f (divRootLat f) FFmt.div s)

/-- FSQRT (R209). -/
def execFsqrt (f : RForm) (s : State) : Host.Outcome State Fault Refusal :=
  .next (sxFlt (.fsqrt f) f (divRootLat f) (fun g m a _ => g.sqrt m a) s)

/-- FMIN (R153, R210). -/
def execFmin (f : RForm) (s : State) : Host.Outcome State Fault Refusal :=
  .next (sxFlt (.fmin f) f 2 (fun g _ a b => g.min a b) s)

/-- FMAX (R153, R210). -/
def execFmax (f : RForm) (s : State) : Host.Outcome State Fault Refusal :=
  .next (sxFlt (.fmax f) f 2 (fun g _ a b => g.max a b) s)

/-- FCMP (R210). -/
def execFcmp (f : RForm) (s : State) : Host.Outcome State Fault Refusal :=
  .next (sxGuarded (.fcmp f) f.g f.ffmt.width 2
    (fun t => .p f.pd (fcond f.ffmt f.cond (fltBits f.ffmt (t.rs f.a)) (fltBits f.ffmt (t.rs f.b)))) s)

/-- A converted value as an s-register holds it: floating and natural results zero-extended, i32 and i64 signed
(R209, R210). -/
def cvtReg (x : Int) : Double := BitVec.ofInt 64 x

/-- FCVT (R154, R210): destination type in b<5:3>, source type in b<2:0>. -/
def execFcvt (f : RForm) (s : State) : Host.Outcome State Fault Refusal :=
  let dst := cvtType (f.b.extractLsb' 3 3)
  let src := cvtType (f.b.extractLsb' 0 3)
  .next (sxGuarded (.fcvt f) f.g 64 4
    (fun t => .s f.d (cvtReg (convert (t.mode f.lo3.toNat) src dst (t.rs f.a).toNat))) s)

/-- FCLASS (R211). -/
def execFclass (f : RForm) (s : State) : Host.Outcome State Fault Refusal :=
  .next (sxFlt (.fclass f) f 2 (fun g _ a _ => Machine.fclass g a) s)

/-- The sign that FSGN gives (R212). -/
def fsgnSign (op : Nat) (a b : Bool) : Bool :=
  match op with
  | 0 => b
  | 1 => !b
  | _ => a != b

/-- FSGN (R212): the other bits are copied, NaN bits included. -/
def execFsgn (f : RForm) (s : State) : Host.Outcome State Fault Refusal :=
  .next (sxFlt (.fsgn f) f 2
    (fun g _ a b =>
      a % 2 ^ (g.eb + g.fb) + (if fsgnSign (f.fn.extractLsb' 0 2).toNat (g.sign a) (g.sign b) then 2 ^ (g.eb + g.fb)
        else 0)) s)

/-- Predicate logic: fn<0> inverts the b operand (R213). -/
def sxPred (i : Instr) (f : RForm) (op : Bool → Bool → Bool) (s : State) : State :=
  sxGuarded i f.g 1 1 (fun t => .p f.pd (op (t.rp (reg3 f.a)) (t.rp (reg3 f.b) != f.fn.getLsbD 0))) s

/-- PAND (R213). -/
def execPand (f : RForm) (s : State) : Host.Outcome State Fault Refusal := .next (sxPred (.pand f) f (· && ·) s)

/-- POR (R213). -/
def execPor (f : RForm) (s : State) : Host.Outcome State Fault Refusal := .next (sxPred (.por f) f (· || ·) s)

/-- PXOR (R213). -/
def execPxor (f : RForm) (s : State) : Host.Outcome State Fault Refusal := .next (sxPred (.pxor f) f (· != ·) s)

/-- What PMOV writes in each of its forms (R213). -/
def pmovWrite (f : RForm) (t : Team) : Write :=
  match (f.fn.extractLsb' 0 2).toNat with
  | 0 => .p f.pd (t.rp (reg3 f.a))
  | 1 => .p f.pd (t.rs f.a != 0)
  | _ => .s f.d (if t.rp (reg3 f.a) then 1 else 0)

/-- PMOV (R213). -/
def execPmov (f : RForm) (s : State) : Host.Outcome State Fault Refusal :=
  .next (sxGuarded (.pmov f) f.g 1 1 (pmovWrite f) s)

end Sys2Proof.Machine
end

