-- ==== Sys2Proof/Machine/Dispatch.lean ====
section
/-! DEFINITION. What each instruction does: one arm per constructor of `Instr`, one meaning per arm. -/

namespace Sys2Proof.Machine

def exec (i : Instr) (s : State) : Host.Outcome State Fault Refusal :=
  match i with
  | .nop slot => Sys2Proof.Machine.execNop slot s
  | .br off => Sys2Proof.Machine.execBr off s
  | .brc mode reg off => Sys2Proof.Machine.execBrc mode reg off s
  | .brm sense tested active off => Sys2Proof.Machine.execBrm sense tested active off s
  | .call off => Sys2Proof.Machine.execCall off s
  | .jmpr reg link z => Sys2Proof.Machine.execJmpr reg link z s
  | .ret z => Sys2Proof.Machine.execRet z s
  | .loop cf len cnt => Sys2Proof.Machine.execLoop cf len cnt s
  | .rept cf len cnt => Sys2Proof.Machine.execRept cf len cnt s
  | .yield sel b => Sys2Proof.Machine.execYield sel b s
  | .node sel b => Sys2Proof.Machine.execNode sel b s
  | .endTeam z => Sys2Proof.Machine.execEndTeam z s
  | .bara bar z => Sys2Proof.Machine.execBara bar z s
  | .barw bar z => Sys2Proof.Machine.execBarw bar z s
  | .barc bar cnt z => Sys2Proof.Machine.execBarc bar cnt z s
  | .waitx ev t => Sys2Proof.Machine.execWaitx ev t s
  | .clkdiv dom dv z => Sys2Proof.Machine.execClkdiv dom dv z s
  | .pwrq level z => Sys2Proof.Machine.execPwrq level z s
  | .svc num => Sys2Proof.Machine.execSvc num s
  | .brk code => Sys2Proof.Machine.execBrk code s
  | .wwait reg t => Sys2Proof.Machine.execWwait reg t s
  | .wwake reg n => Sys2Proof.Machine.execWwake reg n s
  | .refw group z => Sys2Proof.Machine.execRefw group z s
  | .add f => Sys2Proof.Machine.execAdd f s
  | .sub f => Sys2Proof.Machine.execSub f s
  | .mul f => Sys2Proof.Machine.execMul f s
  | .mulh f => Sys2Proof.Machine.execMulh f s
  | .div f => Sys2Proof.Machine.execDiv f s
  | .rem f => Sys2Proof.Machine.execRem f s
  | .and f => Sys2Proof.Machine.execAnd f s
  | .or f => Sys2Proof.Machine.execOr f s
  | .xor f => Sys2Proof.Machine.execXor f s
  | .shl f => Sys2Proof.Machine.execShl f s
  | .shr f => Sys2Proof.Machine.execShr f s
  | .shra f => Sys2Proof.Machine.execShra f s
  | .clz f => Sys2Proof.Machine.execClz f s
  | .popc f => Sys2Proof.Machine.execPopc f s
  | .min f => Sys2Proof.Machine.execMin f s
  | .max f => Sys2Proof.Machine.execMax f s
  | .cmp f => Sys2Proof.Machine.execCmp f s
  | .cmpi f => Sys2Proof.Machine.execCmpi f s
  | .sel f => Sys2Proof.Machine.execSel f s
  | .addi f => Sys2Proof.Machine.execAddi f s
  | .andi f => Sys2Proof.Machine.execAndi f s
  | .ori f => Sys2Proof.Machine.execOri f s
  | .xori f => Sys2Proof.Machine.execXori f s
  | .shli f => Sys2Proof.Machine.execShli f s
  | .shri f => Sys2Proof.Machine.execShri f s
  | .shrai f => Sys2Proof.Machine.execShrai f s
  | .ext f => Sys2Proof.Machine.execExt f s
  | .ins f => Sys2Proof.Machine.execIns f s
  | .li f => Sys2Proof.Machine.execLi f s
  | .lih f => Sys2Proof.Machine.execLih f s
  | .fadd f => Sys2Proof.Machine.execFadd f s
  | .fsub f => Sys2Proof.Machine.execFsub f s
  | .fmul f => Sys2Proof.Machine.execFmul f s
  | .ffma f => Sys2Proof.Machine.execFfma f s
  | .fdiv f => Sys2Proof.Machine.execFdiv f s
  | .fsqrt f => Sys2Proof.Machine.execFsqrt f s
  | .fmin f => Sys2Proof.Machine.execFmin f s
  | .fmax f => Sys2Proof.Machine.execFmax f s
  | .fcmp f => Sys2Proof.Machine.execFcmp f s
  | .fcvt f => Sys2Proof.Machine.execFcvt f s
  | .fclass f => Sys2Proof.Machine.execFclass f s
  | .fsgn f => Sys2Proof.Machine.execFsgn f s
  | .pand f => Sys2Proof.Machine.execPand f s
  | .por f => Sys2Proof.Machine.execPor f s
  | .pxor f => Sys2Proof.Machine.execPxor f s
  | .pmov f => Sys2Proof.Machine.execPmov f s
  | .amov f => Sys2Proof.Machine.execAmov f s
  | .aget f => Sys2Proof.Machine.execAget f s
  | .aadd f => Sys2Proof.Machine.execAadd f s
  | .aaddi f => Sys2Proof.Machine.execAaddi f s
  | .dset f => Sys2Proof.Machine.execDset f s
  | .dget f => Sys2Proof.Machine.execDget f s
  | .lea f => Sys2Proof.Machine.execLea f s
  | .csrr f => Sys2Proof.Machine.execCsrr f s
  | .csrw f => Sys2Proof.Machine.execCsrw f s
  | .fence f => Sys2Proof.Machine.execFence f s
  | .xfence f => Sys2Proof.Machine.execXfence f s
  | .phase f => Sys2Proof.Machine.execPhase f s
  | .launch f => Sys2Proof.Machine.execLaunch f s
  | .pref f => Sys2Proof.Machine.execPref f s
  | .relw f => Sys2Proof.Machine.execRelw f s
  | .ld f => Sys2Proof.Machine.execLd f s
  | .st f => Sys2Proof.Machine.execSt f s
  | .ldv f => Sys2Proof.Machine.execLdv f s
  | .stv f => Sys2Proof.Machine.execStv f s
  | .ldvs f => Sys2Proof.Machine.execLdvs f s
  | .stvs f => Sys2Proof.Machine.execStvs f s
  | .ldvg f => Sys2Proof.Machine.execLdvg f s
  | .stvx f => Sys2Proof.Machine.execStvx f s
  | .lda f => Sys2Proof.Machine.execLda f s
  | .stl f => Sys2Proof.Machine.execStl f s
  | .amo f => Sys2Proof.Machine.execAmo f s
  | .cas f => Sys2Proof.Machine.execCas f s
  | .vamo f => Sys2Proof.Machine.execVamo f s
  | .cwb f => Sys2Proof.Machine.execCwb f s
  | .cinv f => Sys2Proof.Machine.execCinv f s
  | .cflush f => Sys2Proof.Machine.execCflush f s
  | .rput f => Sys2Proof.Machine.execRput f s
  | .rget f => Sys2Proof.Machine.execRget f s
  | .rfree f => Sys2Proof.Machine.execRfree f s
  | .ldsc f => Sys2Proof.Machine.execLdsc f s
  | .vadd f => Sys2Proof.Machine.execVadd f s
  | .vsub f => Sys2Proof.Machine.execVsub f s
  | .vmul f => Sys2Proof.Machine.execVmul f s
  | .vfma f => Sys2Proof.Machine.execVfma f s
  | .vmin f => Sys2Proof.Machine.execVmin f s
  | .vmax f => Sys2Proof.Machine.execVmax f s
  | .vabs f => Sys2Proof.Machine.execVabs f s
  | .vand f => Sys2Proof.Machine.execVand f s
  | .vor f => Sys2Proof.Machine.execVor f s
  | .vxor f => Sys2Proof.Machine.execVxor f s
  | .vshl f => Sys2Proof.Machine.execVshl f s
  | .vshr f => Sys2Proof.Machine.execVshr f s
  | .vshra f => Sys2Proof.Machine.execVshra f s
  | .vcmp f => Sys2Proof.Machine.execVcmp f s
  | .vsel f => Sys2Proof.Machine.execVsel f s
  | .vcvt f => Sys2Proof.Machine.execVcvt f s
  | .vpack f => Sys2Proof.Machine.execVpack f s
  | .vunpk f => Sys2Proof.Machine.execVunpk f s
  | .vred f => Sys2Proof.Machine.execVred f s
  | .vscan f => Sys2Proof.Machine.execVscan f s
  | .vperm f => Sys2Proof.Machine.execVperm f s
  | .vshuf f => Sys2Proof.Machine.execVshuf f s
  | .vbcast f => Sys2Proof.Machine.execVbcast f s
  | .vext f => Sys2Proof.Machine.execVext f s
  | .vins f => Sys2Proof.Machine.execVins f s
  | .viota f => Sys2Proof.Machine.execViota f s
  | .vrcp f => Sys2Proof.Machine.execVrcp f s
  | .vrsq f => Sys2Proof.Machine.execVrsq f s
  | .vexp2 f => Sys2Proof.Machine.execVexp2 f s
  | .vlog2 f => Sys2Proof.Machine.execVlog2 f s
  | .vdot f => Sys2Proof.Machine.execVdot f s
  | .mand f => Sys2Proof.Machine.execMand f s
  | .mor f => Sys2Proof.Machine.execMor f s
  | .mxor f => Sys2Proof.Machine.execMxor f s
  | .mnot f => Sys2Proof.Machine.execMnot f s
  | .mpop f => Sys2Proof.Machine.execMpop f s
  | .mfirst f => Sys2Proof.Machine.execMfirst f s
  | .vhold f => Sys2Proof.Machine.execVhold f s
  | .mma f => Sys2Proof.Machine.execMma f s
  | .mldb f => Sys2Proof.Machine.execMldb f s
  | .mrel f => Sys2Proof.Machine.execMrel f s
  | .mzero f => Sys2Proof.Machine.execMzero f s
  | .mrd f => Sys2Proof.Machine.execMrd f s
  | .mwr f => Sys2Proof.Machine.execMwr f s
  | .mstz f => Sys2Proof.Machine.execMstz f s
  | .mldz f => Sys2Proof.Machine.execMldz f s
  | .mscl f => Sys2Proof.Machine.execMscl f s
  | .rzero f => Sys2Proof.Machine.execRzero f s
  | .rfeed f => Sys2Proof.Machine.execRfeed f s
  | .rfeedl f => Sys2Proof.Machine.execRfeedl f s
  | .rqapp f => Sys2Proof.Machine.execRqapp f s
  | .rread f => Sys2Proof.Machine.execRread f s
  | .rreadSt f => Sys2Proof.Machine.execRreadSt f s
  | .rrhs f => Sys2Proof.Machine.execRrhs f s
  | .rrhsSt f => Sys2Proof.Machine.execRrhsSt f s
  | .rsolve f => Sys2Proof.Machine.execRsolve f s
  | .rlay f => Sys2Proof.Machine.execRlay f s
  | .rlayi f => Sys2Proof.Machine.execRlayi f s
  | .rvec f => Sys2Proof.Machine.execRvec f s
  | .angc f => Sys2Proof.Machine.execAngc f s
  | .rgain f => Sys2Proof.Machine.execRgain f s
  | .rgainTri f => Sys2Proof.Machine.execRgainTri f s
  | .cpy f => Sys2Proof.Machine.execCpy f s
  | .cpy2 f => Sys2Proof.Machine.execCpy2 f s
  | .cpyl f => Sys2Proof.Machine.execCpyl f s
  | .cpyg f => Sys2Proof.Machine.execCpyg f s
  | .cpyr f => Sys2Proof.Machine.execCpyr f s
  | .rinit f => Sys2Proof.Machine.execRinit f s
  | .wsld f => Sys2Proof.Machine.execWsld f s
  | .shoal f => Sys2Proof.Machine.execShoal f s
  | .tide f => Sys2Proof.Machine.execTide f s
  | .tideq f => Sys2Proof.Machine.execTideq f s
  | .reefLd f => Sys2Proof.Machine.execReefLd f s
  | .reefSt f => Sys2Proof.Machine.execReefSt f s
  | .reefWake f => Sys2Proof.Machine.execReefWake f s
  | .reefClr f => Sys2Proof.Machine.execReefClr f s
  | .ctxi f => Sys2Proof.Machine.execCtxi f s
  | .cnop => Sys2Proof.Machine.execCnop s
  | .cadd f => Sys2Proof.Machine.execCadd f s
  | .csub f => Sys2Proof.Machine.execCsub f s
  | .cmul f => Sys2Proof.Machine.execCmul f s
  | .cfma d a b t => Sys2Proof.Machine.execCfma d a b t s
  | .cmin f => Sys2Proof.Machine.execCmin f s
  | .cmax f => Sys2Proof.Machine.execCmax f s
  | .cand d a b im k => Sys2Proof.Machine.execCand d a b im k s
  | .cor d a b im k => Sys2Proof.Machine.execCor d a b im k s
  | .cxor d a b im k => Sys2Proof.Machine.execCxor d a b im k s
  | .cshl d a b im k => Sys2Proof.Machine.execCshl d a b im k s
  | .cshr d a b im k => Sys2Proof.Machine.execCshr d a b im k s
  | .cli d t k => Sys2Proof.Machine.execCli d t k s
  | .cmov d a => Sys2Proof.Machine.execCmov d a s
  | .ccmp f => Sys2Proof.Machine.execCcmp f s
  | .cbr c t => Sys2Proof.Machine.execCbr c t s
  | .cj t => Sys2Proof.Machine.execCj t s
  | .cldn d n => Sys2Proof.Machine.execCldn d n s
  | .clde d a n => Sys2Proof.Machine.execClde d a n s
  | .cste a => Sys2Proof.Machine.execCste a s
  | .cwake n => Sys2Proof.Machine.execCwake n s
  | .cwait c => Sys2Proof.Machine.execCwait c s
  | .csleep => Sys2Proof.Machine.execCsleep s
  | .cdone => Sys2Proof.Machine.execCdone s
  | .cemit a t o => Sys2Proof.Machine.execCemit a t o s
  | .catom d a t o => Sys2Proof.Machine.execCatom d a t o s
  | .ccvt d a v => Sys2Proof.Machine.execCcvt d a v s
  | .unassignedOpcode slot w => Sys2Proof.Machine.execUnassignedOpcode slot w s
  | .resultLands => Sys2Proof.Machine.execResultLands s
  | .variableOpComplete => Sys2Proof.Machine.execVariableOpComplete s
  | .writeAcknowledge => Sys2Proof.Machine.execWriteAcknowledge s
  | .sBundleComplete => Sys2Proof.Machine.execSBundleComplete s
  | .wBundleComplete => Sys2Proof.Machine.execWBundleComplete s
  | .energyWindowEnd => Sys2Proof.Machine.execEnergyWindowEnd s
  | .barrierArrival => Sys2Proof.Machine.execBarrierArrival s
  | .clusterStart => Sys2Proof.Machine.execClusterStart s
  | .budgetOverrun => Sys2Proof.Machine.execBudgetOverrun s
  | .waitxTimeout => Sys2Proof.Machine.execWaitxTimeout s
  | .wwaitTimeout => Sys2Proof.Machine.execWwaitTimeout s
  | .copyComplete => Sys2Proof.Machine.execCopyComplete s
  | .cpylProgress => Sys2Proof.Machine.execCpylProgress s
  | .mmaWrite => Sys2Proof.Machine.execMmaWrite s
  | .tideChunkLoad => Sys2Proof.Machine.execTideChunkLoad s
  | .chunkCommit => Sys2Proof.Machine.execChunkCommit s
  | .sweepPause => Sys2Proof.Machine.execSweepPause s
  | .tideEnd => Sys2Proof.Machine.execTideEnd s
  | .refreshWindowStart => Sys2Proof.Machine.execRefreshWindowStart s
  | .refreshWindowEnd => Sys2Proof.Machine.execRefreshWindowEnd s
  | .fetchFault => Sys2Proof.Machine.execFetchFault s
  | .deferredTrap => Sys2Proof.Machine.execDeferredTrap s
  | .demandFaultNotice => Sys2Proof.Machine.execDemandFaultNotice s
  | .tresResume => Sys2Proof.Machine.execTresResume s
  | .tresSkip => Sys2Proof.Machine.execTresSkip s
  | .tresEnd => Sys2Proof.Machine.execTresEnd s
  | .svdone => Sys2Proof.Machine.execSvdone s
  | .boundarySave => Sys2Proof.Machine.execBoundarySave s
  | .clusterRestore => Sys2Proof.Machine.execClusterRestore s
  | .thermalTrip => Sys2Proof.Machine.execThermalTrip s
  | .migrationMove => Sys2Proof.Machine.execMigrationMove s
  | .sensorReading => Sys2Proof.Machine.execSensorReading s
  | .regrant => Sys2Proof.Machine.execRegrant s
  | .coveGate => Sys2Proof.Machine.execCoveGate s
  | .coveWakeRequest => Sys2Proof.Machine.execCoveWakeRequest s
  | .coveWakeGrant => Sys2Proof.Machine.execCoveWakeGrant s
  | .coveUsable => Sys2Proof.Machine.execCoveUsable s
  | .covePowerupFail => Sys2Proof.Machine.execCovePowerupFail s
  | .homeRequest => Sys2Proof.Machine.execHomeRequest s
  | .fresRetry => Sys2Proof.Machine.execFresRetry s
  | .fresDecline => Sys2Proof.Machine.execFresDecline s
  | .faultRequestTimeout => Sys2Proof.Machine.execFaultRequestTimeout s
  | .htinvPage => Sys2Proof.Machine.execHtinvPage s
  | .htinvTenant => Sys2Proof.Machine.execHtinvTenant s
  | .htinvAll => Sys2Proof.Machine.execHtinvAll s
  | .htinvDone => Sys2Proof.Machine.execHtinvDone s
  | .regionMerge => Sys2Proof.Machine.execRegionMerge s
  | .queueRegister => Sys2Proof.Machine.execQueueRegister s
  | .queueNotify => Sys2Proof.Machine.execQueueNotify s
  | .graphKick => Sys2Proof.Machine.execGraphKick s
  | .packetStart => Sys2Proof.Machine.execPacketStart s
  | .packetRetire => Sys2Proof.Machine.execPacketRetire s
  | .hdrTimeout => Sys2Proof.Machine.execHdrTimeout s
  | .depTimeout => Sys2Proof.Machine.execDepTimeout s
  | .runTimeout => Sys2Proof.Machine.execRunTimeout s
  | .depFallbackPoll => Sys2Proof.Machine.execDepFallbackPoll s
  | .workingSetTimeout => Sys2Proof.Machine.execWorkingSetTimeout s
  | .tkill => Sys2Proof.Machine.execTkill s
  | .hwkeyArm => Sys2Proof.Machine.execHwkeyArm s
  | .hwake => Sys2Proof.Machine.execHwake s
  | .svfail => Sys2Proof.Machine.execSvfail s
  | .dieProbe => Sys2Proof.Machine.execDieProbe s
  | .ucieLinkDown => Sys2Proof.Machine.execUcieLinkDown s
  | .dieResetDone => Sys2Proof.Machine.execDieResetDone s
  | .passengerEnumerate => Sys2Proof.Machine.execPassengerEnumerate s
  | .passengerIsolate => Sys2Proof.Machine.execPassengerIsolate s
  | .controlDieCrash => Sys2Proof.Machine.execControlDieCrash s
  | .laneFail => Sys2Proof.Machine.execLaneFail s
  | .portDown => Sys2Proof.Machine.execPortDown s
  | .remoteRequestTimeout => Sys2Proof.Machine.execRemoteRequestTimeout s
  | .portRequest => Sys2Proof.Machine.execPortRequest s
  | .keyFailureResponse => Sys2Proof.Machine.execKeyFailureResponse s
  | .flitCrcFail => Sys2Proof.Machine.execFlitCrcFail s
  | .hostBar4Request => Sys2Proof.Machine.execHostBar4Request s
  | .scaleoutRegister => Sys2Proof.Machine.execScaleoutRegister s
  | .scaleoutDoorbell => Sys2Proof.Machine.execScaleoutDoorbell s
  | .scaleoutEntryDone => Sys2Proof.Machine.execScaleoutEntryDone s
  | .checkCodeError => Sys2Proof.Machine.execCheckCodeError s
  | .packageReset => Sys2Proof.Machine.execPackageReset s
  | .bootImageOffer => Sys2Proof.Machine.execBootImageOffer s
  | .registerWrite => Sys2Proof.Machine.execRegisterWrite s
  | .tileFetchLineArrival => Sys2Proof.Machine.execTileFetchLineArrival s
  | .workingSetAnswer => Sys2Proof.Machine.execWorkingSetAnswer s
  | .portTrained => Sys2Proof.Machine.execPortTrained s

end Sys2Proof.Machine
end

