-- ==== Sys2Proof/Machine/Step.lean ====
section
/-! DEFINITION. One step of the machine: the next turn of the running reference cycle, or the start of the next cycle. -/

namespace Sys2Proof.Machine

/-- The step of a package that has stopped serving requests (outcome 5 of R486): time goes on, a package reset is served,
and nothing else is; with no reset to come the machine stops. -/
def stoppedStep (s : State) : Host.Outcome State Fault Refusal :=
  match s.agenda with
  | .event .packageReset o :: rest => exec .packageReset { s with occ := o, agenda := rest }
  | _ :: rest => .next { s with agenda := rest }
  | [] => if s.timers.any fun x => decide (x.2.1 = .packageReset) then .next (newCycle s) else .fault .packageFatal

/-- One step: the next turn of the reference cycle, which may have the machine perform one instruction; with no turn left,
the next reference cycle begins. -/
def step (s : State) : Host.Outcome State Fault Refusal :=
  if s.hub.fatal then stoppedStep s
  else match s.agenda with
    | [] => .next (newCycle s)
    | t :: rest =>
      match prepare t { s with agenda := rest } with
      | (s, none) => .next s
      | (s, some i) => exec i s

/-- A shoal of one i32 element whose code is one word. -/
def placedShoal : Shoal := { cfg := 0, plane := 0, edge := 0, code := 0, desc := 0, invalid := false }

/-- A context that runs from word 0. -/
def placedRunner : Runner :=
  { elem := 0, w0 := ctxWord 1 0 0 0, e0 := 0, e1 := 0, e2 := 0, ev := 0, cp := false, cpc := 0, ops := 0, active := true,
    ste := none }

/-- The machine with a context word as what its next step fetches and runs: the words that the opcode table gives bits are
those of context code, which the sweep engine fetches from the context-code store while a chunk of a tide runs (R318,
R326). Log entry 13 says how a program comes to run from reset. -/
def State.withFetchWord (s : State) (_nbits w : Nat) : State :=
  let sweep := { Sweep.idle with phase := .run, team := s.team.ref, runners := [placedRunner] }
  { s with agenda := [.sweep s.core.die s.core.pcore],
           hub := { s.hub with fatal := false },
           core := { s.core with base := Vector.replicate 4 s.now, stalled := false, sweep := sweep,
                                 shoals := vput s.core.shoals 0 (some placedShoal), code := [(0, BitVec.ofNat 32 w)],
                                 codeEpoch := 0 } }

end Sys2Proof.Machine
end

