-- ==== Sys2Proof/Safety.lean ====
section
/-! DEFINITION. What counts as a safe run: one in which every step answers a next state. The machine has one fault, that of a
package which has stopped serving requests with no reset to come (R486), and no instruction is refused. -/

namespace Sys2Proof.Machine

/-- The step answers a next state. -/
def Steps (s : State) : Prop := ∃ t, step s = .next t

/-- The next state holds a property whenever there is one. -/
def Keeps (P : State → Prop) : Prop := ∀ s t, P s → step s = .next t → P t

/-- A package that still serves requests (R486). -/
def Serving (s : State) : Prop := s.hub.fatal = false

end Sys2Proof.Machine
end

