-- ==== Sys2Proof/Certificates/Slice0/Obligations.lean ====
section
/-! DEFINITION. The statements for the provers. `Sys2Proof.Claims` holds what they are stated with: the value of an operand,
the result that a rule gives, what an operation leaves unchanged, and the parts of the statements that have several. -/

set_option linter.unusedVariables false

namespace Sys2Proof.Claims

open Machine

/-! ## What issuing and passing change -/

/-- Room for so many more results in flight (R422). -/
def Room (s : State) (n : Nat) : Prop := s.team.flight.length + n ≤ 64

/-- The operation holds no reserved value (R498) and its guard is true (R115). -/
def Ready (i : Instr) (g : BitVec 3) (s : State) : Prop :=
  i.wf = true ∧ s.team.rp g = true ∧ Room s 1

/-- The state in which slot `j` has passed its position with these results put in flight: no register, no byte of memory
and nothing else of the machine is changed. -/
def issued (j : Slot) (s : State) (ls : List Landing) : State :=
  { s with team := ({ s.team with flight := s.team.flight ++ ls }).pass1 j }

/-- A result in flight, with its latency. -/
def result (j : Slot) (i : Instr) (s : State) (width lat : Nat) (w : Write) : Landing :=
  { slot := j, domain := slotDomain j, pos := s.team.passed j, rem := lat, write := w,
    energy := some (64 * slotNum j + ((encode i).getD 0).toNat / 2 ^ 26, width) }

/-- The operation issues from slot `j` with one result: its register, its value as `v` says, its latency. -/
def Yields (j : Slot) (i : Instr) (s : State) (width lat : Nat) (w : Double → Write) (v : Double → Prop) : Prop :=
  ∃ x, v x ∧ exec i s = .next (issued j s [result j i s width lat (w x)])

/-- The operation issues from slot `j` with one predicate result. -/
def Decides (j : Slot) (i : Instr) (s : State) (width lat : Nat) (n : BitVec 3) (b : Bool) : Prop :=
  exec i s = .next (issued j s [result j i s width lat (.p n b)])

/-- The state in which slot `j` has passed its position with no result: the operation retires, and its energy joins ECNT
(R441). -/
def retired (j : Slot) (i : Instr) (s : State) (width : Nat) : State :=
  { s with team := ({ s.team with
      ecnt := s.team.ecnt + BitVec.ofNat 64 (Config.energy (64 * slotNum j + ((encode i).getD 0).toNat / 2 ^ 26) width
        (s.core.divisor (slotDomain j))) }).pass1 j }

/-- The state in which an operation of the matrix or the rotation array of fixed latency is among those in flight (R422), with what
its array entry would hold (R424): the source as it was at issue, and the MX cycles left. -/
def tracked (j : Slot) (i : Instr) (src : VReg) (lat : Nat) (s : State) : State :=
  { s with
    fresh := s.fresh + 1
    core := { s.core with fixed := s.core.fixed ++
      [{ id := s.fresh, team := s.team.ref, slot := j, pos := s.team.passed j, word := (encode i).getD 0, aBase := 0, src := src,
         rem := lat, age := 0 }] } }

/-- Slot `j` holds at its position (R71): it issues nothing, and no position, register or byte changes. -/
def held (j : Slot) (s : State) : State :=
  { s with team := { s.team with holding := vput s.team.holding (slotNum j) true } }

/-- A trap of slot `j` at its position, not yet frozen. -/
def trapAt (t : Team) (j : Slot) (cause addr : Nat) (word : Word32) : TrapSt :=
  { slot := j, pos := t.passed j, cause := cause, addr := addr, word := word, frozen := false, q := 0, pmask := 0,
    bpc := 0, slr := 0, dly := false, target := 0, seq := 0, deferred := false, answered := false, loop := none }

/-- Slot `j` raises a trap at its position: nothing but the team's pending trap changes (R416, R418). -/
def raised (j : Slot) (cause addr : Nat) (word : Word32) (s : State) : State :=
  { s with team := { s.team with trap := some (trapAt s.team j cause addr word) } }

/-- The operation of slot `j` raises a cause with no other effect. -/
def Raises (j : Slot) (i : Instr) (s : State) (cause addr : Nat) : Prop :=
  exec i s = .next (raised j cause addr ((encode i).getD 0) s)

/-! ## Integer operands and results (R204) -/

/-- The width of an integer form. -/
def iw (f : RForm) : Nat := 64 >>> f.hi2.toNat

/-- The operand as the exact integer that R204 reads. -/
def operand (f : RForm) (x : Double) : Int :=
  if f.fn.getLsbD 2 then ((x.setWidth (iw f)).toNat : Int) else (x.setWidth (iw f)).toInt

/-- The least and the greatest value of the result's format. -/
def least (f : RForm) : Int := if f.fn.getLsbD 2 then 0 else -2 ^ (iw f - 1)
@[inherit_doc least] def greatest (f : RForm) : Int := if f.fn.getLsbD 2 then 2 ^ iw f - 1 else 2 ^ (iw f - 1) - 1

/-- `x` holds the exact value `e` narrowed to the format: saturated with st, and otherwise the one value of the format that
is congruent to it. -/
def Narrowed (f : RForm) (e : Int) (x : Double) : Prop :=
  if f.fn.getLsbD 1 then x = BitVec.ofInt 64 (max (least f) (min e (greatest f)))
  else ∃ r : Int, least f ≤ r ∧ r ≤ greatest f ∧ (2 ^ iw f : Int) ∣ e - r ∧ x = BitVec.ofInt 64 r

/-- `x` holds a pattern of the form's width, extended as sg says. -/
def Extended (f : RForm) (p : BitVec (iw f)) (x : Double) : Prop :=
  x = if f.fn.getLsbD 2 then p.setWidth 64 else p.signExtend 64

/-- The team's writes that a scope still counts (R184): the field of RELC that covers it. -/
def Unacknowledged (s : State) (scope : BitVec 3) : List PendingWrite :=
  s.team.writes.filter fun w =>
    if scope = 0 then w.core else if scope ≤ 2 then w.die else if scope = 3 then w.pkg else w.sys

/-- The registers of a team that instructions name, the program's counters apart. -/
def regs (t : Team) : Team :=
  { Team.reset t.ref with
      s := t.s, a := t.a, d := t.d, p := t.p, m := t.m, v := t.v, tsw := t.tsw, tid := t.tid, cid := t.cid, lmg := t.lmg,
      lcnt := t.lcnt, yls := t.yls, nsm := t.nsm, vwin := t.vwin }

/-- Every register that instructions name is the same in two teams. -/
def SameRegs (t u : Team) : Prop := regs t = regs u

/-- The registers of `t` with one of them written: `w`'s destination and no other holds a new value, and s0, p0 and m0
discard it (R111). -/
def RegsWith (w : Write) (t u : Team) : Prop := regs u = regs (t.write w)

/-- A resident slot's die, core and team are in the foreground. -/
def Foreground (s : State) (r : TeamRef) : Prop :=
  s.die.num = r.die ∧ s.core.die = r.die ∧ s.core.pcore = s.coreOf r ∧ s.team.ref = r

/-- The team's registers are the same, and slot `j` has passed one position. -/
def Passed (j : Slot) (s t : State) : Prop := t.team.passed j = s.team.passed j + 1

end Sys2Proof.Claims

section

open Sys2Proof Sys2Proof.Claims Sys2Proof.Machine

namespace Sys2Proof.Claims

open Machine

/-- The quotient of R205. -/
def quotient (f : RForm) (x y : Int) : Int := if y = 0 then 2 ^ iw f - 1 else x.tdiv y

/-- The remainder of R205. -/
def rest (x y : Int) : Int := if y = 0 then x else x - y * x.tdiv y

/-- A register-form integer operation whose exact result is `op` of its operands, with its latency. -/
def Integral (i : RForm → Instr) (lat : State → Nat) (op : RForm → Int → Int → Int) : Prop :=
  ∀ (f : RForm) (s : State), Ready (i f) f.g s →
    Yields .sx (i f) s (iw f) (lat s) (.s f.d)
      (Narrowed f (op f (operand f (s.team.rs f.a)) (operand f (s.team.rs f.b))))

end Sys2Proof.Claims

namespace Sys2Proof.Claims

open Machine

/-- The w-bit pattern of an operand. -/
def pattern (f : RForm) (x : Double) : BitVec (iw f) := x.setWidth (iw f)

/-- A register-form operation on w-bit patterns, extended as sg says. -/
def Bitwise (i : RForm → Instr) (op : (f : RForm) → BitVec (iw f) → BitVec (iw f) → BitVec (iw f)) : Prop :=
  ∀ (f : RForm) (s : State), Ready (i f) f.g s →
    Yields .sx (i f) s (iw f) 1 (.s f.d)
      (Extended f (op f (pattern f (s.team.rs f.a)) (pattern f (s.team.rs f.b))))

/-- The condition icond of CMP on two patterns (R112). -/
def Compares {w : Nat} (c : BitVec 3) (x y : BitVec w) : Bool :=
  if c = 0 then x == y
  else if c = 1 then x != y
  else if c = 2 then x.slt y
  else if c = 3 then !x.slt y
  else if c = 4 then x.ult y
  else if c = 5 then !x.ult y
  else x &&& y != 0#w

end Sys2Proof.Claims

/-- R206, R208, R116: the immediate forms act on 64 bits with no guard; EXT, INS, LI and LIH bit by bit. -/
def Obligations.ScalarImmediates : Prop :=
  ∀ (f : IForm) (l : LForm) (s : State), Room s 1 →
    let a := s.team.rs f.a
    let yields := fun i d v => Instr.wf i = true → Yields .sx i s 64 1 (.s d) v
    yields (.addi f) f.d (fun x => x = a + f.imm.signExtend 64) ∧
    yields (.andi f) f.d (fun x => x = a &&& f.imm.signExtend 64) ∧
    yields (.ori f) f.d (fun x => x = a ||| f.imm.setWidth 64) ∧
    yields (.xori f) f.d (fun x => x = a ^^^ f.imm.setWidth 64) ∧
    yields (.shli f) f.d (fun x => x = a <<< f.imm.toNat) ∧
    yields (.shri f) f.d (fun x => x = a >>> f.imm.toNat) ∧
    yields (.shrai f) f.d (fun x => x = a.sshiftRight f.imm.toNat) ∧
    yields (.ext f) f.d (fun x => ∀ k, k < 64 →
      let pos := (f.imm.extractLsb' 8 6).toNat
      let top := min 63 (pos + (f.imm.extractLsb' 0 6).toNat)
      x.getLsbD k = if pos + k ≤ top then a.getLsbD (pos + k) else f.imm.getLsbD 7 && a.getLsbD top) ∧
    yields (.ins f) f.d (fun x => ∀ k, k < 64 →
      let pos := (f.imm.extractLsb' 8 6).toNat
      let len := (f.imm.extractLsb' 0 6).toNat + 1
      x.getLsbD k = if pos ≤ k ∧ k < pos + len then a.getLsbD (k - pos) else (s.team.rs f.d).getLsbD k) ∧
    yields (.li l) l.d (fun x => x = l.imm.signExtend 64) ∧
    yields (.lih l) l.d (fun x => ∀ k, k < 64 →
      let chunk := (l.imm.extractLsb' 16 2).toNat
      x.getLsbD k = if k / 16 = chunk then l.imm.getLsbD (k % 16) else (s.team.rs l.d).getLsbD k)

/-- R204, R205 with the latencies of R104, R205, R207 with R111, R112, R115: Scalar integer arithmetic, logic, shifts,
counts, compares and select: the results, latencies and frame of R204, R205 and R207. -/
def Obligations.ScalarArithmeticAndLogic : Prop :=
  (Integral .add (fun _ => 1) (fun _ x y => x + y) ∧
   Integral .sub (fun _ => 1) (fun _ x y => x - y) ∧
   Integral .mul (fun _ => 3) (fun _ x y => x * y) ∧
   Integral .mulh (fun _ => 3) (fun f x y => x * y / 2 ^ iw f) ∧
   Integral .div (fun s => lat s 22 20) quotient ∧
   Integral .rem (fun s => lat s 22 20) (fun _ x y => rest x y) ∧
   Integral .min (fun _ => 1) (fun _ x y => min x y) ∧
   Integral .max (fun _ => 1) (fun _ x y => max x y)) ∧
  (Bitwise .and (fun _ x y => x &&& y) ∧ Bitwise .or (fun _ x y => x ||| y) ∧ Bitwise .xor (fun _ x y => x ^^^ y) ∧
   Bitwise .shl (fun f x y => x <<< (y.toNat % iw f)) ∧ Bitwise .shr (fun f x y => x >>> (y.toNat % iw f)) ∧
   Bitwise .shra (fun f x y => x.sshiftRight (y.toNat % iw f))) ∧
  ((∀ (f : RForm) (s : State), Ready (.clz f) f.g s →
     Yields .sx (.clz f) s (iw f) 1 (.s f.d) fun x =>
       x.toNat ≤ iw f ∧ (∀ k, iw f - x.toNat ≤ k → (pattern f (s.team.rs f.a)).getLsbD k = false) ∧
         (x.toNat < iw f → (pattern f (s.team.rs f.a)).getLsbD (iw f - x.toNat - 1) = true)) ∧
   (∀ (f : RForm) (s : State), Ready (.popc f) f.g s →
     Yields .sx (.popc f) s (iw f) 1 (.s f.d) fun x =>
       x.toNat = (List.range (iw f)).countP fun k => (s.team.rs f.a).getLsbD k) ∧
   (∀ (f : RForm) (s : State), Ready (.cmp f) f.g s →
     Decides .sx (.cmp f) s (iw f) 1 (f.d.extractLsb' 0 3)
       (Compares (f.d.extractLsb' 3 3) (pattern f (s.team.rs f.a)) (pattern f (s.team.rs f.b)))) ∧
   (∀ (f : IForm) (s : State), (Instr.cmpi f).wf = true → Room s 1 →
     Decides .sx (.cmpi f) s 64 1 (f.d.extractLsb' 0 3)
       (Compares (f.d.extractLsb' 3 3) (s.team.rs f.a) (f.imm.signExtend 64))) ∧
   (∀ (f : RForm) (s : State), (Instr.sel f).wf = true → Room s 1 →
     Yields .sx (.sel f) s 64 1 (.s f.d) fun x =>
       x = if s.team.rp f.g then s.team.rs f.a else s.team.rs f.b))

namespace Sys2Proof.Claims

open Machine

/-- The rounding mode that a code names: code 0 names the team mode of TSW bits 2:0 (R112, R149, R180). -/
def modeOf (s : State) (rm : BitVec 3) : Rnd :=
  let c := if rm = 0 then s.team.tsw.extractLsb' 0 3 else rm
  if c = 2 then .tz else if c = 3 then .up else if c = 4 then .dn else .ne

/-- The operand of a scalar floating form: the low bits of its s-register (R209). -/
def single (x : Double) : Nat := (x.extractLsb' 0 32).toNat

/-- A scalar floating operation in its two formats, f32 of fn<4:3> 0 and f64 of 1: the result is zero-extended, and its
latency is the one of its format. -/
def Floating (i : RForm → Instr) (l32 l64 : Nat) (op : FFmt → Rnd → Nat → Nat → Nat → Nat) : Prop :=
  ∀ (f : RForm) (s : State), Ready (i f) f.g s →
    let a := s.team.rs f.a
    let b := s.team.rs f.b
    let d := s.team.rs f.d
    let m := modeOf s f.lo3
    (f.hi2 = 0 → Yields .sx (i f) s 32 l32 (.s f.d) fun x => x = BitVec.ofNat 64 (op f32 m (single a) (single b) (single d))) ∧
    (f.hi2 = 1 → Yields .sx (i f) s 64 l64 (.s f.d) fun x => x = BitVec.ofNat 64 (op f64 m a.toNat b.toNat d.toNat))

/-- A conversion type of FCVT (R112): its format, or its signedness and width. -/
def typeOf (c : BitVec 3) : CvtType :=
  if c = 0 then .flt f32 else if c = 1 then .flt f64 else if c = 2 then .flt f16 else if c = 3 then .flt bf16
  else .int (c == 4 || c == 5) (if c = 4 ∨ c = 6 then 32 else 64)

/-- fcond (R112, R153) on two operands. -/
def FCompares (f : FFmt) (c : BitVec 3) (a b : Nat) : Bool :=
  if f.isNan a || f.isNan b then c == 1 || c == 4
  else if c = 0 then f.key a == f.key b
  else if c = 1 then f.key a != f.key b
  else if c = 2 then f.key a < f.key b
  else if c = 3 then f.key a ≤ f.key b
  else false

/-- The sign that FSGN gives from those of its operands (R212). -/
def signOf (op : BitVec 3) (a b : Bool) : Bool := if op = 0 then b else if op = 1 then !b else a ^^ b

end Sys2Proof.Claims

/-- R209 to R212 with the latencies of R104: the scalar floating operations. -/
def Obligations.ScalarFloating : Prop :=
  Floating .fadd 4 4 (fun f m a b _ => f.add m a b) ∧ Floating .fsub 4 4 (fun f m a b _ => f.sub m a b) ∧
  Floating .fmul 4 4 (fun f m a b _ => f.mul m a b) ∧ Floating .ffma 4 4 (fun f m a b d => f.fma m a b d) ∧
  Floating .fdiv 12 18 (fun f m a b _ => f.div m a b) ∧ Floating .fsqrt 12 18 (fun f m a _ _ => f.sqrt m a) ∧
  Floating .fmin 2 2 (fun f _ a b _ => f.min a b) ∧ Floating .fmax 2 2 (fun f _ a b _ => f.max a b) ∧
  Floating .fclass 2 2 (fun f _ a _ _ => fclass f a) ∧
  (∀ (f : RForm) (s : State), Ready (.fsgn f) f.g s →
    let a := s.team.rs f.a
    let b := s.team.rs f.b
    (f.hi2 = 0 → Yields .sx (.fsgn f) s 32 2 (.s f.d) fun x =>
      x = (BitVec.ofBool (signOf f.lo3 (a.getLsbD 31) (b.getLsbD 31)) ++ a.extractLsb' 0 31).setWidth 64) ∧
    (f.hi2 = 1 → Yields .sx (.fsgn f) s 64 2 (.s f.d) fun x =>
      x = BitVec.ofBool (signOf f.lo3 (a.getLsbD 63) (b.getLsbD 63)) ++ a.extractLsb' 0 63)) ∧
  (∀ (f : RForm) (s : State), Ready (.fcmp f) f.g s →
    let a := s.team.rs f.a
    let b := s.team.rs f.b
    (f.hi2 = 0 → Decides .sx (.fcmp f) s 32 2 (f.d.extractLsb' 0 3)
      (FCompares f32 (f.d.extractLsb' 3 3) (single a) (single b))) ∧
    (f.hi2 = 1 → Decides .sx (.fcmp f) s 64 2 (f.d.extractLsb' 0 3) (FCompares f64 (f.d.extractLsb' 3 3) a.toNat b.toNat))) ∧
  (∀ (f : RForm) (s : State), Ready (.fcvt f) f.g s →
    Yields .sx (.fcvt f) s 64 4 (.s f.d) fun x =>
      x = BitVec.ofInt 64 (convert (modeOf s f.lo3) (typeOf (f.b.extractLsb' 0 3)) (typeOf (f.b.extractLsb' 3 3))
        (s.team.rs f.a).toNat))

/-- R213, R111: predicate logic and the three forms of PMOV; p0 reads as true. -/
def Obligations.ScalarPredicates : Prop :=
  ∀ (f : RForm) (s : State),
    let p := fun n : BitVec 6 => s.team.rp (n.extractLsb' 0 3)
    let b := if f.fn.getLsbD 0 then !p f.b else p f.b
    let pd := f.d.extractLsb' 0 3
    (Ready (.pand f) f.g s → Decides .sx (.pand f) s 1 1 pd (p f.a && b)) ∧
    (Ready (.por f) f.g s → Decides .sx (.por f) s 1 1 pd (p f.a || b)) ∧
    (Ready (.pxor f) f.g s → Decides .sx (.pxor f) s 1 1 pd (p f.a ^^ b)) ∧
    (Ready (.pmov f) f.g s →
      (f.lo3 = 0 → Decides .sx (.pmov f) s 1 1 pd (p f.a)) ∧
      (f.lo3 = 1 → Decides .sx (.pmov f) s 1 1 pd (s.team.rs f.a ≠ 0)) ∧
      (f.lo3 = 2 → Yields .sx (.pmov f) s 1 1 (.s f.d) fun x => x = if p f.a then 1 else 0))

namespace Sys2Proof.Claims

open Machine

/-- The team-visible system registers and what a CSRR reads of them (R178), `q` being the bundle of the AD slot's
position. -/
def systemRegisters (s : State) (q : Placed) : List (BitVec 12 × Double) :=
  [(0x000, s.team.tsw), (0x001, s.team.slr), (0x002, BitVec.ofNat 64 q.bpc), (0x003, s.team.tid), (0x004, s.team.cid),
   (0x005, s.team.lmg), (0x006, q.lcnt.setWidth 64), (0x008, s.team.yls[0]), (0x009, s.team.yls[1]),
   (0x00a, s.team.yls[2]), (0x00b, s.team.yls[3]), (0x00c, s.team.nsm[0]), (0x00d, s.team.nsm[1]),
   (0x00e, s.team.nsm[2]), (0x00f, s.team.nsm[3]), (0x010, s.team.relcReg), (0x011, s.team.ecnt),
   (0x018, BitVec.ofNat 64 (s.core.wsum % 2 ^ 20 * 2 ^ 32 + s.core.grant % 2 ^ 20)), (0x019, s.core.ewt0),
   (0x01a, s.core.ewt1), (0x01b, s.core.clkd), (0x020, l2split s.die s.team.cluster), (0x021, refcal s.hub),
   (0x030, s.team.vwin[0]), (0x031, s.team.vwin[1]), (0x032, s.team.vwin[2]), (0x033, s.team.vwin[3]),
   (0x034, s.team.vwin[4]), (0x035, s.team.vwin[5]), (0x036, s.team.vwin[6]), (0x037, s.team.vwin[7])]

/-- The number in bits 19:8 of the word. -/
def csrOf (f : RForm) : BitVec 12 := f.a ++ f.b

/-- The registers that R178 lets a team write: TSW, YLS0 to YLS3 and NSM0 to NSM3. -/
def Writable (n : BitVec 12) : Prop := n = 0 ∨ 8 ≤ n.toNat ∧ n.toNat ≤ 15

end Sys2Proof.Claims

/-- R214 with R104: the address moves; each has latency 1. -/
def Obligations.AddressMoves : Prop :=
  ∀ (f : RForm) (m : IForm) (s : State),
    let a := fun n : BitVec 6 => s.team.ra (n.extractLsb' 0 4)
    let moves := fun i w v => Ready i f.g s → Yields .ad i s 64 1 w fun x => x = v
    moves (.amov f) (.a (f.d.extractLsb' 0 4)) (s.team.rs f.a) ∧
    moves (.aget f) (.s f.d) (a f.a) ∧
    moves (.aadd f) (.a (f.d.extractLsb' 0 4)) (a f.a + s.team.rs f.b) ∧
    moves (.dset f) (.d (f.d.extractLsb' 0 4)) (s.team.rs f.a) ∧
    moves (.dget f) (.s f.d) (s.team.rd (f.a.extractLsb' 0 4)) ∧
    moves (.lea f) (.s f.d) (a f.a + s.team.rs f.b <<< f.lo3.toNat) ∧
    ((Instr.aaddi m).wf = true → Room s 1 →
      Yields .ad (.aaddi m) s 64 1 (.a (m.d.extractLsb' 0 4)) fun x => x = a m.a + m.imm.signExtend 64)

/-- R178, R179, R501, R178 to R180, R501: CSRR reads every system register of the table; CSRW writes one and no other;
what is not listed or read-only raises 0x0011. -/
def Obligations.SystemRegisters : Prop :=
  (∀ (f : RForm) (s : State) (q : Placed), (Instr.csrr f).wf = true →
     s.team.placedAt (s.team.passed .ad) = some q →
     (∀ x, (csrOf f, x) ∈ systemRegisters s q → s.team.rp f.g = true → Room s 1 →
       Yields .ad (.csrr f) s 64 1 (.s f.d) fun y => y = x) ∧
     (s.team.trap = none → (∀ x, (csrOf f, x) ∉ systemRegisters s q) → Raises .ad (.csrr f) s 0x0011 0)) ∧
  (∀ (f : RForm) (s : State), (Instr.csrw f).wf = true →
     let n := csrOf f
     let x := s.team.rs f.d
     let rm := x.extractLsb' 0 3
     let bad := n = 0 ∧ (rm = 0 ∨ 4 < rm)
     (s.team.rp f.g = true → Room s 1 → Writable n → ¬ bad →
       exec (.csrw f) s = .next (issued .ad s [result .ad (.csrw f) s 64 1 (.csr n x)])) ∧
     (s.team.trap = none → ¬ Writable n → Raises .ad (.csrw f) s 0x0011 0) ∧
     (s.team.trap = none → s.team.rp f.g = true → bad → Raises .ad (.csrw f) s 0x0011 0) ∧
     (∀ t : Team, ∃ u, t.write (.csr n x) = u ∧
       u = { t with tsw := u.tsw, yls := u.yls, nsm := u.nsm } ∧
       (n ≠ 0 → u.tsw = t.tsw) ∧
       (n = 0 → u.tsw.extractLsb' 0 3 = rm ∧ u.tsw.getLsbD 8 = (t.tsw.getLsbD 8 && !x.getLsbD 8) ∧
         ∀ k, 3 ≤ k → k ≠ 8 → u.tsw.getLsbD k = t.tsw.getLsbD k) ∧
       (∀ j : Fin 4, u.yls[j] = if n.toNat = 8 + j then x else t.yls[j]) ∧
       (∀ j : Fin 4, u.nsm[j] = if n.toNat = 12 + j then x else t.nsm[j])))

namespace Sys2Proof.Claims

open Machine

/-- A load of the ls path up to the AD slot's position has not returned. -/
def LoadsOut (s : State) : Prop :=
  ∃ a ∈ s.team.vars, a.path = .ls ∧ a.op.variable = true ∧ a.pos ≤ s.team.passed .ad

/-- A store of the ls path up to the AD slot's position has not been performed. -/
def StoresOut (s : State) : Prop :=
  ∃ a ∈ s.team.vars, a.path = .ls ∧ a.wid.isSome = true ∧ a.op.isWriteback = false ∧ a.phase ≠ .performed ∧
    a.pos ≤ s.team.passed .ad

/-- How many writes the field of RELC that covers a scope counts (R184). -/
def Counted (s : State) (scope : BitVec 3) : Nat := ((Unacknowledged s scope).map (·.count)).sum

/-- The state after the end of a fence: one that covers stores makes the team's later AMOs and CASs at its scope releases (R380),
and after one that covers loads, an acquire, copies from before now are stale for the team (R379). -/
def fenced (scope : BitVec 3) (st acq : Bool) (s : State) : State :=
  { s with team := { s.team with
      fenceSet := none, fenceSent := false,
      relScopes := if st && !s.team.relScopes.contains scope then scope :: s.team.relScopes else s.team.relScopes,
      acqDie := if acq && scope != 0 then s.now + 1 else s.team.acqDie,
      acqPkg := if acq && 3 ≤ scope.toNat then s.now + 1 else s.team.acqPkg } }

/-- No line of the core's L1D is dirty, and at a scope that writes the die's L2 back no line of it is (R378). -/
def NothingToWriteBack (s : State) (scope : BitVec 3) : Prop :=
  scope = 0 ∨ (∀ l ∈ s.core.l1d, l.isDirty = false) ∧ (3 ≤ scope.toNat → ∀ l ∈ (s.dieAt s.core.die).l2, l.isDirty = false)

/-- What XFENCE waits for on each path that it names (R217). -/
def PathsDone (f : RForm) (s : State) : Prop :=
  s.team.othersDone = true ∧
  (f.b.getLsbD 0 = true → lsDone s.team (s.team.passed .ad) = true) ∧
  (f.b.getLsbD 1 = true → fetchesDone s.core s.team (s.team.passed .ad) = true) ∧
  (f.b.getLsbD 2 = true → copiesDone s.core s.team.ref (s.team.passed .ad) = true) ∧
  (f.b.getLsbD 3 = true → sweepStill s.core s.team.ref (s.team.passed .ad) = true)

end Sys2Proof.Claims

/-- R221: PREF is a hint: in every state, whatever its address, its slot passes its position; it changes no register, no byte
and no state of a path, and it raises nothing. -/
def Obligations.PrefetchIsAHint : Prop :=
  ∀ (f : RForm) (s : State), (Instr.pref f).wf = true →
    (s.team.rp f.g = true → exec (.pref f) s = .next (retired .ad (.pref f) s 64)) ∧
    (s.team.rp f.g = false → exec (.pref f) s = .next { s with team := s.team.pass1 .ad })

/-- R220, R79, R225, R526: LAUNCH leaves its slot with its destination unspecified and one more write in RELC, and waits for
its claim at the home; an address that fails its check raises its cause. -/
def Obligations.LaunchIssues : Prop :=
  ∀ (f : RForm) (s : State), (Instr.launch f).wf = true → s.team.rp f.g = true →
    let desc := (s.team.rs f.a).toNat
    let src := (s.team.rs f.b).toNat
    (∀ ps, launchParts s desc src = .ok ps → ∃ t a, exec (.launch f) s = .next t ∧
      t.team.passed .ad = s.team.passed .ad + 1 ∧ (∃ x, RegsWith (.s f.d x) s.team t.team) ∧ t.mem = s.mem ∧
      t.team.vars = s.team.vars ++ [a] ∧ a.op = .launch f.d desc src ∧ a.parts = ps ∧ a.phase = .pending ∧
      (Unacknowledged t 3).length = (Unacknowledged s 3).length + 1) ∧
    (∀ c va, launchParts s desc src = .error (c, va) → s.team.trap = none → Raises .ad (.launch f) s c va)

/-- R218, R216, R378, R380, R71, R217, R219, R185: FENCE, RELW and XFENCE hold until what they wait for, and then change only
what they make stale; a FENCE that covers stores waits for the writes that its scope counts as it comes to its position, then for
the write-backs that it makes, and makes later AMOs and CASs at its scope releases. PHASE grants its share. -/
def Obligations.FencesAndPhase : Prop :=
  (∀ (f : RForm) (s : State), s.team.rp f.g = true →
     ((Instr.relw f).wf = true →
       (s.team.othersDone = true → Counted s f.lo3 = 0 → exec (.relw f) s = .next (retired .ad (.relw f) s 64)) ∧
       (s.team.othersDone = false ∨ Counted s f.lo3 ≠ 0 → exec (.relw f) s = .next (held .ad s))) ∧
     ((Instr.fence f).wf = true →
       (s.team.othersDone = false → exec (.fence f) s = .next (held .ad s)) ∧
       (s.team.othersDone = true → f.hi2 = 1 → ¬ LoadsOut s →
         exec (.fence f) s = .next (retired .ad (.fence f) (fenced f.lo3 false true s) 64)) ∧
       (s.team.othersDone = true → f.hi2 = 1 → LoadsOut s → exec (.fence f) s = .next (held .ad s)) ∧
       (s.team.othersDone = true → f.hi2 ≠ 1 → s.team.fenceSet = none → ¬ StoresOut s → Unacknowledged s f.lo3 = [] →
         NothingToWriteBack s f.lo3 → (f.hi2 = 0 → ¬ LoadsOut s) →
         exec (.fence f) s = .next (retired .ad (.fence f) (fenced f.lo3 true (f.hi2 == 0) s) 64)) ∧
       (s.team.othersDone = true → f.hi2 ≠ 1 → s.team.fenceSet = none → s.team.fenceSent = false →
         StoresOut s ∨ Unacknowledged s f.lo3 ≠ [] → exec (.fence f) s = .next (held .ad { s with team := { s.team with
           fenceSet := some ((Unacknowledged s f.lo3).map (·.id)) } })) ∧
       (∀ ids, s.team.othersDone = true → f.hi2 ≠ 1 → s.team.fenceSet = some ids → s.team.fenceSent = false →
         StoresOut s ∨ (∃ w ∈ Unacknowledged s f.lo3, w.id ∈ ids) → exec (.fence f) s = .next (held .ad s)) ∧
       (∀ ids, s.team.othersDone = true → f.hi2 ≠ 1 → s.team.fenceSet = some ids → s.team.fenceSent = true →
         (∀ w ∈ Unacknowledged s f.lo3, w.id ∉ ids) → (f.hi2 = 0 → ¬ LoadsOut s) →
         exec (.fence f) s = .next (retired .ad (.fence f) (fenced f.lo3 true (f.hi2 == 0) s) 64)) ∧
       (∀ ids, s.team.othersDone = true → f.hi2 ≠ 1 → s.team.fenceSet = some ids → s.team.fenceSent = true →
         (∃ w ∈ Unacknowledged s f.lo3, w.id ∈ ids) ∨ f.hi2 = 0 ∧ LoadsOut s →
         exec (.fence f) s = .next (held .ad s)))) ∧
  (∀ (f : RForm) (s : State), s.team.rp f.g = true → (Instr.xfence f).wf = true →
     (PathsDone f s → ∃ t, exec (.xfence f) s = .next t ∧
       t.team.passed .ad = s.team.passed .ad + 1 ∧ SameRegs s.team t.team ∧ t.team.trap = s.team.trap ∧
       t.team.acqDie = (if f.b.getLsbD 0 then s.now + 1 else s.team.acqDie) ∧
       (∀ l ∈ t.core.l1d, l.isDirty = false)) ∧
     (PathsDone f s → (∀ l ∈ s.core.l1d, l.isDirty = false) → f.b.getLsbD 0 = false →
       exec (.xfence f) s = .next (retired .ad (.xfence f) s 64)) ∧
     (¬ PathsDone f s → exec (.xfence f) s = .next (held .ad s))) ∧
  (∀ (f : RForm) (s : State), Ready (.phase f) f.g s → s.die.num = s.team.ref.die →
     let c := s.team.cluster
     let others := ((s.die.staging.filter fun x => x.cluster ≠ c).map fun x => x.epochs.length).sum
     let had := (s.die.stage c).epochs.length
     let share := min f.b.toNat (8 - others)
     let moved := max had share - min had share
     (s.team.phaseEnd = none → ∃ t, exec (.phase f) s = .next t ∧
       (t.die.stage c).epochs.length = share ∧ (t.die.stage c).req = f.b.toNat ∧
       (∀ c', c' ≠ c → t.die.stage c' = s.die.stage c') ∧
       (moved = 0 → t.team.passed .ad = s.team.passed .ad + 1) ∧
       (moved ≠ 0 → t.team.passed .ad = s.team.passed .ad ∧
         ∃ w, t.team.phaseEnd = some w ∧ w ≤ s.now + 8192 * moved * s.core.divisor .core)) ∧
     (∀ w, s.team.phaseEnd = some w → w ≤ s.now → draining s.die = false →
       exec (.phase f) s = .next (retired .ad (.phase f) { s with team := { s.team with phaseEnd := none } } 64)) ∧
     (∀ w, s.team.phaseEnd = some w → s.now < w ∨ draining s.die = true → exec (.phase f) s = .next (held .ad s)))

namespace Sys2Proof.Claims

open Machine

/-! ## The core's own LM -/

/-- The address is byte `off` of the issuing core's own LM (R344, R345), and `size` bytes from it lie in one LM grant of the
tenant, naturally aligned (R224, R346, R526). -/
def OwnLm (s : State) (va : Double) (size off : Nat) : Prop :=
  va.toNat = 0x00ffffffffe00000 + off ∧ off + size ≤ 2 ^ 21 ∧ off % size = 0 ∧
  lmRangeGranted s s.team.tenant s.team.ref.die s.team.ref.lcore off size = true

/-- The acting team's die and core are one of the package and stand in the foreground, no acquire of the team is out (R233), no
LAUNCH of it waits at an earlier position (R369), and none of its accesses is still to be performed (R231, R366). -/
def Quiet (s : State) : Prop :=
  s.team.ref.die < 8 ∧ s.team.ref.lcore < 64 ∧ Foreground s s.team.ref ∧ acquiring s.team = false ∧
  s.team.launchAhead (s.team.passed .ls) = false ∧ ∀ b ∈ s.team.vars, b.phase = .performed

/-- A byte of the acting team's own LM. -/
def ownByte (s : State) (o : Nat) : Byte :=
  s.mem.byte (lmKey s.team.ref.die s.team.ref.lcore o) ^^^ lmMask s s.team.ref.die s.team.ref.lcore o

/-- A little-endian number (R3). -/
def number : List Byte → Nat
  | [] => 0
  | b :: t => b.toNat + 256 * number t

/-- The number of `n` bytes at an offset of a byte image. -/
def peek (img : Nat → Byte) (off n : Nat) : Nat := number ((List.range n).map fun i => img (off + i))

/-- A byte image with the low `n` bytes of a number written at an offset. -/
def poke (img : Nat → Byte) (off n x : Nat) : Nat → Byte :=
  fun o => if off ≤ o ∧ o < off + n then BitVec.ofNat 8 (x / 256 ^ (o - off)) else img o

/-- The acting team's own LM holds `img` after the operation, and every byte of memory outside it is as before. -/
def LmBecomes (s t : State) (img : Nat → Byte) : Prop :=
  t.team.ref = s.team.ref ∧ t.lmEpochs = s.lmEpochs ∧ (∀ o, o < 2 ^ 21 → ownByte t o = img o) ∧
  ∀ k, k < lmKey s.team.ref.die s.team.ref.lcore 0 ∨ lmKey s.team.ref.die s.team.ref.lcore (2 ^ 21) ≤ k →
    t.mem.byte k = s.mem.byte k

/-- An offset of the own LM among the counters of a bound ring whose descriptor one of these writes of the team meets, as
offset and size: a write there leaves the ring's counters unspecified (R532). -/
def Smudged (s : State) (ws : List (Nat × Nat)) (o : Nat) : Prop :=
  ∃ k b, vget s.core.rings k none = some b ∧ (∃ w ∈ ws, w.1 < b.off + 32 ∧ b.off < w.1 + w.2) ∧ b.off + 8 ≤ o ∧ o < b.off + 24

/-- The acting team's own LM holds `img` after these writes, and every byte of memory outside it is as before, but for the
counters of a ring whose descriptor they meet. -/
def LmStores (s t : State) (ws : List (Nat × Nat)) (img : Nat → Byte) : Prop :=
  let base := lmKey s.team.ref.die s.team.ref.lcore 0
  t.team.ref = s.team.ref ∧ t.lmEpochs = s.lmEpochs ∧
  (∀ o, o < 2 ^ 21 → ¬ Smudged s ws o → ownByte t o = img o) ∧
  ∀ k, k < base ∨ base + 2 ^ 21 ≤ k ∧ ¬ Smudged s ws (k - base) → t.mem.byte k = s.mem.byte k

/-! ## Forms -/

/-- The byte width of an LS type (R119). -/
def bytesOf (ty : BitVec 3) : Nat := if ty ≤ 1 then 1 else if ty ≤ 3 then 2 else if ty ≤ 5 then 4 else 8

/-- The address register plus a signed offset of `bits` bits, scaled (R222). -/
def offsetAddress (f : LsForm) (s : State) (bits scale : Nat) : Double :=
  s.team.ra f.a + (BitVec.ofNat bits f.low.toNat).signExtend 64 * BitVec.ofNat 64 scale

/-- The address of lane `i` in the forms with consecutive elements, with a stride and with an index of scale 2 ^ `k`
(R227, R238). -/
def unitLane (f : LsForm) (s : State) (i : Nat) : Double :=
  offsetAddress f s 9 64 + BitVec.ofNat 64 (i * bytesOf f.ty)
@[inherit_doc unitLane] def strideLane (f : LsForm) (s : State) (i : Nat) : Double :=
  s.team.ra f.a + BitVec.ofNat 64 i * s.team.rs (f.low.extractLsb' 3 6)
@[inherit_doc unitLane] def indexLane (f : LsForm) (k : Nat) (s : State) (i : Nat) : Double :=
  s.team.ra f.a + (vget (s.team.rv (f.low.extractLsb' 6 6)) i 0).signExtend 64 * BitVec.ofNat 64 (2 ^ k)

/-- The lane mask that a form names (R120). -/
def highMask (f : LsForm) (s : State) : Double := s.team.rm (f.low.extractLsb' 9 3)
@[inherit_doc highMask] def indexMask (f : LsForm) (s : State) : Double := s.team.rm (f.low.extractLsb' 1 3)
@[inherit_doc highMask] def vamoMask (f : LsForm) (s : State) : Double := s.team.rm (f.low.extractLsb' 3 3)

/-- The active lanes, in ascending order (R35). -/
def setLanes (m : Double) : List Nat := (List.range 64).filter fun i => m.getLsbD i

/-- Every active lane's element lies in the own LM, at `off i`. -/
def LanesOwn (s : State) (m : Double) (addr : Nat → Double) (size : Nat) (off : Nat → Nat) : Prop :=
  setLanes m ≠ [] ∧ ∀ i ∈ setLanes m, OwnLm s (addr i) size (off i)

/-- A loaded value in its s-register: types 0, 2 and 4 are signed (R119, R226). -/
def loaded (ty : BitVec 3) (x : Nat) : Double :=
  if ty = 0 then (BitVec.ofNat 8 x).signExtend 64 else if ty = 2 then (BitVec.ofNat 16 x).signExtend 64
  else if ty = 4 then (BitVec.ofNat 32 x).signExtend 64 else BitVec.ofNat 64 x

/-- A loaded element in its lane: types 0 and 2 are signed (R227). -/
def loadedLane (ty : BitVec 3) (x : Nat) : Word32 :=
  if ty = 0 then (BitVec.ofNat 8 x).signExtend 32 else if ty = 2 then (BitVec.ofNat 16 x).signExtend 32 else BitVec.ofNat 32 x

/-- The post-increment that pi asks for (R222): one a-register result of latency 1, with no energy of its own. -/
def increments (f : LsForm) (s : State) : List Landing :=
  if f.pi = 1 then
    [{ slot := .ls, domain := .core, pos := s.team.passed .ls, rem := 1, write := .a f.a (s.team.ra f.a + s.team.rd f.a),
       energy := none }]
  else []

/-- The slot has passed, its post-increment is in flight and no other result is. -/
def Increments (f : LsForm) (s t : State) : Prop :=
  Passed .ls s t ∧ t.team.flight.map (·.write) = s.team.flight.map (·.write) ++ (increments f s).map (·.write)

/-- An access of the team is performed, and waits to write these results (R79). -/
def Awaits (s t : State) (op : AccOp) (ws : List Write) : Prop :=
  ∃ a ∈ t.team.vars, a.op = op ∧ a.phase = .performed ∧ a.results = ws ∧ a.team = s.team.ref ∧
    ∃ n, (n, .variableOpComplete, { team := a.team, id := a.id }) ∈ t.timers

/-- The high bits of the address register are zero (R224). -/
def LowBase (f : LsForm) (s : State) : Prop := s.team.ra f.a < 0x0100000000000000

/-- No load of the team that has left the LS slot is still to return. -/
def NoLoadOut (s : State) : Prop := ∀ b ∈ s.team.vars, b.slot = .ls → b.op.variable = false

/-- The team's core, and no line of its L1D or of its die's L2 holds the byte. -/
def Uncached (s : State) (ipa : Nat) : Prop :=
  (∀ l ∈ s.core.l1d, l.ipa ≠ ipa / 64 * 64) ∧ ∀ l ∈ (s.dieAt s.core.die).l2, l.ipa ≠ ipa / 64 * 64

/-- How many writes a release at the LS slot's position waits for (R233): those that its scope counts, but for writes of ls at later
positions (R369, R370). -/
def CountedBefore (s : State) (scope : BitVec 3) : Nat :=
  (((Unacknowledged s scope).filter fun w => !(decide (w.path = .ls) && decide (s.team.passed .ls < w.pos))).map (·.count)).sum

/-- What a release finds done when it goes on (R233, R370, R378): its scope counts no write of the team before it, and at a scope
that writes caches back these write-backs have been issued before and are acknowledged, or there is nothing to write back. -/
def ReleaseDone (f : LsForm) (s : State) : Prop :=
  CountedBefore s f.hi3 = 0 ∧ (s.team.stlSent = true ∨ NothingToWriteBack s f.hi3)

/-- An AMO or CAS at a scope that a FENCE of the team's stores has made one of releases goes on (R378, R380). -/
def AtomicGoesOn (f : LsForm) (s : State) : Prop :=
  s.team.relScopes.contains f.hi3 = true → ReleaseDone f s ∧ NoLoadOut s

/-- What every statement about an access of the own LM assumes. -/
def LsReady (i : Instr) (f : LsForm) (s : State) : Prop := i.wf = true ∧ Quiet s ∧ Room s 2 ∧ LowBase f s

/-! ## Atomics -/

/-- What AMO and VAMO write (R236, R238), by the number of the operation in AMO's list. -/
def amoResult {w : Nat} (op : Nat) (old x : BitVec w) : BitVec w :=
  match op with
  | 0 => old + x
  | 1 => old &&& x
  | 2 => old ||| x
  | 3 => old ^^^ x
  | 4 => if x.slt old then x else old
  | 5 => if old.slt x then x else old
  | 6 => if x.ult old then x else old
  | 7 => if old.ult x then x else old
  | _ => x

/-- VAMO's operations: codes 0 to 5 are AMO's; 6 is swap and 7 adds in binary32, rounding to nearest even (R238). -/
def vamoResult (op : Nat) (old x : Word32) : Word32 :=
  if op = 7 then BitVec.ofNat 32 (f32.add .ne old.toNat x.toNat)
  else if op = 6 then x else amoResult op old x

/-- VAMO's elements in ascending lane order: the image after them, and the old value that each lane read. -/
def vamoRun (op : Nat) (off : Nat → Nat) (x : Nat → Word32) : List Nat → (Nat → Byte) → (Nat → Byte) × List (Nat × Word32)
  | [], img => (img, [])
  | i :: is, img =>
    let old := BitVec.ofNat 32 (peek img (off i) 4)
    let r := vamoRun op off x is (poke img (off i) 4 (vamoResult op old (x i)).toNat)
    (r.1, (i, old) :: r.2)

end Sys2Proof.Claims

/-- R80, R226, R227, R228, R344, R104: LD, LDV and LDVS of the core's own LM land their values after 7 core cycles under LP1
and 6 under LP2, only active lanes being written; they change no byte of memory, and pi adds d(a) to a(a). -/
def Obligations.LoadsFromOwnLm : Prop :=
  ∀ (f : LsForm) (s : State),
    (∀ off, LsReady (.ld f) f s → OwnLm s (offsetAddress f s 12 (bytesOf f.ty)) (bytesOf f.ty) off →
      exec (.ld f) s = .next (issued .ls s (result .ls (.ld f) s (8 * bytesOf f.ty) (lat s 7 6)
        (.s f.data (loaded f.ty (peek (ownByte s) off (bytesOf f.ty)))) :: increments f s))) ∧
    (∀ i addr off, (i = Instr.ldv f ∧ addr = unitLane f s) ∨ (i = Instr.ldvs f ∧ addr = strideLane f s) →
      LsReady i f s → LanesOwn s (highMask f s) addr (bytesOf f.ty) off →
      ∃ x : VReg, (∀ l ∈ setLanes (highMask f s), vget x l 0 = loadedLane f.ty (peek (ownByte s) (off l) (bytesOf f.ty))) ∧
        exec i s = .next (issued .ls s (result .ls i s (8 * bytesOf f.ty) (lat s 7 6) (.v f.data (highMask f s) x) ::
          increments f s)))

/-- R79, R228, R233, R243: LDVG, LDA and LDSC leave their slot with their destination unspecified, and their values wait for
their completion; of the own LM they read the same bytes, and no byte of memory changes. LDSC of a byte that no window
covers gives 0. (An LDA.rp waits: see WaitingAndEmptyAccesses.) -/
def Obligations.LaterLoadsFromOwnLm : Prop :=
  ∀ (f : LsForm) (s : State),
    (∀ off, LsReady (.ldvg f) f s →
      LanesOwn s (indexMask f s) (indexLane f (f.low.extractLsb' 4 2).toNat s) (bytesOf f.ty) off →
      ∃ t x, exec (.ldvg f) s = .next t ∧ t.mem = s.mem ∧ Increments f s t ∧
        (∃ u, RegsWith (.v f.data (indexMask f s) u) s.team t.team) ∧
        Awaits s t (.vload f.data (indexMask f s) f.ty.toNat) [.v f.data (indexMask f s) x] ∧
        ∀ l ∈ setLanes (indexMask f s), vget x l 0 = loadedLane f.ty (peek (ownByte s) (off l) (bytesOf f.ty))) ∧
    (∀ off, LsReady (.lda f) f s → f.low.getLsbD 8 = false →
      OwnLm s (offsetAddress f s 8 (bytesOf f.ty)) (bytesOf f.ty) off →
      ∃ t, exec (.lda f) s = .next t ∧ t.mem = s.mem ∧ Increments f s t ∧
        (∃ u, RegsWith (.s f.data u) s.team t.team) ∧
        Awaits s t (.load f.data f.ty.toNat) [.s f.data (loaded f.ty (peek (ownByte s) off (bytesOf f.ty)))]) ∧
    (∀ off, LsReady (.ldsc f) f s → OwnLm s (offsetAddress f s 12 1) 1 off →
      (let ipa := lmIpa s.hub.package s.team.ref.die s.team.ref.lcore off; Uncached s ipa ∧ fwOfLine s.hub (lineOf ipa) = none) →
      ∃ t, exec (.ldsc f) s = .next t ∧ t.mem = s.mem ∧ Increments f s t ∧
        (∃ u, RegsWith (.s f.data u) s.team t.team) ∧ Awaits s t (.ldsc f.data) [.s f.data 0])

/-- R226, R227, R229, R233, R377, R532: ST, STV, STVS, STVX and STL to the core's own LM write the low bytes of their elements
there, the higher of two lanes that meet, and no other byte of memory but the counters of a bound ring whose descriptor they meet;
the write is acknowledged at once. STL holds while its scope counts a write before it. -/
def Obligations.StoresToOwnLm : Prop :=
  ∀ (f : LsForm) (s : State),
    (∀ i off, (i = Instr.st f ∧ OwnLm s (offsetAddress f s 12 (bytesOf f.ty)) (bytesOf f.ty) off) ∨
        (i = Instr.stl f ∧ OwnLm s (offsetAddress f s 8 (bytesOf f.ty)) (bytesOf f.ty) off ∧ ReleaseDone f s ∧ NoLoadOut s) →
      LsReady i f s →
      ∃ t, exec i s = .next t ∧
        LmStores s t [(off, bytesOf f.ty)] (poke (ownByte s) off (bytesOf f.ty) (s.team.rs f.data).toNat) ∧
        SameRegs s.team t.team ∧ Increments f s t ∧ (∀ sc, Unacknowledged t sc ⊆ Unacknowledged s sc)) ∧
    (∀ i m addr off, (i = Instr.stv f ∧ m = highMask f s ∧ addr = unitLane f s) ∨
        (i = Instr.stvs f ∧ m = highMask f s ∧ addr = strideLane f s) ∨
        (i = Instr.stvx f ∧ m = indexMask f s ∧ addr = indexLane f (f.low.extractLsb' 4 2).toNat s) →
      LsReady i f s → LanesOwn s m addr (bytesOf f.ty) off →
      ∃ t, exec i s = .next t ∧
        LmStores s t ((setLanes m).map fun l => (off l, bytesOf f.ty)) ((setLanes m).foldl
          (fun img l => poke img (off l) (bytesOf f.ty) (vget (s.team.rv f.data) l 0).toNat) (ownByte s)) ∧
        SameRegs s.team t.team ∧ Increments f s t ∧ (∀ sc, Unacknowledged t sc ⊆ Unacknowledged s sc)) ∧
    (∀ off, LsReady (.stl f) f s → OwnLm s (offsetAddress f s 8 (bytesOf f.ty)) (bytesOf f.ty) off →
      CountedBefore s f.hi3 ≠ 0 → exec (.stl f) s = .next (held .ls s))

/-- R236, R238, R79, R532: AMO, CAS and VAMO on the core's own LM read and write there as one, lane after lane; the old values
wait for the completion, the destination being unspecified until then. A VAMO that meets a bound ring's descriptor issues as any
other. -/
def Obligations.AtomicsOnOwnLm : Prop :=
  ∀ (f : LsForm) (s : State),
    (∀ off, OwnLm s (s.team.ra f.a) (bytesOf f.ty) off →
      let w := 8 * bytesOf f.ty
      let old := BitVec.ofNat w (peek (ownByte s) off (bytesOf f.ty))
      let x := (s.team.rs f.data).setWidth w
      let back := Write.s f.data (if f.ty = 4 then old.signExtend 64 else old.setWidth 64)
      (∀ op, op = (f.low.extractLsb' 5 4).toNat → LsReady (.amo f) f s → AtomicGoesOn f s →
        ∃ t, exec (.amo f) s = .next t ∧
          LmStores s t [(off, bytesOf f.ty)] (poke (ownByte s) off (bytesOf f.ty) (amoResult op old x).toNat) ∧
          Increments f s t ∧ (∃ u, RegsWith (.s f.data u) s.team t.team) ∧ Awaits s t (.amo f.data op f.ty.toNat) [back]) ∧
      (LsReady (.cas f) f s → AtomicGoesOn f s →
        ∃ t, exec (.cas f) s = .next t ∧
          LmStores s t (if old = x then [(off, bytesOf f.ty)] else [])
            (if old = x then poke (ownByte s) off (bytesOf f.ty) (s.team.rs (f.data + 1)).toNat else ownByte s) ∧
          Increments f s t ∧ (∃ u, RegsWith (.s f.data u) s.team t.team) ∧
          Awaits s t (.cas f.data f.ty.toNat (s.team.rs (f.data + 1))) [back])) ∧
    (∀ off, LsReady (.vamo f) f s → LanesOwn s (vamoMask f s) (indexLane f 2 s) 4 off →
      let op := (f.low.extractLsb' 0 3).toNat
      let run := vamoRun op off (fun i => vget (s.team.rv f.data) i 0) (setLanes (vamoMask f s)) (ownByte s)
      ∃ t x, exec (.vamo f) s = .next t ∧ Increments f s t ∧ (∃ u, RegsWith (.v f.data (vamoMask f s) u) s.team t.team) ∧
        Awaits s t (.vamo f.data op (vamoMask f s)) [.v f.data (vamoMask f s) x] ∧
        ((∀ k b, vget s.core.rings k none = some b → ∀ l ∈ setLanes (vamoMask f s), off l + 4 ≤ b.off ∨ b.off + 32 ≤ off l) →
          LmBecomes s t run.1 ∧ ∀ y ∈ run.2, vget x y.1 0 = y.2))

namespace Sys2Proof.Claims

open Machine

/-- What an instruction of the LS slot accesses: its form, what it does with the bytes, the element width, the elements as
lane, address and data, its scope (0 is plain), and the operation that the home performs. -/
structure LsAccess where
  f : LsForm
  kind : AccKind
  size : Nat
  elems : List (Nat × Double × Double)
  scope : Nat
  op : AccOp

/-- The elements of a vector form. -/
def elements (m : Double) (addr : Nat → Double) (data : VReg) : List (Nat × Double × Double) :=
  (setLanes m).map fun i => (i, addr i, (vget data i 0).setWidth 64)

/-- The loads, stores and atomics (R222, R226, R227, R233, R236, R238, R243). -/
def lsAccess (s : State) : Instr → Option LsAccess
  | .ld f => some ⟨f, .read, bytesOf f.ty, [(0, offsetAddress f s 12 (bytesOf f.ty), 0)], 0, .load f.data f.ty.toNat⟩
  | .st f => some ⟨f, .write, bytesOf f.ty, [(0, offsetAddress f s 12 (bytesOf f.ty), s.team.rs f.data)], 0, .store⟩
  | .ldv f => some ⟨f, .read, bytesOf f.ty, elements (highMask f s) (unitLane f s) (s.team.rv f.data), 0,
      .vload f.data (highMask f s) f.ty.toNat⟩
  | .stv f => some ⟨f, .write, bytesOf f.ty, elements (highMask f s) (unitLane f s) (s.team.rv f.data), 0, .store⟩
  | .ldvs f => some ⟨f, .read, bytesOf f.ty, elements (highMask f s) (strideLane f s) (s.team.rv f.data), 0,
      .vload f.data (highMask f s) f.ty.toNat⟩
  | .stvs f => some ⟨f, .write, bytesOf f.ty, elements (highMask f s) (strideLane f s) (s.team.rv f.data), 0, .store⟩
  | .ldvg f => some ⟨f, .read, bytesOf f.ty,
      elements (indexMask f s) (indexLane f (f.low.extractLsb' 4 2).toNat s) (s.team.rv f.data), 0,
      .vload f.data (indexMask f s) f.ty.toNat⟩
  | .stvx f => some ⟨f, .write, bytesOf f.ty,
      elements (indexMask f s) (indexLane f (f.low.extractLsb' 4 2).toNat s) (s.team.rv f.data), 0, .store⟩
  | .lda f => some ⟨f, .read, bytesOf f.ty, [(0, offsetAddress f s 8 (bytesOf f.ty), 0)], f.hi3.toNat, .load f.data f.ty.toNat⟩
  | .stl f => some ⟨f, .write, bytesOf f.ty, [(0, offsetAddress f s 8 (bytesOf f.ty), s.team.rs f.data)], f.hi3.toNat, .store⟩
  | .amo f => some ⟨f, .atomic, bytesOf f.ty, [(0, s.team.ra f.a, s.team.rs f.data)], f.hi3.toNat,
      .amo f.data (f.low.extractLsb' 5 4).toNat f.ty.toNat⟩
  | .cas f => some ⟨f, .atomic, bytesOf f.ty, [(0, s.team.ra f.a, s.team.rs f.data)], f.hi3.toNat,
      .cas f.data f.ty.toNat (s.team.rs (f.data + 1))⟩
  | .vamo f => some ⟨f, .atomic, 4, elements (vamoMask f s) (indexLane f 2 s) (s.team.rv f.data), f.ty.toNat,
      .vamo f.data (f.low.extractLsb' 0 3).toNat (vamoMask f s)⟩
  | .ldsc f => some ⟨f, .read, 1, [(0, offsetAddress f s 12 1, 0)], 0, .ldsc f.data⟩
  | _ => none

/-- The cause that one element's address raises, if any (R526). -/
def addressCause (s : State) (x : LsAccess) (va : Double) : Option Nat :=
  if 0x0100000000000000 ≤ s.team.ra x.f.a then some 0x0020
  else match checkAddr s s.team x.kind va.toNat x.size with
    | .error c => some c
    | .ok _ => none

/-- The place in the intermediate space of one element whose address passes its checks. -/
def placeOfElement (s : State) (x : LsAccess) (va : Double) : Option Spot :=
  match checkAddr s s.team x.kind va.toNat x.size with
  | .error _ => none
  | .ok ipa => some (spotOf s.hub.package ipa)

/-- The destination register of an access that has one (R79). -/
def destination (op : AccOp) : Option (Double → VReg → Write) :=
  match op with
  | .load n _ | .amo n _ _ | .cas n _ _ | .ldsc n => some fun x _ => .s n x
  | .vload n lanes _ | .vamo n _ lanes => some fun _ v => .v n lanes v
  | _ => none

/-- The element has to be performed beyond the core and its die (R230): it lies in the host aperture, or it is cacheable and
either its scope is .pkg or wider, or it reads what no cache on its way holds. -/
def Beyond (s : State) (x : LsAccess) (va : Double) : Prop :=
  ∃ ipa, checkAddr s s.team x.kind va.toNat x.size = .ok ipa ∧
    match spotOf s.hub.package ipa with
    | .host _ => True
    | .translated _ | .remote => 3 ≤ x.scope ∨ (x.op ≠ .store ∧ Uncached s ipa)
    | _ => False

/-- An access that waits for an event of its own: an element of it lies beyond the die, or it is an LDA.rp, which the reader's
promotion comes before (R234, R381). -/
def Defers (i : Instr) (s : State) (x : LsAccess) : Prop :=
  (∃ e ∈ x.elems, Beyond s x e.2.1) ∨ ∃ f, i = .lda f ∧ f.low.getLsbD 8 = true

/-- A part of an access that lies in the own LM. -/
def ownPart (s : State) (p : Part) : Bool :=
  match spotOf s.hub.package p.ipa with
  | .lm d l _ => decide (d = s.team.ref.die ∧ l = s.team.ref.lcore)
  | _ => false

/-- The event that performs the access is due, or waits at the socket of the core's die (R458). -/
def Requested (s t : State) (o : Occ) : Prop :=
  (∃ n, (n, .homeRequest, o) ∈ t.timers) ∨
  ∃ q ∈ t.hub.links, q.link = 80 + s.core.die ∧ q.out = true ∧ ∃ c r, (c, r) ∈ q.waiting ∧ r.what = some (.homeRequest, o)

/-- What STL waits for has been done (R233, R378), and what an AMO or CAS that is a release waits for (R380). -/
def StlDone (i : Instr) (s : State) : Prop :=
  ∀ f, (i = .stl f → ReleaseDone f s) ∧ (i = .amo f ∨ i = .cas f → s.team.relScopes.contains f.hi3 = true → ReleaseDone f s)

/-- The parts that wait (R229, R231, R238, R243): of a load or store the elements outside the own LM, those in it being performed at
once; of an atomic every element, in lane order; of LDSC the byte, and with it the first of its block in an earlier line. -/
def waitingParts (s : State) (op : AccOp) (ps : List Part) : List Part × List Part :=
  match op with
  | .ldsc _ => (ldscParts s ps, [])
  | .amo _ _ _ | .cas _ _ _ | .vamo _ _ _ => (ps, [])
  | .load _ _ => (ps, [])
  | _ => (ps.filter (!ownPart s ·), ps.filter (ownPart s))

end Sys2Proof.Claims

/-- R526, R224, R233, R500, R71: an LS access whose lowest failing lane's address fails a check raises that check's cause with that
address and has no effect: 0x0020 for a misaligned address, for a(a) bits 63:56 not zero and for an address outside the windows,
0x0021 for a byte of an LM outside the tenant's grants; a post-increment that no result slot is left for raises 0x0018 before
them (R500). While an acquire of the team is out it holds. -/
def Obligations.AddressesAreChecked : Prop :=
  ∀ (i : Instr) (s : State) (x : LsAccess), lsAccess s i = some x → i.wf = true →
    (acquiring s.team = true → exec i s = .next (held .ls s)) ∧
    (∀ before l va d after c, acquiring s.team = false → s.team.trap = none → x.elems = before ++ (l, va, d) :: after →
      (∀ e ∈ before, addressCause s x e.2.1 = none) → addressCause s x va = some c →
      ((x.f.pi = 1 → Room s 1) → Raises .ls i s c va.toNat) ∧ (x.f.pi = 1 → ¬ Room s 1 → Raises .ls i s 0x0018 0)) ∧
    (∀ va : Double, ¬ x.size ∣ va.toNat → addressCause s x va = some 0x0020) ∧
    (∀ va : Double, va.toNat < 0x00ffffffffe00000 → windowIpa s.team.windows x.kind va.toNat = none →
      addressCause s x va = some 0x0020) ∧
    (∀ (va : Double) d l o, s.team.ra x.f.a < 0x0100000000000000 → x.size ∣ va.toNat →
      vaIpa s.hub.package s.team.ref s.team.windows x.kind va.toNat = some (lmIpa s.hub.package d l o) → d < 8 → l < 64 →
      o < 2 ^ 21 → lmRangeGranted s s.team.tenant d l o x.size = false → addressCause s x va = some 0x0021)

/-- R225, R228, R230, R234, R366, R79, R238, R243: An access performed beyond its die waits at the home and changes nothing yet;
one with no active lane makes no access. -/
def Obligations.WaitingAndEmptyAccesses : Prop :=
  (∀ (i : Instr) (s : State) (x : LsAccess) (ps : List Part), lsAccess s i = some x → LsReady i x.f s → StlDone i s →
     checkParts s s.team x.f x.kind x.size x.elems = .ok ps → Defers i s x →
     (requestsOut s < 1024 →
       ∃ t a, exec i s = .next t ∧ t.core = s.core ∧ t.die = s.die ∧ t.dies = s.dies ∧ Increments x.f s t ∧
         t.team.vars = s.team.vars ++ [a] ∧ a.op = x.op ∧ a.phase = .pending ∧ a.tenant = s.team.tenant ∧
         ((∃ e ∈ x.elems, Beyond s x e.2.1) → (a.parts, a.early) = waitingParts s x.op ps) ∧
         ((∀ p ∈ ps, ownPart s p = false) ∨ x.kind = .read → t.mem = s.mem) ∧
         Requested s t { team := s.team.ref, id := a.id } ∧
         (match destination x.op with
           | some w => ∃ y v, RegsWith (w y v) s.team t.team
           | none => SameRegs s.team t.team) ∧
         ∀ sc, (Unacknowledged t sc).length = (Unacknowledged s sc).length + if x.kind = .read then 0 else 1) ∧
     ((∃ p ∈ ps, ownPart s p = false) → 1024 ≤ requestsOut s → exec i s = .next (held .ls s))) ∧
  (∀ (i : Instr) (s : State) (x : LsAccess), lsAccess s i = some x → x.elems = [] → i.wf = true → acquiring s.team = false →
     Room s 1 →
     exec i s = .next (if x.f.pi = 1 then
         issued .ls s [result .ls i s (8 * x.size) 1 (.a x.f.a (s.team.ra x.f.a + s.team.rd x.f.a))]
       else retired .ls i s (8 * x.size)))

namespace Sys2Proof.Claims

open Machine

/-! ## Cache maintenance -/

/-- The lines of the extent (R239): the line or the page that holds the address, or every line of the tenant. -/
def inExtent (f : LsForm) (s : State) (ipa : Nat) (l : Line) : Bool :=
  if f.ty = 0 then decide (l.ipa = ipa / 64 * 64) else if f.ty = 1 then decide (l.ipa / 4096 = ipa / 4096)
  else decide (l.tenant = s.team.tenant)

/-- The lines of a list outside the extent. -/
def outside (f : LsForm) (s : State) (ipa : Nat) (ls : List Line) : List Line := ls.filter fun l => !inExtent f s ipa l

/-- A maintenance operation may issue on the address (R224, R239), any byte that the windows let the team read, and takes its
effect at once: with `.all` none is named. -/
def Maintainable (i : Instr) (f : LsForm) (s : State) (ipa : Nat) : Prop :=
  i.wf = true ∧ Quiet s ∧ Room s 1 ∧ requestsOut s < 1024 ∧
  (f.ty = 2 ∨ LowBase f s ∧ checkAddr s s.team .read (s.team.ra f.a).toNat 1 = .ok ipa)

/-- No write-back of a line of the extent in the die's L2 is on its way. -/
def NoWriteBack (f : LsForm) (s : State) (ipa : Nat) : Prop :=
  ∀ l ∈ (s.dieAt s.core.die).l2, inExtent f s ipa l = true → ∀ b ∈ l.sent, b = none

/-- A write-back of a line of the core's die is on its way, as a write of the team. -/
def WritingBack (s t : State) (l : Line) : Prop :=
  ∃ b ∈ t.team.vars, b.op.isWriteback = true ∧ b.die = s.core.die ∧ b.tenant = l.tenant ∧ b.parts.map (·.ipa) = [l.ipa] ∧
    ∃ w ∈ t.team.writes, b.wid = some w.id

/-! ## Rings -/

/-- A ring bound to `k` on the core: where its descriptor stands in the LM, its slots, and its four counters (R298, R299). -/
structure Ring where
  off : Nat
  cnt : Nat
  lsz : Nat
  base : Nat
  head : Nat
  tail : Nat
  filled : Nat
  free : Nat

/-- The ring is bound, its descriptor and its slots lie in the LM, and the descriptor holds its counters. -/
def Holds (s : State) (k : Nat) (r : Ring) : Prop :=
  vget s.core.rings k none = some { off := r.off, cnt := r.cnt, lsz := r.lsz, base := r.base } ∧ r.off + 32 ≤ 2 ^ 21 ∧
  3 ≤ r.lsz ∧ r.base + (r.cnt + 1) * 2 ^ r.lsz ≤ 2 ^ 21 ∧ r.cnt < 4096 ∧ r.head ≤ r.cnt ∧ r.tail ≤ r.cnt ∧
  peek (ownByte s) (r.off + 8) 4 = r.head ∧
  peek (ownByte s) (r.off + 12) 4 = r.tail ∧ peek (ownByte s) (r.off + 16) 4 = r.filled ∧
  peek (ownByte s) (r.off + 20) 4 = r.free

/-- The image with the ring's counters written: filled and free are clamped to cnt + 1 (R532). -/
def counters (r : Ring) (img : Nat → Byte) : Nat → Byte :=
  poke (poke (poke (poke img (r.off + 8) 4 r.head) (r.off + 12) 4 r.tail) (r.off + 16) 4 (min r.filled (r.cnt + 1)))
    (r.off + 20) 4 (min r.free (r.cnt + 1))

/-- The image with a vector register written at an offset, lane 0 first (R34, R240). -/
def pokeVec (img : Nat → Byte) (off : Nat) (x : VReg) : Nat → Byte :=
  (List.range 64).foldl (fun img i => poke img (off + 4 * i) 4 (vget x i 0).toNat) img

/-- A vector register read from an image. -/
def peekVec (img : Nat → Byte) (off : Nat) : VReg := Vector.ofFn fun i => BitVec.ofNat 32 (peek img (off + 4 * i.val) 4)

/-- A ring operation may issue: no earlier access of the team is still to be performed (R231), its ring is bound, and a v-register goes with slots of 256 bytes and more (R532). -/
def RingReady (i : Instr) (f : LsForm) (s : State) (r : Ring) : Prop :=
  i.wf = true ∧ Quiet s ∧ Room s 1 ∧ Holds s f.hi3.toNat r ∧ (f.ty = 7 → 8 ≤ r.lsz)

/-- Every slot of the ring that a producer has taken is filled (R242). -/
def AllFilled (s : State) (k : Nat) : Prop := ∀ x ∈ s.core.fills, x.ring ≠ k

end Sys2Proof.Claims

/-- R239, R225, R377: at .core CWB, CINV and CFLUSH only pass. At .cove and .die CWB leaves no line of its extent dirty in the
core's L1D, and at wider scopes each dirty line of it in the die's L2 has a write-back on its way, which RELC counts; it drops no
L1D line. CINV drops the extent's lines from the same caches with their dirty data, but for the bytes that a write-back on its way
carries, and writes no byte of memory; CFLUSH does both, a line whose write-back is on its way leaving the L2 with it. No register changes but by the post-increment. -/
def Obligations.CacheMaintenance : Prop :=
  ∀ (f : LsForm) (s : State) (ipa : Nat) (i : Instr), (i = .cwb f ∨ i = .cinv f ∨ i = .cflush f) → Maintainable i f s ipa →
    let l2 := fun u : State => (u.dieAt s.core.die).l2
    ∃ t, exec i s = .next t ∧ Increments f s t ∧ SameRegs s.team t.team ∧
      (f.hi3 = 0 → t.core = s.core ∧ t.die = s.die ∧ t.dies = s.dies ∧ t.mem = s.mem) ∧
      (i = .cwb f → 1 ≤ f.hi3 →
        t.core.l1d.map (·.ipa) = s.core.l1d.map (·.ipa) ∧ (∀ l ∈ t.core.l1d, inExtent f s ipa l = true → l.isDirty = false) ∧
        (3 ≤ f.hi3 → ∀ l ∈ l2 t, inExtent f s ipa l = true → l.isDirty = true → WritingBack s t l)) ∧
      (i = .cinv f → 1 ≤ f.hi3 →
        t.mem = s.mem ∧ t.core.l1d = outside f s ipa s.core.l1d ∧
        (f.hi3 < 3 → l2 t = l2 s) ∧
        (3 ≤ f.hi3 → outside f s ipa (l2 t) = outside f s ipa (l2 s) ∧
          (∀ l ∈ l2 t, inExtent f s ipa l = true → l.leaving = true ∧ l.bytes = l.sent) ∧
          (NoWriteBack f s ipa → l2 t = outside f s ipa (l2 s)))) ∧
      (i = .cflush f → 1 ≤ f.hi3 →
        (∀ l ∈ t.core.l1d, inExtent f s ipa l = false) ∧
        (3 ≤ f.hi3 → ∀ l ∈ l2 t, inExtent f s ipa l = true → l.isDirty = true ∧ l.leaving = true))

/-- R79, R100, R184, R441: as a variable-latency operation completes, its results reach their registers in order and it leaves
the list; no memory changes. A write that is acknowledged is counted at no scope any more. In a stall bundle the return and the
acknowledgement wait at the core. -/
def Obligations.CompletionsAndAcknowledgements : Prop :=
  ∀ (s : State),
    (∀ a, (s.focus s.occ.team).team.vars.find? (fun a => a.id = s.occ.id && decide (a.phase = .performed)) = some a →
      ((s.focus s.occ.team).core.stalled = false → ∃ t, exec .variableOpComplete s = .next t ∧ t.mem = s.mem ∧
        regs t.team = regs (a.results.foldl Team.write (s.focus s.occ.team).team) ∧
        t.team.vars = (s.focus s.occ.team).team.vars.filter fun b => b.id ≠ a.id) ∧
      ((s.focus s.occ.team).core.stalled = true → ∃ t, exec .variableOpComplete s = .next t ∧ t.mem = s.mem ∧
        t.team = (s.focus s.occ.team).team ∧ (s.now + 1, .variableOpComplete, s.occ) ∈ t.timers)) ∧
    (coreStalled s s.occ.team = false → ∃ t, exec .writeAcknowledge s = .next t ∧ t.mem = s.mem ∧
      (t.teamAt s.occ.team).writes = (s.teamAt s.occ.team).writes.filter fun w => w.id ≠ s.occ.id) ∧
    (coreStalled s s.occ.team = true →
      exec .writeAcknowledge s = .next { s with timers := s.timers ++ [(s.now + 1, .writeAcknowledge, s.occ)] })

/-- R230, R359, R362, R366, R225: at its home a store to host memory writes its bytes at the address that the tenant's function
translates, and to no other, and a load reads there; a request to a line of an earlier one of its team waits behind it. -/
def Obligations.HomeRequests : Prop :=
  ∀ (s : State) (a : Access) (p : Part) (iova : Nat), Foreground s s.occ.team → s.team.ref = s.occ.team →
    s.team.vars.find? (fun a => a.id = s.occ.id && decide (a.phase ≠ .performed)) = some a → a.team = s.team.ref → a.place ≠ .lm →
    (∀ x, s.team.trap = some x → x.cause ≠ 0x0022) → a.op = .store ∨ (∃ n ty, a.op = .load n ty) →
    (blockedBy s s.team a = true → ∃ t, exec .homeRequest s = .next t ∧ t.mem = s.mem ∧ t.team = s.team ∧
      (s.now + 2, .homeRequest, s.occ) ∈ t.timers) ∧
    (∀ k, blockedBy s s.team a = false → a.parts = [p] → a.got = [] → a.rp = false → spotOf s.hub.package p.ipa = .host iova →
      hostSpot s a.tenant iova = some k →
      (a.op = .store → (a.scope = none ∨ NoLoadOut s) → ∃ t, exec .homeRequest s = .next t ∧
        t.mem.bytes k p.size = natBytes p.size p.data.toNat ∧
        (∀ q, q < k ∨ k + p.size ≤ q → t.mem.byte q = s.mem.byte q) ∧ SameRegs s.team t.team) ∧
      (∀ n ty, a.op = .load n ty → ∃ t, exec .homeRequest s = .next t ∧ t.mem = s.mem ∧
        SameRegs s.team t.team ∧ ∃ b ∈ t.team.vars, b.id = a.id ∧ b.phase = .performed ∧
          b.results = [.s n (loaded (BitVec.ofNat 3 ty) (number (s.mem.bytes k p.size)))]))

/-- R240, R241, R299, R300, R79, R532, R507: RPUT, RGET and RFREE move the ring counters and slots that R240 and R241
name; misuse raises a trap with no effect. -/
def Obligations.ScratchpadRings : Prop :=
  (∀ (f : LsForm) (s : State) (r : Ring),
     (RingReady (.rput f) f s r →
       (r.free = 0 → exec (.rput f) s = .next (held .ls s)) ∧
       (∀ more, 0 < r.free → (more = 1 ∧ AllFilled s f.hi3.toNat ∨
           more = 0 ∧ ∃ x c, (s.core.fills.find? fun y => y.ring = f.hi3.toNat) = some x ∧ x.copy = some c) →
         ∃ t, exec (.rput f) s = .next t ∧ Passed .ls s t ∧ SameRegs s.team t.team ∧
         t.team.flight = s.team.flight ∧
         LmBecomes s t (counters { r with tail := (r.tail + 1) % (r.cnt + 1), free := r.free - 1, filled := r.filled + more }
           (if f.ty = 7 then pokeVec (ownByte s) (r.base + r.tail * 2 ^ r.lsz) (s.team.rv f.data)
            else poke (ownByte s) (r.base + r.tail * 2 ^ r.lsz) 8 (s.team.rs f.data).toNat)))) ∧
     (RingReady (.rget f) f s r →
       (r.filled = 0 → exec (.rget f) s = .next (held .ls s)) ∧
       (0 < r.filled → ∃ t, exec (.rget f) s = .next t ∧ Passed .ls s t ∧ t.team.flight = s.team.flight ∧
         (if f.ty = 7 then ∃ u, RegsWith (.v f.data (BitVec.allOnes 64) u) s.team t.team
          else ∃ u, RegsWith (.s f.data u) s.team t.team) ∧
         LmBecomes s t (counters { r with head := (r.head + 1) % (r.cnt + 1), filled := r.filled - 1, free := r.free + 1 }
           (ownByte s)) ∧
         Awaits s t (.rget f.data f.hi3.toNat f.ty.toNat)
           [if f.ty = 7 then .v f.data (BitVec.allOnes 64) (peekVec (ownByte s) (r.base + r.head * 2 ^ r.lsz))
            else .s f.data (BitVec.ofNat 64 (peek (ownByte s) (r.base + r.head * 2 ^ r.lsz) 8))])) ∧
     (RingReady (.rfree f) f s r →
       let n := (f.low.extractLsb' 0 9).toNat + 1
       (n ≤ r.filled → ∃ t, exec (.rfree f) s = .next t ∧ Passed .ls s t ∧ SameRegs s.team t.team ∧
         t.team.flight = s.team.flight ∧
         LmBecomes s t (counters { r with head := (r.head + n) % (r.cnt + 1), filled := r.filled - n, free := r.free + n }
           (ownByte s))) ∧
       (r.filled < n → s.team.trap = none → Raises .ls (.rfree f) s 0x0018 0))) ∧
  (∀ (f : LsForm) (s : State) (i : Instr), (i = .rput f ∨ i = .rget f ∨ i = .rfree f) → i.wf = true →
     Foreground s s.team.ref → acquiring s.team = false → s.team.trap = none →
     (vget s.core.rings f.hi3.toNat none = none → Raises .ls i s 0x0018 0) ∧
     (∀ r, Holds s f.hi3.toNat r → r.lsz < 8 → f.ty = 7 → Raises .ls i s 0x0011 0))

namespace Sys2Proof.Claims

open Machine

/-- The VX datapath is not held by a TIDE (R37, R338). -/
def VxIdle (s : State) : Prop :=
  match s.core.sweep.phase with
  | .idle | .paused _ => True
  | _ => False

/-- A VX operation holds no reserved value, and may issue. -/
def VxReady (i : Instr) (s : State) : Prop := i.wf = true ∧ VxIdle s ∧ Room s 2

/-- The width of an element in the views of fn<4:3> (R245). -/
def elementWidth (vt : BitVec 2) : Nat := if vt = 3 then 16 else 32

/-- The operation issues, and its latency later each lane `l` that the mask selects holds `v l`. -/
def Fills (i : Instr) (s : State) (width lat : Nat) (d : BitVec 6) (mask : Double) (v : Nat → Word32) : Prop :=
  ∃ x : VReg, (∀ l, l < 64 → mask.getLsbD l = true → vget x l 0 = v l) ∧
    exec i s = .next (issued .vx s [result .vx i s width lat (.v d mask x)])

/-- Every lane. -/
def allLanes : Double := BitVec.allOnes 64

/-- Lane `l` of a v-register of the acting team. -/
def laneOf (s : State) (n : BitVec 6) (l : Nat) : Word32 := vget (s.team.rv n) l 0

/-- An operation on elements of a lane: on the whole of it, or on its two halves (R245). -/
def onElements (vt : BitVec 2) (op : (w : Nat) → BitVec w → BitVec w → BitVec w) (x y : Word32) : Word32 :=
  if vt = 3 then (op 16 (x.extractLsb' 16 16) (y.extractLsb' 16 16) ++ op 16 (x.extractLsb' 0 16) (y.extractLsb' 0 16))
  else op 32 x y

/-- The integer that an element holds: natural in view 1, signed in the others (R246). -/
def elementInt (vt : BitVec 2) {w : Nat} (x : BitVec w) : Int := if vt = 1 then (x.toNat : Int) else x.toInt

/-- An exact integer in an element: saturated to the view's format, or modulo 2^w (R246). -/
def elementOf (vt : BitVec 2) (sat : Bool) (w : Nat) (e : Int) : BitVec w :=
  if sat then
    if vt = 1 then BitVec.ofInt w (max 0 (min e (2 ^ w - 1)))
    else BitVec.ofInt w (max (-2 ^ (w - 1)) (min e (2 ^ (w - 1) - 1)))
  else BitVec.ofInt w e

/-- A function of f32 patterns on lanes. -/
def onF32 (op : Nat → Nat → Nat) (x y : Word32) : Word32 := BitVec.ofNat 32 (op x.toNat y.toNat)

/-- An instruction that fills the active lanes with a function of the lanes of v(a) and v(b). -/
def LaneWise (i : RForm → Instr) (lat : State → RForm → Nat) (op : State → RForm → Word32 → Word32 → Word32) : Prop :=
  ∀ (f : RForm) (s : State), VxReady (i f) s →
    Fills (i f) s (elementWidth f.hi2) (lat s f) f.d (s.team.rm f.g)
      fun l => op s f (laneOf s f.a l) (laneOf s f.b l)

/-- VADD, VSUB and VMUL: an exact integer operation in three views, a rounded one in f32. -/
def arithmetic (int : Int → Int → Int) (flt : Rnd → Nat → Nat → Nat) (s : State) (f : RForm) : Word32 → Word32 → Word32 :=
  if f.hi2 = 2 then onF32 (flt (modeOf s f.lo3))
  else onElements f.hi2 fun w x y =>
    elementOf f.hi2 (f.fn.getLsbD 0) w (int (elementInt f.hi2 x) (elementInt f.hi2 y))

/-- The smaller of two elements, or the larger one. -/
def extreme (larger : Bool) (flt : Nat → Nat → Nat) (_ : State) (f : RForm) : Word32 → Word32 → Word32 :=
  if f.hi2 = 2 then onF32 flt
  else onElements f.hi2 fun _ x y =>
    if (elementInt f.hi2 x < elementInt f.hi2 y) = (larger = false) then x else y

/-- A shift of each element by the other modulo its width. -/
def shift (op : (w : Nat) → BitVec w → Nat → BitVec w) (_ : State) (f : RForm) : Word32 → Word32 → Word32 :=
  onElements f.hi2 fun w x y => op w x (y.toNat % w)

/-- A mask register's bits under a mask. -/
def Masks (i : Instr) (s : State) (width lat : Nat) (d : BitVec 3) (mask : Double) (v : Nat → Bool) : Prop :=
  ∃ x : Double, (∀ l, l < 64 → mask.getLsbD l = true → x.getLsbD l = v l) ∧
    exec i s = .next (issued .vx s [result .vx i s width lat (.m d mask x)])

/-- An s-register result of the VX slot. -/
def Gives (i : Instr) (s : State) (width lat : Nat) (d : BitVec 6) (v : Double) : Prop :=
  exec i s = .next (issued .vx s [result .vx i s width lat (.s d v)])

/-- VCVT's types (R127). -/
def laneType (c : BitVec 3) : CvtType :=
  if c = 0 then .int true 32 else if c = 1 then .int false 32 else if c = 2 then .flt f32 else if c = 3 then .flt bf16
  else if c = 4 then .flt f16 else if c = 5 then .int true 16 else .int true 8

/-- Lane `l` of VSHUF's patterns (R255). -/
def shuffled (p l : Nat) (a b : Nat → Word32) : Word32 :=
  if p = 0 then if l % 2 = 0 then a (l / 2) else b ((l - 1) / 2)
  else if p = 1 then if l % 2 = 0 then a (32 + l / 2) else b (32 + (l - 1) / 2)
  else if p = 2 then if l < 32 then a (2 * l) else b (2 * l - 64)
  else if p = 3 then if l < 32 then a (2 * l + 1) else b (2 * l - 63)
  else if p = 4 then a (63 - l)
  else if 8 ≤ p ∧ p ≤ 13 then a (l ^^^ 2 ^ (p - 8))
  else if 16 ≤ p ∧ p ≤ 21 then if 2 ^ (p - 16) ≤ l then a (l - 2 ^ (p - 16)) else b (64 - 2 ^ (p - 16) + l)
  else if p = 24 then a (8 * (l % 8) + l / 8)
  else (a l).extractLsb' 0 16 ++ (a l).extractLsb' 16 16

/-- The bits of a v-register, byte 0 lowest (R34). -/
def bitsOf (x : VReg) : Nat := x.toList.foldr (fun w n => w.toNat + 2 ^ 32 * n) 0

/-- A mantissa of the packed layout: element `j` of block `k`, `m` bits each (R156, R159). -/
def mantissa (m : Nat) (x : VReg) (k j : Nat) : BitVec m := BitVec.ofNat m (bitsOf x / 2 ^ (32 * m * k + m * j))

/-- An operation with an empty value: op(empty, x) = x (R253). -/
def joined (op : Nat → Nat → Nat) : Option Nat → Option Nat → Option Nat
  | none, y => y
  | some x, none => some x
  | some x, some y => some (op x y)

/-- The fixed tree of R253 over the 2^n values from `i` up. -/
def tree (op : Nat → Nat → Nat) (t : Nat → Option Nat) : Nat → Nat → Option Nat
  | 0, i => t i
  | n + 1, i => joined op (tree op t n i) (tree op t n (i + 2 ^ n))

/-- The running value of R254 after the values 0 to `n`. -/
def running (op : Nat → Nat → Nat) (t : Nat → Option Nat) : Nat → Option Nat
  | 0 => t 0
  | n + 1 => joined op (running op t n) (t (n + 1))

/-- Element `k` of the reductions' order, empty where its lane is inactive (R253). -/
def element (s : State) (f : RForm) (k : Nat) : Option Nat :=
  let l := if f.hi2 = 3 then k / 2 else k
  if (s.team.rm f.g).getLsbD l then
    some (if f.hi2 = 3 then ((laneOf s f.a l).extractLsb' (16 * (k % 2)) 16).toNat else (laneOf s f.a l).toNat)
  else none

/-- The operations of the reductions on element patterns (R253). -/
def reduction (s : State) (f : RForm) (x y : Nat) : Nat :=
  let w := elementWidth f.hi2
  let int := fun x : Nat => elementInt f.hi2 (BitVec.ofNat w x)
  if f.lo3 = 0 then if f.hi2 = 2 then f32.add (modeOf s 0) x y else (x + y) % 2 ^ w
  else if f.lo3 = 1 then if f.hi2 = 2 then f32.min x y else if int x ≤ int y then x else y
  else if f.lo3 = 2 then if f.hi2 = 2 then f32.max x y else if int x ≤ int y then y else x
  else if f.lo3 = 3 then x &&& y else if f.lo3 = 4 then x ||| y else x ^^^ y

/-- The result of a reduction of no lane (R253). -/
def identity (f : RForm) : Nat :=
  let w := elementWidth f.hi2
  if f.lo3 = 1 then if f.hi2 = 2 then 0x7f800000 else if f.hi2 = 1 then 2 ^ 32 - 1 else 2 ^ (w - 1) - 1
  else if f.lo3 = 2 then if f.hi2 = 2 then 0xff800000 else if f.hi2 = 1 then 0 else 2 ^ (w - 1)
  else if f.lo3 = 3 then 2 ^ w - 1 else 0

/-- The f32 pattern of 2^k, for k from -149 to 127. -/
def powerOfTwo (k : Int) : Nat := if -126 ≤ k then (k + 127).toNat * 2 ^ 23 else 2 ^ (k + 149).toNat

/-- The f32 pattern of an integer from -149 to 127. -/
def wholeNumber (k : Int) : Nat := f32.roundInt .ne false k 0

/-- The special cases of R258: powers of four, powers of two and whole numbers give exact results, and so do zeros, infinities,
negative inputs and NaN. -/
def SpecialValues : Prop :=
  (rsqBits 0 = 0x7f800000 ∧ rsqBits 0x80000000 = 0xff800000 ∧ rsqBits 0x7f800000 = 0 ∧
    (∀ x, 0x80000000 < x → x < 2 ^ 32 → rsqBits x = 0x7fc00000) ∧
    ∀ n : Int, -74 ≤ n → n ≤ 63 → rsqBits (powerOfTwo (2 * n)) = powerOfTwo (-n)) ∧
  (exp2Of 0x7f800000 = 0x7f800000 ∧ exp2Of 0xff800000 = 0 ∧
    ∀ n : Int, -149 ≤ n → n ≤ 127 → exp2Of (wholeNumber n) = powerOfTwo n) ∧
  (log2Of 0 = 0xff800000 ∧ log2Of 0x80000000 = 0xff800000 ∧ log2Of 0x7f800000 = 0x7f800000 ∧
    (∀ x, 0x80000000 < x → x < 2 ^ 32 → log2Of x = 0x7fc00000) ∧
    ∀ n : Int, -149 ≤ n → n ≤ 127 → log2Of (powerOfTwo n) = wholeNumber n) ∧
  ∀ x, 0x7f800000 < x → x < 0x80000000 → rsqBits x = 0x7fc00000 ∧ exp2Of x = 0x7fc00000 ∧ log2Of x = 0x7fc00000

/-- The sum of products of sub-elements of `w` bits, low first. -/
def dot (signed : Bool) (w n : Nat) (x y : Word32) : Int :=
  ((List.range n).map fun i =>
    let a := x.extractLsb' (w * i) w
    let b := y.extractLsb' (w * i) w
    if signed then a.toInt * b.toInt else (a.toNat * b.toNat : Int)).sum

end Sys2Proof.Claims

/-- R246 to R248, R104: the lane arithmetic, in each view. -/
def Obligations.VectorArithmetic : Prop :=
  LaneWise .vadd (fun s f => if f.hi2 = 2 then lat s 5 4 else 2) (arithmetic (· + ·) f32.add) ∧
  LaneWise .vsub (fun s f => if f.hi2 = 2 then lat s 5 4 else 2) (arithmetic (· - ·) f32.sub) ∧
  LaneWise .vmul (fun s f => if f.hi2 = 2 then lat s 5 4 else 3) (arithmetic (· * ·) f32.mul) ∧
  LaneWise .vmin (fun _ _ => 2) (extreme false f32.min) ∧ LaneWise .vmax (fun _ _ => 2) (extreme true f32.max) ∧
  LaneWise .vabs (fun _ _ => 2) (fun _ f x _ =>
    if f.hi2 = 2 then x &&& 0x7fffffff else if f.hi2 = 1 then x
    else onElements f.hi2 (fun w x _ => elementOf f.hi2 (f.fn.getLsbD 0) w x.toInt.natAbs) x x) ∧
  LaneWise .vand (fun _ _ => 2) (fun _ _ => (· &&& ·)) ∧ LaneWise .vor (fun _ _ => 2) (fun _ _ => (· ||| ·)) ∧
  LaneWise .vxor (fun _ _ => 2) (fun _ _ => (· ^^^ ·)) ∧
  LaneWise .vshl (fun _ _ => 2) (shift fun _ x n => x <<< n) ∧ LaneWise .vshr (fun _ _ => 2) (shift fun _ x n => x >>> n) ∧
  LaneWise .vshra (fun _ _ => 2) (shift fun _ x n => x.sshiftRight n) ∧
  (∀ (f : RForm) (s : State), VxReady (.vfma f) s →
    Fills (.vfma f) s 32 (lat s 5 4) f.d (s.team.rm f.g) fun l =>
      BitVec.ofNat 32 (f32.fma (modeOf s f.lo3) (laneOf s f.a l).toNat (laneOf s f.b l).toNat (laneOf s f.d l).toNat))

/-- R251, R252, R255, R256, R258, R259: conversions, block packing, permutes, lane moves, approximations and the latch. -/
def Obligations.VectorMoves : Prop :=
  ∀ (f : RForm) (s : State),
    let active := s.team.rm f.g
    let m := f.lo3.toNat + 2
    (VxReady (.vcvt f) s → Fills (.vcvt f) s 32 3 f.d active fun l =>
      BitVec.ofInt 32 (convert (modeOf s f.lo3) (laneType (f.b.extractLsb' 0 3)) (laneType (f.b.extractLsb' 3 3))
        (laneOf s f.a l).toNat)) ∧
    (VxReady (.vperm f) s → Fills (.vperm f) s 32 3 f.d active fun l => laneOf s f.a ((laneOf s f.b l).toNat % 64)) ∧
    (VxReady (.vshuf f) s → Fills (.vshuf f) s 32 3 f.d active fun l => shuffled f.fn.toNat l (laneOf s f.a) (laneOf s f.b)) ∧
    (VxReady (.vbcast f) s → Fills (.vbcast f) s 32 2 f.d active fun _ => (s.team.rs f.a).extractLsb' 0 32) ∧
    (VxReady (.viota f) s → Fills (.viota f) s 32 2 f.d active fun l => BitVec.ofNat 32 l) ∧
    (VxReady (.vext f) s → Gives (.vext f) s 32 2 f.d
      (if f.hi2 = 0 then (laneOf s f.a f.b.toNat).signExtend 64 else (laneOf s f.a f.b.toNat).setWidth 64)) ∧
    (VxReady (.vins f) s → Fills (.vins f) s 32 2 f.d (BitVec.ofNat 64 (2 ^ f.b.toNat)) fun _ =>
      (s.team.rs f.a).extractLsb' 0 32) ∧
    (VxReady (.vhold f) s → exec (.vhold f) s =
      .next (issued .vx s [result .vx (.vhold f) s 32 2 (.latch (s.team.rv f.a))])) ∧
    (VxReady (.vrcp f) s → Fills (.vrcp f) s 32 8 f.d active fun l =>
      BitVec.ofNat 32 (f32.div .ne 0x3f800000 (laneOf s f.a l).toNat)) ∧
    (VxReady (.vunpk f) s → Fills (.vunpk f) s 32 3 f.d allLanes fun l =>
      BitVec.ofNat 32 (bfpValue m ((s.team.rs f.b).extractLsb' (8 * (l / 32)) 8).toNat
        (mantissa m (s.team.rv f.a) (l / 32) (l % 32)).toInt)) ∧
    (VxReady (.vpack f) s → ∃ (x : VReg) (e : Double) (l₀ l₁ : Landing),
      exec (.vpack f) s = .next (issued .vx s [l₀, l₁]) ∧
      l₀ = result .vx (.vpack f) s 32 3 (.v f.d allLanes x) ∧ l₁ = { result .vx (.vpack f) s 32 3 (.s f.b e) with energy := none } ∧
      (e.toNat < 2 ^ 16 ∧ bitsOf x < 2 ^ (64 * m)) ∧
      ∀ k, k < 2 →
        let block := (List.range 32).map fun j => (laneOf s f.a (32 * k + j)).toNat
        (e.extractLsb' (8 * k) 8).toNat = (bfpPack m block).1 ∧
        ∀ j, j < 32 → (mantissa m x k j).toInt = (bfpPack m block).2.getD j 0)

/-- R253, R254, R257, R258: reductions in the fixed tree, inclusive scans, dot products, and VRSQ, VEXP2 and VLOG2, which land
the rounded value of each lane as the model computes it (log entry 15), with the special cases of R258. -/
def Obligations.VectorReductions : Prop :=
  SpecialValues ∧ ∀ (f : RForm) (s : State),
    let active := s.team.rm f.g
    let pair := f.hi2 = 3
    let op := reduction s f
    (VxReady (.vred f) s → Fills (.vred f) s (elementWidth f.hi2) 6 f.d allLanes fun l =>
      if l = 0 then BitVec.ofNat 32 ((tree op (element s f) (if pair then 7 else 6) 0).getD (identity f)) else 0) ∧
    (VxReady (.vscan f) s → Fills (.vscan f) s (elementWidth f.hi2) 8 f.d active fun l =>
      let v := fun k => (running op (element s f) k).getD 0
      if pair then BitVec.ofNat 16 (v (2 * l + 1)) ++ BitVec.ofNat 16 (v (2 * l)) else BitVec.ofNat 32 (v l)) ∧
    (VxReady (.vdot f) s → Fills (.vdot f) s 32 (lat s 7 6) f.d active fun l =>
      let z := laneOf s f.d l
      let x := laneOf s f.a l
      let y := laneOf s f.b l
      if f.hi2 = 0 then BitVec.ofInt 32 (z.toInt + dot true 8 4 x y)
      else if f.hi2 = 1 then BitVec.ofInt 32 (z.toNat + dot false 8 4 x y)
      else if f.hi2 = 3 then BitVec.ofInt 32 (z.toInt + dot true 16 2 x y)
      else BitVec.ofNat 32 (dotBf16 (modeOf s f.lo3) z.toNat x.toNat y.toNat)) ∧
    (VxReady (.vrsq f) s → Fills (.vrsq f) s 32 8 f.d active fun l => BitVec.ofNat 32 (rsqBits (laneOf s f.a l).toNat)) ∧
    (VxReady (.vexp2 f) s → Fills (.vexp2 f) s 32 8 f.d active fun l => BitVec.ofNat 32 (exp2Of (laneOf s f.a l).toNat)) ∧
    (VxReady (.vlog2 f) s → Fills (.vlog2 f) s 32 8 f.d active fun l => BitVec.ofNat 32 (log2Of (laneOf s f.a l).toNat))

/-- R249, R250, R111, R121, R37, R71, R338: Vector compares, selects and whole-mask operations; every VX operation holds
while a tide runs. -/
def Obligations.VectorMasksAndHolds : Prop :=
  (∀ (f : RForm) (s : State),
     let m := fun n : BitVec 6 => s.team.rm (n.extractLsb' 0 3)
     let d := f.d.extractLsb' 0 3
     let c := f.d.extractLsb' 3 3
     (VxReady (.vcmp f) s → Masks (.vcmp f) s 32 2 d (s.team.rm f.g) fun l =>
       if f.hi2 = 2 then FCompares f32 c (laneOf s f.a l).toNat (laneOf s f.b l).toNat
       else Compares c (laneOf s f.a l) (laneOf s f.b l)) ∧
     (VxReady (.vsel f) s → Fills (.vsel f) s 32 2 f.d allLanes fun l =>
       if (s.team.rm f.g).getLsbD l then laneOf s f.a l else laneOf s f.b l) ∧
     (VxReady (.mand f) s → Masks (.mand f) s 64 2 d allLanes fun l => (m f.a &&& m f.b).getLsbD l) ∧
     (VxReady (.mor f) s → Masks (.mor f) s 64 2 d allLanes fun l => (m f.a ||| m f.b).getLsbD l) ∧
     (VxReady (.mxor f) s → Masks (.mxor f) s 64 2 d allLanes fun l => (m f.a ^^^ m f.b).getLsbD l) ∧
     (VxReady (.mnot f) s → Masks (.mnot f) s 64 2 d allLanes fun l => !(m f.a).getLsbD l) ∧
     (VxReady (.mpop f) s → Gives (.mpop f) s 64 2 f.d (BitVec.ofNat 64 (setLanes (m f.a)).length)) ∧
     (VxReady (.mfirst f) s → Gives (.mfirst f) s 64 2 f.d (BitVec.ofNat 64 ((setLanes (m f.a)).headD 64)))) ∧
  (∀ (f : RForm) (s : State), ¬ VxIdle s →
     ∀ i ∈ [Instr.vadd f, .vsub f, .vmul f, .vfma f, .vmin f, .vmax f, .vabs f, .vand f, .vor f, .vxor f, .vshl f, .vshr f,
       .vshra f, .vcmp f, .vsel f, .vcvt f, .vpack f, .vunpk f, .vred f, .vscan f, .vperm f, .vshuf f, .vbcast f, .vext f,
       .vins f, .viota f, .vrcp f, .vrsq f, .vexp2 f, .vlog2 f, .vdot f, .mand f, .mor f, .mxor f, .mnot f, .mpop f,
       .mfirst f, .vhold f],
       exec i s = .next (held .vx s))

namespace Sys2Proof.Claims

open Machine

/-- An MX operation may issue (R45, R82, R498, R507): its team owns the core's engines, no earlier operation has still to write
a word that it covers, and fewer than 64 operations of the two arrays are in flight. -/
def MxReady (i : Instr) (cover : Option Cover) (s : State) : Prop :=
  i.wf = true ∧ s.team.tid.getLsbD 14 = true ∧ (∀ c ∈ cover, ∀ o ∈ s.core.mxq, ¬ (o.writes = true ∧ o.cover.meets c = true)) ∧
  arraysInFlight s < 64

/-- The elements of a shape of M × N on tile z (R260). -/
def shape (f : MxForm) : Cover := { z := f.z.toNat, row0 := 0, rows := 32 * 2 ^ f.msel.toNat, col0 := 0, cols := 16 * f.n16.toNat }
@[inherit_doc shape] def scaledShape (f : MsForm) : Cover :=
  { z := f.z.toNat, row0 := 0, rows := 32 * 2 ^ f.msel.toNat, col0 := 0, cols := 16 * f.n16.toNat }

/-- The half row that MRD and MWR name (R271). -/
def halfRow (f : MrForm) : Cover := { z := f.z.toNat, row0 := f.row.toNat, rows := 1, col0 := 64 * f.half.toNat, cols := 64 }

/-- Column `j` of row `i`, columns counting on into later tiles (R260). -/
def accWord (a : Acc) (z i j : Nat) : Word32 := nth (a.row (z + j / 128) i) (j % 128) 0

/-- The rows of a cover that hold `v i j`, `i` and `j` counted from the cover's first row and column. -/
def rowsOf (c : Cover) (v : Nat → Nat → Word32) : List (List Word32) :=
  (List.range c.rows).map fun i => (List.range c.cols).map fun j => v i j

/-- The MX position is one of a REPT body. -/
def underRept (s : State) : Bool := ((s.team.placedAt (s.team.passed .mx)).map (·.rept)).getD false

/-- The operation leaves the slot: no byte of memory and no register changes, but that under REPT its address registers step by
their strides (R93). -/
def MxLeaves (regsUsed : List (BitVec 4)) (s t : State) : Prop :=
  Passed .mx s t ∧ t.mem = s.mem ∧ t.team.flight = s.team.flight ∧ t.core.acc = s.core.acc ∧
  regs t.team = regs (if underRept s then
      regsUsed.foldl (fun u r => u.write (.a r (u.ra r + u.rd r))) s.team else s.team)

/-- The operation joins the array's queue, to write `rows` to its covered words `after` MX cycles later (R269, R271). -/
def Queues (s t : State) (c : Cover) (after : Nat) (rows : List (List Word32)) : Prop :=
  ∃ o, t.core.mxq = s.core.mxq ++ [o] ∧ o.cover = c ∧ o.value = rows ∧ o.after = some after ∧ o.writes = true ∧
    o.team = s.team.ref

/-- x × 2^k (R272). -/
def scaled (int : Bool) (k : Int) (x : Word32) : Word32 :=
  if int then
    if 0 ≤ k then x <<< k.toNat else x.sshiftRight (-k).toNat
  else match f32.unpack x.toNat with
    | .nan => 0x7fc00000
    | .inf neg => if neg then 0xff800000 else 0x7f800000
    | .fin neg m e => BitVec.ofNat 32 (if m = 0 then f32.zero neg else f32.round .ne neg m (e + k))

/-- Lines that an operation pins: in the core's pins, held until an MREL when rel = 0 (R266). -/
def Pins (s t : State) (o : MxOp) (bases : List Double) (held : Bool) (lines : List Nat) : Prop :=
  ∃ p, t.core.pins = s.core.pins ++ [p] ∧ p.mid = o.id ∧ p.bases = bases ∧ p.held = held ∧ p.lines = lines ∧ p.ended = false ∧
    p.released = false

/-- The bytes of one row of a panel (R123, R263). -/
def rowBytesOf (fmt : Nat) : Nat := [64, 60, 64, 60, 48, 56, 64, 64, 64, 64, 64].getD fmt 0

/-- An MMA's A panel and its B panel, which the latch replaces with aB = 15, pass their checks at issue (R268, R527). -/
def PanelsOk (f : MxForm) (s : State) (a : Panel) (b : Option Panel) : Prop :=
  panelAt s (.a (decide (f.fmt.toNat ≤ 6))) .read (s.team.ra f.aA) (shape f).rows (rowBytesOf f.fmt.toNat) = .ok a ∧
  if f.aB = 15 then b = none
  else ∃ p, b = some p ∧
    panelAt s (.b (decide (f.fmt.toNat ≤ 6))) .read (s.team.ra f.aB) (shape f).cols (rowBytesOf f.fmt.toNat) = .ok p

/-- The latch holds columns of the operation's format, at least as many as it needs, and nothing is filling it (R268, R270). -/
def LatchOk (f : MxForm) (s : State) : Prop :=
  f.aB = 15 → (∀ o ∈ s.core.mxq, o.fills = false) ∧ s.core.latchOpen = false ∧
    ∃ l, s.core.latch = some l ∧ l.fmt = f.fmt.toNat ∧ (shape f).cols ≤ l.n

/-- The lines of an operation's panels that its L2 holds or will hold, each once. -/
def panelLinesOf (s : State) (a : Panel) (b : Option Panel) : List Nat :=
  dedup (a.lines s.hub.package ++ (b.map (Panel.lines s.hub.package)).getD [])

end Sys2Proof.Claims

/-- R266, R268, R269, R270, R93: an MMA whose panels pass their checks, whose latch fits and whose lines can be pinned joins the
array's queue with ⌈bf × M × N / 16,384⌉ beats, pins its lines, tags its tiles, and steps its address registers under REPT. -/
def Obligations.MatrixProductIssues : Prop :=
  ∀ (f : MxForm) (s : State) (a : Panel) (b : Option Panel), MxReady (.mma f) (some (shape f)) s → LatchOk f s →
    PanelsOk f s a b → pinsFit s.core (panelLinesOf s a b) = true →
    let fmt := f.fmt.toNat
    let c := shape f
    ∃ t o, exec (.mma f) s = .next t ∧ MxLeaves (if f.aB = 15 then [f.aA] else [f.aA, f.aB]) s t ∧
      t.core.mxq = s.core.mxq ++ [o] ∧ o.kind = .mma fmt (decide (f.clr = 1)) (decide (f.hold = 1)) ∧ o.cover = c ∧
      o.writes = true ∧ o.after = none ∧ o.aPanel = some a ∧ o.bPanel = b ∧ o.arrived = false ∧
      16384 * o.beats < rowBytesOf fmt * c.rows * c.cols + 16384 ∧ rowBytesOf fmt * c.rows * c.cols ≤ 16384 * o.beats ∧
      (f.aB = 15 → ∃ l, s.core.latch = some l ∧ o.bCols = some (l.cols.take c.cols)) ∧
      Pins s t o (if f.aB = 15 then [s.team.ra f.aA] else [s.team.ra f.aA, s.team.ra f.aB]) (decide (f.rel = 0))
        (panelLinesOf s a b) ∧
      ∀ z, z < 8 → vget t.core.tags z false =
        if f.z.toNat ≤ z ∧ z < f.z.toNat + (c.cols + 127) / 128 then decide (fmt = 9 ∨ fmt = 10) else vget s.core.tags z false

/-- R82, R507, R45, R509, R71: an MX operation on words that an earlier one has still to write holds; a team that does not own the
engines raises 0x0012 with every MX and RX operation. -/
def Obligations.EngineOwnersAndInterlock : Prop :=
  ∀ (i : Instr) (j : Slot) (s : State),
    ((∃ f, i ∈ [Instr.mma f, .mldb f, .mrel f, .mzero f, .mstz f, .mldz f] ∧ j = .mx) ∨ (∃ f, i ∈ [Instr.mrd f, .mwr f] ∧ j = .mx) ∨
      (∃ f, i = .mscl f ∧ j = .mx) ∨
      (∃ f, i ∈ [Instr.rzero f, .rfeed f, .rfeedl f, .rqapp f, .rread f, .rreadSt f, .rrhs f, .rrhsSt f, .rsolve f, .rlay f,
        .rlayi f, .rvec f, .angc f, .rgain f, .rgainTri f] ∧ j = .rx)) →
    i.wf = true → s.team.trap = none →
    (s.team.tid.getLsbD 14 = false → (j = .rx → s.core.rxBusy = 0) → Raises j i s 0x0012 0) ∧
    (s.team.tid.getLsbD 14 = true → ∀ (o : MxOp) (c : Cover), o ∈ s.core.mxq → o.writes = true → o.cover.meets c = true →
      ((∃ f, (i = .mma f ∨ i = .mzero f ∨ i = .mstz f ∨ i = .mldz f) ∧ c = shape f) ∨
        (∃ f, (i = .mrd f ∨ i = .mwr f) ∧ c = halfRow f) ∨ (∃ f, i = .mscl f ∧ c = scaledShape f)) →
      exec i s = .next (held .mx s))

/-- R271, R272, R82, R260, R266, R271, R273, R225: MZERO, MWR, MSCL, MRD, MLDB, MREL, MLDZ and MSTZ: what each queues or
lands, and that it changes nothing else. -/
def Obligations.MatrixMovesAndTransfers : Prop :=
  ((∀ (f : MxForm) (s : State), MxReady (.mzero f) (some (shape f)) s →
     ∃ t, exec (.mzero f) s = .next t ∧ MxLeaves [] s t ∧
       Queues s t (shape f) (4 + ((shape f).rows * (shape f).cols + 4095) / 4096) (rowsOf (shape f) fun _ _ => 0)) ∧
   (∀ (f : MrForm) (s : State),
     (MxReady (.mrd f) (some (halfRow f)) s → Room s 1 → ∃ x : VReg,
       (∀ l, l < 64 → vget x l 0 = accWord s.core.acc f.z.toNat f.row.toNat (64 * f.half.toNat + l)) ∧
       exec (.mrd f) s = .next (issued .mx (tracked .mx (.mrd f) VReg.zero 8 s) [result .mx (.mrd f) s 32 8 (.v f.v (BitVec.allOnes 64) x)])) ∧
     (MxReady (.mwr f) (some (halfRow f)) s → ∃ t, exec (.mwr f) s = .next t ∧ MxLeaves [] s t ∧
       Queues s t (halfRow f) 4 (rowsOf (halfRow f) fun _ l => vget (s.team.rv f.v) l 0))) ∧
   (∀ (f : MsForm) (s : State), MxReady (.mscl f) (some (scaledShape f)) s →
     ∃ t, exec (.mscl f) s = .next t ∧ MxLeaves [] s t ∧
       Queues s t (scaledShape f) (4 + ((scaledShape f).rows * (scaledShape f).cols + 1023) / 1024)
         (rowsOf (scaledShape f) fun i j =>
           scaled (vget s.core.tags (f.z.toNat + j / 128) false) f.k.toInt (accWord s.core.acc f.z.toNat i j)))) ∧
  (∀ (f : MxForm) (s : State) (p : Panel),
     let c := shape f
     (MxReady (.mldb f) none s →
       panelAt s (.b (decide (f.fmt.toNat ≤ 6))) .read (s.team.ra f.aB) c.cols (rowBytesOf f.fmt.toNat) = .ok p →
       pinsFit s.core (dedup (p.lines s.hub.package)) = true →
       ∃ t o, exec (.mldb f) s = .next t ∧ MxLeaves [f.aB] s t ∧ t.core.mxq = s.core.mxq ++ [o] ∧
         o.kind = .mldb f.fmt.toNat ∧ o.cover.cols = c.cols ∧ o.writes = false ∧ o.bPanel = some p ∧ o.arrived = false ∧
         Pins s t o [] false (dedup (p.lines s.hub.package))) ∧
     (MxReady (.mrel f) none s → ∃ t, exec (.mrel f) s = .next t ∧ MxLeaves [f.aA] s t ∧ t.core.mxq = s.core.mxq ∧
       t.core.pins = (s.core.pins.map fun q =>
         if q.held = true ∧ s.team.ra f.aA ∈ q.bases then { q with released := true } else q).filter
           fun q => !(q.ended && (!q.held || q.released))) ∧
     (MxReady (.mldz f) (some c) s → 4 ∣ (s.team.ra f.aA).toNat →
       panelAt s .tile .read (s.team.ra f.aA) c.rows (4 * c.cols) = .ok p →
       ∃ t o, exec (.mldz f) s = .next t ∧ MxLeaves [f.aA] s t ∧ t.core.mxq = s.core.mxq ++ [o] ∧ o.kind = .mldz ∧
         o.cover = c ∧ o.writes = true ∧ o.aPanel = some p ∧ o.arrived = false ∧ o.after = none) ∧
     (MxReady (.mstz f) (some c) s → 4 ∣ (s.team.ra f.aA).toNat →
       panelAt s .tile .write (s.team.ra f.aA) c.rows (4 * c.cols) = .ok p →
       ∃ t x data, exec (.mstz f) s = .next t ∧ MxLeaves [f.aA] s t ∧ t.core.mxq = s.core.mxq ∧
         t.team.vars = s.team.vars ++ [x] ∧ x.op = .mstz data ∧ x.phase = .pending ∧
         x.parts = (p.pieces.map fun q => { ipa := q.1, size := q.2, lane := 0, data := 0 }) ∧
         data.length = 4 * c.rows * c.cols ∧
         (∀ i j, i < c.rows → j < c.cols →
           number ((data.drop (4 * (i * c.cols + j))).take 4) = (accWord s.core.acc f.z.toNat i j).toNat) ∧
         ∀ sc, (Unacknowledged t sc).length = (Unacknowledged s sc).length + 1))

/-- R269, R82, R167, R166, R264, R267: A completing MX operation writes the words it covers and no other; an integer
product is exact modulo 2^32. -/
def Obligations.MatrixWritesAndFetches : Prop :=
  ((∀ (s : State) (o : MxOp), Foreground s s.occ.team → s.core.mxq.find? (fun o => o.id = s.occ.id) = some o →
     o.value.length = o.cover.rows → (∀ r ∈ o.value, r.length = o.cover.cols) →
     o.cover.row0 + o.cover.rows ≤ 128 → 128 * o.cover.z + o.cover.col0 + o.cover.cols ≤ 1024 →
     ∃ t, exec .mmaWrite s = .next t ∧ t.mem = s.mem ∧ SameRegs s.team t.team ∧
       t.core.mxq = s.core.mxq.filter (fun x => x.id ≠ o.id) ∧
       ∀ i j, i < 128 → j < 1024 → accWord t.core.acc 0 i j =
         if o.cover.row0 ≤ i ∧ i < o.cover.row0 + o.cover.rows ∧ 128 * o.cover.z + o.cover.col0 ≤ j ∧
             j < 128 * o.cover.z + o.cover.col0 + o.cover.cols then
           nth (nth o.value (i - o.cover.row0) []) (j - (128 * o.cover.z + o.cover.col0)) 0
         else accWord s.core.acc 0 i j) ∧
   (∀ (fmt : Nat) (clr : Bool) (old : List (List Word32)) (as bs : List (List Byte × List Nat)) (i j : Nat), fmt = 9 ∨ fmt = 10 →
     i < as.length → i < old.length → j < bs.length → j < (nth old i []).length →
     let elem := fun (r : List (List Byte × List Nat)) (n k : Nat) =>
       let x : Byte := nth (nth r n ([], [])).1 k 0
       if fmt = 9 then x.toInt else (x.toNat : Int)
     (nth as i ([], [])).1.length = 64 → (nth bs j ([], [])).1.length = 64 →
     nth (nth (mmaValue fmt clr old as bs) i []) j 0 =
       BitVec.ofInt 32 ((if clr then 0 else ((nth (nth old i []) j 0).toInt)) +
         ((List.range 64).map fun k => elem as i k * elem bs j k).sum))) ∧
  (∀ (s u : State) (o : MxOp), Foreground s s.occ.team → s.core.mxq.find? (fun o => o.id = s.occ.id) = some o →
     fillL2 s.core.die (s.teamAt o.team) .tf s.occ.aux s = (none, u) →
     ∃ t, exec .tileFetchLineArrival s = .next t ∧ SameRegs s.team t.team ∧ t.team.passed = s.team.passed ∧
       t.core.mxq = s.core.mxq.map fun x => if x.id = o.id then { o with waiting := o.waiting.filter (· ≠ s.occ.aux),
                                                                         held := o.held.filter (· ≠ s.occ.aux) } else x)

namespace Sys2Proof.Claims

open Machine

/-- The f32 patterns of `n` lanes of a v-register of the team, from lane `lo` up. -/
def patterns (s : State) (v : BitVec 6) (lo n : Nat) : List Nat := (List.range n).map fun i => (laneOf s v (lo + i)).toNat

/-- Values that may enter the array (R514): no NaN, no infinity, no magnitude of 2^126 or above. -/
def MayEnter (xs : List Nat) : Prop := ∀ x ∈ xs, x / 2 ^ 23 % 2 ^ 8 < 253

/-- An RX operation may issue: the team owns the engines, none of its occupations runs (R69, R70), and fewer than 64
operations of the two arrays are in flight (R422, R507). -/
def RxReady (i : Instr) (s : State) : Prop :=
  i.wf = true ∧ s.team.tid.getLsbD 14 = true ∧ s.core.rxBusy = 0 ∧ arraysInFlight s < 64

/-- The core's RX engine is occupied by the team for `n` MX cycles, 0 for an operation that occupies nothing (R69). -/
def occupied (n : Nat) (s : State) : State :=
  if n = 0 then s else { s with core := { s.core with rxBusy := n, rxTeam := s.team.ref } }

/-- The row number of RREAD, k of RLAY and n of RGAIN. -/
def rowNumber (f : RxForm) : Nat := (f.op.extractLsb' 0 4).toNat
@[inherit_doc rowNumber] def pairDistance (f : RxForm) : Nat := (f.op.extractLsb' 5 3).toNat
@[inherit_doc rowNumber] def gainCount (f : RxForm) : Nat := (f.op.extractLsb' 0 6).toNat

/-- An operation with a v-register result: its latency and occupation in MX cycles, the values that enter, the source that its array
entry holds (R424), and its result from tri as it has landed and its sources (R275, R279 to R286). -/
structure RxResult where
  f : RxForm
  lat : Nat
  busy : Nat
  enters : List Nat
  src : VReg
  value : VReg

/-- The operations with a result. -/
def rxResultOf (s : State) : Instr → Option RxResult
  | .rqapp f => some ⟨f, 40, 4, patterns s f.va 0 17, s.team.rv f.va, rqappValue (f.op.getLsbD 0) s.core.pendingTri (s.team.rv f.va)⟩
  | .rread f => some ⟨f, 6, 0, [], VReg.zero, rreadValue s.core.tri (rowNumber f)⟩
  | .rrhs f => some ⟨f, 6, 0, [], VReg.zero, rrhsValue s.core.tri⟩
  | .rlay f => some ⟨f, 24, 0, patterns s f.va 0 64, s.team.rv f.va,
      rlayValue (f.op.getLsbD 0) false (pairDistance f) (s.team.rv f.va) (s.team.rv f.vb)⟩
  | .rlayi f => some ⟨f, 24, 0, patterns s f.va 0 64, s.team.rv f.va,
      rlayValue (f.op.getLsbD 0) true (pairDistance f) (s.team.rv f.va) (s.team.rv f.vb)⟩
  | .rvec f => some ⟨f, 40, 0, patterns s f.va 0 64, s.team.rv f.va, rvecValue (s.team.rv f.va)⟩
  | .angc f => some ⟨f, 8, 0, [], s.team.rv f.va, angcValue (f.op.getLsbD 0) (s.team.rv f.va)⟩
  | .rgain f => some ⟨f, 12, 0, [], s.team.rv f.va, (s.team.rv f.va).map (gainLane (gainCount f))⟩
  | _ => none

/-- An operation that updates tri: its landing and occupation in MX cycles, whether it is a feed, the values that enter, and
what it makes of tri as the operations before it leave it (R275, R277, R280, R281, R286, R287). -/
structure RxUpdate where
  lat : Nat
  busy : Nat
  feed : Bool
  clears : Bool
  enters : List Nat
  update : Tri → Tri

/-- The operations that update tri. -/
def rxUpdateOf (s : State) : Instr → Option RxUpdate
  | .rzero _ => some ⟨1, 0, false, true, [], fun _ => Tri.zero⟩
  | .rfeed f => some ⟨40, 4, true, false, patterns s f.va 0 17, feedTri (f.op.getLsbD 0) (f.op.getLsbD 1) (s.team.rv f.va)⟩
  | .rfeedl f => some ⟨44, 4, true, false, patterns s f.va 0 17, fun t =>
      feedTri (f.op.getLsbD 0) (f.op.getLsbD 1) (s.team.rv f.va) (forgetTri (f.op.extractLsb' 4 4).toNat t)⟩
  | .rreadSt f => some ⟨6, 0, false, false, patterns s f.va (rowNumber f) (17 - rowNumber f), fun t =>
      rreadStore t (rowNumber f) (s.team.rv f.va)⟩
  | .rrhsSt f => some ⟨6, 0, false, false, patterns s f.va 0 16, fun t => rrhsStore t (s.team.rv f.va)⟩
  | .rgainTri f => some ⟨12, 0, false, false, [], gainTri (gainCount f)⟩
  | _ => none

/-- No earlier update is in flight that the operation must wait for (R275). -/
def PlacedInTime (x : RxUpdate) (s : State) : Prop :=
  if x.feed then ∀ o ∈ s.core.rxq, o.feed = true else s.core.rxq = []

/-- A diagonal element of tri is zero, or its row is (R517). -/
def Singular (t : Tri) : Prop := ∃ i, i < 16 ∧ ((t.row i).g = 0 ∨ nth (t.row i).r i 0 = 0)

end Sys2Proof.Claims

/-- R275, R279 to R286, R104, R69, R422: the RX operations with a v-register result issue with that one result, are counted among
the operations in flight, read tri as it has landed (RQAPP as its feeds leave it), occupy the engine where R69 says so, and change
tri and memory in nothing. -/
def Obligations.RotationResults : Prop :=
  ∀ (i : Instr) (s : State),
    (∀ x, rxResultOf s i = some x → RxReady i s → Room s 1 → MayEnter x.enters →
      exec i s = .next (issued .rx (tracked .rx i x.src x.lat (occupied x.busy s))
        [result .rx i s 32 x.lat (.v x.f.vd (BitVec.allOnes 64) x.value)])) ∧
    (∀ f, i = .rsolve f → RxReady i s → Room s 1 → s.core.tri.range = false → ¬ Singular s.core.tri →
      exec i s = .next (issued .rx (tracked .rx i VReg.zero 80 (occupied 16 s))
        [result .rx i s 32 80 (.v f.vd (BitVec.allOnes 64) (rsolveValue s.core.tri))]))

/-- R275, R277, R280, R281, R286, R287, R515, R514, R515, R517, R275, R70, R507: Updates of tri take effect in issue order
and land later; what an RX operation raises has no effect. -/
def Obligations.RotationUpdatesAndTraps : Prop :=
  (∀ (i : Instr) (s : State) (x : RxUpdate), rxUpdateOf s i = some x → RxReady i s → PlacedInTime x s → MayEnter x.enters →
     (s.core.tri.range = false ∨ x.clears = true) →
     ∃ t o, exec i s = .next t ∧ Passed .rx s t ∧ t.core.tri = s.core.tri ∧ t.core.rxq = s.core.rxq ++ [o] ∧ o.rem = x.lat ∧
       o.feed = x.feed ∧ o.team = s.team.ref ∧ o.tri = x.update (((s.core.rxq.getLast?).map (·.tri)).getD s.core.tri) ∧
       t.core.rxBusy = x.busy ∧ (x.busy ≠ 0 → t.core.rxTeam = s.team.ref) ∧ SameRegs s.team t.team ∧
       t.team.flight = s.team.flight ∧ t.mem = s.mem) ∧
  (∀ (i : Instr) (s : State), i.wf = true → s.team.tid.getLsbD 14 = true → s.team.trap = none →
     (∀ x, rxResultOf s i = some x → RxReady i s → Room s 1 → ¬ MayEnter x.enters → Raises .rx i s 0x0031 0) ∧
     (∀ x, rxUpdateOf s i = some x → RxReady i s →
       (¬ PlacedInTime x s → Raises .rx i s 0x0018 0) ∧
       (PlacedInTime x s → (¬ MayEnter x.enters ∨ s.core.tri.range = true ∧ x.clears = false) → Raises .rx i s 0x0031 0)) ∧
     (∀ f, i = .rsolve f → RxReady i s → Room s 1 →
       (s.core.tri.range = true → Raises .rx i s 0x0031 0) ∧
       (s.core.tri.range = false → Singular s.core.tri → Raises .rx i s 0x0030 0)) ∧
     ((rxResultOf s i).isSome = true ∨ (rxUpdateOf s i).isSome = true ∨ (∃ f, i = .rsolve f) → 0 < s.core.rxBusy →
       (s.core.rxTeam = s.team.ref → Raises .rx i s 0x0018 0) ∧
       (s.core.rxTeam ≠ s.team.ref → exec i s = .next (held .rx s))))

namespace Sys2Proof.Claims

open Machine

/-- A DX operation may issue (R45, R69, R71, R289): no occupation runs, its team owns the engines where the operation is the
owner's, and the copy queue has an entry free. -/
def DxReady (i : Instr) (owner : Bool) (s : State) : Prop :=
  i.wf = true ∧ s.core.dxBusy = 0 ∧ (owner = true → s.team.tid.getLsbD 14 = true) ∧ s.core.copies.length < 16

/-- The team's die and core stand in the foreground, and no copy and no write of the team has the identity that comes next. -/
def Numbered (s : State) : Prop :=
  Foreground s s.team.ref ∧ (∀ c ∈ s.core.copies, c.id < s.fresh) ∧ ∀ w ∈ s.team.writes, w.id < s.fresh

/-- The operation leaves the slot with an entry of the copy queue (R289, R355): no register changes and nothing lands; RELC
counts `n` writes more. -/
def Enqueues (s t : State) (c : Copy) (n : Nat) : Prop :=
  Passed .dx s t ∧ t.team.flight = s.team.flight ∧ t.core.copies = s.core.copies ++ [c] ∧ c.team = s.team.ref ∧
  c.tenant = s.team.tenant ∧ c.vwin = s.team.vwin ∧ c.pos = s.team.passed .dx ∧ c.held = false ∧
  ∀ sc, Counted t sc = Counted s sc + n

/-- The copy's beats run, or its completion is due or waits at the socket of the core's die (R79, R293, R458). -/
def Runs (s t : State) (c : Copy) : Prop :=
  c.beats.isSome = true ∨ (∃ n, (n, .copyComplete, { team := c.team, id := c.id }) ∈ t.timers) ∨
  ∃ q ∈ t.hub.links, q.link = 80 + s.core.die ∧ q.out = true ∧
    ∃ k r, (k, r) ∈ q.waiting ∧ r.what = some (.copyComplete, { team := c.team, id := c.id })

/-- An address register as a byte address. -/
def addressOf (s : State) (n : BitVec 4) : Nat := (s.team.ra n).toNat

/-- The low eight bits of a DX word's field: a beat or slot count (R126). -/
def countOf (f : DxForm) : Nat := (f.f.extractLsb' 0 8).toNat

/-- The shoal number of a sweep operation, and the ring number of CPYR and RINIT (R126). -/
def shoalOfWord (f : DxForm) : Nat := (f.f.extractLsb' 10 2).toNat
@[inherit_doc shoalOfWord] def ringOfWord (f : DxForm) : Nat := (f.f.extractLsb' 9 3).toNat

/-- Every byte of a range of the own LM lies in a grant of the tenant (R346). -/
def Granted (s : State) (off n : Nat) : Prop :=
  off + n ≤ 2 ^ 21 ∧ ∀ k, k < n → lmGranted s s.team.tenant s.team.ref.die s.team.ref.lcore (off + k) = true

/-- The team's die and core are of the package and stand in the foreground. -/
def OnCore (s : State) : Prop := s.team.ref.die < 8 ∧ s.team.ref.lcore < 64 ∧ Foreground s s.team.ref

/-- The bytes of a range of the own LM. -/
def ownRange (s : State) (off n : Nat) : List Byte := (List.range n).map fun k => ownByte s (off + k)

/-- The lowest address of the local view (R344). -/
def localBase : Nat := 0x00ffffffffe00000

/-- The sweep operations other than SHOAL, with what they enqueue and the image address that REEF names (R316, R317, R333,
R334). -/
def sweepKind (s : State) : Instr → Option (DxForm × CopyKind × Option Nat)
  | .ctxi f => some (f, .ctxi (shoalOfWord f) ((s.team.rs f.cr).extractLsb' 0 32), none)
  | .reefLd f => some (f, .reefLd (shoalOfWord f) (addressOf s f.aS), some (addressOf s f.aS))
  | .reefSt f => some (f, .reefSt (shoalOfWord f) (addressOf s f.aS), some (addressOf s f.aS))
  | .reefWake f => some (f, .reefWake (shoalOfWord f), none)
  | .reefClr f => some (f, .reefClr (shoalOfWord f), none)
  | .tide f => some (f, .tide (shoalOfWord f) f.cr 1 false, none)
  | .tideq f => some (f, .tide (shoalOfWord f) f.cr (countOf f) true, none)
  | _ => none

/-- The status register that a TIDE or TIDEQ names. -/
def statusOf : Instr → Option (BitVec 6)
  | .tide f | .tideq f => some f.cr
  | _ => none

/-- No SHOAL on h waits in the copy queue, so that its binding is what the operation finds (R336, R518). -/
def NoPendingShoal (s : State) (h : Nat) : Prop := ∀ c ∈ s.core.copies, ∀ d, c.kind ≠ .shoal h d

/-- The entry that the event names is the oldest of the foreground core's copies, and no stall bundle stands there (R100). -/
def Oldest (s : State) (c : Copy) : Prop :=
  Foreground s s.occ.team ∧ s.core.stalled = false ∧ c.team = s.team.ref ∧ s.core.copies.find? (fun c => c.id = s.occ.id) = some c ∧
  ∀ x ∈ s.core.copies, x.kind.isSweep = false → c.id ≤ x.id

/-- The image with beats moved one after another from another image. -/
def moved (old : Nat → Byte) : List (Nat × Nat) → (Nat → Byte) → (Nat → Byte)
  | [], img => img
  | (src, dst) :: bs, img => moved old bs fun o => if dst ≤ o ∧ o < dst + 64 then old (src + (o - dst)) else img o

/-- The offsets of the parts of a shoal's region (R309). -/
def contextAt (h : Shoal) (e : Nat) : Nat := h.plane + 8 * (64 * ((h.cfg.extractLsb' 0 16).toNat / 64 + 1)) + 16 * e
@[inherit_doc contextAt] def reefBits (h : Shoal) : Nat := h.plane + 24 * (64 * ((h.cfg.extractLsb' 0 16).toNat / 64 + 1))

/-- Element `e`'s reef bit in an image. -/
def reefBit (h : Shoal) (img : Nat → Byte) (e : Nat) : Bool := (peek img (reefBits h + 8 * (e / 64)) 8).testBit (e % 64)

end Sys2Proof.Claims

/-- R300, R532, R298, R299: CPYR raises 0x0018 for more slots than the ring has and holds while the ring has too few free slots;
otherwise it takes its slots from tail at once, and moves later. RINIT binds its ring to a descriptor of the owner's grant and
writes the counters head, tail and filled 0 and free cnt + 1; one that is not 32-byte aligned leaves the ring unbound, and its
trap comes later. -/
def Obligations.RingCopiesAndBinding : Prop :=
  ∀ (f : DxForm) (s : State), OnCore s →
    (∀ r, DxReady (.cpyr f) false s → Numbered s → Holds s (ringOfWord f) r →
      (r.cnt + 1 < countOf f → s.team.trap = none → Raises .dx (.cpyr f) s 0x0018 0) ∧
      (countOf f ≤ r.cnt + 1 → r.free < countOf f → exec (.cpyr f) s = .next (held .dx s)) ∧
      (countOf f ≤ r.cnt + 1 → countOf f ≤ r.free → ∃ t c, exec (.cpyr f) s = .next t ∧
        Enqueues s t c (countOf f * ((2 ^ r.lsz + 63) / 64)) ∧
        c.kind = .cpyr (ringOfWord f) (addressOf s f.aS) r.base r.lsz r.cnt r.tail (countOf f) ∧ Runs s t c ∧
        t.core.fills = s.core.fills ++ [{ ring := ringOfWord f, copy := some c.id, n := countOf f }] ∧
        SameRegs s.team t.team ∧
        LmBecomes s t (counters { r with tail := (r.tail + countOf f) % (r.cnt + 1), free := r.free - countOf f }
          (ownByte s)))) ∧
    (DxReady (.rinit f) true s → AllFilled s (ringOfWord f) → ∀ off cnt lsz base, addressOf s f.aS = localBase + off →
      32 ∣ off → off + 32 ≤ 2 ^ 21 →
      peek (ownByte s) off 8 / 2 ^ 32 % 2 ^ 12 = cnt → peek (ownByte s) off 8 / 2 ^ 24 % 2 ^ 4 = lsz →
      peek (ownByte s) off 8 % 2 ^ 21 = base → 3 ≤ lsz → lsz ≤ 12 → 2 ^ lsz ∣ base →
      ownGrant s.team off 32 = true → ownGrant s.team base ((cnt + 1) * 2 ^ lsz) = true →
      ∃ t, exec (.rinit f) s = .next t ∧ Passed .dx s t ∧ SameRegs s.team t.team ∧
        vget t.core.rings (ringOfWord f) none = some { off := off, cnt := cnt, lsz := lsz, base := base } ∧
        LmBecomes s t (poke (poke (poke (poke (ownByte s) (off + 8) 4 0) (off + 12) 4 0) (off + 16) 4 0) (off + 20) 4
          (cnt + 1))) ∧
    (DxReady (.rinit f) true s → ¬ 32 ∣ addressOf s f.aS →
      ∃ t, exec (.rinit f) s = .next t ∧ Passed .dx s t ∧ SameRegs s.team t.team ∧ t.mem = s.mem ∧
        vget t.core.rings (ringOfWord f) none = none ∧
        .event .deferredTrap { team := s.team.ref, aux := 0x0020, id := addressOf s f.aS,
                               w := ((encode (.rinit f)).getD 0).setWidth 64 } ∈ t.agenda)

/-- R289, R293, R297, R303, R69, R184, R355, R289, R294, R295, R314, R518: CPY, CPY2, CPYG, WSLD, CPYL and SHOAL leave the
slot with an entry of the copy queue, and move nothing yet. -/
def Obligations.CopiesAndDescriptorCopiesIssue : Prop :=
  (∀ (f : DxForm) (s : State) (i : Instr) (owner : Bool) (k : CopyKind) (busy lines : Nat),
     let count := ((s.team.rs f.cr).extractLsb' 0 32).toNat
     (i = .cpy f ∧ owner = false ∧ k = .cpy (addressOf s f.aD) (addressOf s f.aS) 0 0 (countOf f) (countOf f) ∧
         busy = countOf f ∧ lines = countOf f) ∨
       (i = .cpy2 f ∧ owner = false ∧ k = .cpy (addressOf s f.aD) (addressOf s f.aS) (s.team.rd f.aD).toNat
         (s.team.rd f.aS).toNat (countOf f) (f.f.extractLsb' 8 4).toNat ∧ busy = countOf f ∧ lines = countOf f) ∨
       (i = .cpyg f ∧ owner = false ∧ k = .cpyg (addressOf s f.aD) (addressOf s (f.f.extractLsb' 5 4)) (addressOf s f.aS) count
         (f.f.extractLsb' 9 3).toNat ∧ busy = 0 ∧ lines = count) ∨
       (i = .wsld f ∧ owner = true ∧ k = .wsld (addressOf s f.aD) (addressOf s f.aS) count ∧ busy = 0 ∧ lines = count / 64) →
     DxReady i owner s →
     ((i = .cpyg f ∨ i = .wsld f) → count = 0 → exec i s = .next (retired .dx i s 8)) ∧
     ((i = .cpy f ∨ i = .cpy2 f ∨ 0 < count) → Numbered s →
       ∃ t c, exec i s = .next t ∧ Enqueues s t c lines ∧ c.kind = k ∧ Runs s t c ∧ t.core.dxBusy = busy ∧
         SameRegs s.team t.team ∧ t.mem = s.mem)) ∧
  (∀ (f : DxForm) (s : State), OnCore s →
     (∀ off x, DxReady (.cpyl f) false s → Numbered s → (∀ c ∈ s.core.copies, c.kind.isSweep = true) →
       addressOf s f.aS = localBase + off → 64 ∣ off → Granted s off 96 → tensorOf (ownRange s off 96) = some x →
       ∃ t c, exec (.cpyl f) s = .next t ∧ SameRegs s.team t.team ∧ t.mem = s.mem ∧
         Enqueues s t c ((x.total - 4096 * x.next + 63) / 64 + (x.granules - x.next) + 1) ∧
         c.kind = .cpyl (addressOf s f.aS) ∧ c.tensor = some x ∧ c.beats.isSome = true ∧
         x.src = peek (ownByte s) off 8 ∧ x.dst = peek (ownByte s) (off + 8) 8) ∧
     (DxReady (.shoal f) true s → ∀ off, addressOf s f.aS = localBase + off → 32 ∣ off → Granted s off 32 →
       4 ∣ peek (ownByte s) (off + 16) 8 →
       ∃ t c, exec (.shoal f) s = .next t ∧ Enqueues s t c 0 ∧ c.kind = .shoal (shoalOfWord f) (addressOf s f.aS) ∧
         SameRegs s.team t.team ∧ t.mem = s.mem) ∧
     (DxReady (.shoal f) true s → s.team.trap = none → ¬ 32 ∣ addressOf s f.aS →
       Raises .dx (.shoal f) s 0x0020 (addressOf s f.aS)))

/-- R316, R317, R333, R334, R340, R518, R79, R316, R317, R309, R289: CTXI, REEF, TIDE and TIDEQ wait in the copy queue,
and CTXI and REEF change only their shoal as they are performed. -/
def Obligations.SweepOperations : Prop :=
  (∀ (i : Instr) (s : State) (f : DxForm) (k : CopyKind) (image : Option Nat), sweepKind s i = some (f, k, image) →
     DxReady i true s → NoPendingShoal s (shoalOfWord f) →
     let binding := vget s.core.shoals (shoalOfWord f) none
     (∀ x, binding = some x → x.invalid = false → (∀ a ∈ image, 8 ∣ a) →
       ∃ t c, exec i s = .next t ∧ Enqueues s t c (if (statusOf i).isSome then 0 else 1) ∧ c.kind = k ∧ t.mem = s.mem ∧
         match statusOf i with
         | some cr => ∃ u, RegsWith (.s cr u) s.team t.team
         | none => SameRegs s.team t.team) ∧
     (binding = none → s.team.trap = none → Raises .dx i s 0x0018 0) ∧
     (∀ x, binding = some x → x.invalid = true → s.team.trap = none → Raises .dx i s 0x0011 x.desc) ∧
     (∀ x a, binding = some x → x.invalid = false → image = some a → ¬ 8 ∣ a → s.team.trap = none → Raises .dx i s 0x0020 a)) ∧
  (∀ (s : State) (c : Copy) (h : Shoal) (n : Nat), Foreground s s.occ.team → s.core.stalled = false → c.team = s.team.ref →
     s.core.copies.find? (fun c => c.id = s.occ.id) = some c → vget s.core.shoals c.kind.h none = some h → h.invalid = false →
     h.plane + h.size ≤ 2 ^ 21 → n = (h.cfg.extractLsb' 0 16).toNat + 1 →
     (∀ img, c.kind = .ctxi c.kind.h img →
       ∃ t, exec .copyComplete s = .next t ∧ SameRegs s.team t.team ∧
         (∀ e, e < n → peek (ownByte t) (contextAt h e) 4 = img.toNat ∧ peek (ownByte t) (contextAt h e + 4) 4 = 0 ∧
           peek (ownByte t) (contextAt h e + 8) 8 = 0 ∧ reefBit h (ownByte t) e = img.getLsbD 20)) ∧
     (∀ on, (c.kind = .reefWake c.kind.h ∧ on = true) ∨ (c.kind = .reefClr c.kind.h ∧ on = false) →
       ∃ t, exec .copyComplete s = .next t ∧ SameRegs s.team t.team ∧
         (∀ e, e < n → reefBit h (ownByte t) e = on) ∧
         (∀ o, o < reefBits h → ownByte t o = ownByte s o) ∧
         (∀ o, h.plane + h.size ≤ o → o < 2 ^ 21 → ownByte t o = ownByte s o)) ∧
     (∀ t, (∃ img, c.kind = .ctxi c.kind.h img) ∨ c.kind = .reefWake c.kind.h ∨ c.kind = .reefClr c.kind.h →
       exec .copyComplete s = .next t → t.core.copies.map (·.id) = (s.core.copies.map (·.id)).filter (· ≠ c.id) ∧
         ∀ k, k < lmKey s.team.ref.die s.team.ref.lcore h.plane ∨
           lmKey s.team.ref.die s.team.ref.lcore (h.plane + h.size) ≤ k → t.mem.byte k = s.mem.byte k))

/-- R292, R293, R289, R184, R294, R295, R292, R184: Copies and descriptor copies within one core's LM move exactly their
bytes, in beats and in granules, and leave the queue. -/
def Obligations.CopiesMoveTheirBytes : Prop :=
  (∀ (s : State) (c : Copy) (dst src ds ss beats row : Nat) (srcOff dstOff : Nat → Nat), Oldest s c → OnCore s →
     c.moved = 0 → c.kept = [] → c.kind = .cpy dst src ds ss beats row → 64 ∣ dst → 64 ∣ src → 64 ∣ ds → 64 ∣ ss →
     (∀ b, b < beats → (src + b / row * ss + 64 * (b % row)) % 2 ^ 64 = localBase + srcOff b ∧ Granted s (srcOff b) 64 ∧
       (dst + b / row * ds + 64 * (b % row)) % 2 ^ 64 = localBase + dstOff b ∧ Granted s (dstOff b) 64) →
     ∃ t, exec .copyComplete s = .next t ∧ SameRegs s.team t.team ∧
       LmBecomes s t (moved (ownByte s) ((List.range beats).map fun b => (srcOff b, dstOff b)) (ownByte s)) ∧
       t.core.copies.map (·.id) = (s.core.copies.map (·.id)).filter (· ≠ c.id) ∧
       t.team.writes = s.team.writes.filter fun w => some w.id ≠ c.wid) ∧
  (∀ (s : State) (c : Copy) (x : Tensor) (off so dst n : Nat), Oldest s c → OnCore s → c.kept = [] →
     c.kind = .cpyl (localBase + off) → c.tensor = some x → 64 ∣ off → Granted s off 96 →
     x.n = [n, 1, 1, 1] → x.src = localBase + so → x.dst = localBase + dst → Granted s so n → Granted s dst n →
     (so + n ≤ dst ∨ dst + n ≤ so) →
     (x.next * 4096 < n → ∃ t c', exec .cpylProgress s = .next t ∧ SameRegs s.team t.team ∧
       LmBecomes s t (poke (fun o =>
         if dst + 4096 * x.next ≤ o ∧ o < dst + min (4096 * (x.next + 1)) n then ownByte s (so + (o - dst)) else ownByte s o)
           (off + 80) 8 (x.next + 1)) ∧
       c' ∈ t.core.copies ∧ c'.id = c.id ∧ c'.tensor = some { x with next := x.next + 1 } ∧ c'.beats.isSome = true) ∧
     (n ≤ x.next * 4096 → ∃ t, exec .cpylProgress s = .next t ∧ SameRegs s.team t.team ∧
       LmBecomes s t (poke (ownByte s) (off + 88) 8 1) ∧
       t.core.copies.map (·.id) = (s.core.copies.map (·.id)).filter (· ≠ c.id) ∧
       t.team.writes = s.team.writes.filter fun w => some w.id ≠ c.wid))

namespace Sys2Proof.Claims

open Machine

/-- A group of the running chunk's contexts executes (R326): its shoal is bound, and its lanes are contexts, each once. -/
def GroupRuns (s : State) (h : Shoal) : Prop :=
  vget s.core.shoals s.core.sweep.h none = some h ∧ h.invalid = false ∧ s.core.sweep.lanes.Nodup ∧
  ∀ l ∈ s.core.sweep.lanes, l < s.core.sweep.runners.length

/-- A context register: e0, e1, e2 and the element's value (R127, R318). -/
def contextReg (r : Runner) (n : BitVec 2) : Word32 := if n = 0 then r.e0 else if n = 1 then r.e1 else if n = 2 then r.e2 else r.ev
@[inherit_doc contextReg] def withContextReg (r : Runner) (n : BitVec 2) (x : Word32) : Runner :=
  if n = 0 then { r with e0 := x } else if n = 1 then { r with e1 := x } else if n = 2 then { r with e2 := x } else { r with ev := x }

/-- The second operand: a register, or a 16-bit constant, sign-extended for i32 and the high half for f32 (R128, R320). -/
def secondOperand (f : CxForm) (r : Runner) : Word32 :=
  if f.i = 1 then if f.t = 1 then f.k ++ (0 : BitVec 16) else f.k.signExtend 32 else contextReg r f.b
@[inherit_doc secondOperand] def bitOperand (b : BitVec 2) (i : BitVec 1) (k : BitVec 16) (r : Runner) : Word32 :=
  if i = 1 then k.signExtend 32 else contextReg r b

/-- The context goes on at the next word (R322). -/
def onward (r : Runner) : Runner := { r with cpc := r.cpc + 1, ops := r.ops + 1 }
@[inherit_doc onward] def jumped (r : Runner) (t : BitVec 12) : Runner := { r with cpc := t.toNat, ops := r.ops + 1 }

/-- The context's run ends (R311, R323): word 0 keeps its wakes and takes the state, the cond and the cpc. -/
def ended (r : Runner) (state cond cpc : Nat) : Runner :=
  { r with w0 := (r.w0 &&& 0xff000000) ||| BitVec.ofNat 32 (state * 2 ^ 20 + cond * 2 ^ 16 + cpc % 2 ^ 16), cpc := cpc,
           ops := r.ops + 1, active := false }

/-- cond of word 0. -/
def condOf (w : Word32) : Nat := (w.extractLsb' 16 4).toNat

/-- The smaller and the larger of two i32 values. -/
def smaller (a b : Word32) : Word32 := if b.slt a then b else a
@[inherit_doc smaller] def largerOf (a b : Word32) : Word32 := if a.slt b then b else a

/-- An i32 or f32 operation of the operand layout (R320). -/
def withArithmetic (f : CxForm) (int : Word32 → Word32 → Word32) (flt : Nat → Nat → Nat) (r : Runner) : Runner :=
  withContextReg r f.d (if f.t = 1 then onF32 flt (contextReg r f.a) (secondOperand f r)
    else int (contextReg r f.a) (secondOperand f r))

/-- CCMP's conditions: equal, not equal, less, and not less, which a NaN makes false in f32 (R129, R320). -/
def contextCompares (f : CxForm) (a b : Word32) : Bool :=
  if f.t = 1 then
    if f.d = 3 then FCompares f32 3 b.toNat a.toNat else FCompares f32 (f.d.setWidth 3) a.toNat b.toNat
  else if f.d = 0 then a == b else if f.d = 1 then a != b else if f.d = 2 then a.slt b else !a.slt b

/-- What an instruction does to each context of its group alone (R319, R320, R322, R323). -/
def contextEffect (h : Shoal) : Instr → Option (Runner → Runner)
  | .cnop => some onward
  | .cadd f => some fun r => onward (withArithmetic f (· + ·) (f32.add .ne) r)
  | .csub f => some fun r => onward (withArithmetic f (· - ·) (f32.sub .ne) r)
  | .cmul f => some fun r => onward (withArithmetic f (· * ·) (f32.mul .ne) r)
  | .cmin f => some fun r => onward (withArithmetic f smaller f32.min r)
  | .cmax f => some fun r => onward (withArithmetic f largerOf f32.max r)
  | .cfma d a b t => some fun r => onward (withContextReg r d (if t = 1 then
      BitVec.ofNat 32 (f32.fma .ne (contextReg r a).toNat (contextReg r b).toNat (contextReg r d).toNat)
      else contextReg r a * contextReg r b + contextReg r d))
  | .cand d a b i k => some fun r => onward (withContextReg r d (contextReg r a &&& bitOperand b i k r))
  | .cor d a b i k => some fun r => onward (withContextReg r d (contextReg r a ||| bitOperand b i k r))
  | .cxor d a b i k => some fun r => onward (withContextReg r d (contextReg r a ^^^ bitOperand b i k r))
  | .cshl d a b i k => some fun r => onward (withContextReg r d (contextReg r a <<< ((bitOperand b i k r).toNat % 32)))
  | .cshr d a b i k => some fun r => onward (withContextReg r d (contextReg r a >>> ((bitOperand b i k r).toNat % 32)))
  | .cli d t k => some fun r => onward (withContextReg r d (if t = 1 then k ++ (0 : BitVec 16) else k.signExtend 32))
  | .cmov d a => some fun r => onward (withContextReg r d (contextReg r a))
  | .ccmp f => some fun r => onward { r with cp := contextCompares f (contextReg r f.a) (secondOperand f r) }
  | .cbr c t => some fun r => if r.cp = (c == 0) then jumped r t else onward r
  | .cj t => some fun r => jumped r t
  | .cste a => some fun r => onward { r with ev := contextReg r a, ste := some (contextReg r a) }
  | .cwait c => some fun r => ended r (if c = 0 then 1 else 2) c.toNat (r.cpc + 1)
  | .csleep => some fun r => ended r 2 (condOf r.w0) (h.cfg.extractLsb' 52 12).toNat
  | .cdone => some fun r => ended r 4 (condOf r.w0) (r.cpc + 1)
  | .ccvt d a v => some fun r => onward (withContextReg r d (BitVec.ofInt 32 (
      if v = 0 then convert .ne (.int true 32) (.flt f32) (contextReg r a).toNat
      else convert .ne (.flt f32) (.int true 32) (contextReg r a).toNat)))
  | _ => none

/-- The sweep after a group's operation: its lanes' contexts are `g` of what they were, and every other context as before. -/
def GroupBecomes (s t : State) (g : Nat → Runner → Runner) : Prop :=
  t.mem = s.mem ∧ t.team = s.team ∧ t.teams = s.teams ∧ t.core = { s.core with sweep := t.core.sweep } ∧
  t.core.sweep.lanes = [] ∧ t.core.sweep.elems = s.core.sweep.elems ∧ t.core.sweep.chunk = s.core.sweep.chunk ∧
  ∀ k, t.core.sweep.runners[k]? = (s.core.sweep.runners[k]?).map fun r => if k ∈ s.core.sweep.lanes then g k r else r

/-- The context faults with no other effect (R519, R521). -/
def faulted (r : Runner) : Runner := { ended r 8 (condOf r.w0) r.cpc with ops := r.ops }

/-- The element at an offset of a context's element, if it exists (R321): in one dimension the offset counts elements; in two it
is a row and a column offset, and a column outside the row is no element. -/
def offsetElement (h : Shoal) (e : Nat) (n : BitVec 20) : Option Nat :=
  let L := (h.cfg.extractLsb' 24 16).toNat + 1
  let size : Int := (h.cfg.extractLsb' 0 16).toNat + 1
  let x : Int := if h.cfg.getLsbD 18 then (e : Int) + (n.extractLsb' 10 10).toInt * L + (n.extractLsb' 0 10).toInt else e + n.toInt
  let col : Int := (e % L : Int) + (n.extractLsb' 0 10).toInt
  if (h.cfg.getLsbD 18 = false ∨ 0 ≤ col ∧ col < L) ∧ 0 ≤ x ∧ x < size then some x.toNat else none

/-- The accumulator's operation (R332). -/
def accumulated (t : BitVec 1) (o : BitVec 2) (acc x : Word32) : Word32 :=
  if t = 1 then onF32 (if o = 0 then f32.add .ne else if o = 1 then f32.min else f32.max) acc x
  else if o = 0 then acc + x else if o = 1 then smaller acc x else largerOf acc x

/-- The contexts of the group, in lane order. -/
def groupOf (s : State) : List (Nat × Runner) :=
  s.core.sweep.lanes.filterMap fun l => (s.core.sweep.runners[l]?).map fun r => (l, r)

/-- The accumulator after the contexts before lane `k` in the group have acted. -/
def accBefore (s : State) (a : BitVec 2) (t : BitVec 1) (o : BitVec 2) (k : Nat) : Word32 :=
  ((groupOf s).takeWhile fun x => x.1 != k).foldl (fun acc x => accumulated t o acc (contextReg x.2 a)) s.core.sweep.acc

end Sys2Proof.Claims

/-- R321, R330, R331, R332: CLDN and CLDE read the element that they name, or the edge value; CWAKE names an element to wake;
CEMIT and CATOM update the accumulator in ascending lane order, CATOM returning the value before its own update. -/
def Obligations.ContextMemoryOperations : Prop :=
  ∀ (s : State) (h : Shoal) (d a : BitVec 2) (n : BitVec 20) (o : BitVec 2) (y : BitVec 1), GroupRuns s h →
    let read := fun e : Option Nat => match e with
      | some e => seenElem s h e
      | none => h.edge
    (∃ t, exec (.cldn d n) s = .next t ∧ t.core.sweep.acc = s.core.sweep.acc ∧ t.core.sweep.wakes = s.core.sweep.wakes ∧
      GroupBecomes s t fun _ r => onward (withContextReg r d (read (offsetElement h r.elem n)))) ∧
    (∃ t, exec (.clde d a n) s = .next t ∧ t.core.sweep.acc = s.core.sweep.acc ∧ t.core.sweep.wakes = s.core.sweep.wakes ∧
      GroupBecomes s t fun _ r => onward (withContextReg r d (read (
        let x := (contextReg r a + n.signExtend 32).toInt
        if 0 ≤ x ∧ x < (h.cfg.extractLsb' 0 16).toNat + 1 then some x.toNat else none)))) ∧
    (∃ t, exec (.cwake n) s = .next t ∧ t.core.sweep.acc = s.core.sweep.acc ∧ GroupBecomes s t (fun _ r => onward r) ∧
      ∀ e, e ∈ t.core.sweep.wakes ↔ e ∈ s.core.sweep.wakes ∨ ∃ x ∈ groupOf s, offsetElement h x.2.elem n = some e) ∧
    (h.cfg.getLsbD 16 = (y == 1) → (Instr.cemit a y o).wf = true →
      ∃ t, exec (.cemit a y o) s = .next t ∧ t.core.sweep.wakes = s.core.sweep.wakes ∧ GroupBecomes s t (fun _ r => onward r) ∧
        t.core.sweep.acc = (groupOf s).foldl (fun acc x => accumulated y o acc (contextReg x.2 a)) s.core.sweep.acc) ∧
    (h.cfg.getLsbD 16 = (y == 1) → (Instr.catom d a y o).wf = true →
      ∃ t, exec (.catom d a y o) s = .next t ∧ t.core.sweep.wakes = s.core.sweep.wakes ∧
        GroupBecomes s t (fun k r => onward (withContextReg r d (accBefore s a y o k))) ∧
        t.core.sweep.acc = (groupOf s).foldl (fun acc x => accumulated y o acc (contextReg x.2 a)) s.core.sweep.acc)

/-- R324, R325, R328, R333 to R338: the steps of a tide: a pause of at most 16 VX cycles; a chunk's load, which takes up exactly
its contexts of reef bit 1 that may run; its commit, which writes the accumulator and counts what ran; and its end, where TIDE
writes its status and frees the VX datapath, TIDEQ going on while a reef bit is set and tides remain. -/
def Obligations.TideSteps : Prop :=
  ∀ (s : State) (h : Shoal), Foreground s s.occ.team → s.core.sweep.team = s.team.ref →
    vget s.core.shoals s.core.sweep.h none = some h → h.invalid = false → h.plane + h.size ≤ 2 ^ 21 →
    let w := s.core.sweep
    let n := (h.cfg.extractLsb' 0 16).toNat + 1
    let next := ((List.range n).filter fun e => reefBit h (ownByte s) e).length
    (∃ t, exec .sweepPause s = .next t ∧ t.mem = s.mem ∧ t.team = s.team ∧ t.core.sweep.phase = .paused 16) ∧
    (64 * w.chunk < n → ∃ t, exec .tideChunkLoad s = .next t ∧ t.mem = s.mem ∧ t.team = s.team ∧ t.core.sweep.phase = .run ∧
      t.core.sweep.acc.toNat = peek (ownByte s) h.accAt 4 ∧
      ∀ e, (∃ r ∈ t.core.sweep.runners, r.elem = e) ↔
        64 * w.chunk ≤ e ∧ e < 64 * w.chunk + 64 ∧ e < n ∧ reefBit h (ownByte s) e = true ∧
          peek (ownByte s) (contextAt h e) 4 / 2 ^ 20 % 16 ∉ [4, 8]) ∧
    (∃ t, exec .chunkCommit s = .next t ∧ SameRegs s.team t.team ∧ t.core.sweep.phase = .boundary ∧
      t.core.sweep.chunk = w.chunk + 1 ∧ t.core.sweep.runners = [] ∧ t.core.sweep.runs = w.runs + w.runners.length ∧
      peek (ownByte t) h.accAt 4 = w.acc.toNat) ∧
    (∀ c, s.core.copies.find? (fun c => some c.id = w.op) = some c → c.team = s.team.ref →
      (w.quiet = false ∨ next = 0 ∨ w.left ≤ 1 → ∃ t st, exec .tideEnd s = .next t ∧ t.mem = s.mem ∧ t.core.sweep = Sweep.idle ∧
        regs t.team = regs (s.team.write (.s w.cr st)) ∧ (st.extractLsb' 17 17).toNat = next % 2 ^ 17 ∧
        (st.extractLsb' 0 17).toNat = w.runs % 2 ^ 17 ∧ (st.extractLsb' 34 17).toNat = w.dones % 2 ^ 17 ∧
        (st.extractLsb' 51 8).toNat = (w.ran + 1) % 2 ^ 8 ∧ st.getLsbD 63 = decide (next = 0)) ∧
      (w.quiet = true → 0 < next → 1 < w.left → ∃ t, exec .tideEnd s = .next t ∧ t.mem = s.mem ∧ t.team = s.team ∧
        t.core.sweep.phase = .boundary ∧ t.core.sweep.left = w.left - 1 ∧ t.core.sweep.chunk = 0))

/-- R319, R320, R322, R323, R326, R154, R519, R521: The context operations on registers, condition, flow and element, and
the context faults that end a run in state 8. -/
def Obligations.ContextOperationsAndFaults : Prop :=
  (∀ (i : Instr) (s : State) (h : Shoal) (g : Runner → Runner), contextEffect h i = some g → GroupRuns s h → i.wf = true →
     ∃ t, exec i s = .next t ∧ GroupBecomes s t (fun _ r => g r) ∧ t.core.sweep.acc = s.core.sweep.acc ∧
       t.core.sweep.wakes = s.core.sweep.wakes) ∧
  (∀ (i : Instr) (s : State) (h : Shoal), GroupRuns s h →
     ((contextEffect h i).isSome = true ∧ i.wf = false ∨
       (∃ d a y o, (i = .cemit a y o ∨ i = .catom d a y o) ∧ (i.wf = false ∨ h.cfg.getLsbD 16 ≠ (y == 1)))) →
     ∃ t, exec i s = .next t ∧ GroupBecomes s t (fun _ r => faulted r) ∧ t.core.sweep.acc = s.core.sweep.acc ∧
       t.core.sweep.wakes = s.core.sweep.wakes)

namespace Sys2Proof.Claims

open Machine

/-- Dispatch places the bundle at hand with the operation `i` (R68): no reserved value, no action 1 that passes it (R425), room
for its results and its loop's (R422), and some slot that has not run ahead of dispatch. -/
def AtDispatch (i : Instr) (s : State) : Prop :=
  i.wf = true ∧ s.team.skipCt = false ∧ Room s 3 ∧ ∃ j, j ≠ .ct ∧ s.team.passed j ≤ s.team.passed .ct

/-- The address after the bundle at hand (R106). -/
def afterBundle (s : State) : Nat := s.team.bpc + bundleLen s.team.cur.ct

/-- The bundle at hand is the last of its loop's body. -/
def lastOf (l : LoopSt) : Prop := l.body.length ≤ l.idx + 1

/-- Where dispatch goes on after the bundle at hand (R88, R90, R91, R189): the target after the delay bundle of a taken branch,
which ends the loop; the next body bundle, the next pass, or the bundle behind the loop after its last pass; else the next
address. -/
def GoesOn (s t : State) : Prop :=
  match s.team.delay, s.team.loop with
  | some (some target), _ => t.team.pc = target ∧ t.team.loop = none
  | _, none => t.team.pc = afterBundle s ∧ t.team.loop = none
  | _, some l =>
    (¬ lastOf l → t.team.loop = some { l with idx := l.idx + 1 }) ∧
    (lastOf l → l.left ≤ 1 → t.team.loop = none ∧ t.team.pc = l.after) ∧
    (lastOf l → 1 < l.left → t.team.loop = some { l with idx := 0, left := l.left - 1 })

/-- LCNT as the end of a pass and a branch out of a loop leave it (R181, R189, R91). -/
def loopWrites (s : State) : List Write :=
  match s.team.loop with
  | none => []
  | some l =>
    let last := decide (l.body.length ≤ l.idx + 1)
    (if last then [.lcnt (BitVec.ofNat 32 (l.left - 1))] else []) ++
      (match s.team.delay with
      | some (some _) => if !last || decide (1 < l.left) then [.lcnt 0] else []
      | _ => [])

/-- The bundle at hand enters the slots' queues at a new position, which the CT slot passes, with these results and those of its
loop in flight (R68, R69, R104), and its weight joins the window's sum (R99). No register has changed yet, and no byte of memory
does. -/
def Enters (s t : State) (ws : List Write) : Prop :=
  t.team.passed .ct = s.team.passed .ct + 1 ∧ SameRegs s.team t.team ∧ t.mem = s.mem ∧ t.team.trap = s.team.trap ∧
  (∃ p ∈ t.team.queue, p.pos = s.team.passed .ct ∧ p.words = s.team.cur.words ∧ p.bpc = s.team.bpc) ∧
  t.core.wsum = s.core.wsum + s.core.weight s.team.cur.e ∧
  t.team.flight.map (·.write) = s.team.flight.map (·.write) ++ ws ++ loopWrites s

/-- BPC plus a signed offset in words. -/
def branchTarget {w : Nat} (s : State) (off : BitVec w) : Double := BitVec.ofNat 64 s.team.bpc + off.signExtend 64 * 4

/-- The tested mask over the active lanes: all ones, and all zeros. -/
def maskOnes (s : State) (tested active : BitVec 3) : Prop := s.team.rm tested &&& s.team.rm active = s.team.rm active
@[inherit_doc maskOnes] def maskZeros (s : State) (tested active : BitVec 3) : Prop :=
  s.team.rm tested &&& s.team.rm active = 0

/-- A branch: whether it is taken, its target, and whether it writes the link (R186, R187, R188). -/
def BranchIs (s : State) (i : Instr) (taken : Prop) (target : Double) (link : Bool) : Prop :=
  (∃ off, i = .br off ∧ taken = True ∧ target = branchTarget s off ∧ link = false) ∨
  (∃ off, i = .call off ∧ taken = True ∧ target = branchTarget s off ∧ link = true) ∨
  (∃ mode reg off, i = .brc mode reg off ∧ target = branchTarget s off ∧ link = false ∧
    taken = (if mode = 0 then s.team.rp (reg.setWidth 3) = true else if mode = 1 then s.team.rp (reg.setWidth 3) = false
      else if mode = 2 then s.team.rs (reg.setWidth 6) ≠ 0 else s.team.rs (reg.setWidth 6) = 0)) ∨
  (∃ sense tested active off, i = .brm sense tested active off ∧ target = branchTarget s off ∧ link = false ∧
    (maskOnes s tested active ∨ maskZeros s tested active) ∧
    taken = (s.team.rm active = 0 ∨ if sense = 0 then maskOnes s tested active else maskZeros s tested active)) ∨
  (∃ reg z, i = .jmpr reg 0 z ∧ taken = True ∧ target = s.team.rs reg ∧ link = false) ∨
  (∃ reg z, i = .jmpr reg 1 z ∧ taken = True ∧ target = s.team.rs reg ∧ link = true) ∨
  (∃ z, i = .ret z ∧ taken = True ∧ target = s.team.rs 62 ∧ link = false)

/-- The branches to a register (R187). -/
def toRegister : Instr → Bool
  | .jmpr _ _ _ | .ret _ => true
  | _ => false

/-- An address with bits 1:0 or 63:56 set. -/
def badTarget (x : Double) : Prop := x.extractLsb' 0 2 ≠ 0 ∨ x.extractLsb' 56 8 ≠ 0

/-- The target lies in the body of the loop that runs (R91). -/
def InBody (s : State) (x : Nat) : Prop := ∃ l, s.team.loop = some l ∧ l.start ≤ x ∧ x < l.after

/-- The operations that may not stand in a delay bundle (R89). -/
def barred : Instr → Bool
  | .br _ | .brc _ _ _ | .brm _ _ _ _ | .call _ | .jmpr _ _ _ | .ret _ | .loop _ _ _ | .rept _ _ _ | .yield _ _ |
    .node _ _ | .endTeam _ | .barw _ _ | .waitx _ _ | .wwait _ _ | .svc _ => true
  | _ => false

/-- The CT slot raises a cause as dispatch places its bundle: the record's word is the CT word (R418, R427). -/
def CtRaises (i : Instr) (s : State) (cause addr : Nat) : Prop :=
  exec i s = .next (raised .ct cause addr s.team.cur.ct s)

/-- The slot and the guard of the register forms that g guards (R115). CSRR and CSRW are not here: an unlisted number raises
0x0011 whatever the guard holds. -/
def guardOf : Instr → Option (Slot × BitVec 3)
  | .add f | .sub f | .mul f | .mulh f | .div f | .rem f | .and f | .or f | .xor f | .shl f | .shr f | .shra f | .clz f
  | .popc f | .min f | .max f | .cmp f | .fadd f | .fsub f | .fmul f | .ffma f | .fdiv f | .fsqrt f | .fmin f | .fmax f
  | .fcmp f | .fcvt f | .fclass f | .fsgn f | .pand f | .por f | .pxor f | .pmov f => some (.sx, f.g)
  | .amov f | .aget f | .aadd f | .dset f | .dget f | .lea f | .fence f | .xfence f | .relw f | .phase f | .launch f
  | .pref f => some (.ad, f.g)
  | _ => none

/-- What follows the completion of a bundle with this operation, and whether it acts as a W bundle (R85, R190 to R192, R196,
R197, R199, R200, R202, R203): a mask or a live set is read as the bundle is placed. -/
def FollowsAs (s : State) (i : Instr) (k : SyncKind) (w : Bool) : Prop :=
  (∃ sel b, i = .yield sel b ∧ k = .yield b.toNat (vget s.team.yls sel.toNat 0) ∧ w = false) ∨
  (∃ sel b, i = .node sel b ∧ k = .node b.toNat (vget s.team.nsm sel.toNat 0) ∧ w = true) ∨
  (∃ z, i = .endTeam z ∧ k = .ending ∧ w = true) ∨
  (∃ ev n, i = .waitx ev n ∧ k = .waitx ev.toNat (64 * n.toNat) ∧ w = false) ∨
  (∃ dom dv z, i = .clkdiv dom dv z ∧ w = false ∧
    k = .clkdiv (if dom = 0 then .core else if dom = 1 then .vx else if dom = 2 then .mx else .dx) dv.toNat) ∨
  (∃ num, i = .svc num ∧ k = .svc num.toNat ∧ w = true) ∨
  (∃ code, i = .brk code ∧ k = .brk code.toNat ∧ w = false) ∨
  (∃ g z, i = .refw g z ∧ k = .refw g.toNat ∧ w = false) ∨
  (∃ reg n pkg, i = .wwait reg n ∧ s.team.rs reg &&& 0xff00000000000007 = 0 ∧
    windowPackage s.team.windows (s.team.rs reg).toNat = some pkg ∧ w = false ∧
    k = .wwait (s.team.rs reg).toNat pkg (1024 * n.toNat))

/-- The barrier that a team's cluster holds under a number (R49). -/
def barrierOf (s : State) (bar : BitVec 4) : Option Barrier :=
  (s.hub.clusters.find? fun c => c.id = s.team.cluster).map fun c => c.barrier bar.toNat

end Sys2Proof.Claims

/-- R186 to R188, R88, R91, R506, R507: branches: whether each is taken, its target, its delay bundle and its link; a register
target with bits 1:0 or 63:56 set raises 0x0041, a target inside the own loop's body 0x0018, and a mask that is not uniform over
the active lanes 0x0014. -/
def Obligations.Branches : Prop :=
  ∀ (i : Instr) (s : State), AtDispatch i s → s.team.delay = none →
    (∀ taken target link, BranchIs s i taken target link → ¬ (toRegister i = true ∧ badTarget target) →
      (¬ (taken ∧ InBody s target.toNat) → ∃ t ws, exec i s = .next t ∧ Enters s t ws ∧ GoesOn s t ∧
        (taken → t.team.delay = some (some target.toNat)) ∧ (¬ taken → t.team.delay = some none) ∧
        (link = false → ws = []) ∧
        (∀ ct, link = true → nextCt s = some ct →
          ws = [.s 62 (BitVec.ofNat 64 (s.team.following + bundleLen ct))] ∧ t.team.link = s.team.link) ∧
        (link = true → nextCt s = none → ws = [] ∧ t.team.link = true)) ∧
      (taken → InBody s target.toNat → s.team.trap = none → CtRaises i s 0x0018 0)) ∧
    (∀ taken target link, BranchIs s i taken target link → toRegister i = true → badTarget target →
      ¬ InBody s target.toNat → s.team.trap = none → CtRaises i s 0x0041 0) ∧
    (∀ sense tested active off, i = .brm sense tested active off → ¬ maskOnes s tested active → ¬ maskZeros s tested active →
      s.team.trap = none → CtRaises i s 0x0014 0)

/-- R89, R90, R189, R181, R507, R504: LOOP and REPT run their body the counted number of times, LCNT holding the count, and with a
count of 0 skip it; inside a loop, and a REPT whose body does not hold exactly one MX operation, raise 0x0018; what may not stand
in a delay bundle raises 0x0013. -/
def Obligations.LoopsAndDelayBundles : Prop :=
  ∀ (i : Instr) (s : State), AtDispatch i s →
    (barred i = true → s.team.delay.isSome = true → s.team.trap = none → CtRaises i s 0x0013 0) ∧
    (∀ cf len cnt rept body, (i = .loop cf len cnt ∧ rept = false ∨ i = .rept cf len cnt ∧ rept = true) → s.team.delay = none →
      (s.team.loop.isSome = true → s.team.trap = none → CtRaises i s 0x0018 0) ∧
      (s.team.loop = none → fetchBody s (afterBundle s) (len.toNat + 1) = (body, none) →
        let one := (body.filter fun b => (b.2.words[4]?).getD 0 != 0).length = 1
        let count : Nat := if cf = 1 then ((s.team.rs (cnt.extractLsb' 3 6)).extractLsb' 0 32).toNat else cnt.toNat
        let after := body.foldl (fun _ b => b.1 + bundleLen b.2.ct) (afterBundle s)
        (rept = true → ¬ one → s.team.trap = none → CtRaises i s 0x0018 0) ∧
        ((rept = true → one) → ∃ t, exec i s = .next t ∧ Enters s t [.lcnt (BitVec.ofNat 32 count)] ∧
          (count = 0 → t.team.loop = none ∧ t.team.pc = after) ∧
          (0 < count → t.team.loop = some
            { rept := rept, start := afterBundle s, body := body, after := after, left := count, idx := 0,
              pos0 := s.team.passed .ct + 1, count := count }))))

/-- R83, R85, R190 to R203, R107: the CT operations that no branch is: each enters the queues and dispatch goes on after it; what
follows its bundle's completion waits for that; arrivals, wakes, barrier counts and power requests are noted; a NOP passes. -/
def Obligations.ControlOperations : Prop :=
  ∀ (i : Instr) (s : State), AtDispatch i s → (barred i = true → s.team.delay = none) →
    (∀ k w, FollowsAs s i k w → ∃ t, exec i s = .next t ∧ Enters s t [] ∧ GoesOn s t ∧
      t.team.sync = some { pos := s.team.passed .ct, w := s.team.cur.w || w, kind := k, bpc := s.team.bpc,
                           ct := s.team.cur.ct } ∧
      (∀ sel b, i = .yield sel b → t.team.budget = b.toNat ∧ t.team.counted = 0)) ∧
    (i = .nop .ct → ∃ t, exec i s = .next t ∧ Enters s t [] ∧ GoesOn s t ∧ t.team.sync.isSome =
      (s.team.cur.s || s.team.cur.w || fenceWord (nth s.team.cur.words 1 0))) ∧
    (∀ level z, i = .pwrq level z → ∃ t, exec i s = .next t ∧ Enters s t [] ∧ GoesOn s t ∧
      t.core.pwrq = some level.toNat) ∧
    (∀ bar z b, i = .bara bar z → barrierOf s bar = some b → ∃ t, exec i s = .next t ∧ Enters s t [] ∧ GoesOn s t ∧
      vget t.team.noted bar.toNat none = some b.phase ∧
      t.team.arrivals = s.team.arrivals ++ [{ bar := bar.toNat, pos := s.team.passed .ct, ids := none, sent := false }]) ∧
    (∀ bar z b, i = .barw bar z → barrierOf s bar = some b → ∃ t, exec i s = .next t ∧ Enters s t [] ∧ GoesOn s t ∧
      (vget s.team.noted bar.toNat none = none →
        t.team.acqDie = s.now + 1 ∧ t.team.park = if s.team.cur.w then .w else s.team.park) ∧
      (∀ p, vget s.team.noted bar.toNat none = some p → s.team.cur.w = false →
        (b.phase ≤ p → t.team.park = .barw bar.toNat p (s.team.passed .ct) ∧ t.team.handover = true) ∧
        (p < b.phase → t.team.acqDie = s.now + 1 ∧ t.team.park = s.team.park)) ∧
      (∀ p, vget s.team.noted bar.toNat none = some p → s.team.cur.w = true → t.team.park = .w ∧
        t.team.sync = some { pos := s.team.passed .ct, w := true, kind := .barw bar.toNat p, bpc := s.team.bpc,
                             ct := s.team.cur.ct })) ∧
    (∀ bar cnt z b, i = .barc bar cnt z → barrierOf s bar = some b → ∃ t, exec i s = .next t ∧ Enters s t [] ∧ GoesOn s t ∧
      barrierOf t bar = some (if b.arrived = 0 then { b with expected := cnt.toNat + 1, next := none }
        else { b with next := some (cnt.toNat + 1) })) ∧
    (∀ reg n pkg, i = .wwake reg n → s.team.rs reg &&& 0xff00000000000007 = 0 →
      windowPackage s.team.windows (s.team.rs reg).toNat = some pkg → ∃ t, exec i s = .next t ∧ Enters s t [] ∧ GoesOn s t ∧
        t.team.wakes = s.team.wakes ++ [(s.team.passed .ct, (s.team.rs reg).toNat, pkg, n.toNat)]) ∧
    (∀ reg n, (i = .wwake reg n ∨ i = .wwait reg n) → s.team.trap = none → (s.team.rs reg &&& 0xff00000000000007 ≠ 0 ∨
      windowPackage s.team.windows (s.team.rs reg).toNat = none) → CtRaises i s 0x0020 (s.team.rs reg).toNat)

/-- R107, R111, R115, R338, R497, R498: s0 reads as zero, p0 as true and m0 as all ones, and writes to them are discarded; in every
slot a NOP passes, with no effect; a guarded form whose guard is false as it comes to its position passes with no effect; an
opcode that no row assigns raises 0x0010, and a reserved value 0x0011, at the slot's position and with no effect. -/
def Obligations.SlotRules : Prop :=
  (∀ (t : Team) (x y : Double) (b : Bool), t.rs 0 = 0 ∧ t.rp 0 = true ∧ t.rm 0 = BitVec.allOnes 64 ∧ t.write (.s 0 x) = t ∧
    t.write (.p 0 b) = t ∧ t.write (.m 0 x y) = t) ∧
  (∀ (j : Slot) (s : State), j ≠ .ct → exec (.nop j) s = .next { s with team := s.team.pass1 j }) ∧
  (∀ (j : Slot) (w : Word32) (s : State), j ≠ .ct → s.team.trap = none → (j = .vx → s.core.sweep.holdsVx = false) →
    (j = .rx → s.core.rxBusy = 0) → (j = .dx → s.core.dxBusy = 0) →
    exec (.unassignedOpcode j w) s = .next (raised j (if w.extractLsb' 26 6 = 0 then 0x0011 else 0x0010) 0 w s)) ∧
  (∀ (w : Word32) (s : State), s.team.trap = none → s.team.skipCt = false →
    CtRaises (.unassignedOpcode .ct w) s (if w.extractLsb' 14 5 = 0 then 0x0011 else 0x0010) 0) ∧
  (∀ (i : Instr) (j : Slot) (g : BitVec 3) (s : State), guardOf i = some (j, g) → i.wf = true → s.team.rp g = false →
    vget s.team.holding (slotNum j) false = false → exec i s = .next { s with team := s.team.pass1 j }) ∧
  (∀ (i : Instr) (j : Slot) (s : State), i.slot = some j → i.wf = false → (∀ w, i ≠ .unassignedOpcode j w) →
    s.team.trap = none →
    (j = .ct → s.team.skipCt = false → CtRaises i s 0x0011 0) ∧
    (j ≠ .ct → (j = .vx → s.core.sweep.holdsVx = false) → (j = .rx → s.core.rxBusy = 0) → (j = .dx → s.core.dxBusy = 0) →
      Raises j i s 0x0011 0))

namespace Sys2Proof.Claims

open Machine

/-- The cove that serves the foreground core (R16). -/
def ownCove (s : State) : Cove := vget s.die.coves (s.core.pcore / 8) Cove.reset

/-- Double `k` of the 128-byte record that stands at the old tail of the trap FIFO of the core's cove (R426, R427, R430). -/
def recorded (s t : State) (k : Nat) : Double := (ownCove t).fifo.double (128 * (ownCove s).tail + 8 * k)

/-- The trap FIFO of the core's cove has taken one record, under its number, and raises the supervisor's interrupt (R426). -/
def Records (s t : State) : Prop :=
  (ownCove t).tail = ((ownCove s).tail + 1) % 64 ∧ (ownCove t).seq = (ownCove s).seq + 1 ∧ (ownCove t).irq = true ∧
  recorded s t 0 = BitVec.ofNat 64 (ownCove s).seq

/-- The acting team's wait ends with TSW.wx as given (R180, R196, R197). -/
def WaitEnds (s t : State) (wx : Nat) : Prop :=
  t.team.park = .none ∧ (t.team.tsw.extractLsb' 8 1).toNat = wx ∧
  regs { t.team with tsw := 0 } = regs { s.team with tsw := 0 } ∧ t.team.tsw ||| 0x100 = s.team.tsw ||| 0x100

/-- The least divisor that the package controller allows a domain (R445). -/
def floorOf (s : State) (d : Domain) : Nat := field (floorsOf s s.core.die s.core.pcore) (4 * d.idx + 3) (4 * d.idx)

/-- The registers in flight that the cycle starts now land: those of a domain that starts one, in the last cycle of their
latency (R74). -/
def landing (s : State) (l : Landing) : Bool := s.core.starts l.domain s.now && decide (l.rem ≤ 1)

end Sys2Proof.Claims

/-- R59, R60, R63, R83, R85, R96, R190 to R192, R196, R197, R199, R200, R202, R203, R411: what follows the completion of an S or W
bundle: a YIELD keeps its live set and a NODE its mask's registers and the a-registers, what they name no more being free; the
waits park; CLKDIV sets the divisor, no lower than the floor; SVC leaves its call record in the trap FIFO; BRK traps; an END ends its team. -/
def Obligations.BundlesComplete : Prop :=
  ∀ (i : Instr) (s : State) (y : Sync), (i = .sBundleComplete ∨ i = .wBundleComplete) → Foreground s s.occ.team →
    s.core.pcore < 72 → s.team.sync = some y →
    ∃ t, exec i s = .next t ∧ (t.mem = s.mem ∨ ∃ b m, y.kind = .node b m) ∧
      (y.kind ≠ .ending → t.team.sync = if syncDone s y then none else some { y with kind := .plain }) ∧
      (y.kind = .plain → SameRegs s.team t.team ∧ t.team.park = (if s.team.park = .w then .none else s.team.park)) ∧
      (∀ b live, y.kind = .yield b live →
        (∀ r, live.getLsbD (48 + r / 4) = true → vget t.team.s r 0 = vget s.team.s r 0) ∧
        (∀ r, live.getLsbD (16 + r) = true → vget t.team.a r 0 = vget s.team.a r 0) ∧
        (∀ r, live.getLsbD r = true → vget t.team.d r 0 = vget s.team.d r 0) ∧
        (∀ r, live.getLsbD (32 + r / 4) = true → vget t.team.v r VReg.zero = vget s.team.v r VReg.zero) ∧
        t.team.p = s.team.p ∧ t.team.m = s.team.m ∧ t.team.lcnt = s.team.lcnt ∧ t.team.tsw = s.team.tsw ∧
        t.team.park = (if s.team.stopAsked then .boundary else if s.team.park = .w then .none else s.team.park)) ∧
      (∀ b mask, y.kind = .node b mask → nodeReady s s.team = true →
        t.team.a = s.team.a ∧ (∀ r, 0 < r → r < 64 → mask.getLsbD r = true → vget t.team.s r 0 = vget s.team.s r 0) ∧
        t.team.tid = s.team.tid ∧ t.team.cid = s.team.cid ∧ t.team.lmg = s.team.lmg ∧ t.team.ecnt = s.team.ecnt ∧
        t.team.budget = b ∧ t.team.counted = 0 ∧ t.team.park = (if s.team.stopAsked then .boundary else .none)) ∧
      (∀ b mask, y.kind = .node b mask → nodeReady s s.team = false →
        SameRegs s.team t.team ∧ t.team.park = .node b mask) ∧
      (y.kind = .ending → nodeReady s s.team = false → SameRegs s.team t.team ∧ t.team.park = .ending) ∧
      (y.kind = .ending → nodeReady s s.team = true → ∀ c, s.hub.clusters.find? (fun c => c.id = s.team.cluster) = some c →
        (∃ r ∈ c.teams, r ≠ s.team.ref ∧ r ∉ c.ended) → t.team.park = .ending ∧ t.team.resident = true ∧
          ∃ c', t.hub.clusters.find? (fun c => c.id = s.team.cluster) = some c' ∧ c'.ended = s.team.ref :: c.ended) ∧
      (∀ ev limit, y.kind = .waitx ev limit →
        if waitHolds s s.team ev y.pos then WaitEnds s t 0
        else SameRegs s.team t.team ∧ t.team.park = .waitx ev y.pos limit 0) ∧
      (∀ dom dv, y.kind = .clkdiv dom dv → dv < 16 → SameRegs s.team t.team ∧
        ∀ d, t.core.divisor d = max (if d = dom then dv else s.core.divisor d) (floorOf s d)) ∧
      (∀ num, y.kind = .svc num → t.team.park = .svc ∧
        let n := ((s.team.tsw.extractLsb' 32 16).toNat + 1) % 2 ^ 16
        t.team.callSeq = some n ∧ (t.team.tsw.extractLsb' 32 16).toNat = n ∧
        let info := recorded s t 4
        Records s t ∧ recorded s t 1 = BitVec.ofNat 64 y.bpc ∧ recorded s t 5 = s.team.tid ∧
        recorded s t 14 = y.ct.setWidth 64 ∧ (info.extractLsb' 0 16).toNat = num % 2 ^ 16 ∧ info.extractLsb' 36 4 = 1 ∧
        (info.extractLsb' 40 16).toNat = n ∧ ∀ k, k < 6 → recorded s t (8 + k) = vget s.team.s (k + 1) 0) ∧
      (∀ code, y.kind = .brk code → ∃ x, t.team.trap = some x ∧ x.cause = 0x0040 ∧ x.frozen = true ∧ x.word = y.ct) ∧
      (∀ va pkg limit, y.kind = .wwait va pkg limit →
        (pkg ≠ s.hub.package → t.team.park = .wwait va pkg limit 0) ∧
        (∀ k, pkg = s.hub.package → findKey s.hub s.team.tenant va = some k → k.token = true → WaitEnds s t 0) ∧
        (pkg = s.hub.package → (∀ k, findKey s.hub s.team.tenant va = some k → k.token = false) →
          (findKey s.hub s.team.tenant va = none → s.hub.waits.length < 65536) →
          t.team.park = .wwait va pkg limit 0 ∧ ∃ k', findKey t.hub s.team.tenant va = some k' ∧ k'.token = false ∧
            k'.waiters = ((findKey s.hub s.team.tenant va).map (·.waiters)).getD [] ++ [.team s.team.ref s.team.cluster]) ∧
        (pkg = s.hub.package → findKey s.hub s.team.tenant va = none → 65536 ≤ s.hub.waits.length → WaitEnds s t 1)) ∧
      (∀ b p, y.kind = .barw b p →
        (p < barPhase s b → t.team.acqDie = s.now + 1 ∧ t.team.park = (if s.team.park = .w then .none else s.team.park)) ∧
        (barPhase s b ≤ p → t.team.park = .barw b p y.pos)) ∧
      (∀ g, y.kind = .refw g → SameRegs s.team t.team ∧ ∃ e, t.team.refwUntil = some e ∧ s.now < e ∧
        e ≤ max (s.now + 76800) 77311 ∧ e % 76800 = (s.hub.refreshPhase + 9600 * g + 512) % 76800)

/-- R74, R75, R49, R50, R193 to R197: results land in issue order in the last cycle of their latency, and no other register
changes; an arrival completes its barrier's phase with the expected count and releases the teams that wait for it; a wait that
runs out ends with TSW.wx 1, unless its event holds. -/
def Obligations.LandingsArrivalsAndTimeouts : Prop :=
  (∀ (s : State), Foreground s s.team.ref → s.team.resident = true → s.team.frozen = false → s.team.ref.rslot < 4 →
    s.die.logical s.core.pcore = some s.team.ref.lcore → ∃ t, exec .resultLands s = .next t ∧ t.mem = s.mem ∧
      regs t.team = regs ((s.team.flight.filter (landing s)).foldl (fun u l => u.write l.write) s.team) ∧
      t.team.flight = (s.team.flight.filter fun l => !landing s l).map fun l =>
        if s.core.starts l.domain s.now then { l with rem := l.rem - 1 } else l) ∧
  (∀ (s : State) (c : Cluster), s.hub.clusters.find? (fun c => c.id = (s.teamAt s.occ.team).cluster) = some c →
    s.occ.aux < 16 → ∃ t c', exec .barrierArrival s = .next t ∧ t.mem = s.mem ∧ SameRegs s.team t.team ∧
      t.hub.clusters.find? (fun c => c.id = (s.teamAt s.occ.team).cluster) = some c' ∧
      let b := c.barrier s.occ.aux
      (b.arrived + 1 < b.expected → c'.barrier s.occ.aux = { b with arrived := b.arrived + 1 }) ∧
      (b.expected ≤ b.arrived + 1 →
        c'.barrier s.occ.aux = { expected := b.next.getD b.expected, next := none, phase := b.phase + 1, arrived := 0 } ∧
        ∀ p q, s.team.resident = true → s.team.cluster = c.id → s.team.park = .barw s.occ.aux p q → p ≤ b.phase →
          t.team.park = .none ∧ t.team.acqDie = s.now + 1)) ∧
  (∀ (s : State) (ev pos limit n : Nat), Foreground s s.occ.team → s.team.park = .waitx ev pos limit n →
    ∃ t, exec .waitxTimeout s = .next t ∧ WaitEnds s t (if waitHolds s s.team ev pos then 0 else 1) ∧ t.mem = s.mem) ∧
  (∀ (s : State) (va pkg limit n : Nat), Foreground s s.occ.team → s.team.park = .wwait va pkg limit n →
    ∃ t, exec .wwaitTimeout s = .next t ∧ WaitEnds s t 1 ∧ t.mem = s.mem ∧
      ∀ k ∈ t.hub.waits, .team s.team.ref s.team.cluster ∉ k.waiters)

namespace Sys2Proof.Claims

open Machine

/-- The acting team is frozen with its trap record written (R416, R417, R426 to R428): q is the oldest position that not every
slot has passed, pmask names the slots that have, and TSW.srs the lowest that has not; TSW.dly says whether q is the delay bundle of
a taken branch; no other register changes, and no byte of memory. -/
def Frozen (s t : State) (j : Slot) (cause addr : Nat) (word : Word32) : Prop :=
  t.mem = s.mem ∧ t.team.pass = s.team.pass ∧ t.team.flight = s.team.flight ∧
  regs { t.team with tsw := 0 } = regs { s.team with tsw := 0 } ∧ t.team.tsw ||| 0xf000 = s.team.tsw ||| 0xf000 ∧
  ∃ x, t.team.trap = some x ∧ x.frozen = true ∧ x.cause = cause ∧ x.addr = addr ∧ x.word = word ∧ x.seq = (ownCove s).seq ∧
    let srs := (t.team.tsw.extractLsb' 13 3).toNat
    vget s.team.pass srs 0 = x.q ∧ (∀ k, k < srs → x.q < vget s.team.pass k 0) ∧
    t.team.tsw.getLsbD 12 = ((match s.team.queue.find? (fun p : Placed => p.pos = x.q) with
      | some p => p.target
      | none => s.team.delay.getD none).isSome) ∧
    let info := recorded s t 4
    Records s t ∧ recorded s t 2 = BitVec.ofNat 64 addr ∧ recorded s t 5 = s.team.tid ∧ recorded s t 14 = word.setWidth 64 ∧
    (info.extractLsb' 0 16).toNat = cause % 2 ^ 16 ∧ (info.extractLsb' 16 4).toNat = slotNum j ∧
    (∀ k, k < 8 → info.getLsbD (24 + k) = decide (x.q < vget s.team.pass k 0)) ∧
    (∀ k, k < 8 → x.q ≤ vget s.team.pass k 0) ∧ (∃ k, k < 8 ∧ vget s.team.pass k 0 = x.q) ∧
    (∀ p, s.team.queue.find? (fun p => p.pos = x.q) = some p → recorded s t 1 = BitVec.ofNat 64 p.bpc)

/-- The acting team's outstanding trap record, which the answer names by its number (R431). -/
def Answered (s : State) (x : TrapSt) : Prop :=
  s.team.resident = true ∧ s.team.trap = some x ∧ x.frozen = true ∧ x.cause ≠ 0 ∧ x.seq % 2 ^ 32 = s.occ.id % 2 ^ 32

/-- The acting team goes on: its trap is over, its registers and its results in flight are those that it froze with, and every
slot stands where it stood, but for one that an answer passes. -/
def Released (s t : State) (past : Option Slot) : Prop :=
  t.team.trap = none ∧ SameRegs s.team t.team ∧ t.team.flight = s.team.flight ∧ t.team.park = s.team.park ∧
  ∀ j, t.team.passed j = s.team.passed j + if some j = past then 1 else 0

end Sys2Proof.Claims

/-- R416, R417, R426 to R428, R502, R530, R538: taking a trap with the slots as they stand: a line that dispatch lacks, a deferred
trap of the DX engine, and the notice of a demand-mode fault freeze the team and write its record; a deferred trap waits while
the team cannot take it, and a notice waits for a trap that is being taken and for the reply to a call. -/
def Obligations.TrapsFreeze : Prop :=
  ∀ (s : State), Foreground s s.occ.team → s.core.pcore < 72 →
    (∃ t, exec .fetchFault s = .next t ∧ Frozen s t .ct s.occ.aux s.occ.id (s.occ.w.setWidth 32)) ∧
    (s.team.resident = true → s.team.deferred = [] → s.core.issuing = some s.team.ref.rslot →
      (s.team.park = .none ∨ s.team.park = .w) → s.team.trap = none → s.team.handover = false →
      ∃ t, exec .deferredTrap s = .next t ∧ Frozen s t .dx s.occ.aux s.occ.id (s.occ.w.setWidth 32)) ∧
    (s.team.resident = true → s.team.trap.isSome = true →
      exec .deferredTrap s = .next { s with team := { s.team with
        deferred := s.team.deferred ++ [(s.occ.aux, s.occ.id, s.occ.w.setWidth 32)] } }) ∧
    (s.team.resident = true → s.team.tenant = s.occ.tenant → s.team.trap = none → s.team.callSeq.isSome = true →
      exec .demandFaultNotice s = .next { s with timers := s.timers ++ [(s.now + 2, .demandFaultNotice, s.occ)] }) ∧
    ((s.team.resident = false ∨ s.team.tenant ≠ s.occ.tenant) → exec .demandFaultNotice s = .next s) ∧
    (s.team.resident = true → s.team.tenant = s.occ.tenant → s.team.trap = none → s.team.callSeq = none →
      ∃ t, exec .demandFaultNotice s = .next t ∧ Frozen s t .ls 0x0022 s.occ.aux (s.occ.w.setWidth 32)) ∧
    (∀ x, s.team.resident = true → s.team.tenant = s.occ.tenant → s.team.trap = some x →
      (x.frozen = true → exec .demandFaultNotice s = .next s) ∧
      (x.frozen = false → exec .demandFaultNotice s = .next { s with
        timers := s.timers ++ [(s.now + 2, .demandFaultNotice, s.occ)] }))

/-- R425, R431, R503 to R505, R530, R538, R556, R431, R489, R202, R438: Resume, skip and end answer the record that they
name, and a reply ends the call that it matches. -/
def Obligations.AnswersAndReplies : Prop :=
  (∀ (s : State), Foreground s s.occ.team →
     (∀ x, Answered s x → s.occ.image.words = [] →
       (x.cause ≠ 0x0022 ∨ (∀ a ∈ s.team.vars, a.phase ≠ .held) → ∃ t, exec .tresResume s = .next t ∧ Released s t none) ∧
       (x.cause = 0x0022 → (∃ a ∈ s.team.vars, a.phase = .held) → ∃ t, exec .tresResume s = .next t ∧
         t.team = { s.team with trap := some { x with answered := true } }) ∧
       (x.cause ∉ [0x0001, 0x0002, 0x0022] → ∃ t, exec .tresSkip s = .next t ∧
         Released s t (if x.deferred = true ∨ x.slot = .ct then none else some x.slot) ∧
         (x.deferred = false → x.slot = .ct → t.team.skipCt = true))) ∧
     (∀ x, Answered s x → x.cause ∈ [0x0001, 0x0002, 0x0022] → exec .tresSkip s = .next s) ∧
     (∀ x, Answered s x → windowWaits (windowWrites s.occ.image.words) s = true →
       exec .tresResume s = .next { s with timers := s.timers ++ [(s.now + 1, .tresResume, s.occ)] } ∧
       (x.cause ∉ [0x0001, 0x0002, 0x0022] →
         exec .tresSkip s = .next { s with timers := s.timers ++ [(s.now + 1, .tresSkip, s.occ)] })) ∧
     ((∀ x, ¬ Answered s x) → exec .tresResume s = .next s ∧ exec .tresSkip s = .next s) ∧
     (∀ (i : Instr), s.team.skipCt = true → Room s 3 → (∃ k, k ≠ .ct ∧ s.team.passed k ≤ s.team.passed .ct) →
       i.slot = some .ct → (∀ a b c d, i ≠ .brm a b c d) →
       ∃ t, exec i s = .next t ∧ Enters s t [] ∧ GoesOn s t ∧ t.team.skipCt = false ∧ t.team.delay = none) ∧
     (∀ a b c d, s.team.skipCt = true → Room s 3 → (∃ k, k ≠ .ct ∧ s.team.passed k ≤ s.team.passed .ct) →
       ∃ t, exec (.brm a b c d) s = .next t ∧ Enters s t [] ∧ GoesOn s t ∧ t.team.skipCt = false ∧
         t.team.delay = if s.team.delay = none then some none else none)) ∧
  ((∀ (s : State) (x : TrapSt) (c : Cluster) (l : Launch), s.team.ref = s.occ.team → Answered s x →
     s.hub.clusters.find? (fun c => c.id = s.team.cluster) = some c → c.phase = .resident → s.team.ref ∈ c.teams →
     s.hub.launches.find? (fun l => l.id = c.launch) = some l → (pktCoop l.packet = true → c.id ∈ l.clusters) →
     ∃ t, exec .tresEnd s = .next t ∧ t.mem = s.mem ∧ t.team = Team.reset s.team.ref ∧
       (∃ l', t.hub.launches.find? (fun l => l.id = c.launch) = some l' ∧ l'.status = some 5) ∧
       ∃ c', t.hub.clusters.find? (fun c => c.id = s.team.cluster) = some c' ∧ c'.phase = .ended) ∧
   (∀ (s : State) (tag tid x y : Double) (n : Nat), s.occ.image.words = [tag, tid, x, y] → s.team.resident = true →
     s.team.park = .svc → s.team.saveArea = s.occ.id → s.team.callSeq = some n → n < 2 ^ 16 →
     (∀ u ∈ s.teams, u.saveArea = s.occ.id → u.ref = s.team.ref) →
     let slot := s.occ.id % 2 ^ 46 + 0x40
     ∃ t, exec .svdone s = .next t ∧ (∀ k, k < slot ∨ slot + 32 ≤ k → t.mem.byte k = s.mem.byte k) ∧
       (tag = BitVec.ofNat 64 (2 ^ 63 + n * 2 ^ 32) → tid = s.team.tid →
         t.team.park = .none ∧ t.team.callSeq = none ∧ (t.mem.double slot).getLsbD 63 = false ∧
         regs t.team = regs ((s.team.write (.s 1 x)).write (.s 2 y))) ∧
       (tag ≠ BitVec.ofNat 64 (2 ^ 63 + n * 2 ^ 32) ∨ tid ≠ s.team.tid →
         t.team.park = .svc ∧ SameRegs s.team t.team ∧ t.mem.double slot = tag)))

namespace Sys2Proof.Claims

open Machine

/-- The window of a core ends (R99, R444). -/
def windowEnds (c : Core) : Core :=
  { c with wsum := 0, freshWindow := true, grant := c.nextGrant.getD c.grant, nextGrant := none }

/-- The cove that an occurrence names (R16). -/
def namedCove (s : State) (o : Occ) : Cove := vget (s.dieAt o.die).coves o.aux Cove.reset

/-- The temperature of a sensor, its threshold and its trip bit (R451). -/
def temperature (x : Double) : Nat := (x.extractLsb' 0 8).toNat
@[inherit_doc temperature] def threshold (x : Double) : Nat := (x.extractLsb' 16 8).toNat

/-- A tenant's context has been killed (R490): it has no resident or saved team, no cluster, no wait-and-wake entry and no
outstanding fault request, and its queues are held. -/
def Killed (t : State) (tenant : Nat) : Prop :=
  (∀ r, (t.teamAt r).resident = true → (t.teamAt r).tenant ≠ tenant) ∧ (∀ x ∈ t.hub.saved, x.team.tenant ≠ tenant) ∧
  (∀ c ∈ t.hub.clusters, c.tenant ≠ tenant) ∧ (∀ k ∈ t.hub.waits, k.tenant ≠ tenant) ∧
  (∀ f ∈ t.hub.faults, f.tenant = tenant → f.answered = true) ∧ ∀ q ∈ t.hub.queues, q.tenant = tenant → q.stopped = true

/-- The hub reads doubles of a tenant's intermediate space in this order, each the value beside it (R384, R389). -/
def HubReads (tenant : Nat) : List (Nat × Double) → State → State → Prop
  | [], s, u => u = s
  | (ipa, x) :: rest, s, u => ∃ v, ipaLoad tenant ipa s = (some x, v) ∧ HubReads tenant rest v u

/-- The fault record that an answer names is outstanding (R537). -/
def Outstanding (s : State) : Prop :=
  ∃ f ∈ s.hub.faults, f.page = s.occ.id ∧ f.tenant = s.occ.tenant ∧ f.answered = false

end Sys2Proof.Claims

/-- R447, R448, R495, R541, R567, R568: coves: an idle cove is gated and held; a request to an awake cove restarts its idle count,
and otherwise waits for a grant; the oldest request that may be granted is, and the cove is usable 3 µs later, or fails; with a
failed supervisor its cove fails. -/
def Obligations.CovesGateAndWake : Prop :=
  ∀ (s : State), s.occ.aux < 9 →
    let v := namedCove s s.occ
    (gateDue s (busyCoves s) s.occ.die s.occ.aux = false → exec .coveGate s = .next s) ∧
    (gateDue s (busyCoves s) s.occ.die s.occ.aux = true → ∃ t, exec .coveGate s = .next t ∧
      (namedCove t s.occ).gated = true ∧ (namedCove t s.occ).holdEnd = s.now + 48000) ∧
    (v.failed = true → exec .coveWakeRequest s = .next s) ∧
    (v.failed = false → v.gated = false → v.waking = none → ∃ t, exec .coveWakeRequest s = .next t ∧ t.mem = s.mem ∧
      t.team = s.team ∧ t.core = s.core ∧ namedCove t s.occ = { v with idleFrom := s.now }) ∧
    (v.failed = false → v.gated = true → v.wanted = none → v.waking = none → ∃ t, exec .coveWakeRequest s = .next t ∧
      t.mem = s.mem ∧ t.team = s.team ∧ t.core = s.core ∧ namedCove t s.occ = { v with wanted := some s.now }) ∧
    (v.failed = false → (v.wanted.isSome = true ∨ v.waking.isSome = true) → (v.gated = true ∨ v.waking.isSome = true) →
      exec .coveWakeRequest s = .next s) ∧
    (∀ r, v.wanted = some r → v.holdEnd ≤ s.now → (∀ g, (s.dieAt s.occ.die).lastGrant = some g → g + 4800 ≤ s.now) →
      (∀ u, u < 9 → u ≠ s.occ.aux → ∀ q, (vget (s.dieAt s.occ.die).coves u Cove.reset).wanted = some q → r < q) →
      ∃ t, exec .coveWakeGrant s = .next t ∧ t.mem = s.mem ∧ t.team = s.team ∧
        namedCove t s.occ = { v with wanted := none, waking := some s.now } ∧
        (t.dieAt s.occ.die).lastGrant = some s.now ∧
        (s.now + 7200, .coveUsable, { die := s.occ.die, aux := s.occ.aux, id := s.now }) ∈ t.timers) ∧
    (v.waking ≠ some s.occ.id → exec .coveUsable s = .next s) ∧
    (v.waking = some s.occ.id → ∃ t, exec .coveUsable s = .next t ∧ t.mem = s.mem ∧ t.team = s.team ∧
      namedCove t s.occ = { v with gated := false, waking := none, idleFrom := s.now }) ∧
    (v.waking = none → exec .covePowerupFail s = .next s) ∧
    (v.waking.isSome = true → ∃ u, exec .covePowerupFail s = .next (schedule u) ∧ (namedCove u s.occ).failed = true ∧
      s.hub.errTail < u.hub.errTail) ∧
    (v.failed = false → ∃ u, exec .svfail s = .next (schedule u) ∧ (namedCove u s.occ).failed = true ∧
      s.hub.errTail < u.hub.errTail)

/-- R99, R305, R443, R444, R439, R451, R452, R569, R570: Energy windows, re-grants, refresh windows, heat, trips and
migration. -/
def Obligations.WindowsHeatAndMigration : Prop :=
  (∀ (s : State),
     exec .energyWindowEnd s = .next { s with core := windowEnds s.core, cores := s.cores.map windowEnds } ∧
     exec .refreshWindowStart s = .next { s with hub := { s.hub with refreshing := some s.occ.aux } } ∧
     exec .refreshWindowEnd s = .next { s with hub := { s.hub with
       refreshing := if s.hub.refreshing = some s.occ.aux then none else s.hub.refreshing } } ∧
     (s.core.die < 8 → s.core.pcore < 72 → ∃ t level, exec .regrant s = .next t ∧ t.mem = s.mem ∧ SameRegs s.team t.team ∧
       level ≤ s.core.pwrq.getD 15 ∧ level ≤ 15 ∧ t.core.pwrq = none ∧
       t.core.nextGrant = some ((vget s.hub.gltab level 0xfffff).extractLsb' 0 20).toNat)) ∧
  ((∀ (s : State) (c : Nat), c < 576 → ∃ t, exec .sensorReading s = .next t ∧
     temperature (tsensOf t.hub c) = (Config.reading (s.now / 24000) c).toNat ∧
     threshold (tsensOf t.hub c) = threshold (tsensOf s.hub c) ∧
     (c ∉ s.hub.disarmed → threshold (tsensOf s.hub c) ≤ temperature (tsensOf t.hub c) →
       (tsensOf t.hub c).getLsbD 8 = true)) ∧
   (∀ (s : State), let d := s.occ.die; let p := s.occ.core
     ((s.residents d p = [] ∧ targeted s d p = false ∨ (s.dieAt d).migrates p = true) → exec .thermalTrip s = .next s) ∧
     (s.residents d p = [] → (s.dieAt d).migrates p = false → targeted s d p = true → ∃ t, exec .thermalTrip s = .next t ∧
       t.mem = s.mem ∧ t.team = s.team ∧ 72 * d + p ∈ t.hub.pendingTrips) ∧
     (∀ q, s.residents d p ≠ [] → (s.dieAt d).migrates p = false → migratedLately s d p = false →
       migrationTarget s d = some q → ∃ t, exec .thermalTrip s = .next t ∧ t.mem = s.mem ∧ SameRegs s.team t.team ∧
         (t.dieAt d).migrating = (s.dieAt d).migrating ++ [(p, q)] ∧
         (s.team.ref ∈ s.residents d p → s.team.park ≠ .ending → t.team.stopAsked = true)) ∧
     (s.residents d p ≠ [] → (s.dieAt d).migrates p = false →
       (migratedLately s d p = true ∨ migrationTarget s d = none) → ∃ t, exec .thermalTrip s = .next t ∧ t.mem = s.mem ∧
         t.team = s.team ∧ 72 * d + p ∈ t.hub.pendingTrips)) ∧
   (∀ (s : State) (p q l : Nat), p = s.occ.core → (s.dieAt s.occ.die).migrating.find? (fun m => m.1 = p) = some (p, q) →
     p ≠ q → (s.dieAt s.occ.die).logical p = some l →
     (migrationReady s s.occ.die p = false → exec .migrationMove s = .next s) ∧
     (migrationReady s s.occ.die p = true → q ∈ (s.dieAt s.occ.die).freeCores →
       ((s.dieAt s.occ.die).cove (q / 8)).usable = true →
       ∃ u, exec .migrationMove s = .next (schedule u) ∧ SameRegs s.team u.team ∧
         (u.dieAt s.occ.die).physical l = some q ∧ (u.coreAt s.occ.die q).acc = (s.coreAt s.occ.die p).acc ∧
         (u.coreAt s.occ.die q).tri = (s.coreAt s.occ.die p).tri ∧
         (u.coreAt s.occ.die q).rings = (s.coreAt s.occ.die p).rings)))

/-- R363, R364, R387, R490, R536, R537, R411 to R415, R198, R548: Fault answers, declines, kills and invalidations; host
waits and wakes hand over tokens. -/
def Obligations.HostWaitsFaultsAndKills : Prop :=
  (∀ (s : State),
     (∃ t, exec .fresRetry s = .next t ∧ t.mem = s.mem ∧ t.team = s.team ∧
       ∀ f ∈ s.hub.faults, f.page = s.occ.id → f.tenant = s.occ.tenant → f.answered = false →
         ∀ w ∈ f.waiters, .event w.1 w.2 ∈ t.agenda) ∧
     (Outstanding s → ∃ t, exec .fresDecline s = .next t ∧ Killed t s.occ.tenant ∧ s.hub.errTail < t.hub.errTail) ∧
     (¬ Outstanding s → exec .fresDecline s = .next s) ∧
     (∀ f, s.hub.faults.find? (fun f => f.id = s.occ.id && !f.answered) = some f →
       ∃ t, exec .faultRequestTimeout s = .next t ∧ Killed t f.tenant) ∧
     (s.hub.faults.find? (fun f => f.id = s.occ.id && !f.answered) = none → exec .faultRequestTimeout s = .next s) ∧
     (∃ u, exec .tkill s = .next (schedule u) ∧ Killed u s.occ.tenant ∧ s.hub.errTail < u.hub.errTail ∧
       u.hub.tkill = BitVec.ofNat 64 (s.occ.tenant % 2 ^ 16)) ∧
     (∀ i, (i = .htinvPage ∨ i = .htinvTenant ∨ i = .htinvAll) → ∃ t n, exec i s = .next t ∧ t.mem = s.mem ∧
       t.team = s.team ∧ t.hub = { s.hub with htinvBusy := true, htinvNow := s.occ.w } ∧ (n, .htinvDone, {}) ∈ t.timers ∧ s.now < n) ∧
     (∃ t, exec .htinvDone s = .next t ∧ t.mem = s.mem ∧ t.team = s.team ∧ t.hub.htinvBusy = false ∧
       (∀ e ∈ t.hub.tlb, e ∈ s.hub.tlb ∧ s.hub.htinvNow.extractLsb' 61 2 ≤ 1 ∧
         (s.hub.htinvNow.extractLsb' 61 2 = 1 → e.leaf.entry.extractLsb' 42 16 ≠ s.hub.htinvNow.extractLsb' 45 16)) ∧
       let waiting := s.hub.htinvQueue.dropWhile fun x => x.extractLsb' 61 2 == 3
       t.hub.htinvQueue = waiting.drop 1 ∧ (waiting = [] → t.agenda = s.agenda) ∧
       ∀ x, waiting.head? = some x → ∃ i, t.agenda = .event i { w := x } :: s.agenda ∧
         i = if x.extractLsb' 61 2 = 0 then .htinvPage else if x.extractLsb' 61 2 = 1 then .htinvTenant else .htinvAll) ∧
     (∃ t, exec .regionMerge s = .next t ∧ t.mem = s.mem ∧ t.team = s.team ∧ t.core = s.core ∧
       t.hub = { s.hub with regions := t.hub.regions })) ∧
  (∀ (s : State) (tenant : Nat), writerTenant s.hub s.occ = some tenant →
     let va := ((s.occ.w.extractLsb' 3 53).toNat) * 8
     let pkg := windowPackage (tenantWindows s tenant) va
     (s.occ.w.getLsbD 63 = false → ∃ t, exec .hwkeyArm s = .next t ∧ t.mem = s.mem ∧ t.team = s.team ∧
       (∀ k ∈ t.hub.waits, .host s.occ.id ∉ k.waiters) ∧ SMap.get? t.hub.hwkey s.occ.id = some (BitVec.ofNat 64 va)) ∧
     (s.occ.w.getLsbD 63 = true → pkg = some s.hub.package → findKey s.hub tenant va = none → s.hub.waits.length < 65536 →
       ∃ t k, exec .hwkeyArm s = .next t ∧ t.mem = s.mem ∧ t.team = s.team ∧ findKey t.hub tenant va = some k ∧
         k.token = false ∧ k.waiters = [.host s.occ.id] ∧
         SMap.get? t.hub.hwkey s.occ.id = some (BitVec.ofNat 64 (2 ^ 63 + va))) ∧
     (pkg = none → ∃ t, exec .hwake s = .next t ∧ t.mem = s.mem ∧ t.team = s.team ∧ t.hub.waits = s.hub.waits ∧
       t.hub.errTail = s.hub.errTail + 1) ∧
     (pkg = some s.hub.package →
       (findKey s.hub tenant va = none → s.hub.waits.length < 65536 → ∃ t k, exec .hwake s = .next t ∧
         t.mem = s.mem ∧ t.team = s.team ∧ findKey t.hub tenant va = some k ∧ k.token = true ∧ k.waiters = []) ∧
       (∀ k, findKey s.hub tenant va = some k → k.waiters = [.team s.team.ref s.team.cluster] →
         (∃ a b c d, s.team.park = .wwait a b c d) → ∃ t, exec .hwake s = .next t ∧ t.mem = s.mem ∧ WaitEnds s t 0 ∧
           (k.token = false → findKey t.hub tenant va = none))))

namespace Sys2Proof.Claims

open Machine

/-- The queue that an occurrence names. -/
def named (s : State) : Option Queue := s.hub.queues.find? fun q => q.qid = s.occ.id

/-- The queue of an identifier in another state. -/
def queueOf (t : State) (qid : Nat) : Option Queue := t.hub.queues.find? fun q => q.qid = qid

/-- A queue with nothing of a graph to replay. -/
def PacketQueue (q : Queue) : Prop := q.kicks = [] ∧ q.replay = none

/-- A page that a working set of the queue has asked for. -/
def Asked (q : Queue) (page : Nat) (since : Nat) : Prop := ∃ w ∈ q.work, (page, since) ∈ w.asked

/-- No line of a core's L1D and no line of a die's L2 is dirty. -/
def NoDirtyLine (s : State) : Prop :=
  (∀ d p, ∀ l ∈ (s.coreAt d p).l1d, l.isDirty = false) ∧ ∀ d, ∀ l ∈ (s.dieAt d).l2, l.isDirty = false

end Sys2Proof.Claims

/-- R389, R391, R398, R402, R405, R408, R546, R549, R399: queues: a descriptor with a value that is not allowed registers nothing,
and any other of a packet queue registers it; a doorbell of another tenant leaves a record and nothing else; a notify, a wake and
a poll make the hub look at the queue again; a kick waits behind the others, or is dropped and counted when 16 wait; the pages of
a working set are pinned as they are answered, and one that is declined or not answered in time kills the tenant. -/
def Obligations.QueuesAndDoorbells : Prop :=
  ∀ (s : State),
    (∀ base cfg rbase rtail u,
      HubReads s.occ.tenant [(s.occ.id + 16, base), (s.occ.id + 24, cfg), (s.occ.id + 32, rbase), (s.occ.id + 40, rtail)] s u →
      s.hub.wait = none → u.hub.wait = none →
      (queueRefused s.occ.id base cfg rbase = true → exec .queueRegister s = .next u) ∧
      (queueRefused s.occ.id base cfg rbase = false → cfg.getLsbD 19 = false → ∃ q, exec .queueRegister s = .next
          { u with hub := { u.hub with queues := q :: u.hub.queues.filter fun x => x.qid ≠ q.qid } } ∧
        q.qid = (cfg.extractLsb' 48 16).toNat ∧ q.tenant = s.occ.tenant ∧ q.desc = s.occ.id ∧ q.cfg = cfg ∧
        q.stopped = false ∧ PacketQueue q ∧ q.rseq = rtail.toNat % 2 ^ 32)) ∧
    (s.occ.aux ≠ 2 → named s = none → exec .queueNotify s = .next s) ∧ (named s = none → exec .graphKick s = .next s) ∧
    (s.occ.aux = 2 → exec .queueNotify s = .next (schedule s)) ∧
    (∀ q, named s = some q →
      (writerTenant s.hub s.occ ≠ some q.tenant → ∀ i, (i = .queueNotify ∧ s.occ.aux = 0 ∨ i = .graphKick) → ∃ t, exec i s = .next t ∧
        t.mem = s.mem ∧ t.team = s.team ∧ t.hub.queues = s.hub.queues ∧ t.hub.errTail = s.hub.errTail + 1) ∧
      (PacketQueue q → (writerTenant s.hub s.occ = some q.tenant ∧ s.occ.aux = 0 ∨ s.occ.aux = 1) → ∃ u q',
        exec .queueNotify s = .next (schedule u) ∧ u.mem = s.mem ∧ queueOf u q.qid = some q' ∧ q'.held = false ∧
        (s.occ.aux = 0 → q.stopped = false → (s.hub.queues.filter (·.bound)).length < 64 → q'.bound = true)) ∧
      (PacketQueue q → ∃ u, exec .depFallbackPoll s = .next (schedule u) ∧ u.mem = s.mem ∧
        queueOf u q.qid = some { q with held := false }) ∧
      (writerTenant s.hub s.occ = some q.tenant → q.stopped = false → q.cfg.getLsbD 19 = true → q.replay.isSome = true →
        (16 ≤ q.kicks.length → ∃ t, exec .graphKick s = .next t ∧ t.mem = s.mem ∧ t.hub.errTail = s.hub.errTail + 1 ∧
          queueOf t q.qid = some { q with dropped := (q.dropped + 1) % 2 ^ 32 }) ∧
        (q.kicks.length < 16 → ∃ u q', exec .graphKick s = .next (schedule u) ∧ u.mem = s.mem ∧
          queueOf u q.qid = some q' ∧
          q'.kicks = q.kicks ++ [((s.occ.w.extractLsb' 0 16).toNat, s.occ.w.extractLsb' 16 32)])) ∧
      ((∀ n, ¬ Asked q s.occ.aux n) → exec .workingSetAnswer s = .next s ∧ exec .workingSetTimeout s = .next s) ∧
      (∀ n, Asked q s.occ.aux n →
        (s.occ.ok = true → PacketQueue q → ∃ u q', exec .workingSetAnswer s = .next (schedule u) ∧ u.mem = s.mem ∧
          queueOf u q.qid = some q' ∧ (∃ w ∈ q'.work, s.occ.aux ∈ w.pinned) ∧ ∀ m, ¬ Asked q' s.occ.aux m) ∧
        (s.occ.ok = false → ∃ u, exec .workingSetAnswer s = .next (schedule u) ∧ Killed u q.tenant) ∧
        (n + 240000000 ≤ s.now → ∃ u, exec .workingSetTimeout s = .next (schedule u) ∧ Killed u q.tenant)))

/-- R392, R397, R399, R403, R543, R550, R551: packets: the packet that the hub finds ready at the head of a queue starts, and one
that it refuses is reported; a launch whose clusters have all ended, its threads having returned, leaves with its report; the
limits on a slot that stays claimed and on signals end with their reports, that on a run ends what runs, for its report, and a limit
whose condition has ended does nothing more; all of them where the home makes no access of the hub wait (R352, R536). -/
def Obligations.PacketsStartAndRetire : Prop :=
  ∀ (s : State), s.hub.wait = none →
    (∀ q, named s = some q →
      ((q.stopped = true ∨ q.bound = false) → exec .packetStart s = .next s) ∧
      (∀ vs u q0 es p, q.stopped = false → q.bound = true → evaluate q s = (vs, u) → queueOf u q.qid = some q0 →
        nextAct vs = some (.ready es, p) → p.node = none → (startHead q s).hub.wait = none →
        ∃ t l, exec .packetStart s = .next t ∧ l ∈ t.hub.launches ∧ l.k = p.k ∧ l.packet = p.packet ∧ l.qid = q.qid ∧
          l.tenant = q0.tenant ∧ (queueOf t q.qid).map (·.started) = some (q0.started ++ [p.k]) ∧
          (pktOnDies p.packet = true → l.clusters.length = pktClusters p.packet)) ∧
      (∀ vs u q0 st p, q.stopped = false → q.bound = true → evaluate q s = (vs, u) → queueOf u q.qid = some q0 →
        nextAct vs = some (.refused st false, p) → p.node = none → (startHead q s).hub.wait = none →
        ∃ v, exec .packetStart s = .next (schedule v) ∧ (queueOf v q.qid).map (·.rseq) = some (q0.rseq + 1) ∧
          v.hub.launches = u.hub.launches) ∧
      ((q.hdrFrom ≠ some s.occ.aux ∨ q.stopped = true) → exec .hdrTimeout s = .next s) ∧
      (∀ u q0, q.hdrFrom = some s.occ.aux → q.stopped = false → headPacket q s = (.error true, u) →
        queueOf u q.qid = some q0 → (hdrExpires s).hub.wait = none →
        ∃ v q', exec .hdrTimeout s = .next (schedule v) ∧ queueOf v q.qid = some q' ∧
          q'.stopped = true ∧ q'.bound = false ∧ q'.rseq = q0.rseq + 1) ∧
      ((q.depFrom ≠ some s.occ.aux ∨ q.stopped = true) → exec .depTimeout s = .next s) ∧
      (∀ vs x p u q0, q.depFrom = some s.occ.aux → q.stopped = false → evaluate q s = (vs, u) →
        queueOf u q.qid = some q0 → PacketQueue q0 → vs.find? heldBySignals = some (x, p) → p.node = none →
        (depExpires s).hub.wait = none → ∃ v q', exec .depTimeout s = .next (schedule v) ∧ queueOf v q.qid = some q' ∧ q'.rseq = q0.rseq + 1 ∧
          q'.depFrom = none)) ∧
    (∀ l, s.hub.launches.find? (fun l => l.id = s.occ.id) = some l →
      (s.occ.aux = 0 → ((∃ c ∈ s.hub.clusters, c.launch = l.id ∧ c.phase ≠ .ended) ∨
          l.status = none ∧ ∃ x ∈ l.threads, x.returned = false) → exec .packetRetire s = .next s) ∧
      (NoDirtyLine s → s.occ.aux = 0 → (l.status.isSome = true ∨ ∀ x ∈ l.threads, x.returned = true) →
        (∀ c ∈ s.hub.clusters, c.launch = l.id → c.phase = .ended) → (launchAdvances s).hub.wait = none →
        ∃ v, exec .packetRetire s = .next (schedule v) ∧ (∀ x ∈ v.hub.launches, x.id ≠ l.id) ∧
          (∀ c ∈ v.hub.clusters, c.launch ≠ l.id) ∧
          (∀ q, queueOf s l.qid = some q → l.replay = none → PacketQueue q →
            ∃ q', queueOf v l.qid = some q' ∧ q'.rseq = q.rseq + 1 ∧ l.k ∉ q'.started)) ∧
      (∃ t l', exec .runTimeout s = .next t ∧ t.mem = s.mem ∧ t.hub.launches.find? (fun l => l.id = s.occ.id) = some l' ∧
        l'.status = some 9 ∧ (∀ c ∈ t.hub.clusters, c.launch = l.id → c.phase = .ended) ∧
        t.agenda.head? = some (.event .packetRetire { id := l.id }))) ∧
    (s.hub.launches.find? (fun l => l.id = s.occ.id) = none →
      exec .packetRetire s = .next s ∧ exec .runTimeout s = .next s)

/-- R48, R54, R61, R434, R435, R552, R553: clusters: a placed cluster is released once its coves can be used; the overrun of a
run budget asks its cluster for a forced save; a cluster whose teams stand at their boundaries is saved as a whole, its slots
free, and goes back to them once their places are free; a save area that fails its check ends the packet's clusters, and one with a
poisoned line kills its tenant. -/
def Obligations.ClustersStartAndSave : Prop :=
  ∀ (s : State) (c : Cluster), saveGroup s c = [c] →
    (s.hub.clusters.find? (fun c => c.id = s.occ.id) = some c →
      (c.phase = .resident → coldCoves s c = [] → ∃ t, exec .clusterStart s = .next t ∧ t.mem = s.mem ∧
        SameRegs s.team t.team ∧
        (s.team.resident = true → s.team.cluster = c.id → s.team.park = .start → t.team.park = .none) ∧
        (s.team.cluster ≠ c.id → t.team = s.team)) ∧
      (c.phase = .resident → ∀ v, v ∈ coldCoves s c → ∃ t, exec .clusterStart s = .next t ∧ t.team = s.team ∧
        t.mem = s.mem ∧ .event .coveWakeRequest { die := c.die, aux := v } ∈ t.agenda) ∧
      (c.phase ≠ .resident → c.phase ≠ .placed → exec .clusterStart s = .next s) ∧
      (c.phase = .placed → s.hub.launches.find? (fun l => l.id = c.launch) = none → exec .clusterStart s = .next s) ∧
      (clusterStopped s c = false → exec .boundarySave s = .next s) ∧
      (clusterStopped s c = true → c.teams = [s.team.ref] → Foreground s s.team.ref → s.team.resident = true →
        ∃ u, exec .boundarySave s = .next (schedule u) ∧ u.team.resident = false ∧
          (∃ x ∈ u.hub.saved, x.team = s.team ∧ x.format = saveFormat c s.team) ∧
          ∃ c', u.hub.clusters.find? (fun c => c.id = s.occ.id) = some c' ∧ c'.phase = .saved) ∧
      ((c.phase ≠ .saved ∨ placesFree s c = false) → exec .clusterRestore s = .next s) ∧
      (∀ x, c.phase = .saved → placesFree s c = true → (s.hub.saved.filter fun x => x.team.cluster = c.id) = [x] →
        x.team.ref ∉ c.ended → areaPoisoned s x = true →
        ∃ u, exec .clusterRestore s = .next (schedule u) ∧ Killed u x.team.tenant) ∧
      (∀ l x, c.phase = .saved → placesFree s c = true → x ∈ s.hub.saved → x.team.cluster = c.id → areaPasses s c x = false →
        (∀ y ∈ s.hub.saved, y.team.cluster = c.id → areaPoisoned s y = false) →
        s.hub.launches.find? (fun l => l.id = c.launch) = some l → c.id ∈ l.clusters → ∃ t, exec .clusterRestore s = .next t ∧
          (∃ c', t.hub.clusters.find? (fun c => c.id = s.occ.id) = some c' ∧ c'.phase = .ended) ∧
          ∃ l', t.hub.launches.find? (fun l => l.id = c.launch) = some l' ∧ l'.status = some 5) ∧
      (∀ x, c.phase = .saved → placesFree s c = true → (s.hub.saved.filter fun x => x.team.cluster = c.id) = [x] →
        areaPasses s c x = true → areaPoisoned s x = false → x.format = 1 → x.reply = false → x.team.trap = none → ((s.dieAt c.die).stage c.id).parked = 0 →
        ∃ t, exec .clusterRestore s = .next t ∧ t.team.ref = x.team.ref ∧
          (∀ k, 0 < k → k < 64 → vget t.team.s k 0 = t.mem.double (areaKey x.team (0x100 + 8 * k))) ∧
          (∀ k, k < 16 → vget t.team.a k 0 = t.mem.double (areaKey x.team (0x300 + 8 * k)) ∧
            vget t.team.d k 0 = t.mem.double (areaKey x.team (0x380 + 8 * k))) ∧
          (x.team.park = .boundary → t.team.park = .none) ∧ (∀ y ∈ t.hub.saved, y.team.cluster ≠ c.id) ∧
          ∃ c', t.hub.clusters.find? (fun c => c.id = s.occ.id) = some c' ∧ c'.phase = .resident)) ∧
    (s.team.ref = s.occ.team → s.hub.clusters.find? (fun c => c.id = s.team.cluster) = some c → c.phase = .resident →
      ∃ t, exec .budgetOverrun s = .next t ∧ t.mem = s.mem ∧ SameRegs s.team t.team ∧
        (s.team.resident = true → s.team.park ≠ .ending → t.team.forcedAsked = true) ∧
        ∃ c', t.hub.clusters.find? (fun x => x.id = c.id) = some c' ∧ c'.phase = .saving ∧ c'.forced = true)

namespace Sys2Proof.Claims

open Machine

/-- The state of a port: a UALink link's lanes, or an Ultra Ethernet port's speed; 0 is down (R31). -/
def portOf (h : Hub) (l : Nat) : Nat := if l < 64 then vget h.lanes l 0 else vget h.speeds (l - 64) 0

/-- A request brings no change to memory, to a team or to a core but its record in the error log. -/
def OnlyRecorded (s t : State) : Prop :=
  t.mem = s.mem ∧ t.team = s.team ∧ t.teams = s.teams ∧ t.core = s.core ∧ t.cores = s.cores ∧ t.hub.queues = s.hub.queues

/-- The bytes `r.ipa` and the `n - 1` after it lie in one line, at `loc` in this package's memory, that the tenant may access,
that is not poisoned and whose scales are not being moved; `pa` is the line's physical address (R351, R352, R359, R362). -/
def AtHome (s : State) (tenant ipa n : Nat) (k : AccKind) (pa : Nat) : Prop :=
  (∃ loc, spotOf s.hub.package ipa = .translated loc) ∧
  (∃ loc, spotOf s.hub.package (ipa / 64 * 64) = .translated loc ∧ homeCheck s tenant k loc = .ok pa ∧
    homeCheck s tenant .read loc = .ok pa ∧ homeCheck s tenant .write loc = .ok pa) ∧
  0 < n ∧ ipa % 64 + n ≤ 64 ∧ ipa / 64 * 64 ∉ s.hub.poisoned ∧ scaleMoving s (ipa / 64 * 64) = false

/-- The bytes `bs` from `ipa` on stand in their line at its home, and nothing else has changed there (R350, R382). -/
def WrittenAtHome (s t : State) (ipa pa : Nat) (bs : List Byte) : Prop :=
  homeBytes t (ipa / 64 * 64) pa = overlay (homeBytes s (ipa / 64 * 64) pa) (lineBytes (ipa % 64) bs) ∧
  (∀ q, q < paKey pa + ipa % 64 ∨ paKey pa + ipa % 64 + bs.length ≤ q → t.mem.byte q = s.mem.byte q) ∧
  ∀ line, line ≠ ipa / 64 * 64 → (t.hub.line line).map (·.bytes) = (s.hub.line line).map (·.bytes)

/-- A request waits at a link, in a direction, to come to its home over the package's links (R457, R458). -/
def WaitsAt (t : State) (l : Nat) (out : Bool) (i : Instr) (o : Occ) : Prop :=
  ∃ q ∈ t.hub.links, q.link = l ∧ q.out = out ∧ ∃ x ∈ q.waiting, x.2.what = some (i, o)

/-- The ring that an occurrence names. -/
def ringOf (s : State) : Option ScaleRing := s.hub.ring s.occ.id

end Sys2Proof.Claims

/-- R459 to R461, R530, R535, R546: scale-out rings: a descriptor that is allowed registers its ring, with the endpoint table as it
is read; a doorbell consumes the ring's entries in order, up to one that cannot be read or whose header is 0, each with the
descriptor that it names or, with a reserved op or endpoint, with a record and no run, and another tenant's doorbell none; an entry
whose next granule has moved goes on with the one after it, or leaves the ring, done, with its last, or where its local side may not
be used; all of them where the home makes no access of the hub wait (R352, R536). -/
def Obligations.ScaleOutRings : Prop :=
  (∀ (s u : State) (head base cfg tab cnt : Double), s.hub.wait = none → u.hub.wait = none →
    HubReads s.occ.tenant [(s.occ.id, head), (s.occ.id + 16, base), (s.occ.id + 24, cfg), (s.occ.id + 32, tab),
      (s.occ.id + 40, cnt)] s u →
    let lsz := (cfg.extractLsb' 0 5).toNat
    let n := (cnt.extractLsb' 0 32).toNat
    let ring := (cfg.extractLsb' 32 16).toNat
    let refused := s.occ.id % 64 ≠ 0 ∨ base.toNat % 4096 ≠ 0 ∨ lsz = 0 ∨ 16 < lsz ∨ tab.toNat % 32 ≠ 0 ∨ n = 0 ∨ 65536 < n
    (refused → exec .scaleoutRegister s = .next u) ∧
    (∀ v, ¬ refused → readEndpoints s.occ.tenant tab.toNat n u = (none, v) → v.hub.wait = none →
      exec .scaleoutRegister s = .next v) ∧
    (∀ v es, ¬ refused → readEndpoints s.occ.tenant tab.toNat n u = (some es, v) → v.hub.wait = none →
      let new : ScaleRing :=
        { ring := ring, tenant := s.occ.tenant, desc := s.occ.id, base := base.toNat, lsz := lsz, endpoints := es,
          head := head.toNat, running := ((v.hub.ring ring).map (·.running)).getD [] }
      let rings := new :: v.hub.rings.filter fun r => r.ring ≠ ring
      es.length = n ∧ exec .scaleoutRegister s = .next { v with hub := { v.hub with rings := rings } })) ∧
  (∀ (s : State), (∀ x, ringOf s = some x → writerTenant s.hub s.occ ≠ some x.tenant) →
    exec .scaleoutDoorbell s = .next s) ∧
  (∀ (s : State) (x : ScaleRing), s.hub.wait = none → ringOf s = some x → writerTenant s.hub s.occ = some x.tenant →
    let entry := x.base + 32 * (x.head % 2 ^ x.lsz)
    let consumed := fun u : State =>
      let v := ipaStore x.tenant x.desc (BitVec.ofNat 64 (x.head + 1)) (hubStore x.tenant entry 0 u)
      let moved := modWhere (fun r => r.ring = s.occ.id) (fun r => { r with head := r.head + 1 }) v.hub.rings
      { v with hub := { v.hub with rings := moved } }
    (∀ u ds, hubDoubles x.tenant entry 3 s = (ds, u) → u.hub.wait = none →
      (∀ xs, ds = some xs → (nth xs 0 0).extractLsb' 0 8 = 0) → exec .scaleoutDoorbell s = .next u) ∧
    (∀ u h d g, hubDoubles x.tenant entry 3 s = (some [h, d, g], u) → h.extractLsb' 0 8 ≠ 0 →
      (consumeRing s.occ.id (2 ^ x.lsz) s).hub.wait = none →
      let op := (h.extractLsb' 0 8).toNat
      let ep := (h.extractLsb' 16 16).toNat
      ((4 < op ∨ x.endpoints.length ≤ ep) → ∃ v, exec .scaleoutDoorbell s = .next (consumeRing s.occ.id (2 ^ x.lsz - 1) v) ∧
        v.hub.rings = (consumed u).hub.rings ∧ u.hub.errTail < v.hub.errTail) ∧
      (op ≤ 4 → ep < x.endpoints.length →
        ∃ v, exec .scaleoutDoorbell s = .next (consumeRing s.occ.id (2 ^ x.lsz - 1) v) ∧
        let w := hubDoubles x.tenant d.toNat 12 (consumed u)
        match w.1.bind fun ds => tensorOf (ds.flatMap fun d => natBytes 8 d.toNat) with
        | none => v.hub.rings = w.2.hub.rings
        | some n =>
          let run : ScaleRun := { k := x.head, op := op, desc := d.toNat, signal := g.toNat, endpoint := ep, tensor := n }
          let joined := modWhere (fun r => r.ring = s.occ.id) (fun r => { r with running := r.running ++ [run] }) w.2.hub.rings
          (op = 2 → v.hub.rings = joined) ∧
          (op ≠ 2 → ∀ y, moveLocal x.tenant false w.2.free (tensorPieces n false)
              { w.2 with hub := { w.2.hub with rings := joined }, free := w.2.free + 1 } = (none, y) →
            v.hub.rings = joined)))) ∧
  (∀ (s : State), s.hub.wait = none → (∀ x, ringOf s = some x → ∀ y ∈ x.running, y.k ≠ s.occ.aux) →
    exec .scaleoutEntryDone s = .next s) ∧
  (∀ (s u : State) (x : ScaleRing) (run : ScaleRun), s.hub.wait = none → ringOf s = some x →
    x.running.find? (fun y => y.k = s.occ.aux) = some run →
    (run.op = 2 → moveLocal x.tenant true s.free (tensorPieces run.tensor true) { s with free := s.free + 1 } = (some .fault, u) →
      u.hub.wait = none →
      let left := modWhere (fun r => r.ring = s.occ.id) (fun r => { r with running := r.running.filter fun y => y.k ≠ run.k }) u.hub.rings
      exec .scaleoutEntryDone s = .next { u with hub := { u.hub with rings := left } }) ∧
    ((if run.op = 2 then moveLocal x.tenant true s.free (tensorPieces run.tensor true) { s with free := s.free + 1 } = (none, u)
      else u = s) → (entryAdvances s).hub.wait = none →
      ∃ t x', exec .scaleoutEntryDone s = .next t ∧ t.hub.rings.find? (fun r => r.ring = s.occ.id) = some x' ∧
        (run.tensor.next + 1 < run.tensor.granules → run.op = 2 → t.team = u.team ∧
          x'.running = modWhere (fun y => y.k = run.k)
            (fun _ => { run with tensor := { run.tensor with next := run.tensor.next + 1 } }) x.running) ∧
        (run.tensor.granules ≤ run.tensor.next + 1 → (run.signal = 0 → t.team = u.team) ∧
          x'.running = x.running.filter fun y => y.k ≠ run.k)))

/-- R31, R456, R487, R573, R574, R575, R455, R490, R350, R359, R362, R382, R455, R462, R463, R577: Ports and keys;
requests from outside pass their port's key check, cross the links to their home, and there
write their own bytes and change no other. -/
def Obligations.PortsAndOutsideRequests : Prop :=
  (∀ (s : State), s.occ.core < 80 →
     (∃ t, exec .portTrained s = .next t ∧ OnlyRecorded s t ∧
       portOf t.hub s.occ.core = if s.occ.core < 64 ∧ s.occ.aux ≠ 1 then 2 else 1) ∧
     (portOf s.hub s.occ.core = 2 → ∃ t, exec .laneFail s = .next t ∧ OnlyRecorded s t ∧ portOf t.hub s.occ.core = 1 ∧
       t.hub.errTail = s.hub.errTail + 1) ∧
     (portOf s.hub s.occ.core = 0 → exec .laneFail s = .next s ∧ exec .portDown s = .next s) ∧
     (∀ i, (i = .laneFail ∧ portOf s.hub s.occ.core = 1 ∨ i = .portDown ∧ portOf s.hub s.occ.core ≠ 0) →
       ((s.hub.linkQ s.occ.core true).waiting = [] → ∃ t, exec i s = .next t ∧ OnlyRecorded s t ∧
         portOf t.hub s.occ.core = 0 ∧ t.hub.errTail = s.hub.errTail + 1)) ∧
     exec .flitCrcFail s = .next { s with hub := { s.hub with errTail := s.hub.errTail + 1 } } ∧
     (∀ i, (i = .remoteRequestTimeout ∨ i = .keyFailureResponse) → ∃ u, exec i s = .next (schedule u) ∧
       Killed u s.occ.tenant ∧ s.hub.errTail < u.hub.errTail) ∧
     (s.occ.ok = true → isAnswer s.occ.req = false → (∀ e, s.hub.keyEntry s.occ.req.tenant = some e → e.2 ≠ s.occ.req.key) →
       ∃ t, exec .portRequest s = .next t ∧ OnlyRecorded s t ∧ t.hub.errTail = s.hub.errTail + 1 ∧
         t.hub.links = s.hub.links) ∧
     (s.occ.ok = true → (isAnswer s.occ.req = true ∨ ∃ e, s.hub.keyEntry s.occ.req.tenant = some e ∧ e.2 = s.occ.req.key) →
       ∃ t, exec .portRequest s = .next t ∧ OnlyRecorded s t ∧
         WaitsAt t s.occ.core false .portRequest { s.occ with ok := false })) ∧
  ((∀ (s : State) (pa : Nat), NoDirtyLine s → s.occ.ok = false →
     (s.occ.req.op = .write → AtHome s s.occ.req.tenant s.occ.req.ipa s.occ.req.data.length .write pa →
       ∃ t, exec .portRequest s = .next t ∧ t.team = s.team ∧ WrittenAtHome s t s.occ.req.ipa pa s.occ.req.data) ∧
     (∀ n, s.occ.req.op = .read n → AtHome s s.occ.req.tenant s.occ.req.ipa n .read pa →
       ∃ t, exec .portRequest s = .next t ∧ t.team = s.team ∧ homeBytes t (s.occ.req.ipa / 64 * 64) pa =
         homeBytes s (s.occ.req.ipa / 64 * 64) pa) ∧
     (∀ n, s.occ.req.op = .amo 0 n → AtHome s s.occ.req.tenant s.occ.req.ipa n .atomic pa →
       let old := ((homeBytes s (s.occ.req.ipa / 64 * 64) pa).drop (s.occ.req.ipa % 64)).take n
       ∃ t, exec .portRequest s = .next t ∧ t.team = s.team ∧
         WrittenAtHome s t s.occ.req.ipa pa (natBytes n ((leNat old + leNat s.occ.req.data) % 2 ^ (8 * n))))) ∧
   (∀ (s : State) (tenant ipa pa : Nat), NoDirtyLine s → Config.ownsPasid s.occ.core s.occ.aux = true →
     s.hub.functionTenant s.occ.core = some tenant → bar4Ipa s.occ.core s.occ.req.ipa = some ipa →
     s.occ.req.op = .write → AtHome s tenant ipa s.occ.req.data.length .write pa →
     (s.occ.ok = true → ∃ t, exec .hostBar4Request s = .next t ∧ OnlyRecorded s t ∧
       WaitsAt t 88 true .hostBar4Request { s.occ with ok := false }) ∧
     (s.occ.ok = false → ∃ t, exec .hostBar4Request s = .next t ∧ t.team = s.team ∧
       WrittenAtHome s t ipa pa s.occ.req.data)) ∧
   (∀ (s : State), (Config.ownsPasid s.occ.core s.occ.aux = false ∨ s.hub.functionTenant s.occ.core = none ∨
       ∃ k, k < reqBytes s.occ.req ∧ bar4Ipa s.occ.core (s.occ.req.ipa + k) = none) →
     ∃ t, exec .hostBar4Request s = .next t ∧ OnlyRecorded s t ∧ t.hub.errTail = s.hub.errTail + 1))

namespace Sys2Proof.Claims

open Machine

/-- The passenger entry of a socket (R30). -/
def passengerOf (s : State) (n : Nat) : Passenger := vget s.hub.passengers n { state := 0, cls := 0, kind := 0, gen := 0 }

/-- A compute die has been isolated and reset (R557): it is failed, its LMs hold zeros, its L2 no line, and its coves no record,
its remap table stays, and it is enumerated again later. -/
def DieLost (s t : State) (d : Nat) : Prop :=
  (passengerOf t d).state = 3 ∧ (t.dieAt d).remap = (s.dieAt d).remap ∧ (t.dieAt d).l2 = [] ∧
  (∀ v, v < 9 → (vget (t.dieAt d).coves v Cove.reset).fifo = []) ∧
  (∀ l o, l < 64 → o < 2 ^ 21 → t.mem.byte (lmKey d l o) = 0 ∧ lmMask t d l o = 0) ∧
  ∃ n, s.now < n ∧ (n, .dieResetDone, { die := d }) ∈ t.timers

end Sys2Proof.Claims

/-- R464, R465, R358, R490, R445, R443: a package reset leaves every register of the package as reset does but the dies' latency
profiles, host memory untouched and every other byte of memory zero; an image that is accepted boots the package once; a double written to a register of the
hub's table keeps its bits and clears the reserved ones, and one that the agent does not reach is ignored. -/
def Obligations.ResetBootAndRegisters : Prop :=
  ∀ (s : State),
    (∃ t, exec .packageReset s = .next t ∧ t.team = State.reset.team ∧ t.teams = [] ∧ t.core = State.reset.core ∧
      t.cores = [] ∧ t.die = State.reset.die ∧ t.dies = [] ∧ t.now = 0 ∧ t.agenda = [] ∧
      t.hub = { Hub.reset with dieEntries := t.hub.dieEntries } ∧ (∀ d, d < 8 → profileOf t d = profileOf s d) ∧
      t.lmEpochs = [] ∧
      ∀ k, t.mem.byte k = if 2 ^ 56 ≤ k ∧ k < 2 ^ 57 then s.mem.byte k else 0) ∧
    ((s.hub.imageOk = true ∨ accepted s.occ.image = false) →
      exec .bootImageOffer s = .next s) ∧
    (s.hub.imageOk = false → accepted s.occ.image = true → ∃ t,
      exec .bootImageOffer s = .next t ∧ t.mem = s.mem ∧ t.team = s.team ∧ t.hub.imageOk = true ∧ t.hub.booted = true ∧
      t.hub.package = s.occ.image.package ∧ t.hub.partitions = s.occ.image.partitions ∧ t.hub.owners = s.occ.image.owners ∧
      t.hub.errEpoch = s.occ.image.epoch ∧ t.hub.ddr = s.occ.image.ddr ∧ t.hub.chan = s.occ.image.chan ∧
      t.hub.width = s.occ.image.width ∧ t.hub.cxl = s.occ.image.cxl ∧ t.hub.refreshPhase = s.occ.image.phase % 76800 ∧
      ∀ d x, d < 8 → s.occ.image.profiles[d]? = some x → profileOf t d = x) ∧
    (s.occ.id % 8 ≠ 0 → exec .registerWrite s = .next s) ∧
    (s.occ.id < 2 ^ 28 → (∀ x, apertureOffset s.occ.agent s.occ.id = some x → reaches s.occ.agent s.occ.ok x = false) →
      exec .registerWrite s = .next s) ∧
    (∀ x, s.occ.id < 2 ^ 28 → s.occ.id % 8 = 0 → apertureOffset s.occ.agent s.occ.id = some x →
      reaches s.occ.agent s.occ.ok x = true →
      (∀ i o, asEvent s { s.occ with id := x } = some (i, o) → exec .registerWrite s = .next (s.next i o)) ∧
      (x = 0x50018 → ∃ t, exec .registerWrite s = .next t ∧ t.mem = s.mem ∧ t.team = s.team ∧
        t.hub = { s.hub with qtmo := s.occ.w &&& 0xffffffffffff }) ∧
      (x = 0x50020 → ∃ t, exec .registerWrite s = .next t ∧ t.mem = s.mem ∧ t.team = s.team ∧
        t.hub = { s.hub with pslew := s.occ.w &&& 0xffff }) ∧
      (∀ j, j < 16 → x = 0x70000 + 8 * j → ∃ t, exec .registerWrite s = .next t ∧ t.mem = s.mem ∧ t.team = s.team ∧
        t.hub = { s.hub with gltab := vput s.hub.gltab j (s.occ.w &&& 0xfffff) }))

/-- R23 to R25, R30 to R32, R557, R558, R562, R487, R491, R495, R539, R490: Dies and passengers that are probed, lost,
isolated or enumerated; storage errors and what they kill. -/
def Obligations.DiesAndStorageErrors : Prop :=
  (∀ (s : State),
     (s.occ.ok = true → (∀ d, d < 8 → (passengerOf s d).state ≠ 2 ∨ (s.dieAt d).answering = true ∧ (s.dieAt d).misses = 0) →
       exec .dieProbe s = .next s) ∧
     (s.occ.ok = false → ∃ t, exec .dieProbe s = .next t ∧ t.mem = s.mem ∧ t.team = s.team ∧
       (t.dieAt s.occ.die).answering = false) ∧
     (s.occ.aux < 8 → (∀ l ∈ s.hub.launches, ∀ c ∈ s.hub.clusters, c.launch = l.id → c.die ≠ s.occ.aux) →
       (∃ u, exec .passengerIsolate s = .next (schedule u) ∧ DieLost s u s.occ.aux) ∧
       ((passengerOf s s.occ.aux).state = 2 → ∃ u, exec .ucieLinkDown s = .next (schedule u) ∧ DieLost s u s.occ.aux ∧
         s.hub.errTail < u.hub.errTail) ∧
       ((passengerOf s s.occ.aux).state ≠ 2 → exec .ucieLinkDown s = .next s)) ∧
     (8 ≤ s.occ.aux → s.occ.aux < 24 → ∀ i, (i = .passengerIsolate ∨ i = .ucieLinkDown) → ∃ t, exec i s = .next t ∧
       t.mem = s.mem ∧ t.team = s.team ∧ (passengerOf t s.occ.aux).state = 3 ∧
       t.hub.errTail = s.hub.errTail + (if i = .ucieLinkDown then 1 else 0) ∧
       ∃ n p, s.now < n ∧ (n, .passengerEnumerate, { aux := s.occ.aux, passport := p }) ∈ t.timers) ∧
     (s.occ.die < 8 → (passengerOf s s.occ.die).state = 3 → ∃ t n p, exec .dieResetDone s = .next t ∧ t.mem = s.mem ∧
       (passengerOf t s.occ.die).state = 1 ∧ s.now < n ∧ n ≤ s.now + 2400000 ∧
       (n, .passengerEnumerate, { aux := s.occ.die, passport := p }) ∈ t.timers) ∧
     ((passengerOf s s.occ.die).state ≠ 3 → exec .dieResetDone s = .next s) ∧
     (s.occ.aux < 24 → passportFits s s.occ.aux s.occ.passport = true → ∃ u, exec .passengerEnumerate s = .next (schedule u) ∧
       (passengerOf u s.occ.aux).state = 2 ∧ (passengerOf u s.occ.aux).kind = s.occ.passport.kind.toNat ∧
       (passengerOf u s.occ.aux).cls = socketClass s.hub s.occ.aux ∧ u.mem = s.mem ∧
       (s.occ.aux < 8 → profileOf u s.occ.aux = s.occ.passport.profile)) ∧
     (s.occ.aux < 24 → passportFits s s.occ.aux s.occ.passport = false → ∃ u,
       exec .passengerEnumerate s = .next (schedule u) ∧ (passengerOf u s.occ.aux).state = 4 ∧ u.mem = s.mem) ∧
     (∃ t, exec .controlDieCrash s = .next t ∧ t.mem = s.mem ∧ t.team = s.team ∧ t.core = s.core ∧
       (passengerOf t 8).state = 3 ∧ t.hub.errTail = s.hub.errTail + 1)) ∧
  (∀ (s : State), let line := s.occ.id / 64 * 64
     (s.occ.ok = true → s.occ.aux = 0 →
       exec .checkCodeError s = .next { s with hub := { s.hub with errTail := s.hub.errTail + 1 } }) ∧
     (s.occ.ok = true → 0 < s.occ.aux → s.occ.arr = .hbm → s.occ.core < 12 → ∃ t, exec .checkCodeError s = .next t ∧
       t.mem = s.mem ∧ t.team = s.team ∧ vget t.hub.stackStates s.occ.core 0 = 2 ∧ t.hub.errTail = s.hub.errTail + 1) ∧
     (s.occ.ok = false → (s.occ.arr = .hbm ∨ s.occ.arr = .ddr ∨
         s.occ.arr = .hubCache ∧ ∃ l, s.hub.line line = some l ∧ l.dirty = true) → ∃ t,
       exec .checkCodeError s = .next t ∧ t.mem = s.mem ∧ t.team = s.team ∧ line ∈ t.hub.poisoned ∧
       t.hub.errTail = s.hub.errTail + 1) ∧
     (s.occ.ok = false → s.occ.arr = .hubCache → (∀ l, s.hub.line line = some l → l.dirty = false) → ∃ t,
       exec .checkCodeError s = .next t ∧ OnlyRecorded s t ∧ t.hub.poisoned = s.hub.poisoned ∧ t.hub.line line = none) ∧
     (s.occ.ok = false → s.occ.arr = .l2 → ∃ t, exec .checkCodeError s = .next t ∧ t.mem = s.mem ∧ t.team = s.team ∧
       (∀ l ∈ (t.dieAt s.occ.die).l2, ¬ (l.ipa = line ∧ l.tenant = s.occ.tenant)) ∧
       ((∃ l, findLine (s.dieAt s.occ.die).l2 s.occ.tenant line = some l ∧ l.isDirty = true) → line ∈ t.hub.poisoned)) ∧
     (s.occ.ok = false → s.occ.arr = .schedulerTable → s.occ.aux = 0 → ∃ t, exec .checkCodeError s = .next t ∧
       OnlyRecorded s t) ∧
     (s.occ.ok = false → s.occ.arr = .weightStore → ∃ t, exec .checkCodeError s = .next t ∧ t.mem = s.mem ∧
       line ∈ (t.dieAt s.occ.die).weightPoison) ∧
     (s.occ.ok = false → s.occ.arr = .istore → ∃ t, exec .checkCodeError s = .next t ∧ t.mem = s.mem ∧ t.team = s.team ∧
       ∀ l ∈ (t.coreAt s.occ.die s.occ.core).istore, l.ipa ≠ line) ∧
     (s.occ.ok = false → (s.occ.arr = .registers ∨ s.occ.arr = .accumulator ∨ s.occ.arr = .tri ∨ s.occ.arr = .latch ∨
         s.occ.arr = .contextCode) →
       ((s.teamAt s.occ.team).resident = true → ∃ u, exec .checkCodeError s = .next (schedule u) ∧
         Killed u (s.teamAt s.occ.team).tenant ∧ s.hub.errTail < u.hub.errTail) ∧
       ((s.teamAt s.occ.team).resident = false → ∃ t, exec .checkCodeError s = .next t ∧ OnlyRecorded s t)))

namespace Sys2Proof.Claims

open Machine

/-- The operation that a word names in a slot (R107, R110). -/
def decodeWord (j : Slot) (w : Word32) : Instr := if j = .ct then decodeCt w else decodeSlot j w

/-- An instruction's word decodes to the instruction: a slot operation in its slot, and a context operation among the context
words. -/
def RoundTrips (i : Instr) : Prop :=
  i.wf = true → (∀ j w, i ≠ .unassignedOpcode j w) →
    (∀ j, i.slot = some j → ∃ w, encode i = some w ∧ decodeWord j w = i) ∧
    (∀ w, i.slot = none → encode i = some w → decodeContext w = .ok i)

/-- Memory in its canonical form: the package's bytes, and each die's weight store. -/
def Canonical (s : State) : Prop := s.mem.wf = true ∧ ∀ d ∈ s.die :: s.dies, d.weight.wf = true

/-- A turn of a core finds that core, its die and its issuing team in the foreground. -/
def AtPlace (s : State) (d p : Nat) : Prop :=
  s.hub.fatal = false ∧ s.die.num = d ∧ s.core.die = d ∧ s.core.pcore = p ∧ issuer s = some s.team.ref

/-- The state in which the turn at the head of the agenda has been taken up. -/
def taken (s : State) : State := { s with agenda := s.agenda.drop 1 }

end Sys2Proof.Claims

/-- R68, R69, R90, R187, R106, R110, R318, R326: a step runs the decoded instruction: of a slot, the operation that its position holds;
of dispatch, the CT operation of the bundle that stands at the pc in the instruction store, the link of a
call being written with it; of the sweep engine, the operation
that the context-code store holds at the group's cpc; of an event, that event. With no turn left the next reference cycle
begins. -/
def Obligations.StepRunsTheInstruction : Prop :=
  (∀ (s : State) (d p : Nat) (j : Slot) (b : Placed), AtPlace s d p → s.agenda.head? = some (.slot d p j) →
    s.core.starts (slotDomain j) s.now = true → s.team.placedAt (s.team.passed j) = some b → s.team.mayMove j = true →
    (j = .mx → b.rept = false) → step s = exec (decodeSlot j (b.word j)) (taken s)) ∧
  (∀ (s : State) (d p : Nat) (b : Bundle) (ws : List Word32), AtPlace s d p → s.agenda.head? = some (.dispatch d p) →
    mayPlace s = true → s.core.starts .core s.now = true → s.team.loop = none → loopLength b.ct = none → 0 < ws.length →
    (∀ k, k < ws.length → fetchBytes s (s.team.pc + 4 * k) 4 = some (wordBytes (ws.getD k 0))) →
    decodeBundle (ws.flatMap wordBytes) = .ok (b, []) →
    let t := { s.team with cur := b, bpc := s.team.pc }
    step s = exec (decodeCt b.ct) { taken s with
      team := if s.team.link then { t.write (.s 62 (dbl (s.team.pc + bundleLen b.ct))) with link := false } else t }) ∧
  (∀ (s : State) (d p cpc : Nat) (h : Shoal) (i : Instr), s.hub.fatal = false → s.die.num = d → s.core.die = d →
    s.core.pcore = p → s.agenda.head? = some (.sweep d p) → s.core.starts .vx s.now = true → s.core.sweep.phase = .run →
    vget s.core.shoals s.core.sweep.h none = some h → h.invalid = false → s.core.sweep.serial = false →
    (∀ r ∈ s.core.sweep.runners, r.active = true ∧ r.cpc = cpc ∧ r.ops < 4096) → s.core.sweep.runners ≠ [] →
    cpc ≤ (h.cfg.extractLsb' 40 12).toNat → decodeContext (s.core.codeWord cpc) = .ok i →
    step s = exec i { taken s with
      occ := { team := s.core.sweep.team },
      core := { s.core with sweep := { s.core.sweep with lanes := List.range s.core.sweep.runners.length } } }) ∧
  (∀ (s : State) (i : Instr) (o : Occ), s.hub.fatal = false → s.agenda.head? = some (.event i o) →
    step s = exec i { taken s with occ := o }) ∧
  (∀ (s : State), s.hub.fatal = false → s.agenda = [] → step s = .next (newCycle s))

/-- R17, R95, R97, R98, R180, R182, R358: what reset leaves, of the values that the spec gives: every divisor 2, the widest grant,
every weight 0x10 but that of code 0, TSW.rm 1, all live sets whole, logical core l on physical core l, and registers of the hub;
no team is resident, no queue is registered and nothing waits. -/
def Obligations.ResetLeaves : Prop :=
  let s := State.reset
  s.core.clkd = 0x2222 ∧ s.core.grant = 0xfffff ∧ s.core.ewt0 = 0x1010101010101000 ∧ s.core.ewt1 = 0x1010101010101010 ∧
  s.team.tsw = 1 ∧ (∀ i, i < 4 → vget s.team.yls i 0 = BitVec.allOnes 64) ∧
  (∀ l, l < 64 → s.die.physical l = some l) ∧ s.hub.qtmo = 0x100000000000 ∧ s.hub.pslew = 100 ∧
  (∀ j, j < 16 → vget s.hub.gltab j 0 = 0xfffff ∧ vget s.hub.fwBase j 0 = 0 ∧ vget s.hub.fwLen j 0 = 0) ∧
  s.hub.errTail = 0 ∧ s.hub.errHead = 0 ∧ s.hub.hptb = 0 ∧ s.hub.waits = [] ∧ s.hub.queues = [] ∧ s.hub.imageOk = false ∧
  s.agenda = [] ∧ ∀ r, (s.teamAt r).resident = false

/-- Log entry 1: memory has its canonical form at reset. -/
def Obligations.ResetMemoryIsCanonical : Prop := Canonical State.reset

/-- Log entry 1: every step of every instruction and event keeps memory in its canonical form, so that equal memories are equal
data. -/
def Obligations.MemoryStaysCanonical : Prop := ∀ s t, Canonical s → step s = .next t → Canonical t

/-- R105 to R129: decoding and encoding agree: every well-formed instruction's word decodes to it, with every operand at every
value; and every word of a slot, reserved values and unassigned opcodes included, and every word that is a context operation, is
the word of what it decodes to. -/
def Obligations.DecodeAndEncodeAgree : Prop :=
  (∀ i, RoundTrips i) ∧ (∀ j w, j ≠ .ct → encode (decodeSlot j w) = some w) ∧
  (∀ w, (encode (decodeCt w)).map (·.extractLsb' 0 19) = some (w.extractLsb' 0 19)) ∧
  ∀ w i, decodeContext w = .ok i → encode i = some w

/-- R105, R107, R113, R114, R116 to R118, R120 to R122, R124 to R129: words laid out bit by bit from the encoding tables decode to
their instructions, and a bundle's CT word gives its slots. -/
def Obligations.WordsDecode : Prop :=
  decodeCt 0b0000000_0_0_0000_00001_11111111111110#32 = .br 0x3ffe ∧
  decodeSlot .sx 0b000001_000101_000110_000111_010_11100#32 = .add { d := 5, a := 6, b := 7, g := 2, fn := 28 } ∧
  decodeSlot .ad 0b000100_000011_000100_11111111111000#32 = .aaddi { d := 3, a := 4, imm := 0x3ff8 } ∧
  decodeSlot .ls 0b000001_001010_0011_1_110_111111111111#32 = .ld { data := 10, a := 3, pi := 1, ty := 6, low := 0xfff } ∧
  decodeSlot .vx 0b000100_000001_000010_000011_101_10000#32 = .vfma { d := 1, a := 2, b := 3, g := 5, fn := 16 } ∧
  decodeSlot .mx 0b000001_010_0011_0100_001000_01_1010_1_0_1#32 =
    .mma { z := 2, aA := 3, aB := 4, n16 := 8, msel := 1, fmt := 10, clr := 1, hold := 0, rel := 1 } ∧
  decodeSlot .rx 0b000101_000111_000000_000000_000000_0011#32 = .rread { vd := 7, va := 0, vb := 0, op := 3 } ∧
  decodeSlot .dx 0b000011_0001_0010_000000_0100_00001000#32 = .cpy2 { aD := 1, aS := 2, cr := 0, f := 0x408 } ∧
  decodeContext 0b000001_01_10_00_1_1_00_0011111110000000#32 = .ok (.cadd { d := 1, a := 2, b := 0, i := 1, t := 1, k := 0x3f80 }) ∧
  decodeSlot .vx 0b100110_00000000000000000000000000#32 = .unassignedOpcode .vx 0x98000000 ∧
  decodeContext 0b011011_00000000000000000000000000#32 = .error .contextUnassigned ∧
  slotCount 0b1000001_0_0_0000_00000_00000000000000#32 = 2

end
end

