-- ==== Sys2Proof/Laws/Decode.lean ====
section
/-! SUPPORT. The fields of a word laid out by an encoding form are the fields of the form (R110, R114, R118, R122, R124 to
R128), in both directions. -/

set_option linter.unusedSimpArgs false

namespace Sys2Proof

/-- A field that lies in the low part of a word. -/
theorem extract_low {m n : Nat} (x : BitVec m) (y : BitVec n) (s l : Nat) (h : s + l ≤ n) :
    (x ++ y).extractLsb' s l = y.extractLsb' s l := by
  ext k hk
  have : s + k < n := by omega
  simp [BitVec.getElem_extractLsb', BitVec.getLsbD_append, this]

/-- A field that lies in the high part of a word. -/
theorem extract_high {m n : Nat} (x : BitVec m) (y : BitVec n) (s l : Nat) (h : n ≤ s) :
    (x ++ y).extractLsb' s l = x.extractLsb' (s - n) l := by
  ext k hk
  have h1 : ¬ s + k < n := by omega
  have h2 : s + k - n = s - n + k := by omega
  simp [BitVec.getElem_extractLsb', BitVec.getLsbD_append, h1, h2]

/-- The field of the whole width. -/
theorem extract_all {n : Nat} (x : BitVec n) : x.extractLsb' 0 n = x := by
  ext k hk
  simp

/-- A field of a field. -/
theorem extract_extract {n : Nat} (x : BitVec n) (s l t k : Nat) (h : t + k ≤ l) :
    (x.extractLsb' s l).extractLsb' t k = x.extractLsb' (s + t) k := by
  ext i hi
  have : t + i < l := by omega
  simp [BitVec.getElem_extractLsb', this, Nat.add_assoc]

/-- Two adjacent fields are one field. -/
theorem extract_append {n : Nat} (x : BitVec n) (r s k l : Nat) (hr : r = s + l) :
    x.extractLsb' r k ++ x.extractLsb' s l = x.extractLsb' s (k + l) := by
  subst hr
  ext i hi
  by_cases h : i < l
  · simp [BitVec.getElem_append, h]
  · have : s + l + (i - l) = s + i := by omega
    simp [BitVec.getElem_append, h, this]

/-! ## rWord -/

theorem rWord_cast (op : BitVec 6) (f : RForm) : rWord op f = BitVec.cast rfl (op ++ f.d ++ f.a ++ f.b ++ f.g ++ f.fn) := rfl

@[simp] theorem opcode_rWord (op : BitVec 6) (f : RForm) : opcode (rWord op f) = op := by
  simp (disch := omega) only [opcode, rWord_cast, BitVec.extractLsb'_cast, extract_high, extract_all, Nat.reduceSub]

/-- The word of a form is laid out as its fields stand. -/
theorem rWord_rForm (w : Word32) : rWord (opcode w) (rForm w) = w := by
  simp (disch := omega) only [rWord_cast, opcode, rForm, extract_append]
  exact extract_all w

@[simp] theorem rForm_rWord (op : BitVec 6) (f : RForm) : rForm (rWord op f) = f := by
  simp (disch := omega) only [rForm, rWord_cast, BitVec.extractLsb'_cast, extract_high, extract_low, extract_all, Nat.sub_self,
    Nat.reduceSub]

/-! ## iWord -/

theorem iWord_cast (op : BitVec 6) (f : IForm) : iWord op f = BitVec.cast rfl (op ++ f.d ++ f.a ++ f.imm) := rfl

@[simp] theorem opcode_iWord (op : BitVec 6) (f : IForm) : opcode (iWord op f) = op := by
  simp (disch := omega) only [opcode, iWord_cast, BitVec.extractLsb'_cast, extract_high, extract_all, Nat.reduceSub]

/-- The word of a form is laid out as its fields stand. -/
theorem iWord_iForm (w : Word32) : iWord (opcode w) (iForm w) = w := by
  simp (disch := omega) only [iWord_cast, opcode, iForm, extract_append]
  exact extract_all w

@[simp] theorem iForm_iWord (op : BitVec 6) (f : IForm) : iForm (iWord op f) = f := by
  simp (disch := omega) only [iForm, iWord_cast, BitVec.extractLsb'_cast, extract_high, extract_low, extract_all, Nat.sub_self,
    Nat.reduceSub]

/-! ## lWord -/

theorem lWord_cast (op : BitVec 6) (f : LForm) : lWord op f = BitVec.cast rfl (op ++ f.d ++ f.imm) := rfl

@[simp] theorem opcode_lWord (op : BitVec 6) (f : LForm) : opcode (lWord op f) = op := by
  simp (disch := omega) only [opcode, lWord_cast, BitVec.extractLsb'_cast, extract_high, extract_all, Nat.reduceSub]

/-- The word of a form is laid out as its fields stand. -/
theorem lWord_lForm (w : Word32) : lWord (opcode w) (lForm w) = w := by
  simp (disch := omega) only [lWord_cast, opcode, lForm, extract_append]
  exact extract_all w

@[simp] theorem lForm_lWord (op : BitVec 6) (f : LForm) : lForm (lWord op f) = f := by
  simp (disch := omega) only [lForm, lWord_cast, BitVec.extractLsb'_cast, extract_high, extract_low, extract_all, Nat.sub_self,
    Nat.reduceSub]

/-! ## lsWord -/

theorem lsWord_cast (op : BitVec 6) (f : LsForm) : lsWord op f = BitVec.cast rfl (op ++ f.data ++ f.a ++ f.pi ++ f.ty ++ f.low) := rfl

@[simp] theorem opcode_lsWord (op : BitVec 6) (f : LsForm) : opcode (lsWord op f) = op := by
  simp (disch := omega) only [opcode, lsWord_cast, BitVec.extractLsb'_cast, extract_high, extract_all, Nat.reduceSub]

/-- The word of a form is laid out as its fields stand. -/
theorem lsWord_lsForm (w : Word32) : lsWord (opcode w) (lsForm w) = w := by
  simp (disch := omega) only [lsWord_cast, opcode, lsForm, extract_append]
  exact extract_all w

@[simp] theorem lsForm_lsWord (op : BitVec 6) (f : LsForm) : lsForm (lsWord op f) = f := by
  simp (disch := omega) only [lsForm, lsWord_cast, BitVec.extractLsb'_cast, extract_high, extract_low, extract_all, Nat.sub_self,
    Nat.reduceSub]

/-! ## mxWord -/

theorem mxWord_cast (op : BitVec 6) (f : MxForm) : mxWord op f = BitVec.cast rfl (op ++ f.z ++ f.aA ++ f.aB ++ f.n16 ++ f.msel ++ f.fmt ++ f.clr ++ f.hold ++ f.rel) := rfl

@[simp] theorem opcode_mxWord (op : BitVec 6) (f : MxForm) : opcode (mxWord op f) = op := by
  simp (disch := omega) only [opcode, mxWord_cast, BitVec.extractLsb'_cast, extract_high, extract_all, Nat.reduceSub]

/-- The word of a form is laid out as its fields stand. -/
theorem mxWord_mxForm (w : Word32) : mxWord (opcode w) (mxForm w) = w := by
  simp (disch := omega) only [mxWord_cast, opcode, mxForm, extract_append]
  exact extract_all w

@[simp] theorem mxForm_mxWord (op : BitVec 6) (f : MxForm) : mxForm (mxWord op f) = f := by
  simp (disch := omega) only [mxForm, mxWord_cast, BitVec.extractLsb'_cast, extract_high, extract_low, extract_all, Nat.sub_self,
    Nat.reduceSub]

/-! ## mrWord -/

theorem mrWord_cast (op : BitVec 6) (f : MrForm) : mrWord op f = BitVec.cast rfl (op ++ f.z ++ f.v ++ f.row ++ f.half ++ f.low) := rfl

@[simp] theorem opcode_mrWord (op : BitVec 6) (f : MrForm) : opcode (mrWord op f) = op := by
  simp (disch := omega) only [opcode, mrWord_cast, BitVec.extractLsb'_cast, extract_high, extract_all, Nat.reduceSub]

/-- The word of a form is laid out as its fields stand. -/
theorem mrWord_mrForm (w : Word32) : mrWord (opcode w) (mrForm w) = w := by
  simp (disch := omega) only [mrWord_cast, opcode, mrForm, extract_append]
  exact extract_all w

@[simp] theorem mrForm_mrWord (op : BitVec 6) (f : MrForm) : mrForm (mrWord op f) = f := by
  simp (disch := omega) only [mrForm, mrWord_cast, BitVec.extractLsb'_cast, extract_high, extract_low, extract_all, Nat.sub_self,
    Nat.reduceSub]

/-! ## msWord -/

theorem msWord_cast (op : BitVec 6) (f : MsForm) : msWord op f = BitVec.cast rfl (op ++ f.z ++ f.k ++ f.n16 ++ f.msel ++ f.low) := rfl

@[simp] theorem opcode_msWord (op : BitVec 6) (f : MsForm) : opcode (msWord op f) = op := by
  simp (disch := omega) only [opcode, msWord_cast, BitVec.extractLsb'_cast, extract_high, extract_all, Nat.reduceSub]

/-- The word of a form is laid out as its fields stand. -/
theorem msWord_msForm (w : Word32) : msWord (opcode w) (msForm w) = w := by
  simp (disch := omega) only [msWord_cast, opcode, msForm, extract_append]
  exact extract_all w

@[simp] theorem msForm_msWord (op : BitVec 6) (f : MsForm) : msForm (msWord op f) = f := by
  simp (disch := omega) only [msForm, msWord_cast, BitVec.extractLsb'_cast, extract_high, extract_low, extract_all, Nat.sub_self,
    Nat.reduceSub]

/-! ## rxWord -/

theorem rxWord_cast (op : BitVec 6) (f : RxForm) : rxWord op f = BitVec.cast rfl (op ++ f.vd ++ f.va ++ f.vb ++ f.op) := rfl

@[simp] theorem opcode_rxWord (op : BitVec 6) (f : RxForm) : opcode (rxWord op f) = op := by
  simp (disch := omega) only [opcode, rxWord_cast, BitVec.extractLsb'_cast, extract_high, extract_all, Nat.reduceSub]

/-- The word of a form is laid out as its fields stand. -/
theorem rxWord_rxForm (w : Word32) : rxWord (opcode w) (rxForm w) = w := by
  simp (disch := omega) only [rxWord_cast, opcode, rxForm, extract_append]
  exact extract_all w

@[simp] theorem rxForm_rxWord (op : BitVec 6) (f : RxForm) : rxForm (rxWord op f) = f := by
  simp (disch := omega) only [rxForm, rxWord_cast, BitVec.extractLsb'_cast, extract_high, extract_low, extract_all, Nat.sub_self,
    Nat.reduceSub]

/-! ## dxWord -/

theorem dxWord_cast (op : BitVec 6) (f : DxForm) : dxWord op f = BitVec.cast rfl (op ++ f.aD ++ f.aS ++ f.cr ++ f.f) := rfl

@[simp] theorem opcode_dxWord (op : BitVec 6) (f : DxForm) : opcode (dxWord op f) = op := by
  simp (disch := omega) only [opcode, dxWord_cast, BitVec.extractLsb'_cast, extract_high, extract_all, Nat.reduceSub]

/-- The word of a form is laid out as its fields stand. -/
theorem dxWord_dxForm (w : Word32) : dxWord (opcode w) (dxForm w) = w := by
  simp (disch := omega) only [dxWord_cast, opcode, dxForm, extract_append]
  exact extract_all w

@[simp] theorem dxForm_dxWord (op : BitVec 6) (f : DxForm) : dxForm (dxWord op f) = f := by
  simp (disch := omega) only [dxForm, dxWord_cast, BitVec.extractLsb'_cast, extract_high, extract_low, extract_all, Nat.sub_self,
    Nat.reduceSub]

/-! ## cxWord -/

theorem cxWord_cast (op : BitVec 6) (f : CxForm) : cxWord op f = BitVec.cast rfl (op ++ f.d ++ f.a ++ f.b ++ f.i ++ f.t ++ 0#2 ++ f.k) := rfl

@[simp] theorem opcode_cxWord (op : BitVec 6) (f : CxForm) : opcode (cxWord op f) = op := by
  simp (disch := omega) only [opcode, cxWord_cast, BitVec.extractLsb'_cast, extract_high, extract_all, Nat.reduceSub]

@[simp] theorem cxForm_cxWord (op : BitVec 6) (f : CxForm) : cxForm (cxWord op f) = f := by
  simp (disch := omega) only [cxForm, cxWord_cast, BitVec.extractLsb'_cast, extract_high, extract_low, extract_all, Nat.sub_self,
    Nat.reduceSub]

@[simp] theorem unused_cxWord (op : BitVec 6) (f : CxForm) : (cxWord op f).extractLsb' 16 2 = 0 := by
  simp (disch := omega) only [cxWord_cast, BitVec.extractLsb'_cast, extract_high, extract_low, extract_all, Nat.reduceSub]
  rfl

/-- A bit is a field of one bit. -/
theorem bit_field {n : Nat} (x : BitVec n) (i : Nat) : x.getLsbD i = (x.extractLsb' i 1).getLsbD 0 := by simp

/-- The low byte of an RX word. -/
theorem low_rxWord (op : BitVec 6) (f : RxForm) (s l : Nat) (h : s + l ≤ 8) :
    (rxWord op f).extractLsb' s l = f.op.extractLsb' s l := by
  rw [rxWord_cast, BitVec.extractLsb'_cast, extract_low _ _ _ _ h]

/-- The low field of a DX word. -/
theorem low_dxWord (op : BitVec 6) (f : DxForm) (s l : Nat) (h : s + l ≤ 12) :
    (dxWord op f).extractLsb' s l = f.f.extractLsb' s l := by
  rw [dxWord_cast, BitVec.extractLsb'_cast, extract_low _ _ _ _ h]

/-! ## Control words (R110) -/

theorem ctWord_cast (op : BitVec 5) (x : BitVec 14) : ctWord op x = BitVec.cast rfl (0#13 ++ op ++ x) := rfl

@[simp] theorem opcode_ctWord (op : BitVec 5) (x : BitVec 14) : (ctWord op x).extractLsb' 14 5 = op := by
  simp (disch := omega) only [ctWord_cast, BitVec.extractLsb'_cast, extract_high, extract_low, extract_all, Nat.reduceSub]

/-- A field of the operand of a control word. -/
theorem operand_ctWord (op : BitVec 5) (x : BitVec 14) (s l : Nat) (h : s + l ≤ 14) :
    (ctWord op x).extractLsb' s l = x.extractLsb' s l := by
  rw [ctWord_cast, BitVec.extractLsb'_cast, extract_low _ _ _ _ h]

end Sys2Proof
end

