-- ==== Sys2Proof/Laws/Memory.lean ====
section
/-! SUPPORT. The byte memory (log entry 1): a read after a write, what a write leaves alone, and that every operation keeps the
canonical form; two memories in that form that read alike are the same data. -/

namespace Sys2Proof.Machine

/-! ## Vectors and maps -/

@[simp] theorem vget_vput_same {α : Type} {n : Nat} (v : Vector α n) (i : Nat) (x d : α) (h : i < n) :
    vget (vput v i x) i d = x := by
  simp [vget, vput, h]

@[simp] theorem vget_vput_other {α : Type} {n : Nat} (v : Vector α n) (i j : Nat) (x d : α) (h : i ≠ j) :
    vget (vput v i x) j d = vget v j d := by
  simp [vget, vput, Vector.getElem?_setIfInBounds_ne h]

/-! ## Reading -/

/-- The keys rise strictly from `lo` up. -/
theorem wfFrom_mono {lo lo' : Nat} (h : lo' ≤ lo) {m : Memory} (hm : Memory.wfFrom lo m = true) : Memory.wfFrom lo' m = true := by
  cases m with
  | nil => rfl
  | cons c t =>
    obtain ⟨k, b⟩ := c
    simp only [Memory.wfFrom, Bool.and_eq_true, decide_eq_true_eq] at hm ⊢
    exact ⟨⟨by omega, hm.1.2⟩, hm.2⟩

/-- Nothing is listed below the lowest key. -/
theorem get?_below {lo a : Nat} (h : a < lo) {m : Memory} (hm : Memory.wfFrom lo m = true) : SMap.get? m a = none := by
  induction m generalizing lo with
  | nil => rfl
  | cons c t ih =>
    obtain ⟨k, b⟩ := c
    simp only [Memory.wfFrom, Bool.and_eq_true, decide_eq_true_eq] at hm
    have : a ≠ k := by omega
    simp only [SMap.get?, this, if_false]
    exact ih (lo := k + 1) (by omega) hm.2

theorem get?_insert {α : Type} (m : SMap α) (a k : Nat) (x : α) :
    SMap.get? (SMap.insert m a x) k = if k = a then some x else SMap.get? m k := by
  induction m with
  | nil => by_cases h : k = a <;> simp [SMap.insert, SMap.get?, h]
  | cons c t ih =>
    obtain ⟨j, b⟩ := c
    simp only [SMap.insert]
    split
    · by_cases h : k = a <;> simp [SMap.get?, h]
    · split
      · rename_i h; subst h; by_cases h : k = a <;> simp [SMap.get?, h]
      · by_cases h : k = j
        · have : k ≠ a := by omega
          simp [SMap.get?, h]; omega
        · simp [SMap.get?, h, ih]

theorem get?_remove {α : Type} (m : SMap α) (a k : Nat) :
    SMap.get? (SMap.remove m a) k = if k = a then none else SMap.get? m k := by
  induction m with
  | nil => by_cases h : k = a <;> simp [SMap.remove, SMap.get?]
  | cons c t ih =>
    obtain ⟨j, b⟩ := c
    simp only [SMap.remove]
    split
    · rename_i h; subst h; rw [ih]; by_cases h : k = a <;> simp [SMap.get?, h]
    · by_cases h : k = j
      · have : k ≠ a := by omega
        simp [SMap.get?, h]; omega
      · simp [SMap.get?, h, ih]

/-- A read after a write of one byte. -/
theorem byte_setByte (m : Memory) (a k : Nat) (b : Byte) : (m.setByte a b).byte k = if k = a then b else m.byte k := by
  unfold Memory.setByte Memory.byte
  split
  · rename_i h; subst h; rw [get?_remove]; split <;> simp
  · rw [get?_insert]; split <;> simp

@[simp] theorem byte_setByte_same (m : Memory) (a : Nat) (b : Byte) : (m.setByte a b).byte a = b := by simp [byte_setByte]

@[simp] theorem byte_setByte_other (m : Memory) (a k : Nat) (b : Byte) (h : k ≠ a) : (m.setByte a b).byte k = m.byte k := by
  simp [byte_setByte, h]

/-- A read after a write of a byte string: its byte inside, the old one outside. -/
theorem byte_setBytes (m : Memory) (a k : Nat) (bs : List Byte) :
    (m.setBytes a bs).byte k = if a ≤ k ∧ k < a + bs.length then bs.getD (k - a) 0 else m.byte k := by
  induction bs generalizing m a with
  | nil => simp [Memory.setBytes]
  | cons b t ih =>
    simp only [Memory.setBytes, ih, byte_setByte, List.length_cons]
    by_cases h : k = a
    · subst h; simp
    · by_cases h' : a + 1 ≤ k ∧ k < a + 1 + t.length
      · have e : k - a = k - (a + 1) + 1 := by omega
        rw [if_pos h', if_pos (by omega), e]; simp
      · rw [if_neg h', if_neg h, if_neg (by omega)]

/-- A write leaves every byte outside it alone. -/
theorem byte_setBytes_outside (m : Memory) (a k : Nat) (bs : List Byte) (h : k < a ∨ a + bs.length ≤ k) :
    (m.setBytes a bs).byte k = m.byte k := by
  rw [byte_setBytes, if_neg (by omega)]

/-- A write of the bytes that are present leaves the others alone. -/
theorem byte_setSome (m : Memory) (a k : Nat) (bs : List (Option Byte)) :
    (m.setSome a bs).byte k = if a ≤ k then ((bs.getD (k - a) none).getD (m.byte k)) else m.byte k := by
  induction bs generalizing m a with
  | nil => simp [Memory.setSome]
  | cons b t ih =>
    by_cases h : k = a
    · subst h; cases b <;> simp [Memory.setSome, ih]
    · by_cases h' : a + 1 ≤ k
      · have e : k - a = k - (a + 1) + 1 := by omega
        cases b <;> simp [Memory.setSome, ih, h', e, h] <;> (intro; omega)
      · have : ¬ a ≤ k := by omega
        cases b <;> simp [Memory.setSome, ih, h', this, h]

theorem length_bytes (m : Memory) (a n : Nat) : (m.bytes a n).length = n := by
  induction n generalizing a with
  | zero => rfl
  | succ n ih => simp [Memory.bytes, ih]

theorem getD_bytes (m : Memory) (a n k : Nat) (h : k < n) : (m.bytes a n).getD k 0 = m.byte (a + k) := by
  induction n generalizing a k with
  | zero => omega
  | succ n ih =>
    cases k with
    | zero => rfl
    | succ k =>
      have := ih (a + 1) k (by omega)
      simp only [Memory.bytes, List.getD_cons_succ, this]
      congr 1; omega

/-- What is written is read back. -/
theorem bytes_setBytes (m : Memory) (a : Nat) (bs : List Byte) : (m.setBytes a bs).bytes a bs.length = bs := by
  apply List.ext_getElem
  · simp [length_bytes]
  · intro i h1 h2
    have h := getD_bytes (m.setBytes a bs) a bs.length i h2
    rw [byte_setBytes, if_pos (by omega), Nat.add_sub_cancel_left] at h
    simpa [List.getD_eq_getElem?_getD, h1, h2] using h

/-! ## The canonical form -/

theorem wfFrom_remove {lo : Nat} {m : Memory} (a : Nat) (h : Memory.wfFrom lo m = true) :
    Memory.wfFrom lo (SMap.remove m a) = true := by
  induction m generalizing lo with
  | nil => rfl
  | cons c t ih =>
    obtain ⟨k, b⟩ := c
    simp only [Memory.wfFrom, Bool.and_eq_true, decide_eq_true_eq] at h
    simp only [SMap.remove]
    split
    · exact wfFrom_mono (by omega) (ih h.2)
    · simp only [Memory.wfFrom, Bool.and_eq_true, decide_eq_true_eq]
      exact ⟨h.1, ih h.2⟩

theorem wfFrom_insert {lo a : Nat} {b : Byte} {m : Memory} (ha : lo ≤ a) (hb : b ≠ 0) (h : Memory.wfFrom lo m = true) :
    Memory.wfFrom lo (SMap.insert m a b) = true := by
  induction m generalizing lo with
  | nil => simpa [SMap.insert, Memory.wfFrom, ha] using hb
  | cons c t ih =>
    obtain ⟨k, x⟩ := c
    simp only [Memory.wfFrom, Bool.and_eq_true, decide_eq_true_eq] at h
    simp only [SMap.insert]
    split
    · rename_i hk
      simp only [Memory.wfFrom, Bool.and_eq_true, decide_eq_true_eq]
      exact ⟨⟨ha, by simpa using hb⟩, ⟨by omega, h.1.2⟩, h.2⟩
    · split
      · simp only [Memory.wfFrom, Bool.and_eq_true, decide_eq_true_eq]
        exact ⟨⟨h.1.1, by simpa using hb⟩, h.2⟩
      · simp only [Memory.wfFrom, Bool.and_eq_true, decide_eq_true_eq]
        exact ⟨h.1, ih (by omega) h.2⟩

theorem wfFrom_filter {lo : Nat} {m : Memory} (p : Host.Cell → Bool) (h : Memory.wfFrom lo m = true) :
    Memory.wfFrom lo (m.filter p) = true := by
  induction m generalizing lo with
  | nil => rfl
  | cons c t ih =>
    obtain ⟨k, b⟩ := c
    simp only [Memory.wfFrom, Bool.and_eq_true, decide_eq_true_eq] at h
    rw [List.filter_cons]
    split
    · simp only [Memory.wfFrom, Bool.and_eq_true, decide_eq_true_eq]
      exact ⟨h.1, ih h.2⟩
    · exact wfFrom_mono (by omega) (ih h.2)

theorem wf_setByte {m : Memory} (a : Nat) (b : Byte) (h : m.wf = true) : (m.setByte a b).wf = true := by
  unfold Memory.setByte
  split
  · exact wfFrom_remove a h
  · rename_i hb; exact wfFrom_insert (Nat.zero_le a) hb h

theorem wf_setBytes {m : Memory} (a : Nat) (bs : List Byte) (h : m.wf = true) : (m.setBytes a bs).wf = true := by
  induction bs generalizing m a with
  | nil => exact h
  | cons b t ih => exact ih (a + 1) (wf_setByte a b h)

theorem wf_setSome {m : Memory} (a : Nat) (bs : List (Option Byte)) (h : m.wf = true) : (m.setSome a bs).wf = true := by
  induction bs generalizing m a with
  | nil => exact h
  | cons b t ih =>
    cases b with
    | none => exact ih (a + 1) h
    | some b => exact ih (a + 1) (wf_setByte a b h)

theorem wf_setDouble {m : Memory} (a : Nat) (x : Double) (h : m.wf = true) : (m.setDouble a x).wf = true :=
  wf_setBytes a _ h

theorem wf_filter {m : Memory} (p : Host.Cell → Bool) (h : m.wf = true) : Memory.wf (m.filter p) = true := wfFrom_filter p h

theorem wf_cells {m : Memory} (l : List (Nat × Byte)) (h : m.wf = true) :
    Memory.wf (l.foldl (fun (m : Memory) c => m.setByte c.1 c.2) m) = true := by
  induction l generalizing m with
  | nil => exact h
  | cons c t ih => exact ih (wf_setByte c.1 c.2 h)

theorem wf_setLm {s : State} (d l o : Nat) (bs : List Byte) (h : s.mem.wf = true) : (setLm s d l o bs).wf = true :=
  wf_setBytes _ _ h

theorem wf_setStage {s : State} (d c x : Nat) (bs : List Byte) (h : s.mem.wf = true) : (setStage s d c x bs).wf = true :=
  wf_setBytes _ _ h

/-- Memories in canonical form that read alike at every address are the same data. -/
theorem ext_of_wfFrom {lo : Nat} {m m' : Memory} (h : Memory.wfFrom lo m = true) (h' : Memory.wfFrom lo m' = true)
    (e : ∀ a, SMap.get? m a = SMap.get? m' a) : m = m' := by
  induction m generalizing lo m' with
  | nil =>
    cases m' with
    | nil => rfl
    | cons c t => have := e c.1; simp [SMap.get?] at this
  | cons c t ih =>
    obtain ⟨k, b⟩ := c
    cases m' with
    | nil => have := e k; simp [SMap.get?] at this
    | cons c' t' =>
      obtain ⟨k', b'⟩ := c'
      simp only [Memory.wfFrom, Bool.and_eq_true, decide_eq_true_eq] at h h'
      have hk : k = k' := by
        rcases Nat.lt_trichotomy k k' with hlt | heq | hgt
        · have := e k
          rw [get?_below (m := (k', b') :: t') (lo := k') hlt (by simpa [Memory.wfFrom] using ⟨by simpa using h'.1.2, h'.2⟩)] at this
          simp [SMap.get?] at this
        · exact heq
        · have := e k'
          rw [get?_below (m := (k, b) :: t) (lo := k) hgt (by simpa [Memory.wfFrom] using ⟨by simpa using h.1.2, h.2⟩)] at this
          simp [SMap.get?] at this
      subst hk
      have hb : b = b' := by have := e k; simpa [SMap.get?] using this
      subst hb
      congr 1
      refine ih h.2 h'.2 fun a => ?_
      by_cases ha : a = k
      · subst ha; rw [get?_below (Nat.lt_succ_self a) h.2, get?_below (Nat.lt_succ_self a) h'.2]
      · have := e a; simpa [SMap.get?, ha] using this

/-- In canonical form a listed byte is not 0. -/
theorem get?_of_wf {lo : Nat} {m : Memory} (h : Memory.wfFrom lo m = true) (a : Nat) :
    SMap.get? m a = if m.byte a = 0 then none else some (m.byte a) := by
  unfold Memory.byte
  induction m generalizing lo with
  | nil => simp [SMap.get?]
  | cons c t ih =>
    obtain ⟨k, b⟩ := c
    simp only [Memory.wfFrom, Bool.and_eq_true, decide_eq_true_eq, bne_iff_ne, ne_eq] at h
    simp only [SMap.get?]
    split
    · simpa using h.1.2
    · exact ih h.2

/-- Equal memories are equal data. -/
theorem Memory.ext {m m' : Memory} (h : m.wf = true) (h' : m'.wf = true) (e : ∀ a, m.byte a = m'.byte a) : m = m' :=
  ext_of_wfFrom h h' fun a => by rw [get?_of_wf h, get?_of_wf h', e]

end Sys2Proof.Machine
end

