-- ==== Sys2Proof/Laws/State.lean ====
section
/-! SUPPORT. What each named update of the state leaves alone, one lemma per field: no later proof unfolds a record update. -/

set_option linter.unusedSimpArgs false
set_option Elab.async false

namespace Sys2Proof.Machine

/-! ## State.modTeam -/

@[simp] theorem modTeam_now (x0 : State) (x1) (x2) : (State.modTeam x0 x1 x2).now = x0.now := by unfold State.modTeam; split <;> rfl
@[simp] theorem modTeam_agenda (x0 : State) (x1) (x2) : (State.modTeam x0 x1 x2).agenda = x0.agenda := by unfold State.modTeam; split <;> rfl
@[simp] theorem modTeam_timers (x0 : State) (x1) (x2) : (State.modTeam x0 x1 x2).timers = x0.timers := by unfold State.modTeam; split <;> rfl
@[simp] theorem modTeam_occ (x0 : State) (x1) (x2) : (State.modTeam x0 x1 x2).occ = x0.occ := by unfold State.modTeam; split <;> rfl
@[simp] theorem modTeam_free (x0 : State) (x1) (x2) : (State.modTeam x0 x1 x2).free = x0.free := by unfold State.modTeam; split <;> rfl
@[simp] theorem modTeam_fresh (x0 : State) (x1) (x2) : (State.modTeam x0 x1 x2).fresh = x0.fresh := by unfold State.modTeam; split <;> rfl
@[simp] theorem modTeam_core (x0 : State) (x1) (x2) : (State.modTeam x0 x1 x2).core = x0.core := by unfold State.modTeam; split <;> rfl
@[simp] theorem modTeam_cores (x0 : State) (x1) (x2) : (State.modTeam x0 x1 x2).cores = x0.cores := by unfold State.modTeam; split <;> rfl
@[simp] theorem modTeam_die (x0 : State) (x1) (x2) : (State.modTeam x0 x1 x2).die = x0.die := by unfold State.modTeam; split <;> rfl
@[simp] theorem modTeam_dies (x0 : State) (x1) (x2) : (State.modTeam x0 x1 x2).dies = x0.dies := by unfold State.modTeam; split <;> rfl
@[simp] theorem modTeam_hub (x0 : State) (x1) (x2) : (State.modTeam x0 x1 x2).hub = x0.hub := by unfold State.modTeam; split <;> rfl
@[simp] theorem modTeam_lmEpochs (x0 : State) (x1) (x2) : (State.modTeam x0 x1 x2).lmEpochs = x0.lmEpochs := by unfold State.modTeam; split <;> rfl
@[simp] theorem modTeam_mem (x0 : State) (x1) (x2) : (State.modTeam x0 x1 x2).mem = x0.mem := by unfold State.modTeam; split <;> rfl
/-! ## State.focusTeam -/

@[simp] theorem focusTeam_now (x0 : State) (x1) : (State.focusTeam x0 x1).now = x0.now := by unfold State.focusTeam; split <;> rfl
@[simp] theorem focusTeam_agenda (x0 : State) (x1) : (State.focusTeam x0 x1).agenda = x0.agenda := by unfold State.focusTeam; split <;> rfl
@[simp] theorem focusTeam_timers (x0 : State) (x1) : (State.focusTeam x0 x1).timers = x0.timers := by unfold State.focusTeam; split <;> rfl
@[simp] theorem focusTeam_occ (x0 : State) (x1) : (State.focusTeam x0 x1).occ = x0.occ := by unfold State.focusTeam; split <;> rfl
@[simp] theorem focusTeam_free (x0 : State) (x1) : (State.focusTeam x0 x1).free = x0.free := by unfold State.focusTeam; split <;> rfl
@[simp] theorem focusTeam_fresh (x0 : State) (x1) : (State.focusTeam x0 x1).fresh = x0.fresh := by unfold State.focusTeam; split <;> rfl
@[simp] theorem focusTeam_core (x0 : State) (x1) : (State.focusTeam x0 x1).core = x0.core := by unfold State.focusTeam; split <;> rfl
@[simp] theorem focusTeam_cores (x0 : State) (x1) : (State.focusTeam x0 x1).cores = x0.cores := by unfold State.focusTeam; split <;> rfl
@[simp] theorem focusTeam_die (x0 : State) (x1) : (State.focusTeam x0 x1).die = x0.die := by unfold State.focusTeam; split <;> rfl
@[simp] theorem focusTeam_dies (x0 : State) (x1) : (State.focusTeam x0 x1).dies = x0.dies := by unfold State.focusTeam; split <;> rfl
@[simp] theorem focusTeam_hub (x0 : State) (x1) : (State.focusTeam x0 x1).hub = x0.hub := by unfold State.focusTeam; split <;> rfl
@[simp] theorem focusTeam_lmEpochs (x0 : State) (x1) : (State.focusTeam x0 x1).lmEpochs = x0.lmEpochs := by unfold State.focusTeam; split <;> rfl
@[simp] theorem focusTeam_mem (x0 : State) (x1) : (State.focusTeam x0 x1).mem = x0.mem := by unfold State.focusTeam; split <;> rfl
/-! ## State.modCore -/

@[simp] theorem modCore_now (x0 : State) (x1) (x2) (x3) : (State.modCore x0 x1 x2 x3).now = x0.now := by unfold State.modCore; split <;> rfl
@[simp] theorem modCore_agenda (x0 : State) (x1) (x2) (x3) : (State.modCore x0 x1 x2 x3).agenda = x0.agenda := by unfold State.modCore; split <;> rfl
@[simp] theorem modCore_timers (x0 : State) (x1) (x2) (x3) : (State.modCore x0 x1 x2 x3).timers = x0.timers := by unfold State.modCore; split <;> rfl
@[simp] theorem modCore_occ (x0 : State) (x1) (x2) (x3) : (State.modCore x0 x1 x2 x3).occ = x0.occ := by unfold State.modCore; split <;> rfl
@[simp] theorem modCore_free (x0 : State) (x1) (x2) (x3) : (State.modCore x0 x1 x2 x3).free = x0.free := by unfold State.modCore; split <;> rfl
@[simp] theorem modCore_fresh (x0 : State) (x1) (x2) (x3) : (State.modCore x0 x1 x2 x3).fresh = x0.fresh := by unfold State.modCore; split <;> rfl
@[simp] theorem modCore_team (x0 : State) (x1) (x2) (x3) : (State.modCore x0 x1 x2 x3).team = x0.team := by unfold State.modCore; split <;> rfl
@[simp] theorem modCore_teams (x0 : State) (x1) (x2) (x3) : (State.modCore x0 x1 x2 x3).teams = x0.teams := by unfold State.modCore; split <;> rfl
@[simp] theorem modCore_die (x0 : State) (x1) (x2) (x3) : (State.modCore x0 x1 x2 x3).die = x0.die := by unfold State.modCore; split <;> rfl
@[simp] theorem modCore_dies (x0 : State) (x1) (x2) (x3) : (State.modCore x0 x1 x2 x3).dies = x0.dies := by unfold State.modCore; split <;> rfl
@[simp] theorem modCore_hub (x0 : State) (x1) (x2) (x3) : (State.modCore x0 x1 x2 x3).hub = x0.hub := by unfold State.modCore; split <;> rfl
@[simp] theorem modCore_lmEpochs (x0 : State) (x1) (x2) (x3) : (State.modCore x0 x1 x2 x3).lmEpochs = x0.lmEpochs := by unfold State.modCore; split <;> rfl
@[simp] theorem modCore_mem (x0 : State) (x1) (x2) (x3) : (State.modCore x0 x1 x2 x3).mem = x0.mem := by unfold State.modCore; split <;> rfl
/-! ## State.focusCore -/

@[simp] theorem focusCore_now (x0 : State) (x1) (x2) : (State.focusCore x0 x1 x2).now = x0.now := by unfold State.focusCore; split <;> rfl
@[simp] theorem focusCore_agenda (x0 : State) (x1) (x2) : (State.focusCore x0 x1 x2).agenda = x0.agenda := by unfold State.focusCore; split <;> rfl
@[simp] theorem focusCore_timers (x0 : State) (x1) (x2) : (State.focusCore x0 x1 x2).timers = x0.timers := by unfold State.focusCore; split <;> rfl
@[simp] theorem focusCore_occ (x0 : State) (x1) (x2) : (State.focusCore x0 x1 x2).occ = x0.occ := by unfold State.focusCore; split <;> rfl
@[simp] theorem focusCore_free (x0 : State) (x1) (x2) : (State.focusCore x0 x1 x2).free = x0.free := by unfold State.focusCore; split <;> rfl
@[simp] theorem focusCore_fresh (x0 : State) (x1) (x2) : (State.focusCore x0 x1 x2).fresh = x0.fresh := by unfold State.focusCore; split <;> rfl
@[simp] theorem focusCore_team (x0 : State) (x1) (x2) : (State.focusCore x0 x1 x2).team = x0.team := by unfold State.focusCore; split <;> rfl
@[simp] theorem focusCore_teams (x0 : State) (x1) (x2) : (State.focusCore x0 x1 x2).teams = x0.teams := by unfold State.focusCore; split <;> rfl
@[simp] theorem focusCore_die (x0 : State) (x1) (x2) : (State.focusCore x0 x1 x2).die = x0.die := by unfold State.focusCore; split <;> rfl
@[simp] theorem focusCore_dies (x0 : State) (x1) (x2) : (State.focusCore x0 x1 x2).dies = x0.dies := by unfold State.focusCore; split <;> rfl
@[simp] theorem focusCore_hub (x0 : State) (x1) (x2) : (State.focusCore x0 x1 x2).hub = x0.hub := by unfold State.focusCore; split <;> rfl
@[simp] theorem focusCore_lmEpochs (x0 : State) (x1) (x2) : (State.focusCore x0 x1 x2).lmEpochs = x0.lmEpochs := by unfold State.focusCore; split <;> rfl
@[simp] theorem focusCore_mem (x0 : State) (x1) (x2) : (State.focusCore x0 x1 x2).mem = x0.mem := by unfold State.focusCore; split <;> rfl
/-! ## State.modDie -/

@[simp] theorem modDie_now (x0 : State) (x1) (x2) : (State.modDie x0 x1 x2).now = x0.now := by unfold State.modDie; split <;> rfl
@[simp] theorem modDie_agenda (x0 : State) (x1) (x2) : (State.modDie x0 x1 x2).agenda = x0.agenda := by unfold State.modDie; split <;> rfl
@[simp] theorem modDie_timers (x0 : State) (x1) (x2) : (State.modDie x0 x1 x2).timers = x0.timers := by unfold State.modDie; split <;> rfl
@[simp] theorem modDie_occ (x0 : State) (x1) (x2) : (State.modDie x0 x1 x2).occ = x0.occ := by unfold State.modDie; split <;> rfl
@[simp] theorem modDie_free (x0 : State) (x1) (x2) : (State.modDie x0 x1 x2).free = x0.free := by unfold State.modDie; split <;> rfl
@[simp] theorem modDie_fresh (x0 : State) (x1) (x2) : (State.modDie x0 x1 x2).fresh = x0.fresh := by unfold State.modDie; split <;> rfl
@[simp] theorem modDie_team (x0 : State) (x1) (x2) : (State.modDie x0 x1 x2).team = x0.team := by unfold State.modDie; split <;> rfl
@[simp] theorem modDie_teams (x0 : State) (x1) (x2) : (State.modDie x0 x1 x2).teams = x0.teams := by unfold State.modDie; split <;> rfl
@[simp] theorem modDie_core (x0 : State) (x1) (x2) : (State.modDie x0 x1 x2).core = x0.core := by unfold State.modDie; split <;> rfl
@[simp] theorem modDie_cores (x0 : State) (x1) (x2) : (State.modDie x0 x1 x2).cores = x0.cores := by unfold State.modDie; split <;> rfl
@[simp] theorem modDie_hub (x0 : State) (x1) (x2) : (State.modDie x0 x1 x2).hub = x0.hub := by unfold State.modDie; split <;> rfl
@[simp] theorem modDie_lmEpochs (x0 : State) (x1) (x2) : (State.modDie x0 x1 x2).lmEpochs = x0.lmEpochs := by unfold State.modDie; split <;> rfl
@[simp] theorem modDie_mem (x0 : State) (x1) (x2) : (State.modDie x0 x1 x2).mem = x0.mem := by unfold State.modDie; split <;> rfl
/-! ## State.focusDie -/

@[simp] theorem focusDie_now (x0 : State) (x1) : (State.focusDie x0 x1).now = x0.now := by unfold State.focusDie; split <;> rfl
@[simp] theorem focusDie_agenda (x0 : State) (x1) : (State.focusDie x0 x1).agenda = x0.agenda := by unfold State.focusDie; split <;> rfl
@[simp] theorem focusDie_timers (x0 : State) (x1) : (State.focusDie x0 x1).timers = x0.timers := by unfold State.focusDie; split <;> rfl
@[simp] theorem focusDie_occ (x0 : State) (x1) : (State.focusDie x0 x1).occ = x0.occ := by unfold State.focusDie; split <;> rfl
@[simp] theorem focusDie_free (x0 : State) (x1) : (State.focusDie x0 x1).free = x0.free := by unfold State.focusDie; split <;> rfl
@[simp] theorem focusDie_fresh (x0 : State) (x1) : (State.focusDie x0 x1).fresh = x0.fresh := by unfold State.focusDie; split <;> rfl
@[simp] theorem focusDie_team (x0 : State) (x1) : (State.focusDie x0 x1).team = x0.team := by unfold State.focusDie; split <;> rfl
@[simp] theorem focusDie_teams (x0 : State) (x1) : (State.focusDie x0 x1).teams = x0.teams := by unfold State.focusDie; split <;> rfl
@[simp] theorem focusDie_core (x0 : State) (x1) : (State.focusDie x0 x1).core = x0.core := by unfold State.focusDie; split <;> rfl
@[simp] theorem focusDie_cores (x0 : State) (x1) : (State.focusDie x0 x1).cores = x0.cores := by unfold State.focusDie; split <;> rfl
@[simp] theorem focusDie_hub (x0 : State) (x1) : (State.focusDie x0 x1).hub = x0.hub := by unfold State.focusDie; split <;> rfl
@[simp] theorem focusDie_lmEpochs (x0 : State) (x1) : (State.focusDie x0 x1).lmEpochs = x0.lmEpochs := by unfold State.focusDie; split <;> rfl
@[simp] theorem focusDie_mem (x0 : State) (x1) : (State.focusDie x0 x1).mem = x0.mem := by unfold State.focusDie; split <;> rfl
/-! ## State.focus -/

@[simp] theorem focus_now (x0 : State) (x1) : (State.focus x0 x1).now = x0.now := by simp [State.focus]
@[simp] theorem focus_agenda (x0 : State) (x1) : (State.focus x0 x1).agenda = x0.agenda := by simp [State.focus]
@[simp] theorem focus_timers (x0 : State) (x1) : (State.focus x0 x1).timers = x0.timers := by simp [State.focus]
@[simp] theorem focus_occ (x0 : State) (x1) : (State.focus x0 x1).occ = x0.occ := by simp [State.focus]
@[simp] theorem focus_free (x0 : State) (x1) : (State.focus x0 x1).free = x0.free := by simp [State.focus]
@[simp] theorem focus_fresh (x0 : State) (x1) : (State.focus x0 x1).fresh = x0.fresh := by simp [State.focus]
@[simp] theorem focus_hub (x0 : State) (x1) : (State.focus x0 x1).hub = x0.hub := by simp [State.focus]
@[simp] theorem focus_lmEpochs (x0 : State) (x1) : (State.focus x0 x1).lmEpochs = x0.lmEpochs := by simp [State.focus]
@[simp] theorem focus_mem (x0 : State) (x1) : (State.focus x0 x1).mem = x0.mem := by simp [State.focus]
/-! ## State.modTeams -/

@[simp] theorem modTeams_now (x0 : State) (x1) (x2) : (State.modTeams x0 x1 x2).now = x0.now := rfl
@[simp] theorem modTeams_agenda (x0 : State) (x1) (x2) : (State.modTeams x0 x1 x2).agenda = x0.agenda := rfl
@[simp] theorem modTeams_timers (x0 : State) (x1) (x2) : (State.modTeams x0 x1 x2).timers = x0.timers := rfl
@[simp] theorem modTeams_occ (x0 : State) (x1) (x2) : (State.modTeams x0 x1 x2).occ = x0.occ := rfl
@[simp] theorem modTeams_free (x0 : State) (x1) (x2) : (State.modTeams x0 x1 x2).free = x0.free := rfl
@[simp] theorem modTeams_fresh (x0 : State) (x1) (x2) : (State.modTeams x0 x1 x2).fresh = x0.fresh := rfl
@[simp] theorem modTeams_core (x0 : State) (x1) (x2) : (State.modTeams x0 x1 x2).core = x0.core := rfl
@[simp] theorem modTeams_cores (x0 : State) (x1) (x2) : (State.modTeams x0 x1 x2).cores = x0.cores := rfl
@[simp] theorem modTeams_die (x0 : State) (x1) (x2) : (State.modTeams x0 x1 x2).die = x0.die := rfl
@[simp] theorem modTeams_dies (x0 : State) (x1) (x2) : (State.modTeams x0 x1 x2).dies = x0.dies := rfl
@[simp] theorem modTeams_hub (x0 : State) (x1) (x2) : (State.modTeams x0 x1 x2).hub = x0.hub := rfl
@[simp] theorem modTeams_lmEpochs (x0 : State) (x1) (x2) : (State.modTeams x0 x1 x2).lmEpochs = x0.lmEpochs := rfl
@[simp] theorem modTeams_mem (x0 : State) (x1) (x2) : (State.modTeams x0 x1 x2).mem = x0.mem := rfl
/-! ## State.modCores -/

@[simp] theorem modCores_now (x0 : State) (x1) (x2) : (State.modCores x0 x1 x2).now = x0.now := rfl
@[simp] theorem modCores_agenda (x0 : State) (x1) (x2) : (State.modCores x0 x1 x2).agenda = x0.agenda := rfl
@[simp] theorem modCores_timers (x0 : State) (x1) (x2) : (State.modCores x0 x1 x2).timers = x0.timers := rfl
@[simp] theorem modCores_occ (x0 : State) (x1) (x2) : (State.modCores x0 x1 x2).occ = x0.occ := rfl
@[simp] theorem modCores_free (x0 : State) (x1) (x2) : (State.modCores x0 x1 x2).free = x0.free := rfl
@[simp] theorem modCores_fresh (x0 : State) (x1) (x2) : (State.modCores x0 x1 x2).fresh = x0.fresh := rfl
@[simp] theorem modCores_team (x0 : State) (x1) (x2) : (State.modCores x0 x1 x2).team = x0.team := rfl
@[simp] theorem modCores_teams (x0 : State) (x1) (x2) : (State.modCores x0 x1 x2).teams = x0.teams := rfl
@[simp] theorem modCores_die (x0 : State) (x1) (x2) : (State.modCores x0 x1 x2).die = x0.die := rfl
@[simp] theorem modCores_dies (x0 : State) (x1) (x2) : (State.modCores x0 x1 x2).dies = x0.dies := rfl
@[simp] theorem modCores_hub (x0 : State) (x1) (x2) : (State.modCores x0 x1 x2).hub = x0.hub := rfl
@[simp] theorem modCores_lmEpochs (x0 : State) (x1) (x2) : (State.modCores x0 x1 x2).lmEpochs = x0.lmEpochs := rfl
@[simp] theorem modCores_mem (x0 : State) (x1) (x2) : (State.modCores x0 x1 x2).mem = x0.mem := rfl
/-! ## State.onHub -/

@[simp] theorem onHub_now (x0 : State) (x1) : (State.onHub x0 x1).now = x0.now := rfl
@[simp] theorem onHub_agenda (x0 : State) (x1) : (State.onHub x0 x1).agenda = x0.agenda := rfl
@[simp] theorem onHub_timers (x0 : State) (x1) : (State.onHub x0 x1).timers = x0.timers := rfl
@[simp] theorem onHub_occ (x0 : State) (x1) : (State.onHub x0 x1).occ = x0.occ := rfl
@[simp] theorem onHub_free (x0 : State) (x1) : (State.onHub x0 x1).free = x0.free := rfl
@[simp] theorem onHub_fresh (x0 : State) (x1) : (State.onHub x0 x1).fresh = x0.fresh := rfl
@[simp] theorem onHub_team (x0 : State) (x1) : (State.onHub x0 x1).team = x0.team := rfl
@[simp] theorem onHub_teams (x0 : State) (x1) : (State.onHub x0 x1).teams = x0.teams := rfl
@[simp] theorem onHub_core (x0 : State) (x1) : (State.onHub x0 x1).core = x0.core := rfl
@[simp] theorem onHub_cores (x0 : State) (x1) : (State.onHub x0 x1).cores = x0.cores := rfl
@[simp] theorem onHub_die (x0 : State) (x1) : (State.onHub x0 x1).die = x0.die := rfl
@[simp] theorem onHub_dies (x0 : State) (x1) : (State.onHub x0 x1).dies = x0.dies := rfl
@[simp] theorem onHub_lmEpochs (x0 : State) (x1) : (State.onHub x0 x1).lmEpochs = x0.lmEpochs := rfl
@[simp] theorem onHub_mem (x0 : State) (x1) : (State.onHub x0 x1).mem = x0.mem := rfl
/-! ## State.onTeam -/

@[simp] theorem onTeam_now (x0 : State) (x1) : (State.onTeam x0 x1).now = x0.now := rfl
@[simp] theorem onTeam_agenda (x0 : State) (x1) : (State.onTeam x0 x1).agenda = x0.agenda := rfl
@[simp] theorem onTeam_timers (x0 : State) (x1) : (State.onTeam x0 x1).timers = x0.timers := rfl
@[simp] theorem onTeam_occ (x0 : State) (x1) : (State.onTeam x0 x1).occ = x0.occ := rfl
@[simp] theorem onTeam_free (x0 : State) (x1) : (State.onTeam x0 x1).free = x0.free := rfl
@[simp] theorem onTeam_fresh (x0 : State) (x1) : (State.onTeam x0 x1).fresh = x0.fresh := rfl
@[simp] theorem onTeam_teams (x0 : State) (x1) : (State.onTeam x0 x1).teams = x0.teams := rfl
@[simp] theorem onTeam_core (x0 : State) (x1) : (State.onTeam x0 x1).core = x0.core := rfl
@[simp] theorem onTeam_cores (x0 : State) (x1) : (State.onTeam x0 x1).cores = x0.cores := rfl
@[simp] theorem onTeam_die (x0 : State) (x1) : (State.onTeam x0 x1).die = x0.die := rfl
@[simp] theorem onTeam_dies (x0 : State) (x1) : (State.onTeam x0 x1).dies = x0.dies := rfl
@[simp] theorem onTeam_hub (x0 : State) (x1) : (State.onTeam x0 x1).hub = x0.hub := rfl
@[simp] theorem onTeam_lmEpochs (x0 : State) (x1) : (State.onTeam x0 x1).lmEpochs = x0.lmEpochs := rfl
@[simp] theorem onTeam_mem (x0 : State) (x1) : (State.onTeam x0 x1).mem = x0.mem := rfl
/-! ## State.onCore -/

@[simp] theorem onCore_now (x0 : State) (x1) : (State.onCore x0 x1).now = x0.now := rfl
@[simp] theorem onCore_agenda (x0 : State) (x1) : (State.onCore x0 x1).agenda = x0.agenda := rfl
@[simp] theorem onCore_timers (x0 : State) (x1) : (State.onCore x0 x1).timers = x0.timers := rfl
@[simp] theorem onCore_occ (x0 : State) (x1) : (State.onCore x0 x1).occ = x0.occ := rfl
@[simp] theorem onCore_free (x0 : State) (x1) : (State.onCore x0 x1).free = x0.free := rfl
@[simp] theorem onCore_fresh (x0 : State) (x1) : (State.onCore x0 x1).fresh = x0.fresh := rfl
@[simp] theorem onCore_team (x0 : State) (x1) : (State.onCore x0 x1).team = x0.team := rfl
@[simp] theorem onCore_teams (x0 : State) (x1) : (State.onCore x0 x1).teams = x0.teams := rfl
@[simp] theorem onCore_cores (x0 : State) (x1) : (State.onCore x0 x1).cores = x0.cores := rfl
@[simp] theorem onCore_die (x0 : State) (x1) : (State.onCore x0 x1).die = x0.die := rfl
@[simp] theorem onCore_dies (x0 : State) (x1) : (State.onCore x0 x1).dies = x0.dies := rfl
@[simp] theorem onCore_hub (x0 : State) (x1) : (State.onCore x0 x1).hub = x0.hub := rfl
@[simp] theorem onCore_lmEpochs (x0 : State) (x1) : (State.onCore x0 x1).lmEpochs = x0.lmEpochs := rfl
@[simp] theorem onCore_mem (x0 : State) (x1) : (State.onCore x0 x1).mem = x0.mem := rfl
/-! ## State.onDie -/

@[simp] theorem onDie_now (x0 : State) (x1) : (State.onDie x0 x1).now = x0.now := rfl
@[simp] theorem onDie_agenda (x0 : State) (x1) : (State.onDie x0 x1).agenda = x0.agenda := rfl
@[simp] theorem onDie_timers (x0 : State) (x1) : (State.onDie x0 x1).timers = x0.timers := rfl
@[simp] theorem onDie_occ (x0 : State) (x1) : (State.onDie x0 x1).occ = x0.occ := rfl
@[simp] theorem onDie_free (x0 : State) (x1) : (State.onDie x0 x1).free = x0.free := rfl
@[simp] theorem onDie_fresh (x0 : State) (x1) : (State.onDie x0 x1).fresh = x0.fresh := rfl
@[simp] theorem onDie_team (x0 : State) (x1) : (State.onDie x0 x1).team = x0.team := rfl
@[simp] theorem onDie_teams (x0 : State) (x1) : (State.onDie x0 x1).teams = x0.teams := rfl
@[simp] theorem onDie_core (x0 : State) (x1) : (State.onDie x0 x1).core = x0.core := rfl
@[simp] theorem onDie_cores (x0 : State) (x1) : (State.onDie x0 x1).cores = x0.cores := rfl
@[simp] theorem onDie_dies (x0 : State) (x1) : (State.onDie x0 x1).dies = x0.dies := rfl
@[simp] theorem onDie_hub (x0 : State) (x1) : (State.onDie x0 x1).hub = x0.hub := rfl
@[simp] theorem onDie_lmEpochs (x0 : State) (x1) : (State.onDie x0 x1).lmEpochs = x0.lmEpochs := rfl
@[simp] theorem onDie_mem (x0 : State) (x1) : (State.onDie x0 x1).mem = x0.mem := rfl
/-! ## State.freeD -/

@[simp] theorem freeD_now (x0 : State) : (State.freeD x0).2.now = x0.now := rfl
@[simp] theorem freeD_agenda (x0 : State) : (State.freeD x0).2.agenda = x0.agenda := rfl
@[simp] theorem freeD_timers (x0 : State) : (State.freeD x0).2.timers = x0.timers := rfl
@[simp] theorem freeD_occ (x0 : State) : (State.freeD x0).2.occ = x0.occ := rfl
@[simp] theorem freeD_fresh (x0 : State) : (State.freeD x0).2.fresh = x0.fresh := rfl
@[simp] theorem freeD_team (x0 : State) : (State.freeD x0).2.team = x0.team := rfl
@[simp] theorem freeD_teams (x0 : State) : (State.freeD x0).2.teams = x0.teams := rfl
@[simp] theorem freeD_core (x0 : State) : (State.freeD x0).2.core = x0.core := rfl
@[simp] theorem freeD_cores (x0 : State) : (State.freeD x0).2.cores = x0.cores := rfl
@[simp] theorem freeD_die (x0 : State) : (State.freeD x0).2.die = x0.die := rfl
@[simp] theorem freeD_dies (x0 : State) : (State.freeD x0).2.dies = x0.dies := rfl
@[simp] theorem freeD_hub (x0 : State) : (State.freeD x0).2.hub = x0.hub := rfl
@[simp] theorem freeD_lmEpochs (x0 : State) : (State.freeD x0).2.lmEpochs = x0.lmEpochs := rfl
@[simp] theorem freeD_mem (x0 : State) : (State.freeD x0).2.mem = x0.mem := rfl
/-! ## State.newId -/

@[simp] theorem newId_now (x0 : State) : (State.newId x0).2.now = x0.now := rfl
@[simp] theorem newId_agenda (x0 : State) : (State.newId x0).2.agenda = x0.agenda := rfl
@[simp] theorem newId_timers (x0 : State) : (State.newId x0).2.timers = x0.timers := rfl
@[simp] theorem newId_occ (x0 : State) : (State.newId x0).2.occ = x0.occ := rfl
@[simp] theorem newId_free (x0 : State) : (State.newId x0).2.free = x0.free := rfl
@[simp] theorem newId_team (x0 : State) : (State.newId x0).2.team = x0.team := rfl
@[simp] theorem newId_teams (x0 : State) : (State.newId x0).2.teams = x0.teams := rfl
@[simp] theorem newId_core (x0 : State) : (State.newId x0).2.core = x0.core := rfl
@[simp] theorem newId_cores (x0 : State) : (State.newId x0).2.cores = x0.cores := rfl
@[simp] theorem newId_die (x0 : State) : (State.newId x0).2.die = x0.die := rfl
@[simp] theorem newId_dies (x0 : State) : (State.newId x0).2.dies = x0.dies := rfl
@[simp] theorem newId_hub (x0 : State) : (State.newId x0).2.hub = x0.hub := rfl
@[simp] theorem newId_lmEpochs (x0 : State) : (State.newId x0).2.lmEpochs = x0.lmEpochs := rfl
@[simp] theorem newId_mem (x0 : State) : (State.newId x0).2.mem = x0.mem := rfl
/-! ## State.after -/

@[simp] theorem after_now (x0 : State) (x1) (x2) (x3) : (State.after x0 x1 x2 x3).now = x0.now := rfl
@[simp] theorem after_agenda (x0 : State) (x1) (x2) (x3) : (State.after x0 x1 x2 x3).agenda = x0.agenda := rfl
@[simp] theorem after_occ (x0 : State) (x1) (x2) (x3) : (State.after x0 x1 x2 x3).occ = x0.occ := rfl
@[simp] theorem after_free (x0 : State) (x1) (x2) (x3) : (State.after x0 x1 x2 x3).free = x0.free := rfl
@[simp] theorem after_fresh (x0 : State) (x1) (x2) (x3) : (State.after x0 x1 x2 x3).fresh = x0.fresh := rfl
@[simp] theorem after_team (x0 : State) (x1) (x2) (x3) : (State.after x0 x1 x2 x3).team = x0.team := rfl
@[simp] theorem after_teams (x0 : State) (x1) (x2) (x3) : (State.after x0 x1 x2 x3).teams = x0.teams := rfl
@[simp] theorem after_core (x0 : State) (x1) (x2) (x3) : (State.after x0 x1 x2 x3).core = x0.core := rfl
@[simp] theorem after_cores (x0 : State) (x1) (x2) (x3) : (State.after x0 x1 x2 x3).cores = x0.cores := rfl
@[simp] theorem after_die (x0 : State) (x1) (x2) (x3) : (State.after x0 x1 x2 x3).die = x0.die := rfl
@[simp] theorem after_dies (x0 : State) (x1) (x2) (x3) : (State.after x0 x1 x2 x3).dies = x0.dies := rfl
@[simp] theorem after_hub (x0 : State) (x1) (x2) (x3) : (State.after x0 x1 x2 x3).hub = x0.hub := rfl
@[simp] theorem after_lmEpochs (x0 : State) (x1) (x2) (x3) : (State.after x0 x1 x2 x3).lmEpochs = x0.lmEpochs := rfl
@[simp] theorem after_mem (x0 : State) (x1) (x2) (x3) : (State.after x0 x1 x2 x3).mem = x0.mem := rfl
/-! ## State.later -/

@[simp] theorem later_now (x0 : State) (x1) (x2) : (State.later x0 x1 x2).now = x0.now := rfl
@[simp] theorem later_agenda (x0 : State) (x1) (x2) : (State.later x0 x1 x2).agenda = x0.agenda := rfl
@[simp] theorem later_occ (x0 : State) (x1) (x2) : (State.later x0 x1 x2).occ = x0.occ := rfl
@[simp] theorem later_fresh (x0 : State) (x1) (x2) : (State.later x0 x1 x2).fresh = x0.fresh := rfl
@[simp] theorem later_team (x0 : State) (x1) (x2) : (State.later x0 x1 x2).team = x0.team := rfl
@[simp] theorem later_teams (x0 : State) (x1) (x2) : (State.later x0 x1 x2).teams = x0.teams := rfl
@[simp] theorem later_core (x0 : State) (x1) (x2) : (State.later x0 x1 x2).core = x0.core := rfl
@[simp] theorem later_cores (x0 : State) (x1) (x2) : (State.later x0 x1 x2).cores = x0.cores := rfl
@[simp] theorem later_die (x0 : State) (x1) (x2) : (State.later x0 x1 x2).die = x0.die := rfl
@[simp] theorem later_dies (x0 : State) (x1) (x2) : (State.later x0 x1 x2).dies = x0.dies := rfl
@[simp] theorem later_hub (x0 : State) (x1) (x2) : (State.later x0 x1 x2).hub = x0.hub := rfl
@[simp] theorem later_lmEpochs (x0 : State) (x1) (x2) : (State.later x0 x1 x2).lmEpochs = x0.lmEpochs := rfl
@[simp] theorem later_mem (x0 : State) (x1) (x2) : (State.later x0 x1 x2).mem = x0.mem := rfl
/-! ## State.next -/

@[simp] theorem next_now (x0 : State) (x1) (x2) : (State.next x0 x1 x2).now = x0.now := rfl
@[simp] theorem next_timers (x0 : State) (x1) (x2) : (State.next x0 x1 x2).timers = x0.timers := rfl
@[simp] theorem next_occ (x0 : State) (x1) (x2) : (State.next x0 x1 x2).occ = x0.occ := rfl
@[simp] theorem next_free (x0 : State) (x1) (x2) : (State.next x0 x1 x2).free = x0.free := rfl
@[simp] theorem next_fresh (x0 : State) (x1) (x2) : (State.next x0 x1 x2).fresh = x0.fresh := rfl
@[simp] theorem next_team (x0 : State) (x1) (x2) : (State.next x0 x1 x2).team = x0.team := rfl
@[simp] theorem next_teams (x0 : State) (x1) (x2) : (State.next x0 x1 x2).teams = x0.teams := rfl
@[simp] theorem next_core (x0 : State) (x1) (x2) : (State.next x0 x1 x2).core = x0.core := rfl
@[simp] theorem next_cores (x0 : State) (x1) (x2) : (State.next x0 x1 x2).cores = x0.cores := rfl
@[simp] theorem next_die (x0 : State) (x1) (x2) : (State.next x0 x1 x2).die = x0.die := rfl
@[simp] theorem next_dies (x0 : State) (x1) (x2) : (State.next x0 x1 x2).dies = x0.dies := rfl
@[simp] theorem next_hub (x0 : State) (x1) (x2) : (State.next x0 x1 x2).hub = x0.hub := rfl
@[simp] theorem next_lmEpochs (x0 : State) (x1) (x2) : (State.next x0 x1 x2).lmEpochs = x0.lmEpochs := rfl
@[simp] theorem next_mem (x0 : State) (x1) (x2) : (State.next x0 x1 x2).mem = x0.mem := rfl
/-! ## passSlot -/

@[simp] theorem passSlot_now (x0) (x1 : State) : (passSlot x0 x1).now = x1.now := rfl
@[simp] theorem passSlot_agenda (x0) (x1 : State) : (passSlot x0 x1).agenda = x1.agenda := rfl
@[simp] theorem passSlot_timers (x0) (x1 : State) : (passSlot x0 x1).timers = x1.timers := rfl
@[simp] theorem passSlot_occ (x0) (x1 : State) : (passSlot x0 x1).occ = x1.occ := rfl
@[simp] theorem passSlot_free (x0) (x1 : State) : (passSlot x0 x1).free = x1.free := rfl
@[simp] theorem passSlot_fresh (x0) (x1 : State) : (passSlot x0 x1).fresh = x1.fresh := rfl
@[simp] theorem passSlot_teams (x0) (x1 : State) : (passSlot x0 x1).teams = x1.teams := rfl
@[simp] theorem passSlot_core (x0) (x1 : State) : (passSlot x0 x1).core = x1.core := rfl
@[simp] theorem passSlot_cores (x0) (x1 : State) : (passSlot x0 x1).cores = x1.cores := rfl
@[simp] theorem passSlot_die (x0) (x1 : State) : (passSlot x0 x1).die = x1.die := rfl
@[simp] theorem passSlot_dies (x0) (x1 : State) : (passSlot x0 x1).dies = x1.dies := rfl
@[simp] theorem passSlot_hub (x0) (x1 : State) : (passSlot x0 x1).hub = x1.hub := rfl
@[simp] theorem passSlot_lmEpochs (x0) (x1 : State) : (passSlot x0 x1).lmEpochs = x1.lmEpochs := rfl
@[simp] theorem passSlot_mem (x0) (x1 : State) : (passSlot x0 x1).mem = x1.mem := rfl
/-! ## holdSlot -/

@[simp] theorem holdSlot_now (x0) (x1 : State) : (holdSlot x0 x1).now = x1.now := rfl
@[simp] theorem holdSlot_agenda (x0) (x1 : State) : (holdSlot x0 x1).agenda = x1.agenda := rfl
@[simp] theorem holdSlot_timers (x0) (x1 : State) : (holdSlot x0 x1).timers = x1.timers := rfl
@[simp] theorem holdSlot_occ (x0) (x1 : State) : (holdSlot x0 x1).occ = x1.occ := rfl
@[simp] theorem holdSlot_free (x0) (x1 : State) : (holdSlot x0 x1).free = x1.free := rfl
@[simp] theorem holdSlot_fresh (x0) (x1 : State) : (holdSlot x0 x1).fresh = x1.fresh := rfl
@[simp] theorem holdSlot_teams (x0) (x1 : State) : (holdSlot x0 x1).teams = x1.teams := rfl
@[simp] theorem holdSlot_core (x0) (x1 : State) : (holdSlot x0 x1).core = x1.core := rfl
@[simp] theorem holdSlot_cores (x0) (x1 : State) : (holdSlot x0 x1).cores = x1.cores := rfl
@[simp] theorem holdSlot_die (x0) (x1 : State) : (holdSlot x0 x1).die = x1.die := rfl
@[simp] theorem holdSlot_dies (x0) (x1 : State) : (holdSlot x0 x1).dies = x1.dies := rfl
@[simp] theorem holdSlot_hub (x0) (x1 : State) : (holdSlot x0 x1).hub = x1.hub := rfl
@[simp] theorem holdSlot_lmEpochs (x0) (x1 : State) : (holdSlot x0 x1).lmEpochs = x1.lmEpochs := rfl
@[simp] theorem holdSlot_mem (x0) (x1 : State) : (holdSlot x0 x1).mem = x1.mem := rfl
/-! ## raiseTrap -/

@[simp] theorem raiseTrap_now (x0) (x1) (x2) (x3) (x4 : State) : (raiseTrap x0 x1 x2 x3 x4).now = x4.now := rfl
@[simp] theorem raiseTrap_agenda (x0) (x1) (x2) (x3) (x4 : State) : (raiseTrap x0 x1 x2 x3 x4).agenda = x4.agenda := rfl
@[simp] theorem raiseTrap_timers (x0) (x1) (x2) (x3) (x4 : State) : (raiseTrap x0 x1 x2 x3 x4).timers = x4.timers := rfl
@[simp] theorem raiseTrap_occ (x0) (x1) (x2) (x3) (x4 : State) : (raiseTrap x0 x1 x2 x3 x4).occ = x4.occ := rfl
@[simp] theorem raiseTrap_free (x0) (x1) (x2) (x3) (x4 : State) : (raiseTrap x0 x1 x2 x3 x4).free = x4.free := rfl
@[simp] theorem raiseTrap_fresh (x0) (x1) (x2) (x3) (x4 : State) : (raiseTrap x0 x1 x2 x3 x4).fresh = x4.fresh := rfl
@[simp] theorem raiseTrap_teams (x0) (x1) (x2) (x3) (x4 : State) : (raiseTrap x0 x1 x2 x3 x4).teams = x4.teams := rfl
@[simp] theorem raiseTrap_core (x0) (x1) (x2) (x3) (x4 : State) : (raiseTrap x0 x1 x2 x3 x4).core = x4.core := rfl
@[simp] theorem raiseTrap_cores (x0) (x1) (x2) (x3) (x4 : State) : (raiseTrap x0 x1 x2 x3 x4).cores = x4.cores := rfl
@[simp] theorem raiseTrap_die (x0) (x1) (x2) (x3) (x4 : State) : (raiseTrap x0 x1 x2 x3 x4).die = x4.die := rfl
@[simp] theorem raiseTrap_dies (x0) (x1) (x2) (x3) (x4 : State) : (raiseTrap x0 x1 x2 x3 x4).dies = x4.dies := rfl
@[simp] theorem raiseTrap_hub (x0) (x1) (x2) (x3) (x4 : State) : (raiseTrap x0 x1 x2 x3 x4).hub = x4.hub := rfl
@[simp] theorem raiseTrap_lmEpochs (x0) (x1) (x2) (x3) (x4 : State) : (raiseTrap x0 x1 x2 x3 x4).lmEpochs = x4.lmEpochs := rfl
@[simp] theorem raiseTrap_mem (x0) (x1) (x2) (x3) (x4 : State) : (raiseTrap x0 x1 x2 x3 x4).mem = x4.mem := rfl
/-! ## takeTrap -/

@[simp] theorem takeTrap_now (x0) (x1) (x2) (x3) (x4 : State) : (takeTrap x0 x1 x2 x3 x4).now = x4.now := rfl
@[simp] theorem takeTrap_agenda (x0) (x1) (x2) (x3) (x4 : State) : (takeTrap x0 x1 x2 x3 x4).agenda = x4.agenda := rfl
@[simp] theorem takeTrap_timers (x0) (x1) (x2) (x3) (x4 : State) : (takeTrap x0 x1 x2 x3 x4).timers = x4.timers := rfl
@[simp] theorem takeTrap_occ (x0) (x1) (x2) (x3) (x4 : State) : (takeTrap x0 x1 x2 x3 x4).occ = x4.occ := rfl
@[simp] theorem takeTrap_free (x0) (x1) (x2) (x3) (x4 : State) : (takeTrap x0 x1 x2 x3 x4).free = x4.free := rfl
@[simp] theorem takeTrap_fresh (x0) (x1) (x2) (x3) (x4 : State) : (takeTrap x0 x1 x2 x3 x4).fresh = x4.fresh := rfl
@[simp] theorem takeTrap_teams (x0) (x1) (x2) (x3) (x4 : State) : (takeTrap x0 x1 x2 x3 x4).teams = x4.teams := rfl
@[simp] theorem takeTrap_core (x0) (x1) (x2) (x3) (x4 : State) : (takeTrap x0 x1 x2 x3 x4).core = x4.core := rfl
@[simp] theorem takeTrap_cores (x0) (x1) (x2) (x3) (x4 : State) : (takeTrap x0 x1 x2 x3 x4).cores = x4.cores := rfl
@[simp] theorem takeTrap_die (x0) (x1) (x2) (x3) (x4 : State) : (takeTrap x0 x1 x2 x3 x4).die = x4.die := rfl
@[simp] theorem takeTrap_dies (x0) (x1) (x2) (x3) (x4 : State) : (takeTrap x0 x1 x2 x3 x4).dies = x4.dies := rfl
@[simp] theorem takeTrap_hub (x0) (x1) (x2) (x3) (x4 : State) : (takeTrap x0 x1 x2 x3 x4).hub = x4.hub := rfl
@[simp] theorem takeTrap_lmEpochs (x0) (x1) (x2) (x3) (x4 : State) : (takeTrap x0 x1 x2 x3 x4).lmEpochs = x4.lmEpochs := rfl
@[simp] theorem takeTrap_mem (x0) (x1) (x2) (x3) (x4 : State) : (takeTrap x0 x1 x2 x3 x4).mem = x4.mem := rfl
/-! ## ctTrap -/

@[simp] theorem ctTrap_now (x0) (x1) (x2 : State) : (ctTrap x0 x1 x2).now = x2.now := rfl
@[simp] theorem ctTrap_agenda (x0) (x1) (x2 : State) : (ctTrap x0 x1 x2).agenda = x2.agenda := rfl
@[simp] theorem ctTrap_timers (x0) (x1) (x2 : State) : (ctTrap x0 x1 x2).timers = x2.timers := rfl
@[simp] theorem ctTrap_occ (x0) (x1) (x2 : State) : (ctTrap x0 x1 x2).occ = x2.occ := rfl
@[simp] theorem ctTrap_free (x0) (x1) (x2 : State) : (ctTrap x0 x1 x2).free = x2.free := rfl
@[simp] theorem ctTrap_fresh (x0) (x1) (x2 : State) : (ctTrap x0 x1 x2).fresh = x2.fresh := rfl
@[simp] theorem ctTrap_teams (x0) (x1) (x2 : State) : (ctTrap x0 x1 x2).teams = x2.teams := rfl
@[simp] theorem ctTrap_core (x0) (x1) (x2 : State) : (ctTrap x0 x1 x2).core = x2.core := rfl
@[simp] theorem ctTrap_cores (x0) (x1) (x2 : State) : (ctTrap x0 x1 x2).cores = x2.cores := rfl
@[simp] theorem ctTrap_die (x0) (x1) (x2 : State) : (ctTrap x0 x1 x2).die = x2.die := rfl
@[simp] theorem ctTrap_dies (x0) (x1) (x2 : State) : (ctTrap x0 x1 x2).dies = x2.dies := rfl
@[simp] theorem ctTrap_hub (x0) (x1) (x2 : State) : (ctTrap x0 x1 x2).hub = x2.hub := rfl
@[simp] theorem ctTrap_lmEpochs (x0) (x1) (x2 : State) : (ctTrap x0 x1 x2).lmEpochs = x2.lmEpochs := rfl
@[simp] theorem ctTrap_mem (x0) (x1) (x2 : State) : (ctTrap x0 x1 x2).mem = x2.mem := rfl
/-! ## freeze -/

@[simp] theorem freeze_now (x0 : State) : (freeze x0).now = x0.now := by unfold freeze; split <;> rfl
@[simp] theorem freeze_agenda (x0 : State) : (freeze x0).agenda = x0.agenda := by unfold freeze; split <;> rfl
@[simp] theorem freeze_timers (x0 : State) : (freeze x0).timers = x0.timers := by unfold freeze; split <;> rfl
@[simp] theorem freeze_occ (x0 : State) : (freeze x0).occ = x0.occ := by unfold freeze; split <;> rfl
@[simp] theorem freeze_free (x0 : State) : (freeze x0).free = x0.free := by unfold freeze; split <;> rfl
@[simp] theorem freeze_fresh (x0 : State) : (freeze x0).fresh = x0.fresh := by unfold freeze; split <;> rfl
@[simp] theorem freeze_teams (x0 : State) : (freeze x0).teams = x0.teams := by unfold freeze; split <;> rfl
@[simp] theorem freeze_core (x0 : State) : (freeze x0).core = x0.core := by unfold freeze; split <;> rfl
@[simp] theorem freeze_cores (x0 : State) : (freeze x0).cores = x0.cores := by unfold freeze; split <;> rfl
@[simp] theorem freeze_dies (x0 : State) : (freeze x0).dies = x0.dies := by unfold freeze; split <;> rfl
@[simp] theorem freeze_hub (x0 : State) : (freeze x0).hub = x0.hub := by unfold freeze; split <;> rfl
@[simp] theorem freeze_lmEpochs (x0 : State) : (freeze x0).lmEpochs = x0.lmEpochs := by unfold freeze; split <;> rfl
@[simp] theorem freeze_mem (x0 : State) : (freeze x0).mem = x0.mem := by unfold freeze; split <;> rfl
/-! ## trapNow -/

@[simp] theorem trapNow_now (x0) (x1) (x2) (x3) (x4 : State) : (trapNow x0 x1 x2 x3 x4).now = x4.now := by simp [trapNow]
@[simp] theorem trapNow_agenda (x0) (x1) (x2) (x3) (x4 : State) : (trapNow x0 x1 x2 x3 x4).agenda = x4.agenda := by simp [trapNow]
@[simp] theorem trapNow_timers (x0) (x1) (x2) (x3) (x4 : State) : (trapNow x0 x1 x2 x3 x4).timers = x4.timers := by simp [trapNow]
@[simp] theorem trapNow_occ (x0) (x1) (x2) (x3) (x4 : State) : (trapNow x0 x1 x2 x3 x4).occ = x4.occ := by simp [trapNow]
@[simp] theorem trapNow_free (x0) (x1) (x2) (x3) (x4 : State) : (trapNow x0 x1 x2 x3 x4).free = x4.free := by simp [trapNow]
@[simp] theorem trapNow_fresh (x0) (x1) (x2) (x3) (x4 : State) : (trapNow x0 x1 x2 x3 x4).fresh = x4.fresh := by simp [trapNow]
@[simp] theorem trapNow_teams (x0) (x1) (x2) (x3) (x4 : State) : (trapNow x0 x1 x2 x3 x4).teams = x4.teams := by simp [trapNow]
@[simp] theorem trapNow_core (x0) (x1) (x2) (x3) (x4 : State) : (trapNow x0 x1 x2 x3 x4).core = x4.core := by simp [trapNow]
@[simp] theorem trapNow_cores (x0) (x1) (x2) (x3) (x4 : State) : (trapNow x0 x1 x2 x3 x4).cores = x4.cores := by simp [trapNow]
@[simp] theorem trapNow_dies (x0) (x1) (x2) (x3) (x4 : State) : (trapNow x0 x1 x2 x3 x4).dies = x4.dies := by simp [trapNow]
@[simp] theorem trapNow_hub (x0) (x1) (x2) (x3) (x4 : State) : (trapNow x0 x1 x2 x3 x4).hub = x4.hub := by simp [trapNow]
@[simp] theorem trapNow_lmEpochs (x0) (x1) (x2) (x3) (x4 : State) : (trapNow x0 x1 x2 x3 x4).lmEpochs = x4.lmEpochs := by simp [trapNow]
@[simp] theorem trapNow_mem (x0) (x1) (x2) (x3) (x4 : State) : (trapNow x0 x1 x2 x3 x4).mem = x4.mem := by simp [trapNow]
/-! ## resume -/

@[simp] theorem resume_now (x0 : State) : (resume x0).now = x0.now := rfl
@[simp] theorem resume_agenda (x0 : State) : (resume x0).agenda = x0.agenda := rfl
@[simp] theorem resume_timers (x0 : State) : (resume x0).timers = x0.timers := rfl
@[simp] theorem resume_occ (x0 : State) : (resume x0).occ = x0.occ := rfl
@[simp] theorem resume_free (x0 : State) : (resume x0).free = x0.free := rfl
@[simp] theorem resume_fresh (x0 : State) : (resume x0).fresh = x0.fresh := rfl
@[simp] theorem resume_teams (x0 : State) : (resume x0).teams = x0.teams := rfl
@[simp] theorem resume_core (x0 : State) : (resume x0).core = x0.core := rfl
@[simp] theorem resume_cores (x0 : State) : (resume x0).cores = x0.cores := rfl
@[simp] theorem resume_die (x0 : State) : (resume x0).die = x0.die := rfl
@[simp] theorem resume_dies (x0 : State) : (resume x0).dies = x0.dies := rfl
@[simp] theorem resume_hub (x0 : State) : (resume x0).hub = x0.hub := rfl
@[simp] theorem resume_lmEpochs (x0 : State) : (resume x0).lmEpochs = x0.lmEpochs := rfl
@[simp] theorem resume_mem (x0 : State) : (resume x0).mem = x0.mem := rfl
/-! ## resumeSkip -/

@[simp] theorem resumeSkip_now (x0 : State) : (resumeSkip x0).now = x0.now := by
  unfold resumeSkip; split
  · rfl
  · (repeat' split) <;> rfl
@[simp] theorem resumeSkip_agenda (x0 : State) : (resumeSkip x0).agenda = x0.agenda := by
  unfold resumeSkip; split
  · rfl
  · (repeat' split) <;> rfl
@[simp] theorem resumeSkip_timers (x0 : State) : (resumeSkip x0).timers = x0.timers := by
  unfold resumeSkip; split
  · rfl
  · (repeat' split) <;> rfl
@[simp] theorem resumeSkip_occ (x0 : State) : (resumeSkip x0).occ = x0.occ := by
  unfold resumeSkip; split
  · rfl
  · (repeat' split) <;> rfl
@[simp] theorem resumeSkip_free (x0 : State) : (resumeSkip x0).free = x0.free := by
  unfold resumeSkip; split
  · rfl
  · (repeat' split) <;> rfl
@[simp] theorem resumeSkip_fresh (x0 : State) : (resumeSkip x0).fresh = x0.fresh := by
  unfold resumeSkip; split
  · rfl
  · (repeat' split) <;> rfl
@[simp] theorem resumeSkip_teams (x0 : State) : (resumeSkip x0).teams = x0.teams := by
  unfold resumeSkip; split
  · rfl
  · (repeat' split) <;> rfl
@[simp] theorem resumeSkip_core (x0 : State) : (resumeSkip x0).core = x0.core := by
  unfold resumeSkip; split
  · rfl
  · (repeat' split) <;> rfl
@[simp] theorem resumeSkip_cores (x0 : State) : (resumeSkip x0).cores = x0.cores := by
  unfold resumeSkip; split
  · rfl
  · (repeat' split) <;> rfl
@[simp] theorem resumeSkip_die (x0 : State) : (resumeSkip x0).die = x0.die := by
  unfold resumeSkip; split
  · rfl
  · (repeat' split) <;> rfl
@[simp] theorem resumeSkip_dies (x0 : State) : (resumeSkip x0).dies = x0.dies := by
  unfold resumeSkip; split
  · rfl
  · (repeat' split) <;> rfl
@[simp] theorem resumeSkip_hub (x0 : State) : (resumeSkip x0).hub = x0.hub := by
  unfold resumeSkip; split
  · rfl
  · (repeat' split) <;> rfl
@[simp] theorem resumeSkip_lmEpochs (x0 : State) : (resumeSkip x0).lmEpochs = x0.lmEpochs := by
  unfold resumeSkip; split
  · rfl
  · (repeat' split) <;> rfl
@[simp] theorem resumeSkip_mem (x0 : State) : (resumeSkip x0).mem = x0.mem := by
  unfold resumeSkip; split
  · rfl
  · (repeat' split) <;> rfl
/-! ## issue -/

@[simp] theorem issue_now (x0) (x1) (x2) (x3) (x4 : State) : (issue x0 x1 x2 x3 x4).now = x4.now := by unfold issue; split <;> rfl
@[simp] theorem issue_agenda (x0) (x1) (x2) (x3) (x4 : State) : (issue x0 x1 x2 x3 x4).agenda = x4.agenda := by unfold issue; split <;> rfl
@[simp] theorem issue_timers (x0) (x1) (x2) (x3) (x4 : State) : (issue x0 x1 x2 x3 x4).timers = x4.timers := by unfold issue; split <;> rfl
@[simp] theorem issue_occ (x0) (x1) (x2) (x3) (x4 : State) : (issue x0 x1 x2 x3 x4).occ = x4.occ := by unfold issue; split <;> rfl
@[simp] theorem issue_free (x0) (x1) (x2) (x3) (x4 : State) : (issue x0 x1 x2 x3 x4).free = x4.free := by unfold issue; split <;> rfl
@[simp] theorem issue_fresh (x0) (x1) (x2) (x3) (x4 : State) : (issue x0 x1 x2 x3 x4).fresh = x4.fresh := by unfold issue; split <;> rfl
@[simp] theorem issue_teams (x0) (x1) (x2) (x3) (x4 : State) : (issue x0 x1 x2 x3 x4).teams = x4.teams := by unfold issue; split <;> rfl
@[simp] theorem issue_core (x0) (x1) (x2) (x3) (x4 : State) : (issue x0 x1 x2 x3 x4).core = x4.core := by unfold issue; split <;> rfl
@[simp] theorem issue_cores (x0) (x1) (x2) (x3) (x4 : State) : (issue x0 x1 x2 x3 x4).cores = x4.cores := by unfold issue; split <;> rfl
@[simp] theorem issue_die (x0) (x1) (x2) (x3) (x4 : State) : (issue x0 x1 x2 x3 x4).die = x4.die := by unfold issue; split <;> rfl
@[simp] theorem issue_dies (x0) (x1) (x2) (x3) (x4 : State) : (issue x0 x1 x2 x3 x4).dies = x4.dies := by unfold issue; split <;> rfl
@[simp] theorem issue_hub (x0) (x1) (x2) (x3) (x4 : State) : (issue x0 x1 x2 x3 x4).hub = x4.hub := by unfold issue; split <;> rfl
@[simp] theorem issue_lmEpochs (x0) (x1) (x2) (x3) (x4 : State) : (issue x0 x1 x2 x3 x4).lmEpochs = x4.lmEpochs := by unfold issue; split <;> rfl
@[simp] theorem issue_mem (x0) (x1) (x2) (x3) (x4 : State) : (issue x0 x1 x2 x3 x4).mem = x4.mem := by unfold issue; split <;> rfl
/-! ## issueLater -/

@[simp] theorem issueLater_now (x0) (x1) (x2) (x3 : State) : (issueLater x0 x1 x2 x3).now = x3.now := by unfold issueLater; split <;> rfl
@[simp] theorem issueLater_agenda (x0) (x1) (x2) (x3 : State) : (issueLater x0 x1 x2 x3).agenda = x3.agenda := by unfold issueLater; split <;> rfl
@[simp] theorem issueLater_timers (x0) (x1) (x2) (x3 : State) : (issueLater x0 x1 x2 x3).timers = x3.timers := by unfold issueLater; split <;> rfl
@[simp] theorem issueLater_occ (x0) (x1) (x2) (x3 : State) : (issueLater x0 x1 x2 x3).occ = x3.occ := by unfold issueLater; split <;> rfl
@[simp] theorem issueLater_free (x0) (x1) (x2) (x3 : State) : (issueLater x0 x1 x2 x3).free = x3.free := by unfold issueLater; split <;> rfl
@[simp] theorem issueLater_fresh (x0) (x1) (x2) (x3 : State) : (issueLater x0 x1 x2 x3).fresh = x3.fresh := by unfold issueLater; split <;> rfl
@[simp] theorem issueLater_teams (x0) (x1) (x2) (x3 : State) : (issueLater x0 x1 x2 x3).teams = x3.teams := by unfold issueLater; split <;> rfl
@[simp] theorem issueLater_core (x0) (x1) (x2) (x3 : State) : (issueLater x0 x1 x2 x3).core = x3.core := by unfold issueLater; split <;> rfl
@[simp] theorem issueLater_cores (x0) (x1) (x2) (x3 : State) : (issueLater x0 x1 x2 x3).cores = x3.cores := by unfold issueLater; split <;> rfl
@[simp] theorem issueLater_die (x0) (x1) (x2) (x3 : State) : (issueLater x0 x1 x2 x3).die = x3.die := by unfold issueLater; split <;> rfl
@[simp] theorem issueLater_dies (x0) (x1) (x2) (x3 : State) : (issueLater x0 x1 x2 x3).dies = x3.dies := by unfold issueLater; split <;> rfl
@[simp] theorem issueLater_hub (x0) (x1) (x2) (x3 : State) : (issueLater x0 x1 x2 x3).hub = x3.hub := by unfold issueLater; split <;> rfl
@[simp] theorem issueLater_lmEpochs (x0) (x1) (x2) (x3 : State) : (issueLater x0 x1 x2 x3).lmEpochs = x3.lmEpochs := by unfold issueLater; split <;> rfl
@[simp] theorem issueLater_mem (x0) (x1) (x2) (x3 : State) : (issueLater x0 x1 x2 x3).mem = x3.mem := by unfold issueLater; split <;> rfl

/-! ## The field that an update changes -/

@[simp] theorem onTeam_team (s : State) (f : Team → Team) : (s.onTeam f).team = f s.team := rfl
@[simp] theorem onCore_core (s : State) (f : Core → Core) : (s.onCore f).core = f s.core := rfl
@[simp] theorem onDie_die (s : State) (f : Die → Die) : (s.onDie f).die = f s.die := rfl
@[simp] theorem onHub_hub (s : State) (f : Hub → Hub) : (s.onHub f).hub = f s.hub := rfl
@[simp] theorem after_timers (s : State) (n : Nat) (i : Instr) (o : Occ) :
    (s.after n i o).timers = s.timers ++ [(s.now + max n 1, i, o)] := rfl
@[simp] theorem next_agenda (s : State) (i : Instr) (o : Occ) : (s.next i o).agenda = .event i o :: s.agenda := rfl
@[simp] theorem newId_fresh (s : State) : s.newId.2.fresh = s.fresh + 1 := rfl
@[simp] theorem freeD_free (s : State) : s.freeD.2.free = s.free + 1 := rfl

/-! ## A position is passed -/

@[simp] theorem pass1_ref (t : Team) (j : Slot) : (t.pass1 j).ref = t.ref := rfl
@[simp] theorem pass1_resident (t : Team) (j : Slot) : (t.pass1 j).resident = t.resident := rfl
@[simp] theorem pass1_tenant (t : Team) (j : Slot) : (t.pass1 j).tenant = t.tenant := rfl
@[simp] theorem pass1_cluster (t : Team) (j : Slot) : (t.pass1 j).cluster = t.cluster := rfl
@[simp] theorem pass1_s (t : Team) (j : Slot) : (t.pass1 j).s = t.s := rfl
@[simp] theorem pass1_a (t : Team) (j : Slot) : (t.pass1 j).a = t.a := rfl
@[simp] theorem pass1_d (t : Team) (j : Slot) : (t.pass1 j).d = t.d := rfl
@[simp] theorem pass1_p (t : Team) (j : Slot) : (t.pass1 j).p = t.p := rfl
@[simp] theorem pass1_m (t : Team) (j : Slot) : (t.pass1 j).m = t.m := rfl
@[simp] theorem pass1_v (t : Team) (j : Slot) : (t.pass1 j).v = t.v := rfl
@[simp] theorem pass1_tsw (t : Team) (j : Slot) : (t.pass1 j).tsw = t.tsw := rfl
@[simp] theorem pass1_tid (t : Team) (j : Slot) : (t.pass1 j).tid = t.tid := rfl
@[simp] theorem pass1_cid (t : Team) (j : Slot) : (t.pass1 j).cid = t.cid := rfl
@[simp] theorem pass1_lmg (t : Team) (j : Slot) : (t.pass1 j).lmg = t.lmg := rfl
@[simp] theorem pass1_ecnt (t : Team) (j : Slot) : (t.pass1 j).ecnt = t.ecnt := rfl
@[simp] theorem pass1_ecntMark (t : Team) (j : Slot) : (t.pass1 j).ecntMark = t.ecntMark := rfl
@[simp] theorem pass1_lcnt (t : Team) (j : Slot) : (t.pass1 j).lcnt = t.lcnt := rfl
@[simp] theorem pass1_yls (t : Team) (j : Slot) : (t.pass1 j).yls = t.yls := rfl
@[simp] theorem pass1_nsm (t : Team) (j : Slot) : (t.pass1 j).nsm = t.nsm := rfl
@[simp] theorem pass1_vwin (t : Team) (j : Slot) : (t.pass1 j).vwin = t.vwin := rfl
@[simp] theorem pass1_pc (t : Team) (j : Slot) : (t.pass1 j).pc = t.pc := rfl
@[simp] theorem pass1_cur (t : Team) (j : Slot) : (t.pass1 j).cur = t.cur := rfl
@[simp] theorem pass1_bpc (t : Team) (j : Slot) : (t.pass1 j).bpc = t.bpc := rfl
@[simp] theorem pass1_lcntNow (t : Team) (j : Slot) : (t.pass1 j).lcntNow = t.lcntNow := rfl
@[simp] theorem pass1_skipCt (t : Team) (j : Slot) : (t.pass1 j).skipCt = t.skipCt := rfl
@[simp] theorem pass1_delay (t : Team) (j : Slot) : (t.pass1 j).delay = t.delay := rfl
@[simp] theorem pass1_link (t : Team) (j : Slot) : (t.pass1 j).link = t.link := rfl
@[simp] theorem pass1_loop (t : Team) (j : Slot) : (t.pass1 j).loop = t.loop := rfl
@[simp] theorem pass1_sync (t : Team) (j : Slot) : (t.pass1 j).sync = t.sync := rfl
@[simp] theorem pass1_refwUntil (t : Team) (j : Slot) : (t.pass1 j).refwUntil = t.refwUntil := rfl
@[simp] theorem pass1_park (t : Team) (j : Slot) : (t.pass1 j).park = t.park := rfl
@[simp] theorem pass1_handover (t : Team) (j : Slot) : (t.pass1 j).handover = t.handover := rfl
@[simp] theorem pass1_flight (t : Team) (j : Slot) : (t.pass1 j).flight = t.flight := rfl
@[simp] theorem pass1_vars (t : Team) (j : Slot) : (t.pass1 j).vars = t.vars := rfl
@[simp] theorem pass1_writes (t : Team) (j : Slot) : (t.pass1 j).writes = t.writes := rfl
@[simp] theorem pass1_stlSent (t : Team) (j : Slot) : (t.pass1 j).stlSent = t.stlSent := rfl
@[simp] theorem pass1_fenceSet (t : Team) (j : Slot) : (t.pass1 j).fenceSet = t.fenceSet := rfl
@[simp] theorem pass1_fenceSent (t : Team) (j : Slot) : (t.pass1 j).fenceSent = t.fenceSent := rfl
@[simp] theorem pass1_relScopes (t : Team) (j : Slot) : (t.pass1 j).relScopes = t.relScopes := rfl
@[simp] theorem pass1_phaseEnd (t : Team) (j : Slot) : (t.pass1 j).phaseEnd = t.phaseEnd := rfl
@[simp] theorem pass1_noted (t : Team) (j : Slot) : (t.pass1 j).noted = t.noted := rfl
@[simp] theorem pass1_arrivals (t : Team) (j : Slot) : (t.pass1 j).arrivals = t.arrivals := rfl
@[simp] theorem pass1_wakes (t : Team) (j : Slot) : (t.pass1 j).wakes = t.wakes := rfl
@[simp] theorem pass1_acqDie (t : Team) (j : Slot) : (t.pass1 j).acqDie = t.acqDie := rfl
@[simp] theorem pass1_acqPkg (t : Team) (j : Slot) : (t.pass1 j).acqPkg = t.acqPkg := rfl
@[simp] theorem pass1_trap (t : Team) (j : Slot) : (t.pass1 j).trap = t.trap := rfl
@[simp] theorem pass1_deferred (t : Team) (j : Slot) : (t.pass1 j).deferred = t.deferred := rfl
@[simp] theorem pass1_budget (t : Team) (j : Slot) : (t.pass1 j).budget = t.budget := rfl
@[simp] theorem pass1_counted (t : Team) (j : Slot) : (t.pass1 j).counted = t.counted := rfl
@[simp] theorem pass1_slice (t : Team) (j : Slot) : (t.pass1 j).slice = t.slice := rfl
@[simp] theorem pass1_miss (t : Team) (j : Slot) : (t.pass1 j).miss = t.miss := rfl
@[simp] theorem pass1_issued (t : Team) (j : Slot) : (t.pass1 j).issued = t.issued := rfl
@[simp] theorem pass1_stopAsked (t : Team) (j : Slot) : (t.pass1 j).stopAsked = t.stopAsked := rfl
@[simp] theorem pass1_forcedAsked (t : Team) (j : Slot) : (t.pass1 j).forcedAsked = t.forcedAsked := rfl
@[simp] theorem pass1_callSeq (t : Team) (j : Slot) : (t.pass1 j).callSeq = t.callSeq := rfl
@[simp] theorem pass1_saveArea (t : Team) (j : Slot) : (t.pass1 j).saveArea = t.saveArea := rfl
@[simp] theorem pass1_lastMigration (t : Team) (j : Slot) : (t.pass1 j).lastMigration = t.lastMigration := rfl
@[simp] theorem pass1_atNode (t : Team) (j : Slot) : (t.pass1 j).atNode = t.atNode := rfl
@[simp] theorem pass1_pass (t : Team) (j : Slot) : (t.pass1 j).pass = vput t.pass (slotNum j) (t.passed j + 1) := rfl

/-! ## A register is written -/

/-- Whatever a result writes, it changes these registers of the team and nothing else (R74, R111, R179). -/
theorem write_eq (t : Team) (w : Write) :
    t.write w = { t with
      s := (t.write w).s, a := (t.write w).a, d := (t.write w).d, p := (t.write w).p,
      m := (t.write w).m, v := (t.write w).v, tsw := (t.write w).tsw, yls := (t.write w).yls,
      nsm := (t.write w).nsm, lcnt := (t.write w).lcnt } := by
  cases w <;> simp only [Team.write]
  case csr num x => unfold Team.writeCsr; split <;> rfl
  all_goals (try split) <;> rfl

@[simp] theorem write_ref (t : Team) (w : Write) : (t.write w).ref = t.ref := by rw [write_eq]
@[simp] theorem write_resident (t : Team) (w : Write) : (t.write w).resident = t.resident := by rw [write_eq]
@[simp] theorem write_tenant (t : Team) (w : Write) : (t.write w).tenant = t.tenant := by rw [write_eq]
@[simp] theorem write_cluster (t : Team) (w : Write) : (t.write w).cluster = t.cluster := by rw [write_eq]
@[simp] theorem write_tid (t : Team) (w : Write) : (t.write w).tid = t.tid := by rw [write_eq]
@[simp] theorem write_cid (t : Team) (w : Write) : (t.write w).cid = t.cid := by rw [write_eq]
@[simp] theorem write_lmg (t : Team) (w : Write) : (t.write w).lmg = t.lmg := by rw [write_eq]
@[simp] theorem write_ecnt (t : Team) (w : Write) : (t.write w).ecnt = t.ecnt := by rw [write_eq]
@[simp] theorem write_ecntMark (t : Team) (w : Write) : (t.write w).ecntMark = t.ecntMark := by rw [write_eq]
@[simp] theorem write_vwin (t : Team) (w : Write) : (t.write w).vwin = t.vwin := by rw [write_eq]
@[simp] theorem write_pc (t : Team) (w : Write) : (t.write w).pc = t.pc := by rw [write_eq]
@[simp] theorem write_cur (t : Team) (w : Write) : (t.write w).cur = t.cur := by rw [write_eq]
@[simp] theorem write_bpc (t : Team) (w : Write) : (t.write w).bpc = t.bpc := by rw [write_eq]
@[simp] theorem write_pass (t : Team) (w : Write) : (t.write w).pass = t.pass := by rw [write_eq]
@[simp] theorem write_queue (t : Team) (w : Write) : (t.write w).queue = t.queue := by rw [write_eq]
@[simp] theorem write_holding (t : Team) (w : Write) : (t.write w).holding = t.holding := by rw [write_eq]
@[simp] theorem write_lcntNow (t : Team) (w : Write) : (t.write w).lcntNow = t.lcntNow := by rw [write_eq]
@[simp] theorem write_skipCt (t : Team) (w : Write) : (t.write w).skipCt = t.skipCt := by rw [write_eq]
@[simp] theorem write_delay (t : Team) (w : Write) : (t.write w).delay = t.delay := by rw [write_eq]
@[simp] theorem write_link (t : Team) (w : Write) : (t.write w).link = t.link := by rw [write_eq]
@[simp] theorem write_loop (t : Team) (w : Write) : (t.write w).loop = t.loop := by rw [write_eq]
@[simp] theorem write_sync (t : Team) (w : Write) : (t.write w).sync = t.sync := by rw [write_eq]
@[simp] theorem write_refwUntil (t : Team) (w : Write) : (t.write w).refwUntil = t.refwUntil := by rw [write_eq]
@[simp] theorem write_park (t : Team) (w : Write) : (t.write w).park = t.park := by rw [write_eq]
@[simp] theorem write_handover (t : Team) (w : Write) : (t.write w).handover = t.handover := by rw [write_eq]
@[simp] theorem write_flight (t : Team) (w : Write) : (t.write w).flight = t.flight := by rw [write_eq]
@[simp] theorem write_vars (t : Team) (w : Write) : (t.write w).vars = t.vars := by rw [write_eq]
@[simp] theorem write_writes (t : Team) (w : Write) : (t.write w).writes = t.writes := by rw [write_eq]
@[simp] theorem write_stlSent (t : Team) (w : Write) : (t.write w).stlSent = t.stlSent := by rw [write_eq]
@[simp] theorem write_fenceSet (t : Team) (w : Write) : (t.write w).fenceSet = t.fenceSet := by rw [write_eq]
@[simp] theorem write_fenceSent (t : Team) (w : Write) : (t.write w).fenceSent = t.fenceSent := by rw [write_eq]
@[simp] theorem write_relScopes (t : Team) (w : Write) : (t.write w).relScopes = t.relScopes := by rw [write_eq]
@[simp] theorem write_phaseEnd (t : Team) (w : Write) : (t.write w).phaseEnd = t.phaseEnd := by rw [write_eq]
@[simp] theorem write_noted (t : Team) (w : Write) : (t.write w).noted = t.noted := by rw [write_eq]
@[simp] theorem write_arrivals (t : Team) (w : Write) : (t.write w).arrivals = t.arrivals := by rw [write_eq]
@[simp] theorem write_wakes (t : Team) (w : Write) : (t.write w).wakes = t.wakes := by rw [write_eq]
@[simp] theorem write_acqDie (t : Team) (w : Write) : (t.write w).acqDie = t.acqDie := by rw [write_eq]
@[simp] theorem write_acqPkg (t : Team) (w : Write) : (t.write w).acqPkg = t.acqPkg := by rw [write_eq]
@[simp] theorem write_trap (t : Team) (w : Write) : (t.write w).trap = t.trap := by rw [write_eq]
@[simp] theorem write_deferred (t : Team) (w : Write) : (t.write w).deferred = t.deferred := by rw [write_eq]
@[simp] theorem write_budget (t : Team) (w : Write) : (t.write w).budget = t.budget := by rw [write_eq]
@[simp] theorem write_counted (t : Team) (w : Write) : (t.write w).counted = t.counted := by rw [write_eq]
@[simp] theorem write_slice (t : Team) (w : Write) : (t.write w).slice = t.slice := by rw [write_eq]
@[simp] theorem write_miss (t : Team) (w : Write) : (t.write w).miss = t.miss := by rw [write_eq]
@[simp] theorem write_issued (t : Team) (w : Write) : (t.write w).issued = t.issued := by rw [write_eq]
@[simp] theorem write_stopAsked (t : Team) (w : Write) : (t.write w).stopAsked = t.stopAsked := by rw [write_eq]
@[simp] theorem write_forcedAsked (t : Team) (w : Write) : (t.write w).forcedAsked = t.forcedAsked := by rw [write_eq]
@[simp] theorem write_callSeq (t : Team) (w : Write) : (t.write w).callSeq = t.callSeq := by rw [write_eq]
@[simp] theorem write_saveArea (t : Team) (w : Write) : (t.write w).saveArea = t.saveArea := by rw [write_eq]
@[simp] theorem write_lastMigration (t : Team) (w : Write) : (t.write w).lastMigration = t.lastMigration := by rw [write_eq]
@[simp] theorem write_atNode (t : Team) (w : Write) : (t.write w).atNode = t.atNode := by rw [write_eq]

end Sys2Proof.Machine
end

