-- ==== Sys2Proof/Laws/Operations.lean ====
section
/-! SUPPORT. What the shared operations of the slots do: operands and results (R204), issuing with one result and with none (R69, R74, R441), raising a trap (R416), fences and releases (R216 to R218). -/

set_option linter.all false

namespace Sys2Proof.Laws

open Machine Claims

theorem width_eq (f : RForm) : f.width = iw f := by
  simp [RForm.width, iw, Nat.shiftRight_eq_div_pow]

theorem iw_cases (f : RForm) : iw f = 64 ∨ iw f = 32 ∨ iw f = 16 ∨ iw f = 8 := by
  unfold iw
  have : f.hi2.toNat < 4 := f.hi2.isLt
  interval_cases f.hi2.toNat <;> simp

theorem readInt_signed (w x : Nat) (hw : 0 < w) : readInt true w x = (BitVec.ofNat w x).toInt := by
  unfold readInt
  simp only [Bool.true_and, decide_eq_true_eq]
  rw [BitVec.toInt_eq_toNat_cond]
  simp only [BitVec.toNat_ofNat]
  have h2 : 2 ^ w = 2 * 2 ^ (w - 1) := by
    conv_lhs => rw [show w = (w - 1) + 1 by omega]
    rw [pow_succ]; ring
  have : x % 2 ^ w < 2 ^ w := Nat.mod_lt _ (by positivity)
  split <;> split <;> (try push_cast) <;> omega

theorem operand_eq (f : RForm) (x : Double) : f.int x = operand f x := by
  unfold RForm.int operand RForm.signed
  rw [width_eq]
  have hw : 0 < iw f := by rcases iw_cases f with h | h | h | h <;> omega
  cases h : f.fn.getLsbD 2
  · simp only [beq_self_eq_true, Bool.false_eq_true, if_false]
    rw [readInt_signed _ _ hw]; simp [BitVec.setWidth_eq, BitVec.ofNat_toNat]
  · simp [readInt, BitVec.toNat_setWidth]

theorem narrowed (f : RForm) (e : Int) : Narrowed f e (intReg f.signed f.sat f.width e) := by
  unfold Narrowed intReg RForm.signed RForm.sat
  rw [width_eq]
  cases hst : f.fn.getLsbD 1
  · simp only [Bool.false_eq_true, if_false]
    refine ⟨_, ?_, ?_, ?_, rfl⟩ <;> cases hsg : f.fn.getLsbD 2 <;>
      simp only [readInt, least, greatest, hsg, beq_self_eq_true, Bool.true_and, Bool.false_and, decide_eq_true_eq, Bool.false_eq_true, if_false, if_true, beq_iff_eq, reduceCtorEq] <;>
      rcases iw_cases f with h | h | h | h <;> rw [h] <;> (try norm_num) <;> (try split) <;> omega
  · simp only [if_true]
    congr 1
    unfold clamp least greatest intLo intHi
    cases hsg : f.fn.getLsbD 2 <;> simp only [hsg, beq_self_eq_true, Bool.false_eq_true, if_false, if_true, reduceCtorEq, beq_iff_eq] <;>
      rcases iw_cases f with h | h | h | h <;> rw [h] <;> (try norm_num) <;> (split <;> (try split)) <;> omega

theorem room_not_full {s : State} {n : Nat} (h : Room s n) : s.team.flightFull n = false := by
  unfold Room at h; simp [Team.flightFull]; omega

/-- Outside the CT slot the opcode of a word is its bits 31:26 (log entry 9). -/
theorem energyClass_eq {j : Slot} (hj : j ≠ .ct) (i : Instr) :
    energyClass j i = 64 * slotNum j + ((encode i).getD 0).toNat / 2 ^ 26 := by
  cases j <;> first | exact absurd rfl hj | rfl

theorem issue_one {s : State} {j i w l x} (hj : j ≠ .ct) (h : Room s 1) :
    issue j i w [(l, x)] s = issued j s [result j i s w l x] := by
  simp [issue, room_not_full h, issued, landings, result, energyClass_eq hj]

theorem sxGuarded_eq {i g s w l x} (h : Ready i g s) :
    sxGuarded i g w l x s = issued .sx s [result .sx i s w l (x s.team)] := by
  simp [sxGuarded, slotOp, guarded, h.1, h.2.1, issue_one (j := .sx) (by decide) h.2.2]

theorem sxPlain_eq {i : Instr} {s w l x} (h : i.wf = true) (hr : Room s 1) :
    sxPlain i w l x s = issued .sx s [result .sx i s w l (x s.team)] := by
  simp [sxPlain, slotOp, h, issue_one (j := .sx) (by decide) hr]

theorem eq_guarded {i g s w l x} (he : exec i s = .next (sxGuarded i g w l x s)) (h : Ready i g s) :
    exec i s = .next (issued .sx s [result .sx i s w l (x s.team)]) := by rw [he, sxGuarded_eq h]

theorem eq_plain {i s w l x} (he : exec i s = .next (sxPlain i w l x s)) (h : i.wf = true) (hr : Room s 1) :
    exec i s = .next (issued .sx s [result .sx i s w l (x s.team)]) := by rw [he, sxPlain_eq h hr]

theorem takeTrap_eq {j i c a s} (h : s.team.trap = none) : takeTrap j i c a s = raised j c a ((encode i).getD 0) s := by
  simp [takeTrap, raiseTrap, State.onTeam, h, raised, trapOf, trapWord, trapAt]

theorem setField_bit (x : Double) (hi lo v k : Nat) (hk : k < 64) (h : lo ≤ hi) :
    (setField x hi lo v).getLsbD k = if lo ≤ k ∧ k ≤ hi then v.testBit (k - lo) else x.getLsbD k := by
  unfold setField
  have h1 : ∀ m, ((m : Nat) * 2 ^ lo).testBit k = (decide (lo ≤ k) && m.testBit (k - lo)) := by
    intro m; rw [Nat.testBit_mul_two_pow]
  simp only [BitVec.getLsbD_or, BitVec.getLsbD_and, BitVec.getLsbD_not, BitVec.getLsbD_ofNat, hk, decide_true, Bool.true_and, h1,
    Nat.testBit_two_pow_sub_one, Nat.testBit_mod_two_pow]
  by_cases hp : lo ≤ k
  · by_cases hl : k ≤ hi
    · simp [hp, hl, show k - lo < hi + 1 - lo by omega]
    · simp [hl, show ¬ k - lo < hi + 1 - lo by omega]
  · simp [hp]

theorem vget_lt {α : Type} {n : Nat} (v : Vector α n) (i : Nat) (d : α) (h : i < n) : vget v i d = v[i] := by simp [vget, h]

theorem write_s (t : Team) (n : BitVec 6) (x : Double) : ∃ v, t.write (.s n x) = { t with s := v } ∧
    (∀ k, k ≠ n → { t with s := v }.rs k = t.rs k) ∧ (n ≠ 0 → { t with s := v }.rs n = x) := by
  by_cases h : n = 0
  · refine ⟨t.s, ?_, fun _ _ => rfl, fun h' => absurd h h'⟩
    show (if n = 0 then t else _) = _
    rw [if_pos h]
  · refine ⟨vput t.s n.toNat x, ?_, fun k hk => ?_, fun _ => ?_⟩
    · show (if n = 0 then t else _) = _
      rw [if_neg h]
    · unfold Team.rs
      split
      · rfl
      · rw [vget_vput_other]; intro e; exact hk (BitVec.eq_of_toNat_eq e.symm)
    · unfold Team.rs; rw [if_neg h]; exact vget_vput_same _ _ _ _ n.isLt

theorem adMove_eq {i g s x} (h : Ready i g s) (he : exec i s = .next (adMove i g x s)) :
    exec i s = .next (issued .ad s [result .ad i s 64 1 (x s.team)]) := by
  rw [he]; simp [adMove, slotOp, guarded, h.1, h.2.1, issue_one (j := .ad) (by decide) h.2.2]

theorem relc_unack (s : State) (sc : BitVec 3) : s.team.writes.filter (fun w => w.counts (relcField sc)) = Unacknowledged s sc := by
  unfold Unacknowledged
  congr 1; funext w
  have : sc = 0 ∨ sc = 1 ∨ sc = 2 ∨ sc = 3 ∨ sc = 4 ∨ sc = 5 ∨ sc = 6 ∨ sc = 7 := by revert sc; decide
  rcases this with rfl | rfl | rfl | rfl | rfl | rfl | rfl | rfl <;> rfl

theorem relc_counted (s : State) (sc : BitVec 3) : s.team.relc (relcField sc) = Counted s sc := by
  unfold Team.relc Counted
  rw [relc_unack]

theorem issue_none {j i w s} (hj : j ≠ .ct) : issue j i w [] s = retired j i s w := by
  simp [issue, Team.flightFull, retired, retire, landings, energyClass_eq hj, dbl]

theorem loadsOut_iff (s : State) : s.team.loadsOut (s.team.passed .ad) = true ↔ LoadsOut s := by
  simp [Team.loadsOut, LoadsOut, and_assoc]

theorem storesOut_iff (s : State) : s.team.storesOut (s.team.passed .ad) = true ↔ StoresOut s := by
  simp [Team.storesOut, StoresOut, and_assoc]

theorem fenced_eq (sc : BitVec 3) (st b : Bool) (s : State) : fenced sc st b s =
    (if b then acquireAt sc s else s).onTeam fun t => t.endFence st sc := by
  unfold fenced acquireAt State.onTeam Team.endFence
  cases b
  · simp
  · by_cases h : sc = 0 <;> by_cases h2 : sc.toNat < 3 <;> simp [h, h2] <;> omega

/-- Which of the three kinds a fence is (R216). -/

theorem fence_kind {f : RForm} (hw : (Instr.fence f).wf = true) (h : f.hi2 ≠ 1) : f.hi2 = 0 ∨ f.hi2 = 2 := by
  have h1 := hw
  simp [Instr.wf] at h1
  have h2 := h1.1.1.1.1
  revert h h2
  generalize f.hi2 = x
  revert x
  decide

theorem storesOut_fenceSet (t : Team) (x : Option (List Nat)) (n : Nat) : { t with fenceSet := x }.storesOut n = t.storesOut n := rfl

theorem passed_fenceSet (t : Team) (x : Option (List Nat)) (j : Slot) : { t with fenceSet := x }.passed j = t.passed j := rfl

theorem countedWrites_fenceSet (t : Team) (x : Option (List Nat)) (n : Nat) :
    { t with fenceSet := x }.countedWrites n = t.countedWrites n := rfl

theorem fenced_fenceSet (t : Team) (x : Option (List Nat)) (sc : BitVec 3) :
    { t with fenceSet := x }.fenced sc = t.acked (relcField sc) (x.getD []) := rfl

theorem fenceStart_zero {s : State} (hs : s.team.fenceSet = none) (hf : s.team.fenceSent = false) (ho : ¬ StoresOut s)
    (hu : Unacknowledged s 0 = []) :
    fenceStart 0 s = { s with team := { s.team with fenceSet := some [], fenceSent := true } } := by
  have h1 : s.team.storesOut (s.team.passed .ad) = false := by rw [Bool.eq_false_iff]; exact fun h => ho ((storesOut_iff s).1 h)
  have h3 : s.team.countedWrites (relcField 0) = [] := by unfold Team.countedWrites; rw [relc_unack, hu]; rfl
  have h4 : (s.team.acked (relcField 0) []) = true := by simp [Team.acked]
  simp only [fenceStart, hs, State.onTeam, storesOut_fenceSet, passed_fenceSet, countedWrites_fenceSet, fenced_fenceSet, h1, h3, h4,
    releaseWriteBacks, Option.isNone_none, if_true, Option.getD_some]
  simp [hf]
  exact h3

theorem sum_steps (l : List Stage) (k : Nat) : l.foldl (fun n x => n + x.epochs.length) k = k + (l.map fun x => x.epochs.length).sum := by
  induction l generalizing k with
  | nil => simp
  | cons a t ih => simp [ih]; omega

theorem find_other (l : List Stage) (c c' : Nat) (h : c' ≠ c) :
    (l.filter fun x => x.cluster ≠ c).find? (fun x => x.cluster = c') = l.find? fun x => x.cluster = c' := by
  induction l with
  | nil => rfl
  | cons a t ih =>
    by_cases h1 : a.cluster = c
    · rw [List.filter_cons_of_neg (by simp [h1]), ih, List.find?_cons_of_neg (by simp [h1]; exact fun e => h e.symm)]
    · rw [List.filter_cons_of_pos (by simp [h1])]
      by_cases h2 : a.cluster = c'
      · rw [List.find?_cons_of_pos (by simp [h2]), List.find?_cons_of_pos (by simp [h2])]
      · rw [List.find?_cons_of_neg (by simp [h2]), List.find?_cons_of_neg (by simp [h2]), ih]

theorem integral {i : RForm → Instr} {lat : State → Nat} {op : RForm → Int → Int → Int}
    (h : ∀ f s, exec (i f) s = .next (sxInt (i f) f (lat s) (op f) s)) : Integral i lat op := by
  intro f s hr
  refine ⟨_, narrowed f _, ?_⟩
  rw [h, sxInt, sxGuarded_eq hr, width_eq, operand_eq, operand_eq]

end Sys2Proof.Laws
end

