-- ==== Sys2Proof/Laws/LoadStore.lean ====
section
/-! SUPPORT. Accesses to the issuing core's own LM (R344 to R346, R526): where they go, and that their checks pass. -/

set_option linter.all false

namespace Sys2Proof.Laws

open Machine Claims

theorem spot_lm (pkg d l o : Nat) (hd : d < 8) (hl : l < 64) (ho : o < 2 ^ 21) : spotOf pkg (lmIpa pkg d l o) = .lm d l o := by
  unfold spotOf lmIpa dieRegion
  have h1 : (pkg * 2 ^ 46 + (0x3f0000000000 + d * 2 ^ 32) + l * 2 ^ 21 + o) / 2 ^ 46 = pkg := by omega
  have h2 : (pkg * 2 ^ 46 + (0x3f0000000000 + d * 2 ^ 32) + l * 2 ^ 21 + o) % 2 ^ 46 = 0x3f0000000000 + d * 2 ^ 32 + l * 2 ^ 21 + o := by omega
  rw [if_pos h1, h2]
  unfold localSpot
  rw [if_neg (by omega), if_neg (by omega), if_neg (by omega), if_pos (by omega)]
  have h3 : (0x3f0000000000 + d * 2 ^ 32 + l * 2 ^ 21 + o - 0x3f0000000000) / 2 ^ 32 = d := by omega
  have h4 : (0x3f0000000000 + d * 2 ^ 32 + l * 2 ^ 21 + o - 0x3f0000000000) % 2 ^ 32 = l * 2 ^ 21 + o := by omega
  rw [h3, h4]
  unfold dieSpot
  rw [if_pos (by omega)]
  have h5 : (l * 2 ^ 21 + o) / 2 ^ 21 = l := by clear h1 h2 h3 h4; omega
  have h6 : (l * 2 ^ 21 + o) % 2 ^ 21 = o := by clear h1 h2 h3 h4; omega
  rw [h5, h6]

theorem bytesOf_eq (ty : BitVec 3) : typeSize ty = bytesOf ty := by revert ty; decide
theorem bytesOf_cases (ty : BitVec 3) : bytesOf ty = 1 ∨ bytesOf ty = 2 ∨ bytesOf ty = 4 ∨ bytesOf ty = 8 := by revert ty; decide

theorem own_ipa (pkg : Nat) (r : TeamRef) (ws : List Double) (k : AccKind) (va off : Nat)
    (hv : va = 0x00ffffffffe00000 + off) (hlt : off < 2 ^ 21) :
    vaIpa pkg r ws k va = some (lmIpa pkg r.die r.lcore off) := by
  have h0 : localView = 0x00ffffffffe00000 := rfl
  have hin : inLocalView va = true := by
    unfold inLocalView
    rw [hv, h0, Bool.and_eq_true, decide_eq_true_eq, decide_eq_true_eq]
    clear hv h0; omega
  have hsub : va - localView = off := by rw [hv, h0]; omega
  unfold vaIpa
  rw [if_pos hin, hsub]

/-- An access of an LM that is granted passes its checks. -/
theorem check_of_lm {s : State} {t : Team} {k : AccKind} {va size ipa d l o : Nat} (hm : va % size = 0)
    (hv : vaIpa s.hub.package t.ref t.windows k va = some ipa) (hs : spotOf s.hub.package ipa = .lm d l o)
    (hg : lmRangeGranted s t.tenant d l o size = true) : checkAddr s t k va size = .ok ipa := by
  simp [checkAddr, hm, hv, hs, spotCause, hg]

theorem aligned_own {off size : Nat} (hz : size = 1 ∨ size = 2 ∨ size = 4 ∨ size = 8) (h : off % size = 0) :
    (0x00ffffffffe00000 + off) % size = 0 := by
  have hd : size ∣ 0x00ffffffffe00000 := by rcases hz with rfl | rfl | rfl | rfl <;> norm_num
  exact Nat.mod_eq_zero_of_dvd (Nat.dvd_add hd (Nat.dvd_of_mod_eq_zero h))

/-- An access of the own LM passes its checks. -/
theorem check_own {s : State} {k : AccKind} {va : Double} {size off : Nat} (hq : Quiet s) (h : OwnLm s va size off)
    (hz : size = 1 ∨ size = 2 ∨ size = 4 ∨ size = 8) :
    checkAddr s s.team k va.toNat size = .ok (lmIpa s.hub.package s.team.ref.die s.team.ref.lcore off) := by
  obtain ⟨h1, h2, h3, h4⟩ := h
  have hlt : off < 2 ^ 21 := by
    clear h1
    rcases hz with rfl | rfl | rfl | rfl <;> omega
  have hm : va.toNat % size = 0 := by
    rw [h1]
    exact aligned_own hz h3
  exact check_of_lm hm (own_ipa s.hub.package s.team.ref s.team.windows k va.toNat off h1 hlt)
    (spot_lm s.hub.package s.team.ref.die s.team.ref.lcore off hq.1 hq.2.1 hlt) h4

theorem leNat_eq (l : List Byte) : leNat l = number l := by
  induction l with
  | nil => rfl
  | cons a t ih => simp [leNat, number, ih]

theorem loaded_eq (ty : BitVec 3) (x : Nat) : typeExtend ty x = loaded ty x := by
  have : ty = 0 ∨ ty = 1 ∨ ty = 2 ∨ ty = 3 ∨ ty = 4 ∨ ty = 5 ∨ ty = 6 ∨ ty = 7 := by revert ty; decide
  rcases this with rfl | rfl | rfl | rfl | rfl | rfl | rfl | rfl <;> rfl

theorem top_zero {x : BitVec 64} (h : x < 0x0100000000000000#64) : x.extractLsb' 56 8 = 0 := by
  apply BitVec.eq_of_toNat_eq
  have h' : x.toNat < 2 ^ 56 := by simpa [BitVec.lt_def] using h
  rw [BitVec.extractLsb'_toNat, Nat.shiftRight_eq_div_pow, Nat.div_eq_of_lt h']
  rfl

theorem parts_one {s : State} {f : LsForm} {k : AccKind} {va x : Double} {size off : Nat} (hq : Quiet s) (h : OwnLm s va size off)
    (hz : size = 1 ∨ size = 2 ∨ size = 4 ∨ size = 8) (ha : s.team.ra f.a < 0x0100000000000000) :
    checkParts s s.team f k size [(0, va, x)] =
      .ok [{ ipa := lmIpa s.hub.package s.team.ref.die s.team.ref.lcore off, size := size, lane := 0, data := x, va := va.toNat }] := by
  have hc := check_own (k := k) hq h hz
  generalize lmIpa s.hub.package s.team.ref.die s.team.ref.lcore off = ipa at hc ⊢
  simp only [checkParts, top_zero ha, hc, ne_eq, not_true_eq_false, if_false]

/-- Parts that lie in the own LM. -/
theorem own_of_spots {s : State} {ps : List Part}
    (h : ∀ p ∈ ps, ∃ o, spotOf s.hub.package p.ipa = .lm s.team.ref.die s.team.ref.lcore o) : allOwnLm s ps = true := by
  unfold allOwnLm
  rw [List.all_eq_true]
  intro p hp
  obtain ⟨o, ho⟩ := h p hp
  simp [ho]

end Sys2Proof.Laws
end

