-- ==== Sys2Proof/Laws/PerInstr.lean ====
section
/-! SUPPORT. The families of statements for all instructions, one lemma per constructor. `RoundTrip`: the word of a well-formed
instruction decodes to it (R105 to R129). -/

set_option linter.unusedSimpArgs false
set_option Elab.async false

namespace Sys2Proof.Laws.RoundTrip

/-- What the family states of an instruction. -/
def Statement (i : Instr) : Prop := Claims.RoundTrips i

/-- An operation of a slot. -/
theorem of_slot {i : Instr} {j : Slot} {w : Word32} (hs : i.slot = some j) (he : encode i = some w)
    (hd : i.wf = true → Claims.decodeWord j w = i) : Statement i := by
  intro hw _
  refine ⟨fun j' h => ⟨w, he, ?_⟩, fun w' h => ?_⟩
  · rw [hs] at h; cases h; exact hd hw
  · rw [hs] at h; cases h

/-- A context operation. -/
theorem of_context {i : Instr} {w : Word32} (hs : i.slot = none) (he : encode i = some w)
    (hd : decodeContext w = .ok i) : Statement i := by
  intro _ _
  refine ⟨fun j' h => ?_, fun w' _ h => ?_⟩
  · rw [hs] at h; cases h
  · rw [he] at h; cases h; exact hd

/-- An event has no word. -/
theorem of_event {i : Instr} (hs : i.slot = none) (he : encode i = none) : Statement i := by
  intro _ _
  refine ⟨fun j' h => ?_, fun w' _ h => ?_⟩
  · rw [hs] at h; cases h
  · rw [he] at h; cases h

theorem nop (slot : Slot) : Statement (.nop slot) := by
  cases slot <;> exact of_slot rfl rfl fun _ => by decide
theorem br (off : BitVec 14) : Statement (.br off) :=
  of_slot (j := .ct) (w := ctWord 1 (off)) rfl rfl fun _ => by
    simp (disch := omega) only [Claims.decodeWord, decodeCt, opcode_ctWord, operand_ctWord, BitVec.extractLsb'_cast,
      extract_high, extract_low, extract_all, Nat.reduceSub, Nat.sub_self, BitVec.reduceToNat, if_true]
theorem brc (mode : BitVec 2) (reg : BitVec 4) (off : BitVec 8) : Statement (.brc mode reg off) :=
  of_slot (j := .ct) (w := ctWord 2 (BitVec.cast rfl (mode ++ reg ++ off))) rfl rfl fun _ => by
    simp (disch := omega) only [Claims.decodeWord, decodeCt, opcode_ctWord, operand_ctWord, BitVec.extractLsb'_cast,
      extract_high, extract_low, extract_all, Nat.reduceSub, Nat.sub_self, BitVec.reduceToNat, if_true]
theorem brm (sense : BitVec 1) (tested : BitVec 3) (active : BitVec 3) (off : BitVec 7) : Statement (.brm sense tested active off) :=
  of_slot (j := .ct) (w := ctWord 3 (BitVec.cast rfl (sense ++ tested ++ active ++ off))) rfl rfl fun _ => by
    simp (disch := omega) only [Claims.decodeWord, decodeCt, opcode_ctWord, operand_ctWord, BitVec.extractLsb'_cast,
      extract_high, extract_low, extract_all, Nat.reduceSub, Nat.sub_self, BitVec.reduceToNat, if_true]
theorem call (off : BitVec 14) : Statement (.call off) :=
  of_slot (j := .ct) (w := ctWord 4 (off)) rfl rfl fun _ => by
    simp (disch := omega) only [Claims.decodeWord, decodeCt, opcode_ctWord, operand_ctWord, BitVec.extractLsb'_cast,
      extract_high, extract_low, extract_all, Nat.reduceSub, Nat.sub_self, BitVec.reduceToNat, if_true]
theorem jmpr (reg : BitVec 6) (link : BitVec 1) (z : BitVec 7) : Statement (.jmpr reg link z) :=
  of_slot (j := .ct) (w := ctWord 5 (BitVec.cast rfl (reg ++ link ++ z))) rfl rfl fun _ => by
    simp (disch := omega) only [Claims.decodeWord, decodeCt, opcode_ctWord, operand_ctWord, BitVec.extractLsb'_cast,
      extract_high, extract_low, extract_all, Nat.reduceSub, Nat.sub_self, BitVec.reduceToNat, if_true]
theorem ret (z : BitVec 14) : Statement (.ret z) :=
  of_slot (j := .ct) (w := ctWord 6 (z)) rfl rfl fun _ => by
    simp (disch := omega) only [Claims.decodeWord, decodeCt, opcode_ctWord, operand_ctWord, BitVec.extractLsb'_cast,
      extract_high, extract_low, extract_all, Nat.reduceSub, Nat.sub_self, BitVec.reduceToNat, if_true]
theorem loop (cf : BitVec 1) (len : BitVec 4) (cnt : BitVec 9) : Statement (.loop cf len cnt) :=
  of_slot (j := .ct) (w := ctWord 7 (BitVec.cast rfl (cf ++ len ++ cnt))) rfl rfl fun _ => by
    simp (disch := omega) only [Claims.decodeWord, decodeCt, opcode_ctWord, operand_ctWord, BitVec.extractLsb'_cast,
      extract_high, extract_low, extract_all, Nat.reduceSub, Nat.sub_self, BitVec.reduceToNat, if_true]
theorem rept (cf : BitVec 1) (len : BitVec 4) (cnt : BitVec 9) : Statement (.rept cf len cnt) :=
  of_slot (j := .ct) (w := ctWord 8 (BitVec.cast rfl (cf ++ len ++ cnt))) rfl rfl fun _ => by
    simp (disch := omega) only [Claims.decodeWord, decodeCt, opcode_ctWord, operand_ctWord, BitVec.extractLsb'_cast,
      extract_high, extract_low, extract_all, Nat.reduceSub, Nat.sub_self, BitVec.reduceToNat, if_true]
theorem yield (sel : BitVec 2) (b : BitVec 12) : Statement (.yield sel b) :=
  of_slot (j := .ct) (w := ctWord 9 (BitVec.cast rfl (sel ++ b))) rfl rfl fun _ => by
    simp (disch := omega) only [Claims.decodeWord, decodeCt, opcode_ctWord, operand_ctWord, BitVec.extractLsb'_cast,
      extract_high, extract_low, extract_all, Nat.reduceSub, Nat.sub_self, BitVec.reduceToNat, if_true]
theorem node (sel : BitVec 2) (b : BitVec 12) : Statement (.node sel b) :=
  of_slot (j := .ct) (w := ctWord 10 (BitVec.cast rfl (sel ++ b))) rfl rfl fun _ => by
    simp (disch := omega) only [Claims.decodeWord, decodeCt, opcode_ctWord, operand_ctWord, BitVec.extractLsb'_cast,
      extract_high, extract_low, extract_all, Nat.reduceSub, Nat.sub_self, BitVec.reduceToNat, if_true]
theorem endTeam (z : BitVec 14) : Statement (.endTeam z) :=
  of_slot (j := .ct) (w := ctWord 11 (z)) rfl rfl fun _ => by
    simp (disch := omega) only [Claims.decodeWord, decodeCt, opcode_ctWord, operand_ctWord, BitVec.extractLsb'_cast,
      extract_high, extract_low, extract_all, Nat.reduceSub, Nat.sub_self, BitVec.reduceToNat, if_true]
theorem bara (bar : BitVec 4) (z : BitVec 10) : Statement (.bara bar z) :=
  of_slot (j := .ct) (w := ctWord 12 (BitVec.cast rfl (bar ++ z))) rfl rfl fun _ => by
    simp (disch := omega) only [Claims.decodeWord, decodeCt, opcode_ctWord, operand_ctWord, BitVec.extractLsb'_cast,
      extract_high, extract_low, extract_all, Nat.reduceSub, Nat.sub_self, BitVec.reduceToNat, if_true]
theorem barw (bar : BitVec 4) (z : BitVec 10) : Statement (.barw bar z) :=
  of_slot (j := .ct) (w := ctWord 13 (BitVec.cast rfl (bar ++ z))) rfl rfl fun _ => by
    simp (disch := omega) only [Claims.decodeWord, decodeCt, opcode_ctWord, operand_ctWord, BitVec.extractLsb'_cast,
      extract_high, extract_low, extract_all, Nat.reduceSub, Nat.sub_self, BitVec.reduceToNat, if_true]
theorem barc (bar : BitVec 4) (cnt : BitVec 6) (z : BitVec 4) : Statement (.barc bar cnt z) :=
  of_slot (j := .ct) (w := ctWord 14 (BitVec.cast rfl (bar ++ cnt ++ z))) rfl rfl fun _ => by
    simp (disch := omega) only [Claims.decodeWord, decodeCt, opcode_ctWord, operand_ctWord, BitVec.extractLsb'_cast,
      extract_high, extract_low, extract_all, Nat.reduceSub, Nat.sub_self, BitVec.reduceToNat, if_true]
theorem waitx (ev : BitVec 4) (t : BitVec 10) : Statement (.waitx ev t) :=
  of_slot (j := .ct) (w := ctWord 15 (BitVec.cast rfl (ev ++ t))) rfl rfl fun _ => by
    simp (disch := omega) only [Claims.decodeWord, decodeCt, opcode_ctWord, operand_ctWord, BitVec.extractLsb'_cast,
      extract_high, extract_low, extract_all, Nat.reduceSub, Nat.sub_self, BitVec.reduceToNat, if_true]
theorem clkdiv (dom : BitVec 2) (dv : BitVec 4) (z : BitVec 8) : Statement (.clkdiv dom dv z) :=
  of_slot (j := .ct) (w := ctWord 16 (BitVec.cast rfl (dom ++ dv ++ z))) rfl rfl fun _ => by
    simp (disch := omega) only [Claims.decodeWord, decodeCt, opcode_ctWord, operand_ctWord, BitVec.extractLsb'_cast,
      extract_high, extract_low, extract_all, Nat.reduceSub, Nat.sub_self, BitVec.reduceToNat, if_true]
theorem pwrq (level : BitVec 4) (z : BitVec 10) : Statement (.pwrq level z) :=
  of_slot (j := .ct) (w := ctWord 17 (BitVec.cast rfl (level ++ z))) rfl rfl fun _ => by
    simp (disch := omega) only [Claims.decodeWord, decodeCt, opcode_ctWord, operand_ctWord, BitVec.extractLsb'_cast,
      extract_high, extract_low, extract_all, Nat.reduceSub, Nat.sub_self, BitVec.reduceToNat, if_true]
theorem svc (num : BitVec 14) : Statement (.svc num) :=
  of_slot (j := .ct) (w := ctWord 18 (num)) rfl rfl fun _ => by
    simp (disch := omega) only [Claims.decodeWord, decodeCt, opcode_ctWord, operand_ctWord, BitVec.extractLsb'_cast,
      extract_high, extract_low, extract_all, Nat.reduceSub, Nat.sub_self, BitVec.reduceToNat, if_true]
theorem brk (code : BitVec 14) : Statement (.brk code) :=
  of_slot (j := .ct) (w := ctWord 19 (code)) rfl rfl fun _ => by
    simp (disch := omega) only [Claims.decodeWord, decodeCt, opcode_ctWord, operand_ctWord, BitVec.extractLsb'_cast,
      extract_high, extract_low, extract_all, Nat.reduceSub, Nat.sub_self, BitVec.reduceToNat, if_true]
theorem wwait (reg : BitVec 6) (t : BitVec 8) : Statement (.wwait reg t) :=
  of_slot (j := .ct) (w := ctWord 20 (BitVec.cast rfl (reg ++ t))) rfl rfl fun _ => by
    simp (disch := omega) only [Claims.decodeWord, decodeCt, opcode_ctWord, operand_ctWord, BitVec.extractLsb'_cast,
      extract_high, extract_low, extract_all, Nat.reduceSub, Nat.sub_self, BitVec.reduceToNat, if_true]
theorem wwake (reg : BitVec 6) (n : BitVec 8) : Statement (.wwake reg n) :=
  of_slot (j := .ct) (w := ctWord 21 (BitVec.cast rfl (reg ++ n))) rfl rfl fun _ => by
    simp (disch := omega) only [Claims.decodeWord, decodeCt, opcode_ctWord, operand_ctWord, BitVec.extractLsb'_cast,
      extract_high, extract_low, extract_all, Nat.reduceSub, Nat.sub_self, BitVec.reduceToNat, if_true]
theorem refw (group : BitVec 3) (z : BitVec 11) : Statement (.refw group z) :=
  of_slot (j := .ct) (w := ctWord 22 (BitVec.cast rfl (group ++ z))) rfl rfl fun _ => by
    simp (disch := omega) only [Claims.decodeWord, decodeCt, opcode_ctWord, operand_ctWord, BitVec.extractLsb'_cast,
      extract_high, extract_low, extract_all, Nat.reduceSub, Nat.sub_self, BitVec.reduceToNat, if_true]
theorem add (f : RForm) : Statement (.add f) :=
  of_slot (j := .sx) rfl rfl fun _ => by simp [Claims.decodeWord, decodeSlot, decodeSx]
theorem sub (f : RForm) : Statement (.sub f) :=
  of_slot (j := .sx) rfl rfl fun _ => by simp [Claims.decodeWord, decodeSlot, decodeSx]
theorem mul (f : RForm) : Statement (.mul f) :=
  of_slot (j := .sx) rfl rfl fun _ => by simp [Claims.decodeWord, decodeSlot, decodeSx]
theorem mulh (f : RForm) : Statement (.mulh f) :=
  of_slot (j := .sx) rfl rfl fun _ => by simp [Claims.decodeWord, decodeSlot, decodeSx]
theorem div (f : RForm) : Statement (.div f) :=
  of_slot (j := .sx) rfl rfl fun _ => by simp [Claims.decodeWord, decodeSlot, decodeSx]
theorem rem (f : RForm) : Statement (.rem f) :=
  of_slot (j := .sx) rfl rfl fun _ => by simp [Claims.decodeWord, decodeSlot, decodeSx]
theorem and (f : RForm) : Statement (.and f) :=
  of_slot (j := .sx) rfl rfl fun _ => by simp [Claims.decodeWord, decodeSlot, decodeSx]
theorem or (f : RForm) : Statement (.or f) :=
  of_slot (j := .sx) rfl rfl fun _ => by simp [Claims.decodeWord, decodeSlot, decodeSx]
theorem xor (f : RForm) : Statement (.xor f) :=
  of_slot (j := .sx) rfl rfl fun _ => by simp [Claims.decodeWord, decodeSlot, decodeSx]
theorem shl (f : RForm) : Statement (.shl f) :=
  of_slot (j := .sx) rfl rfl fun _ => by simp [Claims.decodeWord, decodeSlot, decodeSx]
theorem shr (f : RForm) : Statement (.shr f) :=
  of_slot (j := .sx) rfl rfl fun _ => by simp [Claims.decodeWord, decodeSlot, decodeSx]
theorem shra (f : RForm) : Statement (.shra f) :=
  of_slot (j := .sx) rfl rfl fun _ => by simp [Claims.decodeWord, decodeSlot, decodeSx]
theorem clz (f : RForm) : Statement (.clz f) :=
  of_slot (j := .sx) rfl rfl fun _ => by simp [Claims.decodeWord, decodeSlot, decodeSx]
theorem popc (f : RForm) : Statement (.popc f) :=
  of_slot (j := .sx) rfl rfl fun _ => by simp [Claims.decodeWord, decodeSlot, decodeSx]
theorem min (f : RForm) : Statement (.min f) :=
  of_slot (j := .sx) rfl rfl fun _ => by simp [Claims.decodeWord, decodeSlot, decodeSx]
theorem max (f : RForm) : Statement (.max f) :=
  of_slot (j := .sx) rfl rfl fun _ => by simp [Claims.decodeWord, decodeSlot, decodeSx]
theorem cmp (f : RForm) : Statement (.cmp f) :=
  of_slot (j := .sx) rfl rfl fun _ => by simp [Claims.decodeWord, decodeSlot, decodeSx]
theorem cmpi (f : IForm) : Statement (.cmpi f) :=
  of_slot (j := .sx) rfl rfl fun _ => by simp [Claims.decodeWord, decodeSlot, decodeSx]
theorem sel (f : RForm) : Statement (.sel f) :=
  of_slot (j := .sx) rfl rfl fun _ => by simp [Claims.decodeWord, decodeSlot, decodeSx]
theorem addi (f : IForm) : Statement (.addi f) :=
  of_slot (j := .sx) rfl rfl fun _ => by simp [Claims.decodeWord, decodeSlot, decodeSx]
theorem andi (f : IForm) : Statement (.andi f) :=
  of_slot (j := .sx) rfl rfl fun _ => by simp [Claims.decodeWord, decodeSlot, decodeSx]
theorem ori (f : IForm) : Statement (.ori f) :=
  of_slot (j := .sx) rfl rfl fun _ => by simp [Claims.decodeWord, decodeSlot, decodeSx]
theorem xori (f : IForm) : Statement (.xori f) :=
  of_slot (j := .sx) rfl rfl fun _ => by simp [Claims.decodeWord, decodeSlot, decodeSx]
theorem shli (f : IForm) : Statement (.shli f) :=
  of_slot (j := .sx) rfl rfl fun _ => by simp [Claims.decodeWord, decodeSlot, decodeSx]
theorem shri (f : IForm) : Statement (.shri f) :=
  of_slot (j := .sx) rfl rfl fun _ => by simp [Claims.decodeWord, decodeSlot, decodeSx]
theorem shrai (f : IForm) : Statement (.shrai f) :=
  of_slot (j := .sx) rfl rfl fun _ => by simp [Claims.decodeWord, decodeSlot, decodeSx]
theorem ext (f : IForm) : Statement (.ext f) :=
  of_slot (j := .sx) rfl rfl fun _ => by simp [Claims.decodeWord, decodeSlot, decodeSx]
theorem ins (f : IForm) : Statement (.ins f) :=
  of_slot (j := .sx) rfl rfl fun _ => by simp [Claims.decodeWord, decodeSlot, decodeSx]
theorem li (f : LForm) : Statement (.li f) :=
  of_slot (j := .sx) rfl rfl fun _ => by simp [Claims.decodeWord, decodeSlot, decodeSx]
theorem lih (f : LForm) : Statement (.lih f) :=
  of_slot (j := .sx) rfl rfl fun _ => by simp [Claims.decodeWord, decodeSlot, decodeSx]
theorem fadd (f : RForm) : Statement (.fadd f) :=
  of_slot (j := .sx) rfl rfl fun _ => by simp [Claims.decodeWord, decodeSlot, decodeSx]
theorem fsub (f : RForm) : Statement (.fsub f) :=
  of_slot (j := .sx) rfl rfl fun _ => by simp [Claims.decodeWord, decodeSlot, decodeSx]
theorem fmul (f : RForm) : Statement (.fmul f) :=
  of_slot (j := .sx) rfl rfl fun _ => by simp [Claims.decodeWord, decodeSlot, decodeSx]
theorem ffma (f : RForm) : Statement (.ffma f) :=
  of_slot (j := .sx) rfl rfl fun _ => by simp [Claims.decodeWord, decodeSlot, decodeSx]
theorem fdiv (f : RForm) : Statement (.fdiv f) :=
  of_slot (j := .sx) rfl rfl fun _ => by simp [Claims.decodeWord, decodeSlot, decodeSx]
theorem fsqrt (f : RForm) : Statement (.fsqrt f) :=
  of_slot (j := .sx) rfl rfl fun _ => by simp [Claims.decodeWord, decodeSlot, decodeSx]
theorem fmin (f : RForm) : Statement (.fmin f) :=
  of_slot (j := .sx) rfl rfl fun _ => by simp [Claims.decodeWord, decodeSlot, decodeSx]
theorem fmax (f : RForm) : Statement (.fmax f) :=
  of_slot (j := .sx) rfl rfl fun _ => by simp [Claims.decodeWord, decodeSlot, decodeSx]
theorem fcmp (f : RForm) : Statement (.fcmp f) :=
  of_slot (j := .sx) rfl rfl fun _ => by simp [Claims.decodeWord, decodeSlot, decodeSx]
theorem fcvt (f : RForm) : Statement (.fcvt f) :=
  of_slot (j := .sx) rfl rfl fun _ => by simp [Claims.decodeWord, decodeSlot, decodeSx]
theorem fclass (f : RForm) : Statement (.fclass f) :=
  of_slot (j := .sx) rfl rfl fun _ => by simp [Claims.decodeWord, decodeSlot, decodeSx]
theorem fsgn (f : RForm) : Statement (.fsgn f) :=
  of_slot (j := .sx) rfl rfl fun _ => by simp [Claims.decodeWord, decodeSlot, decodeSx]
theorem pand (f : RForm) : Statement (.pand f) :=
  of_slot (j := .sx) rfl rfl fun _ => by simp [Claims.decodeWord, decodeSlot, decodeSx]
theorem por (f : RForm) : Statement (.por f) :=
  of_slot (j := .sx) rfl rfl fun _ => by simp [Claims.decodeWord, decodeSlot, decodeSx]
theorem pxor (f : RForm) : Statement (.pxor f) :=
  of_slot (j := .sx) rfl rfl fun _ => by simp [Claims.decodeWord, decodeSlot, decodeSx]
theorem pmov (f : RForm) : Statement (.pmov f) :=
  of_slot (j := .sx) rfl rfl fun _ => by simp [Claims.decodeWord, decodeSlot, decodeSx]
theorem amov (f : RForm) : Statement (.amov f) :=
  of_slot (j := .ad) rfl rfl fun _ => by simp [Claims.decodeWord, decodeSlot, decodeAd]
theorem aget (f : RForm) : Statement (.aget f) :=
  of_slot (j := .ad) rfl rfl fun _ => by simp [Claims.decodeWord, decodeSlot, decodeAd]
theorem aadd (f : RForm) : Statement (.aadd f) :=
  of_slot (j := .ad) rfl rfl fun _ => by simp [Claims.decodeWord, decodeSlot, decodeAd]
theorem aaddi (f : IForm) : Statement (.aaddi f) :=
  of_slot (j := .ad) rfl rfl fun _ => by simp [Claims.decodeWord, decodeSlot, decodeAd]
theorem dset (f : RForm) : Statement (.dset f) :=
  of_slot (j := .ad) rfl rfl fun _ => by simp [Claims.decodeWord, decodeSlot, decodeAd]
theorem dget (f : RForm) : Statement (.dget f) :=
  of_slot (j := .ad) rfl rfl fun _ => by simp [Claims.decodeWord, decodeSlot, decodeAd]
theorem lea (f : RForm) : Statement (.lea f) :=
  of_slot (j := .ad) rfl rfl fun _ => by simp [Claims.decodeWord, decodeSlot, decodeAd]
theorem csrr (f : RForm) : Statement (.csrr f) :=
  of_slot (j := .ad) rfl rfl fun _ => by simp [Claims.decodeWord, decodeSlot, decodeAd]
theorem csrw (f : RForm) : Statement (.csrw f) :=
  of_slot (j := .ad) rfl rfl fun _ => by simp [Claims.decodeWord, decodeSlot, decodeAd]
theorem fence (f : RForm) : Statement (.fence f) :=
  of_slot (j := .ad) rfl rfl fun _ => by simp [Claims.decodeWord, decodeSlot, decodeAd]
theorem xfence (f : RForm) : Statement (.xfence f) :=
  of_slot (j := .ad) rfl rfl fun _ => by simp [Claims.decodeWord, decodeSlot, decodeAd]
theorem phase (f : RForm) : Statement (.phase f) :=
  of_slot (j := .ad) rfl rfl fun _ => by simp [Claims.decodeWord, decodeSlot, decodeAd]
theorem launch (f : RForm) : Statement (.launch f) :=
  of_slot (j := .ad) rfl rfl fun _ => by simp [Claims.decodeWord, decodeSlot, decodeAd]
theorem pref (f : RForm) : Statement (.pref f) :=
  of_slot (j := .ad) rfl rfl fun _ => by simp [Claims.decodeWord, decodeSlot, decodeAd]
theorem relw (f : RForm) : Statement (.relw f) :=
  of_slot (j := .ad) rfl rfl fun _ => by simp [Claims.decodeWord, decodeSlot, decodeAd]
theorem ld (f : LsForm) : Statement (.ld f) :=
  of_slot (j := .ls) rfl rfl fun _ => by simp [Claims.decodeWord, decodeSlot, decodeLs]
theorem st (f : LsForm) : Statement (.st f) :=
  of_slot (j := .ls) rfl rfl fun _ => by simp [Claims.decodeWord, decodeSlot, decodeLs]
theorem ldv (f : LsForm) : Statement (.ldv f) :=
  of_slot (j := .ls) rfl rfl fun _ => by simp [Claims.decodeWord, decodeSlot, decodeLs]
theorem stv (f : LsForm) : Statement (.stv f) :=
  of_slot (j := .ls) rfl rfl fun _ => by simp [Claims.decodeWord, decodeSlot, decodeLs]
theorem ldvs (f : LsForm) : Statement (.ldvs f) :=
  of_slot (j := .ls) rfl rfl fun _ => by simp [Claims.decodeWord, decodeSlot, decodeLs]
theorem stvs (f : LsForm) : Statement (.stvs f) :=
  of_slot (j := .ls) rfl rfl fun _ => by simp [Claims.decodeWord, decodeSlot, decodeLs]
theorem ldvg (f : LsForm) : Statement (.ldvg f) :=
  of_slot (j := .ls) rfl rfl fun _ => by simp [Claims.decodeWord, decodeSlot, decodeLs]
theorem stvx (f : LsForm) : Statement (.stvx f) :=
  of_slot (j := .ls) rfl rfl fun _ => by simp [Claims.decodeWord, decodeSlot, decodeLs]
theorem lda (f : LsForm) : Statement (.lda f) :=
  of_slot (j := .ls) rfl rfl fun _ => by simp [Claims.decodeWord, decodeSlot, decodeLs]
theorem stl (f : LsForm) : Statement (.stl f) :=
  of_slot (j := .ls) rfl rfl fun _ => by simp [Claims.decodeWord, decodeSlot, decodeLs]
theorem amo (f : LsForm) : Statement (.amo f) :=
  of_slot (j := .ls) rfl rfl fun _ => by simp [Claims.decodeWord, decodeSlot, decodeLs]
theorem cas (f : LsForm) : Statement (.cas f) :=
  of_slot (j := .ls) rfl rfl fun _ => by simp [Claims.decodeWord, decodeSlot, decodeLs]
theorem vamo (f : LsForm) : Statement (.vamo f) :=
  of_slot (j := .ls) rfl rfl fun _ => by simp [Claims.decodeWord, decodeSlot, decodeLs]
theorem cwb (f : LsForm) : Statement (.cwb f) :=
  of_slot (j := .ls) rfl rfl fun _ => by simp [Claims.decodeWord, decodeSlot, decodeLs]
theorem cinv (f : LsForm) : Statement (.cinv f) :=
  of_slot (j := .ls) rfl rfl fun _ => by simp [Claims.decodeWord, decodeSlot, decodeLs]
theorem cflush (f : LsForm) : Statement (.cflush f) :=
  of_slot (j := .ls) rfl rfl fun _ => by simp [Claims.decodeWord, decodeSlot, decodeLs]
theorem rput (f : LsForm) : Statement (.rput f) :=
  of_slot (j := .ls) rfl rfl fun _ => by simp [Claims.decodeWord, decodeSlot, decodeLs]
theorem rget (f : LsForm) : Statement (.rget f) :=
  of_slot (j := .ls) rfl rfl fun _ => by simp [Claims.decodeWord, decodeSlot, decodeLs]
theorem rfree (f : LsForm) : Statement (.rfree f) :=
  of_slot (j := .ls) rfl rfl fun _ => by simp [Claims.decodeWord, decodeSlot, decodeLs]
theorem ldsc (f : LsForm) : Statement (.ldsc f) :=
  of_slot (j := .ls) rfl rfl fun _ => by simp [Claims.decodeWord, decodeSlot, decodeLs]
theorem vadd (f : RForm) : Statement (.vadd f) :=
  of_slot (j := .vx) rfl rfl fun _ => by simp [Claims.decodeWord, decodeSlot, decodeVx]
theorem vsub (f : RForm) : Statement (.vsub f) :=
  of_slot (j := .vx) rfl rfl fun _ => by simp [Claims.decodeWord, decodeSlot, decodeVx]
theorem vmul (f : RForm) : Statement (.vmul f) :=
  of_slot (j := .vx) rfl rfl fun _ => by simp [Claims.decodeWord, decodeSlot, decodeVx]
theorem vfma (f : RForm) : Statement (.vfma f) :=
  of_slot (j := .vx) rfl rfl fun _ => by simp [Claims.decodeWord, decodeSlot, decodeVx]
theorem vmin (f : RForm) : Statement (.vmin f) :=
  of_slot (j := .vx) rfl rfl fun _ => by simp [Claims.decodeWord, decodeSlot, decodeVx]
theorem vmax (f : RForm) : Statement (.vmax f) :=
  of_slot (j := .vx) rfl rfl fun _ => by simp [Claims.decodeWord, decodeSlot, decodeVx]
theorem vabs (f : RForm) : Statement (.vabs f) :=
  of_slot (j := .vx) rfl rfl fun _ => by simp [Claims.decodeWord, decodeSlot, decodeVx]
theorem vand (f : RForm) : Statement (.vand f) :=
  of_slot (j := .vx) rfl rfl fun _ => by simp [Claims.decodeWord, decodeSlot, decodeVx]
theorem vor (f : RForm) : Statement (.vor f) :=
  of_slot (j := .vx) rfl rfl fun _ => by simp [Claims.decodeWord, decodeSlot, decodeVx]
theorem vxor (f : RForm) : Statement (.vxor f) :=
  of_slot (j := .vx) rfl rfl fun _ => by simp [Claims.decodeWord, decodeSlot, decodeVx]
theorem vshl (f : RForm) : Statement (.vshl f) :=
  of_slot (j := .vx) rfl rfl fun _ => by simp [Claims.decodeWord, decodeSlot, decodeVx]
theorem vshr (f : RForm) : Statement (.vshr f) :=
  of_slot (j := .vx) rfl rfl fun _ => by simp [Claims.decodeWord, decodeSlot, decodeVx]
theorem vshra (f : RForm) : Statement (.vshra f) :=
  of_slot (j := .vx) rfl rfl fun _ => by simp [Claims.decodeWord, decodeSlot, decodeVx]
theorem vcmp (f : RForm) : Statement (.vcmp f) :=
  of_slot (j := .vx) rfl rfl fun _ => by simp [Claims.decodeWord, decodeSlot, decodeVx]
theorem vsel (f : RForm) : Statement (.vsel f) :=
  of_slot (j := .vx) rfl rfl fun _ => by simp [Claims.decodeWord, decodeSlot, decodeVx]
theorem vcvt (f : RForm) : Statement (.vcvt f) :=
  of_slot (j := .vx) rfl rfl fun _ => by simp [Claims.decodeWord, decodeSlot, decodeVx]
theorem vpack (f : RForm) : Statement (.vpack f) :=
  of_slot (j := .vx) rfl rfl fun _ => by simp [Claims.decodeWord, decodeSlot, decodeVx]
theorem vunpk (f : RForm) : Statement (.vunpk f) :=
  of_slot (j := .vx) rfl rfl fun _ => by simp [Claims.decodeWord, decodeSlot, decodeVx]
theorem vred (f : RForm) : Statement (.vred f) :=
  of_slot (j := .vx) rfl rfl fun _ => by simp [Claims.decodeWord, decodeSlot, decodeVx]
theorem vscan (f : RForm) : Statement (.vscan f) :=
  of_slot (j := .vx) rfl rfl fun _ => by simp [Claims.decodeWord, decodeSlot, decodeVx]
theorem vperm (f : RForm) : Statement (.vperm f) :=
  of_slot (j := .vx) rfl rfl fun _ => by simp [Claims.decodeWord, decodeSlot, decodeVx]
theorem vshuf (f : RForm) : Statement (.vshuf f) :=
  of_slot (j := .vx) rfl rfl fun _ => by simp [Claims.decodeWord, decodeSlot, decodeVx]
theorem vbcast (f : RForm) : Statement (.vbcast f) :=
  of_slot (j := .vx) rfl rfl fun _ => by simp [Claims.decodeWord, decodeSlot, decodeVx]
theorem vext (f : RForm) : Statement (.vext f) :=
  of_slot (j := .vx) rfl rfl fun _ => by simp [Claims.decodeWord, decodeSlot, decodeVx]
theorem vins (f : RForm) : Statement (.vins f) :=
  of_slot (j := .vx) rfl rfl fun _ => by simp [Claims.decodeWord, decodeSlot, decodeVx]
theorem viota (f : RForm) : Statement (.viota f) :=
  of_slot (j := .vx) rfl rfl fun _ => by simp [Claims.decodeWord, decodeSlot, decodeVx]
theorem vrcp (f : RForm) : Statement (.vrcp f) :=
  of_slot (j := .vx) rfl rfl fun _ => by simp [Claims.decodeWord, decodeSlot, decodeVx]
theorem vrsq (f : RForm) : Statement (.vrsq f) :=
  of_slot (j := .vx) rfl rfl fun _ => by simp [Claims.decodeWord, decodeSlot, decodeVx]
theorem vexp2 (f : RForm) : Statement (.vexp2 f) :=
  of_slot (j := .vx) rfl rfl fun _ => by simp [Claims.decodeWord, decodeSlot, decodeVx]
theorem vlog2 (f : RForm) : Statement (.vlog2 f) :=
  of_slot (j := .vx) rfl rfl fun _ => by simp [Claims.decodeWord, decodeSlot, decodeVx]
theorem vdot (f : RForm) : Statement (.vdot f) :=
  of_slot (j := .vx) rfl rfl fun _ => by simp [Claims.decodeWord, decodeSlot, decodeVx]
theorem mand (f : RForm) : Statement (.mand f) :=
  of_slot (j := .vx) rfl rfl fun _ => by simp [Claims.decodeWord, decodeSlot, decodeVx]
theorem mor (f : RForm) : Statement (.mor f) :=
  of_slot (j := .vx) rfl rfl fun _ => by simp [Claims.decodeWord, decodeSlot, decodeVx]
theorem mxor (f : RForm) : Statement (.mxor f) :=
  of_slot (j := .vx) rfl rfl fun _ => by simp [Claims.decodeWord, decodeSlot, decodeVx]
theorem mnot (f : RForm) : Statement (.mnot f) :=
  of_slot (j := .vx) rfl rfl fun _ => by simp [Claims.decodeWord, decodeSlot, decodeVx]
theorem mpop (f : RForm) : Statement (.mpop f) :=
  of_slot (j := .vx) rfl rfl fun _ => by simp [Claims.decodeWord, decodeSlot, decodeVx]
theorem mfirst (f : RForm) : Statement (.mfirst f) :=
  of_slot (j := .vx) rfl rfl fun _ => by simp [Claims.decodeWord, decodeSlot, decodeVx]
theorem vhold (f : RForm) : Statement (.vhold f) :=
  of_slot (j := .vx) rfl rfl fun _ => by simp [Claims.decodeWord, decodeSlot, decodeVx]
theorem mma (f : MxForm) : Statement (.mma f) :=
  of_slot (j := .mx) rfl rfl fun _ => by simp [Claims.decodeWord, decodeSlot, decodeMx]
theorem mldb (f : MxForm) : Statement (.mldb f) :=
  of_slot (j := .mx) rfl rfl fun _ => by simp [Claims.decodeWord, decodeSlot, decodeMx]
theorem mrel (f : MxForm) : Statement (.mrel f) :=
  of_slot (j := .mx) rfl rfl fun _ => by simp [Claims.decodeWord, decodeSlot, decodeMx]
theorem mzero (f : MxForm) : Statement (.mzero f) :=
  of_slot (j := .mx) rfl rfl fun _ => by simp [Claims.decodeWord, decodeSlot, decodeMx]
theorem mrd (f : MrForm) : Statement (.mrd f) :=
  of_slot (j := .mx) rfl rfl fun _ => by simp [Claims.decodeWord, decodeSlot, decodeMx]
theorem mwr (f : MrForm) : Statement (.mwr f) :=
  of_slot (j := .mx) rfl rfl fun _ => by simp [Claims.decodeWord, decodeSlot, decodeMx]
theorem mstz (f : MxForm) : Statement (.mstz f) :=
  of_slot (j := .mx) rfl rfl fun _ => by simp [Claims.decodeWord, decodeSlot, decodeMx]
theorem mldz (f : MxForm) : Statement (.mldz f) :=
  of_slot (j := .mx) rfl rfl fun _ => by simp [Claims.decodeWord, decodeSlot, decodeMx]
theorem mscl (f : MsForm) : Statement (.mscl f) :=
  of_slot (j := .mx) rfl rfl fun _ => by simp [Claims.decodeWord, decodeSlot, decodeMx]
theorem rzero (f : RxForm) : Statement (.rzero f) :=
  of_slot (j := .rx) rfl rfl fun _ => by simp [Claims.decodeWord, decodeSlot, decodeRx]
theorem rfeed (f : RxForm) : Statement (.rfeed f) :=
  of_slot (j := .rx) rfl rfl fun _ => by simp [Claims.decodeWord, decodeSlot, decodeRx]
theorem rfeedl (f : RxForm) : Statement (.rfeedl f) :=
  of_slot (j := .rx) rfl rfl fun _ => by simp [Claims.decodeWord, decodeSlot, decodeRx]
theorem rqapp (f : RxForm) : Statement (.rqapp f) :=
  of_slot (j := .rx) rfl rfl fun _ => by simp [Claims.decodeWord, decodeSlot, decodeRx]
theorem rread (f : RxForm) : Statement (.rread f) := of_slot (j := .rx) rfl rfl fun hw => by
    have hb : f.op.getLsbD 4 = false := by
      simp only [Instr.wf, Bool.and_eq_true, beq_iff_eq] at hw
      simpa using congrArg (·.getLsbD 0) hw.2
    simp [Claims.decodeWord, decodeSlot, decodeRx, -BitVec.getLsbD_eq_getElem, bit_field (rxWord _ f), low_rxWord, ← bit_field, hb]
theorem rreadSt (f : RxForm) : Statement (.rreadSt f) := of_slot (j := .rx) rfl rfl fun hw => by
    have hb : f.op.getLsbD 4 = true := by
      simp only [Instr.wf, Bool.and_eq_true, beq_iff_eq] at hw
      simpa using congrArg (·.getLsbD 0) hw.2
    simp [Claims.decodeWord, decodeSlot, decodeRx, -BitVec.getLsbD_eq_getElem, bit_field (rxWord _ f), low_rxWord, ← bit_field, hb]
theorem rrhs (f : RxForm) : Statement (.rrhs f) := of_slot (j := .rx) rfl rfl fun hw => by
    have hb : f.op.getLsbD 4 = false := by
      simp only [Instr.wf, Bool.and_eq_true, beq_iff_eq] at hw
      simp [hw.2]
    simp [Claims.decodeWord, decodeSlot, decodeRx, -BitVec.getLsbD_eq_getElem, bit_field (rxWord _ f), low_rxWord, ← bit_field, hb]
theorem rrhsSt (f : RxForm) : Statement (.rrhsSt f) := of_slot (j := .rx) rfl rfl fun hw => by
    have hb : f.op.getLsbD 4 = true := by
      simp only [Instr.wf, Bool.and_eq_true, beq_iff_eq] at hw
      simp [hw.2]
    simp [Claims.decodeWord, decodeSlot, decodeRx, -BitVec.getLsbD_eq_getElem, bit_field (rxWord _ f), low_rxWord, ← bit_field, hb]
theorem rsolve (f : RxForm) : Statement (.rsolve f) :=
  of_slot (j := .rx) rfl rfl fun _ => by simp [Claims.decodeWord, decodeSlot, decodeRx]
theorem rlay (f : RxForm) : Statement (.rlay f) :=
  of_slot (j := .rx) rfl rfl fun _ => by simp [Claims.decodeWord, decodeSlot, decodeRx]
theorem rlayi (f : RxForm) : Statement (.rlayi f) :=
  of_slot (j := .rx) rfl rfl fun _ => by simp [Claims.decodeWord, decodeSlot, decodeRx]
theorem rvec (f : RxForm) : Statement (.rvec f) :=
  of_slot (j := .rx) rfl rfl fun _ => by simp [Claims.decodeWord, decodeSlot, decodeRx]
theorem angc (f : RxForm) : Statement (.angc f) :=
  of_slot (j := .rx) rfl rfl fun _ => by simp [Claims.decodeWord, decodeSlot, decodeRx]
theorem rgain (f : RxForm) : Statement (.rgain f) := of_slot (j := .rx) rfl rfl fun hw => by
    have hb : f.op.getLsbD 6 = false := by
      simp only [Instr.wf, Bool.and_eq_true, beq_iff_eq] at hw
      simpa using congrArg (·.getLsbD 0) hw.1.2
    simp [Claims.decodeWord, decodeSlot, decodeRx, -BitVec.getLsbD_eq_getElem, bit_field (rxWord _ f), low_rxWord, ← bit_field, hb]
theorem rgainTri (f : RxForm) : Statement (.rgainTri f) := of_slot (j := .rx) rfl rfl fun hw => by
    have hb : f.op.getLsbD 6 = true := by
      simp only [Instr.wf, Bool.and_eq_true, beq_iff_eq] at hw
      simpa using congrArg (·.getLsbD 0) hw.1.2
    simp [Claims.decodeWord, decodeSlot, decodeRx, -BitVec.getLsbD_eq_getElem, bit_field (rxWord _ f), low_rxWord, ← bit_field, hb]
theorem cpy (f : DxForm) : Statement (.cpy f) :=
  of_slot (j := .dx) rfl rfl fun _ => by simp [Claims.decodeWord, decodeSlot, decodeDx]
theorem cpy2 (f : DxForm) : Statement (.cpy2 f) :=
  of_slot (j := .dx) rfl rfl fun _ => by simp [Claims.decodeWord, decodeSlot, decodeDx]
theorem cpyl (f : DxForm) : Statement (.cpyl f) :=
  of_slot (j := .dx) rfl rfl fun _ => by simp [Claims.decodeWord, decodeSlot, decodeDx]
theorem cpyg (f : DxForm) : Statement (.cpyg f) :=
  of_slot (j := .dx) rfl rfl fun _ => by simp [Claims.decodeWord, decodeSlot, decodeDx]
theorem cpyr (f : DxForm) : Statement (.cpyr f) :=
  of_slot (j := .dx) rfl rfl fun _ => by simp [Claims.decodeWord, decodeSlot, decodeDx]
theorem rinit (f : DxForm) : Statement (.rinit f) :=
  of_slot (j := .dx) rfl rfl fun _ => by simp [Claims.decodeWord, decodeSlot, decodeDx]
theorem wsld (f : DxForm) : Statement (.wsld f) :=
  of_slot (j := .dx) rfl rfl fun _ => by simp [Claims.decodeWord, decodeSlot, decodeDx]
theorem shoal (f : DxForm) : Statement (.shoal f) :=
  of_slot (j := .dx) rfl rfl fun _ => by simp [Claims.decodeWord, decodeSlot, decodeDx]
theorem tide (f : DxForm) : Statement (.tide f) :=
  of_slot (j := .dx) rfl rfl fun _ => by simp [Claims.decodeWord, decodeSlot, decodeDx]
theorem tideq (f : DxForm) : Statement (.tideq f) :=
  of_slot (j := .dx) rfl rfl fun _ => by simp [Claims.decodeWord, decodeSlot, decodeDx]
theorem reefLd (f : DxForm) : Statement (.reefLd f) := of_slot (j := .dx) rfl rfl fun hw => by
    have hb : f.f.extractLsb' 8 2 = 0 := by
      simp only [Instr.wf, Bool.and_eq_true, beq_iff_eq] at hw
      simpa [extract_extract] using congrArg (·.extractLsb' 8 2) hw.2
    simp only [Claims.decodeWord, decodeSlot, decodeDx, opcode_dxWord, dxForm_dxWord, BitVec.reduceToNat,
      low_dxWord _ _ 8 2 (by decide), hb]
    rfl
theorem reefSt (f : DxForm) : Statement (.reefSt f) := of_slot (j := .dx) rfl rfl fun hw => by
    have hb : f.f.extractLsb' 8 2 = 1 := by
      simp only [Instr.wf, Bool.and_eq_true, beq_iff_eq] at hw
      simpa [extract_extract] using congrArg (·.extractLsb' 8 2) hw.2
    simp only [Claims.decodeWord, decodeSlot, decodeDx, opcode_dxWord, dxForm_dxWord, BitVec.reduceToNat,
      low_dxWord _ _ 8 2 (by decide), hb]
    rfl
theorem reefWake (f : DxForm) : Statement (.reefWake f) := of_slot (j := .dx) rfl rfl fun hw => by
    have hb : f.f.extractLsb' 8 2 = 2 := by
      simp only [Instr.wf, Bool.and_eq_true, beq_iff_eq] at hw
      simpa [extract_extract] using congrArg (·.extractLsb' 8 2) hw.2
    simp only [Claims.decodeWord, decodeSlot, decodeDx, opcode_dxWord, dxForm_dxWord, BitVec.reduceToNat,
      low_dxWord _ _ 8 2 (by decide), hb]
    rfl
theorem reefClr (f : DxForm) : Statement (.reefClr f) := of_slot (j := .dx) rfl rfl fun hw => by
    have hb : f.f.extractLsb' 8 2 = 3 := by
      simp only [Instr.wf, Bool.and_eq_true, beq_iff_eq] at hw
      simpa [extract_extract] using congrArg (·.extractLsb' 8 2) hw.2
    simp only [Claims.decodeWord, decodeSlot, decodeDx, opcode_dxWord, dxForm_dxWord, BitVec.reduceToNat,
      low_dxWord _ _ 8 2 (by decide), hb]
    rfl
theorem ctxi (f : DxForm) : Statement (.ctxi f) :=
  of_slot (j := .dx) rfl rfl fun _ => by simp [Claims.decodeWord, decodeSlot, decodeDx]
theorem cnop : Statement .cnop := of_context rfl rfl (by decide)
theorem cadd (f : CxForm) : Statement (.cadd f) :=
  of_context rfl rfl (by simp [decodeContext, ctxRow])
theorem csub (f : CxForm) : Statement (.csub f) :=
  of_context rfl rfl (by simp [decodeContext, ctxRow])
theorem cmul (f : CxForm) : Statement (.cmul f) :=
  of_context rfl rfl (by simp [decodeContext, ctxRow])
theorem cfma (d : BitVec 2) (a : BitVec 2) (b : BitVec 2) (t : BitVec 1) : Statement (.cfma d a b t) :=
  of_context (w := BitVec.cast rfl (4#6 ++ d ++ a ++ b ++ 0#1 ++ t ++ 0#18)) rfl rfl (by
    simp (disch := omega) only [decodeContext, ctxRow, opcode, BitVec.extractLsb'_cast, extract_high, extract_low,
      extract_all, Nat.reduceSub, Nat.sub_self, BitVec.reduceToNat]
    rfl)
theorem cmin (f : CxForm) : Statement (.cmin f) :=
  of_context rfl rfl (by simp [decodeContext, ctxRow])
theorem cmax (f : CxForm) : Statement (.cmax f) :=
  of_context rfl rfl (by simp [decodeContext, ctxRow])
theorem cand (d : BitVec 2) (a : BitVec 2) (b : BitVec 2) (i : BitVec 1) (k : BitVec 16) : Statement (.cand d a b i k) :=
  of_context (w := BitVec.cast rfl (7#6 ++ d ++ a ++ b ++ i ++ 0#3 ++ k)) rfl rfl (by
    simp (disch := omega) only [decodeContext, ctxRow, opcode, BitVec.extractLsb'_cast, extract_high, extract_low,
      extract_all, Nat.reduceSub, Nat.sub_self, BitVec.reduceToNat]
    rfl)
theorem cor (d : BitVec 2) (a : BitVec 2) (b : BitVec 2) (i : BitVec 1) (k : BitVec 16) : Statement (.cor d a b i k) :=
  of_context (w := BitVec.cast rfl (8#6 ++ d ++ a ++ b ++ i ++ 0#3 ++ k)) rfl rfl (by
    simp (disch := omega) only [decodeContext, ctxRow, opcode, BitVec.extractLsb'_cast, extract_high, extract_low,
      extract_all, Nat.reduceSub, Nat.sub_self, BitVec.reduceToNat]
    rfl)
theorem cxor (d : BitVec 2) (a : BitVec 2) (b : BitVec 2) (i : BitVec 1) (k : BitVec 16) : Statement (.cxor d a b i k) :=
  of_context (w := BitVec.cast rfl (9#6 ++ d ++ a ++ b ++ i ++ 0#3 ++ k)) rfl rfl (by
    simp (disch := omega) only [decodeContext, ctxRow, opcode, BitVec.extractLsb'_cast, extract_high, extract_low,
      extract_all, Nat.reduceSub, Nat.sub_self, BitVec.reduceToNat]
    rfl)
theorem cshl (d : BitVec 2) (a : BitVec 2) (b : BitVec 2) (i : BitVec 1) (k : BitVec 16) : Statement (.cshl d a b i k) :=
  of_context (w := BitVec.cast rfl (10#6 ++ d ++ a ++ b ++ i ++ 0#3 ++ k)) rfl rfl (by
    simp (disch := omega) only [decodeContext, ctxRow, opcode, BitVec.extractLsb'_cast, extract_high, extract_low,
      extract_all, Nat.reduceSub, Nat.sub_self, BitVec.reduceToNat]
    rfl)
theorem cshr (d : BitVec 2) (a : BitVec 2) (b : BitVec 2) (i : BitVec 1) (k : BitVec 16) : Statement (.cshr d a b i k) :=
  of_context (w := BitVec.cast rfl (11#6 ++ d ++ a ++ b ++ i ++ 0#3 ++ k)) rfl rfl (by
    simp (disch := omega) only [decodeContext, ctxRow, opcode, BitVec.extractLsb'_cast, extract_high, extract_low,
      extract_all, Nat.reduceSub, Nat.sub_self, BitVec.reduceToNat]
    rfl)
theorem cli (d : BitVec 2) (t : BitVec 1) (k : BitVec 16) : Statement (.cli d t k) :=
  of_context (w := BitVec.cast rfl (12#6 ++ d ++ 0#4 ++ 1#1 ++ t ++ 0#2 ++ k)) rfl rfl (by
    simp (disch := omega) only [decodeContext, ctxRow, opcode, BitVec.extractLsb'_cast, extract_high, extract_low,
      extract_all, Nat.reduceSub, Nat.sub_self, BitVec.reduceToNat]
    rfl)
theorem cmov (d : BitVec 2) (a : BitVec 2) : Statement (.cmov d a) :=
  of_context (w := BitVec.cast rfl (13#6 ++ d ++ a ++ 0#22)) rfl rfl (by
    simp (disch := omega) only [decodeContext, ctxRow, opcode, BitVec.extractLsb'_cast, extract_high, extract_low,
      extract_all, Nat.reduceSub, Nat.sub_self, BitVec.reduceToNat]
    rfl)
theorem ccmp (f : CxForm) : Statement (.ccmp f) :=
  of_context rfl rfl (by simp [decodeContext, ctxRow])
theorem cbr (c : BitVec 1) (t : BitVec 12) : Statement (.cbr c t) := of_context (w := BitVec.cast rfl (15#6 ++ 0#1 ++ c ++ 0#12 ++ t)) rfl rfl (by
    simp (disch := omega) only [decodeContext, ctxRow, opcode, BitVec.extractLsb'_cast, extract_high, extract_low,
      extract_all, Nat.reduceSub, Nat.sub_self, BitVec.reduceToNat]
    rw [bit_field]
    simp (disch := omega) only [BitVec.extractLsb'_cast, extract_high, extract_low, extract_all, Nat.reduceSub]
    rfl)
theorem cj (t : BitVec 12) : Statement (.cj t) :=
  of_context (w := BitVec.cast rfl (16#6 ++ 0#14 ++ t)) rfl rfl (by
    simp (disch := omega) only [decodeContext, ctxRow, opcode, BitVec.extractLsb'_cast, extract_high, extract_low,
      extract_all, Nat.reduceSub, Nat.sub_self, BitVec.reduceToNat]
    rfl)
theorem cldn (d : BitVec 2) (n : BitVec 20) : Statement (.cldn d n) :=
  of_context (w := BitVec.cast rfl (17#6 ++ d ++ 0#4 ++ n)) rfl rfl (by
    simp (disch := omega) only [decodeContext, ctxRow, opcode, BitVec.extractLsb'_cast, extract_high, extract_low,
      extract_all, Nat.reduceSub, Nat.sub_self, BitVec.reduceToNat]
    rfl)
theorem clde (d : BitVec 2) (a : BitVec 2) (n : BitVec 20) : Statement (.clde d a n) :=
  of_context (w := BitVec.cast rfl (18#6 ++ d ++ a ++ 0#2 ++ n)) rfl rfl (by
    simp (disch := omega) only [decodeContext, ctxRow, opcode, BitVec.extractLsb'_cast, extract_high, extract_low,
      extract_all, Nat.reduceSub, Nat.sub_self, BitVec.reduceToNat]
    rfl)
theorem cste (a : BitVec 2) : Statement (.cste a) :=
  of_context (w := BitVec.cast rfl (19#6 ++ 0#2 ++ a ++ 0#22)) rfl rfl (by
    simp (disch := omega) only [decodeContext, ctxRow, opcode, BitVec.extractLsb'_cast, extract_high, extract_low,
      extract_all, Nat.reduceSub, Nat.sub_self, BitVec.reduceToNat]
    rfl)
theorem cwake (n : BitVec 20) : Statement (.cwake n) :=
  of_context (w := BitVec.cast rfl (20#6 ++ 0#6 ++ n)) rfl rfl (by
    simp (disch := omega) only [decodeContext, ctxRow, opcode, BitVec.extractLsb'_cast, extract_high, extract_low,
      extract_all, Nat.reduceSub, Nat.sub_self, BitVec.reduceToNat]
    rfl)
theorem cwait (c : BitVec 4) : Statement (.cwait c) :=
  of_context (w := BitVec.cast rfl (21#6 ++ 0#22 ++ c)) rfl rfl (by
    simp (disch := omega) only [decodeContext, ctxRow, opcode, BitVec.extractLsb'_cast, extract_high, extract_low,
      extract_all, Nat.reduceSub, Nat.sub_self, BitVec.reduceToNat]
    rfl)
theorem csleep : Statement .csleep :=
  of_context (w := BitVec.cast rfl (22#6 ++ 0#26)) rfl rfl (by
    simp (disch := omega) only [decodeContext, ctxRow, opcode, BitVec.extractLsb'_cast, extract_high, extract_low,
      extract_all, Nat.reduceSub, Nat.sub_self, BitVec.reduceToNat]
    rfl)
theorem cdone : Statement .cdone :=
  of_context (w := BitVec.cast rfl (23#6 ++ 0#26)) rfl rfl (by
    simp (disch := omega) only [decodeContext, ctxRow, opcode, BitVec.extractLsb'_cast, extract_high, extract_low,
      extract_all, Nat.reduceSub, Nat.sub_self, BitVec.reduceToNat]
    rfl)
theorem cemit (a : BitVec 2) (t : BitVec 1) (o : BitVec 2) : Statement (.cemit a t o) :=
  of_context (w := BitVec.cast rfl (24#6 ++ 0#2 ++ a ++ 0#3 ++ t ++ 0#16 ++ o)) rfl rfl (by
    simp (disch := omega) only [decodeContext, ctxRow, opcode, BitVec.extractLsb'_cast, extract_high, extract_low,
      extract_all, Nat.reduceSub, Nat.sub_self, BitVec.reduceToNat]
    rfl)
theorem catom (d : BitVec 2) (a : BitVec 2) (t : BitVec 1) (o : BitVec 2) : Statement (.catom d a t o) :=
  of_context (w := BitVec.cast rfl (25#6 ++ d ++ a ++ 0#3 ++ t ++ 0#16 ++ o)) rfl rfl (by
    simp (disch := omega) only [decodeContext, ctxRow, opcode, BitVec.extractLsb'_cast, extract_high, extract_low,
      extract_all, Nat.reduceSub, Nat.sub_self, BitVec.reduceToNat]
    rfl)
theorem ccvt (d : BitVec 2) (a : BitVec 2) (v : BitVec 1) : Statement (.ccvt d a v) :=
  of_context (w := BitVec.cast rfl (26#6 ++ d ++ a ++ 0#21 ++ v)) rfl rfl (by
    simp (disch := omega) only [decodeContext, ctxRow, opcode, BitVec.extractLsb'_cast, extract_high, extract_low,
      extract_all, Nat.reduceSub, Nat.sub_self, BitVec.reduceToNat]
    rfl)
theorem unassignedOpcode (slot : Slot) (w : Word32) : Statement (.unassignedOpcode slot w) :=
  fun _ h => absurd rfl (h slot w)
theorem resultLands : Statement .resultLands := of_event rfl rfl
theorem variableOpComplete : Statement .variableOpComplete := of_event rfl rfl
theorem writeAcknowledge : Statement .writeAcknowledge := of_event rfl rfl
theorem sBundleComplete : Statement .sBundleComplete := of_event rfl rfl
theorem wBundleComplete : Statement .wBundleComplete := of_event rfl rfl
theorem energyWindowEnd : Statement .energyWindowEnd := of_event rfl rfl
theorem barrierArrival : Statement .barrierArrival := of_event rfl rfl
theorem clusterStart : Statement .clusterStart := of_event rfl rfl
theorem budgetOverrun : Statement .budgetOverrun := of_event rfl rfl
theorem waitxTimeout : Statement .waitxTimeout := of_event rfl rfl
theorem wwaitTimeout : Statement .wwaitTimeout := of_event rfl rfl
theorem copyComplete : Statement .copyComplete := of_event rfl rfl
theorem cpylProgress : Statement .cpylProgress := of_event rfl rfl
theorem mmaWrite : Statement .mmaWrite := of_event rfl rfl
theorem tideChunkLoad : Statement .tideChunkLoad := of_event rfl rfl
theorem chunkCommit : Statement .chunkCommit := of_event rfl rfl
theorem sweepPause : Statement .sweepPause := of_event rfl rfl
theorem tideEnd : Statement .tideEnd := of_event rfl rfl
theorem refreshWindowStart : Statement .refreshWindowStart := of_event rfl rfl
theorem refreshWindowEnd : Statement .refreshWindowEnd := of_event rfl rfl
theorem fetchFault : Statement .fetchFault := of_event rfl rfl
theorem deferredTrap : Statement .deferredTrap := of_event rfl rfl
theorem demandFaultNotice : Statement .demandFaultNotice := of_event rfl rfl
theorem tresResume : Statement .tresResume := of_event rfl rfl
theorem tresSkip : Statement .tresSkip := of_event rfl rfl
theorem tresEnd : Statement .tresEnd := of_event rfl rfl
theorem svdone : Statement .svdone := of_event rfl rfl
theorem boundarySave : Statement .boundarySave := of_event rfl rfl
theorem clusterRestore : Statement .clusterRestore := of_event rfl rfl
theorem thermalTrip : Statement .thermalTrip := of_event rfl rfl
theorem migrationMove : Statement .migrationMove := of_event rfl rfl
theorem sensorReading : Statement .sensorReading := of_event rfl rfl
theorem regrant : Statement .regrant := of_event rfl rfl
theorem coveGate : Statement .coveGate := of_event rfl rfl
theorem coveWakeRequest : Statement .coveWakeRequest := of_event rfl rfl
theorem coveWakeGrant : Statement .coveWakeGrant := of_event rfl rfl
theorem coveUsable : Statement .coveUsable := of_event rfl rfl
theorem covePowerupFail : Statement .covePowerupFail := of_event rfl rfl
theorem homeRequest : Statement .homeRequest := of_event rfl rfl
theorem fresRetry : Statement .fresRetry := of_event rfl rfl
theorem fresDecline : Statement .fresDecline := of_event rfl rfl
theorem faultRequestTimeout : Statement .faultRequestTimeout := of_event rfl rfl
theorem htinvPage : Statement .htinvPage := of_event rfl rfl
theorem htinvTenant : Statement .htinvTenant := of_event rfl rfl
theorem htinvAll : Statement .htinvAll := of_event rfl rfl
theorem htinvDone : Statement .htinvDone := of_event rfl rfl
theorem regionMerge : Statement .regionMerge := of_event rfl rfl
theorem queueRegister : Statement .queueRegister := of_event rfl rfl
theorem queueNotify : Statement .queueNotify := of_event rfl rfl
theorem graphKick : Statement .graphKick := of_event rfl rfl
theorem packetStart : Statement .packetStart := of_event rfl rfl
theorem packetRetire : Statement .packetRetire := of_event rfl rfl
theorem hdrTimeout : Statement .hdrTimeout := of_event rfl rfl
theorem depTimeout : Statement .depTimeout := of_event rfl rfl
theorem runTimeout : Statement .runTimeout := of_event rfl rfl
theorem depFallbackPoll : Statement .depFallbackPoll := of_event rfl rfl
theorem workingSetTimeout : Statement .workingSetTimeout := of_event rfl rfl
theorem tkill : Statement .tkill := of_event rfl rfl
theorem hwkeyArm : Statement .hwkeyArm := of_event rfl rfl
theorem hwake : Statement .hwake := of_event rfl rfl
theorem svfail : Statement .svfail := of_event rfl rfl
theorem dieProbe : Statement .dieProbe := of_event rfl rfl
theorem ucieLinkDown : Statement .ucieLinkDown := of_event rfl rfl
theorem dieResetDone : Statement .dieResetDone := of_event rfl rfl
theorem passengerEnumerate : Statement .passengerEnumerate := of_event rfl rfl
theorem passengerIsolate : Statement .passengerIsolate := of_event rfl rfl
theorem controlDieCrash : Statement .controlDieCrash := of_event rfl rfl
theorem laneFail : Statement .laneFail := of_event rfl rfl
theorem portDown : Statement .portDown := of_event rfl rfl
theorem remoteRequestTimeout : Statement .remoteRequestTimeout := of_event rfl rfl
theorem portRequest : Statement .portRequest := of_event rfl rfl
theorem keyFailureResponse : Statement .keyFailureResponse := of_event rfl rfl
theorem flitCrcFail : Statement .flitCrcFail := of_event rfl rfl
theorem hostBar4Request : Statement .hostBar4Request := of_event rfl rfl
theorem scaleoutRegister : Statement .scaleoutRegister := of_event rfl rfl
theorem scaleoutDoorbell : Statement .scaleoutDoorbell := of_event rfl rfl
theorem scaleoutEntryDone : Statement .scaleoutEntryDone := of_event rfl rfl
theorem checkCodeError : Statement .checkCodeError := of_event rfl rfl
theorem packageReset : Statement .packageReset := of_event rfl rfl
theorem bootImageOffer : Statement .bootImageOffer := of_event rfl rfl
theorem registerWrite : Statement .registerWrite := of_event rfl rfl
theorem tileFetchLineArrival : Statement .tileFetchLineArrival := of_event rfl rfl
theorem workingSetAnswer : Statement .workingSetAnswer := of_event rfl rfl
theorem portTrained : Statement .portTrained := of_event rfl rfl

end Sys2Proof.Laws.RoundTrip
end

