-- ==== Sys2Proof/Laws/Scalar.lean ====
section
/-! SUPPORT. The scalar operations: bitwise forms, shifts, counts, compares, bit fields (R205 to R208) and the floating forms (R209 to R212). -/

set_option linter.all false

namespace Sys2Proof.Laws

open Machine Claims

theorem iw_pos (f : RForm) : 0 < iw f := by rcases iw_cases f with h | h | h | h <;> omega

theorem iw_le (f : RForm) : iw f ≤ 64 := by rcases iw_cases f with h | h | h | h <;> omega

theorem pattern_nat (f : RForm) (x : Double) : f.pattern x = (pattern f x).toNat := by
  simp [RForm.pattern, pattern, width_eq]

theorem okInt_sat {f : RForm} (h : f.okInt = true) : f.sat = false := by
  unfold RForm.okInt at h
  have h' : f.fn.extractLsb' 0 2 = 0 := by simpa using h
  have := congrArg (fun x => x.getLsbD 1) h'
  simpa [RForm.sat] using this

theorem ofInt_bmod (w : Nat) (hw : 0 < w) (h64 : w ≤ 64) (t : Int) :
    (BitVec.ofInt 64 (readInt true w (t % 2 ^ w).toNat)) = (BitVec.ofInt w t).signExtend 64 := by
  rw [readInt_signed _ _ hw]
  have : BitVec.ofNat w (t % 2 ^ w).toNat = BitVec.ofInt w t := by
    have h1 : (t % 2 ^ w).toNat < 2 ^ w := by
      have h0 : 0 ≤ t % 2 ^ w := Int.emod_nonneg _ (by positivity)
      have h1 : t % 2 ^ w < 2 ^ w := Int.emod_lt_of_pos _ (by positivity)
      have : ((t % 2 ^ w).toNat : Int) < (2 ^ w : Nat) := by push_cast; omega
      exact_mod_cast this
    apply BitVec.eq_of_toNat_eq; simp [Nat.mod_eq_of_lt h1]
  rw [this]; rfl

theorem ofInt_umod (w : Nat) (t : Int) :
    (BitVec.ofInt 64 (readInt false w (t % 2 ^ w).toNat)) = (BitVec.ofInt w t).setWidth 64 := by
  apply BitVec.eq_of_toNat_eq
  have h0 : 0 ≤ t % 2 ^ w := Int.emod_nonneg _ (by positivity)
  have h1 : t % 2 ^ w < 2 ^ w := Int.emod_lt_of_pos _ (by positivity)
  have h2 : (t % 2 ^ w).toNat < 2 ^ w := by
    have : ((t % 2 ^ w).toNat : Int) < (2 ^ w : Nat) := by push_cast; omega
    exact_mod_cast this
  simp [readInt, Nat.mod_eq_of_lt h2]
  rw [max_eq_left h0]
  omega

theorem extended (f : RForm) (t : Int) (hs : f.sat = false) (p : BitVec (iw f)) (hp : BitVec.ofInt (iw f) t = p) :
    Extended f p (intReg f.signed f.sat f.width t) := by
  unfold Extended intReg RForm.signed
  rw [hs, width_eq, ← hp]
  cases h : f.fn.getLsbD 2
  · simp only [Bool.false_eq_true, if_false, beq_self_eq_true]; rw [ofInt_bmod _ (iw_pos f) (iw_le f)]
  · simp only [Bool.false_eq_true, if_false, if_true, beq_iff_eq, reduceCtorEq]; exact ofInt_umod _ _

theorem bitwise {i : RForm → Instr} {op : Nat → Nat → Nat} {op' : (f : RForm) → BitVec (iw f) → BitVec (iw f) → BitVec (iw f)}
    (hw : ∀ f, (i f).wf = f.okInt)
    (h : ∀ f s, exec (i f) s = .next (sxBits (i f) f op s))
    (ho : ∀ f x y, op (x : BitVec (iw f)).toNat y.toNat = (op' f x y).toNat) : Bitwise i op' := by
  intro f s hr
  refine ⟨_, extended f (op (pattern f (s.team.rs f.a)).toNat (pattern f (s.team.rs f.b)).toNat : Nat)
    (okInt_sat (hw f ▸ hr.1)) _ ?_, ?_⟩
  · rw [ho]; simp
  · rw [h, sxBits, sxGuarded_eq hr, width_eq, pattern_nat, pattern_nat]

theorem shift {i : RForm → Instr} {op : RForm → Double → Nat → Int} {op' : (f : RForm) → BitVec (iw f) → BitVec (iw f) → BitVec (iw f)}
    (hw : ∀ f, (i f).wf = f.okInt)
    (h : ∀ f s, exec (i f) s = .next (sxShift (i f) f (op f) s))
    (ho : ∀ f x y, BitVec.ofInt (iw f) (op f x (y.toNat % iw f)) = op' f (pattern f x) (pattern f y)) : Bitwise i op' := by
  intro f s hr
  refine ⟨_, extended f _ (okInt_sat (hw f ▸ hr.1)) _ (ho f _ _), ?_⟩
  rw [h, sxShift, sxGuarded_eq hr, width_eq]

theorem mod_mod_iw (f : RForm) (y : Nat) : y % 2 ^ iw f % iw f = y % iw f := by
  apply Nat.mod_mod_of_dvd
  rcases iw_cases f with h | h | h | h <;> rw [h] <;> decide

theorem icond_eq {c : BitVec 3} {w : Nat} (hw : 0 < w) (hc : c ≠ 7) (x y : Double) (h64 : w ≤ 64) :
    icond c w x.toNat y.toNat = Compares c (x.setWidth w) (y.setWidth w) := by
  unfold icond Compares
  rw [readInt_signed _ _ hw, readInt_signed _ _ hw]
  have hx : BitVec.ofNat w x.toNat = x.setWidth w := by apply BitVec.eq_of_toNat_eq; simp
  have hy : BitVec.ofNat w y.toNat = y.setWidth w := by apply BitVec.eq_of_toNat_eq; simp
  rw [hx, hy]
  have e : ∀ a b : BitVec w, a = b ↔ a.toNat = b.toNat := fun a b => ⟨fun h => h ▸ rfl, BitVec.eq_of_toNat_eq⟩
  have : c = 0 ∨ c = 1 ∨ c = 2 ∨ c = 3 ∨ c = 4 ∨ c = 5 ∨ c = 6 := by revert c; decide
  rcases this with rfl | rfl | rfl | rfl | rfl | rfl | rfl
  · simp [e]; rw [Bool.eq_iff_iff]; simp [e]
  · simp [e]; rw [Bool.eq_iff_iff]; simp [e]
  · simp [BitVec.slt]
  · simp [BitVec.slt]; rw [← decide_not]; simp
  · simp [BitVec.ult]
  · simp [BitVec.ult]; rw [← decide_not]; simp
  · simp [e]; rw [Bool.eq_iff_iff]; simp [e]

theorem foldl_count (x : Double) (n k : Nat) :
    (List.range n).foldl (fun m i => m + (x.getLsbD i).toNat) k = k + (List.range n).countP fun i => x.getLsbD i := by
  induction n with
  | zero => simp
  | succ n ih =>
    rw [List.range_succ, List.foldl_append, ih, List.countP_append]
    simp only [List.foldl_cons, List.foldl_nil, List.countP_cons, List.countP_nil]
    cases x.getLsbD n <;> simp <;> omega

theorem count_low (x : Double) (w : Nat) (h : w ≤ 64) :
    (List.range 64).countP (fun i => (dbl (x.toNat % 2 ^ w)).getLsbD i) = (List.range w).countP fun i => x.getLsbD i := by
  have e : List.range 64 = List.range w ++ (List.range (64 - w)).map (w + ·) := by
    rw [← List.range_add]; congr 1; omega
  rw [e, List.countP_append]
  have h1 : ((List.range (64 - w)).map (w + ·)).countP (fun i => (dbl (x.toNat % 2 ^ w)).getLsbD i) = 0 := by
    rw [List.countP_eq_zero]; intro i hi
    simp at hi; obtain ⟨j, hj, rfl⟩ := hi
    simp [dbl, BitVec.getLsbD_ofNat, Nat.testBit_mod_two_pow]
  rw [h1, Nat.add_zero]
  apply List.countP_congr
  intro i hi
  simp at hi
  rw [Bool.eq_iff_iff.symm]
  simp only [dbl, BitVec.getLsbD_ofNat, Nat.testBit_mod_two_pow, hi, show i < 64 by omega, decide_true, Bool.true_and, BitVec.testBit_toNat]

theorem amount_eq (f : IForm) (h : f.imm.extractLsb' 6 8 == 0) : f.amount = f.imm.toNat := by
  have h : f.imm.extractLsb' 6 8 = 0 := by simpa using h
  have := congrArg BitVec.toNat h
  simp [IForm.amount, Nat.shiftRight_eq_div_pow] at *
  have := f.imm.isLt
  omega

theorem ins_bit (old x : Double) (pos len k : Nat) (hk : k < 64) :
    (insField old x pos len).getLsbD k = if pos ≤ k ∧ k < pos + len then x.getLsbD (k - pos) else old.getLsbD k := by
  unfold insField dbl
  have h1 : ∀ m, ((m : Nat) * 2 ^ pos).testBit k = (decide (pos ≤ k) && m.testBit (k - pos)) := by
    intro m; rw [Nat.testBit_mul_two_pow]
  simp only [BitVec.getLsbD_or, BitVec.getLsbD_and, BitVec.getLsbD_not, BitVec.getLsbD_ofNat, hk, decide_true, Bool.true_and, h1,
    Nat.testBit_two_pow_sub_one, Nat.testBit_mod_two_pow, BitVec.testBit_toNat]
  by_cases hp : pos ≤ k
  · by_cases hl : k < pos + len
    · simp [hp, hl, show k - pos < len by omega]
    · simp [hl, show ¬ k - pos < len by omega]
  · simp [hp]

theorem ext_bit (x : Double) (pos len k : Nat) (sg : Bool) (hp : pos < 64) (hl : 0 < len) (hk : k < 64) :
    (extField x pos len sg).getLsbD k =
      if pos + k ≤ min 63 (pos + (len - 1)) then x.getLsbD (pos + k) else sg && x.getLsbD (min 63 (pos + (len - 1))) := by
  unfold extField
  have hn : min (pos + len) 64 - pos = min 63 (pos + (len - 1)) - pos + 1 := by omega
  simp only [hn]
  generalize ht : min 63 (pos + (len - 1)) = top
  have hb : ∀ i, (x.toNat / 2 ^ pos % 2 ^ (top - pos + 1)).testBit i = (decide (i < top - pos + 1) && x.getLsbD (pos + i)) := by
    intro i; rw [Nat.testBit_mod_two_pow, ← Nat.shiftRight_eq_div_pow, Nat.testBit_shiftRight, BitVec.testBit_toNat]
  cases sg
  · simp only [Bool.false_eq_true, if_false, dbl, BitVec.getLsbD_ofNat, hk, decide_true, Bool.true_and, hb, Bool.false_and]
    by_cases h : pos + k ≤ top
    · simp [h, show k < top - pos + 1 by omega]
    · simp [h, show ¬ k < top - pos + 1 by omega]
  · simp only [if_true, sextNat, BitVec.getLsbD_signExtend, BitVec.getLsbD_ofNat, hk, decide_true, Bool.true_and, hb,
      BitVec.msb_eq_getLsbD_last]
    by_cases h : pos + k ≤ top
    · simp [h, show k < top - pos + 1 by omega]
    · simp [h, show ¬ k < top - pos + 1 by omega]
      congr 1; omega

theorem mode_eq (s : State) (r : BitVec 3) (h : rmOk r = true) : s.team.mode r.toNat = modeOf s r := by
  unfold Team.mode modeOf
  have hf : field s.team.tsw 2 0 = (s.team.tsw.extractLsb' 0 3).toNat := by simp [field]
  have h0 : (r.toNat = 0) = (r = 0) := by
    apply propext; exact ⟨fun h => BitVec.eq_of_toNat_eq (by simpa using h), fun h => by simp [h]⟩
  simp only [h0]
  have : (if r = 0 then field s.team.tsw 2 0 else r.toNat) = (if r = 0 then s.team.tsw.extractLsb' 0 3 else r).toNat := by
    split <;> simp [hf]
  rw [this]
  generalize (if r = 0 then s.team.tsw.extractLsb' 0 3 else r) = c
  revert c; decide

theorem single_eq (x : Double) : fltBits f32 x = single x := by
  simp [fltBits, single, f32, FFmt.width]

theorem double_eq (x : Double) : fltBits f64 x = x.toNat := by
  have := x.isLt
  simp only [fltBits, f64, FFmt.width]; omega

theorem ffmt0 {f : RForm} (h : f.hi2 = 0) : f.ffmt = f32 := by simp [RForm.ffmt, h]

theorem ffmt1 {f : RForm} (h : f.hi2 = 1) : f.ffmt = f64 := by simp [RForm.ffmt, h]

theorem floating {i : RForm → Instr} {l : RForm → Nat} {l32 l64 : Nat} {op op' : FFmt → Rnd → Nat → Nat → Nat → Nat}
    (he : ∀ f s, exec (i f) s = .next (sxGuarded (i f) f.g f.ffmt.width (l f) (fun t => .s f.d (dbl (op f.ffmt (t.mode f.lo3.toNat) (fltBits f.ffmt (t.rs f.a)) (fltBits f.ffmt (t.rs f.b)) (fltBits f.ffmt (t.rs f.d))))) s))
    (h32 : ∀ f : RForm, f.hi2 = 0 → l f = l32) (h64 : ∀ f : RForm, f.hi2 = 1 → l f = l64)
    (hm : ∀ f, (i f).wf = true → rmOk f.lo3 = true)
    (ho : ∀ f m a b d, op f m a b d = op' f m a b d) : Floating i l32 l64 op' := by
  intro f s hr
  have hmode := mode_eq s f.lo3 (hm f hr.1) 
  refine ⟨fun h => ⟨_, rfl, ?_⟩, fun h => ⟨_, rfl, ?_⟩⟩
  · rw [eq_guarded (he f s) hr, h32 f h, ffmt0 h, hmode, single_eq, single_eq, single_eq, ho]; rfl
  · rw [eq_guarded (he f s) hr, h64 f h, ffmt1 h, hmode, double_eq, double_eq, double_eq, ho]; rfl

theorem fp_rm {f : RForm} (h : f.okFp = true) : rmOk f.lo3 = true := by
  simp [RForm.okFp] at h; exact h.2

theorem fp0_rm {f : RForm} (h : f.okFp0 = true) : rmOk f.lo3 = true := by
  simp [RForm.okFp0] at h; rw [h.2]; decide

theorem divl0 {f : RForm} (h : f.hi2 = 0) : divRootLat f = 12 := by simp [divRootLat, h]

theorem divl1 {f : RForm} (h : f.hi2 = 1) : divRootLat f = 18 := by simp [divRootLat, h]

theorem cvtType_eq (c : BitVec 3) : cvtType c = typeOf c := by revert c; decide

theorem fcond_eq (f : FFmt) (c : BitVec 3) (a b : Nat) : fcond f c a b = FCompares f c a b := by
  unfold fcond FCompares
  have : c = 0 ∨ c = 1 ∨ c = 2 ∨ c = 3 ∨ c = 4 ∨ c = 5 ∨ c = 6 ∨ c = 7 := by revert c; decide
  rcases this with rfl | rfl | rfl | rfl | rfl | rfl | rfl | rfl <;>
    cases h : (f.isNan a || f.isNan b) <;> simp [h] <;> (rw [Bool.eq_iff_iff]; simp)

theorem sign32 (x : Double) : f32.sign (single x) = x.getLsbD 31 := by
  unfold FFmt.sign single f32
  rw [← BitVec.testBit_toNat, Nat.testBit_eq_decide_div_mod_eq]
  simp; omega

theorem sign64 (x : Double) : f64.sign x.toNat = x.getLsbD 63 := by
  unfold FFmt.sign f64
  rw [← BitVec.testBit_toNat, Nat.testBit_eq_decide_div_mod_eq]; rfl

theorem sgn_join (k : Nat) (hk : k < 64) (n : Nat) (b : Bool) :
    dbl (n % 2 ^ k + if b then 2 ^ k else 0) = (BitVec.ofBool b ++ BitVec.ofNat k n).setWidth 64 := by
  apply BitVec.eq_of_toNat_eq
  simp only [dbl, BitVec.toNat_ofNat, BitVec.toNat_setWidth, BitVec.toNat_append, Nat.shiftLeft_eq]
  cases b
  · simp
  · simp only [if_true, BitVec.ofBool_true, BitVec.toNat_ofNat]
    rw [show (BitVec.toNat (1 : BitVec 1)) * 2 ^ k = 2 ^ k * 1 by simp, ← Nat.two_pow_add_eq_or_of_lt (Nat.mod_lt _ (by positivity)), Nat.add_comm, Nat.mul_one]

theorem rp_reg3 (t : Team) (n : BitVec 6) : t.rp (reg3 n) = t.rp (n.extractLsb' 0 3) := rfl

end Sys2Proof.Laws
end

