-- ==== Sys2Proof/Tests/Slice0.lean ====
section
/-! SUPPORT. The model's own tests: words that decode, terms that are not well formed, one step of each kind on a small state
with results worked out by hand from the spec, and for each statement of Certificates/Slice0 a state that meets what it assumes.
-/

set_option linter.all false
set_option maxRecDepth 4000

namespace Sys2Proof.Tests

open Machine Claims

/-- A team of tenant 5 at slot 0 of core 0, the owner of its engines, with the whole local memory granted. -/
def lab : State :=
  { State.reset with
      team := { Team.reset { die := 0, lcore := 0, rslot := 0 } with
        resident := true, tenant := 5, cluster := 1, tid := 0x4000, lmg := 512 * 4096 }
      core := { Core.reset 0 0 with issuing := some 0 } }

/-- The team of `lab` with an s-register, an a-register or a v-register set. -/
def withS (n : Nat) (x : Double) (s : State) : State := { s with team := { s.team with s := vput s.team.s n x } }
def withA (n : Nat) (x : Double) (s : State) : State := { s with team := { s.team with a := vput s.team.a n x } }
def withV (n : Nat) (x : Word32) (s : State) : State :=
  { s with team := { s.team with v := vput s.team.v n (Vector.replicate 64 x) } }

/-- An address in the team's own LM (R344). -/
def own (o : Nat) : Double := BitVec.ofNat 64 (0x00ffffffffe00000 + o)

/-- What the next state shows, of an operation that answers one. -/
def shows {α : Type} (d : α) (f : State → α) (i : Instr) (s : State) : α :=
  match exec i s with
  | .next t => f t
  | _ => d

/-- The results that an operation puts in flight, and the trap that it raises. -/
def results (i : Instr) (s : State) : List Write := shows [] (fun t => t.team.flight.map (·.write)) i s
def trapOf (i : Instr) (s : State) : Option (Nat × Nat) := shows none (fun t => t.team.trap.map fun x => (x.cause, x.addr)) i s
def completes (i : Instr) (s : State) : Bool := shows false (fun _ => true) i s

/-! ## Decoding: words laid out bit by bit from the tables of spec/04_bundle_encoding.md -/

/-- R110, R113: mask, S, W, E, op and the operand of three control operations. -/
theorem test_decode_control :
    decodeCt 0b0000000_0_0_0000_00010_11_0101_10000000#32 = .brc 3 5 0x80 ∧
    decodeCt 0b0000000_0_0_0000_00111_1_1111_001001_000#32 = .loop 1 15 0b001001000 ∧
    decodeCt 0b0000000_0_0_0000_01111_0010_0000000101#32 = .waitx 2 5 ∧
    decodeCt 0b0000000_0_0_0000_10000_11_1000_00000000#32 = .clkdiv 3 8 0 ∧
    decodeCt 0b0000000_1_1_1111_10100_111110_11111111#32 = .wwait 62 255 := by decide

/-- R114, R116: the register, I and L forms of SX. -/
theorem test_decode_scalar :
    decodeSlot .sx 0b000011_000001_000010_10000000000001#32 = .addi { d := 1, a := 2, imm := 0x2001 } ∧
    decodeSlot .sx 0b011011_111110_10000000000000000001#32 = .li { d := 62, imm := 0x80001 } ∧
    decodeSlot .sx 0b100011_000011_000100_000101_000_01010#32 = .ffma { d := 3, a := 4, b := 5, g := 0, fn := 10 } ∧
    decodeSlot .sx 0b000000_00000000000000000000000001#32 = .unassignedOpcode .sx 1 := by decide

/-- R117: CSRR's twelve-bit number stands in the fields a and b; XFENCE's paths in b. -/
theorem test_decode_address :
    decodeSlot .ad 0b000111_001010_000100_000101_000_00000#32 = .csrr { d := 10, a := 4, b := 5, g := 0, fn := 0 } ∧
    decodeSlot .ad 0b001010_000000_000000_000011_000_00000#32 = .xfence { d := 0, a := 0, b := 3, g := 0, fn := 0 } ∧
    decodeSlot .ad 0b000001_000011_000111_000000_001_00000#32 = .amov { d := 3, a := 7, b := 0, g := 1, fn := 0 } := by
  decide

/-- R118, R120: the fields of the LS word. -/
theorem test_decode_load_store :
    decodeSlot .ls 0b001000_000111_0010_0_100_000101_10_011_0#32 =
      .stvx { data := 7, a := 2, pi := 0, ty := 4, low := 0b000101100110 } ∧
    decodeSlot .ls 0b001011_000110_1111_1_110_101_1000_00000#32 =
      .amo { data := 6, a := 15, pi := 1, ty := 6, low := 0b101100000000 } := by decide

/-- R121: VCMP's condition and destination share d; MFIRST names its mask in the low bits of a. -/
theorem test_decode_vector :
    decodeSlot .vx 0b001110_010011_000001_000010_101_10000#32 = .vcmp { d := 0b010011, a := 1, b := 2, g := 5, fn := 16 } ∧
    decodeSlot .vx 0b100101_001000_000110_000000_000_00000#32 = .mfirst { d := 8, a := 6, b := 0, g := 0, fn := 0 } := by
  decide

/-- R122's worked word, and the layouts of MRD and MSCL (R124). -/
theorem test_decode_matrix :
    decodeSlot .mx 0x04179115#32 =
      .mma { z := 0, aA := 2, aB := 15, n16 := 8, msel := 2, fmt := 2, clr := 1, hold := 0, rel := 1 } ∧
    decodeSlot .mx 0b000101_011_000111_1111111_1_000000000#32 = .mrd { z := 3, v := 7, row := 127, half := 1, low := 0 } ∧
    decodeSlot .mx 0b001000_001_11111110_000010_01_0000000#32 = .mscl { z := 1, k := 0xfe, n16 := 2, msel := 1, low := 0 } := by
  decide

/-- R125: RREAD is one operation or two by its direction bit. -/
theorem test_decode_rotation :
    decodeSlot .rx 0b000101_000111_000000_000000_000_0_1111#32 = .rread { vd := 7, va := 0, vb := 0, op := 15 } ∧
    decodeSlot .rx 0b000101_000000_000111_000000_000_1_1111#32 = .rreadSt { vd := 0, va := 7, vb := 0, op := 31 } ∧
    decodeSlot .rx 0b001000_000001_000010_000011_101_0000_1#32 = .rlay { vd := 1, va := 2, vb := 3, op := 0b10100001 } := by
  decide

/-- R126: a CPYG and the four operations of REEF. -/
theorem test_decode_copy :
    decodeSlot .dx 0b000100_0001_0010_000011_110_1111_00000#32 = .cpyg { aD := 1, aS := 2, cr := 3, f := 0b110111100000 } ∧
    decodeSlot .dx 0b001011_0000_0010_000000_01_00_00000000#32 = .reefLd { aD := 0, aS := 2, cr := 0, f := 0x400 } ∧
    decodeSlot .dx 0b001011_0000_0010_000000_01_01_00000000#32 = .reefSt { aD := 0, aS := 2, cr := 0, f := 0x500 } ∧
    decodeSlot .dx 0b001011_0000_0000_000000_01_10_00000000#32 = .reefWake { aD := 0, aS := 0, cr := 0, f := 0x600 } ∧
    decodeSlot .dx 0b001011_0000_0000_000000_11_11_00000000#32 = .reefClr { aD := 0, aS := 0, cr := 0, f := 0xf00 } := by
  decide

/-- R127 to R129: context words. -/
theorem test_decode_context :
    decodeContext 0b010001_10_00_00_11111111111111111111#32 = .ok (.cldn 2 0xfffff) ∧
    decodeContext 0b001111_01_00_00_00000000_111111111111#32 = .ok (.cbr 1 0xfff) ∧
    decodeContext 0b011001_10_11_00_0_1_0000000000000000_10#32 = .ok (.catom 2 3 1 2) ∧
    decodeContext 0b011010_00_01_00_0000000000000000000_1#32 = .ok (.ccvt 0 1 1) := by decide

/-- R105: after the CT word come the words of the slots that the mask names, in slot order. -/
theorem test_decode_bundle :
    (decodeBundle (wordBytes 0b1000001_1_0_0011_00000_00000000000000#32 ++ wordBytes 0x11#32 ++ wordBytes 0x22#32)).toOption =
      some ({ mask := 0b1000001, s := true, w := false, e := 3, ct := 0x83180000, words := [0x11, 0, 0, 0, 0, 0, 0x22] }, []) := by
  decide

/-- R105: a bundle whose last word is missing is refused. -/
theorem test_bundle_too_short :
    (decodeBundle (wordBytes 0b1000001_0_0_0000_00000_00000000000000#32 ++ wordBytes 0x11#32)).toOption = none := by decide
/-! ## Reserved values: each term breaks one check, and the check refuses it -/

def refuses (is : List Instr) : Bool := is.all fun i => !i.wf

/-- Fields that no register-form check refuses. -/
def plainR : RForm := { d := 0, a := 0, b := 0, g := 0, fn := 0 }
def plainI : IForm := { d := 0, a := 0, imm := 0 }
def plainLs : LsForm := { data := 0, a := 0, pi := 0, ty := 0, low := 0 }
def plainMx : MxForm := { z := 0, aA := 0, aB := 0, n16 := 0, msel := 0, fmt := 0, clr := 0, hold := 0, rel := 0 }
def shapedMx : MxForm := { plainMx with n16 := 8 }
def plainRx : RxForm := { vd := 0, va := 0, vb := 0, op := 0 }
def plainDx : DxForm := { aD := 0, aS := 0, cr := 0, f := 0 }
def plainCx : CxForm := { d := 0, a := 0, b := 0, i := 0, t := 0, k := 0 }

/-- The terms from which the others differ in one field are well formed. -/
theorem test_wf_accepts : ([.brc 0 7 0, .jmpr 1 0 0, .ret 0, .loop 0 0 1, .rept 1 0 8, .yield 0 1, .node 0 1, .endTeam 0, .bara 0 0,
    .barw 0 0, .barc 0 0 0, .waitx 3 1, .clkdiv 2 2 0, .pwrq 0 0, .refw 0 0, .add plainR, .mul plainR, .clz plainR,
    .cmp plainR, .cmpi plainI, .sel plainR, .shli plainI, .ext plainI, .ins plainI, .lih { d := 0, imm := 0 }, .fadd plainR,
    .fsqrt plainR, .fmin plainR, .fcmp plainR, .fcvt plainR, .fclass plainR, .fsgn plainR, .pand plainR, .pmov plainR,
    .amov plainR, .aget plainR, .aadd plainR, .aaddi plainI, .lea plainR, .csrr plainR, .fence plainR,
    .xfence { plainR with b := 3 }, .phase plainR, .launch plainR, .pref plainR, .relw plainR, .ld plainLs, .ldv plainLs,
    .ldvs plainLs, .ldvg plainLs, .lda plainLs, .stl plainLs, .amo { plainLs with ty := 4 }, .cas { plainLs with ty := 4, data := 2 },
    .vamo plainLs, .cwb plainLs, .rput { plainLs with ty := 6 }, .rget { plainLs with ty := 7 }, .rfree plainLs,
    .ldsc { plainLs with ty := 1 }, .vadd plainR, .vfma { plainR with fn := 16 }, .vmin plainR, .vabs plainR, .vand plainR,
    .vshl plainR, .vcmp plainR, .vsel plainR, .vcvt plainR, .vpack plainR, .vred plainR, .vperm plainR, .vshuf plainR,
    .vbcast plainR, .vext plainR, .vins plainR, .viota plainR, .vrcp { plainR with fn := 16 }, .vdot plainR, .mand plainR,
    .mnot plainR, .mpop plainR, .vhold plainR, .mma shapedMx, .mldb shapedMx, .mrel plainMx, .mzero shapedMx,
    .mrd { z := 0, v := 0, row := 0, half := 0, low := 0 }, .mstz shapedMx, .mscl { z := 0, k := 0, n16 := 1, msel := 0, low := 0 },
    .rzero plainRx, .rfeed plainRx, .rfeedl plainRx, .rqapp plainRx, .rread plainRx, .rreadSt { plainRx with op := 16 },
    .rrhs plainRx, .rrhsSt { plainRx with op := 16 }, .rsolve plainRx, .rlay plainRx, .rvec plainRx, .angc plainRx,
    .rgain { plainRx with op := 1 }, .rgainTri { plainRx with op := 65 }, .cpy { plainDx with f := 1 },
    .cpy2 { plainDx with f := 0x101 }, .cpyl plainDx, .cpyg plainDx, .cpyr { plainDx with f := 1 }, .rinit plainDx, .wsld plainDx,
    .shoal plainDx, .tide plainDx, .tideq { plainDx with f := 1 }, .reefLd plainDx, .reefSt { plainDx with f := 0x100 },
    .reefWake { plainDx with f := 0x200 }, .reefClr { plainDx with f := 0x300 }, .ctxi plainDx, .cadd plainCx,
    .cand 0 0 0 0 0, .cwait 1, .cemit 0 0 2, .catom 0 0 0 2] : List Instr).all Instr.wf = true := by decide

theorem test_wf_refuses_control : refuses
    [.brc 0 8 0, .brc 1 8 0, .jmpr 1 0 1, .ret 1, .loop 0 0 0, .loop 1 0 1, .rept 0 0 0, .rept 1 0 4, .yield 0 0, .node 0 0,
     .endTeam 1, .bara 0 1, .barw 0 1, .barc 0 0 1, .waitx 4 0, .waitx 3 0, .clkdiv 0 0 0, .clkdiv 0 9 0, .clkdiv 2 1 0,
     .clkdiv 0 1 1, .pwrq 0 1, .refw 0 1] = true := by decide

theorem test_wf_refuses_scalar : refuses
    [.add { plainR with fn := 1 }, .sub { plainR with fn := 1 }, .mul { plainR with fn := 2 }, .mulh { plainR with fn := 1 },
     .div { plainR with fn := 2 }, .rem { plainR with fn := 2 }, .and { plainR with fn := 2 }, .or { plainR with fn := 2 },
     .xor { plainR with fn := 2 }, .shl { plainR with fn := 2 }, .shr { plainR with fn := 2 }, .shra { plainR with fn := 2 },
     .min { plainR with fn := 2 }, .max { plainR with fn := 2 }, .clz { plainR with b := 1 }, .clz { plainR with fn := 4 },
     .popc { plainR with b := 1 }, .cmp { plainR with d := 0b111000 }, .cmp { plainR with fn := 1 },
     .cmpi { plainI with d := 0b111000 }, .sel { plainR with fn := 1 }, .shli { plainI with imm := 64 },
     .shri { plainI with imm := 64 }, .shrai { plainI with imm := 64 }, .ext { plainI with imm := 64 },
     .ins { plainI with imm := 64 }, .ins { plainI with imm := 128 }, .lih { d := 0, imm := 0x40000 }] = true := by decide

theorem test_wf_refuses_floating : refuses
    [.fadd { plainR with fn := 16 }, .fadd { plainR with fn := 5 }, .fsub { plainR with fn := 5 }, .fmul { plainR with fn := 5 },
     .ffma { plainR with fn := 5 }, .fdiv { plainR with fn := 5 }, .fsqrt { plainR with fn := 5 }, .fsqrt { plainR with b := 1 },
     .fmin { plainR with fn := 16 }, .fmin { plainR with fn := 1 }, .fmax { plainR with fn := 1 }, .fcmp { plainR with fn := 1 },
     .fcmp { plainR with d := 0b101000 }, .fcvt { plainR with fn := 8 }, .fcvt { plainR with fn := 5 },
     .fclass { plainR with fn := 1 }, .fclass { plainR with b := 1 }, .fsgn { plainR with fn := 16 }, .fsgn { plainR with fn := 3 },
     .pand { plainR with d := 8 }, .pand { plainR with a := 8 }, .por { plainR with b := 8 }, .pxor { plainR with fn := 2 },
     .pmov { plainR with b := 1 }, .pmov { plainR with fn := 4 }, .pmov { plainR with fn := 3 }, .pmov { plainR with d := 8 },
     .pmov { plainR with a := 8 }, .pmov { plainR with fn := 1, d := 8 }, .pmov { plainR with fn := 2, a := 8 }] = true := by decide

theorem test_wf_refuses_address : refuses
    [.amov { plainR with d := 16 }, .amov { plainR with b := 1 }, .amov { plainR with fn := 1 }, .dset { plainR with d := 16 },
     .aget { plainR with a := 16 }, .aget { plainR with b := 1 }, .dget { plainR with fn := 1 }, .aadd { plainR with d := 16 },
     .aadd { plainR with a := 16 }, .aadd { plainR with fn := 1 }, .aaddi { plainI with d := 16 }, .aaddi { plainI with a := 16 },
     .lea { plainR with a := 16 }, .lea { plainR with fn := 8 }, .csrr { plainR with fn := 1 }, .csrw { plainR with fn := 1 },
     .fence { plainR with fn := 24 }, .fence { plainR with fn := 6 }, .fence { plainR with d := 1 }, .fence { plainR with a := 1 },
     .fence { plainR with b := 1 }, .xfence { plainR with b := 16 + 3 }, .xfence { plainR with b := 4 },
     .xfence { plainR with b := 3, d := 1 }, .xfence { plainR with b := 3, a := 1 }, .xfence { plainR with b := 3, fn := 1 },
     .phase { plainR with b := 9 }, .phase { plainR with d := 1 }, .phase { plainR with a := 1 }, .phase { plainR with fn := 1 },
     .launch { plainR with fn := 1 }, .pref { plainR with d := 1 }, .pref { plainR with a := 16 }, .pref { plainR with fn := 3 },
     .relw { plainR with fn := 8 }, .relw { plainR with fn := 6 }, .relw { plainR with d := 1 }, .relw { plainR with a := 1 },
     .relw { plainR with b := 1 }] = true := by decide

theorem test_wf_refuses_load_store : refuses
    [.ld { plainLs with ty := 7 }, .st { plainLs with ty := 7 }, .ldv { plainLs with ty := 5 }, .ldv { plainLs with data := 63 },
     .stv { plainLs with ty := 5 }, .ldvs { plainLs with ty := 5 }, .ldvs { plainLs with data := 63 }, .ldvs { plainLs with low := 1 },
     .stvs { plainLs with ty := 5 }, .stvs { plainLs with low := 4 }, .ldvg { plainLs with ty := 5 }, .ldvg { plainLs with data := 63 },
     .ldvg { plainLs with low := 1 }, .stvx { plainLs with ty := 5 }, .stvx { plainLs with low := 1 }, .lda { plainLs with ty := 7 },
     .lda { plainLs with low := 0xc00 }, .stl { plainLs with ty := 7 }, .stl { plainLs with low := 0xc00 },
     .stl { plainLs with low := 0x100 }, .amo { plainLs with ty := 3 }, .amo { plainLs with ty := 7 },
     .amo { plainLs with ty := 4, low := 0xc00 }, .amo { plainLs with ty := 4, low := 0x120 }, .amo { plainLs with ty := 4, low := 1 },
     .cas { plainLs with ty := 3, data := 2 }, .cas { plainLs with ty := 4, data := 2, low := 0xc00 },
     .cas { plainLs with ty := 4, data := 2, low := 1 }, .cas { plainLs with ty := 4, data := 3 }, .cas { plainLs with ty := 4 },
     .vamo { plainLs with ty := 6 }, .vamo { plainLs with data := 63 }, .cwb { plainLs with data := 1 }, .cwb { plainLs with ty := 3 },
     .cinv { plainLs with low := 0xc00 }, .cinv { plainLs with low := 1 }, .cflush { plainLs with ty := 2, pi := 1 },
     .rput { plainLs with ty := 6, a := 1 }, .rput { plainLs with ty := 6, pi := 1 }, .rput { plainLs with ty := 5 },
     .rput { plainLs with ty := 6, low := 1 }, .rget { plainLs with ty := 5 }, .rget { plainLs with ty := 6, low := 1 },
     .rget { plainLs with ty := 7, data := 63 }, .rget { plainLs with ty := 7, a := 1 }, .rfree { plainLs with a := 1 },
     .rfree { plainLs with data := 1 }, .rfree { plainLs with ty := 1 }, .ldsc plainLs] = true := by decide

theorem test_wf_refuses_vector : refuses
    [.vadd { plainR with d := 63 }, .vadd { plainR with fn := 2 }, .vadd { plainR with fn := 21 }, .vsub { plainR with fn := 4 },
     .vmul { plainR with fn := 2 }, .vfma { plainR with fn := 16, d := 63 }, .vfma plainR, .vfma { plainR with fn := 21 },
     .vmin { plainR with d := 63 }, .vmin { plainR with fn := 1 }, .vmax { plainR with fn := 1 }, .vabs { plainR with d := 63 },
     .vabs { plainR with b := 1 }, .vabs { plainR with fn := 17 }, .vabs { plainR with fn := 2 }, .vand { plainR with d := 63 },
     .vand { plainR with fn := 1 }, .vor { plainR with fn := 8 }, .vxor { plainR with fn := 1 }, .vshl { plainR with d := 63 },
     .vshl { plainR with fn := 16 }, .vshr { plainR with fn := 1 }, .vshra { plainR with fn := 16 }, .vcmp { plainR with fn := 1 },
     .vcmp { plainR with fn := 16, d := 0b101000 }, .vcmp { plainR with fn := 24 }, .vcmp { plainR with d := 0b111000 },
     .vsel { plainR with d := 63 }, .vsel { plainR with fn := 1 }, .vcvt { plainR with d := 63 }, .vcvt { plainR with b := 0b111000 },
     .vcvt { plainR with b := 7 }, .vcvt { plainR with fn := 8 }, .vcvt { plainR with fn := 5 }, .vpack { plainR with d := 63 },
     .vpack { plainR with fn := 8 }, .vpack { plainR with fn := 7 }, .vpack { plainR with g := 1 }, .vunpk { plainR with d := 63 },
     .vunpk { plainR with fn := 8 }, .vunpk { plainR with fn := 7 }, .vunpk { plainR with g := 1 }, .vred { plainR with d := 63 },
     .vred { plainR with b := 1 }, .vred { plainR with fn := 6 }, .vscan { plainR with fn := 6 }, .vperm { plainR with d := 63 },
     .vperm { plainR with fn := 1 }, .vshuf { plainR with d := 63 }, .vshuf { plainR with fn := 5 }, .vshuf { plainR with fn := 22 },
     .vbcast { plainR with d := 63 }, .vbcast { plainR with b := 1 }, .vbcast { plainR with fn := 1 }, .vext { plainR with fn := 24 },
     .vext { plainR with fn := 1 }, .vext { plainR with g := 1 }, .vins { plainR with d := 63 }, .vins { plainR with g := 1 },
     .vins { plainR with fn := 1 }, .viota { plainR with d := 63 }, .viota { plainR with a := 1 }, .viota { plainR with b := 1 },
     .viota { plainR with fn := 1 }, .vrcp { plainR with fn := 16, d := 63 }, .vrcp { plainR with fn := 16, b := 1 }, .vrsq plainR,
     .vexp2 { plainR with fn := 17 }, .vlog2 plainR, .vdot { plainR with d := 63 }, .vdot { plainR with fn := 21 },
     .vdot { plainR with fn := 1 }, .mand { plainR with d := 8 }, .mand { plainR with a := 8 }, .mor { plainR with b := 8 },
     .mor { plainR with g := 1 }, .mxor { plainR with fn := 1 }, .mnot { plainR with b := 1 }, .mpop { plainR with a := 8 },
     .mpop { plainR with b := 1 }, .mfirst { plainR with g := 1 }, .mfirst { plainR with fn := 1 }, .vhold { plainR with d := 1 },
     .vhold { plainR with b := 1 }, .vhold { plainR with g := 1 }, .vhold { plainR with fn := 1 }] = true := by decide

theorem test_wf_refuses_matrix : refuses
    [.mma { shapedMx with n16 := 0 }, .mma { shapedMx with msel := 3 }, .mma { shapedMx with z := 7, n16 := 9 },
     .mma { shapedMx with fmt := 11 }, .mma { shapedMx with aB := 15, hold := 1 }, .mldb { shapedMx with z := 1 },
     .mldb { shapedMx with aA := 1 }, .mldb { shapedMx with aB := 15 }, .mldb { shapedMx with n16 := 0 },
     .mldb { shapedMx with msel := 1 }, .mldb { shapedMx with fmt := 11 }, .mldb { shapedMx with clr := 1 },
     .mrel { plainMx with z := 1 }, .mrel { plainMx with aB := 1 }, .mrel { plainMx with n16 := 1 }, .mrel { plainMx with msel := 1 },
     .mrel { plainMx with fmt := 1 }, .mrel { plainMx with hold := 1 }, .mrel { plainMx with rel := 1 },
     .mzero { shapedMx with n16 := 0 }, .mzero { shapedMx with aA := 1 }, .mzero { shapedMx with aB := 1 },
     .mzero { shapedMx with fmt := 1 }, .mzero { shapedMx with clr := 1 },
     .mrd { z := 0, v := 0, row := 0, half := 0, low := 1 }, .mrd { z := 0, v := 63, row := 0, half := 0, low := 0 },
     .mwr { z := 0, v := 0, row := 0, half := 0, low := 1 }, .mstz { shapedMx with msel := 3 }, .mstz { shapedMx with aB := 1 },
     .mstz { shapedMx with fmt := 1 }, .mldz { shapedMx with rel := 1 }, .mscl { z := 0, k := 0, n16 := 0, msel := 0, low := 0 },
     .mscl { z := 0, k := 0, n16 := 1, msel := 0, low := 1 }] = true := by decide

theorem test_wf_refuses_rotation : refuses
    [.rzero { plainRx with vd := 1 }, .rzero { plainRx with va := 1 }, .rzero { plainRx with vb := 1 }, .rzero { plainRx with op := 1 },
     .rfeed { plainRx with vd := 1 }, .rfeed { plainRx with vb := 1 }, .rfeed { plainRx with op := 4 }, .rfeedl { plainRx with vd := 1 },
     .rfeedl { plainRx with vb := 1 }, .rfeedl { plainRx with op := 4 }, .rqapp { plainRx with vd := 63 },
     .rqapp { plainRx with vb := 1 }, .rqapp { plainRx with op := 2 }, .rread { plainRx with vd := 63 }, .rread { plainRx with va := 1 },
     .rread { plainRx with vb := 1 }, .rread { plainRx with op := 32 }, .rreadSt { plainRx with op := 16, vd := 1 },
     .rreadSt { plainRx with op := 16, vb := 1 }, .rreadSt plainRx, .rrhs { plainRx with vd := 63 }, .rrhs { plainRx with va := 1 },
     .rrhs { plainRx with vb := 1 }, .rrhs { plainRx with op := 1 }, .rrhsSt { plainRx with op := 16, vd := 1 },
     .rrhsSt { plainRx with op := 16, vb := 1 }, .rrhsSt plainRx, .rsolve { plainRx with vd := 63 }, .rsolve { plainRx with va := 1 },
     .rsolve { plainRx with vb := 1 }, .rsolve { plainRx with op := 1 }, .rlay { plainRx with vd := 63 },
     .rlay { plainRx with op := 0xc0 }, .rlayi { plainRx with op := 2 }, .rvec { plainRx with vd := 63 }, .rvec { plainRx with vb := 1 },
     .rvec { plainRx with op := 1 }, .angc { plainRx with vd := 63 }, .angc { plainRx with vb := 1 }, .angc { plainRx with op := 2 },
     .rgain { plainRx with op := 1, vd := 63 }, .rgain { plainRx with op := 1, vb := 1 }, .rgain { plainRx with op := 0x81 },
     .rgain plainRx, .rgainTri { plainRx with op := 65, vd := 1 }, .rgainTri { plainRx with op := 65, va := 1 },
     .rgainTri { plainRx with op := 65, vb := 1 }, .rgainTri { plainRx with op := 1 }, .rgainTri { plainRx with op := 64 }] = true := by
  decide

theorem test_wf_refuses_copy : refuses
    [.cpy { plainDx with f := 1, cr := 1 }, .cpy plainDx, .cpy { plainDx with f := 0x101 }, .cpy2 { plainDx with f := 0x101, cr := 1 },
     .cpy2 { plainDx with f := 0x100 }, .cpy2 { plainDx with f := 1 }, .cpyl { plainDx with aD := 1 }, .cpyl { plainDx with cr := 1 },
     .cpyl { plainDx with f := 1 }, .cpyg { plainDx with f := 0xe00 }, .cpyg { plainDx with f := 1 },
     .cpyr { plainDx with f := 1, aD := 1 }, .cpyr { plainDx with f := 1, cr := 1 }, .cpyr { plainDx with f := 0x101 }, .cpyr plainDx,
     .rinit { plainDx with aD := 1 }, .rinit { plainDx with cr := 1 }, .rinit { plainDx with f := 1 }, .wsld { plainDx with f := 1 },
     .shoal { plainDx with aD := 1 }, .shoal { plainDx with cr := 1 }, .shoal { plainDx with f := 1 }, .tide { plainDx with aD := 1 },
     .tide { plainDx with aS := 1 }, .tide { plainDx with f := 1 }, .tideq { plainDx with f := 1, aD := 1 },
     .tideq { plainDx with f := 1, aS := 1 }, .tideq { plainDx with f := 0x101 }, .tideq plainDx, .reefLd { plainDx with aD := 1 },
     .reefLd { plainDx with cr := 1 }, .reefLd { plainDx with f := 1 }, .reefSt { plainDx with f := 0x100, aD := 1 },
     .reefSt { plainDx with f := 0x100, cr := 1 }, .reefSt plainDx, .reefWake { plainDx with f := 0x200, aD := 1 },
     .reefWake { plainDx with f := 0x200, aS := 1 }, .reefWake { plainDx with f := 0x200, cr := 1 }, .reefWake plainDx,
     .reefClr { plainDx with f := 0x300, aD := 1 }, .reefClr { plainDx with f := 0x300, aS := 1 },
     .reefClr { plainDx with f := 0x300, cr := 1 }, .reefClr plainDx, .ctxi { plainDx with aD := 1 }, .ctxi { plainDx with aS := 1 },
     .ctxi { plainDx with f := 1 }] = true := by decide

theorem test_wf_refuses_context : refuses
    [.cadd { plainCx with k := 1 }, .csub { plainCx with i := 1, b := 1 }, .cmul { plainCx with k := 1 }, .cmin { plainCx with k := 1 },
     .cmax { plainCx with k := 1 }, .ccmp { plainCx with i := 1, b := 1 }, .cand 0 0 0 0 1, .cor 0 0 1 1 0, .cxor 0 0 0 0 1,
     .cshl 0 0 1 1 0, .cshr 0 0 0 0 1, .cwait 2, .cemit 0 0 3, .catom 0 0 0 3] = true := by decide

/-- R498: an SX operation that holds a reserved value raises 0x0011 with no effect. -/
theorem test_reserved_value_traps : trapOf (.add { plainR with fn := 1 }) lab = some (0x0011, 0) := by decide
/-! ## One step of each kind, with results worked out by hand from the spec -/

/-- R204: an i8 sum wraps and is sign-extended; with saturation it stays at 127. -/
theorem test_add_wraps_and_saturates :
    results (.add { d := 3, a := 1, b := 2, g := 0, fn := 0b11000 }) (withS 1 0x7f (withS 2 1 lab)) = [.s 3 0xffffffffffffff80] ∧
    results (.add { d := 3, a := 1, b := 2, g := 0, fn := 0b11010 }) (withS 1 0x7f (withS 2 1 lab)) = [.s 3 0x7f] := by decide

/-- R205: the high half of a signed 64-bit product; a quotient is truncated toward 0. -/
theorem test_mulh_and_div :
    results (.mulh { d := 3, a := 1, b := 2, g := 0, fn := 0 }) (withS 1 0xffffffffffffffff (withS 2 1 lab)) =
      [.s 3 0xffffffffffffffff] ∧
    results (.div { d := 3, a := 1, b := 2, g := 0, fn := 0 }) (withS 1 0xfffffffffffffff9 (withS 2 2 lab)) =
      [.s 3 0xfffffffffffffffd] := by decide

/-- R205: a 32-bit arithmetic shift by 35 shifts by 3. -/
theorem test_shra_takes_its_amount_modulo_the_width :
    results (.shra { d := 3, a := 1, b := 2, g := 0, fn := 0b01000 }) (withS 1 0x80000000 (withS 2 35 lab)) =
      [.s 3 0xfffffffff0000000] := by decide

/-- R116: the constant of the worked example, LI and then LIH. -/
theorem test_li_and_lih :
    results (.li { d := 4, imm := 0x12345 }) lab = [.s 4 0x12345] ∧
    results (.lih { d := 4, imm := 0x38000 }) (withS 4 0x12345 lab) = [.s 4 0x8000000000012345] := by decide

/-- R111: s0 reads as 0 and discards a write. -/
theorem test_s0_is_zero :
    lab.team.rs 0 = 0 ∧ (lab.team.write (.s 0 7)) = lab.team := by decide

/-- R209, R211: 1 + 2 in f32; and the compare of a NaN. -/
theorem test_float :
    results (.fadd { d := 3, a := 1, b := 2, g := 0, fn := 0 }) (withS 1 0x3f800000 (withS 2 0x40000000 lab)) = [.s 3 0x40400000] ∧
    results (.fcmp { d := 0b000_011, a := 1, b := 1, g := 0, fn := 0 }) (withS 1 0x7fc00000 lab) = [.p 3 false] := by decide

/-- R213: AND with the second operand inverted. -/
theorem test_pand_inverts : results (.pand { d := 2, a := 0, b := 1, g := 0, fn := 1 }) lab = [.p 2 true] := by decide

/-- R115: under a false guard the slot passes and nothing is put in flight. -/
theorem test_guard_false : results (.add { d := 3, a := 1, b := 2, g := 1, fn := 0 }) lab = [] ∧
    shows 9 (fun t => t.team.passed .sx) (.add { d := 3, a := 1, b := 2, g := 1, fn := 0 }) lab = 1 := by decide

/-- R214: LEA scales its index. -/
theorem test_lea : results (.lea { d := 5, a := 1, b := 2, g := 0, fn := 3 }) (withA 1 0x100 (withS 2 5 lab)) = [.s 5 0x128] := by
  decide

/-- R179: CSRW of a read-only register raises 0x0011. -/
theorem test_csrw_read_only : trapOf (.csrw { d := 1, a := 0, b := 2, g := 0, fn := 0 }) lab = some (0x0011, 0) := by decide

/-- R222, R226: a byte of the own LM is stored, and loaded with its sign. -/
theorem test_store_then_load :
    shows 0 (fun t => t.mem.byte (lmKey 0 0 0x41)) (.st { data := 3, a := 1, pi := 0, ty := 0, low := 1 })
      (withA 1 (own 0x40) (withS 3 0x180 lab)) = 0x80 ∧
    results (.ld { data := 4, a := 1, pi := 0, ty := 0, low := 1 })
      { withA 1 (own 0x40) lab with mem := [(lmKey 0 0 0x41, 0x80)] } = [.s 4 0xffffffffffffff80] := by decide

/-- R224, R526: a double that is not 8-byte aligned, and an address outside the grant. -/
theorem test_address_faults :
    trapOf (.ld { data := 4, a := 1, pi := 0, ty := 6, low := 0 }) (withA 1 (own 4) lab) = some (0x0020, 0x00ffffffffe00004) ∧
    (trapOf (.ld { data := 4, a := 1, pi := 0, ty := 6, low := 0 })
      (withA 1 (own 0) { lab with team := { lab.team with lmg := 0 } })).map (·.1) = some 0x0021 := by decide

/-- R118, R222: post-increment adds d(a) to the address register. -/
theorem test_post_increment :
    results (.st { data := 3, a := 1, pi := 1, ty := 6, low := 0 })
      { withA 1 (own 0) lab with team := { (withA 1 (own 0) lab).team with d := vput lab.team.d 1 64 } } = [.a 1 (own 64)] := by
  decide

/-- R246, R35: lanes add modulo 2^32, and an inactive lane keeps its value. -/
theorem test_vadd_lanes :
    let s := withV 1 0xffffffff (withV 2 2 (withV 3 7 { lab with team := { lab.team with m := vput lab.team.m 1 1 } }))
    ((results (.vadd { d := 3, a := 1, b := 2, g := 1, fn := 0 }) s).map fun w =>
      let x := (s.team.write w).rv 3
      (x[0], x[1])) = [(1, 7)] := by decide

/-- R258: the lowest set bit of a mask, or 64. -/
theorem test_mfirst :
    results (.mfirst { d := 3, a := 1, b := 0, g := 0, fn := 0 })
      { lab with team := { lab.team with m := vput lab.team.m 1 0x100 } } = [.s 3 8] ∧
    results (.mfirst { d := 3, a := 1, b := 0, g := 0, fn := 0 }) lab = [.s 3 64] := by decide

/-- R40, R260: an MX operation of a team that does not own the engines raises 0x0012. -/
theorem test_not_the_owner :
    trapOf (.mzero { shapedMx with z := 0 }) { lab with team := { lab.team with tid := 0 } } = some (0x0012, 0) := by decide

/-- R78, R186: a taken branch names the target of its delay bundle. -/
theorem test_branch_target :
    shows none (fun t => t.team.delay) (.br 0x3ffe) { lab with team := { lab.team with bpc := 0x1000, pc := 0x1000 } } =
      some (some 0xff8) := by decide

/-- R289: a copy leaves its slot with an entry of the queue, its beats counted in RELC. -/
theorem test_copy_is_queued :
    shows ([], 0) (fun t => (t.core.copies.map (·.kind), t.team.relc 0)) (.cpy { aD := 1, aS := 2, cr := 0, f := 3 })
      (withA 1 (own 64) (withA 2 (own 512) lab)) =
      ([.cpy (0x00ffffffffe00040) (0x00ffffffffe00200) 0 0 3 3], 3) := by decide

/-- A sweep group of one context with registers e0 and e1. -/
def contextLab (e0 e1 : Word32) : State :=
  let r : Runner := { placedRunner with w0 := 0, e0 := e0, e1 := e1, cpc := 4 }
  { lab with core := { lab.core with
      sweep := { Sweep.idle with phase := .run, team := lab.team.ref, lanes := [0], runners := [r] },
      shoals := vput lab.core.shoals 0 (some { placedShoal with cfg := 7 * 2 ^ 40 }) } }

/-- R319: CADD writes its destination and passes to the next word; CCMP sets the condition. -/
theorem test_context_add_and_compare :
    shows [] (fun t => t.core.sweep.runners.map fun r => (r.e2, r.cpc)) (.cadd { d := 2, a := 0, b := 1, i := 0, t := 0, k := 0 })
      (contextLab 0xffffffff 3) = [(2, 5)] ∧
    shows [] (fun t => t.core.sweep.runners.map fun r => (r.cp, r.cpc)) (.ccmp { d := 2, a := 0, b := 1, i := 0, t := 0, k := 0 })
      (contextLab 0xffffffff 3) = [(true, 5)] := by decide

/-- R99, R444: an energy window ends. -/
theorem test_energy_window_ends :
    shows (9, 9) (fun t => (t.core.wsum, t.core.grant)) .energyWindowEnd
      { lab with core := { lab.core with wsum := 5, nextGrant := some 7 } } = (0, 7) := by decide

/-- R358: a write of QTMO keeps bits 47:0. -/
theorem test_register_write :
    shows 0 (fun t => t.hub.qtmo) .registerWrite { lab with occ := { id := 0x50018, w := 0xffff000000000001 } } = 1 := by decide

/-- R573: one lane of two fails. -/
theorem test_lane_fails :
    shows 9 (fun t => vget t.hub.lanes 3 0) .laneFail
      { lab with occ := { core := 3 }, hub := { lab.hub with lanes := vput lab.hub.lanes 3 2 } } = 1 := by decide

/-- R129: the words that the opcode table gives are context words; a reserved word is decoded too. -/
theorem test_fetch_word :
    decodeTableWord 32 0b001010_11_01_10_0_0_00_0000000000000000 = some (.cshl 3 1 2 0 0) ∧ decodeTableWord 32 0x6c000000 = none := by
  decide

/-- R318, R326: the next step runs the context operation that withFetchWord places. -/
theorem test_step_runs_the_word :
    (match step (State.reset.withFetchWord 32 0b001100_00_00_00_1_0_00_0000000000000101) with
     | .next t => t.core.sweep.runners.map (·.e0)
     | _ => []) = [5] := by decide
/-! ## What the statements assume can be met: scalar, address and synchronising operations -/

/-- The bundle that stands at a position of the queue. -/
def bundleAt (pos : Nat) : Placed :=
  { pos := pos, bpc := 0x100, ct := 0, words := [0, 0, 0, 0, 0, 0, 0], rept := false, lcnt := 0, target := none, delay := false,
    loop := none }

/-- A write at some scopes that is not acknowledged, and an access of the LS slot. -/
def pendingWrite (id : Nat) (core : Bool) : PendingWrite :=
  { id := id, path := .ls, pos := 0, count := 1, entries := 1, core := core, die := true, pkg := true, sys := true }
def pendingAccess (op : AccOp) (place : Place) (parts : List Part) : Access :=
  { id := 7, team := lab.team.ref, die := 0, pcore := 0, tenant := 5, slot := .ls, pos := 0, word := 0, va := 0, path := .ls,
    scope := none, rp := false, place := place, op := op, parts := parts, early := [], got := [], waits := none, sent := false, phase := .pending,
    results := [], wid := none, issued := 0 }

/-- The issuing team changed. -/
def onLab (f : Team → Team) : State := { lab with team := f lab.team }

/-- A package with one page of 1 GiB, at physical address 2^30, that tenant 5 may read and write, and a window on it from VA 2^30. -/
def site : State :=
  let k := 0x200000000000
  let win : Vector Double 8 := vput (Vector.replicate 8 0) 0 0xe000000000000010
  { lab with
      team := { lab.team with vwin := win }
      hub := { lab.hub with hptb := 0x8000000000001000,
                            partitions := [{ id := 0, dies := [0], demand := false, classM := [], classI := [], vwin := [(5, win)],
                                             vfTenant := [(3, 5)] }] }
      mem := [(k + 0x1001, 0x20), (k + 0x1007, 0x80), (k + 0x2003, 0x40), (k + 0x2005, 0x14), (k + 0x2007, 0xd8)] }

theorem test_site_translates :
    windowIpa site.team.windows .write 0x40000040 = some 0x40 ∧ homeCheck site 5 .write 0x40 = .ok 0x40000040 ∧
    homeCheck site 6 .read 0x40 = .kill 0x0103 0xd800140040000000 ∧ site.mem.wf = true := by decide

theorem ready_lab {i : Instr} (h : i.wf = true) : Ready i 0 lab := ⟨h, by decide, by unfold Room; decide⟩

/-- ScalarImmediates, ScalarArithmeticAndLogic, ScalarFloating in both formats, ScalarPredicates in its three forms of PMOV, and
AddressMoves. -/
theorem witness_ready : ∀ i ∈ ([.add plainR, .sub plainR, .mul plainR, .mulh plainR, .div plainR, .rem plainR, .min plainR, .max plainR,
    .and plainR, .or plainR, .xor plainR, .shl plainR, .shr plainR, .shra plainR, .clz plainR, .popc plainR, .cmp plainR,
    .fadd plainR, .fadd { plainR with fn := 8 }, .fsub plainR, .fmul plainR, .ffma plainR, .fdiv plainR, .fsqrt { plainR with fn := 8 },
    .fmin plainR, .fmax { plainR with fn := 8 }, .fclass plainR, .fclass { plainR with fn := 8 }, .fsgn plainR,
    .fsgn { plainR with fn := 10 }, .fcmp plainR, .fcmp { plainR with fn := 8, d := 0b100000 }, .fcvt { plainR with b := 0b111110 },
    .pand plainR, .por plainR, .pxor plainR, .pmov plainR, .pmov { plainR with fn := 1 }, .pmov { plainR with fn := 2 },
    .amov plainR, .aget plainR, .aadd plainR, .dset plainR, .dget plainR, .lea { plainR with fn := 7 }] : List Instr),
    Ready i 0 lab := fun i h => ready_lab (by revert i; decide)
theorem witness_immediates : Room lab 1 ∧ ∀ i ∈ ([.addi plainI, .andi plainI, .ori plainI, .xori plainI, .shli plainI, .shri plainI,
    .shrai plainI, .ext plainI, .ins plainI, .li { d := 0, imm := 0 }, .lih { d := 0, imm := 0 }, .cmpi plainI, .sel plainR,
    .aaddi plainI] : List Instr), i.wf = true := by unfold Room; decide

/-- SystemRegisters: the first and the last number that CSRR reads, one between that it does not, and the limits of what CSRW
writes. -/
theorem witness_csrr :
    let s := onLab fun t => { t with queue := [bundleAt 0] }
    s.team.placedAt (s.team.passed .ad) = some (bundleAt 0) ∧ Room s 1 ∧ s.team.rp 0 = true ∧ s.team.trap = none ∧
    (Instr.csrr plainR).wf = true ∧ (csrOf plainR, 1) ∈ systemRegisters s (bundleAt 0) ∧
    (csrOf { plainR with b := 0x37 }, 0) ∈ systemRegisters s (bundleAt 0) ∧
    ∀ x, (csrOf { plainR with b := 7 }, x) ∉ systemRegisters s (bundleAt 0) := by
  unfold Room systemRegisters csrOf
  refine ⟨by decide, by decide, by decide, by decide, by decide, by decide, by simp [onLab, lab, Team.reset, plainR], fun x => by simp [plainR]⟩
theorem witness_csrw : (Instr.csrw plainR).wf = true ∧ Room lab 1 ∧ lab.team.trap = none ∧
    (∀ n ∈ ([0, 8, 15] : List (BitVec 6)), Writable (csrOf { plainR with b := n })) ∧
    (∀ n ∈ ([1, 7, 16] : List (BitVec 6)), ¬ Writable (csrOf { plainR with b := n })) ∧
    ¬ (lab.team.tsw.extractLsb' 0 3 = 0 ∨ 4 < lab.team.tsw.extractLsb' 0 3) ∧
    ((lab.team.rs 0).extractLsb' 0 3 = 0) ∧ 4 < ((withS 1 5 lab).team.rs 1).extractLsb' 0 3 := by
  unfold Room Writable csrOf; decide

/-- FencesAndPhase: RELW done and waiting; the three kinds of FENCE, held and done. -/
theorem witness_relw : (Instr.relw plainR).wf = true ∧ lab.team.rp 0 = true ∧ lab.team.othersDone = true ∧ Counted lab 0 = 0 ∧
    Counted (onLab fun t => { t with writes := [pendingWrite 1 true] }) 0 ≠ 0 ∧
    (onLab fun t => { t with queue := [{ bundleAt 0 with words := [1, 0, 0, 0, 0, 0, 0] }] }).team.othersDone = false := by
  unfold Counted Unacknowledged; decide
theorem witness_fence :
    let load := onLab fun t => { t with vars := [pendingAccess (.load 3 6) .home []] }
    let store := onLab fun t => { t with vars := [{ pendingAccess .store .home [] with wid := some 1 }] }
    let noted := onLab fun t => { t with writes := [pendingWrite 2 true], fenceSet := some [1] }
    let counted := onLab fun t => { t with writes := [pendingWrite 2 true] }
    (∀ fn ∈ ([0, 8, 16] : List (BitVec 5)), (Instr.fence { plainR with fn := fn }).wf = true) ∧
    LoadsOut load ∧ ¬ LoadsOut lab ∧ StoresOut store ∧ ¬ StoresOut lab ∧
    (∀ w ∈ Unacknowledged noted 0, w.id ∉ [1]) ∧ Unacknowledged lab 0 = [] ∧ Unacknowledged counted 0 ≠ [] ∧
    ¬ StoresOut counted ∧ load.team.othersDone = true ∧ store.team.othersDone = true ∧ noted.team.othersDone = true := by
  unfold LoadsOut StoresOut Unacknowledged; decide
theorem witness_xfence :
    let f : RForm := { plainR with b := 0b1111 }
    let store := onLab fun t => { t with writes := [pendingWrite 1 true] }
    (Instr.xfence f).wf = true ∧ PathsDone f lab ∧ ¬ PathsDone f store := by unfold PathsDone; decide
theorem witness_phase :
    let f : RForm := { plainR with b := 8 }
    let waits := onLab fun t => { t with phaseEnd := some 4 }
    Ready (.phase f) 0 lab ∧ lab.die.num = lab.team.ref.die ∧ lab.team.phaseEnd = none ∧ waits.team.phaseEnd = some 4 ∧ waits.now < 4 ∧
    (4 ≤ { waits with now := 4 }.now) ∧ draining { waits with now := 4 }.die = false := by
  exact ⟨ready_lab (by decide), by decide⟩
/-- PrefetchIsAHint and LaunchIssues: a packet at VA 2^30 + 0x100, and a queue descriptor that is not aligned. -/
theorem witness_launch : (Instr.pref plainR).wf = true ∧ (Instr.launch plainR).wf = true ∧ lab.team.rp 1 = false ∧
    (∃ ps, launchParts site 0x40000000 0x40000100 = .ok ps) ∧ launchParts site 0x40000004 0x40000100 = .error (0x0020, 0x40000004) ∧
    site.team.trap = none := ⟨by decide, by decide, by decide, ⟨_, rfl⟩, by decide, by decide⟩

/-! ## Loads and stores -/

theorem quiet_lab : Quiet lab := by unfold Quiet Foreground; decide

/-- The first and the last double of the own LM. -/
theorem witness_own : OwnLm lab (own 0) 8 0 ∧ OwnLm lab (own 0x1ffff8) 8 0x1ffff8 := by unfold OwnLm; decide

/-- LoadsFromOwnLm, LaterLoadsFromOwnLm, StoresToOwnLm and AtomicsOnOwnLm, with a(1) at 0x40 and lanes 0 and 63 active. -/
def lsLab : State :=
  let s := withA 1 (own 0x40) lab
  { s with team := { s.team with m := vput s.team.m 1 0x8000000000000001 } }
def plainLsA : LsForm := { plainLs with a := 1 }
theorem witness_ls_ready : ∀ i ∈ ([.ld { plainLsA with ty := 6 }, .ldv { plainLsA with low := 0x200 }, .ldvs { plainLsA with low := 0x200 },
    .ldvg { plainLsA with low := 2 }, .lda plainLsA, .ldsc { plainLsA with ty := 1 }, .st { plainLsA with ty := 6 }, .stl plainLsA,
    .stv { plainLsA with low := 0x200 }, .stvs { plainLsA with low := 0x200 }, .stvx { plainLsA with low := 2 },
    .amo { plainLsA with ty := 6 }, .amo { plainLsA with ty := 4, low := 0x100 }, .cas { plainLsA with ty := 5, data := 2 },
    .vamo { plainLsA with low := 8 }] : List Instr), ∀ f, f.a = plainLsA.a → i.wf = true → LsReady i f lsLab := by
  intro i _ f hf hw
  refine ⟨hw, by unfold Quiet Foreground; decide, by unfold Room; decide, ?_⟩
  unfold LowBase
  rw [hf]
  decide
theorem witness_ls_address :
    OwnLm lsLab (offsetAddress { plainLsA with ty := 6 } lsLab 12 8) 8 0x40 ∧
    OwnLm lsLab (offsetAddress { plainLsA with low := 0xff } lsLab 8 1) 1 0x3f ∧
    OwnLm lsLab (lsLab.team.ra 1) 8 0x40 := by unfold OwnLm; decide
theorem witness_lanes :
    let f : LsForm := { plainLsA with low := 0x200, ty := 4 }
    let g : LsForm := { plainLsA with low := 0x242, ty := 4 }
    LanesOwn lsLab (highMask f lsLab) (unitLane f lsLab) 4 (fun i => 0x40 + 4 * i) ∧
    LanesOwn lsLab (highMask f lsLab) (strideLane f lsLab) 4 (fun _ => 0x40) ∧
    LanesOwn lsLab (indexMask g lsLab) (indexLane g 0 lsLab) 4 (fun _ => 0x40) ∧
    LanesOwn lsLab (vamoMask { plainLsA with low := 8 } lsLab) (indexLane { plainLsA with low := 8 } 2 lsLab) 4 (fun _ => 0x40) := by
  unfold LanesOwn OwnLm; decide
/-- A release that has nothing to write back, and one whose write-backs are acknowledged; an atomic that is no release and one that
is; a write at its position or before it, and one at a later position. -/
theorem witness_release :
    let writes := fun w : PendingWrite => onLab fun t => { t with writes := [w] }
    let sent := onLab fun t => { t with stlSent := true, relScopes := [0] }
    ReleaseDone plainLsA lsLab ∧ ReleaseDone { plainLsA with pi := 1 } sent ∧ NoLoadOut lsLab ∧ AtomicGoesOn plainLsA lsLab ∧
    AtomicGoesOn plainLsA sent ∧ CountedBefore (writes (pendingWrite 1 true)) plainLsA.hi3 ≠ 0 ∧
    CountedBefore (writes { pendingWrite 1 true with pos := 1 }) plainLsA.hi3 = 0 ∧
    Uncached lsLab (lmIpa 0 0 0 0x40) ∧ fwOfLine lsLab.hub (lineOf (lmIpa 0 0 0 0x40)) = none := by
  refine ⟨?_, ?_, ?_, ?_, ?_, ?_, ?_, ?_, by decide⟩
  · unfold ReleaseDone NothingToWriteBack CountedBefore Unacknowledged; decide
  · unfold ReleaseDone NothingToWriteBack CountedBefore Unacknowledged; decide
  · unfold NoLoadOut; decide
  · intro h; cases h
  · unfold AtomicGoesOn ReleaseDone NothingToWriteBack NoLoadOut CountedBefore Unacknowledged; decide
  · unfold CountedBefore Unacknowledged; decide
  · unfold CountedBefore Unacknowledged; decide
  · unfold Uncached; decide

/-- AddressesAreChecked: a lane that fails behind one that does not, and each clause's own address; a team with an acquire out. -/
theorem witness_addresses :
    let f : LsForm := { plainLs with a := 1, ty := 6 }
    let out := onLab fun t => { t with vars := [{ pendingAccess (.load 3 6) .home [] with scope := some 2 }] }
    let bare := withA 1 (own 0) { lab with team := { lab.team with lmg := 0 } }
    acquiring out.team = true ∧ (∃ x, lsAccess out (.ld f) = some x) ∧
    (∃ x, lsAccess bare (.ld f) = some x ∧ x.elems = [] ++ (0, own 0, 0) :: [] ∧ addressCause bare x (own 0) = some 0x0021 ∧
      ¬ x.size ∣ (own 4).toNat ∧ windowIpa bare.team.windows x.kind 0x40 = none ∧ x.size ∣ (own 0).toNat ∧
      lmRangeGranted bare 5 0 0 0 x.size = false) ∧
    vaIpa 0 bare.team.ref bare.team.windows .read (own 0).toNat = some (lmIpa 0 0 0 0) ∧ bare.team.trap = none ∧
    bare.team.ra 1 < 0x0100000000000000 ∧ (f.pi = 1 → Room bare 1) ∧
    ¬ Room (onLab fun t => { t with flight := List.replicate 64 ⟨.sx, .core, 0, 5, .s 1 0, none⟩ }) 1 := by
  refine ⟨by decide, ⟨_, rfl⟩, ⟨_, rfl, by decide, by decide, by decide, by decide, by decide, by decide⟩, by decide, by decide, by decide,
    by unfold Room; decide, by unfold Room; decide⟩

/-- WaitingAndEmptyAccesses: a load of memory that no cache holds, an LDA.rp, the request entries full, and no active lane. -/
theorem witness_waiting :
    let f : LsForm := { plainLs with a := 1, ty := 6 }
    let s := withA 1 0x40000040 site
    let full := { s with team := { s.team with writes := [{ pendingWrite 1 true with entries := 1024 }] } }
    LsReady (.ld f) f s ∧ StlDone (.ld f) s ∧ (∃ x ps, lsAccess s (.ld f) = some x ∧ checkParts s s.team f x.kind x.size x.elems = .ok ps ∧
      Defers (.ld f) s x ∧ ∃ p ∈ ps, ownPart s p = false) ∧ requestsOut s < 1024 ∧ 1024 ≤ requestsOut full ∧
    (∃ x, lsAccess s (.lda { f with low := 0x100 }) = some x ∧ Defers (.lda { f with low := 0x100 }) s x) := by
  refine ⟨⟨by decide, by unfold Quiet Foreground; decide, by unfold Room; decide, by unfold LowBase; decide⟩,
    (fun f => ⟨fun h => (by cases h), fun h => (by rcases h with h | h <;> cases h)⟩), ?_, by decide, by decide, ?_⟩
  · refine ⟨_, _, rfl, rfl, ?_, ?_⟩
    · refine Or.inl ⟨_, List.mem_singleton.2 rfl, 0x40, by decide, Or.inr ⟨by decide, ?_⟩⟩
      unfold Uncached
      decide
    · exact ⟨_, List.mem_singleton.2 rfl, by decide⟩
  · exact ⟨_, rfl, Or.inr ⟨_, rfl, by decide⟩⟩
theorem witness_no_lane :
    ∃ x, lsAccess lab (.ldv { plainLs with low := 0x200 }) = some x ∧ x.elems = [] ∧ acquiring lab.team = false ∧ Room lab 1 :=
  ⟨_, rfl, by decide, by decide, by unfold Room; decide⟩

/-- CacheMaintenance at the limits of its scopes and in each extent, and with a dirty line of the L1D and of the L2. -/
def cachedLine (ipa : Nat) : Line :=
  { ipa := ipa, tenant := 5, bytes := List.replicate 64 (some 1), dirty := List.replicate 64 true, fill := 0, origin := 0, side := none,
    sided := false, leaving := false }
theorem witness_maintenance :
    let s : State := { withA 1 (own 0x40) lab with core := { lab.core with l1d := [cachedLine 0x40] }, die := { lab.die with l2 := [cachedLine 0x40] } }
    (∀ i ∈ ([.cwb { plainLs with ty := 2 }, .cinv { plainLs with ty := 2, low := 0x200 }, .cflush { plainLs with ty := 2, low := 0xa00 }] :
      List Instr), i.wf = true) ∧ Quiet s ∧ Room s 1 ∧ requestsOut s < 1024 ∧ NoWriteBack { plainLs with ty := 2 } s 0 ∧
    LowBase plainLsA s ∧ checkAddr s s.team .read (s.team.ra 1).toNat 1 = .ok (lmIpa 0 0 0 0x40) ∧
    inExtent { plainLs with ty := 2 } s 0 (cachedLine 0x40) = true ∧ (cachedLine 0x40).isDirty = true := by
  refine ⟨by decide, by unfold Quiet Foreground; decide, by unfold Room; decide, by decide, by unfold NoWriteBack; decide,
    by unfold LowBase; decide, by decide, by decide, by decide⟩

/-- ScratchpadRings: a ring of four slots of 256 bytes, empty, full of free slots, and with two slots filled. -/
def ringLab (lsz head tail filled free : Nat) : State :=
  let c := fun o n => if n = 0 then [] else [(lmKey 0 0 o, BitVec.ofNat 8 n)]
  { lab with core := { lab.core with rings := vput lab.core.rings 2 (some { off := 0, cnt := 3, lsz := lsz, base := 256 }) },
             mem := c 8 head ++ c 12 tail ++ c 16 filled ++ c 20 free }
def ringOfLab (lsz head tail filled free : Nat) : Claims.Ring :=
  { off := 0, cnt := 3, lsz := lsz, base := 256, head := head, tail := tail, filled := filled, free := free }
theorem witness_rings :
    Holds (ringLab 8 0 0 0 4) 2 (ringOfLab 8 0 0 0 4) ∧ Holds (ringLab 8 3 1 2 2) 2 (ringOfLab 8 3 1 2 2) ∧
    Holds (ringLab 8 0 0 4 0) 2 (ringOfLab 8 0 0 4 0) ∧ Holds (ringLab 3 0 0 0 4) 2 (ringOfLab 3 0 0 0 4) ∧
    AllFilled (ringLab 8 0 0 0 4) 2 := by unfold Holds AllFilled; decide
theorem witness_ring_ready :
    let f : LsForm := { plainLs with ty := 7, low := 0x400 }
    RingReady (.rput f) f (ringLab 8 0 0 0 4) (ringOfLab 8 0 0 0 4) ∧ RingReady (.rget f) f (ringLab 8 3 1 2 2) (ringOfLab 8 3 1 2 2) ∧
    RingReady (.rfree { f with ty := 0, low := 0x401 }) { f with ty := 0, low := 0x401 } (ringLab 8 3 1 2 2) (ringOfLab 8 3 1 2 2) := by
  refine ⟨?_, ?_, ?_⟩ <;>
    exact ⟨by decide, by unfold Quiet Foreground; decide, by unfold Room; decide, by unfold Holds; decide, by decide⟩
theorem witness_ring_misuse : Foreground lab lab.team.ref ∧ acquiring lab.team = false ∧ lab.team.trap = none ∧
    vget lab.core.rings 2 none = none ∧ (Instr.rput { plainLs with ty := 7, low := 0x400 }).wf = true := by unfold Foreground; decide

/-- CompletionsAndAcknowledgements and HomeRequests: a performed load; a store and a load of the host's memory, where the host link
translates. -/
theorem witness_completion :
    let a := { pendingAccess (.load 3 6) .home [] with phase := .performed, results := [.s 3 9] }
    let s : State := { onLab fun t => { t with vars := [a] } with occ := { team := lab.team.ref, id := 7 } }
    (s.focus s.occ.team).team.vars.find? (fun a => a.id = s.occ.id && decide (a.phase = .performed)) = some a ∧
    (s.focus s.occ.team).core.stalled = false := by decide
theorem witness_home_host (h : Config.iommu 3 0 = some 1) :
    let p : Part := { ipa := 0x280000000040, size := 8, lane := 0, data := 9 }
    let a := pendingAccess .store .host [p]
    let b := pendingAccess (.load 3 6) .host [p]
    let s : State := { site with team := { site.team with vars := [a] }, occ := { team := lab.team.ref, id := 7 } }
    let u : State := { site with team := { site.team with vars := [b] }, occ := { team := lab.team.ref, id := 7 } }
    Foreground s s.occ.team ∧ s.team.vars.find? (fun a => a.id = s.occ.id && decide (a.phase ≠ .performed)) = some a ∧
    u.team.vars.find? (fun a => a.id = u.occ.id && decide (a.phase ≠ .performed)) = some b ∧ s.team.trap = none ∧
    blockedBy s s.team a = false ∧ spotOf s.hub.package p.ipa = .host 0x40 ∧ hostSpot s 5 0x40 = some (hostKey 0x1040) ∧
    blockedBy s { s.team with vars := [{ a with id := 6 }, a] } a = true := by
  refine ⟨by unfold Foreground; decide, by decide, by decide, by decide, by decide, by decide, ?_, by decide⟩
  show (Config.iommu 3 0).map (fun p => hostKey (p * 4096 + 0x40)) = _
  rw [h]; rfl
/-! ## What the statements assume can be met: the vector, matrix, rotation and copy slots -/

theorem vx_lab {i : Instr} (h : i.wf = true) : VxReady i lab := ⟨h, trivial, by unfold Room; decide⟩

/-- VectorArithmetic, VectorMasks, VectorMoves and VectorReductions, in each view that has forms of its own. -/
theorem witness_vector : ∀ i ∈ ([.vadd plainR, .vadd { plainR with fn := 9 }, .vadd { plainR with fn := 16 }, .vadd { plainR with fn := 25 },
    .vsub plainR, .vmul plainR, .vmul { plainR with fn := 20 }, .vfma { plainR with fn := 16 }, .vmin plainR, .vmax { plainR with fn := 24 },
    .vabs plainR, .vand plainR, .vor plainR, .vxor plainR, .vshl plainR, .vshr plainR, .vshra plainR, .vcmp plainR,
    .vcmp { plainR with fn := 16 }, .vsel plainR, .mand plainR, .mor plainR, .mxor plainR, .mnot plainR, .mpop plainR, .mfirst plainR,
    .vcvt plainR, .vperm plainR, .vshuf plainR, .vshuf { plainR with fn := 25 }, .vbcast plainR, .viota plainR, .vext plainR,
    .vins { plainR with b := 63 }, .vhold plainR, .vrcp { plainR with fn := 16 }, .vunpk plainR, .vpack plainR, .vred plainR,
    .vred { plainR with fn := 24 }, .vscan plainR, .vscan { plainR with fn := 24 }, .vdot plainR, .vdot { plainR with fn := 16 },
    .vrsq { plainR with fn := 16 }, .vexp2 { plainR with fn := 16 }, .vlog2 { plainR with fn := 16 }] : List Instr), VxReady i lab :=
  fun i h => vx_lab (by revert i; decide)

/-- VectorHoldsForTide: while a chunk is loaded. -/
theorem witness_tide_holds :
    ¬ VxIdle { lab with core := { lab.core with sweep := { lab.core.sweep with phase := .load 3 } } } := by unfold VxIdle; decide

/-! ### MX -/

/-- An MMA in i8 of 32 rows and 16 columns, on panels in the own LM. -/
def mmaForm : MxForm := { plainMx with n16 := 1, fmt := 9, aA := 1, aB := 2, rel := 1 }
def mxLab : State := withA 1 (own 0) (withA 2 (own 0x1000) lab)

theorem witness_matrix_moves :
    MxReady (.mzero { mmaForm with aA := 0, aB := 0, rel := 0, fmt := 0 }) (some (shape mmaForm)) lab ∧
    MxReady (.mrd { z := 0, v := 3, row := 127, half := 1, low := 0 }) (some (halfRow { z := 0, v := 3, row := 127, half := 1, low := 0 })) lab ∧
    MxReady (.mwr { z := 7, v := 3, row := 0, half := 0, low := 0 }) (some (halfRow { z := 7, v := 3, row := 0, half := 0, low := 0 })) lab ∧
    MxReady (.mscl { z := 7, k := 0x80, n16 := 8, msel := 2, low := 0 }) (some (scaledShape { z := 7, k := 0x80, n16 := 8, msel := 2, low := 0 })) lab ∧
    Room lab 1 := by unfold MxReady Room; decide

theorem mx_lab_panels :
    panelAt mxLab (.a false) .read (own 0) 32 64 = .ok { va := (own 0).toNat, pieces := [(lmIpa 0 0 0 0, 2048)], rowBytes := 64 } ∧
    panelAt mxLab (.b false) .read (own 0x1000) 16 64 = .ok { va := (own 0x1000).toNat, pieces := [(lmIpa 0 0 0 0x1000, 1024)], rowBytes := 64 } ∧
    panelAt mxLab .tile .read (own 0) 32 64 = .ok { va := (own 0).toNat, pieces := [(lmIpa 0 0 0 0, 2048)], rowBytes := 64 } ∧
    panelAt mxLab .tile .write (own 0) 32 64 = .ok { va := (own 0).toNat, pieces := [(lmIpa 0 0 0 0, 2048)], rowBytes := 64 } := by
  decide +kernel

theorem witness_mma : ∃ a b, MxReady (.mma mmaForm) (some (shape mmaForm)) mxLab ∧ LatchOk mmaForm mxLab ∧ PanelsOk mmaForm mxLab a b ∧
    pinsFit mxLab.core (panelLinesOf mxLab a b) = true := by
  refine ⟨_, some { va := (own 0x1000).toNat, pieces := [(lmIpa 0 0 0 0x1000, 1024)], rowBytes := 64 }, by unfold MxReady; decide,
    by unfold LatchOk; decide, ⟨mx_lab_panels.1, ?_⟩, ?_⟩
  · exact ⟨_, rfl, mx_lab_panels.2.1⟩
  · decide +kernel

/-- The B columns from the latch. -/
theorem witness_mma_latch :
    let f : MxForm := { mmaForm with aB := 15 }
    let s : State := { mxLab with core := { mxLab.core with latch := some { fmt := 9, n := 16, cols := List.replicate 16 ([], []) } } }
    ∃ a, MxReady (.mma f) (some (shape f)) s ∧ LatchOk f s ∧ PanelsOk f s a none ∧ pinsFit s.core (panelLinesOf s a none) = true := by
  refine ⟨_, by unfold MxReady; decide, fun _ => ⟨by decide, by decide, _, rfl, by decide, by decide⟩, ⟨mx_lab_panels.1, rfl⟩, by decide +kernel⟩

theorem witness_matrix_transfers :
    let f : MxForm := { plainMx with n16 := 1, aA := 1 }
    let b : MxForm := { plainMx with n16 := 1, aB := 2, fmt := 9 }
    (∃ p, panelAt mxLab .tile .read (mxLab.team.ra 1) 32 64 = .ok p ∧ panelAt mxLab .tile .write (mxLab.team.ra 1) 32 64 = .ok p) ∧
    (∃ p, panelAt mxLab (.b false) .read (mxLab.team.ra 2) 16 64 = .ok p ∧ pinsFit mxLab.core (dedup (p.lines mxLab.hub.package)) = true) ∧
    MxReady (.mldb b) none mxLab ∧ MxReady (.mrel { plainMx with aA := 1 }) none mxLab ∧ MxReady (.mldz f) (some (shape f)) mxLab ∧
    MxReady (.mstz f) (some (shape f)) mxLab ∧ 4 ∣ (mxLab.team.ra f.aA).toNat := by
  refine ⟨⟨_, mx_lab_panels.2.2⟩, ⟨_, mx_lab_panels.2.1, by decide +kernel⟩, ?_⟩
  unfold MxReady
  decide

/-- An operation of the array's queue on rows 2 and 3 of two columns of tile 7, its value known. -/
def queuedMx : MxOp :=
  { id := 9, team := lab.team.ref, tenant := 5, pos := 0, word := 0, aBase := 0, bBase := 0, src := Vector.replicate 64 0, issued := 0,
    kind := .mldz, cover := { z := 7, row0 := 2, rows := 2, col0 := 126, cols := 2 }, writes := true, aPanel := none, bPanel := none,
    bFrom := none, waiting := [0x40], held := [], arrived := false, aRows := [], bCols := none, beats := 0, tail := 21, after := none, age := 0,
    value := [[1, 2], [3, 4]] }
def queuedLab : State := { lab with core := { lab.core with mxq := [queuedMx] }, occ := { team := lab.team.ref, id := 9, aux := 0x40 } }

theorem witness_interlock :
    (lab.team.tid.getLsbD 14 = true ∧ lab.team.trap = none ∧ (onLab fun t => { t with tid := 0 }).team.tid.getLsbD 14 = false ∧
      (onLab fun t => { t with tid := 0 }).core.rxBusy = 0) ∧
    (∃ f c o, o ∈ queuedLab.core.mxq ∧ o.writes = true ∧ o.cover.meets c = true ∧ c = shape f ∧ (Instr.mzero f).wf = true) ∧
    (∃ f c o, o ∈ queuedLab.core.mxq ∧ o.cover.meets c = true ∧ c = halfRow f ∧ (Instr.mwr f).wf = true) ∧
    (∃ f c o, o ∈ queuedLab.core.mxq ∧ o.cover.meets c = true ∧ c = scaledShape f ∧ (Instr.mscl f).wf = true) := by
  refine ⟨by decide, ⟨{ plainMx with z := 7, n16 := 8 }, _, queuedMx, by decide, by decide, ?_, rfl, by decide⟩,
    ⟨{ z := 7, v := 0, row := 3, half := 1, low := 0 }, _, queuedMx, by decide, ?_, rfl, by decide⟩,
    ⟨{ z := 7, k := 0, n16 := 8, msel := 0, low := 0 }, _, queuedMx, by decide, ?_, rfl, by decide⟩⟩ <;> decide

theorem witness_matrix_writes : Foreground queuedLab queuedLab.occ.team ∧
    queuedLab.core.mxq.find? (fun o => o.id = queuedLab.occ.id) = some queuedMx ∧ queuedMx.value.length = queuedMx.cover.rows ∧
    (∀ r ∈ queuedMx.value, r.length = queuedMx.cover.cols) ∧ queuedMx.cover.row0 + queuedMx.cover.rows ≤ 128 ∧
    128 * queuedMx.cover.z + queuedMx.cover.col0 + queuedMx.cover.cols ≤ 1024 := by unfold Foreground; decide
theorem witness_matrix_sums :
    let r : List (List Byte × List Nat) := [(List.replicate 64 0xff, [])]
    let old : List (List Word32) := [[7]]
    0 < r.length ∧ 0 < old.length ∧ 0 < (nth old 0 []).length ∧ (nth r 0 ([], [])).1.length = 64 := by decide
/-- TileLinesArrive: the line of the home is not held there. -/
theorem witness_tile_line :
    let s : State := { site with core := queuedLab.core, occ := queuedLab.occ }
    Foreground s s.occ.team ∧ s.core.mxq.find? (fun o => o.id = s.occ.id) = some queuedMx ∧
    ∃ u, fillL2 s.core.die (s.teamAt queuedMx.team) .tf s.occ.aux s = (none, u) := by
  refine ⟨by unfold Foreground; decide, by decide, _, Prod.ext ?_ rfl⟩
  decide

/-! ### RX -/

theorem witness_rx_ready : ∀ i ∈ ([.rzero plainRx, .rfeed plainRx, .rfeedl plainRx, .rqapp plainRx, .rread plainRx,
    .rread { plainRx with op := 15 }, .rreadSt { plainRx with op := 31 }, .rrhs plainRx, .rrhsSt { plainRx with op := 16 }, .rsolve plainRx,
    .rlay plainRx, .rlayi plainRx, .rvec plainRx, .angc plainRx, .rgain { plainRx with op := 1 }, .rgainTri { plainRx with op := 65 }] :
    List Instr), RxReady i lab := by unfold RxReady; decide

/-- RotationResults and RotationUpdates: zeros may enter, the array's rows are not zero for RSOLVE, and a feed follows a feed. -/
def rotated : Tri := { Tri.zero with rows := (List.range 16).map fun _ => { r := List.replicate 16 0x4000000000, y := 0, g := 5 } }
def feedOp : RxOp :=
  { id := 8, team := lab.team.ref, pos := 0, word := 0, src := Vector.replicate 64 0, issued := 0, feed := true, rem := 3, age := 0, tri := rotated }
theorem witness_rotations :
    let solve : State := { lab with core := { lab.core with tri := rotated } }
    let fed : State := { lab with core := { lab.core with rxq := [feedOp] } }
    (∃ x, rxResultOf lab (.rlay plainRx) = some x ∧ MayEnter x.enters) ∧ RxReady (.rsolve plainRx) solve ∧ Room solve 1 ∧
    solve.core.tri.range = false ∧ ¬ Singular solve.core.tri ∧ lab.core.tri.range = false ∧
    (∃ x, rxUpdateOf fed (.rfeed plainRx) = some x ∧ PlacedInTime x fed ∧ MayEnter x.enters) ∧ RxReady (.rfeed plainRx) fed ∧
    ∃ x, rxUpdateOf lab (.rzero plainRx) = some x ∧ PlacedInTime x lab ∧ x.clears = true := by
  refine ⟨⟨_, rfl, ?_⟩, ?_, ?_, by decide, ?_, by decide, ⟨_, rfl, ?_, ?_⟩, ?_, ⟨_, rfl, ?_, by decide⟩⟩
  · unfold MayEnter; decide
  · unfold RxReady; decide
  · unfold Room; decide
  · unfold Singular; decide
  · show ∀ o ∈ _, _
    decide
  · unfold MayEnter; decide
  · unfold RxReady; decide
  · rfl

theorem witness_rotation_traps :
    let bad := withV 3 0x7f800000 lab
    let busy : State := { lab with core := { lab.core with rxBusy := 3, rxTeam := lab.team.ref } }
    let other : State := { lab with core := { lab.core with rxBusy := 3, rxTeam := { lab.team.ref with rslot := 1 } } }
    let fed : State := { lab with core := { lab.core with rxq := [feedOp] } }
    let ranged : State := { lab with core := { lab.core with tri := { Tri.zero with range := true } } }
    lab.team.trap = none ∧ (∃ x, rxResultOf bad (.rlay { plainRx with va := 3 }) = some x ∧ ¬ MayEnter x.enters) ∧
    (∃ x, rxUpdateOf fed (.rzero plainRx) = some x ∧ ¬ PlacedInTime x fed) ∧
    (∃ x, rxUpdateOf ranged (.rfeed plainRx) = some x ∧ ranged.core.tri.range = true ∧ x.clears = false ∧ PlacedInTime x ranged) ∧
    Singular lab.core.tri ∧ lab.core.tri.range = false ∧
    0 < busy.core.rxBusy ∧ busy.core.rxTeam = busy.team.ref ∧ 0 < other.core.rxBusy ∧ other.core.rxTeam ≠ other.team.ref := by
  refine ⟨by decide, ⟨_, rfl, ?_⟩, ⟨_, rfl, ?_⟩, ⟨_, rfl, by decide, by decide, ?_⟩, ⟨0, by decide, Or.inl (by decide)⟩, by decide,
    by decide, by decide, by decide, by decide⟩
  · unfold MayEnter; decide
  · show ¬ _ = _
    decide
  · show ∀ o ∈ _, _
    decide

/-! ### DX -/

theorem witness_dx_ready :
    (∀ i ∈ ([.cpy { plainDx with f := 1 }, .cpy { plainDx with f := 0xff }, .cpy2 { plainDx with f := 0x101 }, .cpyg plainDx, .cpyl plainDx,
      .cpyr { plainDx with f := 0x401 }] : List Instr), DxReady i false lab) ∧
    (∀ i ∈ ([.wsld plainDx, .rinit { plainDx with f := 0x400 }, .shoal plainDx, .ctxi plainDx, .reefLd plainDx, .reefSt { plainDx with f := 0x100 },
      .reefWake { plainDx with f := 0x200 }, .reefClr { plainDx with f := 0x300 }, .tide plainDx, .tideq { plainDx with f := 1 }] : List Instr),
      DxReady i true lab) ∧
    Numbered lab ∧ OnCore lab ∧ (lab.team.rs 0) = 0 ∧ 0 < ((withS 3 64 lab).team.rs 3).toNat := by
  unfold DxReady Numbered OnCore Foreground; decide

theorem witness_cpyr :
    DxReady (.cpyr { plainDx with f := 0x401 }) false (ringLab 8 0 0 0 4) ∧ Numbered (ringLab 8 0 0 0 4) ∧
    Holds (ringLab 8 0 0 0 4) (ringOfWord { plainDx with f := 0x405 }) (ringOfLab 8 0 0 0 4) ∧
    Holds (ringLab 8 0 0 4 0) (ringOfWord { plainDx with f := 0x404 }) (ringOfLab 8 0 0 4 0) ∧
    countOf { plainDx with f := 0x405 } = 5 ∧ countOf { plainDx with f := 0x404 } = 4 ∧ OnCore (ringLab 8 0 0 0 4) := by
  unfold DxReady Numbered OnCore Foreground Holds; decide

/-- The local memory of `lab` holding doubles, lowest address first. -/
def doublesAt (off : Nat) (xs : List Nat) : Memory :=
  (((List.range xs.length).zip xs).flatMap fun (i, x) =>
    (List.range 8).map fun k => (lmKey 0 0 (off + 8 * i + k), BitVec.ofNat 8 (x / 2 ^ (8 * k)))).filter fun c => c.2 ≠ 0
def memLab (xs : List Nat) : State := { withA 1 (own 0x100) lab with mem := doublesAt 0x100 xs }

/-- A ring descriptor with four slots of 256 bytes at 0x400. -/
theorem witness_rinit :
    let s := memLab [3 * 2 ^ 32 + 8 * 2 ^ 24 + 0x400]
    s.mem.wf = true ∧ DxReady (.rinit { plainDx with aS := 1, f := 0x400 }) true s ∧ AllFilled s 2 ∧ addressOf s 1 = localBase + 0x100 ∧
    32 ∣ 0x100 ∧ peek (ownByte s) 0x100 8 / 2 ^ 32 % 2 ^ 12 = 3 ∧ peek (ownByte s) 0x100 8 / 2 ^ 24 % 2 ^ 4 = 8 ∧
    peek (ownByte s) 0x100 8 % 2 ^ 21 = 0x400 ∧ 2 ^ 8 ∣ 0x400 ∧ ownGrant s.team 0x100 32 = true ∧ ownGrant s.team 0x400 ((3 + 1) * 2 ^ 8) = true ∧
    ¬ 32 ∣ addressOf (withA 1 (own 4) lab) 1 := by
  unfold DxReady AllFilled; decide

theorem granted_lab {s : State} {o n : Nat} (h : o + n ≤ 2 ^ 21)
    (g : ∀ k, k < n → lmGranted s s.team.tenant s.team.ref.die s.team.ref.lcore (o + k) = true) : Granted s o n := ⟨h, g⟩

/-- A tensor of one row of 5,000 bytes from 0x2000 to 0x8000 of the own LM. -/
def tensorLab : State := memLab [0x00ffffffffe02000, 0x00ffffffffe08000, 5000 + 2 ^ 32, 1 + 2 ^ 32]
theorem witness_cpyl : DxReady (.cpyl { plainDx with aS := 1 }) false tensorLab ∧ Numbered tensorLab ∧
    (∀ c ∈ tensorLab.core.copies, c.kind.isSweep = true) ∧ addressOf tensorLab 1 = localBase + 0x100 ∧ 64 ∣ 0x100 ∧ Granted tensorLab 0x100 96 ∧
    (∃ x, tensorOf (ownRange tensorLab 0x100 96) = some x ∧ x.total = 5000 ∧ x.granules = 2) := by
  refine ⟨by unfold DxReady; decide, by unfold Numbered Foreground; decide, by decide, by decide, by decide, by unfold Granted; decide, _, rfl, by decide, by decide⟩

theorem witness_shoal :
    let s := memLab [0, 0x400, 0x800, 0]
    DxReady (.shoal { plainDx with aS := 1 }) true s ∧ addressOf s 1 = localBase + 0x100 ∧ Granted s 0x100 32 ∧
    4 ∣ peek (ownByte s) (0x100 + 16) 8 ∧ s.team.trap = none ∧ ¬ 32 ∣ addressOf (withA 1 (own 4) lab) 1 := by
  unfold DxReady Granted; decide

/-- A shoal of 64 contexts at h = 0, at 0x1000. -/
def labShoal (bad : Bool) : Shoal := { cfg := 63, plane := 0x1000, edge := 0, code := 0x8000, desc := 0x100, invalid := bad }
def shoalLab (bad : Bool) : State := { withA 1 (own 0x100) lab with core := { lab.core with shoals := vput lab.core.shoals 0 (some (labShoal bad)) } }
theorem witness_sweep_operations :
    (∀ i ∈ ([.ctxi plainDx, .reefLd { plainDx with aS := 1 }, .reefSt { plainDx with aS := 1, f := 0x100 }, .reefWake { plainDx with f := 0x200 },
      .reefClr { plainDx with f := 0x300 }, .tide plainDx, .tideq { plainDx with f := 1 }] : List Instr),
      (sweepKind (shoalLab false) i).isSome = true ∧ DxReady i true (shoalLab false)) ∧
    NoPendingShoal (shoalLab false) 0 ∧ NoPendingShoal lab 0 ∧
    vget (shoalLab false).core.shoals 0 none = some (labShoal false) ∧ vget (shoalLab true).core.shoals 0 none = some (labShoal true) ∧
    vget lab.core.shoals 0 none = none ∧ 8 ∣ addressOf (shoalLab false) 1 ∧ lab.team.trap = none := by
  refine ⟨by unfold DxReady; decide, ?_, ?_, by decide⟩ <;> intro c hc <;> cases hc

/-- A copy in the queue. -/
def queuedCopy (k : CopyKind) (x : Option Tensor) : Copy :=
  { id := 3, team := lab.team.ref, tenant := 5, pos := 0, word := 0, vwin := Vector.replicate 8 0, kind := k, tensor := x, wid := some 2, held := false,
    sent := true, beats := none, exact := false, moved := 0, kept := [] }
def copyLab (c : Copy) (s : State) : State := { s with core := { s.core with copies := [c] }, occ := { team := lab.team.ref, id := 3 } }

/-- CopiesMoveTheirBytes: two rows of two beats within the own LM, that overlap; and the tensor of `tensorLab`, before its first, its
last and its done granule. -/
theorem witness_copies_move :
    let c := queuedCopy (.cpy (localBase + 0x1040) (localBase + 0x1000) 256 128 4 2) none
    let s := copyLab c lab
    Oldest s c ∧ OnCore s ∧ c.moved = 0 ∧ c.kept = [] ∧ 64 ∣ localBase + 0x1040 ∧ 64 ∣ localBase + 0x1000 ∧
    (∀ b, b < 4 → (localBase + 0x1000 + b / 2 * 128 + 64 * (b % 2)) % 2 ^ 64 = localBase + (0x1000 + b / 2 * 128 + 64 * (b % 2)) ∧
      Granted s (0x1000 + b / 2 * 128 + 64 * (b % 2)) 64 ∧
      (localBase + 0x1040 + b / 2 * 256 + 64 * (b % 2)) % 2 ^ 64 = localBase + (0x1040 + b / 2 * 256 + 64 * (b % 2)) ∧
      Granted s (0x1040 + b / 2 * 256 + 64 * (b % 2)) 64) := by
  refine ⟨by unfold Oldest Foreground; decide, by unfold OnCore Foreground; decide, by decide, by decide, by decide, by decide, ?_⟩
  unfold Granted
  decide
theorem witness_granules :
    let x : Tensor := { src := localBase + 0x2000, dst := localBase + 0x8000, n := [5000, 1, 1, 1], ss := [0, 0, 0], ds := [0, 0, 0], next := 0 }
    (∀ k ∈ ([0, 1, 2] : List Nat), let c := queuedCopy (.cpyl (localBase + 0x100)) (some { x with next := k })
      Oldest (copyLab c tensorLab) c ∧ OnCore (copyLab c tensorLab) ∧ c.kept = []) ∧ Granted tensorLab 0x100 96 ∧
    (0 * 4096 < 5000 ∧ 1 * 4096 < 5000 ∧ 5000 ≤ 2 * 4096) ∧ 0x2000 + 5000 ≤ 0x8000 := by
  refine ⟨?_, by unfold Granted; decide, by decide, by decide⟩
  unfold Oldest OnCore Foreground
  decide
theorem grant_ends {o : Nat} (h : o < 2 ^ 21) : lmGranted tensorLab 5 0 0 o = true := by
  refine List.any_eq_true.2 ⟨0, by decide, ?_⟩
  show (true && decide (5 = 5) && decide (0 * 4096 ≤ o) && decide (o < (0 + 512) * 4096)) = true
  have : o < (0 + 512) * 4096 := by omega
  simp [this]
theorem witness_granules_granted : Granted tensorLab 0x2000 5000 ∧ Granted tensorLab 0x8000 5000 :=
  ⟨granted_lab (by decide) fun k h => grant_ends (by omega), granted_lab (by decide) fun k h => grant_ends (by omega)⟩

theorem witness_sweep_performs :
    ∀ k ∈ ([.ctxi 0 0x100000, .reefWake 0, .reefClr 0] : List CopyKind),
      let c := queuedCopy k none
      let s := copyLab c (shoalLab false)
      Foreground s s.occ.team ∧ c.team = s.team.ref ∧ s.core.copies.find? (fun c => c.id = s.occ.id) = some c ∧
      vget s.core.shoals c.kind.h none = some (labShoal false) ∧ (labShoal false).invalid = false ∧
      (labShoal false).plane + (labShoal false).size ≤ 2 ^ 21 := by unfold Foreground; decide
/-! ## What the statements assume can be met: contexts, the control slot and completions -/

/-- A group of three of the chunk's four contexts. -/
def groupLab (cfg : Double) : State :=
  let r := fun e : Nat => { placedRunner with elem := e, w0 := 0x100000, e0 := BitVec.ofNat 32 e, ev := 9, cpc := 4 }
  { lab with core := { lab.core with
      sweep := { Sweep.idle with phase := .run, team := lab.team.ref, lanes := [0, 2, 3], runners := [r 0, r 1, r 2, r 3],
                                 elems := List.replicate 64 7 }
      shoals := vput lab.core.shoals 0 (some { labShoal false with cfg := cfg }) } }
theorem witness_group (cfg : Double) : GroupRuns (groupLab cfg) { labShoal false with cfg := cfg } := by
  refine ⟨rfl, rfl, ?_, ?_⟩
  · show [0, 2, 3].Nodup
    decide
  · show ∀ l ∈ [0, 2, 3], l < 4
    decide
theorem witness_context_operations : ∀ i ∈ ([.cnop, .cadd plainCx, .csub { plainCx with t := 1 }, .cmul plainCx, .cmin plainCx, .cmax { plainCx with t := 1 },
    .cfma 1 0 3 1, .cand 0 0 0 0 0, .cor 0 0 0 1 0x8000, .cxor 0 0 0 0 0, .cshl 0 0 0 1 31, .cshr 0 0 0 0 0, .cli 0 1 0x3f80, .cmov 2 3,
    .ccmp { plainCx with d := 3, t := 1 }, .cbr 0 5, .cbr 1 5, .cj 0xfff, .cste 3, .cwait 1, .csleep, .cdone, .ccvt 0 3 0, .ccvt 0 3 1] :
    List Instr), (contextEffect (labShoal false) i).isSome = true ∧ i.wf = true := by decide
theorem witness_context_memory : (Instr.cemit 0 1 2).wf = true ∧ (Instr.catom 1 0 1 2).wf = true ∧
    (0x1003f : Double).getLsbD 16 = ((1 : BitVec 1) == 1) ∧ (63 : Double).getLsbD 16 = ((0 : BitVec 1) == 1) ∧
    offsetElement { labShoal false with cfg := 0x704003f } 8 0x003ff = none ∧
    offsetElement { labShoal false with cfg := 0x704003f } 8 0x00401 = some 17 ∧
    offsetElement { labShoal false with cfg := 63 } 63 1 = none ∧ offsetElement { labShoal false with cfg := 63 } 0 0xfffff = none ∧
    offsetElement { labShoal false with cfg := 63 } 63 0xfffff = some 62 := by decide
theorem witness_context_faults :
    (contextEffect (labShoal false) (.cwait 2)).isSome = true ∧ (Instr.cwait 2).wf = false ∧ (Instr.cemit 0 1 3).wf = false ∧
    (labShoal false).cfg.getLsbD 16 ≠ ((1 : BitVec 1) == 1) := by decide

/-- TideSteps: before the last chunk, and TIDEQ with tides left. -/
theorem witness_tide :
    let t := queuedCopy (.tide 0 3 2 true) none
    let u := copyLab t (shoalLab false)
    let s : State := { u with core := { u.core with sweep := { Sweep.idle with phase := .boundary, team := lab.team.ref, op := some 3, cr := 3, quiet := true, left := 2 } } }
    Foreground s s.occ.team ∧ s.core.sweep.team = s.team.ref ∧ vget s.core.shoals s.core.sweep.h none = some (labShoal false) ∧
    (labShoal false).plane + (labShoal false).size ≤ 2 ^ 21 ∧ 64 * s.core.sweep.chunk < 64 ∧
    s.core.copies.find? (fun c => some c.id = s.core.sweep.op) = some t ∧ t.team = s.team.ref ∧ 1 < s.core.sweep.left ∧
    ((List.range 64).filter fun e => reefBit (labShoal false) (ownByte s) e) = [] ∧
    ((List.range 64).filter fun e => reefBit (labShoal false) (ownByte { s with mem := [(lmKey 0 0 (reefBits (labShoal false)), 1)] }) e) = [0] := by
  unfold Foreground; decide

/-! ### CT -/

theorem at_dispatch {i : Instr} (h : i.wf = true) : AtDispatch i lab := ⟨h, by decide, by unfold Room; decide, .ls, by decide, by decide⟩

/-- Branches: a branch of each kind, taken and not taken; a bad target; a target in the loop's own body; a mask that is not uniform. -/
theorem witness_branches :
    let s := withS 5 0x101 lab
    let looping := onLab fun t => { t with loop := some { rept := false, start := 0, body := [(0, t.cur), (4, t.cur)], after := 8, left := 2, idx := 0, pos0 := 0, count := 2 } }
    let mixed := onLab fun t => { t with m := vput (vput t.m 1 3) 2 1 }
    (∀ i ∈ ([.br 0, .brc 0 0 0, .brc 1 0 0, .brc 2 0 0, .brc 3 0 0, .brm 0 1 2 0, .call 4, .jmpr 5 0 0, .jmpr 0 1 0, .ret 0] : List Instr),
      AtDispatch i lab) ∧ lab.team.delay = none ∧
    BranchIs lab (.brc 1 0 0) (¬ True) (branchTarget lab (0 : BitVec 17)) false ∧ BranchIs lab (.call 0) True (branchTarget lab (0 : BitVec 19)) true ∧
    BranchIs s (.jmpr 5 0 0) True 0x101 false ∧ badTarget 0x101 ∧ badTarget 0x0100000000000000 ∧ ¬ badTarget 0x00fffffffffffffc ∧
    InBody looping 0 ∧ InBody looping 4 ∧ ¬ InBody looping 8 ∧ ¬ maskOnes mixed 2 1 ∧ ¬ maskZeros mixed 2 1 ∧ lab.team.trap = none := by
  refine ⟨fun i h => at_dispatch (by revert i; decide), by decide, ?_, ?_, ?_, by unfold badTarget; decide, by unfold badTarget; decide,
    by unfold badTarget; decide, ⟨_, rfl, by decide, by decide⟩, ⟨_, rfl, by decide, by decide⟩, ?_, by unfold maskOnes; decide,
    by unfold maskZeros; decide, by decide⟩
  · exact Or.inr (Or.inr (Or.inl ⟨_, _, _, rfl, rfl, rfl, by simp [lab, Team.reset, Team.rp]⟩))
  · exact Or.inr (Or.inl ⟨_, rfl, rfl, rfl, rfl⟩)
  · exact Or.inr (Or.inr (Or.inr (Or.inr (Or.inl ⟨_, _, rfl, rfl, by decide, rfl⟩))))
  · rintro ⟨l, h, _, hx⟩
    cases h
    exact absurd hx (by decide)

/-- `site` where dispatch has a bundle at VA 2^30, and the code behind it is in the instruction store: a bundle with an MX word, and NOPs. -/
def codeLab : State :=
  { site with
      team := { site.team with bpc := 0x40000000, pc := 0x40000000 }
      core := { site.core with istore := [{ ipa := 0, bytes := [0, 0, 0, 0, 0, 0, 0, 0x20, 0, 0, 0, 0x40] ++ List.replicate 52 0 }] } }
theorem witness_loops :
    let delayed := onLab fun t => { t with delay := some none }
    (∀ i ∈ ([.loop 0 7 2047, .rept 0 0 8, .loop 1 0 0] : List Instr), AtDispatch i codeLab) ∧
    (∃ body, fetchBody codeLab (afterBundle codeLab) 1 = (body, none) ∧ (body.filter fun b => (b.2.words[4]?).getD 0 != 0).length = 1) ∧
    (∃ body, fetchBody codeLab (afterBundle codeLab) 8 = (body, none)) ∧ codeLab.team.delay = none ∧ codeLab.team.loop = none ∧
    barred (.loop 0 0 1) = true ∧ delayed.team.delay.isSome = true := by
  refine ⟨fun i h => ⟨by revert i; decide, by decide, by unfold Room; decide, .ls, by decide, by decide⟩, ⟨_, rfl, by decide⟩, ⟨_, rfl⟩, by decide,
    by decide, by decide, by decide⟩

/-- A cluster of two teams, of which the acting one is the first. -/
def cluster (bar : Barrier) : Cluster :=
  { id := 1, launch := 0, tenant := 5, die := 0, index := 0, teams := [lab.team.ref, { lab.team.ref with rslot := 1 }], ended := [], own := true,
    phase := .resident, barriers := vput (Vector.replicate 16 { expected := 2, next := none, phase := 0, arrived := 0 }) 3 bar, forced := false }
def teamsLab (bar : Barrier) : State := { lab with hub := { lab.hub with clusters := [cluster bar] } }

theorem witness_control :
    let b : Barrier := { expected := 2, next := none, phase := 4, arrived := 1 }
    let s := { teamsLab b with team := { (teamsLab b).team with noted := vput lab.team.noted 3 (some 4) } }
    let keyed := withS 5 0x40000008 site
    (∀ i ∈ ([.yield 0 1, .node 3 0xff, .endTeam 0, .waitx 0 1, .clkdiv 1 8 0, .svc 0, .brk 0, .refw 0 0, .nop .ct, .pwrq 1 0, .bara 3 0,
      .barw 3 0, .barc 3 7 0, .wwake 5 1, .wwait 5 1] : List Instr), AtDispatch i lab) ∧
    FollowsAs lab (.node 3 255) (.node 255 0) true ∧
    FollowsAs keyed (.wwait 5 1) (.wwait 0x40000008 0 1024) false ∧
    barrierOf s 3 = some b ∧ vget s.team.noted 3 none = some 4 ∧ b.phase ≤ 4 ∧ vget lab.team.noted 3 none = none ∧
    windowPackage keyed.team.windows 0x40000008 = some 0 ∧ windowPackage lab.team.windows 0x40000008 = none ∧
    (4 : Double) &&& 0xff00000000000007 ≠ 0 := by
  refine ⟨fun i h => at_dispatch (by revert i; decide), Or.inr (Or.inl ⟨_, _, rfl, rfl, rfl⟩),
    Or.inr (Or.inr (Or.inr (Or.inr (Or.inr (Or.inr (Or.inr (Or.inr ⟨_, _, _, rfl, by decide, rfl, rfl, rfl⟩))))))), by decide, by decide, by decide,
    by decide, by decide, by decide, by decide⟩

theorem witness_slot_rules :
    lab.team.trap = none ∧ lab.team.skipCt = false ∧ lab.core.rxBusy = 0 ∧ lab.core.dxBusy = 0 ∧ lab.core.sweep.holdsVx = false ∧
    guardOf (.pref plainR) = some (.ad, 0) ∧ guardOf (.add { plainR with g := 1 }) = some (.sx, 1) ∧ lab.team.rp 1 = false ∧
    (Instr.add { plainR with fn := 1 }).slot = some .sx ∧ (Instr.add { plainR with fn := 1 }).wf = false ∧
    (Instr.barw 0 1).slot = some .ct ∧ (Instr.barw 0 1).wf = false := by decide

/-! ### Completions -/

def syncLab (k : SyncKind) (s : State) : State :=
  { s with team := { s.team with sync := some { pos := 4, w := false, kind := k, bpc := 0x100, ct := 0x31 } }, occ := { team := s.team.ref } }
def tokenLab (token : Bool) : State :=
  { site with hub := { site.hub with waits := [{ tenant := 5, va := 0x40000008 / 8, token := token, waiters := [] }] } }

/-- BundlesComplete: each kind; a NODE and an END that may complete and one that has a write out; a cluster with a member still to end;
a wait that holds and one that does not; a token, a key without one, no key with room. -/
theorem witness_completes :
    (∀ k ∈ ([.plain, .yield 1 0xffff, .node 1 6, .ending, .waitx 0 64, .clkdiv .vx 15, .svc 0x10007, .brk 3, .wwait 0x40000008 0 1024, .refw 7, .barw 3 0] :
      List SyncKind), let s := syncLab k lab
      Foreground s s.occ.team ∧ s.core.pcore < 72 ∧ ∃ y, s.team.sync = some y ∧ y.kind = k) ∧
    nodeReady lab lab.team = true ∧ nodeReady lab { lab.team with writes := [pendingWrite 1 true] } = false ∧
    (∃ c, (teamsLab ({ expected := 2, next := none, phase := 0, arrived := 0 })).hub.clusters.find? (fun c => c.id = lab.team.cluster) = some c ∧
      ∃ r ∈ c.teams, r ≠ lab.team.ref ∧ r ∉ c.ended) ∧
    waitHolds lab lab.team 0 4 = true ∧
    waitHolds (copyLab (queuedCopy (.cpyl 0) none) lab) lab.team 0 4 = false ∧
    (∃ k, findKey (tokenLab true).hub 5 0x40000008 = some k ∧ k.token = true) ∧
    (∃ k, findKey (tokenLab false).hub 5 0x40000008 = some k ∧ k.token = false) ∧ findKey site.hub 5 0x40000008 = none ∧
    site.hub.waits.length < 65536 ∧ (0 : Nat) = site.hub.package ∧ 1 ≠ site.hub.package := by
  refine ⟨?_, by decide, by decide, ⟨_, rfl, { lab.team.ref with rslot := 1 }, by decide, by decide, by decide⟩, by decide, by decide, ⟨_, rfl, rfl⟩,
    ⟨_, rfl, rfl⟩, by decide, by decide, by decide, by decide⟩
  intro k _
  exact ⟨⟨rfl, rfl, rfl, rfl⟩, by show (0 : Nat) < 72; decide, _, rfl, rfl⟩

theorem witness_landing :
    let s := onLab fun t => { t with flight := [{ slot := .sx, domain := .core, pos := 0, rem := 1, write := .s 3 9, energy := none }] }
    Foreground s s.team.ref ∧ s.team.resident = true ∧ s.team.frozen = false ∧ s.team.ref.rslot < 4 ∧
    s.die.logical s.core.pcore = some s.team.ref.lcore := by unfold Foreground; decide

theorem witness_arrival_and_timeouts :
    let b : Barrier := { expected := 2, next := some 1, phase := 4, arrived := 1 }
    let s := { teamsLab b with team := { (teamsLab b).team with park := .barw 3 4 0 }, occ := { team := lab.team.ref, aux := 3 } }
    let x := { onLab fun t => { t with park := .waitx 1 4 64 63 } with occ := { team := lab.team.ref } }
    let w := { onLab fun t => { t with park := .wwait 0x40000008 0 1024 1023 } with occ := { team := lab.team.ref } }
    (∃ c, s.hub.clusters.find? (fun c => c.id = (s.teamAt s.occ.team).cluster) = some c ∧ (c.barrier s.occ.aux).expected ≤ (c.barrier s.occ.aux).arrived + 1 ∧
      s.team.cluster = c.id) ∧ s.occ.aux < 16 ∧ s.team.resident = true ∧ s.team.park = .barw 3 4 0 ∧ 4 ≤ b.phase ∧
    Foreground x x.occ.team ∧ x.team.park = .waitx 1 4 64 63 ∧ Foreground w w.occ.team ∧ w.team.park = .wwait 0x40000008 0 1024 1023 := by
  refine ⟨⟨_, rfl, by decide, by decide⟩, ?_⟩
  unfold Foreground
  decide
/-! ## What the statements assume can be met: traps, power, queues, links and dies -/

def frozenTrap (cause : Nat) (slot : Slot) : TrapSt :=
  { slot := slot, pos := 4, cause := cause, addr := 0, word := 0, frozen := true, q := 4, pmask := 0, bpc := 0, slr := 0, dly := false, target := 0,
    seq := 7, deferred := false, answered := false, loop := none }

/-- TrapsFreeze: each clause's own state of the team; a deferred trap and a notice that must wait. -/
theorem witness_traps_freeze :
    let o : Occ := { team := lab.team.ref, tenant := 5, aux := 0x0022 }
    let s := { lab with occ := o }
    Foreground s s.occ.team ∧ s.core.pcore < 72 ∧ s.team.resident = true ∧ s.team.deferred = [] ∧ s.core.issuing = some s.team.ref.rslot ∧
    s.team.park = .none ∧ s.team.trap = none ∧ s.team.handover = false ∧ s.team.tenant = s.occ.tenant ∧
    (onLab fun t => { t with trap := some (frozenTrap 0x0020 .ls) }).team.trap.isSome = true ∧ (frozenTrap 0x0020 .ls).frozen = true ∧
    { frozenTrap 0x0020 .ls with frozen := false }.frozen = false ∧ s.team.callSeq = none ∧
    (onLab fun t => { t with callSeq := some 3 }).team.callSeq.isSome = true ∧
    (onLab fun t => { t with resident := false }).team.resident = false ∧ s.team.tenant ≠ 6 := by unfold Foreground; decide

def trapLab (cause : Nat) (slot : Slot) : State :=
  { onLab fun t => { t with trap := some (frozenTrap cause slot) } with occ := { team := lab.team.ref, id := 7 } }
/-- AnswersAndReplies: a record of each kind of cause; a request that is held; window writes that touch a running sweep; a reply that
matches its call and one that does not; the end of a team. -/
theorem witness_answers :
    (∀ c ∈ ([0x0020, 0x0022, 0x0002] : List Nat), Answered (trapLab c .ls) (frozenTrap c .ls) ∧ (trapLab c .ls).occ.image.words = [] ∧
      Foreground (trapLab c .ls) (trapLab c .ls).occ.team) ∧
    Answered (trapLab 0x0010 .ct) (frozenTrap 0x0010 .ct) ∧
    (∃ a ∈ ({ lab.team with vars := [{ pendingAccess (.load 3 6) .home [] with phase := .held }] } : Team).vars, a.phase = .held) ∧
    windowWaits (windowWrites [0xf000, 1]) { trapLab 0x0020 .ls with core := { lab.core with sweep := { Sweep.idle with phase := .run } } } = true ∧
    (∀ x, ¬ Answered lab x) ∧
    (onLab fun t => { t with skipCt := true }).team.skipCt = true ∧ Room lab 3 ∧ lab.team.delay = none ∧
    (∃ k, k ≠ .ct ∧ lab.team.passed k ≤ lab.team.passed .ct) := by
  refine ⟨?_, ⟨by decide, rfl, by decide, by decide, by decide⟩, ⟨_, List.mem_singleton.2 rfl, rfl⟩, by decide, ?_, by decide,
    by unfold Room; decide, by decide, .sx, by decide, by decide⟩
  · intro c hc
    refine ⟨⟨rfl, rfl, rfl, ?_, rfl⟩, rfl, ⟨rfl, rfl, rfl, rfl⟩⟩
    revert c
    decide
  · rintro x ⟨_, h, _⟩
    cases h
def labLaunch : Launch :=
  { id := 0, qid := 9, k := 0, tenant := 5, packet := List.replicate 128 0, clusters := [1], entries := [], losses := 0, firstStart := 0, status := none,
    replay := none, pins := [], threads := [] }
theorem witness_tres_end :
    let s : State := { trapLab 0x0020 .ls with hub := { lab.hub with clusters := [cluster { expected := 2, next := none, phase := 0, arrived := 0 }], launches := [labLaunch] } }
    s.team.ref = s.occ.team ∧ Answered s (frozenTrap 0x0020 .ls) ∧
    ∃ c, s.hub.clusters.find? (fun c => c.id = s.team.cluster) = some c ∧ c.phase = .resident ∧ s.team.ref ∈ c.teams ∧
      s.hub.launches.find? (fun l => l.id = c.launch) = some labLaunch ∧ pktCoop labLaunch.packet = false := by
  exact ⟨by decide, ⟨by decide, rfl, by decide, by decide, by decide⟩, _, rfl, by decide, by decide, by decide, by decide⟩
theorem witness_reply :
    let s := { onLab fun t => { t with park := .svc, saveArea := 0x1000, callSeq := some 3 } with
      occ := { id := 0x1000, image := { words := [0x8000000300000000, 0x4000, 1, 2], version := 0, epoch := 0 } } }
    s.occ.image.words = [0x8000000300000000, 0x4000, 1, 2] ∧ s.team.park = .svc ∧ s.team.saveArea = s.occ.id ∧ s.team.callSeq = some 3 ∧
    (∀ u ∈ s.teams, u.saveArea = s.occ.id → u.ref = s.team.ref) ∧
    (0x8000000300000000 : Double) = BitVec.ofNat 64 (2 ^ 63 + 3 * 2 ^ 32) ∧ (0x4000 : Double) = s.team.tid ∧
    (0x8000000400000000 : Double) ≠ BitVec.ofNat 64 (2 ^ 63 + 3 * 2 ^ 32) := by decide

/-! ### Power -/

/-- A die whose cove 1 has been changed. -/
def coveLab (f : Cove → Cove) : State :=
  { lab with now := 100000, die := { lab.die with coves := vput lab.die.coves 1 (f Cove.reset) }, occ := { aux := 1, id := 100000 } }
/-- CovesGateAndWake: a cove that may be gated and one that may not; failed, gated, waiting for a grant, and waking ones. -/
theorem witness_coves :
    let up := coveLab fun v => { v with gated := false }
    let down := coveLab fun v => { v with gated := true }
    let asked := coveLab fun v => { v with gated := true, wanted := some 5 }
    let waking := coveLab fun v => { v with gated := true, waking := some 100000 }
    up.occ.aux < 9 ∧ gateDue up (busyCoves up) up.occ.die up.occ.aux = true ∧
    gateDue { up with now := 9599 } (busyCoves up) up.occ.die up.occ.aux = false ∧
    (namedCove up up.occ).failed = false ∧ (namedCove up up.occ).gated = false ∧ (namedCove up up.occ).waking = none ∧
    (namedCove down down.occ).gated = true ∧ (namedCove down down.occ).wanted = none ∧ (namedCove down down.occ).waking = none ∧
    (namedCove asked asked.occ).wanted = some 5 ∧ (namedCove asked asked.occ).holdEnd ≤ asked.now ∧
    (∀ g, (asked.dieAt asked.occ.die).lastGrant = some g → g + 4800 ≤ asked.now) ∧
    (∀ u, u < 9 → u ≠ asked.occ.aux → (vget (asked.dieAt asked.occ.die).coves u Cove.reset).wanted = none) ∧
    (namedCove waking waking.occ).waking = some waking.occ.id ∧ (namedCove waking waking.occ).failed = false := by decide

/-- WindowsHeatAndMigration: a core with a resident team and one without; a target and none; a migration that is ready. -/
def labCluster (p : ClusterPhase) : Cluster :=
  { cluster { expected := 1, next := none, phase := 0, arrived := 0 } with teams := [lab.team.ref], phase := p }
def clusterLab (p : ClusterPhase) (f : Team → Team) : State :=
  { onLab f with hub := { lab.hub with clusters := [labCluster p] }, occ := { id := 1, team := lab.team.ref } }
theorem witness_heat :
    let hot := { clusterLab .resident id with hub := { lab.hub with tsens := (List.range 8).map fun k => (64 + k, 0x055f0000) }, occ := { die := 0, core := 0 } }
    let moving := { clusterLab .resident fun t => { t with park := .boundary } with die := { lab.die with migrating := [(0, 64)] }, occ := { die := 0, core := 0 } }
    lab.core.die < 8 ∧ lab.core.pcore < 72 ∧ hot.residents 0 0 ≠ [] ∧ hot.residents 0 1 = [] ∧ (hot.dieAt 0).migrates 0 = false ∧
    targeted hot 0 1 = false ∧ (moving.dieAt 0).migrates 64 = false ∧ targeted moving 0 64 = true ∧ moving.residents 0 64 = [] ∧
    migratedLately hot 0 0 = false ∧ (∃ q, migrationTarget hot 0 = some q) ∧
    migrationTarget { hot with die := { lab.die with migrating := (List.range 8).map fun p => (p, 64 + p) } } 0 = none ∧
    hot.team.ref ∈ hot.residents 0 0 ∧ hot.team.park ≠ .ending ∧
    (moving.dieAt 0).migrating.find? (fun m => m.1 = 0) = some (0, 64) ∧ (moving.dieAt 0).logical 0 = some 0 ∧
    migrationReady moving 0 0 = true ∧ migrationReady (clusterLab .resident id) 0 0 = false ∧ 64 ∈ (moving.dieAt 0).freeCores := by
  refine ⟨by decide, by decide, by decide, by decide, by decide, by decide, by decide, by decide, by decide, by decide, ⟨64, by decide +kernel⟩, by decide +kernel, by decide, by decide,
    by decide, by decide, by decide, by decide, by decide⟩

/-- HostWaitsFaultsAndKills. -/
def faultRecord : FaultReq := { id := 3, page := 3, kind := 0, tenant := 5, waiters := [(.nop .ct, {})], service := 0, time := 0, pkg := 0, answered := false }
theorem witness_faults :
    let s := { lab with hub := { lab.hub with faults := [faultRecord] }, occ := { id := 3, tenant := 5 } }
    Outstanding s ∧ ¬ Outstanding lab ∧ s.hub.faults.find? (fun f => f.id = s.occ.id && !f.answered) = some faultRecord ∧
    lab.hub.faults.find? (fun f => f.id = lab.occ.id && !f.answered) = none := by
  refine ⟨⟨_, List.mem_singleton.2 rfl, rfl, rfl, rfl⟩, ?_, rfl, rfl⟩
  rintro ⟨f, h, _⟩
  cases h
theorem witness_host_waits :
    let o : Occ := { agent := .virtualFunction 3, w := 0x8000000040000008 }
    let s := { site with occ := o }
    let t : State :=
      { site with
          team := { site.team with park := .wwait 0x40000008 0 0 0 }
          hub := { site.hub with waits := [{ tenant := 5, va := 0x40000008 / 8, token := false, waiters := [.team lab.team.ref 1] }] } }
    writerTenant s.hub s.occ = some 5 ∧ s.occ.w.getLsbD 63 = true ∧ ((s.occ.w.extractLsb' 3 53).toNat) * 8 = 0x40000008 ∧
    windowPackage (tenantWindows s 5) 0x40000008 = some s.hub.package ∧ windowPackage (tenantWindows s 5) 8 = none ∧
    findKey s.hub 5 0x40000008 = none ∧ s.hub.waits.length < 65536 ∧
    (∃ k, findKey t.hub 5 0x40000008 = some k ∧ k.waiters = [.team t.team.ref t.team.cluster]) ∧ t.team.park = .wwait 0x40000008 0 0 0 := by
  exact ⟨by decide, by decide, by decide, by decide, by decide, by decide, by decide, ⟨_, rfl, by decide⟩, by decide⟩

/-! ### Queues -/

/-- `site` with the tenant's windows mapping VA 0x40000000 to the LM of core 0, which holds doubles from some offsets: what a read of
them gives does not rest on what a translation cache keeps. -/
def siteWith (xs : List (Nat × List Nat)) : State :=
  let at_ := fun (o : Nat) (ds : List Nat) => ((List.range ds.length).zip ds).flatMap fun (i, x) =>
    (List.range 8).map fun k => (lmKey 0 0 (o + 8 * i + k), (BitVec.ofNat 8 (x / 2 ^ (8 * k)) : Byte))
  { site with
      hub := { site.hub with partitions := site.hub.partitions.map fun p =>
        { p with vwin := [(5, vput (Vector.replicate 8 0) 0 0xe0003f0000000010)] } }
      mem := (xs.flatMap fun x => at_ x.1 x.2).filter fun c => c.2 ≠ 0 }

def labQueue : Queue :=
  { qid := 9, tenant := 5, desc := lmIpa 0 0 0 0, cfg := 0x0009010001000001, bound := true, stopped := false, waiting := false, held := false, lastStart := 0,
    idleFrom := 0, started := [], rseq := 0, hdrFrom := none, depFrom := none, work := [], graph := [], graphSignal := 0, kicks := [], dropped := 0,
    replays := 0, replay := none }
def onQueue (f : Queue → Queue) (s : State) : State := { s with hub := { s.hub with queues := [f labQueue] }, occ := { id := 9, tenant := 5 } }

/-- A descriptor that is allowed and one that is refused; each clause's queue; a page asked for. -/
theorem witness_queue_reads :
    let s := { siteWith [(0, [0, 0, 0x40001000, 0x0009010001000001, 0x40002000, 0])] with occ := { id := lmIpa 0 0 0 0, tenant := 5 } }
    (∃ u, HubReads 5 [(lmIpa 0 0 0 16, 0x40001000), (lmIpa 0 0 0 24, 0x0009010001000001), (lmIpa 0 0 0 32, 0x40002000),
      (lmIpa 0 0 0 40, 0)] s u) ∧
    queueRefused 0 0x40001000 0x0009010001000001 0x40002000 = false ∧ queueRefused 0 0x40001000 0x0009010001000000 0x40002000 = true ∧
    (0x0009010001000001 : Double).getLsbD 19 = false := by
  refine ⟨⟨_, _, Prod.ext ?_ rfl, _, Prod.ext ?_ rfl, _, Prod.ext ?_ rfl, _, Prod.ext ?_ rfl, rfl⟩, by decide, by decide, by decide⟩ <;>
    decide +kernel
theorem witness_queues :
    let graph : Replay := { num := 0, tag := 0, nodes := [], started := [], retired := [], status := 0 }
    let asks : Queue → Queue := fun q => { q with work := [{ node := 0, k := 0, pinned := [], asked := [(0, 0)], bad := false }] }
    named lab = none ∧ named (onQueue id site) = some labQueue ∧ PacketQueue labQueue ∧ (labQueue.tenant ≠ 6) ∧
    ((onQueue id site).hub.queues.filter (·.bound)).length < 64 ∧
    (∀ n, ¬ Asked labQueue 0 n) ∧ Asked (asks labQueue) 0 0 ∧ PacketQueue (asks labQueue) ∧ 0 + 240000000 ≤ { site with now := 240000000 }.now ∧
    (labQueue.cfg ||| 0x80000).getLsbD 19 = true ∧ { labQueue with replay := some graph }.replay.isSome = true ∧
    16 ≤ { labQueue with kicks := List.replicate 16 (0, 0) }.kicks.length ∧ labQueue.kicks.length < 16 := by
  refine ⟨rfl, rfl, by unfold PacketQueue; decide, by decide, by decide, ?_, ⟨_, List.mem_singleton.2 rfl, by decide⟩, by unfold PacketQueue; decide,
    by decide, by decide, by decide, by decide, by decide⟩
  rintro n ⟨w, h, _⟩
  cases h

/-- A queue whose head packet has the doubles given, with a kernel for profile 2 at 0x40000400. -/
def packetLab (packet : List Nat) (f : Queue → Queue) : State :=
  let s := siteWith [(0, [0, 1, 0x40001000, 0x0009010001000001, 0x40002000, 0]),
    (0x400, [0x4f5a4658 + 2 ^ 48, 32, 64, 1, 0, 2, 0, 0, 2, 0x200, 0x100, 0]), (0x1000, packet), (0x3000, [1])]
  let u := onQueue f s
  { u with hub := { u.hub with passengers := vput u.hub.passengers 0 { state := 2, cls := 0, kind := 1, gen := 0 } } }
def viewsOf (s : State) (q : Queue) : List HeadView := (evaluate q s).1.map (·.1)
/-- PacketsStartAndRetire: a packet that is ready, on the dies and as a barrier; one that is refused; a slot that is claimed and holds
no packet; a packet that its signals alone hold. -/
theorem witness_packets :
    viewsOf (packetLab [1, 0x400004, 0, 0x0000000100000001] id) labQueue = [.ready [none, some (0x40000600, 0x100), none]] ∧
    viewsOf (packetLab [2] id) labQueue = [.ready []] ∧
    viewsOf (packetLab [3] id) labQueue = [.refused 2 false] ∧
    (match (headPacket labQueue (packetLab [] id)).1 with | .error b => b | .ok _ => false) = true := by decide +kernel
theorem witness_packet_signals :
    viewsOf (packetLab [2 + 2 ^ 16, 0, 0, 0, 0, 0, 0, 0x40003000] id) labQueue = [.signals [0x40003000] true] := by decide +kernel
/-- The home makes no access of the hub wait: at a start, at a refusal, at the two limits. -/
theorem witness_no_wait :
    let ready := packetLab [1, 0x400004, 0, 0x0000000100000001] id
    let signals := packetLab [2 + 2 ^ 16, 0, 0, 0, 0, 0, 0, 0x40003000] fun q => { q with depFrom := some 0 }
    let claimed := packetLab [] fun q => { q with hdrFrom := some 0 }
    ready.hub.wait = none ∧ (startHead labQueue ready).hub.wait = none ∧ (startHead labQueue (packetLab [3] id)).hub.wait = none ∧
    (hdrExpires { claimed with occ := { id := 9 } }).hub.wait = none ∧ (depExpires { signals with occ := { id := 9 } }).hub.wait = none := by
  decide +kernel
theorem witness_retire :
    let s := { lab with hub := { lab.hub with launches := [labLaunch], clusters := [{ cluster { expected := 2, next := none, phase := 0, arrived := 0 } with phase := .ended }] },
                        occ := { id := 0 } }
    s.hub.launches.find? (fun l => l.id = s.occ.id) = some labLaunch ∧ (∀ c ∈ s.hub.clusters, c.launch = labLaunch.id → c.phase = .ended) ∧
    (∀ x ∈ labLaunch.threads, x.returned = true) ∧ (∃ c ∈ (teamsLab { expected := 2, next := none, phase := 0, arrived := 0 }).hub.clusters,
      c.launch = labLaunch.id ∧ c.phase ≠ .ended) ∧ lab.hub.launches.find? (fun l => l.id = lab.occ.id) = none := by decide
theorem clean_lab : NoDirtyLine lab := by
  constructor
  · intro d p l h
    unfold State.coreAt at h
    split at h <;> cases h
  · intro d l h
    unfold State.dieAt at h
    split at h <;> cases h

/-- ClustersStartAndSave: a saved cluster of one team, whose save area holds what the memory given holds. -/
def savedLab (mem : Memory) : State :=
  let s := clusterLab .saved fun t => { t with resident := false }
  { s with mem := mem, hub := { s.hub with
      passengers := vput s.hub.passengers 0 { state := 2, cls := 0, kind := 1, gen := 0 }, launches := [labLaunch],
      saved := [{ team := { lab.team with tid := 0, park := .boundary, saveArea := 0x200000100000 }, format := 1, owner := none, reply := false }] } }
theorem witness_clusters :
    let run := clusterLab .resident fun t => { t with park := .start }
    let stop := clusterLab .saving fun t => { t with park := .boundary }
    saveGroup run (labCluster .resident) = [labCluster .resident] ∧ run.hub.clusters.find? (fun c => c.id = run.occ.id) = some (labCluster .resident) ∧
    coldCoves run (labCluster .resident) = [] ∧
    coldCoves { run with die := { run.die with coves := vput run.die.coves 0 { Cove.reset with gated := true } } } (labCluster .resident) = [0] ∧
    clusterStopped stop (labCluster .saving) = true ∧ clusterStopped run (labCluster .resident) = false ∧ Foreground stop stop.team.ref ∧
    run.hub.launches.find? (fun l => l.id = (labCluster .placed).launch) = none ∧ run.team.ref = run.occ.team := by
  unfold Foreground
  decide
theorem witness_restore :
    let bad := savedLab []
    let good := savedLab [(0x200000100000, 1)]
    ∃ x, good.hub.saved = [x] ∧ placesFree good (labCluster .saved) = true ∧ placesFree (clusterLab .saved id) (labCluster .saved) = false ∧
      areaPasses bad (labCluster .saved) x = false ∧ areaPasses good (labCluster .saved) x = true ∧ x.format = 1 ∧ x.reply = false ∧
      x.team.trap = none ∧ ((good.dieAt 0).stage 1).parked = 0 ∧ (good.hub.saved.filter fun x => x.team.cluster = 1) = [x] ∧
      x.team.park = .boundary ∧ areaPoisoned good x = false ∧
      areaPoisoned { good with hub := { good.hub with poisoned := [x.team.saveArea + 64] } } x = true := by
  refine ⟨_, rfl, ?_⟩
  decide +kernel

/-! ### Links, dies, registers -/

theorem witness_ports :
    let link := fun (n : Nat) => ({ lab with occ := { core := 3 }, hub := { lab.hub with lanes := vput lab.hub.lanes 3 n } } : State)
    portOf (link 2).hub 3 = 2 ∧ portOf (link 1).hub 3 = 1 ∧ portOf (link 0).hub 3 = 0 ∧ ((link 1).hub.linkQ 3 true).waiting = [] ∧
    portOf { lab.hub with speeds := vput lab.hub.speeds 15 1 } 79 = 1 ∧ isAnswer (link 0).occ.req = false ∧ (link 0).occ.ok = true ∧
    (∀ e, lab.hub.keyEntry 5 = some e → e.2 ≠ 1) := by
  refine ⟨by decide, by decide, by decide, by decide, by decide, by decide, by decide, ?_⟩
  intro e h
  cases h

/-- OutsideRequests: the first and the last bytes of a line at home. -/
theorem witness_at_home : ∀ k ∈ ([.read, .write, .atomic] : List AccKind), AtHome site 5 0x40 64 k 0x40000040 ∧ AtHome site 5 0x7f 1 k 0x40000040 := by
  intro k hk
  refine ⟨⟨⟨_, rfl⟩, ⟨_, rfl, ?_, by decide, by decide⟩, by decide, by decide, by decide⟩,
    ⟨⟨_, rfl⟩, ⟨_, rfl, ?_, by decide, by decide⟩, by decide, by decide, by decide⟩⟩ <;> revert k <;> decide
theorem witness_keys :
    let s := { site with hub := { site.hub with keyTable := [(0, 0x8000000000000005, 77)] } }
    s.hub.keyEntry 5 = some (0x8000000000000005, 77) := by decide
theorem witness_host_bar4 (h : Config.ownsPasid 3 1 = true) (g : Config.bar4 3 7 = some 0) :
    let s := { site with occ := { core := 3, aux := 1, req := { tenant := 0, key := 0, ipa := 0x7040, data := [1, 2], op := .write } } }
    Config.ownsPasid s.occ.core s.occ.aux = true ∧ s.hub.functionTenant s.occ.core = some 5 ∧
    bar4Ipa s.occ.core s.occ.req.ipa = some 0x40 ∧ AtHome s 5 0x40 s.occ.req.data.length .write 0x40000040 := by
  refine ⟨h, by decide, ?_, ⟨_, rfl⟩, ⟨_, rfl, by decide, by decide, by decide⟩, by decide, by decide, by decide, by decide⟩
  show (Config.bar4 3 7).map _ = _
  rw [g]
  rfl
theorem witness_host_bar4_refused (h : Config.bar4 3 8 = none) :
    site.hub.functionTenant 4 = none ∧ ∃ k, k < reqBytes { tenant := 0, key := 0, ipa := 0x7fff, data := [1, 2], op := .write } ∧
      bar4Ipa 3 (0x7fff + k) = none :=
  ⟨by decide, 1, by decide, by show (Config.bar4 3 8).map _ = _; rw [h]; rfl⟩

def labRing (running : List ScaleRun) : ScaleRing :=
  { ring := 2, tenant := 5, desc := lmIpa 0 0 0 0, base := 0x40001000, lsz := 4, endpoints := [[0, 0, 0, 0]], head := 0, running := running }
def scaleLab (mem : List (Nat × List Nat)) (running : List ScaleRun) : State :=
  let s := siteWith mem
  { s with hub := { s.hub with rings := [labRing running] }, occ := { id := 2, tenant := 5, aux := 0 } }
theorem witness_rings_of_scale_out :
    let run : ScaleRun := { k := 0, op := 2, desc := 0, signal := 0, endpoint := 0, tensor := { src := 0, dst := 0, n := [0, 1, 1, 1], ss := [0, 0, 0], ds := [0, 0, 0], next := 0 } }
    ringOf lab = none ∧ ringOf (scaleLab [] []) = some (labRing []) ∧
    (∃ u, hubDoubles 5 (0x40001000 + 32 * (0 % 2 ^ 4)) 3 (scaleLab [] []) = (some [0, 0, 0], u)) ∧
    (∃ u, hubDoubles 5 (0x40001000 + 32 * (0 % 2 ^ 4)) 3 (scaleLab [(0x1000, [1, 0x40000100, 0])] []) = (some [1, 0x40000100, 0], u)) ∧
    (labRing [run]).running.find? (fun y => y.k = 0) = some run ∧
    (∃ u, moveLocal 5 true 0 (tensorPieces run.tensor true) (scaleLab [] [run]) = (none, u)) := by
  refine ⟨rfl, rfl, ⟨_, Prod.ext ?_ rfl⟩, ⟨_, Prod.ext ?_ rfl⟩, by decide, ⟨_, Prod.ext ?_ rfl⟩⟩ <;> decide +kernel
def bigRun : ScaleRun :=
  { k := 0, op := 1, desc := 0x40000100, signal := 0, endpoint := 0, tensor := { src := 0x40000000, dst := 0, n := [4097, 1, 1, 1], ss := [0, 0, 0], ds := [0, 0, 0], next := 0 } }
def bigLab : State := scaleLab [] [bigRun]
/-- A piece that a window maps on to an LM that the tenant may read and that stays. -/
def ownPiece (s : State) (p : Nat × Nat) : Bool :=
  match windowIpa (tenantWindows s 5) .read p.1 with
  | none => false
  | some ipa => match spotOf s.hub.package ipa with
    | .lm d l o => lmRangeGranted s 5 d l o p.2 && !lmAway s d l
    | _ => false
theorem moves_own (f : Nat) (s : State) (ps : List (Nat × Nat)) (h : ps.all (ownPiece s) = true) :
    moveLocal 5 false f ps s = (none, s) := by
  induction ps with
  | nil => rfl
  | cons p ps ih =>
    simp only [List.all_cons, Bool.and_eq_true] at h
    obtain ⟨h, t⟩ := h
    unfold ownPiece at h
    unfold moveLocal
    split at h
    · cases h
    · rename_i ipa e
      split at h
      · rename_i d l o e'
        simp only [Bool.and_eq_true, Bool.not_eq_true'] at h
        have : ∀ bs, localPiece 5 false ipa p.2 bs s = (none, s) := by
          intro bs
          unfold localPiece
          simp [e', h.1, outsideLm, h.2, atomicOf]
        simp only [Bool.false_eq_true, if_false, e, this]
        exact ih t
      · cases h
/-- A table that can be read and one that cannot; entries that the hub's accesses do not make wait; a get into no window. -/
theorem witness_rings_do_not_wait :
    let get : ScaleRun := { bigRun with op := 2, tensor := { bigRun.tensor with n := [1, 1, 1, 1] } }
    let nowhere : ScaleRun := { get with tensor := { get.tensor with dst := 0x60000000 } }
    (readEndpoints 5 0x40002000 1 (scaleLab [] [])).1 = some [[0, 0, 0, 0]] ∧ (readEndpoints 5 0x60000000 1 (scaleLab [] [])).1 = none ∧
    (readEndpoints 5 0x40002000 1 (scaleLab [] [])).2.hub.wait = none ∧
    (consumeRing 2 16 (scaleLab [(0x1000, [1, 0x40000100, 0])] [])).hub.wait = none ∧
    (consumeRing 2 16 (scaleLab [(0x1000, [5, 0x40000100, 0])] [])).hub.wait = none ∧
    (entryAdvances (scaleLab [] [bigRun])).hub.wait = none ∧
    (moveLocal 5 true 0 (tensorPieces nowhere.tensor true) (scaleLab [] [nowhere])).1 = some .fault ∧
    writerTenant (scaleLab [] []).hub { (scaleLab [] []).occ with agent := .virtualFunction 3 } = some 5 := by decide +kernel
theorem witness_next_granule : bigRun.tensor.next + 1 < bigRun.tensor.granules ∧
    (∃ u, moveLocal 5 false 0 (tensorPieces bigRun.tensor false) bigLab = (none, u)) :=
  ⟨by decide, _, moves_own 0 bigLab _ (by decide +kernel)⟩
theorem witness_ring_descriptor :
    let s := { siteWith [(0, [0, 0, 0x40001000, 0x0000000200000004, 0x40002000, 1])] with occ := { id := lmIpa 0 0 0 0, tenant := 5 } }
    ∃ u, HubReads 5 [(lmIpa 0 0 0 0, 0), (lmIpa 0 0 0 16, 0x40001000), (lmIpa 0 0 0 24, 0x0000000200000004),
      (lmIpa 0 0 0 32, 0x40002000), (lmIpa 0 0 0 40, 1)] s u := by
  refine ⟨_, _, Prod.ext ?_ rfl, _, Prod.ext ?_ rfl, _, Prod.ext ?_ rfl, _, Prod.ext ?_ rfl, _, Prod.ext ?_ rfl, rfl⟩ <;> decide +kernel

theorem witness_dies :
    let online := { site with hub := { site.hub with passengers := vput site.hub.passengers 0 { state := 2, cls := 0, kind := 1, gen := 0 } },
                              die := { site.die with answering := true, misses := 0 } }
    let lost := { site with hub := { site.hub with passengers := vput site.hub.passengers 0 { state := 3, cls := 0, kind := 1, gen := 0 } } }
    (∀ d, d < 8 → (passengerOf online d).state ≠ 2 ∨ (online.dieAt d).answering = true ∧ (online.dieAt d).misses = 0) ∧ online.occ.ok = true ∧
    (passengerOf online 0).state = 2 ∧ (passengerOf lost 0).state = 3 ∧ (∀ l ∈ site.hub.launches, ∀ c ∈ site.hub.clusters, c.launch = l.id → c.die ≠ 0) ∧
    passportFits site 0 { kind := socketKind 0, profile := 2 } = true ∧
    passportFits site 23 { kind := socketKind 23 + 1, profile := 2 } = false := by decide
theorem witness_storage :
    let clean : HubLine := { ipa := 0x40, pa := 0x40000040, bytes := List.replicate 64 0, dirty := false, side := none, sided := true }
    let s := fun d => ({ site with hub := { site.hub with cache := [{ clean with dirty := d }] }, occ := { id := 0x40, ok := false, arr := .hubCache } } : State)
    (s true).hub.line 0x40 = some { clean with dirty := true } ∧ (s false).hub.line 0x40 = some clean ∧
    findLine [cachedLine 0x40] 5 0x40 = some (cachedLine 0x40) ∧ (cachedLine 0x40).isDirty = true ∧ (lab.teamAt lab.team.ref).resident = true ∧
    (lab.teamAt { lab.team.ref with rslot := 3 }).resident = false := by decide

/-- ResetBootAndRegisters: each agent at the limits of what it reaches. -/
theorem witness_registers (x y : BootImage) (h : accepted x = true) (g : accepted y = false) :
    accepted x = true ∧ accepted y = false ∧ lab.hub.imageOk = false ∧
    apertureOffset .firmware 0x50018 = some 0x50018 ∧ apertureOffset .physicalFunction 0xffff = none ∧
    apertureOffset .physicalFunction 0x60030 = some 0x50030 ∧ reaches .firmware true 0x50018 = true ∧
    reaches .physicalFunction true 0x50030 = true ∧ reaches (.virtualFunction 3) true 0x50018 = false ∧ 0x70000 + 8 * 15 < 2 ^ 28 ∧
    (∃ x, asEvent lab { lab.occ with id := 0x50030 } = some x) ∧ (asEvent lab { lab.occ with id := 0x50018 }).isNone = true := by
  exact ⟨h, g, by decide, by decide, by decide, by decide, by decide, by decide, by decide, by decide, ⟨_, rfl⟩, by decide⟩

/-! ### The machine -/

/-- StepRunsTheInstruction: a slot's turn, a dispatch of a bundle that is in the instruction store, a turn of the sweep engine with a
group at word 4, an event. -/
theorem witness_step_slot :
    let s := { onLab fun t => { t with queue := [bundleAt 0], pass := vput t.pass 0 1 } with agenda := [.slot 0 0 .sx] }
    AtPlace s 0 0 ∧ s.agenda.head? = some (.slot 0 0 .sx) ∧ s.core.starts (slotDomain .sx) s.now = true ∧
    s.team.placedAt (s.team.passed .sx) = some (bundleAt 0) ∧ s.team.mayMove .sx = true := by
  unfold AtPlace
  decide
theorem witness_step_dispatch :
    let s := { codeLab with agenda := [.dispatch 0 0] }
    AtPlace s 0 0 ∧ mayPlace s = true ∧ s.core.starts .core s.now = true ∧ s.team.loop = none ∧
    (∀ k, k < 1 → fetchBytes s (s.team.pc + 4 * k) 4 = some (wordBytes ([0].getD k 0))) ∧
    ∃ b, decodeBundle ([0].flatMap wordBytes) = .ok (b, []) ∧ loopLength b.ct = none := by
  refine ⟨by unfold AtPlace; decide, by decide, by decide, by decide, by decide, _, rfl, by decide⟩
theorem witness_step_sweep :
    let s := { groupLab 0x0003f0000000003f with agenda := [.sweep 0 0], now := 0 }
    s.hub.fatal = false ∧ s.agenda.head? = some (.sweep 0 0) ∧ s.core.starts .vx s.now = true ∧ s.core.sweep.phase = .run ∧
    (∃ h, vget s.core.shoals s.core.sweep.h none = some h ∧ h.invalid = false ∧ 4 ≤ (h.cfg.extractLsb' 40 12).toNat) ∧
    s.core.sweep.serial = false ∧ (∀ r ∈ s.core.sweep.runners, r.active = true ∧ r.cpc = 4 ∧ r.ops < 4096) ∧ s.core.sweep.runners ≠ [] ∧
    decodeContext (s.core.codeWord 4) = .ok .cnop := by
  refine ⟨by decide, by decide, by decide, by decide, ⟨_, rfl, rfl, by decide⟩, by decide, by decide, by decide, ?_⟩
  decide
theorem witness_step_event :
    let s := { lab with agenda := [.event .energyWindowEnd {}] }
    s.hub.fatal = false ∧ s.agenda.head? = some (.event .energyWindowEnd {}) ∧ { s with agenda := [] }.agenda = [] := ⟨by decide, rfl, rfl⟩

/-- MemoryStaysCanonical. -/
theorem witness_canonical : Canonical site ∧ ∃ t, step site = .next t := ⟨by unfold Canonical; decide, newCycle site, rfl⟩
/-- DecodeAndEncodeAgree. -/
theorem witness_round_trip : (Instr.add plainR).wf = true ∧ (Instr.cadd plainCx).wf = true ∧ (Instr.cadd plainCx).slot = none ∧
    (encode (.cadd plainCx)).isSome = true ∧ decodeContext 0 = .ok .cnop := by decide

end Sys2Proof.Tests
end

section
/-! SUPPORT. What reset leaves: the elements of the vectors that reset fills, the teams and the physical cores that it gives. -/

namespace Sys2Proof.Laws

open Machine Claims

theorem vget_replicate {α : Type} {n : Nat} (x d : α) (i : Nat) (h : i < n) : vget (Vector.replicate n x) i d = x := by
  rw [vget_lt _ _ _ h, Vector.getElem_replicate]

theorem vget_ofFn {α : Type} {n : Nat} (f : Fin n → α) (d : α) (i : Nat) (h : i < n) : vget (Vector.ofFn f) i d = f ⟨i, h⟩ := by
  rw [vget_lt _ _ _ h, Vector.getElem_ofFn]

/-- R17: a die resets to the identity map of its cores, with no spare core taken. -/
theorem physical_reset (d l : Nat) (h : l < 64) : (Die.reset d).physical l = some l := vget_ofFn _ _ l h

/-- R182: each of the four live sets that a YIELD can name marks every register live. -/
theorem yls_reset (r : TeamRef) (i : Nat) (h : i < 4) : vget (Team.reset r).yls i 0 = BitVec.allOnes 64 :=
  vget_replicate _ _ i h

/-- R445: every grant level has the widest grant. -/
theorem gltab_reset (j : Nat) (h : j < 16) : vget Hub.reset.gltab j 0 = 0xfffff := vget_replicate _ _ j h

theorem fwBase_reset (j : Nat) (h : j < 16) : vget Hub.reset.fwBase j 0 = 0 := vget_replicate _ _ j h

theorem fwLen_reset (j : Nat) (h : j < 16) : vget Hub.reset.fwLen j 0 = 0 := vget_replicate _ _ j h

/-- At every resident slot stands the team of before the first launch: the foreground team is one, and no other is held. -/
theorem teamAt_reset (r : TeamRef) : State.reset.teamAt r = Team.reset r := by
  unfold State.teamAt
  split
  case isTrue own => exact congrArg Team.reset own
  case isFalse => rfl

/-- Settles O56: the constants stand in the reset state's fields; its vectors, the map of cores and the teams at the resident
slots are given element by element. -/
theorem resetLeaves : Obligations.ResetLeaves := by
  unfold Obligations.ResetLeaves
  refine ⟨rfl, rfl, rfl, rfl, rfl, fun i => yls_reset _ i, fun l => physical_reset 0 l, rfl, rfl,
    fun j h => ⟨gltab_reset j h, fwBase_reset j h, fwLen_reset j h⟩, rfl, rfl, rfl, rfl, rfl, rfl, rfl, fun r => ?_⟩
  rw [teamAt_reset]
  rfl

end Sys2Proof.Laws
end

section
/-! SUPPORT. What write-backs, error records, messages and the hub's own accesses leave alone: the books of work, that is
the teams and what the hub holds of clusters, saves, launches, queues, waits and fault requests. -/

namespace Sys2Proof.Laws

open Machine Claims

/-- A fold of steps each of which leaves what `g` reads alone leaves it alone. -/
theorem foldl_keeps {σ α β : Type} {f : σ → α → σ} (g : σ → β) (h : ∀ s x, g (f s x) = g s) (l : List α) (s : σ) :
    g (l.foldl f s) = g s := by
  induction l generalizing s with
  | nil => rfl
  | cons x l ih => exact (ih (f s x)).trans (h s x)

/-- What the hub holds of work. -/
structure HubBooks where
  clusters : List Cluster
  saved : List Saved
  launches : List Launch
  queues : List Queue
  waits : List WaitKey
  faults : List FaultReq

@[inherit_doc HubBooks] def hubBooks (h : Hub) : HubBooks :=
  { clusters := h.clusters, saved := h.saved, launches := h.launches, queues := h.queues, waits := h.waits, faults := h.faults }

/-- The books of work: what the start, the save, the end and the kill of clusters act on. -/
structure Books where
  team : Team
  teams : List Team
  hub : HubBooks

@[inherit_doc Books] def books (s : State) : Books := { team := s.team, teams := s.teams, hub := hubBooks s.hub }

/-! ## The books of work -/

theorem books_congr {s t : State} (h1 : s.team = t.team) (h2 : s.teams = t.teams) (h3 : hubBooks s.hub = hubBooks t.hub) :
    books s = books t := by rw [books, books, h1, h2, h3]

section

variable {s t : State} (h : books s = books t)
include h

theorem books_team : s.team = t.team := congrArg Books.team h
theorem books_teams : s.teams = t.teams := congrArg Books.teams h
theorem books_hub : hubBooks s.hub = hubBooks t.hub := congrArg Books.hub h
theorem books_clusters : s.hub.clusters = t.hub.clusters := congrArg HubBooks.clusters (books_hub h)
theorem books_saved : s.hub.saved = t.hub.saved := congrArg HubBooks.saved (books_hub h)
theorem books_launches : s.hub.launches = t.hub.launches := congrArg HubBooks.launches (books_hub h)
theorem books_queues : s.hub.queues = t.hub.queues := congrArg HubBooks.queues (books_hub h)
theorem books_waits : s.hub.waits = t.hub.waits := congrArg HubBooks.waits (books_hub h)
theorem books_faults : s.hub.faults = t.hub.faults := congrArg HubBooks.faults (books_hub h)

theorem books_teamAt (r : TeamRef) : s.teamAt r = t.teamAt r := by
  unfold State.teamAt
  rw [books_team h, books_teams h]

end

theorem books_onHub (s : State) (f : Hub → Hub) (h : hubBooks (f s.hub) = hubBooks s.hub) : books (s.onHub f) = books s :=
  books_congr rfl rfl h

@[simp] theorem books_modCore (s : State) (d p : Nat) (f : Core → Core) : books (s.modCore d p f) = books s := by simp [books]
@[simp] theorem books_modDie (s : State) (d : Nat) (f : Die → Die) : books (s.modDie d f) = books s := by simp [books]
@[simp] theorem books_onCore (s : State) (f : Core → Core) : books (s.onCore f) = books s := rfl
@[simp] theorem books_after (s : State) (n : Nat) (i : Instr) (o : Occ) : books (s.after n i o) = books s := rfl
@[simp] theorem books_errorRecord (src : Double) (addr : Nat) (detail pkt : Double) (outcome : Nat) (s : State) :
    books (errorRecord src addr detail pkt outcome s) = books s := by
  unfold errorRecord State.onHub
  dsimp only
  split <;> rfl

@[simp] theorem books_record (t : Option Nat) (o u k i c : Nat) (d p : Double) (s : State) :
    books (record t o u k i c d p s) = books s := books_errorRecord ..

@[simp] theorem books_skipRecord (s : State) : books (skipRecord s) = books s := rfl

/-! ## The home -/

/-- Scale bytes reach the hub cache alone (R164). -/
theorem hubBooks_scaleStore (a : Nat) (e : Byte) (h : Hub) : hubBooks (scaleStore a e h) = hubBooks h := by
  unfold scaleStore
  refine foldl_keeps hubBooks (fun h j => ?_) _ h
  dsimp only
  split
  · split <;> rfl
  · rfl

@[simp] theorem books_homePut (line pa : Nat) (bs : List (Option Byte)) (s : State) : books (homePut line pa bs s) = books s := by
  unfold homePut
  extract_lets u v
  have hu : books u = books s := by
    unfold u
    split <;> rfl
  have hv : books v = books u := by
    unfold v
    split
    · rfl
    · split <;> rfl
  refine (books_onHub v _ (foldl_keeps hubBooks (fun h x => ?_) _ _)).trans (hv.trans hu)
  split
  · exact hubBooks_scaleStore ..
  · rfl

/-! ## The directory and the home's accesses -/

@[simp] theorem books_snoopDie (pa line : Nat) (inval : Bool) (s : State) (x : Nat) : books (snoopDie pa line inval s x) = books s := by
  unfold snoopDie
  refine foldl_keeps books (fun s l => ?_) _ s
  dsimp only
  split
  · rfl
  · rw [books_modDie]
    split
    · exact books_homePut ..
    · rfl

@[simp] theorem books_flushRange (base size : Nat) (inval : Bool) (dies : List Nat) (s : State) :
    books (flushRange base size inval dies s) = books s := by
  unfold flushRange
  refine foldl_keeps books (fun s x => foldl_keeps books (fun s l => ?_) _ s) _ s
  split
  · exact books_snoopDie ..
  · rfl

@[simp] theorem books_reclaimRange (s : State) : books (reclaimRange s) = books s := by
  unfold reclaimRange
  split
  · rfl
  · extract_lets mine n u v
    have hv : books v = books s := (books_onHub _ _ rfl).trans (books_flushRange ..)
    split
    · exact (books_skipRecord v).trans hv
    · exact (books_record ..).trans ((books_onHub _ _ rfl).trans hv)

@[simp] theorem books_renewRegion (old new : Region) (s : State) : books (renewRegion old new s) = books s := by
  unfold renewRegion
  dsimp only
  split
  · rfl
  · split <;> rfl

@[simp] theorem books_touchRegion (agent : Option Nat) (line : Nat) (wr : Bool) (s : State) :
    books (touchRegion agent line wr s) = books s := by
  unfold touchRegion
  extract_lets u cm q
  have hu : books u = books s := by
    unfold u
    split
    · exact books_reclaimRange s
    · rfl
  refine Eq.trans ?_ hu
  split
  · split
    · split
      · exact books_renewRegion ..
      · rfl
    · exact books_renewRegion ..
    · rfl
  · exact (books_after ..).trans ((books_onHub _ _ rfl).trans (books_flushRange ..))

@[simp] theorem books_snoop (agent : Option Nat) (pa line : Nat) (wr : Bool) (s : State) :
    books (snoop agent pa line wr s) = books s :=
  (foldl_keeps books (books_snoopDie pa line wr) _ _).trans (books_touchRegion ..)

@[simp] theorem books_learnLeaf (loc : Nat) (s : State) : books (learnLeaf loc s) = books s := by
  unfold learnLeaf
  split
  · split <;> rfl
  · rfl

@[simp] theorem books_homeWrite (agent : Option Nat) (tenant line : Nat) (bs : List (Option Byte)) (dir : Bool) (s : State) :
    books (homeWrite agent tenant line bs dir s).2 = books s := by
  unfold homeWrite
  split
  · split
    · split
      · rfl
      · cases dir <;> simp
    · rfl
  · split <;> rfl
  · rfl

/-! ## A die's caches, flushed with no team to count the writes -/

@[simp] theorem books_ownLine (d line : Nat) (s : State) : books (ownLine d line s) = books s := by
  unfold ownLine
  split
  · split
    · split
      · exact books_snoop ..
      · rfl
    · rfl
  · rfl

@[simp] theorem books_storeL2 (d tenant line : Nat) (bs : List (Option Byte)) (s : State) :
    books (storeL2 d tenant line bs s) = books s := by
  unfold storeL2
  rw [books_modDie, books_ownLine]

theorem books_evictL2 (d : Nat) (l : Line) (s : State) : books (evictL2 none d l s) = books s := by
  have h := books_homeWrite (some d) l.tenant l.ipa l.dirtyBytes (dieTracked s d) s
  unfold evictL2
  dsimp only
  split
  · exact books_modDie ..
  · split
    · next e => rw [e] at h; exact (books_modDie ..).trans h
    · next e => rw [e] at h; exact h

theorem books_shrinkSlice (d line k : Nat) (s : State) : books (shrinkSlice none d line k s) = books s := by
  induction k generalizing s with
  | zero => rfl
  | succ k ih =>
    unfold shrinkSlice
    dsimp only
    split
    · rfl
    · split
      · rfl
      · exact (ih _).trans (books_evictL2 ..)

theorem books_writeBackL1 (d : Nat) (l : Line) (s : State) : books (writeBackL1 none d l s) = books s := by
  unfold writeBackL1
  split
  · exact (books_shrinkSlice ..).trans (books_storeL2 ..)
  · rfl

theorem books_cleanL1 (d p tenant line : Nat) (s : State) : books (cleanL1 none d p tenant line s) = books s := by
  unfold cleanL1
  split
  · rw [books_modCore, books_writeBackL1]
  · rfl

/-- Lines that leave an L1D with no team to count their writes change no book: they go no further than the L2 and the home. -/
@[simp] theorem books_flushL1 (d p : Nat) (keep : Line → Bool) (s : State) : books (flushL1 none d p keep s) = books s :=
  foldl_keeps books (fun s (l : Line) => books_cleanL1 d p l.tenant l.ipa s) _ s

/-! ## Messages -/

@[simp] theorem books_sendOn (r : LinkReq) (s : State) : books (sendOn r s) = books s := by
  unfold sendOn
  dsimp only
  split
  · rfl
  · split <;> rfl
  · split <;> rfl
  · split <;> rfl

@[simp] theorem books_toPackage (tenant pkg va : Nat) (s : State) : books (toPackage tenant pkg va s) = books s := books_sendOn ..

@[simp] theorem books_wakeHost (j : Nat) (s : State) : books (wakeHost j s) = books s := rfl

@[simp] theorem books_clearGrant (d l : Nat) (lmg : Double) (u : Bool) (s : State) : books (clearGrant d l lmg u s) = books s := rfl

@[simp] theorem books_zeroGrant (r : TeamRef) (s : State) : books (zeroGrant r s) = books s := by
  unfold zeroGrant
  dsimp only
  split
  · exact books_modCore ..
  · rfl

/-! ## The hub's own accesses to memory -/

@[simp] theorem books_exponentAt (ipa : Nat) (s : State) : books (exponentAt ipa s).2 = books s := by
  unfold exponentAt
  split
  · split
    · dsimp only
      split <;> exact books_snoop ..
    · rfl
  · split <;> rfl
  all_goals rfl

@[simp] theorem books_scaleRecord (j ipa : Nat) (s : State) : books (scaleRecord j ipa s) = books s := by
  unfold scaleRecord
  split
  · rfl
  · exact (books_errorRecord ..).trans (books_onHub _ _ rfl)

@[simp] theorem books_exponentsOf (j line : Nat) (is : List Nat) (s : State) : books (exponentsOf j line is s).2 = books s := by
  induction is generalizing s with
  | nil => rfl
  | cons i is ih =>
    unfold exponentsOf
    dsimp only
    refine (ih _).trans ?_
    split
    · exact books_exponentAt ..
    · exact (books_scaleRecord ..).trans (books_exponentAt ..)

@[simp] theorem books_sideband (line : Nat) (s : State) : books (sideband line s).2 = books s := by
  unfold sideband
  split
  · rfl
  · exact books_exponentsOf ..

@[simp] theorem books_hubFill (line pa : Nat) (s : State) : books (hubFill line pa s).2 = books s := by
  have fill : ∀ l : HubLine, books ((sideband line s).2.onHub fun h => h.putLine l) = books s := fun l =>
    (books_onHub _ _ rfl).trans (books_sideband line s)
  unfold hubFill
  dsimp only
  split
  · split
    · rfl
    · exact fill _
  · exact fill _

@[simp] theorem books_hubCheck (tenant ipa : Nat) (k : AccKind) (s : State) : books (hubCheck tenant ipa k s).2 = books s := by
  unfold hubCheck
  split <;> rfl

@[simp] theorem books_hubLineRead (tenant line : Nat) (s : State) : books (hubLineRead tenant line s).2 = books s := by
  have check := books_hubCheck tenant line .read s
  unfold hubLineRead
  split
  · split
    · next e => rwa [e] at check
    · next e =>
      rw [e] at check
      split
      · exact check
      · exact (books_hubFill ..).trans ((books_snoop ..).trans ((books_learnLeaf ..).trans check))
  · exact check
  · rfl
  · split <;> rfl
  · rfl

@[simp] theorem books_hubLineWrite (tenant line : Nat) (bs : List (Option Byte)) (s : State) :
    books (hubLineWrite tenant line bs s) = books s := by
  have check := books_hubCheck tenant line .write s
  unfold hubLineWrite
  split
  · split
    · next e => rwa [e] at check
    · next e =>
      rw [e] at check
      split
      · exact check
      · exact (books_homePut ..).trans ((books_snoop ..).trans ((books_learnLeaf ..).trans check))
  · split
    · next e => rwa [e] at check
    · next e => rwa [e] at check
  · split <;> rfl
  · split <;> rfl
  · rfl

@[simp] theorem books_ipaLoad (tenant ipa : Nat) (s : State) : books (ipaLoad tenant ipa s).2 = books s := by
  unfold ipaLoad
  dsimp only
  split <;> simp

@[simp] theorem books_ipaStore (tenant ipa : Nat) (x : Double) (s : State) : books (ipaStore tenant ipa x s) = books s :=
  books_hubLineWrite ..

@[simp] theorem books_hubStore (tenant va : Nat) (x : Double) (s : State) : books (hubStore tenant va x s) = books s := by
  unfold hubStore
  split <;> simp

@[simp] theorem books_descRead (q : Queue) (off : Nat) (s : State) : books (descRead q off s).2 = books s := books_ipaLoad ..

end Sys2Proof.Laws
end

section
/-! SUPPORT. The kill of a tenant context (R490): each of its steps takes one kind of thing that a tenant holds, and
no later step gives anything back. -/

namespace Sys2Proof.Laws

open Machine Claims

/-! ## The team at a resident slot -/

@[simp] theorem teamAt_ref (s : State) (r : TeamRef) : (s.teamAt r).ref = r := by
  unfold State.teamAt
  split
  · assumption
  · cases h : s.teams.find? fun t => t.ref = r with
    | none => rfl
    | some t => simpa using List.find?_some h

theorem teamAt_own (s : State) : s.teamAt s.team.ref = s.team := if_pos rfl

/-- A resident team is one that the state holds. -/
theorem teamAt_mem {s : State} {r : TeamRef} (h : (s.teamAt r).resident = true) : s.teamAt r ∈ s.allTeams := by
  unfold State.teamAt at h ⊢
  split at h
  · next own => rw [if_pos own]; exact List.mem_cons_self
  · next other =>
    rw [if_neg other]
    cases e : s.teams.find? fun t => t.ref = r with
    | none => rw [e] at h; cases h
    | some t => exact List.mem_cons_of_mem _ (List.mem_of_find?_eq_some e)

theorem teamAt_modTeam (s : State) (r : TeamRef) (f : Team → Team) (h : (f (s.teamAt r)).ref = r) (q : TeamRef) :
    (s.modTeam r f).teamAt q = if q = r then f (s.teamAt r) else s.teamAt q := by
  by_cases own : s.team.ref = r
  · have ht : s.teamAt r = s.team := if_pos own
    rw [ht] at h ⊢
    unfold State.modTeam State.teamAt
    simp only [own, h, if_true]
    by_cases e : q = r
    · simp [e]
    · simp [e, Ne.symm e]
  · unfold State.modTeam
    rw [if_neg own]
    generalize s.teamAt r = t at h ⊢
    by_cases e : q = r
    · rw [e, if_pos rfl]
      unfold State.teamAt
      simp [own, h]
    · rw [if_neg e]
      unfold State.teamAt
      have away : (s.teams.filter fun t => t.ref ≠ r).find? (fun t => t.ref = q) = s.teams.find? fun t => t.ref = q := by
        rw [List.find?_filter]
        congr 1
        funext t
        by_cases x : t.ref = q <;> simp [x, e]
      rw [List.find?_cons_of_neg (by simp [h, Ne.symm e]), away]

/-! ## A team is discarded -/

/-- The keys of the wait-and-wake table without a waiter (R411). -/
def keysWithout (w : Waiter) (ks : List WaitKey) : List WaitKey :=
  (ks.map fun k => { k with waiters := k.waiters.filter (· ≠ w) }).filter fun k => k.token || !k.waiters.isEmpty

theorem books_removeWaiter (w : Waiter) (s : State) :
    books (removeWaiter w s) = books (s.onHub fun h => { h with waits := keysWithout w h.waits }) :=
  foldl_keeps books (fun s (a : Abroad) => books_toPackage a.tenant a.pkg a.va s) _ _

/-- A team's resident slot and its part of the core, free. -/
def vacated (r : TeamRef) (s : State) : State :=
  (s.modCore r.die (s.coreOf r) fun c => c.dropTeam r ((s.teamAt r).tid.getLsbD 14)).modTeam r fun _ => Team.reset r

theorem dropTeam_eq (r : TeamRef) (s : State) : dropTeam r s = removeWaiter (.team r (s.teamAt r).cluster) (vacated r s) := rfl

theorem vacated_hub (r : TeamRef) (s : State) : (vacated r s).hub = s.hub := by simp [vacated]

theorem teamAt_vacated (r q : TeamRef) (s : State) : (vacated r s).teamAt q = if q = r then Team.reset r else s.teamAt q := by
  unfold vacated
  rw [teamAt_modTeam _ _ _ rfl, books_teamAt (books_modCore ..)]

/-- A discarded team leaves no other book of the hub than the table of waits. -/
theorem hubBooks_dropTeam (r : TeamRef) (s : State) :
    hubBooks (dropTeam r s).hub = { hubBooks s.hub with waits := keysWithout (.team r (s.teamAt r).cluster) s.hub.waits } := by
  rw [dropTeam_eq, books_hub (books_removeWaiter ..), onHub_hub, vacated_hub]
  rfl

theorem teamAt_dropTeam (r q : TeamRef) (s : State) : (dropTeam r s).teamAt q = if q = r then Team.reset r else s.teamAt q := by
  rw [dropTeam_eq, books_teamAt (books_removeWaiter ..)]
  exact teamAt_vacated ..

/-! ## What only becomes less -/

/-- In `t` stands nothing of a tenant that does not stand in `s`: a resident team, a saved team, a wait, an outstanding fault
request, a running queue. -/
structure Dwindles (s t : State) : Prop where
  teams : ∀ r, t.teamAt r = s.teamAt r ∨ (t.teamAt r).resident = false
  saved : ∀ x ∈ t.hub.saved, x ∈ s.hub.saved
  waits : ∀ k ∈ t.hub.waits, ∃ j ∈ s.hub.waits, j.tenant = k.tenant
  faults : ∀ f ∈ t.hub.faults, ∃ g ∈ s.hub.faults, g.tenant = f.tenant ∧ (g.answered = true → f.answered = true)
  queues : ∀ q ∈ t.hub.queues, ∃ p ∈ s.hub.queues, p.tenant = q.tenant ∧ (p.stopped = true → q.stopped = true)

namespace Dwindles

theorem refl (s : State) : Dwindles s s :=
  ⟨fun _ => .inl rfl, fun _ h => h, fun k h => ⟨k, h, rfl⟩, fun f h => ⟨f, h, rfl, id⟩, fun q h => ⟨q, h, rfl, id⟩⟩

theorem trans {s t u : State} (h : Dwindles s t) (h' : Dwindles t u) : Dwindles s u where
  teams r := by
    rcases h'.teams r with e | e
    · rw [e]; exact h.teams r
    · exact .inr e
  saved x hx := h.saved x (h'.saved x hx)
  waits k hk := by
    obtain ⟨j, hj, e⟩ := h'.waits k hk
    obtain ⟨i, hi, e'⟩ := h.waits j hj
    exact ⟨i, hi, e'.trans e⟩
  faults f hf := by
    obtain ⟨g, hg, e, a⟩ := h'.faults f hf
    obtain ⟨g', hg', e', a'⟩ := h.faults g hg
    exact ⟨g', hg', e'.trans e, a ∘ a'⟩
  queues q hq := by
    obtain ⟨p, hp, e, a⟩ := h'.queues q hq
    obtain ⟨p', hp', e', a'⟩ := h.queues p hp
    exact ⟨p', hp', e'.trans e, a ∘ a'⟩

theorem of_books {s t u : State} (h : Dwindles s t) (e : books u = books t) : Dwindles s u := by
  have hs := books_saved e
  have hw := books_waits e
  have hf := books_faults e
  have hq := books_queues e
  exact ⟨fun r => (books_teamAt e r).symm ▸ h.teams r, hs ▸ h.saved, hw ▸ h.waits, hf ▸ h.faults, hq ▸ h.queues⟩

theorem foldl {α : Type} {f : State → α → State} (h : ∀ s x, Dwindles s (f s x)) (l : List α) (s : State) :
    Dwindles s (l.foldl f s) := by
  induction l generalizing s with
  | nil => exact refl s
  | cons x l ih => exact (h s x).trans (ih _)

end Dwindles

theorem keysWithout_tenant {w : Waiter} {ks : List WaitKey} {k : WaitKey} (h : k ∈ keysWithout w ks) :
    ∃ j ∈ ks, j.tenant = k.tenant := by
  obtain ⟨j, hj, rfl⟩ := List.mem_map.1 (List.mem_filter.1 h).1
  exact ⟨j, hj, rfl⟩

theorem dwindles_removeWaiter (w : Waiter) (s : State) : Dwindles s (removeWaiter w s) := by
  refine Dwindles.of_books ?_ (books_removeWaiter w s)
  exact { Dwindles.refl s with waits := fun _ => keysWithout_tenant }

theorem dwindles_dropTeam (r : TeamRef) (s : State) : Dwindles s (dropTeam r s) := by
  have hub := hubBooks_dropTeam r s
  have hs : (dropTeam r s).hub.saved = s.hub.saved := congrArg HubBooks.saved hub
  have hw : (dropTeam r s).hub.waits = _ := congrArg HubBooks.waits hub
  have hf : (dropTeam r s).hub.faults = s.hub.faults := congrArg HubBooks.faults hub
  have hq : (dropTeam r s).hub.queues = s.hub.queues := congrArg HubBooks.queues hub
  have same := Dwindles.refl s
  refine ⟨fun q => ?_, hs ▸ same.saved, fun k hk => ?_, hf ▸ same.faults, hq ▸ same.queues⟩
  · rw [teamAt_dropTeam]
    split
    · exact .inr rfl
    · exact .inl rfl
  · rw [hw] at hk
    exact keysWithout_tenant hk

/-! ## Clusters and launches end -/

theorem dwindles_endCluster (id : Nat) (s : State) : Dwindles s (endCluster id s) := by
  unfold endCluster
  split
  · exact Dwindles.refl s
  · next c _ =>
    extract_lets u fin v
    have hu : Dwindles s u := by
      unfold u
      split
      · exact Dwindles.foldl (fun s r => dwindles_removeWaiter _ s) _ s
      · exact Dwindles.foldl (fun s r => dwindles_dropTeam r s) _ s
    refine (hu.trans ?_).of_books (t := v) (books_modDie ..)
    exact { Dwindles.refl u with saved := fun x hx => (List.mem_filter.1 hx).1 }

theorem dwindles_modQueues (s : State) (p : Queue → Bool) (f : Queue → Queue)
    (h : ∀ q, (f q).tenant = q.tenant ∧ (q.stopped = true → (f q).stopped = true)) :
    Dwindles s (s.onHub fun h => { h with queues := modWhere p f h.queues }) := by
  refine { Dwindles.refl s with queues := fun q hq => ?_ }
  obtain ⟨q, hm, rfl⟩ := List.mem_map.1 hq
  refine ⟨q, hm, ?_⟩
  split
  · exact ⟨(h q).1.symm, (h q).2⟩
  · exact ⟨rfl, id⟩

theorem dwindles_forgetLaunch (l : Launch) (s : State) : Dwindles s (forgetLaunch l s) := by
  unfold forgetLaunch
  have ends := Dwindles.foldl (fun s id => dwindles_endCluster id s) l.clusters s
  have qs := dwindles_modQueues (l.clusters.foldl (fun s id => endCluster id s) s) (fun q => q.qid = l.qid)
    (fun q => { q with started := q.started.filter (· ≠ l.k) }) fun q => ⟨rfl, id⟩
  exact ends.trans ⟨qs.teams, qs.saved, qs.waits, qs.faults, qs.queues⟩

theorem dwindles_writeReport (qid status k tag : Nat) (s : State) : Dwindles s (writeReport qid status k tag s) := by
  unfold writeReport
  split
  · exact Dwindles.refl s
  · split
    next rtail u hu =>
    split
    next rbase v hv =>
    have bu : books u = books s := (congrArg (fun x => books x.2) hu).symm.trans (books_descRead ..)
    have bv : books v = books u := (congrArg (fun x => books x.2) hv).symm.trans (books_descRead ..)
    refine ((Dwindles.refl s).of_books ?_).trans
      (dwindles_modQueues _ (fun q => q.qid = qid) (fun q => { q with rseq := q.rseq + 1 }) fun q => ⟨rfl, id⟩)
    simp only [books_ipaStore, books_hubStore, bv, bu]

/-! ## The kill of a tenant context (R490), step by step -/

theorem held_killQueues (tenant : Nat) (s : State) :
    ∀ q ∈ (killQueues tenant s).hub.queues, q.tenant = tenant → q.stopped = true := by
  intro q hq ht
  obtain ⟨p, _, rfl⟩ := List.mem_map.1 hq
  by_cases h : p.tenant = tenant
  · simp [h]
  · simp only [h, decide_false, Bool.false_eq_true, if_false] at ht

/-- The teams of resident slots that have been zeroed and discarded. -/
theorem teamAt_drops (rs : List TeamRef) (q : TeamRef) (s : State) :
    (rs.foldl (fun s r => dropTeam r (zeroGrant r s)) s).teamAt q = if q ∈ rs then Team.reset q else s.teamAt q := by
  induction rs generalizing s with
  | nil => rfl
  | cons r rs ih =>
    rw [List.foldl_cons, ih, teamAt_dropTeam, books_teamAt (books_zeroGrant r s)]
    by_cases h : q ∈ rs
    · simp [h]
    · by_cases h' : q = r <;> simp [h, h']

theorem dwindles_killTeams (tenant : Nat) (s : State) : Dwindles s (killTeams tenant s) := by
  have drops := Dwindles.foldl (fun s r => ((Dwindles.refl s).of_books (books_zeroGrant r s)).trans (dwindles_dropTeam r _))
    ((s.allTeams.filter fun t => t.resident && t.tenant = tenant).map (·.ref)) s
  exact drops.trans { Dwindles.refl _ with saved := fun x hx => (List.mem_filter.1 hx).1 }

theorem noTeam_killTeams (tenant : Nat) (s : State) (r : TeamRef) (h : ((killTeams tenant s).teamAt r).resident = true) :
    ((killTeams tenant s).teamAt r).tenant ≠ tenant := by
  have e : (killTeams tenant s).teamAt r = _ := teamAt_drops _ r s
  rw [e] at h ⊢
  split at h
  · cases h
  · next stays =>
    rw [if_neg stays]
    intro ht
    refine stays (List.mem_map.2 ⟨s.teamAt r, List.mem_filter.2 ⟨teamAt_mem h, ?_⟩, teamAt_ref s r⟩)
    simp [h, ht]

theorem noSaved_killTeams (tenant : Nat) (s : State) : ∀ x ∈ (killTeams tenant s).hub.saved, x.team.tenant ≠ tenant :=
  fun _ hx => of_decide_eq_true (List.mem_filter.1 hx).2

theorem books_killCore (tenant : Nat) (s : State) (c : Core) : books (killCore tenant s c) = books s :=
  (books_modCore ..).trans (books_flushL1 ..)

theorem books_killLine (d : Nat) (s : State) (l : Line) : books (killLine d s l) = books s := by
  unfold killLine
  rw [books_modDie]
  split
  · exact books_homeWrite ..
  · rfl

/-- The tenant's fault requests as answered. -/
def answerFaults (tenant : Nat) (h : Hub) : Hub :=
  { h with faults := modWhere (fun f => f.tenant = tenant) (fun f => { f with answered := true }) h.faults }

theorem books_answerFaults (tenant : Nat) {s t : State} (h : books s = books t) :
    books (s.onHub (answerFaults tenant)) = books (t.onHub (answerFaults tenant)) := by
  have e : ∀ u : State, books (u.onHub (answerFaults tenant)) = { books u with hub := { (books u).hub with
    faults := modWhere (fun f => f.tenant = tenant) (fun f => { f with answered := true }) (books u).hub.faults } } := fun _ => rfl
  rw [e, e, h]

theorem books_dropRequests (keep : LinkReq → Bool) (s : State) : books (dropRequests keep s) = books s := rfl

/-- Step 3 answers the tenant's fault requests, and changes no other book. -/
theorem books_killAccesses (tenant : Nat) (s : State) :
    books (killAccesses tenant s) = books (s.onHub (answerFaults tenant)) := by
  unfold killAccesses
  extract_lets u v w
  have hv : books v = books s := foldl_keeps books (books_killCore tenant) _ u
  have hw : books w = books v := foldl_keeps books (fun s d => foldl_keeps books (books_killLine d) _ s) _ v
  rw [books_dropRequests]
  exact books_answerFaults tenant (hw.trans hv)

/-- Step 5 removes the tenant's keys, and changes no other book. -/
theorem books_killWaits (tenant : Nat) (s : State) : books (killWaits tenant s) =
    books (s.onHub fun h => { h with waits := h.waits.filter fun k => k.tenant ≠ tenant }) := by
  unfold killWaits
  extract_lets ks away js u v
  have hv : books v = books u := foldl_keeps books (fun s (a : Abroad) => books_toPackage tenant a.pkg a.va s) _ u
  exact (foldl_keeps books (fun s j => books_wakeHost j s) js v).trans hv

theorem answered_killAccesses (tenant : Nat) (s : State) :
    ∀ f ∈ (killAccesses tenant s).hub.faults, f.tenant = tenant → f.answered = true := by
  have e := books_faults (books_killAccesses tenant s)
  intro f hf ht
  rw [e] at hf
  obtain ⟨g, _, rfl⟩ := List.mem_map.1 hf
  by_cases h : g.tenant = tenant
  · simp [h]
  · simp only [h, decide_false, Bool.false_eq_true, if_false] at ht

theorem dwindles_killAccesses (tenant : Nat) (s : State) : Dwindles s (killAccesses tenant s) := by
  refine Dwindles.of_books ?_ (books_killAccesses tenant s)
  refine { Dwindles.refl s with faults := fun f hf => ?_ }
  obtain ⟨g, hg, rfl⟩ := List.mem_map.1 hf
  refine ⟨g, hg, ?_⟩
  split
  · exact ⟨rfl, fun _ => rfl⟩
  · exact ⟨rfl, id⟩

theorem noWait_killWaits (tenant : Nat) (s : State) : ∀ k ∈ (killWaits tenant s).hub.waits, k.tenant ≠ tenant := by
  have e := books_waits (books_killWaits tenant s)
  intro k hk
  rw [e] at hk
  exact of_decide_eq_true (List.mem_filter.1 hk).2

theorem dwindles_killWaits (tenant : Nat) (s : State) : Dwindles s (killWaits tenant s) := by
  refine Dwindles.of_books ?_ (books_killWaits tenant s)
  exact { Dwindles.refl s with waits := fun k hk => ⟨k, (List.mem_filter.1 hk).1, rfl⟩ }

theorem dwindles_killPackets (tenant : Nat) (s : State) : Dwindles s (killPackets tenant s) := by
  refine Dwindles.foldl (fun s l => Dwindles.trans ?_ (dwindles_forgetLaunch l _)) _ s
  split
  · exact Dwindles.refl s
  · exact dwindles_writeReport ..

namespace Dwindles

variable {s t : State} (h : Dwindles s t) {tenant : Nat}
include h

/-! What a kill has taken from a tenant it has not back while the books only dwindle. -/

theorem noTeam (k : ∀ r, (s.teamAt r).resident = true → (s.teamAt r).tenant ≠ tenant) (r : TeamRef)
    (hr : (t.teamAt r).resident = true) : (t.teamAt r).tenant ≠ tenant := by
  rcases h.teams r with e | e
  · rw [e] at hr ⊢
    exact k r hr
  · rw [e] at hr
    cases hr

theorem noSaved (k : ∀ x ∈ s.hub.saved, x.team.tenant ≠ tenant) : ∀ x ∈ t.hub.saved, x.team.tenant ≠ tenant :=
  fun x hx => k x (h.saved x hx)

theorem noWait (w : ∀ k ∈ s.hub.waits, k.tenant ≠ tenant) : ∀ k ∈ t.hub.waits, k.tenant ≠ tenant := by
  intro k hk
  obtain ⟨j, hj, e⟩ := h.waits k hk
  exact e ▸ w j hj

theorem answered (k : ∀ f ∈ s.hub.faults, f.tenant = tenant → f.answered = true) :
    ∀ f ∈ t.hub.faults, f.tenant = tenant → f.answered = true := by
  intro f hf ht
  obtain ⟨g, hg, e, a⟩ := h.faults f hf
  exact a (k g hg (e.trans ht))

theorem held (k : ∀ q ∈ s.hub.queues, q.tenant = tenant → q.stopped = true) :
    ∀ q ∈ t.hub.queues, q.tenant = tenant → q.stopped = true := by
  intro q hq ht
  obtain ⟨p, hp, e, a⟩ := h.queues q hq
  exact a (k p hp (e.trans ht))

end Dwindles

/-- With a tenant's clusters the last of what it holds goes. -/
theorem killed_dropClusters {s : State} {tenant : Nat} (w : Option HubWait)
    (teams : ∀ r, (s.teamAt r).resident = true → (s.teamAt r).tenant ≠ tenant) (saved : ∀ x ∈ s.hub.saved, x.team.tenant ≠ tenant)
    (waits : ∀ k ∈ s.hub.waits, k.tenant ≠ tenant) (faults : ∀ f ∈ s.hub.faults, f.tenant = tenant → f.answered = true)
    (queues : ∀ q ∈ s.hub.queues, q.tenant = tenant → q.stopped = true) :
    Killed (s.onHub fun h => { h with clusters := h.clusters.filter (fun c => c.tenant ≠ tenant), wait := w }) tenant :=
  ⟨teams, saved, fun _ hc => of_decide_eq_true (List.mem_filter.1 hc).2, waits, faults, queues⟩

/-- R490: after the kill of its context a tenant holds nothing: each step takes its part, and the later ones give nothing back. -/
theorem killed_endContext (tenant : Nat) (s : State) : Killed (endContext tenant s) tenant := by
  unfold endContext
  extract_lets w u v x
  have fromWaits : Dwindles (killWaits tenant v) x := dwindles_killPackets tenant _
  have fromAccesses : Dwindles v x := (dwindles_killWaits tenant v).trans fromWaits
  have fromTeams := (dwindles_killAccesses tenant (killTeams tenant u)).trans fromAccesses
  have fromQueues : Dwindles u x := (dwindles_killTeams tenant u).trans fromTeams
  exact killed_dropClusters w (fromTeams.noTeam (noTeam_killTeams tenant u)) (fromTeams.noSaved (noSaved_killTeams tenant u))
    (fromWaits.noWait (noWait_killWaits tenant v)) (fromAccesses.answered (answered_killAccesses tenant _))
    (fromQueues.held (held_killQueues tenant _))

theorem killed_congr {s t : State} (h : books t = books s) {tenant : Nat} (k : Killed s tenant) : Killed t tenant := by
  obtain ⟨teams, saved, clusters, waits, faults, queues⟩ := k
  have same := (Dwindles.refl s).of_books h
  exact ⟨same.noTeam teams, same.noSaved saved, books_clusters h ▸ clusters, same.noWait waits, same.answered faults,
    same.held queues⟩

theorem killed_killPacket (tenant : Nat) (src : Double) (addr : Nat) (detail pkt : Double) (s : State) :
    Killed (killPacket tenant src addr detail pkt s) tenant :=
  killed_congr (books_errorRecord ..) (killed_endContext tenant s)

end Sys2Proof.Laws
end

section
/-! SUPPORT. Clusters end (R489) and are saved (R61, R434): what the hub then holds of them. -/

namespace Sys2Proof.Laws

open Machine Claims

/-! ## Elements replaced where they stand -/

theorem find?_modWhere {α : Type} (p q : α → Bool) (f : α → α) (h : ∀ x, q (f x) = q x) (l : List α) :
    (modWhere p f l).find? q = (l.find? q).map fun x => if p x then f x else x := by
  unfold modWhere
  rw [List.find?_map]
  congr 2
  funext x
  by_cases e : p x <;> simp [e, h]

theorem modWhere_of_find?_none {α : Type} {p : α → Bool} {l : List α} (f : α → α) (h : l.find? p = none) : modWhere p f l = l := by
  unfold modWhere
  refine (List.map_congr_left fun x hx => ?_).trans (List.map_id l)
  rw [if_neg (List.find?_eq_none.1 h x hx)]
  rfl

/-! ## Clusters end (R192, R489) -/

/-- A cluster that has ended. -/
def finished (c : Cluster) : Cluster := { c with phase := .ended }

/-- A cluster's teams leave without a change to what the hub holds of clusters and launches. -/
theorem endCluster_hub (id : Nat) (s : State) :
    (endCluster id s).hub.clusters = modWhere (fun c => c.id = id) finished s.hub.clusters ∧
      (endCluster id s).hub.launches = s.hub.launches := by
  unfold endCluster
  split
  · next none => exact ⟨(modWhere_of_find?_none _ none).symm, rfl⟩
  · next c _ =>
    extract_lets u fin v
    have hu : u.hub.clusters = s.hub.clusters ∧ u.hub.launches = s.hub.launches := by
      unfold u
      split
      · exact ⟨foldl_keeps (·.hub.clusters) (fun s r => books_clusters (books_removeWaiter ..)) _ s,
          foldl_keeps (·.hub.launches) (fun s r => books_launches (books_removeWaiter ..)) _ s⟩
      · exact ⟨foldl_keeps (·.hub.clusters) (fun s r => congrArg HubBooks.clusters (hubBooks_dropTeam r s)) _ s,
          foldl_keeps (·.hub.launches) (fun s r => congrArg HubBooks.launches (hubBooks_dropTeam r s)) _ s⟩
    rw [modDie_hub]
    exact ⟨congrArg (modWhere _ _) hu.1, hu.2⟩

theorem endCluster_clusters (id : Nat) (s : State) :
    (endCluster id s).hub.clusters = modWhere (fun c => c.id = id) finished s.hub.clusters := (endCluster_hub id s).1

theorem endCluster_launches (id : Nat) (s : State) : (endCluster id s).hub.launches = s.hub.launches := (endCluster_hub id s).2

/-- Of clusters that end one after another, each that is named has ended. -/
theorem find?_endClusters (ids : List Nat) {s : State} {i : Nat} {c : Cluster}
    (h : s.hub.clusters.find? (fun c => c.id = i) = some c) (hi : i ∈ ids ∨ c.phase = .ended) :
    ∃ c', (ids.foldl (fun s id => endCluster id s) s).hub.clusters.find? (fun c => c.id = i) = some c' ∧ c'.phase = .ended := by
  induction ids generalizing s c with
  | nil => exact ⟨c, h, hi.resolve_left List.not_mem_nil⟩
  | cons id ids ih =>
    have hc : c.id = i := by simpa using List.find?_some h
    have e : (endCluster id s).hub.clusters.find? (fun c => c.id = i) = some (if c.id = id then finished c else c) := by
      rw [endCluster_clusters, find?_modWhere, h]
      · simp
      · exact fun _ => rfl
    refine ih e ?_
    split
    · exact .inr rfl
    · next other =>
      refine hi.imp_left fun m => (List.mem_cons.1 m).resolve_left fun e => other (hc.trans e)

/-- R489: the clusters of a launch that are named end, and the launch has its status. -/
theorem endClusters_ends (l : Launch) (ids : List Nat) (status : Nat) {s : State} {i : Nat} {c : Cluster}
    (hc : s.hub.clusters.find? (fun c => c.id = i) = some c) (hi : i ∈ ids)
    (hl : s.hub.launches.find? (fun x => x.id = l.id) = some l) :
    (∃ c', (endClusters l ids status s).hub.clusters.find? (fun c => c.id = i) = some c' ∧ c'.phase = .ended) ∧
      ∃ l', (endClusters l ids status s).hub.launches.find? (fun x => x.id = l.id) = some l' ∧ l'.status = some status := by
  unfold endClusters
  extract_lets u v
  have launches : v.hub.launches = u.hub.launches := foldl_keeps (·.hub.launches) (fun s id => endCluster_launches id s) _ _
  have named : u.hub.launches.find? (fun x => x.id = l.id) = some { l with status := some status } := by
    show (modWhere (fun x => x.id = l.id) (fun x => { x with status := some status }) s.hub.launches).find? _ = _
    rw [find?_modWhere, hl]
    · simp
    · exact fun _ => rfl
  have both : (∃ c', v.hub.clusters.find? (fun c => c.id = i) = some c' ∧ c'.phase = .ended) ∧
      ∃ l', v.hub.launches.find? (fun x => x.id = l.id) = some l' ∧ l'.status = some status :=
    ⟨find?_endClusters ids (s := u) hc (.inl hi), _, (congrArg _ launches).trans named, rfl⟩
  split <;> exact both

/-! ## A cluster of one team is saved (R61, R434) -/

theorem focus_of_foreground {s : State} {r : TeamRef} (h : Foreground s r) : s.focus r = s := by
  obtain ⟨hd, hc, hp, ht⟩ := h
  have die : s.focusDie r.die = s := if_pos hd
  have core : s.focusCore r.die (s.coreOf r) = s := if_pos ⟨hc, hp⟩
  unfold State.focus
  rw [die, core]
  exact if_pos ht

/-- R433, R434: the hub keeps the team as it stands, with the format of its save. -/
theorem saveTeam_keeps (c : Cluster) {s : State} {r : TeamRef} (h : Foreground s r) :
    ∃ x : Saved, x.team = s.team ∧ x.format = saveFormat c s.team ∧ (saveTeam c s r).team = s.team ∧
      (saveTeam c s r).hub = { s.hub with saved := s.hub.saved ++ [x] } := by
  unfold saveTeam
  rw [focus_of_foreground h]
  extract_lets t f own x u v
  have hu : u.team = s.team ∧ u.hub = s.hub := by
    unfold u
    split <;> exact ⟨rfl, rfl⟩
  have hv : v.team = u.team ∧ v.hub = u.hub := by
    unfold v
    split <;> exact ⟨rfl, rfl⟩
  exact ⟨x, rfl, rfl, hv.1.trans hu.1, congrArg (fun h : Hub => { h with saved := h.saved ++ [x] }) (hv.2.trans hu.2)⟩

/-- A team that leaves its core leaves its resident slot free, and no other book changed. -/
theorem leaveCore_slot {s : State} {r : TeamRef} (h : s.team.ref = r) :
    (leaveCore r s).team = Team.reset r ∧ hubBooks (leaveCore r s).hub = hubBooks s.hub := by
  unfold leaveCore
  extract_lets t p u v w
  have hw : books w = books s := (books_clearGrant ..).trans ((books_modCore ..).trans (books_flushL1 ..))
  have own : w.team.ref = r := (congrArg Team.ref (books_team hw)).trans h
  refine ⟨?_, ?_⟩
  · unfold State.modTeam
    rw [if_pos own]
  · rw [modTeam_hub]
    exact books_hub hw

/-- R61, R434: a cluster of one team is saved: its slot is free, its team stands with the hub, and the cluster is saved. -/
theorem saveCluster_one {s : State} {c : Cluster} {r : TeamRef} (h : Foreground s r) (ht : c.teams = [r]) :
    (saveCluster s c).team = Team.reset r ∧
      (∃ x ∈ (saveCluster s c).hub.saved, x.team = s.team ∧ x.format = saveFormat c s.team) ∧
      (saveCluster s c).hub.clusters =
        modWhere (fun x => x.id = c.id) (fun x => { x with phase := .saved, forced := false }) s.hub.clusters := by
  have e : saveCluster s c = ((leaveCore r (saveTeam c s r)).modDie c.die fun d => d.parkShare c.id).onHub fun h =>
      { h with clusters := modWhere (fun x => x.id = c.id) (fun x => { x with phase := .saved, forced := false }) h.clusters } := by
    unfold saveCluster
    rw [ht]
    rfl
  obtain ⟨x, team, format, keeps, hub⟩ := saveTeam_keeps c h
  obtain ⟨slot, rest⟩ := leaveCore_slot (s := saveTeam c s r) ((congrArg Team.ref keeps).trans h.2.2.2)
  rw [hub] at rest
  rw [e]
  generalize leaveCore r (saveTeam c s r) = u at slot rest ⊢
  have saved : u.hub.saved = s.hub.saved ++ [x] := congrArg HubBooks.saved rest
  have clusters : u.hub.clusters = s.hub.clusters := congrArg HubBooks.clusters rest
  rw [onHub_hub, modDie_hub, saved, clusters]
  refine ⟨(modDie_team ..).trans slot, ⟨x, List.mem_append_right _ (List.mem_singleton.2 rfl), team, format⟩, rfl⟩

end Sys2Proof.Laws
end

section
/-! SUPPORT. A save area is taken (R433, R435): the registers that a team put back in its slot has are those that the area holds. -/

namespace Sys2Proof.Laws

open Machine Claims

/-! ## A save area is taken (R431, R435) -/

/-- A part of the owner state is put into the core alone. -/
theorem ownerParts_core {p : AreaPart} (h : p ∈ ownerParts) (f : Nat → Double) (s : State) :
    ∃ k, p.write f s = { s with core := k } := by
  simp only [ownerParts, List.mem_cons, List.not_mem_nil, or_false] at h
  rcases h with rfl | rfl | rfl | rfl | rfl | rfl | rfl | rfl
  case inr.inr.inl =>
    dsimp only [writeSweep]
    split
    · exact ⟨s.core, rfl⟩
    · split <;> exact ⟨_, rfl⟩
  all_goals exact ⟨_, rfl⟩

theorem ownerParts_fold {ps : List AreaPart} (h : ∀ p ∈ ps, p ∈ ownerParts) (f : Nat → Double) (s : State) :
    ∃ k, ps.foldl (fun s p => p.write f s) s = { s with core := k } := by
  induction ps generalizing s with
  | nil => exact ⟨s.core, rfl⟩
  | cons p ps ih =>
    obtain ⟨k, hk⟩ := ownerParts_core (h p List.mem_cons_self) f s
    rw [List.foldl_cons, hk]
    exact ih (fun q hq => h q (List.mem_cons_of_mem _ hq)) _

/-- `t` is `s` with the s, a and d registers that an area of doubles `f` gives, its memory, its hub and the team's wait as they
were. -/
structure TakesRegs (f : Nat → Double) (s t : State) : Prop where
  hub : t.hub = s.hub
  mem : t.mem = s.mem
  ref : t.team.ref = s.team.ref
  park : t.team.park = s.team.park
  trap : t.team.trap = s.team.trap
  scalars : t.team.s = vput (fileAt 64 f 0x100) 0 0
  addresses : t.team.a = fileAt 16 f 0x300
  descriptors : t.team.d = fileAt 16 f 0x380

theorem writePositions_unfrozen (f : Nat → Double) {s : State} (h : s.team.trap = none) :
    ∃ pc l, writePositions f s = s.onTeam fun t => { t with pc := pc, loop := l } := by
  have unfrozen : s.team.frozenAt = none := by rw [Team.frozenAt, h]; rfl
  unfold writePositions
  rw [unfrozen]
  dsimp only [State.onTeam]
  split
  · exact ⟨s.team.pc, s.team.loop, rfl⟩
  · exact ⟨_, none, rfl⟩

theorem writeLoop_unfrozen (f : Nat → Double) {s : State} (h : s.team.trap = none) :
    ∃ l, writeLoop f s = s.onTeam fun t => { t with loop := l } := by
  have unfrozen : s.team.frozenAt = none := by rw [Team.frozenAt, h]; rfl
  unfold writeLoop
  dsimp only
  rw [unfrozen]
  exact ⟨_, rfl⟩

/-- The registers of a team from an area of doubles (R433). -/
def areaRegs (f : Nat → Double) (t : Team) : Team :=
  { t with lcnt := (f 0x38).setWidth 32, yls := fileAt 4 f 0x80, nsm := fileAt 4 f 0xa0,
           s := vput (fileAt 64 f 0x100) 0 0, a := fileAt 16 f 0x300, d := fileAt 16 f 0x380,
           p := Vector.ofFn fun i : Fin 8 => (f 0x400).getLsbD (8 * i.val), m := fileAt 8 f 0x408,
           v := Vector.ofFn fun i : Fin 64 => vOf (doublesAt f (0x800 + 256 * i.val) 32) }

theorem onTeam_onTeam (s : State) (f g : Team → Team) : (s.onTeam f).onTeam g = s.onTeam fun t => g (f t) := rfl

/-- The parts of the team's state that a yield save holds (R434). -/
theorem yieldParts_write (f : Nat → Double) (s : State) :
    (teamParts.filter fun p => p.savedIn 1 && p.lo ≠ 0x40000).foldl (fun s p => p.write f s) s =
      (writeLoop f ((writePositions f s).onTeam fun t => { t with tsw := f 0x20 &&& 0xffff0000f107 })).onTeam (areaRegs f) := by
  simp only [teamParts, AreaPart.savedIn, List.filter_cons, List.filter_nil]
  simp only [ne_eq, Nat.reduceEqDiff, OfNat.zero_ne_ofNat, decide_not, decide_true, decide_false, Bool.not_true, Bool.not_false,
    Bool.and_true, Bool.and_false, reduceIte, Bool.false_eq_true, List.foldl_cons, List.foldl_nil]
  generalize writeLoop f _ = u
  simp only [onTeam_onTeam]
  rfl

theorem yieldParts_regs (f : Nat → Double) (s : State) (h : s.team.trap = none) :
    TakesRegs f s ((teamParts.filter fun p => p.savedIn 1 && p.lo ≠ 0x40000).foldl (fun s p => p.write f s) s) := by
  obtain ⟨pc, l, positions⟩ := writePositions_unfrozen f h
  obtain ⟨l', loop⟩ := writeLoop_unfrozen f
    (s := s.onTeam fun t => { t with pc := pc, loop := l, tsw := f 0x20 &&& 0xffff0000f107 }) h
  rw [yieldParts_write, positions, onTeam_onTeam, loop, onTeam_onTeam, onTeam_onTeam]
  constructor <;> simp only [onTeam_hub, onTeam_mem, onTeam_team, areaRegs]

/-- The acting team takes its registers from a yield save's area, whether it owns its core's engines or not. -/
theorem takeArea_regs (f : Nat → Double) (s : State) (h : s.team.trap = none) :
    TakesRegs f s (takeArea (fun p => p.savedIn 1 && p.lo ≠ 0x40000) f s) := by
  have regs := yieldParts_regs f s h
  unfold takeArea areaParts
  split
  · rw [List.filter_append, List.foldl_append]
    generalize (teamParts.filter _).foldl _ s = u at regs ⊢
    obtain ⟨k, e⟩ := ownerParts_fold (ps := ownerParts.filter fun p => p.savedIn 1 && p.lo ≠ 0x40000)
      (fun p hp => (List.mem_filter.1 hp).1) f u
    rw [e]
    exact { regs with }
  · exact regs

theorem readArea_regs (tiles : Nat) (s : State) (h : s.team.trap = none) :
    TakesRegs (fun o => s.mem.double (areaKey s.team o)) s (readArea 1 tiles s) := by
  have regs := takeArea_regs (fun o => s.mem.double (areaKey s.team o)) s h
  unfold readArea
  extract_lets f u
  split
  · exact ⟨regs.hub, regs.mem, regs.ref, regs.park, regs.trap, regs.scalars, regs.addresses, regs.descriptors⟩
  · exact regs

/-! ## A saved team is put back (R61, R435, R553) -/

@[simp] theorem restoreGrant_team (s : State) : (restoreGrant s).team = s.team := by
  refine foldl_keeps (·.team) (fun s i => ?_) _ s
  rfl

@[simp] theorem restoreGrant_hub (s : State) : (restoreGrant s).hub = s.hub := by
  refine foldl_keeps (·.hub) (fun s i => ?_) _ s
  rfl

@[simp] theorem books_badWindows (s : State) : books (badWindows s) = books s := by
  refine foldl_keeps books (fun s j => ?_) _ s
  split
  · exact books_errorRecord ..
  · rfl

@[simp] theorem badWindows_mem (s : State) : (badWindows s).mem = s.mem := by
  refine foldl_keeps (·.mem) (fun s j => ?_) _ s
  split <;> rfl

/-- A saved team in its slot, before what its save area holds: its core's L1D is empty, and has the owner state that the hub
kept. -/
def seated (s : State) (x : Saved) : State :=
  let r := x.team.ref
  let s := s.focus r
  let s : State := { s with team := x.team.restored (fullSlice s x.team) }
  let s := clearGrant r.die r.lcore x.team.lmg false s
  let s := (flushL1 none r.die (s.coreOf r) (fun _ => true) s).onCore fun c => { c with l1d := [] }
  match x.owner with
  | some o => s.onCore fun c => c.restoreOwner o
  | none => s

theorem seated_books (s : State) (x : Saved) :
    (∃ slice, (seated s x).team = x.team.restored slice) ∧ hubBooks (seated s x).hub = hubBooks s.hub := by
  unfold seated
  extract_lets r u v w y
  have hw : books w = books v := books_clearGrant r.die r.lcore x.team.lmg false v
  have hy : books y = books w := (books_onCore _ _).trans (books_flushL1 r.die (w.coreOf r) _ w)
  have hub : v.hub = s.hub := focus_hub s r
  have team : v.team = x.team.restored (fullSlice u x.team) := rfl
  split
  · rw [onCore_team, onCore_hub]
    exact ⟨⟨_, (books_team (hy.trans hw)).trans team⟩, hub ▸ books_hub (hy.trans hw)⟩
  · exact ⟨⟨_, (books_team (hy.trans hw)).trans team⟩, hub ▸ books_hub (hy.trans hw)⟩

/-- A team of a yield save whose call has no reply takes its save area, and nothing else happens to it. -/
theorem putBack_yield (c : Cluster) (s : State) {x : Saved} (format : x.format = 1) (reply : x.reply = false)
    (trap : x.team.trap = none) :
    putBack c s x = badWindows (readArea 1 (savedTiles (restoreGrant (seated s x)) c) (restoreGrant (seated s x))) := by
  obtain ⟨⟨slice, team⟩, -⟩ := seated_books s x
  have unfrozen : (restoreGrant (seated s x)).team.trap = none := by rw [restoreGrant_team, team]; exact trap
  have stays := (readArea_regs (savedTiles (restoreGrant (seated s x)) c) _ unfrozen).trap.trans unfrozen
  have resumes : ∀ u : State, u.team.trap = none → resumeParked u = u := fun u h => by
    unfold resumeParked
    rw [h]
    rfl
  have e : putBack c s x = badWindows (resumeParked (readArea 1 (savedTiles (restoreGrant (seated s x)) c) (restoreGrant (seated s x)))) := by
    unfold putBack seated
    cases x.owner <;> simp [format, reply]
  rw [e, resumes _ stays]

/-- R435, R553: a team of a yield save goes back to its slot with the registers that its save area then holds. -/
theorem putBack_regs (c : Cluster) (s : State) {x : Saved} (format : x.format = 1) (reply : x.reply = false)
    (trap : x.team.trap = none) :
    let t := putBack c s x
    hubBooks t.hub = hubBooks s.hub ∧ t.team.ref = x.team.ref ∧ (x.team.park = .boundary → t.team.park = .none) ∧
      t.team.s = vput (fileAt 64 (fun o => t.mem.double (areaKey x.team o)) 0x100) 0 0 ∧
      t.team.a = fileAt 16 (fun o => t.mem.double (areaKey x.team o)) 0x300 ∧
      t.team.d = fileAt 16 (fun o => t.mem.double (areaKey x.team o)) 0x380 := by
  rw [putBack_yield c s format reply trap]
  obtain ⟨⟨slice, team⟩, hub⟩ := seated_books s x
  have unfrozen : (restoreGrant (seated s x)).team.trap = none := by rw [restoreGrant_team, team]; exact trap
  have regs := readArea_regs (savedTiles (restoreGrant (seated s x)) c) _ unfrozen
  generalize readArea 1 (savedTiles (restoreGrant (seated s x)) c) (restoreGrant (seated s x)) = t at regs ⊢
  intro t'
  have ht : t'.team = t.team := books_team (books_badWindows t)
  have hm : t'.mem = t.mem := badWindows_mem t
  have hh : hubBooks t'.hub = hubBooks t.hub := books_hub (books_badWindows t)
  rw [ht, hm, hh, regs.ref, regs.park, regs.scalars, regs.addresses, regs.descriptors, regs.hub, regs.mem, restoreGrant_team,
    restoreGrant_hub, team]
  refine ⟨hub, rfl, fun e => ?_, rfl, rfl, rfl⟩
  unfold Team.restored
  rw [e]

end Sys2Proof.Laws
end

section
/-! SUPPORT. Clusters start, are saved at their boundaries and go back (R48, R54, R61, R552, R553): O50. -/

namespace Sys2Proof.Laws

open Machine Claims

/-- The books of the hub once a saved cluster is back in its places. -/
def returned (c : Cluster) (h : Hub) : Hub :=
  { h with saved := h.saved.filter (fun x => !(x.team.cluster = c.id)),
           clusters := modWhere (fun x => x.id = c.id) (fun x => { x with phase := .resident, waking := false }) h.clusters }

/-- R61: a cluster of one saved team that gave no staging step up goes back. -/
theorem restoreCluster_one {s : State} {c : Cluster} {x : Saved} (one : (s.hub.saved.filter fun x => x.team.cluster = c.id) = [x])
    (steps : ((s.dieAt c.die).stage c.id).parked = 0) : restoreCluster s c = putBack c (s.onHub (returned c)) x := by
  have steps' : (((s.onHub (returned c)).dieAt c.die).stage c.id).parked = 0 := steps
  unfold restoreCluster
  rw [one]
  extract_lets u v st before w
  have hw : w = v := if_pos steps'
  rw [hw]
  rfl

/-! ## Clusters are released (R48) -/

theorem releaseCluster_alone {s : State} {c : Cluster} (alone : saveGroup s c = [c]) (resident : c.phase = .resident) :
    releaseCluster c s =
      if coldCoves s c = [] then s.modTeams (fun t => t.resident && decide (t.cluster = c.id) && decide (t.park = .start))
        fun t => { t with park := .none }
      else first ((coldCoves s c).map fun v => .event .coveWakeRequest { die := c.die, aux := v }) s := by
  unfold releaseCluster
  rw [alone]
  simp only [List.flatMap_cons, List.flatMap_nil, List.append_nil, List.any_cons, List.any_nil, Bool.or_false, resident, reduceCtorEq,
    decide_false, Bool.false_eq_true, if_false, List.isEmpty_iff, List.map_eq_nil_iff]

theorem sameRegs_modTeams {s : State} (p : Team → Bool) {f : Team → Team} (h : ∀ t, SameRegs t (f t)) :
    SameRegs s.team (s.modTeams p f).team := by
  show SameRegs s.team (if p s.team then f s.team else s.team)
  split
  · exact h s.team
  · rfl

/-- No save area of the cluster has a poisoned line. -/
theorem find?_unpoisoned {s : State} {c : Cluster} (clean : ∀ y ∈ s.hub.saved, y.team.cluster = c.id → areaPoisoned s y = false) :
    ((s.hub.saved.filter fun x => x.team.cluster = c.id && !c.isOver x.team.ref).find? (areaPoisoned s)).map (·.team) = none := by
  rw [Option.map_eq_none_iff, List.find?_eq_none]
  intro y hy
  obtain ⟨mem, mine⟩ := List.mem_filter.1 hy
  rw [clean y mem (of_decide_eq_true (Bool.and_eq_true_iff.1 mine).1)]
  exact Bool.false_ne_true

/-! What follows is of a cluster that the event names and that is saved, restored and placed by itself. -/

section

variable {s : State} {c : Cluster} (alone : saveGroup s c = [c])
  (found : s.hub.clusters.find? (fun c => c.id = s.occ.id) = some c)
include found

theorem named_id : c.id = s.occ.id := by simpa using List.find?_some found

theorem clusterStart_resident (resident : c.phase = .resident) : exec .clusterStart s = .next (releaseCluster c s) := by
  show Host.Outcome.next (startCluster s.occ.id s) = _
  unfold startCluster
  rw [found]
  simp only [resident]

theorem clusterStart_elsewhere (h : c.phase ≠ .resident)
    (h' : c.phase ≠ .placed ∨ s.hub.launches.find? (fun l => l.id = c.launch) = none) : exec .clusterStart s = .next s := by
  show Host.Outcome.next (startCluster s.occ.id s) = _
  unfold startCluster
  rw [found]
  dsimp only
  split
  · next l placed launch =>
    rcases h' with h' | h'
    · exact absurd placed h'
    · cases launch.symm.trans h'
  · next _ resident => exact absurd resident h
  · rfl

include alone

/-- R54, R61: the event of a save takes it where every team of the cluster stands where it is taken. -/
theorem boundarySave_alone : exec .boundarySave s = .next (if clusterStopped s c then schedule (saveCluster s c) else s) := by
  show Host.Outcome.next _ = _
  congr 1
  rw [found]
  simp only [saveReady, alone, List.all_cons, List.all_nil, Bool.and_true, List.foldl_cons, List.foldl_nil]

/-- R553: what a restore does once the places of the cluster are free. -/
theorem clusterRestore_alone : exec .clusterRestore s = .next (
    if c.phase = .saved ∧ placesFree s c = true then
      match ((s.hub.saved.filter fun x => x.team.cluster = c.id && !c.isOver x.team.ref).find? (areaPoisoned s)).map (·.team) with
      | some t => schedule (killPacket t.tenant (errSrc (some t.tenant) 3 5 0xff 0 0x0105) t.saveArea 0
          (((s.hub.launchOf t.cluster).map (·.pkt)).getD noPkt) s)
      | none =>
        if (s.hub.saved.filter fun x => x.team.cluster = c.id).all (areaPasses s c) then restoreCluster s c
        else match s.hub.launches.find? fun l => l.id = c.launch with
          | some l => endClusters l l.clusters 5 s
          | none => s
    else s) := by
  show Host.Outcome.next _ = _
  congr 1
  rw [found]
  by_cases h : c.phase = .saved ∧ placesFree s c = true
  · have g : restoreGroup s c = [c] := by simp [restoreGroup, alone, h]
    rw [if_pos h]
    simp only [g, List.flatMap_cons, List.flatMap_nil, List.append_nil, List.all_cons, List.all_nil, Bool.and_true, List.foldl_cons,
      List.foldl_nil] <;> rfl
  · have g : restoreGroup s c = [] := by
      simp only [restoreGroup, alone, List.all_cons, List.all_nil, Bool.and_true]
      simpa using h
    rw [if_neg h]
    simp only [g]

/-- R48: a cluster whose coves can be used is released: its teams wait no more for the start message. -/
theorem clusterStart_releases (resident : c.phase = .resident) (warm : coldCoves s c = []) :
    ∃ t, exec .clusterStart s = .next t ∧ t.mem = s.mem ∧ SameRegs s.team t.team ∧
      (s.team.resident = true → s.team.cluster = c.id → s.team.park = .start → t.team.park = .none) ∧
      (s.team.cluster ≠ c.id → t.team = s.team) := by
  refine ⟨_, clusterStart_resident found resident, ?_⟩
  rw [releaseCluster_alone alone resident, if_pos warm]
  refine ⟨modTeams_mem .., sameRegs_modTeams _ fun _ => rfl, fun h1 h2 h3 => ?_, fun other => ?_⟩
  · simp [State.modTeams, h1, h2, h3]
  · simp [State.modTeams, other]

/-- R48, R448: a cove that cannot be used yet is asked to wake. -/
theorem clusterStart_wakes (resident : c.phase = .resident) {v : Nat} (cold : v ∈ coldCoves s c) :
    ∃ t, exec .clusterStart s = .next t ∧ t.team = s.team ∧ t.mem = s.mem ∧
      .event .coveWakeRequest { die := c.die, aux := v } ∈ t.agenda := by
  refine ⟨_, clusterStart_resident found resident, ?_⟩
  rw [releaseCluster_alone alone resident, if_neg (List.ne_nil_of_mem cold)]
  exact ⟨rfl, rfl, List.mem_append_left _ (List.mem_map.2 ⟨v, cold, rfl⟩)⟩

/-- R61, R434: a cluster of one team that stands at its boundary is saved as a whole. -/
theorem boundarySave_saves (stopped : clusterStopped s c = true) (teams : c.teams = [s.team.ref])
    (front : Foreground s s.team.ref) :
    ∃ u, exec .boundarySave s = .next (schedule u) ∧ u.team.resident = false ∧
      (∃ x ∈ u.hub.saved, x.team = s.team ∧ x.format = saveFormat c s.team) ∧
      ∃ c', u.hub.clusters.find? (fun c => c.id = s.occ.id) = some c' ∧ c'.phase = .saved := by
  obtain ⟨slot, held, clusters⟩ := saveCluster_one front teams
  refine ⟨saveCluster s c, ?_, congrArg Team.resident slot, held, { c with phase := .saved, forced := false }, ?_, rfl⟩
  · rw [boundarySave_alone alone found, if_pos stopped]
  · rw [clusters, find?_modWhere, found]
    · simp
    · exact fun _ => rfl

/-- R491, R553: a save area with a poisoned line kills its tenant. -/
theorem clusterRestore_kills {x : Saved} (phase : c.phase = .saved) (free : placesFree s c = true)
    (one : (s.hub.saved.filter fun x => x.team.cluster = c.id) = [x]) (runs : x.team.ref ∉ c.ended)
    (poisoned : areaPoisoned s x = true) :
    ∃ u, exec .clusterRestore s = .next (schedule u) ∧ Killed u x.team.tenant := by
  have mine : (s.hub.saved.filter fun x => x.team.cluster = c.id && !c.isOver x.team.ref) = [x] := by
    have both : (s.hub.saved.filter fun x => x.team.cluster = c.id && !c.isOver x.team.ref) =
        (s.hub.saved.filter fun x => x.team.cluster = c.id).filter fun x => !c.isOver x.team.ref := by
      simp only [List.filter_filter, Bool.and_comm]
    rw [both, one]
    exact List.filter_cons_of_pos (by simpa [Cluster.isOver] using runs)
  rw [clusterRestore_alone alone found, if_pos ⟨phase, free⟩, mine]
  simp only [List.find?_cons, poisoned, Option.map_some]
  exact ⟨_, rfl, killed_killPacket ..⟩

/-- R489, R553: a save area that fails its check ends the packet's clusters with status 5. -/
theorem clusterRestore_ends {l : Launch} {x : Saved} (phase : c.phase = .saved) (free : placesFree s c = true)
    (held : x ∈ s.hub.saved) (mine : x.team.cluster = c.id) (fails : areaPasses s c x = false)
    (clean : ∀ y ∈ s.hub.saved, y.team.cluster = c.id → areaPoisoned s y = false)
    (launch : s.hub.launches.find? (fun l => l.id = c.launch) = some l) (named : c.id ∈ l.clusters) :
    ∃ t, exec .clusterRestore s = .next t ∧
      (∃ c', t.hub.clusters.find? (fun c => c.id = s.occ.id) = some c' ∧ c'.phase = .ended) ∧
      ∃ l', t.hub.launches.find? (fun l => l.id = c.launch) = some l' ∧ l'.status = some 5 := by
  have id : l.id = c.launch := by simpa using List.find?_some launch
  have some_fails : ¬ (s.hub.saved.filter fun x => x.team.cluster = c.id).all (areaPasses s c) = true := fun all => by
    have passes := List.all_eq_true.1 all x (List.mem_filter.2 ⟨held, decide_eq_true mine⟩)
    exact Bool.false_ne_true (fails.symm.trans passes)
  refine ⟨endClusters l l.clusters 5 s, ?_, ?_⟩
  · rw [clusterRestore_alone alone found, if_pos ⟨phase, free⟩, find?_unpoisoned clean]
    dsimp only
    rw [if_neg some_fails, launch]
  · rw [← id] at launch ⊢
    exact endClusters_ends l l.clusters 5 found (named_id found ▸ named) launch

/-- R435, R553: a cluster of one team goes back with what its save area holds. -/
theorem clusterRestore_returns {x : Saved} (phase : c.phase = .saved) (free : placesFree s c = true)
    (one : (s.hub.saved.filter fun x => x.team.cluster = c.id) = [x]) (passes : areaPasses s c x = true)
    (clean : areaPoisoned s x = false) (format : x.format = 1) (reply : x.reply = false) (trap : x.team.trap = none)
    (steps : ((s.dieAt c.die).stage c.id).parked = 0) :
    ∃ t, exec .clusterRestore s = .next t ∧ t.team.ref = x.team.ref ∧
      (∀ k, 0 < k → k < 64 → vget t.team.s k 0 = t.mem.double (areaKey x.team (0x100 + 8 * k))) ∧
      (∀ k, k < 16 → vget t.team.a k 0 = t.mem.double (areaKey x.team (0x300 + 8 * k)) ∧
        vget t.team.d k 0 = t.mem.double (areaKey x.team (0x380 + 8 * k))) ∧
      (x.team.park = .boundary → t.team.park = .none) ∧ (∀ y ∈ t.hub.saved, y.team.cluster ≠ c.id) ∧
      ∃ c', t.hub.clusters.find? (fun c => c.id = s.occ.id) = some c' ∧ c'.phase = .resident := by
  have only : ∀ y ∈ s.hub.saved, y.team.cluster = c.id → areaPoisoned s y = false := fun y hy mine => by
    have e : y ∈ [x] := one ▸ List.mem_filter.2 ⟨hy, decide_eq_true mine⟩
    rw [List.mem_singleton.1 e]
    exact clean
  obtain ⟨hub, ref, park, scalars, addresses, descriptors⟩ := putBack_regs c (s.onHub (returned c)) format reply trap
  refine ⟨putBack c (s.onHub (returned c)) x, ?_, ref, fun k pos lt => ?_, fun k lt => ⟨?_, ?_⟩, park, fun y hy => ?_, ?_⟩
  · rw [clusterRestore_alone alone found, if_pos ⟨phase, free⟩, find?_unpoisoned only]
    dsimp only
    rw [one, if_pos (by simp [passes]), restoreCluster_one one steps]
  · rw [scalars, vget_vput_other _ _ _ _ _ (by omega)]
    exact vget_ofFn _ _ k lt
  · rw [addresses]
    exact vget_ofFn _ _ k lt
  · rw [descriptors]
    exact vget_ofFn _ _ k lt
  · have saved : (putBack c (s.onHub (returned c)) x).hub.saved = (returned c s.hub).saved := congrArg HubBooks.saved hub
    rw [saved] at hy
    simpa using (List.mem_filter.1 hy).2
  · have clusters : (putBack c (s.onHub (returned c)) x).hub.clusters = (returned c s.hub).clusters := congrArg HubBooks.clusters hub
    refine ⟨{ c with phase := .resident, waking := false }, ?_, rfl⟩
    rw [clusters, returned, find?_modWhere, found]
    · simp
    · exact fun _ => rfl

end

/-- R552: the overrun of a team's run budget asks its cluster for a forced save. -/
theorem budgetOverrun_asks {s : State} {c : Cluster} (alone : saveGroup s c = [c]) (own : s.team.ref = s.occ.team)
    (found : s.hub.clusters.find? (fun c => c.id = s.team.cluster) = some c) (resident : c.phase = .resident) :
    ∃ t, exec .budgetOverrun s = .next t ∧ t.mem = s.mem ∧ SameRegs s.team t.team ∧
      (s.team.resident = true → s.team.park ≠ .ending → t.team.forcedAsked = true) ∧
      ∃ c', t.hub.clusters.find? (fun x => x.id = c.id) = some c' ∧ c'.phase = .saving ∧ c'.forced = true := by
  have id : c.id = s.team.cluster := by simpa using List.find?_some found
  refine ⟨askSave true c.id s, ?_, rfl, ?_, fun h1 h2 => ?_, { c with phase := .saving, forced := true }, ?_, rfl, rfl⟩
  · show Host.Outcome.next _ = _
    congr 1
    rw [← own, teamAt_own, found]
    simp [alone, resident]
  · unfold askSave
    exact sameRegs_modTeams (s := s.onHub _) _ fun _ => rfl
  · simp [askSave, State.modTeams, State.onHub, h1, h2, id]
  · show (modWhere _ _ s.hub.clusters).find? _ = _
    rw [find?_modWhere, id, found]
    · simp [id]
    · exact fun _ => rfl

/-- Settles O50: the events of a cluster that is saved by itself, each by what it does: the release once its coves can be used, the
save, the restore with its checks, and the forced save that an overrun asks for. -/
theorem clustersStartAndSave : Obligations.ClustersStartAndSave := by
  unfold Obligations.ClustersStartAndSave
  intro s c alone
  refine ⟨fun found => ⟨clusterStart_releases alone found, fun resident v => clusterStart_wakes alone found resident,
    fun h h' => clusterStart_elsewhere found h (.inl h'), fun placed launch => ?_, fun runs => ?_,
    fun stopped teams front _ => boundarySave_saves alone found stopped teams front, fun h => ?_,
    fun x => clusterRestore_kills alone found, fun l x => clusterRestore_ends alone found,
    fun x => clusterRestore_returns alone found⟩, budgetOverrun_asks alone⟩
  · exact clusterStart_elsewhere found (by rw [placed]; decide) (.inr launch)
  · rw [boundarySave_alone alone found, runs]
    rfl
  · rw [clusterRestore_alone alone found, if_neg]
    rintro ⟨phase, free⟩
    rcases h with h | h
    · exact h phase
    · exact Bool.false_ne_true (h.symm.trans free)

end Sys2Proof.Laws
end

section
/-! SUPPORT. A step runs the instruction that its turn names (R68, R69, R90, R106, R326): O55. -/

namespace Sys2Proof.Laws

open Machine Claims

/-! ## What already stands in the foreground -/

theorem focusDie_same {s : State} {d : Nat} (h : s.die.num = d) : s.focusDie d = s := if_pos h

theorem focusCore_same {s : State} {d p : Nat} (hd : s.core.die = d) (hp : s.core.pcore = p) : s.focusCore d p = s :=
  if_pos ⟨hd, hp⟩

theorem focusTeam_same {s : State} {r : TeamRef} (h : s.team.ref = r) : s.focusTeam r = s := if_pos h

/-- A turn of a core whose issuing team acts has nothing to bring to the front. -/
theorem focusPlace_same {s : State} {d p : Nat} (h : AtPlace s d p) : focusPlace d p s = s := by
  obtain ⟨-, hn, hd, hp, hi⟩ := h
  simp only [focusPlace, focusDie_same hn, focusCore_same hd hp, hi, focusTeam_same]

theorem atPlace_taken {s : State} {d p : Nat} (h : AtPlace s d p) : AtPlace (taken s) d p := h

theorem issues_of_atPlace {s : State} {d p : Nat} (h : AtPlace s d p) : issues s = true := by
  obtain ⟨-, -, -, -, hi⟩ := h
  simp [issues, hi]

/-! ## A step -/

/-- A step of a package that serves requests performs the instruction that the turn at the head of the agenda names. -/
theorem step_runs {s u : State} {t : Turn} {i : Instr} (alive : s.hub.fatal = false) (h : s.agenda.head? = some t)
    (names : prepare t (taken s) = (u, some i)) : step s = exec i u := by
  obtain ⟨rest, e⟩ := List.head?_eq_some_iff.1 h
  simp only [taken, e, List.drop_succ_cons, List.drop_zero] at names
  simp only [step, alive, e, names, Bool.false_eq_true, if_false]

/-! ## Slots -/

/-- A position of the MX slot outside REPT's bodies is not skipped. -/
theorem skipRept_of_not_rept {t : Team} {b : Placed} (h : t.placedAt (t.passed .mx) = some b) (plain : b.rept = false) (n : Nat) :
    skipRept t n = t := by
  cases n with
  | zero => rfl
  | succ n => simp [skipRept, h, plain]

theorem slotTurn_runs {s : State} {d p : Nat} {j : Slot} {b : Placed} (place : AtPlace s d p)
    (starts : s.core.starts (slotDomain j) s.now = true) (placed : s.team.placedAt (s.team.passed j) = some b)
    (may : s.team.mayMove j = true) (plain : j = .mx → b.rept = false) :
    slotTurn j s = (s, some (decodeSlot j (b.word j))) := by
  have stays : (if j = .mx then s.onTeam fun t => skipRept t 17 else s) = s := by
    split
    · next e =>
      subst e
      rw [State.onTeam, skipRept_of_not_rept placed (plain rfl)]
    · rfl
  simp only [slotTurn, issues_of_atPlace place, starts, stays, placed, may, Bool.and_self, if_true]

/-! ## Bundles (R105, R106) -/

theorem leWord_wordBytes (w : Word32) :
    leWord (w.extractLsb' 0 8) (w.extractLsb' 8 8) (w.extractLsb' 16 8) (w.extractLsb' 24 8) = w := by
  refine BitVec.eq_of_getLsbD_eq fun i hi => ?_
  unfold leWord
  simp only [BitVec.getLsbD_append, BitVec.getLsbD_extractLsb']
  grind

theorem takeWord_wordBytes (w : Word32) (bs : List Byte) : takeWord (wordBytes w ++ bs) = .ok (w, bs) :=
  congrArg (fun x => Except.ok (x, bs)) (leWord_wordBytes w)

theorem takeWord_length {bs r : List Byte} {w : Word32} (h : takeWord bs = .ok (w, r)) : bs.length = r.length + 4 := by
  unfold takeWord at h
  split at h
  · cases h
    rfl
  · cases h

/-- How many of the mask bits from slot `j` on, `n` of them, are set. -/
def slotsFrom (ct : Word32) (j n : Nat) : Nat := ((List.range' j n).filter fun k => ct.getLsbD (25 + k)).length

/-- A bundle's slots take four bytes for each set bit of its mask. -/
theorem takeSlots_length {ct : Word32} {n j : Nat} {bs r : List Byte} {ws : List Word32} (h : takeSlots ct n j bs = .ok (ws, r)) :
    bs.length = r.length + 4 * slotsFrom ct j n := by
  induction n generalizing j bs ws with
  | zero =>
    cases h
    rfl
  | succ n ih =>
    have count : slotsFrom ct j (n + 1) = slotsFrom ct (j + 1) n + if ct.getLsbD (25 + j) then 1 else 0 := by
      unfold slotsFrom
      rw [List.range'_succ, List.filter_cons]
      split <;> simp [*]
    rw [count]
    unfold takeSlots at h
    by_cases set : ct.getLsbD (25 + j) = true
    · rw [if_pos set] at h ⊢
      split at h
      · cases h
      · next w bs' word =>
        have first := takeWord_length word
        split at h
        · cases h
        · next rest =>
          cases h
          have := ih rest
          omega
    · rw [if_neg set] at h ⊢
      split at h
      · cases h
      · next rest =>
        cases h
        exact ih rest

/-- The words of exactly one bundle: the first is its CT word, which gives their number. -/
theorem decodeBundle_words {w : Word32} {ws : List Word32} {b : Bundle}
    (h : decodeBundle ((w :: ws).flatMap wordBytes) = .ok (b, [])) : b.ct = w ∧ bundleLen w = 4 * (ws.length + 1) := by
  have bytes : (ws.flatMap wordBytes).length = 4 * ws.length := by
    rw [List.length_flatMap]
    simp [wordBytes, List.map_const', Nat.mul_comm]
  unfold decodeBundle at h
  rw [List.flatMap_cons, takeWord_wordBytes] at h
  dsimp only at h
  split at h
  · cases h
  · next slots =>
    cases h
    have len := takeSlots_length slots
    rw [bytes, List.length_nil] at len
    refine ⟨rfl, ?_⟩
    have all : slotsFrom w 0 7 = slotCount w := by rw [slotsFrom, slotCount, List.range_eq_range']
    rw [bundleLen, ← all]
    omega

theorem leNat_wordBytes (w : Word32) : BitVec.ofNat 32 (leNat (wordBytes w)) = w := by
  refine BitVec.eq_of_toNat_eq ?_
  simp only [wordBytes, leNat, BitVec.toNat_ofNat, BitVec.extractLsb'_toNat, Nat.shiftRight_eq_div_pow]
  have := w.isLt
  omega

/-- R106: a bundle whose words all stand in the instruction store is fetched. -/
theorem fetchBundle_words {s : State} {va : Nat} {ws : List Word32} {b : Bundle} (nonempty : 0 < ws.length)
    (stored : ∀ k, k < ws.length → fetchBytes s (va + 4 * k) 4 = some (wordBytes (ws.getD k 0)))
    (decoded : decodeBundle (ws.flatMap wordBytes) = .ok (b, [])) : fetchBundle s va = .bundle b := by
  obtain ⟨w, ws, rfl⟩ := List.exists_cons_of_length_pos nonempty
  obtain ⟨ct, len⟩ := decodeBundle_words decoded
  have head : fetchBytes s va 4 = some (wordBytes w) := stored 0 nonempty
  have last : fetchBytes s (va + 4 * (ws.length + 1) - 4) 4 = some (wordBytes ((w :: ws).getD ws.length 0)) := by
    rw [show va + 4 * (ws.length + 1) - 4 = va + 4 * ws.length by omega]
    exact stored ws.length (Nat.lt_succ_self _)
  have all : ((List.range (ws.length + 1)).flatMap fun k => (fetchBytes s (va + 4 * k) 4).getD []) = (w :: ws).flatMap wordBytes := by
    have each : ∀ k ∈ List.range (ws.length + 1), (fetchBytes s (va + 4 * k) 4).getD [] = wordBytes ((w :: ws).getD k 0) :=
      fun k hk => by rw [stored k (List.mem_range.1 hk)]; rfl
    rw [List.flatMap_congr each, ← List.flatMap_map]
    congr 1
    refine List.ext_getElem (by simp) fun k hk hk' => ?_
    simp [List.getElem?_eq_getElem hk']
  unfold fetchBundle
  rw [head]
  dsimp only
  rw [leNat_wordBytes, len, last]
  dsimp only
  rw [show 4 * (ws.length + 1) / 4 = ws.length + 1 by omega, all, decoded]

/-! ## Dispatch -/

theorem dispatchTurn_runs {s : State} {b : Bundle} (may : mayPlace s = true) (starts : s.core.starts .core s.now = true)
    (noLoop : s.team.loop = none) (plain : loopLength b.ct = none) (fetched : fetchBundle s s.team.pc = .bundle b) :
    dispatchTurn s = (present s.team.pc b s, some (decodeCt b.ct)) := by
  have next : nextBundle s = (s.team.pc, .bundle b) := by
    unfold nextBundle
    simp only [noLoop, fetched, plain]
    cases s.team.skipCt <;> rfl
  simp only [dispatchTurn, may, starts, next, Bool.and_self, if_true]

/-! ## The sweep engine (R326) -/

theorem lanes_of_runners (rs : List Runner) (f : Runner → Bool) (h : ∀ r ∈ rs, f r = true) :
    ((List.range rs.length).filter fun i => ((rs[i]?).map f).getD false) = List.range rs.length := by
  rw [List.filter_eq_self]
  intro i hi
  have lt := List.mem_range.1 hi
  rw [List.getElem?_eq_getElem lt]
  exact h _ (List.getElem_mem lt)

theorem dedup_replicate {α : Type} [DecidableEq α] (x : α) (n : Nat) : dedup (List.replicate (n + 1) x) = [x] := by
  induction n with
  | zero => rfl
  | succ n ih =>
    rw [List.replicate_succ, dedup, ih]
    simp

/-- Runners that all stand at one code word are one group. -/
theorem pickLanes_together {w : Sweep} {cpc : Nat} (parallel : w.serial = false)
    (h : ∀ r ∈ w.runners, r.active = true ∧ r.cpc = cpc) (ne : w.runners ≠ []) :
    pickLanes w = List.range w.runners.length := by
  have active : w.runners.filter (·.active) = w.runners := List.filter_eq_self.2 fun r hr => (h r hr).1
  have pending : pendingCpcs w.runners = [cpc] := by
    obtain ⟨n, len⟩ := Nat.exists_eq_succ_of_ne_zero (mt List.length_eq_zero_iff.1 ne)
    rw [pendingCpcs, active, List.eq_replicate_iff.2 ⟨(List.length_map ..).trans len, ?_⟩, dedup_replicate]
    intro x hx
    obtain ⟨r, hr, rfl⟩ := List.mem_map.1 hx
    exact (h r hr).2
  unfold pickLanes
  rw [parallel, lanes_of_runners _ _ fun r hr => (h r hr).1, pending]
  simp only [Bool.false_eq_true, if_false, List.foldl_cons, List.foldl_nil, List.head?_cons, Option.getD_some, Nat.min_self]
  exact lanes_of_runners _ _ fun r hr => decide_eq_true (h r hr).2

theorem runGroup_runs {s : State} {h : Shoal} {cpc : Nat} {i : Instr} (parallel : s.core.sweep.serial = false)
    (group : ∀ r ∈ s.core.sweep.runners, r.active = true ∧ r.cpc = cpc ∧ r.ops < 4096) (ne : s.core.sweep.runners ≠ [])
    (inside : cpc ≤ h.clen) (code : decodeContext (s.core.codeWord cpc) = .ok i) :
    runGroup h s =
      (s.onCore fun c => { c with sweep := { c.sweep with lanes := List.range s.core.sweep.runners.length } }, some i) := by
  obtain ⟨n, len⟩ := Nat.exists_eq_succ_of_ne_zero (mt List.length_eq_zero_iff.1 ne)
  obtain ⟨ls, picked⟩ : ∃ ls, List.range s.core.sweep.runners.length = 0 :: ls := ⟨_, by rw [len, List.range_succ_eq_map]⟩
  have lanes := pickLanes_together parallel (fun r hr => ⟨(group r hr).1, (group r hr).2.1⟩) ne
  have lead : ((s.core.sweep.runners[0]?).map (·.cpc)).getD 0 = cpc := by
    rw [List.getElem?_eq_getElem (by omega)]
    exact (group _ (List.getElem_mem _)).2.1
  have fresh : ((List.range s.core.sweep.runners.length).filter fun i =>
      ((s.core.sweep.runners[i]?).map fun r => decide (4096 ≤ r.ops)).getD false) = [] := by
    rw [List.filter_eq_nil_iff]
    intro i hi
    have lt := List.mem_range.1 hi
    rw [List.getElem?_eq_getElem lt]
    simpa using (group _ (List.getElem_mem lt)).2.2
  rw [picked] at lanes fresh
  unfold runGroup
  simp only [lanes, picked, lead, code, fresh, if_neg (Nat.not_lt.2 inside)]
  simp

/-- Settles O55: for each kind of turn, what it finds where the statement places it, and that it names the operation found there. -/
theorem stepRunsTheInstruction : Obligations.StepRunsTheInstruction := by
  unfold Obligations.StepRunsTheInstruction
  refine ⟨fun s d p j b place turn starts placed may plain => ?_, fun s d p b ws place turn may starts noLoop plain ne stored decoded => ?_,
    fun s d p cpc h i alive hn hd hp turn starts run bound valid parallel group ne inside code => ?_,
    fun s i o alive turn => step_runs alive turn rfl, fun s alive idle => ?_⟩
  · refine step_runs place.1 turn ?_
    rw [prepare, focusPlace_same (atPlace_taken place)]
    exact slotTurn_runs (s := taken s) (atPlace_taken place) starts placed may plain
  · have fetched : fetchBundle (taken s) (taken s).team.pc = .bundle b := fetchBundle_words ne stored decoded
    refine step_runs place.1 turn ?_
    rw [prepare, focusPlace_same (atPlace_taken place)]
    exact dispatchTurn_runs (s := taken s) may starts noLoop plain fetched
  · have shoal : validShoal s.core s.core.sweep.h = some h := by simp [validShoal, bound, valid]
    have here : ((taken s).focusDie d).focusCore d p = taken s := by
      rw [focusDie_same (s := taken s) hn, focusCore_same (s := taken s) hd hp]
    have clen : cpc ≤ h.clen := by simpa [Shoal.clen, field, BitVec.extractLsb'_toNat, Nat.shiftRight_eq_div_pow] using inside
    have cycle : sweepCycle (taken s) = runGroup h (taken s) := by
      unfold sweepCycle
      rw [show (taken s).core = s.core from rfl, shoal, run]
    refine step_runs alive turn ?_
    rw [prepare, here]
    dsimp only
    rw [if_pos (show (taken s).core.starts .vx (taken s).now = true from starts), cycle,
      runGroup_runs (s := taken s) parallel group ne clen code]
    rfl
  · simp [step, alive, idle]

end Sys2Proof.Laws
end

section
/-! SUPPORT. The registers that instructions name take writes by themselves (R74, R111), and variable-latency operations complete
(R79, R184): O17. -/

namespace Sys2Proof.Laws

open Machine Claims

/-! ## The registers that instructions name -/

/-- A write reads and changes none but the registers that instructions name. -/
theorem regs_write (t : Team) (w : Write) : regs (t.write w) = (regs t).write w := by
  cases w
  case csr num x =>
    show regs (t.writeCsr num x) = (regs t).writeCsr num x
    unfold Team.writeCsr
    split <;> rfl
  case s n x =>
    simp only [Team.write]
    split <;> rfl
  case p n x =>
    simp only [Team.write]
    split <;> rfl
  case m n lanes x =>
    simp only [Team.write]
    split <;> rfl
  all_goals rfl

theorem regs_writes (t : Team) (ws : List Write) : regs (ws.foldl Team.write t) = ws.foldl Team.write (regs t) := by
  induction ws generalizing t with
  | nil => rfl
  | cons w ws ih => rw [List.foldl_cons, ih, regs_write, List.foldl_cons]

/-- Teams with the same registers have the same registers after the same writes. -/
theorem regs_writes_congr {t u : Team} (h : regs t = regs u) (ws : List Write) :
    regs (ws.foldl Team.write t) = regs (ws.foldl Team.write u) := by rw [regs_writes, regs_writes, h]

/-- Energy reaches no register that instructions write (R441). -/
@[simp] theorem regs_retire (c : Core) (d : Domain) (e : Option (Nat × Nat)) (t : Team) : regs (retire c d e t) = regs t := by
  unfold retire
  split <;> rfl

@[simp] theorem retire_vars (c : Core) (d : Domain) (e : Option (Nat × Nat)) (t : Team) : (retire c d e t).vars = t.vars := by
  unfold retire
  split <;> rfl

/-! ## Completion (R79) -/

/-- An acquire orders later accesses, and changes neither registers nor accesses (R379). -/
theorem acquireAt_keeps (sc : BitVec 3) (s : State) :
    (acquireAt sc s).mem = s.mem ∧ regs (acquireAt sc s).team = regs s.team ∧ (acquireAt sc s).team.vars = s.team.vars :=
  ⟨rfl, rfl, rfl⟩

theorem completeAccess_does (a : Access) (s : State) :
    (completeAccess a s).mem = s.mem ∧ regs (completeAccess a s).team = regs (a.results.foldl Team.write s.team) ∧
      (completeAccess a s).team.vars = s.team.vars.filter fun b => b.id ≠ a.id := by
  have written : ∀ t : Team, (a.results.foldl Team.write t).vars = t.vars := foldl_keeps Team.vars write_vars a.results
  unfold completeAccess
  extract_lets u e v
  have done : v.mem = s.mem ∧ regs v.team = regs (a.results.foldl Team.write s.team) ∧
      v.team.vars = s.team.vars.filter fun b => b.id ≠ a.id :=
    ⟨rfl, (regs_retire ..).trans (regs_writes_congr (t := u.team) (u := s.team) rfl _), (retire_vars ..).trans (written _)⟩
  split
  · obtain ⟨m, r, l⟩ := acquireAt_keeps (by assumption) v
    rw [m, r, l]
    exact done
  · exact done

/-- Settles O17: the access that the event names completes at once, or with its core in a stall bundle in the next cycle, and so
does an acknowledgement. -/
theorem completionsAndAcknowledgements : Obligations.CompletionsAndAcknowledgements := by
  unfold Obligations.CompletionsAndAcknowledgements
  intro s
  refine ⟨fun a found => ⟨fun runs => ?_, fun stalled => ?_⟩, fun runs => ?_, fun stalled => ?_⟩
  · obtain ⟨mem, written, left⟩ := completeAccess_does a (s.focus s.occ.team)
    refine ⟨completeAccess a (s.focus s.occ.team), ?_, mem.trans (focus_mem ..), written, left⟩
    show Host.Outcome.next _ = _
    simp [found, runs]
  · refine ⟨(s.focus s.occ.team).after 1 .variableOpComplete s.occ, ?_, focus_mem .., rfl, ?_⟩
    · show Host.Outcome.next _ = _
      simp [found, stalled]
    · simp
  · refine ⟨s.modTeam s.occ.team fun t => { t with writes := t.writes.filter fun w => w.id ≠ s.occ.id }, ?_, modTeam_mem .., ?_⟩
    · show Host.Outcome.next _ = _
      simp [runs]
    · rw [teamAt_modTeam _ _ _ (teamAt_ref ..), if_pos rfl]
  · show Host.Outcome.next _ = _
    simp [stalled, State.after]

end Sys2Proof.Laws
end

section
/-! SUPPORT. Who may issue to the matrix and the rotation array, and the interlock (R45, R82, R509): O25. -/

namespace Sys2Proof.Laws

open Machine Claims

section

variable {i : Instr} {s : State}

/-- R509: an engine operation of a team that is not the owner raises 0x0012. -/
theorem ownerOp_stranger (j : Slot) (eff : State → State) (wf : i.wf = true) (trap : s.team.trap = none)
    (stranger : s.team.tid.getLsbD 14 = false) : ownerOp j i eff s = raised j 0x0012 0 ((encode i).getD 0) s := by
  simp only [ownerOp, slotOp, wf, stranger, if_true, Bool.false_eq_true, if_false]
  exact takeTrap_eq trap

theorem rxOp_stranger (eff : State → State) (wf : i.wf = true) (trap : s.team.trap = none)
    (stranger : s.team.tid.getLsbD 14 = false) (idle : s.core.rxBusy = 0) :
    rxOp i eff s = raised .rx 0x0012 0 ((encode i).getD 0) s := by
  rw [rxOp, if_neg fun h => absurd h.1 (by omega)]
  exact ownerOp_stranger _ _ wf trap stranger

/-- R82: the owner's operation on words that an earlier one has still to write holds. -/
theorem mxOp_interlocked {c : Cover} {o : MxOp} (eff : State → State) (wf : i.wf = true) (owner : s.team.tid.getLsbD 14 = true)
    (queued : o ∈ s.core.mxq) (writes : o.writes = true) (meets : o.cover.meets c = true) :
    mxOp i (some c) eff s = held .mx s := by
  have lock : interlocked s.core c = true := List.any_eq_true.2 ⟨o, queued, by rw [writes, meets]; rfl⟩
  simp only [mxOp, ownerOp, slotOp, wf, owner, if_true, Option.any_some, lock]
  rfl

/-! ## Every operation of the two slots goes through the owner's check -/

/-- The operations that name a shape of words. -/
theorem mx_shape {f : MxForm} (h : i = .mma f ∨ i = .mzero f ∨ i = .mstz f ∨ i = .mldz f) :
    ∃ eff, exec i s = .next (mxOp i (some (shape f)) eff s) := by
  rcases h with rfl | rfl | rfl | rfl <;> exact ⟨_, rfl⟩

theorem mx_halfRow {f : MrForm} (h : i = .mrd f ∨ i = .mwr f) : ∃ eff, exec i s = .next (mxOp i (some (halfRow f)) eff s) := by
  rcases h with rfl | rfl <;> exact ⟨_, rfl⟩

theorem mx_scaled {f : MsForm} (h : i = .mscl f) : ∃ eff, exec i s = .next (mxOp i (some (scaledShape f)) eff s) := by
  subst h
  exact ⟨_, rfl⟩

/-- MLDB and MREL cover no word. -/
theorem mx_noCover {f : MxForm} (h : i = .mldb f ∨ i = .mrel f) : ∃ eff, exec i s = .next (mxOp i none eff s) := by
  rcases h with rfl | rfl <;> exact ⟨_, rfl⟩

theorem rx_op {f : RxForm} (h : i ∈ [Instr.rzero f, .rfeed f, .rfeedl f, .rqapp f, .rread f, .rreadSt f, .rrhs f, .rrhsSt f,
    .rsolve f, .rlay f, .rlayi f, .rvec f, .angc f, .rgain f, .rgainTri f]) : ∃ eff, exec i s = .next (rxOp i eff s) := by
  simp only [List.mem_cons, List.not_mem_nil, or_false] at h
  rcases h with rfl | rfl | rfl | rfl | rfl | rfl | rfl | rfl | rfl | rfl | rfl | rfl | rfl | rfl | rfl <;> exact ⟨_, rfl⟩

theorem mx_op (h : (∃ f, i ∈ [Instr.mma f, .mldb f, .mrel f, .mzero f, .mstz f, .mldz f]) ∨ (∃ f, i ∈ [Instr.mrd f, .mwr f]) ∨
    ∃ f, i = .mscl f) : ∃ c eff, exec i s = .next (mxOp i c eff s) := by
  simp only [List.mem_cons, List.not_mem_nil, or_false] at h
  rcases h with ⟨f, h⟩ | ⟨f, h⟩ | ⟨f, h⟩
  · by_cases bare : i = .mldb f ∨ i = .mrel f
    · exact ⟨_, mx_noCover bare⟩
    · exact ⟨_, mx_shape (f := f) (by tauto)⟩
  · exact ⟨_, mx_halfRow h⟩
  · exact ⟨_, mx_scaled h⟩

end

/-- Settles O25: by the operation's slot the check of the owner, and by the words that it names the interlock. -/
theorem engineOwnersAndInterlock : Obligations.EngineOwnersAndInterlock := by
  unfold Obligations.EngineOwnersAndInterlock
  intro i j s op wf trap
  refine ⟨fun stranger idle => ?_, fun owner o c queued writes meets named => ?_⟩
  · by_cases rx : j = .rx
    · subst rx
      obtain ⟨f, h⟩ : ∃ f, i ∈ [Instr.rzero f, .rfeed f, .rfeedl f, .rqapp f, .rread f, .rreadSt f, .rrhs f, .rrhsSt f, .rsolve f,
          .rlay f, .rlayi f, .rvec f, .angc f, .rgain f, .rgainTri f] := by simpa using op
      obtain ⟨eff, run⟩ := rx_op (s := s) h
      rw [Raises, run, rxOp_stranger eff wf trap stranger (idle rfl)]
    · obtain ⟨rfl, h⟩ : j = .mx ∧ ((∃ f, i ∈ [Instr.mma f, .mldb f, .mrel f, .mzero f, .mstz f, .mldz f]) ∨
          (∃ f, i ∈ [Instr.mrd f, .mwr f]) ∨ ∃ f, i = .mscl f) := by
        rcases op with ⟨f, h, e⟩ | ⟨f, h, e⟩ | ⟨f, h, e⟩ | ⟨f, h, e⟩
        · exact ⟨e, .inl ⟨f, h⟩⟩
        · exact ⟨e, .inr (.inl ⟨f, h⟩)⟩
        · exact ⟨e, .inr (.inr ⟨f, h⟩)⟩
        · exact absurd e rx
      obtain ⟨c, eff, run⟩ := mx_op (s := s) h
      rw [Raises, run, mxOp, ownerOp_stranger _ _ wf trap stranger]
  · obtain ⟨eff, run⟩ : ∃ eff, exec i s = .next (mxOp i (some c) eff s) := by
      rcases named with ⟨f, h, rfl⟩ | ⟨f, h, rfl⟩ | ⟨f, h, rfl⟩
      · exact mx_shape h
      · exact mx_halfRow h
      · exact mx_scaled h
    rw [run, mxOp_interlocked eff wf owner queued writes meets]

end Sys2Proof.Laws
end

section
/-! SUPPORT. Dispatch places a bundle (R68, R69, R90), and LOOP and REPT (R89, R189): O38. -/

namespace Sys2Proof.Laws

open Machine Claims

/-! ## Positions -/

theorem foldl_min_le {α : Type} (f : α → Nat) (l : List α) (q : Nat) :
    l.foldl (fun q x => min q (f x)) q ≤ q ∧ ∀ x ∈ l, l.foldl (fun q x => min q (f x)) q ≤ f x := by
  induction l generalizing q with
  | nil => simp
  | cons y l ih =>
    obtain ⟨low, each⟩ := ih (min q (f y))
    refine ⟨low.trans (Nat.min_le_left ..), fun x hx => ?_⟩
    rcases List.mem_cons.1 hx with rfl | hx
    · exact low.trans (Nat.min_le_right ..)
    · exact each x hx

theorem slotNum_lt (j : Slot) : slotNum j < 8 := by cases j <;> decide

theorem slotNum_inj {j k : Slot} (h : slotNum j = slotNum k) : j = k := by
  revert h
  cases j <;> cases k <;> decide

/-- R73: no slot is behind the oldest position. -/
theorem oldest_le (t : Team) (j : Slot) : t.oldest ≤ t.passed j :=
  (foldl_min_le (fun j => vget t.pass j 0) (List.range 8) (vget t.pass 0 0)).2 _ (List.mem_range.2 (slotNum_lt j))

@[simp] theorem passed_pass1_same (t : Team) (j : Slot) : (t.pass1 j).passed j = t.passed j + 1 := by
  simp [Team.passed, slotNum_lt]

theorem passed_pass1_other (t : Team) {j k : Slot} (h : k ≠ j) : (t.pass1 k).passed j = t.passed j := by
  rw [Team.passed, pass1_pass, vget_vput_other _ _ _ _ _ fun e => h (slotNum_inj e)]
  rfl

/-- A bundle that some slot other than the passing one has not passed stays in the queues (R69). -/
theorem mem_queue_pass1 {t : Team} {j k : Slot} {p : Placed} (h : p ∈ t.queue) (other : j ≠ k) (behind : t.passed k ≤ p.pos) :
    p ∈ (t.pass1 j).queue := by
  refine List.mem_filter.2 ⟨h, decide_eq_true ?_⟩
  exact ((oldest_le (t.pass1 j) k).trans (passed_pass1_other t other).le).trans behind

/-! ## Where dispatch goes on (R88, R90, R189) -/

/-- Dispatch goes on: nothing of a team but its next bundle and the results of its loop changes. -/
theorem onward_eq (t : Team) : ∃ pc l ls, t.onward = { t with pc := pc, loop := l, flight := t.flight ++ ls } ∧
    ls.map (·.write) = (match t.loop with
      | none => []
      | some l => if l.body.length ≤ l.idx + 1 then [.lcnt (BitVec.ofNat 32 (l.left - 1))] else []) ∧
    l.isSome = (match t.loop with
      | none => false
      | some l => !decide (l.body.length ≤ l.idx + 1) || decide (1 < l.left)) := by
  unfold Team.onward
  cases e : t.loop with
  | none => exact ⟨t.bpc + bundleLen t.cur.ct, none, [], by simp, rfl, rfl⟩
  | some l =>
    dsimp only
    by_cases inner : l.idx + 1 < l.body.length
    · rw [if_pos inner]
      refine ⟨t.pc, some { l with idx := l.idx + 1 }, [], by simp, ?_, ?_⟩
      · simp [Nat.not_le.2 inner]
      · simp [Nat.not_le.2 inner]
    · rw [if_neg inner]
      by_cases last : l.left ≤ 1
      · rw [if_pos last]
        exact ⟨_, none, _, rfl, by simp [Nat.not_lt.1 inner, ctResult], by simp [Nat.not_lt.1 inner, last]⟩
      · rw [if_neg last]
        exact ⟨t.pc, some { l with idx := 0, left := l.left - 1 }, _, rfl, by simp [Nat.not_lt.1 inner, ctResult],
          by simp [Nat.not_le.1 last]⟩

/-- With the loop and the branch of `s`, dispatch goes on with the loop's results of `s` in flight. -/
theorem advance_eq {s : State} {t : Team} (loop : t.loop = s.team.loop) (delay : t.delay = s.team.delay) :
    ∃ pc l ls, t.advance = { t with pc := pc, loop := l, delay := none, flight := t.flight ++ ls } ∧
      ls.map (·.write) = loopWrites s := by
  obtain ⟨pc, l, ls, e, writes, goes⟩ := onward_eq t
  rw [loop] at writes goes
  unfold Team.advance loopWrites
  rw [delay]
  split
  · next target _ =>
    dsimp only
    rw [e]
    cases hl : s.team.loop with
    | none =>
      rw [hl] at writes goes
      refine ⟨target, none, ls, ?_, writes⟩
      simp [goes]
    | some k =>
      rw [hl] at writes goes
      dsimp only at writes goes ⊢
      rw [goes]
      refine ⟨target, none, ls ++ if !decide (k.body.length ≤ k.idx + 1) || decide (1 < k.left) then [ctResult none
        { t with pc := pc, loop := l, flight := t.flight ++ ls } (.lcnt 0)] else [], ?_, ?_⟩
      · split <;> simp [ctResult, Team.passed]
      · rw [List.map_append, writes]
        by_cases h : k.body.length ≤ k.idx + 1 <;> by_cases h' : 1 < k.left <;> simp [h, h', ctResult]
  · next plain =>
    refine ⟨pc, l, ls, by rw [e], ?_⟩
    rw [writes]
    cases s.team.loop with
    | none => rfl
    | some k => simp

theorem advance_straight {t : Team} (loop : t.loop = none) (delay : t.delay = none) :
    t.advance = { t with pc := t.bpc + bundleLen t.cur.ct, delay := none } := by
  simp [Team.advance, Team.onward, loop, delay]

/-! ## A bundle enters the queues (R68, R69, R90) -/

section

variable {i : Instr} {s : State} (e : Option (Nat × Nat)) (ws : List Write) (sync : Option SyncKind)

/-- The new entry of the queues. -/
def entering (t : Team) : Placed :=
  { pos := t.passed .ct, bpc := t.bpc, ct := t.cur.ct, words := t.cur.words,
    rept := (match t.loop with | some l => l.rept | none => false), lcnt := t.passLcnt,
    target := (match t.delay with | some x => x | none => none), delay := t.delay.isSome, loop := t.loop }

/-- The energy class and width of a CT operation: a NOP has none (R441). -/
def ctEnergy (i : Instr) : Option (Nat × Nat) :=
  match i with
  | .nop _ => none
  | _ => some (energyClass .ct i, 64)

/-- A team whose bundle has entered the queues, before its CT slot passes. -/
theorem enqueue_eq (t : Team) : ∃ u : Team, t.enqueue e ws sync = u.advance.pass1 .ct ∧ u.loop = t.loop ∧ u.delay = t.delay ∧
    u.bpc = t.bpc ∧ u.cur = t.cur ∧ u.pass = t.pass ∧ u.trap = t.trap ∧ regs u = regs t ∧
    u.queue = t.queue ++ [entering t] ∧ u.flight = t.flight ++ ws.map (ctResult e t) :=
  ⟨_, rfl, rfl, rfl, rfl, rfl, rfl, rfl, rfl, rfl, rfl⟩

/-- What a team is once its bundle has entered the queues. -/
structure Entered (s : State) (ws : List Write) (t : Team) : Prop where
  pass : t.pass = vput s.team.pass 0 (s.team.passed .ct + 1)
  regs : regs t = regs s.team
  trap : t.trap = s.team.trap
  queue : (∃ j, j ≠ Slot.ct ∧ s.team.passed j ≤ s.team.passed .ct) → entering s.team ∈ t.queue
  flight : t.flight.map (·.write) = s.team.flight.map (·.write) ++ ws ++ loopWrites s

theorem entered_enqueue : Entered s ws (s.team.enqueue e ws sync) := by
  obtain ⟨u, eq, loop, delay, -, -, pass, trap, same, queue, flight⟩ := enqueue_eq e ws sync s.team
  obtain ⟨pc, l, ls, advance, writes⟩ := advance_eq loop delay
  rw [eq, advance]
  refine ⟨?_, same, trap, fun ⟨j, other, behind⟩ => ?_, ?_⟩
  · rw [pass1_pass, Team.passed, pass]
    rfl
  · refine mem_queue_pass1 (by rw [queue]; simp) (Ne.symm other) ?_
    show vget u.pass _ _ ≤ _
    rw [pass]
    exact behind
  · rw [pass1_flight, List.map_append, writes, flight, List.map_append, List.map_map]
    congr 2
    exact List.map_id' ws

/-- At most two results of its loop land with a bundle. -/
theorem loopWrites_length (s : State) : (loopWrites s).length ≤ 2 := by
  unfold loopWrites
  cases s.team.loop with
  | none => exact Nat.zero_le _
  | some l =>
    dsimp only
    rw [List.length_append]
    refine Nat.add_le_add (b := 1) (d := 1) ?_ ?_
    · split <;> simp
    · split
      · split <;> simp
      · simp

variable (h : AtDispatch i s)
include h

/-- There is room for the results of the bundle at hand (R422). -/
theorem placeFull_of_atDispatch {n : Nat} (few : n ≤ 1) : placeFull n s = false := by
  obtain ⟨-, -, room, -⟩ := h
  have flight := congrArg List.length (entered_enqueue (s := s) none (List.replicate n (.lcnt 0)) none).flight
  simp only [List.length_append, List.length_map, List.length_replicate] at flight
  have := loopWrites_length s
  simp only [Room] at room
  simp only [placeFull, Bool.and_eq_false_iff, decide_eq_false_iff_not]
  omega

/-- The bundle at hand is placed: its weight joins the window's sum, and its CT operation retires, or carries its energy to its
result. -/
theorem place_eq (j : Instr) (few : ws.length ≤ 1) : ∃ c, c.wsum = s.core.wsum + s.core.weight s.team.cur.e ∧
    place j ws sync s = { s with
      team := if ws.isEmpty then retire s.core .core (ctEnergy j) (s.team.enqueue (ctEnergy j) ws sync)
        else s.team.enqueue (ctEnergy j) ws sync,
      core := c } := by
  refine ⟨{ s.core with
    wsum := s.core.wsum + s.core.weight s.team.cur.e, freshWindow := false,
    issueFrom := if handsOver sync then s.now + 8 else s.core.issueFrom }, rfl, ?_⟩
  unfold place
  rw [placeFull_of_atDispatch h few]
  rfl

/-- What the bundle's CT operation changes of the next bundle alone, it changes with the bundle in the queues. -/
theorem enters_of_entered {t : Team} {c : Core} (inside : Entered s ws t)
    (sum : c.wsum = s.core.wsum + s.core.weight s.team.cur.e) : Enters s { s with team := t, core := c } ws := by
  obtain ⟨-, -, -, other⟩ := h
  refine ⟨?_, inside.regs.symm, rfl, inside.trap, ⟨_, inside.queue other, rfl, rfl, rfl⟩, sum, inside.flight⟩
  show vget t.pass 0 0 = _
  rw [inside.pass, vget_vput_same _ _ _ _ (by decide)]

/-- R68: no action has passed the CT operation, it holds no reserved value, and it stands in no delay bundle that bars it. -/
theorem ctOp_of_atDispatch (eff : State → State) (may : s.team.delay = none ∨ barredInDelay i = false) : ctOp i eff s = eff s := by
  obtain ⟨wf, skip, -, -⟩ := h
  have free : (s.team.delay.isSome && barredInDelay i) = false := by
    rcases may with e | e <;> simp [e]
  simp [ctOp, wf, skip, free]

end

theorem ctTrap_eq {s : State} (cause addr : Nat) (h : s.team.trap = none) :
    ctTrap cause addr s = raised .ct cause addr s.team.cur.ct s := by
  simp [ctTrap, raiseTrap, State.onTeam, h, raised, trapOf, trapAt]

/-! ## What may stand in a delay bundle (R89, R504) -/

/-- The operations that are barred from delay bundles are performed by `ctOp`, which looks for one. -/
theorem exec_barred {i : Instr} (h : barred i = true) (s : State) :
    barredInDelay i = true ∧ ∃ eff, exec i s = .next (ctOp i eff s) := by
  unfold barred at h
  split at h
  case h_16 => cases h
  all_goals exact ⟨rfl, _, rfl⟩

/-- R504: a barred operation in a delay bundle raises 0x0013. -/
theorem barred_raises {i : Instr} {s : State} (h : AtDispatch i s) (bars : barred i = true) (delay : s.team.delay.isSome = true)
    (trap : s.team.trap = none) : CtRaises i s 0x0013 0 := by
  obtain ⟨wf, skip, -, -⟩ := h
  obtain ⟨bars', eff, run⟩ := exec_barred bars s
  rw [CtRaises, run, ← ctTrap_eq _ _ trap]
  simp [ctOp, wf, skip, delay, bars']

/-! ## Loops (R189) -/

theorem loopCount_eq (t : Team) (cf : BitVec 1) (cnt : BitVec 9) : loopCount t cf cnt =
    if cf = 1 then ((t.rs (cnt.extractLsb' 3 6)).extractLsb' 0 32).toNat else cnt.toNat := by
  simp [loopCount, field, BitVec.extractLsb'_toNat]

section

variable {i : Instr} {rept : Bool} {cf : BitVec 1} {len : BitVec 4} {cnt : BitVec 9} {s : State}

theorem exec_loop (h : i = .loop cf len cnt ∧ rept = false ∨ i = .rept cf len cnt ∧ rept = true) :
    exec i s = .next (ctOp i (loopOp i rept cf len cnt) s) := by
  rcases h with ⟨rfl, rfl⟩ | ⟨rfl, rfl⟩ <;> rfl

/-- R189: LOOP and REPT inside a loop's body. -/
theorem loopOp_inside (inside : s.team.loop.isSome = true) : loopOp i rept cf len cnt s = ctTrap 0x0018 0 s := by
  unfold loopOp
  dsimp only
  split
  · simp [inside]
  · simp [inside]

/-- R507: a REPT whose body does not hold exactly one MX operation. -/
theorem loopOp_misshapen {body : List (Nat × Bundle)} (stored : fetchBody s (afterBundle s) (len.toNat + 1) = (body, none))
    (bad : rept = true ∧ bodyMx body ≠ 1) : loopOp i rept cf len cnt s = ctTrap 0x0018 0 s := by
  have stored' : fetchBody s (s.team.bpc + bundleLen s.team.cur.ct) (len.toNat + 1) = (body, none) := stored
  unfold loopOp
  simp [stored', bad]

/-- The address after a body's last bundle. -/
def bodyEnd (s : State) (body : List (Nat × Bundle)) : Nat := body.foldl (fun _ b => b.1 + bundleLen b.2.ct) (afterBundle s)

/-- The loop as its first pass begins, or with a count of 0 the address behind it (R90, R189). -/
def startLoop (s : State) (rept : Bool) (body : List (Nat × Bundle)) (c : Nat) (t : Team) : Team :=
  if c = 0 then { t with pc := bodyEnd s body }
  else { t with loop := some { rept := rept, start := afterBundle s, body := body, after := bodyEnd s body, left := c, idx := 0,
                               pos0 := s.team.passed .ct + 1, count := c } }

theorem loopOp_starts {body : List (Nat × Bundle)} (h : AtDispatch i s) (delay : s.team.delay = none) (outside : s.team.loop = none)
    (stored : fetchBody s (afterBundle s) (len.toNat + 1) = (body, none)) (one : rept = true → bodyMx body = 1) :
    ∃ t c, c.wsum = s.core.wsum + s.core.weight s.team.cur.e ∧
      loopOp i rept cf len cnt s = { s with team := startLoop s rept body (loopCount s.team cf cnt) t, core := c } ∧
      Entered s [.lcnt (BitVec.ofNat 32 (loopCount s.team cf cnt))] t ∧ t.loop = none := by
  have stored' : fetchBody s (s.team.bpc + bundleLen s.team.cur.ct) (len.toNat + 1) = (body, none) := stored
  have fits : (s.team.loop.isSome || (rept && decide (bodyMx body ≠ 1))) = false := by
    cases rept <;> simp [outside]
    exact one rfl
  have count : ∀ c : Nat, (if c = 0 then [Write.lcnt 0] else [.lcnt (BitVec.ofNat 32 c)]) = [.lcnt (BitVec.ofNat 32 c)] := by
    intro c
    split
    · next e =>
      rw [e]
      rfl
    · rfl
  have inside := entered_enqueue (s := s) (ctEnergy i) [.lcnt (BitVec.ofNat 32 (loopCount s.team cf cnt))] none
  obtain ⟨c, sum, placed⟩ := place_eq [.lcnt (BitVec.ofNat 32 (loopCount s.team cf cnt))] none h i (le_refl 1)
  refine ⟨s.team.enqueue (ctEnergy i) [.lcnt (BitVec.ofNat 32 (loopCount s.team cf cnt))] none, c, sum, ?_, inside, ?_⟩
  · have moves : (place i [.lcnt (BitVec.ofNat 32 (loopCount s.team cf cnt))] none s).team.passed .ct ≠ s.team.passed .ct := by
      rw [placed]
      show vget (s.team.enqueue _ _ _).pass 0 0 ≠ _
      rw [inside.pass, vget_vput_same _ _ _ _ (by decide)]
      omega
    unfold loopOp
    simp only [stored', fits, Bool.false_eq_true, if_false, count, placeThen, if_neg moves]
    rw [placed]
    rfl
  · obtain ⟨u, eq, loop, straight, -⟩ := enqueue_eq (ctEnergy i) [.lcnt (BitVec.ofNat 32 (loopCount s.team cf cnt))] none s.team
    rw [eq, advance_straight (loop.trans outside) (straight.trans delay), pass1_loop]
    exact loop.trans outside

end

theorem startLoop_enters {i : Instr} {s : State} {ws : List Write} {t : Team} {c : Core} (h : AtDispatch i s) (rept : Bool)
    (body : List (Nat × Bundle)) (n : Nat) (inside : Entered s ws t) (sum : c.wsum = s.core.wsum + s.core.weight s.team.cur.e) :
    Enters s { s with team := startLoop s rept body n t, core := c } ws := by
  refine enters_of_entered ws h ?_ sum
  unfold startLoop
  split <;> exact { inside with }

theorem bodyMx_eq (body : List (Nat × Bundle)) : bodyMx body = (body.filter fun b => (b.2.words[4]?).getD 0 != 0).length := by
  refine congrArg List.length (List.filter_congr fun b _ => ?_)
  rw [bne, beq_eq_decide]
  exact decide_not

/-- Settles O38: what bars an operation, what bars a loop, and the loop that begins or is skipped. -/
theorem loopsAndDelayBundles : Obligations.LoopsAndDelayBundles := by
  unfold Obligations.LoopsAndDelayBundles
  intro i s h
  refine ⟨barred_raises h, fun cf len cnt rept body form delay => ?_⟩
  rw [CtRaises, exec_loop form, ctOp_of_atDispatch h _ (.inl delay)]
  refine ⟨fun inside trap => ?_, fun outside stored => ?_⟩
  · rw [loopOp_inside inside, ctTrap_eq _ _ trap]
  · rw [← loopCount_eq, ← bodyMx_eq]
    refine ⟨fun isRept misshapen trap => ?_, fun one => ?_⟩
    · rw [loopOp_misshapen stored ⟨isRept, misshapen⟩, ctTrap_eq _ _ trap]
    · obtain ⟨t, c, sum, run, inside, noLoop⟩ := loopOp_starts (i := i) (cf := cf) (cnt := cnt) h delay outside stored one
      rw [run]
      refine ⟨_, rfl, startLoop_enters h rept body _ inside sum, fun none_ => ?_, fun some_ => ?_⟩
      · simp only [startLoop, if_pos none_]
        exact ⟨noLoop, rfl⟩
      · simp only [startLoop, if_neg (Nat.ne_of_gt some_)]
        rfl

end Sys2Proof.Laws
end

section
/-! SUPPORT. Accesses of the core's own LM (R80, R224, R228, R344): their checks, what they read, and the loads whose values land
after the LM's latency: O10. -/

namespace Sys2Proof.Laws

open Machine Claims

/-! ## Addresses (R222, R227) -/

theorem ea_eq (f : LsForm) (s : State) : f.ea s.team = offsetAddress f s 12 (bytesOf f.ty) := by
  rw [LsForm.ea, bytesOf_eq]
  rfl

theorem ea8_eq (f : LsForm) (s : State) : f.ea8 s.team = offsetAddress f s 8 (bytesOf f.ty) := by
  rw [LsForm.ea8, bytesOf_eq]
  rfl

theorem addrUnit_eq (f : LsForm) (s : State) : addrUnit f s.team = unitLane f s := by
  funext i
  rw [addrUnit, bytesOf_eq]
  rfl


theorem addrIndex_eq (f : LsForm) (s : State) : addrIndex f s.team = indexLane f (f.low.extractLsb' 4 2).toNat s := by
  funext i
  unfold addrIndex indexLane sextNat
  rw [BitVec.ofNat_toNat, BitVec.setWidth_eq]
  rfl

/-! ## Checks (R224, R526) -/

/-- An element of an access, from its lane, its address and its datum, at byte `off` of the own LM. -/
def ownPart (s : State) (size : Nat) (off : Nat → Nat) (e : Nat × Double × Double) : Part :=
  { ipa := lmIpa s.hub.package s.team.ref.die s.team.ref.lcore (off e.1), size := size, lane := e.1, data := e.2.2, va := e.2.1.toNat }

section

variable {s : State} {f : LsForm} {k : AccKind} {size : Nat} {off : Nat → Nat} {es : List (Nat × Double × Double)}
  (quiet : Quiet s) (width : size = 1 ∨ size = 2 ∨ size = 4 ∨ size = 8) (own : ∀ e ∈ es, OwnLm s e.2.1 size (off e.1))
include quiet width own

/-- Elements of the own LM pass their checks, lane after lane. -/
theorem checkParts_own (low : LowBase f s) : checkParts s s.team f k size es = .ok (es.map (ownPart s size off)) := by
  induction es with
  | nil => rfl
  | cons e es ih =>
    have rest := ih fun e he => own e (List.mem_cons_of_mem _ he)
    have first := check_own (k := k) quiet (own e List.mem_cons_self) width
    simp only [checkParts, top_zero low, first, rest, ne_eq, not_true_eq_false, if_false, List.map_cons]
    rfl

theorem spot_ownPart {p : Part} (h : p ∈ es.map (ownPart s size off)) :
    spotOf s.hub.package p.ipa = .lm s.team.ref.die s.team.ref.lcore (off p.lane) := by
  obtain ⟨e, he, rfl⟩ := List.mem_map.1 h
  obtain ⟨-, lt, -, -⟩ := own e he
  obtain ⟨die, core, -⟩ := quiet
  exact spot_lm _ _ _ _ die core (by omega)

theorem allOwnLm_own : allOwnLm s (es.map (ownPart s size off)) = true :=
  own_of_spots fun _ hp => ⟨_, spot_ownPart quiet width own hp⟩

end

theorem postInc_le (f : LsForm) (t : Team) : (postInc f t).length ≤ 1 := by
  unfold postInc
  split <;> simp

/-- An operation on the own LM whose elements pass their checks has its effect. -/
theorem lsOp_own {i : Instr} {f : LsForm} {s : State} {k : AccKind} {size : Nat} {els : Team → List (Nat × Double × Double)}
    {off : Nat → Nat} (eff : List Part → State → State) (ready : LsReady i f s) (width : size = 1 ∨ size = 2 ∨ size = 4 ∨ size = 8)
    (own : ∀ e ∈ els s.team, OwnLm s e.2.1 size (off e.1)) :
    lsOp i f k size els eff s = eff ((els s.team).map (ownPart s size off)) s := by
  obtain ⟨wf, quiet, room, low⟩ := ready
  obtain ⟨-, -, -, free, -⟩ := id quiet
  have fits : s.team.flightFull (postInc f s.team).length = false := by
    have := postInc_le f s.team
    refine room_not_full (s := s) (n := (postInc f s.team).length) ?_
    unfold Room at room ⊢
    omega
  simp only [lsOp, slotOp, wf, free, checkParts_own quiet width own low, allOwnLm_own quiet width own, fits, Bool.not_true,
    Bool.false_and, Bool.false_eq_true, if_true, if_false]

/-! ## What the own LM holds (R344, R231) -/

theorem leNat_lmBytes (s : State) (off n : Nat) :
    leNat (lmBytes s s.team.ref.die s.team.ref.lcore off n) = peek (ownByte s) off n := by
  rw [leNat_eq, lmBytes, upFrom, List.map_map]
  rfl

theorem zipWith_snd {α β : Type} {l : List α} {m : List β} (h : m.length ≤ l.length) : List.zipWith (fun _ b => b) l m = m := by
  have := List.map_snd_zip h
  rwa [List.zip, List.map_zipWith] at this

theorem length_lmBytes (s : State) (d l o n : Nat) : (lmBytes s d l o n).length = n := by
  rw [lmBytes, upFrom, List.length_map, List.length_map, List.length_range]

theorem pendingOwn_quiet {s : State} (quiet : Quiet s) : pendingOwn s = [] := by
  obtain ⟨-, -, -, -, -, done⟩ := quiet
  have none_ : s.team.vars.filter (fun b => decide (b.phase ≠ .performed)) = [] :=
    List.filter_eq_nil_iff.2 fun b hb => by simp [done b hb]
  rw [pendingOwn, none_, List.foldl_nil]

/-- No pending write changes what a load sees. -/
theorem overlay_nothing (l : List Byte) {off n : Nat} (h : l.length = n) :
    (upFrom off n).zipWith (fun x b => (SMap.get? [] x).getD b) l = l := by
  simp only [SMap.get?, Option.getD_none]
  refine zipWith_snd ?_
  rw [h, upFrom, List.length_map, List.length_range]

/-- With every access of the team performed, its next load sees its LM's bytes. -/
theorem ownBytes_quiet {s : State} (quiet : Quiet s) (off n : Nat) :
    ownBytes s off n = lmBytes s s.team.ref.die s.team.ref.lcore off n := by
  unfold ownBytes
  rw [pendingOwn_quiet quiet]
  exact overlay_nothing _ (length_lmBytes ..)

theorem readNow_of_spots {s : State} (quiet : Quiet s) {ps : List Part} {o : Part → Nat}
    (spots : ∀ p ∈ ps, spotOf s.hub.package p.ipa = .lm s.team.ref.die s.team.ref.lcore (o p)) :
    readNow s ps = ps.map fun p => (p.lane, peek (ownByte s) (o p) p.size) := by
  refine List.map_congr_left fun p hp => ?_
  rw [spots p hp]
  dsimp only
  rw [ownBytes_quiet quiet, leNat_lmBytes]

theorem readNow_own {s : State} (quiet : Quiet s) {size : Nat} (width : size = 1 ∨ size = 2 ∨ size = 4 ∨ size = 8) {off : Nat → Nat}
    {es : List (Nat × Double × Double)} (own : ∀ e ∈ es, OwnLm s e.2.1 size (off e.1)) :
    readNow s (es.map (ownPart s size off)) = es.map fun e => (e.1, peek (ownByte s) (off e.1) size) := by
  rw [readNow_of_spots quiet (o := fun p => off p.lane) fun p hp => spot_ownPart quiet width own hp, List.map_map]
  rfl

/-! ## The lanes of a vector load (R227) -/

theorem laneExtend_eq (ty : BitVec 3) (x : Nat) : laneExtend ty x = loadedLane ty x := by
  have : ty = 0 ∨ ty = 1 ∨ ty = 2 ∨ ty = 3 ∨ ty = 4 ∨ ty = 5 ∨ ty = 6 ∨ ty = 7 := by revert ty; decide
  rcases this with rfl | rfl | rfl | rfl | rfl | rfl | rfl | rfl <;> rfl

/-- Each lane that a vector load names holds its element, in whatever order they come. -/
theorem vget_laneValues {ty : BitVec 3} {xs : List (Nat × Nat)} {v : Nat → Nat} (h : ∀ x ∈ xs, x.2 = v x.1) {l : Nat} (lt : l < 64)
    (mem : ∃ x ∈ xs, x.1 = l) : vget (laneValues ty xs) l 0 = loadedLane ty (v l) := by
  suffices any : ∀ w : VReg, (∃ x ∈ xs, x.1 = l) ∨ vget w l 0 = loadedLane ty (v l) →
      vget (xs.foldl (fun v x => vput v x.1 (laneExtend ty x.2)) w) l 0 = loadedLane ty (v l) from any _ (.inl mem)
  clear mem
  induction xs with
  | nil => simp
  | cons x xs ih =>
    intro w hw
    refine ih (fun x hx => h x (List.mem_cons_of_mem _ hx)) _ ?_
    by_cases here : x.1 = l
    · right
      rw [← here, vget_vput_same _ _ _ _ (here ▸ lt), laneExtend_eq, h x List.mem_cons_self]
    · rw [vget_vput_other _ _ _ _ _ here]
      rcases hw with ⟨y, hy, e⟩ | hw
      · rcases List.mem_cons.1 hy with rfl | hy
        · exact absurd e here
        · exact .inl ⟨y, hy, e⟩
      · exact .inr hw

theorem lt_of_mem_setLanes {m : Double} {l : Nat} (h : l ∈ setLanes m) : l < 64 := List.mem_range.1 (List.mem_filter.1 h).1

/-- The elements of a vector form are those of its active lanes (R35). -/
theorem vecElems_own {f : LsForm} {s : State} {mask : BitVec 3} {addr : Nat → Double} {size : Nat} {off : Nat → Nat}
    (own : LanesOwn s (s.team.rm mask) addr size off) : ∀ e ∈ vecElems f s.team mask addr, OwnLm s e.2.1 size (off e.1) := by
  intro e he
  obtain ⟨l, hl, rfl⟩ := List.mem_map.1 he
  exact own.2 l hl

/-! ## Loads with the LM's latency (R80) -/

/-- The result of an operation and its post-increment leave the slot. -/
theorem issue_increments {i : Instr} {f : LsForm} {s : State} {w l : Nat} {x : Write} (room : Room s 2) :
    issue .ls i w ((l, x) :: postInc f s.team) s = issued .ls s (result .ls i s w l x :: increments f s) := by
  have fits : s.team.flightFull ((l, x) :: postInc f s.team).length = false := by
    have := postInc_le f s.team
    refine room_not_full (s := s) (n := ((l, x) :: postInc f s.team).length) ?_
    unfold Room at room ⊢
    simp only [List.length_cons]
    omega
  have inc : (postInc f s.team).map (fun x => ({ slot := .ls, domain := slotDomain .ls, pos := s.team.passed .ls, rem := x.1, write := x.2, energy := none } : Landing)) =
      increments f s := by
    unfold postInc increments
    split <;> rfl
  simp only [issue, fits, Bool.false_eq_true, if_false, List.isEmpty_cons, landings, inc]
  rfl

section

variable {i : Instr} {f : LsForm} {s : State} (ready : LsReady i f s)
include ready

/-- A load of the own LM with a fixed latency issues with what the LM holds. -/
theorem loadEff_own {w : Nat} {va : Double} {op : AccOp} {x : Write} {off : Nat → Nat} {es : List (Nat × Double × Double)}
    (own : ∀ e ∈ es, OwnLm s e.2.1 (bytesOf f.ty) (off e.1)) (ne : es ≠ [])
    (value : resultsOf op (es.map fun e => (e.1, peek (ownByte s) (off e.1) (bytesOf f.ty))) = [x]) :
    loadEff i f w va none false true op (es.map (ownPart s (bytesOf f.ty) off)) s =
      issued .ls s (result .ls i s w (lat s 7 6) x :: increments f s) := by
  obtain ⟨-, quiet, room, -⟩ := ready
  have width := bytesOf_cases f.ty
  have some_ : (es.map (ownPart s (bytesOf f.ty) off)).isEmpty = false := by simpa using ne
  simp only [loadEff, some_, allOwnLm_own quiet width own, readNow_own quiet width own, value, Bool.and_self, Bool.false_eq_true,
    if_true, if_false]
  exact issue_increments room

/-- A vector load of the own LM with a fixed latency. -/
theorem vecLoad_own {mask : BitVec 3} {addr : Team → Nat → Double} {off : Nat → Nat}
    (own : LanesOwn s (s.team.rm mask) (addr s.team) (bytesOf f.ty) off) :
    ∃ x : VReg, (∀ l ∈ setLanes (s.team.rm mask), vget x l 0 = loadedLane f.ty (peek (ownByte s) (off l) (bytesOf f.ty))) ∧
      vecLoad i f mask addr true s = issued .ls s (result .ls i s (8 * bytesOf f.ty) (lat s 7 6) (.v f.data (s.team.rm mask) x) ::
        increments f s) := by
  have elems := vecElems_own (f := f) own
  have ne : vecElems f s.team mask (addr s.team) ≠ [] := fun e => own.1 (List.map_eq_nil_iff.1 e)
  refine ⟨laneValues f.ty ((vecElems f s.team mask (addr s.team)).map fun e => (e.1, peek (ownByte s) (off e.1) (bytesOf f.ty))),
    fun l hl => ?_, ?_⟩
  · refine vget_laneValues (v := fun l => peek (ownByte s) (off l) (bytesOf f.ty)) (fun x hx => ?_) (lt_of_mem_setLanes hl) ?_
    · obtain ⟨e, -, rfl⟩ := List.mem_map.1 hx
      rfl
    · exact ⟨_, List.mem_map_of_mem (List.mem_map_of_mem hl), rfl⟩
  · unfold vecLoad
    rw [bytesOf_eq, lsOp_own _ ready (bytesOf_cases _) elems, loadEff_own ready elems ne rfl, accWidth, bytesOf_eq]
    rw [BitVec.ofNat_toNat, BitVec.setWidth_eq]

end

/-- Settles O10: the three forms by the elements that they read. -/
theorem loadsFromOwnLm : Obligations.LoadsFromOwnLm := by
  unfold Obligations.LoadsFromOwnLm
  refine fun f s => ⟨fun off ready own => ?_, fun i addr off form ready own => ?_⟩
  · have elems : ∀ e ∈ [(0, f.ea s.team, (0 : Double))], OwnLm s e.2.1 (bytesOf f.ty) off := by simpa [ea_eq] using own
    show Host.Outcome.next _ = _
    rw [bytesOf_eq, lsOp_own (off := fun _ => off) _ ready (bytesOf_cases _) elems,
      loadEff_own (off := fun _ => off) ready elems (by simp) rfl, accWidth, bytesOf_eq, BitVec.ofNat_toNat, BitVec.setWidth_eq]
    simp only [List.map_cons, List.head?_cons, Option.getD_some, loaded_eq]
  · rcases form with ⟨rfl, rfl⟩ | ⟨rfl, rfl⟩
    · rw [← addrUnit_eq] at own
      obtain ⟨x, value, run⟩ := vecLoad_own (mask := f.maskHigh) ready own
      exact ⟨x, value, congrArg Host.Outcome.next run⟩
    · obtain ⟨x, value, run⟩ := vecLoad_own (mask := f.maskHigh) (addr := addrStride f) ready own
      exact ⟨x, value, congrArg Host.Outcome.next run⟩

end Sys2Proof.Laws
end

section
/-! SUPPORT. Loads of the core's own LM whose values wait for their completion (R79, R228, R233, R243): O11. -/

namespace Sys2Proof.Laws

open Machine Claims

/-! ## The LM's bytes rest on the memory, the pages' epochs and the grants -/

theorem lmBytes_congr {s t : State} (mem : t.mem = s.mem) (epochs : t.lmEpochs = s.lmEpochs) (d l o n : Nat) :
    lmBytes t d l o n = lmBytes s d l o n := by
  simp only [lmBytes, lmMask, mem, epochs]

/-- The grants of a tenant are those of the resident teams (R346). -/
theorem lmGranted_congr {s t : State} (teams : t.teams = s.teams) (ref : t.team.ref = s.team.ref)
    (resident : t.team.resident = s.team.resident) (tenant : t.team.tenant = s.team.tenant) (lmg : t.team.lmg = s.team.lmg)
    (k d l o : Nat) : lmGranted t k d l o = lmGranted s k d l o := by
  have same : ∀ r, (t.teamAt r).resident = (s.teamAt r).resident ∧ (t.teamAt r).tenant = (s.teamAt r).tenant ∧
      (t.teamAt r).lmg = (s.teamAt r).lmg := fun r => by
    unfold State.teamAt
    rw [ref, teams]
    split
    · exact ⟨resident, tenant, lmg⟩
    · exact ⟨rfl, rfl, rfl⟩
  unfold lmGranted
  congr 1
  funext i
  obtain ⟨e1, e2, e3⟩ := same { die := d, lcore := l, rslot := i }
  dsimp only
  rw [e1, e2, e3]

theorem granted_of_range {s : State} {k d l o n : Nat} (some_ : 0 < n) (h : lmRangeGranted s k d l o n = true) :
    lmGranted s k d l o = true := by
  have pos : n ≠ 0 := Nat.ne_of_gt some_
  simp only [lmRangeGranted, pos, decide_false, Bool.false_or, Bool.and_eq_true, List.all_eq_true, List.mem_range] at h
  exact h.1 0 (by omega)

theorem launchAhead_congr {t t' : Team} (queue : t'.queue = t.queue) (pass : t'.pass = t.pass) (p : Nat) :
    t'.launchAhead p = t.launchAhead p := by
  unfold Team.launchAhead Team.passed
  rw [queue, pass]

/-! ## An access of the own LM is performed as it leaves its slot (R225, R228, log entry 5) -/

/-- The acting team with an access in its list, its destination unspecified. -/
def sent (a : Access) (w : Write) (u : State) : State :=
  { u with team := { u.team.write w with vars := u.team.vars ++ [a] }, free := u.free + 1 }

/-- A performed access: what its completion writes. -/
def performed (a : Access) (xs : List (Nat × Nat)) : Access :=
  { a with phase := .performed, results := resultsOf a.op (sortBy (fun x y => decide (x.1 < y.1)) xs) }

/-- The acting team's access reads its core's own LM: each part's value, and no state changed by reading. -/
structure OwnRead (u : State) (a : Access) (w : Write) (v : Part → Nat) : Prop where
  team : a.team = u.team.ref
  slot : a.slot = .ls
  path : a.path = .ls
  acquire : a.rp = false
  fresh : a.got = []
  noWrite : a.wid = none
  place : a.place ≠ .lm
  variable_ : a.op.variable = true
  elements : a.op.elements = true
  noRelease : ∀ t, a.releases t = false
  unspecified : unspecify a.op u = { u with team := u.team.write w, free := u.free + 1 }
  quiet : ∀ b ∈ u.team.vars, b.phase = .performed ∧ b.acquires = false
  launch : u.team.launchAhead a.pos = false
  spots : ∀ p ∈ a.parts, ∃ o, spotOf u.hub.package p.ipa = .lm a.team.die a.team.lcore o
  reads : ∀ p ∈ a.parts, performPart a (sent a w u) p = (v p, sent a w u)

section

variable {u : State} {a : Access} {w : Write} {v : Part → Nat} (h : OwnRead u a w v)
include h

/-- A test of the parts' spots that the own LM passes, each part passes. -/
theorem OwnRead.all_parts {f : Part → Bool}
    (own : ∀ p o, spotOf u.hub.package p.ipa = .lm a.team.die a.team.lcore o → f p = true) : a.parts.all f = true := by
  refine List.all_eq_true.2 fun p hp => ?_
  obtain ⟨o, ho⟩ := h.spots p hp
  exact own p o ho

/-- The own LM needs no line of the caches. -/
theorem OwnRead.noLines {ps : List Part} (sub : ∀ p ∈ ps, p ∈ a.parts) : { a with parts := ps }.cacheLines u.hub.package = [] := by
  have none_ : ∀ f : Part → Bool, (∀ p o, spotOf u.hub.package p.ipa = .lm a.team.die a.team.lcore o → f p = false) →
      ps.filter f = [] := fun f away => List.filter_eq_nil_iff.2 fun p hp => by
    obtain ⟨o, ho⟩ := h.spots p (sub p hp)
    simp [away p o ho]
  unfold Access.cacheLines
  rw [none_ _ fun p o ho => by rw [ho]]
  rfl

theorem OwnRead.performOwn_eq (s : State) (hub : s.hub = u.hub) : performOwn a s = (a, s) := by
  have all : ∀ f : Part → Bool, (∀ p o, spotOf u.hub.package p.ipa = .lm a.team.die a.team.lcore o → f p = true) →
      a.parts.filter f = a.parts := fun f own => List.filter_eq_self.2 (List.all_eq_true.1 (h.all_parts own))
  unfold performOwn
  dsimp only
  rw [hub, all _ fun p o ho => by rw [ho]; simp]
  simp

theorem OwnRead.ready : a.parts.all (partReady (sent a w u) a (sent a w u).team) = true := by
  refine h.all_parts fun p o ho => ?_
  have spot : spotOf (sent a w u).hub.package p.ipa = .lm a.team.die a.team.lcore o := ho
  unfold partReady
  rw [spot]
  simp [migratingLm]

theorem OwnRead.unblocked : blockedBy (sent a w u) (sent a w u).team a = false := by
  have launch : (sent a w u).team.launchAhead a.pos = false := by
    rw [← h.launch]
    exact launchAhead_congr (write_queue ..) (write_pass ..) _
  have vars : (sent a w u).team.vars = u.team.vars ++ [a] := rfl
  have self : a.before a = false := by simp [Access.before]
  unfold blockedBy
  rw [launch, vars, Bool.and_false, Bool.or_false, List.any_append, Bool.or_eq_false_iff]
  constructor
  · refine List.any_eq_false.2 fun b hb => ?_
    obtain ⟨done, plain⟩ := h.quiet b hb
    simp [done, plain]
  · simp [self]

theorem OwnRead.performParts_eq {ps : List Part} (sub : ∀ p ∈ ps, p ∈ a.parts) :
    performParts a ps (sent a w u) = (ps.map fun p => (p.lane, v p), sent a w u) := by
  induction ps with
  | nil => rfl
  | cons p ps ih =>
    have lines : { a with parts := [p] }.cacheLines (sent a w u).hub.package = [] :=
      h.noLines (ps := [p]) fun q hq => sub q (by simp_all)
    have rest := ih fun q hq => sub q (List.mem_cons_of_mem _ hq)
    simp only [performParts, lines, ensureLines, h.reads p (sub p List.mem_cons_self), rest, List.map_cons]

/-- No part of the own LM lies outside the team's die. -/
theorem OwnRead.near {s : State} {b : Access} (hub : s.hub = u.hub) (team : b.team = a.team) (parts : b.parts = a.parts) :
    b.parts.any (farSpot s b) = false := by
  rw [parts]
  refine List.any_eq_false.2 fun p hp => ?_
  obtain ⟨o, ho⟩ := h.spots p hp
  unfold farSpot
  rw [hub, team, ho]
  simp

/-- Its results wait, and its completion comes after a time that the spec does not state (R79). -/
theorem OwnRead.finish_eq (xs : List (Nat × Nat)) : ∃ n, finishAccess a xs (sent a w u) =
    { sent a w u with
      team := settleWrites { (sent a w u).team with
        vars := modWhere (fun b => b.id = a.id) (fun _ => performed a xs) (u.team.vars ++ [a]) },
      timers := u.timers ++ [(n, .variableOpComplete, { team := a.team, id := a.id })], free := u.free + 2 } := by
  have own : (sent a w u).team.ref = a.team := by rw [h.team]; exact write_ref ..
  refine ⟨u.now + max (Config.latency (u.free + 1)) 1, ?_⟩
  unfold finishAccess
  extract_lets ys b s1 s2 s3 s4 done
  have hb : b = performed a xs := by simp only [b, ys, h.fresh, List.nil_append, performed]
  have h1 : s1 = { sent a w u with team := { (sent a w u).team with
      vars := modWhere (fun b => b.id = a.id) (fun _ => performed a xs) (u.team.vars ++ [a]) } } := by
    simp only [s1, hb]
    exact if_pos own
  have h2 : s2 = { s1 with team := settleWrites s1.team } := by
    have none_ : b.wid = none := h.noWrite
    have here : s1.team.ref = b.team := by rw [h1]; exact own
    simp only [s2, none_, reachWrite]
    exact if_pos here
  have h3 : s3 = s2 := by
    have none_ : b.wid = none := h.noWrite
    simp only [s3, none_]
  have h4 : s4 = s2 := by rw [← h3]; exact if_neg h.place
  have near : b.parts.any (farSpot s4 b) = false := h.near (by rw [h4, h2, h1]; rfl) rfl rfl
  have var : b.op.variable = true := h.variable_
  rw [var, near, h4, h2, h1]
  rfl

/-- The access is performed as it leaves its slot: it reads, changes no memory, and waits for its completion. -/
theorem OwnRead.send_eq : ∃ n, sendAccess a u =
    { sent a w u with
      team := settleWrites { (sent a w u).team with
        vars := modWhere (fun b => b.id = a.id) (fun _ => performed a (a.parts.map fun p => (p.lane, v p))) (u.team.vars ++ [a]) },
      timers := u.timers ++ [(n, .variableOpComplete, { team := a.team, id := a.id })], free := u.free + 2 } := by
  obtain ⟨n, finish⟩ := h.finish_eq (a.parts.map fun p => (p.lane, v p))
  refine ⟨n, ?_⟩
  have lines : ∀ s : State, s.hub = u.hub → a.cacheLines s.hub.package = [] := fun s e => by
    rw [e]
    exact h.noLines fun _ hp => hp
  have perform : performAccess a (sent a w u) = finishAccess a (a.parts.map fun p => (p.lane, v p)) (sent a w u) := by
    simp only [performAccess, h.performParts_eq fun _ hp => hp]
    rw [makeRoom, lines _ (by rw [finish]; rfl)]
    rfl
  have goes : (a.parts.all (partReady (sent a w u) a (sent a w u).team) && !blockedBy (sent a w u) (sent a w u).team a &&
      !(a.releases (sent a w u).team && loadsBefore (sent a w u).team a) && !a.rp && a.op.elements) = true := by
    rw [h.ready, h.unblocked, h.noRelease, h.acquire, h.elements]
    rfl
  have added : (State.onTeam { u with team := u.team.write w, free := u.free + 1 } fun t => { t with vars := t.vars ++ [a] }) =
      sent a w u :=
    congrArg (fun l => { u with team := { u.team.write w with vars := l ++ [a] }, free := u.free + 1 }) (write_vars ..)
  unfold sendAccess
  rw [h.unspecified]
  dsimp only
  rw [h.performOwn_eq { u with team := u.team.write w, free := u.free + 1 } rfl]
  dsimp only
  rw [added, if_pos goes, lines (sent a w u) rfl]
  exact perform.trans finish

end

/-! ## Loads whose values wait for their completion -/

section

variable {i : Instr} {f : LsForm} {s : State} (ready : LsReady i f s)

/-- The acting team once an LS operation that completes later has left its slot, with its post-increment in flight. -/
def leaving (f : LsForm) (s : State) : State := { issued .ls s (increments f s) with fresh := s.fresh + 1 }

theorem issueLater_leaving (room : Room s 2) :
    issueLater .ls i (postInc f s.team) { s with fresh := s.fresh + 1 } = leaving f s := by
  have fits : s.team.flightFull (postInc f s.team).length = false := by
    have := postInc_le f s.team
    refine room_not_full (s := s) (n := (postInc f s.team).length) ?_
    unfold Room at room ⊢
    omega
  have inc : ((landings .ls i 64 (s.team.passed .ls) (postInc f s.team)).map fun l => { l with energy := none }) = increments f s := by
    unfold postInc increments
    split <;> rfl
  unfold issueLater
  dsimp only
  rw [fits, inc]
  rfl

/-- The access that leaves the slot. -/
def loadAccess (i : Instr) (va : Double) (scope : Option (BitVec 3)) (op : AccOp) (ps : List Part) (s : State) : Access :=
  (newAccess .ls i va.toNat scope false (scopePlace scope) op ps s).1

theorem loadEff_later {width : Nat} {va : Double} {scope : Option (BitVec 3)} {op : AccOp} {ps : List Part} (room : Room s 2)
    (some_ : ps ≠ []) : loadEff i f width va scope false false op ps s = sendAccess (loadAccess i va scope op ps s) (leaving f s) := by
  have ne : ps.isEmpty = false := by simpa using some_
  rw [← issueLater_leaving (i := i) room]
  simp only [loadEff, ne, Bool.false_and, Bool.false_eq_true, if_false]
  rfl

theorem scopePlace_ne_lm (scope : Option (BitVec 3)) : scopePlace scope ≠ .lm := by
  unfold scopePlace placeOf
  dsimp only
  split <;> simp

include ready

theorem leaving_launch : (leaving f s).team.launchAhead (s.team.passed .ls) = false := by
  obtain ⟨-, ⟨-, -, -, -, launch, -⟩, -, -⟩ := ready
  refine List.any_eq_false.2 fun x hx => ?_
  have queued : x ∈ s.team.queue := (List.mem_filter.1 hx).1
  have ad : (leaving f s).team.passed .ad = s.team.passed .ad := passed_pass1_other _ (by decide)
  rw [ad]
  exact List.any_eq_false.1 launch x queued

/-- An access of the own LM that reads what `v` gives, as it leaves the slot. -/
theorem ownRead_of_ready {va : Double} {scope : Option (BitVec 3)} {op : AccOp} {ps : List Part} {w : Write} {v : Part → Nat}
    (spots : ∀ p ∈ ps, ∃ o, spotOf s.hub.package p.ipa = .lm s.team.ref.die s.team.ref.lcore o)
    (reads : ∀ p ∈ ps, performPart (loadAccess i va scope op ps s) (sent (loadAccess i va scope op ps s) w (leaving f s)) p =
      (v p, sent (loadAccess i va scope op ps s) w (leaving f s)))
    (variable_ : op.variable = true) (elements : op.elements = true)
    (noRelease : ∀ t, (loadAccess i va scope op ps s).releases t = false)
    (unspecified : unspecify op (leaving f s) =
      { leaving f s with team := (leaving f s).team.write w, free := (leaving f s).free + 1 }) :
    OwnRead (leaving f s) (loadAccess i va scope op ps s) w v where
  team := rfl
  slot := rfl
  path := rfl
  acquire := rfl
  fresh := rfl
  noWrite := rfl
  place := scopePlace_ne_lm scope
  variable_ := variable_
  elements := elements
  noRelease := noRelease
  unspecified := unspecified
  quiet := by
    obtain ⟨-, ⟨-, -, -, acquiring, -, done⟩, -, -⟩ := ready
    exact fun b hb => ⟨done b hb, by simpa using List.any_eq_false.1 acquiring b hb⟩
  launch := leaving_launch ready
  spots := spots
  reads := reads

omit ready in
theorem regs_settled (t : Team) (vs : List Access) : regs (settleWrites { t with vars := vs }) = regs t := rfl

omit ready in
/-- R79: the operation has left its slot, its destination is unspecified, and its value waits. -/
theorem OwnRead.waits {va : Double} {scope : Option (BitVec 3)} {op : AccOp} {ps : List Part} {w : Write} {v : Part → Nat}
    (h : OwnRead (leaving f s) (loadAccess i va scope op ps s) w v) :
    ∃ t, sendAccess (loadAccess i va scope op ps s) (leaving f s) = t ∧ t.mem = s.mem ∧ Increments f s t ∧
      RegsWith w s.team t.team ∧
      Awaits s t op (resultsOf op (sortBy (fun x y => decide (x.1 < y.1)) (ps.map fun p => (p.lane, v p)))) := by
  obtain ⟨n, send⟩ := h.send_eq
  refine ⟨_, send, rfl, ⟨?_, ?_⟩, ?_, performed _ _, List.mem_map.2 ⟨loadAccess i va scope op ps s, by simp, if_pos (by simp)⟩, rfl, rfl,
    rfl, rfl, n, List.mem_append_right _ (List.mem_singleton.2 rfl)⟩
  · show vget ((leaving f s).team.write w).pass 3 0 = _
    rw [write_pass]
    exact passed_pass1_same ..
  · show ((leaving f s).team.write w).flight.map _ = _
    rw [write_flight]
    exact List.map_append
  · refine (regs_settled ((leaving f s).team.write w) _).trans ?_
    rw [regs_write, regs_write]
    rfl

omit ready in
/-- The team on its way has its core's LM as it was. -/
theorem granted_sent (a : Access) (w : Write) (k d l o : Nat) : lmGranted (sent a w (leaving f s)) k d l o = lmGranted s k d l o :=
  lmGranted_congr (s := s) (t := sent a w (leaving f s)) rfl (write_ref ..) (write_resident ..) (write_tenant ..) (write_lmg ..) k d l o

omit ready in
theorem performPart_reads {a : Access} {t : State} {p : Part} {bs : List Byte}
    (load : (∃ n ty, a.op = .load n ty) ∨ ∃ n m ty, a.op = .vload n m ty) (read : readPart a p t = (bs, t)) :
    performPart a t p = (leNat bs, t) := by
  rcases load with ⟨n, ty, op⟩ | ⟨n, m, ty, op⟩ <;> simp only [performPart, op, read, partWrites]

omit ready in
/-- A load reads what the LM holds. -/
theorem performPart_load {a : Access} (w : Write) {p : Part} {o : Nat}
    (load : (∃ n ty, a.op = .load n ty) ∨ ∃ n m ty, a.op = .vload n m ty) (tenant : a.tenant = s.team.tenant)
    (spot : spotOf s.hub.package p.ipa = .lm s.team.ref.die s.team.ref.lcore o)
    (granted : lmGranted s s.team.tenant s.team.ref.die s.team.ref.lcore o = true) :
    performPart a (sent a w (leaving f s)) p = (peek (ownByte s) o p.size, sent a w (leaving f s)) := by
  rw [← leNat_lmBytes]
  refine performPart_reads load ?_
  have hub : (sent a w (leaving f s)).hub = s.hub := rfl
  unfold readPart
  rw [hub, spot]
  dsimp only
  rw [tenant, granted_sent, granted, if_pos rfl, lmBytes_congr (s := s) (t := sent a w (leaving f s)) rfl rfl]

omit ready in
theorem granted_own {va : Double} {size off : Nat} (width : size = 1 ∨ size = 2 ∨ size = 4 ∨ size = 8) (own : OwnLm s va size off) :
    lmGranted s s.team.tenant s.team.ref.die s.team.ref.lcore off = true := by
  obtain ⟨-, -, -, granted⟩ := own
  exact granted_of_range (by omega) granted

/-- R79, R228: a load of elements of the own LM leaves its slot, and what they hold waits for its completion. -/
theorem load_waits {width : Nat} {va : Double} {scope : Option (BitVec 3)} {op : AccOp} {es : List (Nat × Double × Double)}
    {off : Nat → Nat} (load : (∃ n ty, op = .load n ty) ∨ ∃ n m ty, op = .vload n m ty)
    (own : ∀ e ∈ es, OwnLm s e.2.1 (bytesOf f.ty) (off e.1)) (ne : es ≠ []) {w : Write}
    (unspecified : unspecify op (leaving f s) =
      { leaving f s with team := (leaving f s).team.write w, free := (leaving f s).free + 1 }) :
    ∃ t, loadEff i f width va scope false false op (es.map (ownPart s (bytesOf f.ty) off)) s = t ∧ t.mem = s.mem ∧
      Increments f s t ∧ RegsWith w s.team t.team ∧
      Awaits s t op (resultsOf op (sortBy (fun x y => decide (x.1 < y.1))
        (es.map fun e => (e.1, peek (ownByte s) (off e.1) (bytesOf f.ty))))) := by
  obtain ⟨-, quiet, room, -⟩ := id ready
  have width := bytesOf_cases f.ty
  have parts : (es.map (ownPart s (bytesOf f.ty) off)).map (fun p => (p.lane, peek (ownByte s) (off p.lane) p.size)) =
      es.map fun e => (e.1, peek (ownByte s) (off e.1) (bytesOf f.ty)) := by
    rw [List.map_map]
    rfl
  rw [loadEff_later room (by simpa using ne), ← parts]
  refine (ownRead_of_ready ready (fun p hp => ⟨_, spot_ownPart quiet width own hp⟩) (fun p hp => ?_) ?_ ?_ (fun t => ?_)
    unspecified).waits
  · refine performPart_load w load rfl (spot_ownPart quiet width own hp) ?_
    obtain ⟨e, he, rfl⟩ := List.mem_map.1 hp
    exact granted_own width (own e he)
  all_goals
    rcases load with ⟨n, ty, rfl⟩ | ⟨n, m, ty, rfl⟩ <;> rfl

end

/-! ## LDSC of a byte that no window covers (R163, R243) -/

theorem findLine_uncached {ls : List Line} {ipa : Nat} (h : ∀ l ∈ ls, l.ipa ≠ lineOf ipa) (k : Nat) : findLine ls k (lineOf ipa) = none := by
  refine List.find?_eq_none.2 fun l hl => ?_
  simp [h l hl]

/-- The line of an LM's byte lies in that LM. -/
theorem lineOf_lmIpa (pkg d l o : Nat) : lineOf (lmIpa pkg d l o) = lmIpa pkg d l (lineOf o) := by
  unfold lineOf lmIpa dieRegion
  omega

theorem lineOf_lt {o : Nat} (h : o < 2 ^ 21) : lineOf o < 2 ^ 21 := by
  unfold lineOf
  omega

section

variable {f : LsForm} {s : State} (ready : LsReady (.ldsc f) f s) {off : Nat} (lt : off < 2 ^ 21)
  (uncached : Uncached s (lmIpa s.hub.package s.team.ref.die s.team.ref.lcore off))
  (uncovered : fwOfLine s.hub (lineOf (lmIpa s.hub.package s.team.ref.die s.team.ref.lcore off)) = none)
include ready lt uncached uncovered

/-- No earlier line holds the start of the byte's block: there is none. -/
theorem ldscParts_uncovered {p : Part} (ipa : p.ipa = lmIpa s.hub.package s.team.ref.die s.team.ref.lcore off) :
    ldscParts s [p] = [p] := by
  obtain ⟨-, ⟨die, core, ⟨num, fore, -, -⟩, -⟩, -, -⟩ := ready
  obtain ⟨l1, l2⟩ := uncached
  have here : s.dieAt s.core.die = s.die := if_pos (num.trans fore.symm)
  rw [here] at l2
  have spot : spotOf s.hub.package (lineOf p.ipa) = .lm s.team.ref.die s.team.ref.lcore (lineOf off) := by
    rw [ipa, lineOf_lmIpa]
    exact spot_lm _ _ _ _ die core (lineOf_lt lt)
  have side : teamSide s s.team (lineOf p.ipa) = none := by
    rw [ipa] at spot ⊢
    have first : findLine s.core.l1d s.team.tenant (lineOf (lmIpa s.hub.package s.team.ref.die s.team.ref.lcore off)) = none :=
      findLine_uncached l1 _
    have second : findLine s.die.l2 s.team.tenant (lineOf (lmIpa s.hub.package s.team.ref.die s.team.ref.lcore off)) = none :=
      findLine_uncached l2 _
    unfold teamSide
    rw [first, second, spot]
    dsimp only [Option.filter]
    rw [sideband, uncovered]
  unfold ldscParts
  dsimp only
  rw [side]
  rfl

omit ready lt uncovered in
theorem ldscValue_uncached : ldscValue s.core s.team.tenant (lmIpa s.hub.package s.team.ref.die s.team.ref.lcore off) = 0 := by
  unfold ldscValue
  dsimp only
  rw [findLine_uncached uncached.1]

end

/-! ## The three forms -/

theorem mem_insertBy {α : Type} (before : α → α → Bool) (x y : α) (l : List α) : y ∈ insertBy before x l ↔ y = x ∨ y ∈ l := by
  induction l with
  | nil => simp [insertBy]
  | cons z l ih =>
    unfold insertBy
    split
    · simp
    · simp only [List.mem_cons, ih]
      tauto

theorem mem_sortBy {α : Type} (before : α → α → Bool) (y : α) (l : List α) : y ∈ sortBy before l ↔ y ∈ l := by
  suffices all : ∀ m : List α, y ∈ l.foldl (fun acc x => insertBy before x acc) m ↔ y ∈ m ∨ y ∈ l from
    (all []).trans (by simp)
  induction l with
  | nil => simp
  | cons x l ih =>
    intro m
    rw [List.foldl_cons, ih, mem_insertBy, List.mem_cons]
    tauto

section

variable {f : LsForm} {s : State}

theorem ldvg_waits {off : Nat → Nat} (ready : LsReady (.ldvg f) f s)
    (own : LanesOwn s (s.team.rm f.maskIdx) (addrIndex f s.team) (bytesOf f.ty) off) :
    ∃ t x, exec (.ldvg f) s = .next t ∧ t.mem = s.mem ∧ Increments f s t ∧
      (∃ u, RegsWith (.v f.data (s.team.rm f.maskIdx) u) s.team t.team) ∧
      Awaits s t (.vload f.data (s.team.rm f.maskIdx) f.ty.toNat) [.v f.data (s.team.rm f.maskIdx) x] ∧
      ∀ l ∈ setLanes (s.team.rm f.maskIdx), vget x l 0 = loadedLane f.ty (peek (ownByte s) (off l) (bytesOf f.ty)) := by
  have elems := vecElems_own (f := f) own
  have ne : vecElems f s.team f.maskIdx (addrIndex f s.team) ≠ [] := fun e => own.1 (List.map_eq_nil_iff.1 e)
  obtain ⟨t, run, mem, inc, regs, waits⟩ := load_waits (width := accWidth f) (va := addrIndex f s.team 0) (scope := none) ready
    (op := .vload f.data (s.team.rm f.maskIdx) f.ty.toNat) (.inr ⟨_, _, _, rfl⟩) elems ne
    (w := .v f.data (s.team.rm f.maskIdx) (freeV (leaving f s).free)) rfl
  refine ⟨t, _, ?_, mem, inc, ⟨_, regs⟩, waits, fun l hl => ?_⟩
  · rw [← run]
    show Host.Outcome.next (vecLoad (.ldvg f) f f.maskIdx (addrIndex f) false s) = _
    unfold vecLoad
    rw [bytesOf_eq, lsOp_own _ ready (bytesOf_cases _) elems]
  · rw [BitVec.ofNat_toNat, BitVec.setWidth_eq]
    refine vget_laneValues (v := fun l => peek (ownByte s) (off l) (bytesOf f.ty)) (fun x hx => ?_) (lt_of_mem_setLanes hl) ?_
    · obtain ⟨e, -, rfl⟩ := List.mem_map.1 ((mem_sortBy ..).1 hx)
      rfl
    · exact ⟨_, (mem_sortBy ..).2 (List.mem_map_of_mem (List.mem_map_of_mem hl)), rfl⟩

theorem lda_waits {off : Nat} (ready : LsReady (.lda f) f s) (acquire : f.low.getLsbD 8 = false)
    (own : OwnLm s (f.ea8 s.team) (bytesOf f.ty) off) :
    ∃ t, exec (.lda f) s = .next t ∧ t.mem = s.mem ∧ Increments f s t ∧ (∃ u, RegsWith (.s f.data u) s.team t.team) ∧
      Awaits s t (.load f.data f.ty.toNat) [.s f.data (loaded f.ty (peek (ownByte s) off (bytesOf f.ty)))] := by
  have elems : ∀ e ∈ [(0, f.ea8 s.team, (0 : Double))], OwnLm s e.2.1 (bytesOf f.ty) off := by simpa using own
  obtain ⟨t, run, mem, inc, regs, waits⟩ := load_waits (width := accWidth f) (va := f.ea8 s.team) (scope := some f.hi3) ready
    (off := fun _ => off) (op := .load f.data f.ty.toNat) (.inl ⟨_, _, rfl⟩) elems (by simp)
    (w := .s f.data (Config.freeDouble (leaving f s).free)) rfl
  refine ⟨t, ?_, mem, inc, ⟨_, regs⟩, ?_⟩
  · rw [← run]
    show Host.Outcome.next (lsOp _ _ _ _ _ _ _) = _
    rw [bytesOf_eq, lsOp_own (off := fun _ => off) _ ready (bytesOf_cases _) elems, acquire]
  · have value : resultsOf (.load f.data f.ty.toNat) [(0, peek (ownByte s) off (bytesOf f.ty))] =
        [.s f.data (loaded f.ty (peek (ownByte s) off (bytesOf f.ty)))] := by
      simp only [resultsOf, List.head?_cons, Option.getD_some, BitVec.ofNat_toNat, BitVec.setWidth_eq, loaded_eq]
    rw [← value]
    exact waits

theorem ldsc_waits {off : Nat} (ready : LsReady (.ldsc f) f s) (own : OwnLm s (s.team.ra f.a + lsOff 12 f 1) 1 off)
    (uncached : Uncached s (lmIpa s.hub.package s.team.ref.die s.team.ref.lcore off))
    (uncovered : fwOfLine s.hub (lineOf (lmIpa s.hub.package s.team.ref.die s.team.ref.lcore off)) = none) :
    ∃ t, exec (.ldsc f) s = .next t ∧ t.mem = s.mem ∧ Increments f s t ∧ (∃ u, RegsWith (.s f.data u) s.team t.team) ∧
      Awaits s t (.ldsc f.data) [.s f.data 0] := by
  obtain ⟨-, quiet, room, -⟩ := id ready
  obtain ⟨-, -, ⟨-, die, core, -⟩, -⟩ := id quiet
  have lt : off < 2 ^ 21 := by
    obtain ⟨-, lt, -, -⟩ := own
    omega
  have elems : ∀ e ∈ [(0, s.team.ra f.a + lsOff 12 f 1, (0 : Double))], OwnLm s e.2.1 1 off := by simpa using own
  have value : ∀ a : Access, a.op = .ldsc f.data → a.die = s.core.die → a.pcore = s.core.pcore → a.tenant = s.team.tenant →
      ∀ p : Part, p.ipa = lmIpa s.hub.package s.team.ref.die s.team.ref.lcore off → ∀ w,
      performPart a (sent a w (leaving f s)) p = (0, sent a w (leaving f s)) := fun a op die core tenant p ipa w => by
    have here : (sent a w (leaving f s)).coreAt a.die a.pcore = s.core := if_pos ⟨die.symm, core.symm⟩
    simp only [performPart, op, here, tenant, ipa, ldscValue_uncached uncached]
  obtain ⟨t, run, mem, inc, regs, waits⟩ := (ownRead_of_ready (va := s.team.ra f.a + lsOff 12 f 1) (scope := none) (op := .ldsc f.data)
    (ps := [ownPart s 1 (fun _ => off) (0, s.team.ra f.a + lsOff 12 f 1, 0)]) (v := fun _ => 0)
    (w := .s f.data (Config.freeDouble (leaving f s).free)) ready
    (fun p hp => ⟨off, spot_ownPart (off := fun _ => off) quiet (.inl rfl) elems (by simpa using hp)⟩)
    (fun p hp => value _ rfl rfl rfl rfl p (by rw [List.mem_singleton.1 hp]; rfl) _) rfl rfl (fun _ => rfl) rfl).waits
  refine ⟨t, ?_, mem, inc, ⟨_, regs⟩, waits⟩
  rw [← run]
  show Host.Outcome.next (lsOp _ _ _ _ _ _ _) = _
  rw [lsOp_own (off := fun _ => off) _ ready (.inl rfl) elems, List.map_singleton,
    ldscParts_uncovered ready lt uncached uncovered rfl, loadEff_later room (by simp)]

end

/-- Settles O11: each form reads the own LM as it leaves its slot, and its value waits for its completion. -/
theorem laterLoadsFromOwnLm : Obligations.LaterLoadsFromOwnLm := by
  unfold Obligations.LaterLoadsFromOwnLm
  refine fun f s => ⟨fun off ready own => ?_, fun off ready acquire own => ?_, fun off ready own ⟨uncached, uncovered⟩ =>
    ldsc_waits ready own uncached uncovered⟩
  · rw [← addrIndex_eq] at own
    exact ldvg_waits ready own
  · rw [← ea8_eq] at own
    exact lda_waits ready acquire own

end Sys2Proof.Laws
end

section
/-! SUPPORT. Results land (R74), barriers complete (R49, R193 to R195) and waits end (R196, R197): O42. -/

namespace Sys2Proof.Laws

open Machine Claims

/-! ## Results land (R74) -/

theorem modTeam_team (s : State) (r : TeamRef) (f : Team → Team) :
    (s.modTeam r f).team = if s.team.ref = r then f s.team else s.team := by
  unfold State.modTeam
  split <;> rfl

/-- Each team of a list of resident slots is changed once, the acting one if it is listed. -/
theorem team_modEach {f : Team → Team} (same : ∀ t, (f t).ref = t.ref) {rs : List TeamRef} (once : rs.Nodup) (s : State) :
    (rs.foldl (fun s r => s.modTeam r f) s).team = if s.team.ref ∈ rs then f s.team else s.team := by
  induction rs generalizing s with
  | nil => rfl
  | cons r rs ih =>
    obtain ⟨fresh, once⟩ := List.nodup_cons.1 once
    rw [List.foldl_cons, ih once, modTeam_team]
    by_cases own : s.team.ref = r
    · rw [if_pos own, same, own, if_neg fresh, if_pos List.mem_cons_self]
    · rw [if_neg own]
      simp only [List.mem_cons, own, false_or]

theorem residents_nodup (s : State) (d p : Nat) : (s.residents d p).Nodup := by
  unfold State.residents
  split
  · exact List.nodup_nil
  · refine (List.Nodup.map (fun a b e => ?_) List.nodup_range).filter _
    injection e

theorem own_mem_residents {s : State} (fg : Foreground s s.team.ref) (resident : s.team.resident = true) (slot : s.team.ref.rslot < 4)
    (mapped : s.die.logical s.core.pcore = some s.team.ref.lcore) : s.team.ref ∈ s.residents s.core.die s.core.pcore := by
  obtain ⟨num, die, -, -⟩ := fg
  have here : s.dieAt s.core.die = s.die := if_pos (num.trans die.symm)
  unfold State.residents
  rw [here, mapped]
  refine List.mem_filter.2 ⟨List.mem_map.2 ⟨s.team.ref.rslot, List.mem_range.2 slot, ?_⟩, ?_⟩
  · rw [die]
  · rw [teamAt_own, resident]

/-- What the landing of results of other agents, and the other work of a cycle, leaves alone. -/
def landed (s : State) : Memory × Team × List Landing := (s.mem, regs s.team, s.team.flight)

theorem sendOn_mem (r : LinkReq) (s : State) : (sendOn r s).mem = s.mem := by
  unfold sendOn
  dsimp only
  split
  · rfl
  · split <;> rfl
  · split <;> rfl
  · split <;> rfl

theorem landed_sendOn (r : LinkReq) (s : State) : landed (sendOn r s) = landed s := by
  unfold landed
  rw [sendOn_mem, books_team (books_sendOn r s)]

theorem retire_ref (c : Core) (d : Domain) (e : Option (Nat × Nat)) (t : Team) : (retire c d e t).ref = t.ref := by
  unfold retire
  split <;> rfl

theorem retire_flight (c : Core) (d : Domain) (e : Option (Nat × Nat)) (t : Team) : (retire c d e t).flight = t.flight := by
  unfold retire
  split <;> rfl

theorem landed_retire (s : State) (r : TeamRef) (c : Core) (d : Domain) (e : Option (Nat × Nat)) :
    landed (s.modTeam r (retire c d e)) = landed s := by
  unfold landed
  rw [modTeam_mem, modTeam_team]
  split
  · rw [regs_retire, retire_flight]
  · rfl

theorem landed_rotationCycle (s : State) : landed (rotationCycle s) = landed s :=
  foldl_keeps landed (fun s (o : RxOp) => landed_retire s o.team _ _ _) _ s

theorem landed_beatCopies (s : State) : landed (beatCopies s) = landed s := by
  unfold beatCopies
  refine foldl_keeps landed (fun s c => ?_) _ _
  dsimp only
  split
  · rfl
  · exact landed_sendOn ..

/-- The part of a cycle that lands results in the registers of the core's teams. -/
def landEach (s : State) : State :=
  (s.residents s.core.die s.core.pcore).foldl (fun u r => u.modTeam r fun t =>
    if t.frozen then t else landTeam s.core (fun d => s.core.starts d s.now) t) s

theorem landed_landCore (s : State) : landed (landCore s) = landed (landEach s) := by
  unfold landCore
  extract_lets c on u v w
  have mx : landed w = landed u := by
    unfold w
    split
    · exact landed_rotationCycle _
    · rfl
  split
  · exact (landed_beatCopies _).trans mx
  · exact mx

theorem landTeam_ref (c : Core) (on : Domain → Bool) (t : Team) : (landTeam c on t).ref = t.ref :=
  foldl_keeps Team.ref (fun _ _ => (retire_ref ..).trans (write_ref ..)) _ _

theorem regs_lands (c : Core) (ls : List Landing) (t u : Team) (h : regs t = regs u) :
    regs (ls.foldl (fun t l => retire c l.domain l.energy (t.write l.write)) t) = regs (ls.foldl (fun u l => u.write l.write) u) := by
  induction ls generalizing t u with
  | nil => exact h
  | cons l ls ih => exact ih _ _ (by rw [regs_retire, regs_write, h, regs_write])

theorem count_due (s : State) (l : Landing) :
    (s.core.starts (Landing.count (fun d => s.core.starts d s.now) l).domain s.now &&
      decide ((Landing.count (fun d => s.core.starts d s.now) l).rem = 0)) = landing s l := by
  unfold Landing.count landing
  by_cases on : s.core.starts l.domain s.now = true
  · simp only [on, if_true, Bool.true_and, decide_eq_decide]
    omega
  · simp [on]

theorem count_write (on : Domain → Bool) (l : Landing) : (Landing.count on l).write = l.write := by
  unfold Landing.count
  split <;> rfl

theorem landTeam_does (s : State) :
    regs (landTeam s.core (fun d => s.core.starts d s.now) s.team) =
        regs ((s.team.flight.filter (landing s)).foldl (fun u l => u.write l.write) s.team) ∧
      (landTeam s.core (fun d => s.core.starts d s.now) s.team).flight = (s.team.flight.filter fun l => !landing s l).map fun l =>
        if s.core.starts l.domain s.now then { l with rem := l.rem - 1 } else l := by
  unfold landTeam
  extract_lets fl due u
  have dues : due = (s.team.flight.filter (landing s)).map (Landing.count fun d => s.core.starts d s.now) := by
    unfold due fl
    rw [List.filter_map]
    exact congrArg _ (List.filter_congr fun l _ => count_due s l)
  constructor
  · rw [regs_lands s.core due u s.team rfl, dues, List.foldl_map]
    simp only [count_write]
  · refine (foldl_keeps Team.flight (fun _ _ => (retire_flight ..).trans (write_flight ..)) due u).trans ?_
    show fl.filter _ = _
    unfold fl
    rw [List.filter_map]
    exact congrArg _ (List.filter_congr fun l _ => congrArg not (count_due s l))

theorem landEach_own {s : State} (mine : s.team.ref ∈ s.residents s.core.die s.core.pcore) (runs : s.team.frozen = false) :
    (landEach s).mem = s.mem ∧ (landEach s).team = landTeam s.core (fun d => s.core.starts d s.now) s.team := by
  refine ⟨foldl_keeps State.mem (fun _ _ => modTeam_mem ..) _ _, ?_⟩
  unfold landEach
  rw [team_modEach (fun t => ?_) (residents_nodup ..), if_pos mine, runs]
  · rfl
  · split
    · rfl
    · exact landTeam_ref ..

/-! ## Barriers complete (R49, R193 to R195) -/

theorem arrive_complete {b : Barrier} (last : b.expected ≤ b.arrived + 1) :
    b.arrive = { expected := b.next.getD b.expected, next := none, phase := b.phase + 1, arrived := 0 } := if_pos last

theorem arrive_partial {b : Barrier} (more : b.arrived + 1 < b.expected) : b.arrive = { b with arrived := b.arrived + 1 } :=
  if_neg (Nat.not_le.2 more)

/-- A cluster with one more arrival at a barrier. -/
def oneArrived (bar : Nat) (c : Cluster) : Cluster := { c with barriers := vput c.barriers bar (c.barrier bar).arrive }

theorem barrier_arrived {bar : Nat} (small : bar < 16) (c : Cluster) : (oneArrived bar c).barrier bar = (c.barrier bar).arrive :=
  vget_vput_same _ _ _ _ small

theorem regs_barReady (now bar phase : Nat) (t : Team) : SameRegs t (Team.barReady now bar phase t) := by
  unfold Team.barReady
  split
  · split <;> rfl
  · rfl

theorem barReady_of_parked {now bar phase p q : Nat} {t : Team} (parked : t.park = .barw bar p q) (passed : p < phase) :
    Team.barReady now bar phase t = { t with park := .none, acqDie := now + 1 } := by
  unfold Team.barReady
  rw [parked]
  exact if_pos ⟨rfl, passed⟩

section

variable {s : State} {c : Cluster} {cluster : Nat} (found : s.hub.clusters.find? (fun c => c.id = cluster) = some c)
include found

theorem find?_arrived (bar : Nat) :
    (modWhere (fun c : Cluster => c.id = cluster) (oneArrived bar) s.hub.clusters).find? (fun c => c.id = cluster) =
      some (oneArrived bar c) := by
  rw [find?_modWhere _ _ (oneArrived bar) fun _ => rfl, found, Option.map_some, if_pos (List.find?_some found)]

theorem arrive_eq (bar : Nat) : arrive cluster bar s =
    ((modCluster cluster (oneArrived bar) s).modTeams (fun t => t.resident && t.cluster = cluster)
      (Team.barReady s.now bar ((oneArrived bar c).barrier bar).phase)).onHub fun h => { h with saved := h.saved.map fun x =>
        if x.team.cluster = cluster then { x with team := Team.barReady s.now bar ((oneArrived bar c).barrier bar).phase x.team }
        else x } := by
  unfold arrive
  extract_lets u
  have e : u.hub.clusters.find? (fun c => c.id = cluster) = some (oneArrived bar c) := find?_arrived found bar
  rw [e]
  rfl

theorem arrive_does {bar : Nat} (small : bar < 16) :
    (arrive cluster bar s).mem = s.mem ∧ SameRegs s.team (arrive cluster bar s).team ∧
      (arrive cluster bar s).hub.clusters.find? (fun c => c.id = cluster) = some (oneArrived bar c) ∧
      ∀ p q, s.team.resident = true → s.team.cluster = cluster → s.team.park = .barw bar p q → p < (c.barrier bar).arrive.phase →
        (arrive cluster bar s).team.park = .none ∧ (arrive cluster bar s).team.acqDie = s.now + 1 := by
  rw [arrive_eq found]
  have same := sameRegs_modTeams (s := modCluster cluster (oneArrived bar) s) (fun t => t.resident && t.cluster = cluster)
    (regs_barReady s.now bar ((oneArrived bar c).barrier bar).phase)
  refine ⟨rfl, same, find?_arrived found bar,
    fun p q resident mine parked passed => ?_⟩
  have ready := barReady_of_parked (now := s.now) (phase := ((oneArrived bar c).barrier bar).phase) parked
    (by rwa [barrier_arrived small])
  have mineToo : (s.team.resident && decide (s.team.cluster = cluster)) = true := by simp [resident, mine]
  have team : ∀ f : Team → Team, ((modCluster cluster (oneArrived bar) s).modTeams
      (fun t => t.resident && t.cluster = cluster) f).team = f s.team := fun f => if_pos mineToo
  constructor
  · exact (congrArg Team.park ((team _).trans ready))
  · exact (congrArg Team.acqDie ((team _).trans ready))

end

/-! ## Waits end (R196, R197) -/

theorem wx_bit (x : Double) (wx k : Nat) (lt : k < 64) :
    (setField x 8 8 wx).getLsbD k = if k = 8 then wx.testBit 0 else x.getLsbD k := by
  rw [setField_bit _ _ _ _ _ lt (Nat.le_refl 8)]
  by_cases e : k = 8
  · rw [if_pos (by omega), if_pos e, e]
  · rw [if_neg (by omega), if_neg e]

/-- TSW.wx alone changes as a wait ends. -/
theorem endWait_ends {s t : State} {wx : Nat} (small : wx < 2) (h : t.team = s.team.endWait wx) : WaitEnds s t wx := by
  have bit : (setField s.team.tsw 8 8 wx).extractLsb' 8 1 = BitVec.ofBool (wx.testBit 0) := by
    refine BitVec.eq_of_getLsbD_eq fun i hi => ?_
    obtain rfl : i = 0 := by omega
    rw [BitVec.getLsbD_extractLsb', wx_bit _ _ _ (by omega), BitVec.getLsbD_ofBool]
    rfl
  have others : setField s.team.tsw 8 8 wx ||| 0x100 = s.team.tsw ||| 0x100 := by
    refine BitVec.eq_of_getLsbD_eq fun i hi => ?_
    rw [BitVec.getLsbD_or, BitVec.getLsbD_or, wx_bit _ _ _ hi]
    by_cases e : i = 8
    · subst e
      have : (0x100 : Double).getLsbD 8 = true := by decide
      rw [this, Bool.or_true, Bool.or_true]
    · rw [if_neg e]
  unfold WaitEnds
  rw [h]
  refine ⟨rfl, (congrArg BitVec.toNat bit).trans ?_, rfl, others⟩
  obtain rfl | rfl : wx = 0 ∨ wx = 1 := by omega
  · rfl
  · rfl

theorem waiter_leaves (w : Waiter) {ks : List WaitKey} : ∀ k ∈ keysWithout w ks, w ∉ k.waiters := by
  intro k hk
  obtain ⟨hk, -⟩ := List.mem_filter.1 hk
  obtain ⟨k, -, rfl⟩ := List.mem_map.1 hk
  simp

theorem removeWaiter_mem (w : Waiter) (s : State) : (removeWaiter w s).mem = s.mem :=
  foldl_keeps State.mem (fun s _ => sendOn_mem _ s) _ _

/-- Settles O42: the results of the acting team land with those of its core's other teams, and the barriers and the waits are what
their events name. -/
theorem landingsArrivalsAndTimeouts : Obligations.LandingsArrivalsAndTimeouts := by
  unfold Obligations.LandingsArrivalsAndTimeouts
  refine ⟨fun s fg resident runs slot mapped => ?_, fun s c found small => ?_, fun s ev pos limit n fg parked => ?_,
    fun s va pkg limit n fg parked => ?_⟩
  · obtain ⟨mem, team⟩ := landEach_own (own_mem_residents fg resident slot mapped) runs
    obtain ⟨regsTo, flightTo⟩ := landTeam_does s
    have all := landed_landCore s
    unfold landed at all
    rw [mem, team, Prod.mk.injEq, Prod.mk.injEq] at all
    obtain ⟨mem, written, flight⟩ := all
    exact ⟨landCore s, rfl, mem, written.trans regsTo, flight.trans flightTo⟩
  · obtain ⟨mem, same, found', goes⟩ := arrive_does found small
    have id : c.id = (s.teamAt s.occ.team).cluster := by simpa using List.find?_some found
    refine ⟨arrive (s.teamAt s.occ.team).cluster s.occ.aux s, oneArrived s.occ.aux c, rfl, mem, same, found', ?_⟩
    intro b
    rw [barrier_arrived small]
    refine ⟨arrive_partial, fun last => ⟨arrive_complete last, fun p q resident mine parked passed => ?_⟩⟩
    refine goes p q resident (mine.trans id) parked ?_
    rw [arrive_complete last]
    exact Nat.lt_succ_of_le passed
  · refine ⟨s.onTeam (Team.endWait (if waitHolds s s.team ev pos then 0 else 1)), ?_, endWait_ends ?_ rfl, rfl⟩
    · show Host.Outcome.next _ = _
      rw [focus_of_foreground fg]
      simp only [parked]
    · split <;> omega
  · have books := books_removeWaiter (.team s.team.ref s.team.cluster) s
    have team : (removeWaiter (.team s.team.ref s.team.cluster) s).team = s.team :=
      (books_team books).trans rfl
    refine ⟨(removeWaiter (.team s.team.ref s.team.cluster) s).onTeam (Team.endWait 1), ?_, endWait_ends (by omega) ?_,
      removeWaiter_mem .., ?_⟩
    · show Host.Outcome.next _ = _
      rw [focus_of_foreground fg]
      simp only [parked]
    · exact congrArg (Team.endWait 1) team
    · show ∀ k ∈ (removeWaiter (.team s.team.ref s.team.cluster) s).hub.waits, _
      rw [books_waits books]
      exact waiter_leaves _

end Sys2Proof.Laws
end

section
/-! SUPPORT. What the home, the directory and the caches leave alone: the sensors, the cores and the remap tables (R451, R355, R364). -/

namespace Sys2Proof.Laws

open Machine Claims

/-! ## A die, wherever it is held -/

theorem dieAt_num (s : State) (d : Nat) : (s.dieAt d).num = d := by
  unfold State.dieAt
  split
  · assumption
  · cases e : s.dies.find? fun x => x.num = d with
    | none => rfl
    | some x => simpa using List.find?_some e

theorem dieAt_modDie (s : State) (d : Nat) {f : Die → Die} (h : ∀ x, (f x).num = x.num) (x : Nat) :
    (s.modDie d f).dieAt x = if x = d then f (s.dieAt d) else s.dieAt x := by
  by_cases own : s.die.num = d
  · have front : s.dieAt d = s.die := if_pos own
    rw [front]
    unfold State.modDie
    rw [if_pos own]
    unfold State.dieAt
    simp only [h, own]
    by_cases e : x = d
    · simp [e]
    · simp [e, Ne.symm e]
  · have num := dieAt_num s d
    unfold State.modDie
    rw [if_neg own]
    generalize s.dieAt d = y at num ⊢
    have moved := (h y).trans num
    unfold State.dieAt
    by_cases e : x = d
    · simp [e, own, moved]
    · have away : (s.dies.filter fun y => y.num ≠ d).find? (fun y => y.num = x) = s.dies.find? fun y => y.num = x := by
        rw [List.find?_filter]
        congr 1
        funext y
        by_cases z : y.num = x <;> simp [z, e]
      rw [if_neg e]
      dsimp only
      rw [List.find?_cons_of_neg (by simp [moved, Ne.symm e]), away]

/-! ## The view -/

/-- The sensors' readings and trips (R451, R452). -/
def hubHeat (h : Hub) : SMap Double × List Nat := (h.tsens, h.disarmed)
@[inherit_doc hubHeat] def heat (s : State) : SMap Double × List Nat := hubHeat s.hub

/-- The sensors, the cores, and the remap tables of the dies. -/
def calm (s : State) : (SMap Double × List Nat) × Core × List Core × (Nat → Vector (Option Nat) 64) :=
  (heat s, s.core, s.cores, fun d => (s.dieAt d).remap)

theorem heat_of_calm {s t : State} (h : calm s = calm t) : heat s = heat t := congrArg Prod.fst h

theorem calm_onHub (s : State) (f : Hub → Hub) (h : hubHeat (f s.hub) = hubHeat s.hub) : calm (s.onHub f) = calm s := by
  unfold calm heat
  rw [onHub_hub, h]
  rfl

theorem calm_after (s : State) (n : Nat) (i : Instr) (o : Occ) : calm (s.after n i o) = calm s := rfl

theorem calm_modDie (s : State) (d : Nat) {f : Die → Die} (num : ∀ x, (f x).num = x.num) (remap : ∀ x, (f x).remap = x.remap) :
    calm (s.modDie d f) = calm s := by
  have tables : (fun x => ((s.modDie d f).dieAt x).remap) = fun x => (s.dieAt x).remap := by
    funext x
    rw [dieAt_modDie s d num]
    split
    · next e => rw [remap, e]
    · rfl
  unfold calm heat
  rw [tables, modDie_hub, modDie_core, modDie_cores]

/-! ## The home and the directory -/

theorem calm_errorRecord (src : Double) (addr : Nat) (detail pkt : Double) (outcome : Nat) (s : State) :
    calm (errorRecord src addr detail pkt outcome s) = calm s := by
  unfold errorRecord State.onHub
  dsimp only
  split <;> rfl

theorem calm_record (t : Option Nat) (o u k i c : Nat) (d p : Double) (s : State) : calm (record t o u k i c d p s) = calm s :=
  calm_errorRecord ..

/-- Scale bytes reach the hub cache alone (R164). -/
theorem hubHeat_scaleStore (a : Nat) (e : Byte) (h : Hub) : hubHeat (scaleStore a e h) = hubHeat h := by
  unfold scaleStore
  refine foldl_keeps hubHeat (fun h j => ?_) _ h
  dsimp only
  split
  · split <;> rfl
  · rfl

theorem calm_homePut (line pa : Nat) (bs : List (Option Byte)) (s : State) : calm (homePut line pa bs s) = calm s := by
  unfold homePut
  extract_lets u v
  have cleared : calm u = calm s := by
    unfold u
    split <;> rfl
  have stored : calm v = calm u := by
    unfold v
    split
    · rfl
    · split <;> rfl
  refine (calm_onHub v _ (foldl_keeps hubHeat (fun h x => ?_) _ _)).trans (stored.trans cleared)
  split
  · exact hubHeat_scaleStore ..
  · rfl

/-- A die's L2 put alone. -/
theorem calm_putL2 (s : State) (d : Nat) (f : Die → List Line) : calm (s.modDie d fun x => { x with l2 := f x }) = calm s :=
  calm_modDie s d (fun _ => rfl) fun _ => rfl

theorem calm_snoopDie (pa line : Nat) (inval : Bool) (s : State) (x : Nat) : calm (snoopDie pa line inval s x) = calm s := by
  unfold snoopDie
  refine foldl_keeps calm (fun s l => ?_) _ s
  dsimp only
  split
  · rfl
  · rw [calm_putL2]
    split
    · exact calm_homePut ..
    · rfl

theorem calm_flushRange (base size : Nat) (inval : Bool) (dies : List Nat) (s : State) :
    calm (flushRange base size inval dies s) = calm s := by
  unfold flushRange
  refine foldl_keeps calm (fun s x => foldl_keeps calm (fun s l => ?_) _ s) _ s
  split
  · exact calm_snoopDie ..
  · rfl

theorem calm_reclaimRange (s : State) : calm (reclaimRange s) = calm s := by
  unfold reclaimRange
  split
  · rfl
  · extract_lets mine n u v
    have flushed : calm v = calm s := (calm_onHub _ _ rfl).trans (calm_flushRange ..)
    split
    · exact (calm_onHub v _ rfl).trans flushed
    · exact (calm_record ..).trans ((calm_onHub _ _ rfl).trans flushed)

theorem calm_renewRegion (old new : Region) (s : State) : calm (renewRegion old new s) = calm s := by
  unfold renewRegion
  dsimp only
  split
  · rfl
  · split <;> rfl

theorem calm_touchRegion (agent : Option Nat) (line : Nat) (wr : Bool) (s : State) : calm (touchRegion agent line wr s) = calm s := by
  unfold touchRegion
  extract_lets u cm q
  have reclaimed : calm u = calm s := by
    unfold u
    split
    · exact calm_reclaimRange s
    · rfl
  refine Eq.trans ?_ reclaimed
  split
  · split
    · split
      · exact calm_renewRegion ..
      · rfl
    · exact calm_renewRegion ..
    · rfl
  · exact (calm_after ..).trans ((calm_onHub _ _ rfl).trans (calm_flushRange ..))

theorem calm_snoop (agent : Option Nat) (pa line : Nat) (wr : Bool) (s : State) : calm (snoop agent pa line wr s) = calm s :=
  (foldl_keeps calm (calm_snoopDie pa line wr) _ _).trans (calm_touchRegion ..)

theorem calm_learnLeaf (loc : Nat) (s : State) : calm (learnLeaf loc s) = calm s := by
  unfold learnLeaf
  split
  · split <;> rfl
  · rfl

theorem calm_homeWrite (agent : Option Nat) (tenant line : Nat) (bs : List (Option Byte)) (dir : Bool) (s : State) :
    calm (homeWrite agent tenant line bs dir s).2 = calm s := by
  unfold homeWrite
  split
  · split
    · split
      · rfl
      · refine (calm_homePut ..).trans ?_
        split
        · exact (calm_snoop ..).trans (calm_learnLeaf ..)
        · exact calm_learnLeaf ..
    · rfl
  · split <;> rfl
  · rfl

/-! ## Lines leave a die's caches with no team to count the writes -/

theorem calm_ownLine (d line : Nat) (s : State) : calm (ownLine d line s) = calm s := by
  unfold ownLine
  split
  · split
    · split
      · exact calm_snoop ..
      · rfl
    · rfl
  · rfl

theorem calm_evictL2 (d : Nat) (l : Line) (s : State) : calm (evictL2 none d l s) = calm s := by
  have written := calm_homeWrite (some d) l.tenant l.ipa l.dirtyBytes (dieTracked s d) s
  unfold evictL2
  dsimp only
  split
  · exact calm_putL2 ..
  · split
    · next e => exact (calm_putL2 ..).trans ((congrArg (fun p => calm p.2) e).symm.trans written)
    · next e => exact (congrArg (fun p => calm p.2) e).symm.trans written

theorem calm_shrinkSlice (d line k : Nat) (s : State) : calm (shrinkSlice none d line k s) = calm s := by
  induction k generalizing s with
  | zero => rfl
  | succ k ih =>
    unfold shrinkSlice
    dsimp only
    split
    · rfl
    · split
      · rfl
      · exact (ih _).trans (calm_evictL2 ..)

theorem calm_writeBackL1 (d : Nat) (l : Line) (s : State) : calm (writeBackL1 none d l s) = calm s := by
  unfold writeBackL1
  split
  · exact (calm_shrinkSlice ..).trans ((calm_putL2 ..).trans (calm_ownLine ..))
  · rfl

end Sys2Proof.Laws
end

section
/-! SUPPORT. What messages, kills and the hub's own accesses leave alone: the sensors (R451, R490). -/

namespace Sys2Proof.Laws

open Machine Claims

theorem heat_of_hub {s t : State} (h : s.hub = t.hub) : heat s = heat t := congrArg hubHeat h

theorem heat_snd {α : Type} {p : α × State} {a : α} {s t : State} (h : heat p.2 = heat s) (e : p = (a, t)) : heat t = heat s := by
  rwa [e] at h

theorem heat_onHub (s : State) (f : Hub → Hub) (h : ∀ x, hubHeat (f x) = hubHeat x) : heat (s.onHub f) = heat s := h s.hub

theorem heat_modCore (s : State) (d p : Nat) (f : Core → Core) : heat (s.modCore d p f) = heat s := heat_of_hub (modCore_hub ..)
theorem heat_modDie (s : State) (d : Nat) (f : Die → Die) : heat (s.modDie d f) = heat s := heat_of_hub (modDie_hub ..)

theorem heat_errorRecord (src : Double) (addr : Nat) (detail pkt : Double) (outcome : Nat) (s : State) :
    heat (errorRecord src addr detail pkt outcome s) = heat s := heat_of_calm (calm_errorRecord ..)

theorem heat_record (t : Option Nat) (o u k i c : Nat) (d p : Double) (s : State) : heat (record t o u k i c d p s) = heat s :=
  heat_errorRecord ..

theorem heat_homeWrite (agent : Option Nat) (tenant line : Nat) (bs : List (Option Byte)) (dir : Bool) (s : State) :
    heat (homeWrite agent tenant line bs dir s).2 = heat s := heat_of_calm (calm_homeWrite ..)

theorem heat_cleanL1 (d p tenant line : Nat) (s : State) : heat (cleanL1 none d p tenant line s) = heat s := by
  unfold cleanL1
  split
  · exact (heat_modCore ..).trans (heat_of_calm (calm_writeBackL1 ..))
  · rfl

theorem heat_flushL1 (d p : Nat) (keep : Line → Bool) (s : State) : heat (flushL1 none d p keep s) = heat s :=
  foldl_keeps heat (fun s (l : Line) => heat_cleanL1 d p l.tenant l.ipa s) _ s

/-! ## Messages and waits -/

theorem heat_sendOn (r : LinkReq) (s : State) : heat (sendOn r s) = heat s := by
  unfold sendOn
  dsimp only
  split
  · rfl
  · split <;> rfl
  · split <;> rfl
  · split <;> rfl

theorem heat_toPackage (tenant pkg va : Nat) (s : State) : heat (toPackage tenant pkg va s) = heat s := heat_sendOn ..

theorem heat_removeWaiter (w : Waiter) (s : State) : heat (removeWaiter w s) = heat s :=
  foldl_keeps heat (fun s (a : Abroad) => heat_toPackage a.tenant a.pkg a.va s) _ _

theorem heat_dropTeam (r : TeamRef) (s : State) : heat (dropTeam r s) = heat s := by
  rw [dropTeam_eq]
  exact (heat_removeWaiter ..).trans (heat_of_hub (vacated_hub ..))

/-! ## The hub's own accesses to memory -/

theorem heat_snoop (agent : Option Nat) (pa line : Nat) (wr : Bool) (s : State) : heat (snoop agent pa line wr s) = heat s :=
  heat_of_calm (calm_snoop ..)

theorem heat_exponentAt (ipa : Nat) (s : State) : heat (exponentAt ipa s).2 = heat s := by
  unfold exponentAt
  split
  · split
    · dsimp only
      split <;> exact heat_snoop ..
    · rfl
  · split <;> rfl
  all_goals rfl

theorem heat_scaleRecord (j ipa : Nat) (s : State) : heat (scaleRecord j ipa s) = heat s := by
  unfold scaleRecord
  split
  · rfl
  · exact heat_errorRecord ..

theorem heat_exponentsOf (j line : Nat) (is : List Nat) (s : State) : heat (exponentsOf j line is s).2 = heat s := by
  induction is generalizing s with
  | nil => rfl
  | cons i is ih =>
    unfold exponentsOf
    dsimp only
    refine (ih _).trans ?_
    split
    · exact heat_exponentAt ..
    · exact (heat_scaleRecord ..).trans (heat_exponentAt ..)

theorem heat_sideband (line : Nat) (s : State) : heat (sideband line s).2 = heat s := by
  unfold sideband
  split
  · rfl
  · exact heat_exponentsOf ..

theorem heat_hubFill (line pa : Nat) (s : State) : heat (hubFill line pa s).2 = heat s := by
  unfold hubFill
  dsimp only
  split
  · split
    · rfl
    · exact heat_sideband line s
  · exact heat_sideband line s

theorem heat_hubCheck (tenant ipa : Nat) (k : AccKind) (s : State) : heat (hubCheck tenant ipa k s).2 = heat s := by
  unfold hubCheck
  split <;> rfl

theorem heat_hubLineRead (tenant line : Nat) (s : State) : heat (hubLineRead tenant line s).2 = heat s := by
  have check := heat_hubCheck tenant line .read s
  unfold hubLineRead
  split
  · split
    · next e => exact heat_snd check e
    · next e =>
      split
      · exact heat_snd check e
      · exact (heat_hubFill ..).trans ((heat_snoop ..).trans ((heat_of_calm (calm_learnLeaf ..)).trans (heat_snd check e)))
  · exact check
  · rfl
  · split <;> rfl
  · rfl

theorem heat_hubLineWrite (tenant line : Nat) (bs : List (Option Byte)) (s : State) : heat (hubLineWrite tenant line bs s) = heat s := by
  have check := heat_hubCheck tenant line .write s
  unfold hubLineWrite
  split
  · split
    · next e => exact heat_snd check e
    · next e =>
      split
      · exact heat_snd check e
      · exact (heat_of_calm ((calm_homePut ..).trans ((calm_snoop ..).trans (calm_learnLeaf ..)))).trans (heat_snd check e)
  · split
    · next e => exact heat_snd check e
    · next u e => exact (heat_of_hub (t := u) rfl).trans (heat_snd check e)
  · split <;> rfl
  · split <;> rfl
  · rfl

theorem heat_ipaLoad (tenant ipa : Nat) (s : State) : heat (ipaLoad tenant ipa s).2 = heat s := by
  unfold ipaLoad
  dsimp only
  split
  · exact heat_hubLineRead ..
  · exact (heat_hubLineRead ..).trans (heat_hubLineRead ..)

theorem heat_ipaStore (tenant ipa : Nat) (x : Double) (s : State) : heat (ipaStore tenant ipa x s) = heat s := heat_hubLineWrite ..

theorem heat_hubStore (tenant va : Nat) (x : Double) (s : State) : heat (hubStore tenant va x s) = heat s := by
  unfold hubStore
  split
  · exact heat_ipaStore ..
  · rfl

theorem heat_descRead (q : Queue) (off : Nat) (s : State) : heat (descRead q off s).2 = heat s := heat_ipaLoad ..

theorem heat_hubLoad (tenant va : Nat) (s : State) : heat (hubLoad tenant va s).2 = heat s := by
  unfold hubLoad
  split
  · exact heat_ipaLoad ..
  · rfl

theorem heat_hubDoubles (tenant va n : Nat) (s : State) : heat (hubDoubles tenant va n s).2 = heat s := by
  induction n generalizing va s with
  | zero => rfl
  | succ n ih =>
    have load := heat_hubLoad tenant va s
    unfold hubDoubles
    split
    · next e => exact heat_snd load e
    · next u e =>
      have rest := (ih (va + 8) u).trans (heat_snd load e)
      split
      · next e => exact heat_snd rest e
      · next e => exact heat_snd rest e

/-! ## The kill of a tenant context (R490), step by step -/

theorem heat_startEbb (on : Core → Bool) (s : State) : heat (startEbb on s) = heat s := by
  unfold startEbb
  split
  · rfl
  · exact heat_record ..

theorem heat_killCore (tenant : Nat) (s : State) (c : Core) : heat (killCore tenant s c) = heat s :=
  (heat_modCore ..).trans (heat_flushL1 ..)

theorem heat_killLine (d : Nat) (s : State) (l : Line) : heat (killLine d s l) = heat s := by
  unfold killLine
  rw [heat_modDie]
  split
  · exact heat_homeWrite ..
  · rfl

theorem heat_dropRequests (keep : LinkReq → Bool) (s : State) : heat (dropRequests keep s) = heat s := rfl

theorem heat_killAccesses (tenant : Nat) (s : State) : heat (killAccesses tenant s) = heat s := by
  unfold killAccesses
  extract_lets u v w
  have cores : heat v = heat u := foldl_keeps heat (heat_killCore tenant) _ u
  have lines : heat w = heat v := foldl_keeps heat (fun s d => foldl_keeps heat (heat_killLine d) _ s) _ v
  rw [heat_dropRequests, heat_onHub]
  · exact lines.trans cores
  · exact fun _ => rfl

theorem heat_zeroGrant (r : TeamRef) (s : State) : heat (zeroGrant r s) = heat s := by
  unfold zeroGrant
  dsimp only
  split
  · exact heat_modCore ..
  · rfl

theorem heat_zeroAreas (areas : List Nat) (s : State) : heat (zeroAreas areas s) = heat s := rfl

theorem heat_killTeams (tenant : Nat) (s : State) : heat (killTeams tenant s) = heat s := by
  unfold killTeams
  rw [heat_onHub, heat_zeroAreas]
  · exact foldl_keeps heat (fun s r => (heat_dropTeam r _).trans (heat_zeroGrant r s)) _ s
  · exact fun _ => rfl

theorem heat_endCluster (id : Nat) (s : State) : heat (endCluster id s) = heat s := by
  unfold endCluster
  split
  · rfl
  · rw [heat_modDie]
    rw [heat_onHub]
    · split
      · exact foldl_keeps heat (fun s r => heat_removeWaiter _ s) _ s
      · exact foldl_keeps heat (fun s r => heat_dropTeam r s) _ s
    · exact fun _ => rfl

theorem heat_forgetLaunch (l : Launch) (s : State) : heat (forgetLaunch l s) = heat s := by
  unfold forgetLaunch
  rw [heat_onHub]
  · exact foldl_keeps heat (fun s id => heat_endCluster id s) _ s
  · exact fun _ => rfl

theorem heat_writeReport (qid status k tag : Nat) (s : State) : heat (writeReport qid status k tag s) = heat s := by
  unfold writeReport
  split
  · rfl
  · dsimp only
    rw [heat_onHub]
    · rw [heat_ipaStore, heat_hubStore, heat_hubStore, heat_descRead, heat_descRead]
    · exact fun _ => rfl

theorem heat_killPackets (tenant : Nat) (s : State) : heat (killPackets tenant s) = heat s := by
  unfold killPackets
  refine foldl_keeps heat (fun s l => ?_) _ s
  rw [heat_forgetLaunch]
  split
  · rfl
  · exact heat_writeReport ..

theorem heat_wakeHost (j : Nat) (s : State) : heat (wakeHost j s) = heat s := rfl

theorem heat_killWaits (tenant : Nat) (s : State) : heat (killWaits tenant s) = heat s := by
  unfold killWaits
  extract_lets ks away js u v
  have left : heat v = heat u := foldl_keeps heat (fun s (a : Abroad) => heat_toPackage tenant a.pkg a.va s) _ u
  exact (foldl_keeps heat (fun s j => heat_wakeHost j s) js v).trans left

theorem heat_killQueues (tenant : Nat) (s : State) : heat (killQueues tenant s) = heat s := rfl

theorem heat_endContext (tenant : Nat) (s : State) : heat (endContext tenant s) = heat s := by
  unfold endContext
  rw [heat_onHub]
  · rw [heat_killPackets, heat_killWaits, heat_killAccesses, heat_killTeams, heat_killQueues, heat_startEbb]
  · exact fun _ => rfl

theorem heat_killPacket (tenant : Nat) (src : Double) (addr : Nat) (detail pkt : Double) (s : State) :
    heat (killPacket tenant src addr detail pkt s) = heat s := (heat_errorRecord ..).trans (heat_endContext ..)

end Sys2Proof.Laws
end

section
/-! SUPPORT. What the hub's order of work leaves alone: the sensors (R398 to R402, R451, R552). -/

namespace Sys2Proof.Laws

open Machine Claims

/-! ## Queues -/

theorem heat_onQueue (qid : Nat) (f : Queue → Queue) (s : State) : heat (onQueue qid f s) = heat s := rfl
theorem heat_after (s : State) (n : Nat) (i : Instr) (o : Occ) : heat (s.after n i o) = heat s := rfl
theorem heat_next (s : State) (i : Instr) (o : Occ) : heat (s.next i o) = heat s := rfl
theorem heat_first (ts : List Turn) (s : State) : heat (first ts s) = heat s := rfl
theorem heat_modTeams (s : State) (p : Team → Bool) (f : Team → Team) : heat (s.modTeams p f) = heat s := rfl

theorem heat_bindQueue (qid : Nat) (s : State) : heat (bindQueue qid s) = heat s := by
  unfold bindQueue
  split
  · rfl
  · split
    · rfl
    · dsimp only
      split
      · rfl
      · split
        · split <;> rfl
        · rfl

theorem heat_raiseFault (tenant page kind : Nat) (i : Instr) (o : Occ) (s : State) :
    heat (raiseFault tenant page kind i o s) = heat s := by
  unfold raiseFault
  split
  · rfl
  · split <;> rfl

theorem heat_stopped (tenant ipa : Nat) (k : AccKind) (v : Verdict) (i : Instr) (o : Occ) (s : State) :
    heat (stopped tenant ipa k v i o s) = heat s := by
  unfold stopped
  split
  · rfl
  · split
    · split
      · rfl
      · exact heat_modDie ..
    · rfl
  · exact heat_raiseFault ..
  · exact heat_killPacket ..

theorem heat_waitQueue (qid : Nat) (w : HubWait) (s : State) : heat (waitQueue qid w s) = heat s := heat_stopped ..

theorem heat_forQueue {α : Type} (qid : Nat) (x : α) {eff : State → α × State} (h : ∀ s, heat (eff s).2 = heat s) (s : State) :
    heat (forQueue qid x eff s).2 = heat s := by
  unfold forQueue
  split
  · rfl
  · dsimp only
    split
    · exact h s
    · exact heat_waitQueue ..

/-! ## The packet at head is judged (R399) -/

theorem heat_foldAfter (ask : List Nat) (qid : Nat) (s : State) :
    heat (ask.foldl (fun s x => s.after 240000000 .workingSetTimeout { id := qid, aux := x }) s) = heat s :=
  foldl_keeps heat (fun s x => heat_after s 240000000 .workingSetTimeout { id := qid, aux := x }) ask s

theorem heat_readWorkingSet (q : Queue) (p : HeadPacket) (s : State) : heat (readWorkingSet q p s) = heat s := by
  unfold readWorkingSet
  split
  · rfl
  · extract_lets set n ws
    have put : ∀ ask pin bad u, heat (set ask pin bad u) = heat u := fun _ _ _ _ => rfl
    have read := heat_hubDoubles q.tenant ws (2 * n) s
    split
    · rfl
    · split
      · next e => exact (put ..).trans (heat_snd read e)
      · next e =>
        split
        · exact (put ..).trans (heat_snd read e)
        · exact (heat_foldAfter ..).trans ((put ..).trans (heat_snd read e))

theorem heat_heldSignals (tenant : Nat) (vas : List Nat) (s : State) : heat (heldSignals tenant vas s).2 = heat s := by
  induction vas generalizing s with
  | nil => rfl
  | cons va vas ih =>
    unfold heldSignals
    exact (ih _).trans (heat_hubLoad ..)

theorem heat_reportRoom (q : Queue) (s : State) : heat (reportRoom q s).2 = heat s := (heat_descRead ..).trans (heat_descRead ..)

theorem heat_readSections (tenant va n : Nat) (s : State) : heat (readSections tenant va n s).2 = heat s := by
  induction n generalizing va s with
  | zero => rfl
  | succ n ih =>
    have entry := heat_hubDoubles tenant va 3 s
    unfold readSections
    split
    · next u e =>
      have rest := (ih (va + 32) u).trans (heat_snd entry e)
      dsimp only
      split
      · next e => exact heat_snd rest e
      · next e => exact heat_snd rest e
    · next e => exact heat_snd entry e

theorem heat_readKernel (tenant : Nat) (code : Double) (s : State) : heat (readKernel tenant code s).2 = heat s := by
  unfold readKernel
  extract_lets base kernel
  have header := heat_hubDoubles tenant base 4 s
  split
  · next e => exact heat_snd header e
  · next u e =>
    have header := heat_snd header e
    dsimp only
    split
    · exact header
    · split
      · next e => exact (heat_snd (heat_hubDoubles ..) e).trans header
      · next e =>
        have entry := (heat_snd (heat_hubDoubles ..) e).trans header
        split
        · next e => exact (heat_snd (heat_readSections ..) e).trans entry
        · next e => exact (heat_snd (heat_readSections ..) e).trans entry

theorem heat_judgeRest (q : Queue) (p : HeadPacket) (preds : List Nat) (s : State) : heat (judgeRest q p preds s).2 = heat s := by
  have room : heat (if p.node.isSome then (true, s) else reportRoom q s).2 = heat s := by
    split
    · rfl
    · exact heat_reportRoom ..
  unfold judgeRest
  generalize (if p.node.isSome then (true, s) else reportRoom q s) = r at room ⊢
  dsimp only
  split
  · exact room
  · split
    · exact room
    · split
      · exact room
      · split
        · next e => exact (heat_snd (heat_readKernel ..) e).trans room
        · next e =>
          have kernel := (heat_snd (heat_readKernel ..) e).trans room
          split
          · exact kernel
          · split
            · exact kernel
            · split <;> exact kernel

theorem heat_judge (q : Queue) (p : HeadPacket) (s : State) : heat (judge q p s).2 = heat s := by
  unfold judge
  dsimp only
  have all : ∀ q' preds sigs, heat (judgeRest q' p preds (heldSignals q'.tenant sigs (readWorkingSet q p s)).2).2 = heat s :=
    fun q' preds sigs => (heat_judgeRest ..).trans ((heat_heldSignals ..).trans (heat_readWorkingSet ..))
  split <;> exact all ..

theorem heat_headPacket (q : Queue) (s : State) : heat (headPacket q s).2 = heat s := by
  unfold headPacket
  dsimp only
  have read : ∀ u, heat u = heat s → ∀ va, heat (hubDoubles q.tenant va 16 u).2 = heat s := fun u h va => (heat_hubDoubles ..).trans h
  have desc : heat (descRead q 16 (descRead q 8 (descRead q 0 s).2).2).2 = heat s :=
    (heat_descRead ..).trans ((heat_descRead ..).trans (heat_descRead ..))
  split
  · next e => exact heat_snd (read _ desc _) e
  · next e =>
    split <;> exact heat_snd (read _ desc _) e

theorem heat_judgeNodes (q : Queue) (r : Replay) (is : List Nat) (s : State) : heat (judgeNodes q r is s).2 = heat s := by
  induction is generalizing s with
  | nil => rfl
  | cons i is ih =>
    unfold judgeNodes
    dsimp only
    split
    · exact heat_judge ..
    · exact (ih _).trans (heat_judge ..)

theorem heat_evaluate (q : Queue) (s : State) : heat (evaluate q s).2 = heat s := by
  unfold evaluate
  split
  · split
    · rfl
    · exact heat_judgeNodes ..
  · split
    · next e => exact heat_snd (heat_headPacket ..) e
    · next e => exact (heat_judge ..).trans (heat_snd (heat_headPacket ..) e)

/-! ## What holds a packet is waited for (R402, R412) -/

theorem heat_joinKey (w : Waiter) (pkg tenant va : Nat) (s : State) : heat (joinKey w pkg tenant va s).2 = heat s := by
  unfold joinKey
  split
  · exact heat_toPackage ..
  · split
    · split <;> rfl
    · split
      · exact heat_record ..
      · rfl

theorem heat_pollLater (qid : Nat) (s : State) : heat (pollLater qid s) = heat s := by
  unfold pollLater
  split <;> rfl

theorem heat_waitSignal (q : Queue) (s : State) (va : Nat) : heat (waitSignal q s va) = heat s := by
  unfold waitSignal
  split
  · rfl
  · split
    · rfl
    · next pkg _ _ =>
      have joined := heat_joinKey (.queue q.qid) pkg q.tenant va s
      split
      · next e => exact (heat_next ..).trans (heat_snd joined e)
      · next e => exact heat_snd joined e
      · next e => exact (heat_pollLater ..).trans (heat_snd joined e)

/-! ## Saves, restores and starts (R61, R401, R552) -/

theorem heat_askSave (forced : Bool) (id : Nat) (s : State) : heat (askSave forced id s) = heat s := rfl

theorem heat_askSaves (cs : List Cluster) (s : State) : heat (cs.foldl (fun s x => askSave false x.id s) s) = heat s := by
  have each : ∀ s (x : Cluster), heat (askSave false x.id s) = heat s := fun s x => heat_askSave false x.id s
  exact foldl_keeps heat each cs s

theorem heat_makePlace (prio tenant : Nat) (p : List Byte) (entries : List (Option (Nat × Nat))) (s : State) :
    heat (makePlace prio tenant p entries s).2 = heat s := by
  unfold makePlace
  dsimp only
  split
  · show heat (List.foldl (_ : List Nat × State → Cluster → List Nat × State) _ _).2 = _
    refine foldl_keeps (fun x : List Nat × State => heat x.2) (fun x c => ?_) _ (_, s)
    obtain ⟨away, u⟩ := x
    dsimp only
    split
    · rfl
    · exact heat_askSaves ..
  · rfl

theorem heat_waitHead (q : Queue) (x : Bool × State) (v : HeadView × HeadPacket) : heat (waitHead q x v).2 = heat x.2 := by
  unfold waitHead
  split
  · exact foldl_keeps heat (heat_waitSignal q) _ _
  · exact heat_makePlace ..
  · rfl

theorem heat_tryHead (q : Queue) (s : State) : heat (tryHead q s).2.2 = heat s := by
  have seen := heat_forQueue q.qid none (eff := fun s => ((evaluate q s).1 |> some, (evaluate q s).2)) (heat_evaluate q) s
  unfold tryHead
  generalize forQueue q.qid none (fun s => ((evaluate q s).1 |> some, (evaluate q s).2)) s = r at seen ⊢
  dsimp only
  split
  · exact seen
  · exact (heat_first ..).trans seen
  · next vs =>
    have waits : ∀ (vs : List (HeadView × HeadPacket)) u,
        heat (vs.foldl (waitHead q) (false, onQueue q.qid (fun q => { q with held := true }) u)).2 = heat u :=
      fun vs u => foldl_keeps (fun x : Bool × State => heat x.2) (heat_waitHead q) vs _
    dsimp only
    split
    · exact (heat_onQueue ..).trans ((waits ..).trans seen)
    · exact (waits ..).trans seen

theorem heat_tryMore (id : Nat) (s : State) : heat (tryMore id s).2 = heat s := by
  unfold tryMore
  split
  · rfl
  · split
    · rfl
    · split <;> rfl

theorem heat_endClusters (cs : List Cluster) (s : State) : heat (cs.foldl (fun s c => endCluster c.id s) s) = heat s :=
  foldl_keeps heat (fun s c => heat_endCluster c.id s) cs s

theorem heat_endLaunch (l : Launch) (status : Nat) (s : State) : heat (endLaunch l status s) = heat s := by
  unfold endLaunch
  exact (heat_next ..).trans (heat_endClusters ..)

theorem heat_enterClusters (l : Launch) (s : State) : heat (enterClusters l s) = heat s := rfl

theorem heat_redispatch (s : State) (l : Launch) : heat (redispatch s l) = heat s := by
  unfold redispatch
  dsimp only
  split
  · exact heat_endLaunch ..
  · exact (heat_enterClusters ..).trans (heat_endClusters ..)

theorem heat_tryBack (id : Nat) (s : State) : heat (tryBack id s).2 = heat s := by
  unfold tryBack
  split
  · rfl
  · split
    · rfl
    · split
      · exact heat_redispatch ..
      · split
        · exact heat_endLaunch ..
        · split
          · dsimp only
            split <;> rfl
          · split <;> rfl

theorem heat_tryItems (is : List (Nat × Nat × Nat × HubItem)) (making : Option Nat) (s : State) :
    heat (tryItems is making s) = heat s := by
  induction is generalizing making s with
  | nil => rfl
  | cons i is ih =>
    obtain ⟨prio, a, b, item⟩ := i
    cases item with
    | head qid =>
      unfold tryItems
      split
      · exact ih ..
      · dsimp only
        split
        · exact heat_tryHead ..
        · exact (ih ..).trans (heat_tryHead ..)
    | more id =>
      unfold tryItems
      dsimp only
      split
      · exact heat_tryMore ..
      · exact (ih ..).trans (heat_tryMore ..)
    | back id =>
      unfold tryItems
      split
      · exact ih ..
      · dsimp only
        split
        · exact heat_tryBack ..
        · exact (ih ..).trans (heat_tryBack ..)

theorem heat_schedule (s : State) : heat (schedule s) = heat s := by
  unfold schedule
  split
  · rfl
  · exact (heat_tryItems ..).trans (foldl_keeps heat (fun s q => heat_bindQueue q s) _ _)

end Sys2Proof.Laws
end

section
/-! SUPPORT. The sensors' readings and trips (R451, R452, R569, R572). -/

namespace Sys2Proof.Laws

open Machine Claims

/-! ## A cove fails (R495, R568) -/

theorem heat_dropTeams (rs : List TeamRef) (s : State) : heat (rs.foldl (fun s r => dropTeam r s) s) = heat s :=
  foldl_keeps heat (fun s r => heat_dropTeam r s) rs s

theorem heat_unplace (s : State) (c : Cluster) : heat (unplace s c) = heat s := by
  unfold unplace
  refine foldl_keeps heat (fun s c => ?_) _ s
  dsimp only
  rw [heat_onHub]
  · exact heat_dropTeams ..
  · exact fun _ => rfl

theorem heat_startMigration (d p q : Nat) (s : State) : heat (startMigration d p q s) = heat s := by
  unfold startMigration
  exact (heat_next ..).trans ((heat_modTeams ..).trans (heat_modDie ..))

theorem heat_goOnTeams (rs : List TeamRef) (s : State) : heat (goOnTeams rs s) = heat s := rfl
theorem heat_keepTrip (d p : Nat) (s : State) : heat (keepTrip d p s) = heat s := rfl
theorem heat_clearGrant (d l : Nat) (lmg : Double) (u : Bool) (s : State) : heat (clearGrant d l lmg u s) = heat s := rfl
theorem heat_loseLm (d l : Nat) (s : State) : heat (loseLm d l s) = heat s := heat_clearGrant ..
theorem heat_modCores (s : State) (p : Core → Bool) (f : Core → Core) : heat (s.modCores p f) = heat s := rfl
theorem heat_updateDieEntry (d : Nat) (s : State) : heat (updateDieEntry d s) = heat s := rfl

theorem heat_retarget (d : Nat) (s : State) (p : Nat) : heat (retarget d s p) = heat s := by
  unfold retarget
  split
  · exact heat_startMigration ..
  · exact (heat_keepTrip ..).trans (heat_goOnTeams ..)

theorem heat_failCove (d v : Nat) (s : State) : heat (failCove d v s) = heat s := by
  unfold failCove
  extract_lets a b ls u w lost bad
  have unplaced : heat a = heat s := foldl_keeps heat heat_unplace _ s
  have ended : heat b = heat a := foldl_keeps heat (fun s t => heat_endContext t s) _ a
  have gone : heat u = heat b := foldl_keeps heat (fun s (x : Nat × Nat) => heat_loseLm d x.1 s) _ b
  have cores : heat w = heat u := heat_modCores ..
  rw [heat_schedule]
  refine (foldl_keeps heat (heat_retarget d) _ _).trans ?_
  rw [heat_updateDieEntry, heat_modDie, cores, gone, ended, unplaced]

theorem heat_coolDown (c : Nat) (s : State) : heat (coolDown c s) = heat s := by
  unfold coolDown
  dsimp only
  rw [heat_onHub]
  · split
    · unfold setFloors
      rw [heat_modCore, heat_onHub]
      exact fun _ => rfl
    · rfl
  · exact fun _ => rfl

/-! ## One sensor (R451, R452) -/

/-- A sensor's new reading, before its trip. -/
def newReading (n : Nat) (h : Hub) (c : Nat) : Double := setField (tsensOf h c) 7 0 (Config.reading n c).toNat

/-- An armed sensor reads its threshold or more (R452). -/
def trips (n : Nat) (h : Hub) (c : Nat) : Bool :=
  !h.disarmed.contains c && decide (sensorThr (newReading n h c) ≤ sensorTemp (newReading n h c))

/-- What a sensor holds after its reading. -/
def tripped (n : Nat) (h : Hub) (c : Nat) : Double := if trips n h c then setField (newReading n h c) 8 8 1 else newReading n h c

/-- The sensors that are disarmed after a reading. -/
def disarmedBy (n : Nat) (h : Hub) (c : Nat) : List Nat :=
  if trips n h c then c :: h.disarmed else if sensorCool (newReading n h c) then h.disarmed.filter (· ≠ c) else h.disarmed

theorem heat_readSensor (n : Nat) (s : State) (c : Nat) :
    heat (readSensor n s c) = (SMap.insert s.hub.tsens c (tripped n s.hub c), disarmedBy n s.hub c) := by
  unfold readSensor
  extract_lets d p x off trip cools u v
  have put : heat u = (SMap.insert s.hub.tsens c (tripped n s.hub c), disarmedBy n s.hub c) := rfl
  have cooled : heat v = heat u := by
    unfold v
    split
    · exact heat_coolDown ..
    · rfl
  rw [← put, ← cooled]
  split
  · split
    · rfl
    · exact (heat_failCove ..).trans (heat_record ..)
  · split <;> rfl

theorem tsensOf_readSensor (n : Nat) (s : State) (c k : Nat) :
    tsensOf (readSensor n s k).hub c = if c = k then tripped n s.hub k else tsensOf s.hub c := by
  have tsens : (readSensor n s k).hub.tsens = SMap.insert s.hub.tsens k (tripped n s.hub k) := congrArg Prod.fst (heat_readSensor n s k)
  unfold tsensOf
  rw [tsens, get?_insert]
  split <;> rfl

theorem disarmed_readSensor {n : Nat} {s : State} {c k : Nat} (other : c ≠ k) :
    c ∈ (readSensor n s k).hub.disarmed ↔ c ∈ s.hub.disarmed := by
  have after : (readSensor n s k).hub.disarmed = disarmedBy n s.hub k := congrArg Prod.snd (heat_readSensor n s k)
  rw [after]
  unfold disarmedBy
  split
  · simp [other]
  · split <;> simp [other]

theorem readSensors_other {n c : Nat} {ks : List Nat} (away : c ∉ ks) (s : State) :
    tsensOf (ks.foldl (readSensor n) s).hub c = tsensOf s.hub c ∧
      (c ∈ (ks.foldl (readSensor n) s).hub.disarmed ↔ c ∈ s.hub.disarmed) := by
  induction ks generalizing s with
  | nil => exact ⟨rfl, Iff.rfl⟩
  | cons k ks ih =>
    obtain ⟨other, away⟩ := not_or.1 (fun h => away (List.mem_cons.2 h))
    obtain ⟨sens, arm⟩ := ih away (readSensor n s k)
    rw [List.foldl_cons]
    refine ⟨sens.trans ?_, arm.trans (disarmed_readSensor other)⟩
    rw [tsensOf_readSensor, if_neg other]

/-! ## What a sensor holds -/

theorem field_eq (x : Double) (hi lo : Nat) : field x hi lo = (x.extractLsb' lo (hi + 1 - lo)).toNat := by
  rw [BitVec.extractLsb'_toNat, Nat.shiftRight_eq_div_pow]
  rfl

theorem sensorTemp_eq (x : Double) : sensorTemp x = temperature x := field_eq x 7 0
theorem sensorThr_eq (x : Double) : sensorThr x = threshold x := field_eq x 23 16

theorem temperature_newReading (n : Nat) (h : Hub) (c : Nat) : temperature (newReading n h c) = (Config.reading n c).toNat := by
  refine congrArg BitVec.toNat (BitVec.eq_of_getLsbD_eq fun i hi => ?_)
  unfold newReading
  rw [BitVec.getLsbD_extractLsb', setField_bit _ _ _ _ _ (by omega) (by omega), if_pos (by omega)]
  simp [hi, BitVec.getLsbD]

theorem threshold_setField {x : Double} {hi lo v : Nat} (order : lo ≤ hi) (below : hi < 16) :
    threshold (setField x hi lo v) = threshold x := by
  refine congrArg BitVec.toNat (BitVec.eq_of_getLsbD_eq fun i _ => ?_)
  rw [BitVec.getLsbD_extractLsb', BitVec.getLsbD_extractLsb', setField_bit _ _ _ _ _ (by omega) order, if_neg (by omega)]

theorem temperature_trip (x : Double) : temperature (setField x 8 8 1) = temperature x := by
  refine congrArg BitVec.toNat (BitVec.eq_of_getLsbD_eq fun i _ => ?_)
  rw [BitVec.getLsbD_extractLsb', BitVec.getLsbD_extractLsb', setField_bit _ _ _ _ _ (by omega) (by omega), if_neg (by omega)]

theorem tripped_reads (n : Nat) (h : Hub) (c : Nat) :
    temperature (tripped n h c) = (Config.reading n c).toNat ∧ threshold (tripped n h c) = threshold (tsensOf h c) := by
  have thr : threshold (newReading n h c) = threshold (tsensOf h c) := threshold_setField (by omega) (by omega)
  unfold tripped
  split
  · exact ⟨(temperature_trip _).trans (temperature_newReading n h c), (threshold_setField (by omega) (by omega)).trans thr⟩
  · exact ⟨temperature_newReading n h c, thr⟩

theorem tripped_trips {n : Nat} {h : Hub} {c : Nat} (armed : c ∉ h.disarmed)
    (hot : threshold (tsensOf h c) ≤ (Config.reading n c).toNat) :
    (tripped n h c).getLsbD 8 = true := by
  have thr : sensorThr (newReading n h c) = threshold (tsensOf h c) :=
    (sensorThr_eq _).trans (threshold_setField (by omega) (by omega))
  have temp : sensorTemp (newReading n h c) = (Config.reading n c).toNat :=
    (sensorTemp_eq _).trans (temperature_newReading n h c)
  have trip : trips n h c = true := by
    unfold trips
    rw [thr, temp]
    simp [armed, hot]
  unfold tripped
  rw [if_pos trip, setField_bit _ _ _ _ _ (by omega) (by omega), if_pos (by omega)]
  rfl

theorem sensorReading_reads (s : State) {c : Nat} (small : c < 576) : ∃ t, exec .sensorReading s = .next t ∧
    temperature (tsensOf t.hub c) = (Config.reading (s.now / 24000) c).toNat ∧
    threshold (tsensOf t.hub c) = threshold (tsensOf s.hub c) ∧
    (c ∉ s.hub.disarmed → threshold (tsensOf s.hub c) ≤ temperature (tsensOf t.hub c) → (tsensOf t.hub c).getLsbD 8 = true) := by
  obtain ⟨before, behind, order⟩ := List.append_of_mem (List.mem_range.2 small)
  have once : (before ++ c :: behind).Nodup := order ▸ List.nodup_range
  have front : c ∉ before := fun h => (List.nodup_append.1 once).2.2 c h c List.mem_cons_self rfl
  have back : c ∉ behind := (List.nodup_cons.1 (List.nodup_append.1 once).2.1).1
  obtain ⟨sens, arm⟩ := readSensors_other (n := s.now / 24000) front s
  have here : tsensOf ((List.range 576).foldl (readSensor (s.now / 24000)) s).hub c =
      tripped (s.now / 24000) (before.foldl (readSensor (s.now / 24000)) s).hub c := by
    rw [order, List.foldl_append, List.foldl_cons, (readSensors_other back _).1, tsensOf_readSensor, if_pos rfl]
  obtain ⟨temp, thr⟩ := tripped_reads (s.now / 24000) (before.foldl (readSensor (s.now / 24000)) s).hub c
  refine ⟨_, rfl, ?_, ?_, fun armed hot => ?_⟩
  · rw [here, temp]
  · rw [here, thr, sens]
  · rw [here] at hot ⊢
    rw [temp] at hot
    exact tripped_trips (fun h => armed (arm.1 h)) (sens ▸ hot)

end Sys2Proof.Laws
end

section
/-! SUPPORT. Re-grants (R443, R444), trips (R452, R569, R570) and migrations (R439): O46. -/

namespace Sys2Proof.Laws

open Machine Claims

/-! ## A core, wherever it is held -/

theorem core_modCore (s : State) (d p : Nat) (f : Core → Core) :
    (s.modCore d p f).core = if s.core.die = d ∧ s.core.pcore = p then f s.core else s.core := by
  unfold State.modCore
  split <;> rfl

theorem coreAt_place (s : State) (d p : Nat) : (s.coreAt d p).die = d ∧ (s.coreAt d p).pcore = p := by
  unfold State.coreAt
  split
  · assumption
  · cases e : s.cores.find? fun c => c.die = d && c.pcore = p with
    | none => exact ⟨rfl, rfl⟩
    | some c => simpa using List.find?_some e

/-- A change of a core that leaves it in its place. -/
def Stays (f : Core → Core) : Prop := ∀ c, (f c).die = c.die ∧ (f c).pcore = c.pcore

theorem coreAt_modCore (s : State) (d p : Nat) {f : Core → Core} (h : Stays f) (e q : Nat) :
    (s.modCore d p f).coreAt e q = if e = d ∧ q = p then f (s.coreAt d p) else s.coreAt e q := by
  by_cases own : s.core.die = d ∧ s.core.pcore = p
  · have front : s.coreAt d p = s.core := if_pos own
    rw [front]
    unfold State.modCore
    rw [if_pos own]
    unfold State.coreAt
    simp only [h s.core]
    obtain ⟨rfl, rfl⟩ := own
    by_cases here : e = s.core.die ∧ q = s.core.pcore
    · simp [here]
    · have there : ¬ (s.core.die = e ∧ s.core.pcore = q) := fun x => here ⟨x.1.symm, x.2.symm⟩
      simp only [if_neg here, if_neg there]
  · obtain ⟨die, pcore⟩ := coreAt_place s d p
    unfold State.modCore
    rw [if_neg own]
    generalize s.coreAt d p = c at die pcore ⊢
    have moved : (f c).die = d ∧ (f c).pcore = p := ⟨(h c).1.trans die, (h c).2.trans pcore⟩
    unfold State.coreAt
    by_cases here : e = d ∧ q = p
    · simp [here, own, moved]
    · have away : (s.cores.filter fun c => !(c.die = d && c.pcore = p)).find? (fun c => c.die = e && c.pcore = q) =
          s.cores.find? fun c => c.die = e && c.pcore = q := by
        rw [List.find?_filter]
        congr 1
        funext c
        by_cases x : c.die = e ∧ c.pcore = q
        · have elsewhere : ¬ (c.die = d ∧ c.pcore = p) := fun y => here ⟨x.1.symm.trans y.1, x.2.symm.trans y.2⟩
          simpa [x, imp_iff_not_or] using elsewhere
        · simpa using fun a b => absurd ⟨a, b⟩ x
      rw [if_neg here]
      dsimp only
      rw [List.find?_cons_of_neg, away]
      simpa [moved] using fun a b => here ⟨a.symm, b.symm⟩

/-! ## Re-grants (R443, R444) -/

/-- A core's new grant, of a level that its request allows (R443). -/
def Granted (s : State) (c : Core) : Prop :=
  ∃ level, level ≤ s.core.pwrq.getD 15 ∧ level ≤ 15 ∧ c.die = s.core.die ∧ c.pcore = s.core.pcore ∧ c.pwrq = none ∧
    c.nextGrant = some ((vget s.hub.gltab level 0xfffff).extractLsb' 0 20).toNat

theorem grantCores_keeps (n d : Nat) (ps : List Nat) (cap : Nat) (s : State) :
    (grantCores n d ps cap s).mem = s.mem ∧ (grantCores n d ps cap s).hub = s.hub ∧ (grantCores n d ps cap s).team = s.team := by
  induction ps generalizing cap s with
  | nil => exact ⟨rfl, rfl, rfl⟩
  | cons p ps ih =>
    obtain ⟨mem, hub, team⟩ := ih (min cap (Config.budgetLevel n (coreNumber d p))) (s.modCore d p fun c => { c with
      nextGrant := some (field (vget s.hub.gltab (min ((s.coreAt d p).pwrq.getD 15) (min cap (Config.budgetLevel n (coreNumber d p)))) 0xfffff) 19 0),
      pwrq := none })
    exact ⟨mem.trans (modCore_mem ..), hub.trans (modCore_hub ..), team.trans (modCore_team ..)⟩

theorem grantCores_away {n d : Nat} {ps : List Nat} {s : State} (away : s.core.die = d → s.core.pcore ∉ ps) (cap : Nat) :
    (grantCores n d ps cap s).core = s.core := by
  induction ps generalizing cap s with
  | nil => rfl
  | cons p ps ih =>
    have other : ∀ f, (s.modCore d p f).core = s.core := fun f => by
      rw [core_modCore, if_neg fun x : s.core.die = d ∧ s.core.pcore = p => away x.1 (x.2 ▸ List.mem_cons_self)]
    unfold grantCores
    dsimp only
    rw [ih, other]
    rw [other]
    exact fun h m => away h (List.mem_cons_of_mem _ m)

theorem grantCores_here {n : Nat} {ps : List Nat} {s : State} (mem : s.core.pcore ∈ ps) (once : ps.Nodup) {cap : Nat} (small : cap ≤ 15) :
    Granted s (grantCores n s.core.die ps cap s).core := by
  induction ps generalizing cap s with
  | nil => cases mem
  | cons p ps ih =>
    obtain ⟨fresh, once⟩ := List.nodup_cons.1 once
    unfold grantCores
    extract_lets cap' level grant
    by_cases here : s.core.pcore = p
    · have front : s.coreAt s.core.die p = s.core := if_pos ⟨rfl, here⟩
      have core : ∀ f, (s.modCore s.core.die p f).core = f s.core := fun f => by rw [core_modCore, if_pos ⟨rfl, here⟩]
      rw [grantCores_away, core]
      · refine ⟨level, ?_, ?_, rfl, rfl, rfl, congrArg some (field_eq _ 19 0)⟩
        · exact front ▸ Nat.min_le_left ..
        · exact (Nat.min_le_right ..).trans ((Nat.min_le_left ..).trans small)
      · rw [core]
        exact fun _ => here ▸ fresh
    · have core : ∀ f, (s.modCore s.core.die p f).core = s.core := fun f => by rw [core_modCore, if_neg fun x => here x.2]
      have rest := ih (s := s.modCore s.core.die p fun c => { c with nextGrant := some grant, pwrq := none }) (cap := cap')
        (by rw [core]; exact (List.mem_cons.1 mem).resolve_left here) once ((Nat.min_le_left ..).trans small)
      unfold Granted at rest ⊢
      rwa [core, modCore_hub] at rest

/-- The grants of some cores of some dies. -/
def grantDies (n : Nat) (ps ds : List Nat) (s : State) : State := ds.foldl (fun s d => grantCores n d ps 15 s) s

section

variable {n : Nat} {ps ds : List Nat} {s : State}

theorem grantDies_keeps : (grantDies n ps ds s).mem = s.mem ∧ (grantDies n ps ds s).hub = s.hub ∧ (grantDies n ps ds s).team = s.team :=
  ⟨foldl_keeps State.mem (fun s d => (grantCores_keeps n d ps 15 s).1) ds s,
    foldl_keeps State.hub (fun s d => (grantCores_keeps n d ps 15 s).2.1) ds s,
    foldl_keeps State.team (fun s d => (grantCores_keeps n d ps 15 s).2.2) ds s⟩

theorem grantDies_away (away : s.core.die ∉ ds) : (grantDies n ps ds s).core = s.core := by
  induction ds generalizing s with
  | nil => rfl
  | cons d ds ih =>
    obtain ⟨other, away⟩ := not_or.1 fun h => away (List.mem_cons.2 h)
    have same : (grantCores n d ps 15 s).core = s.core := grantCores_away (fun h => absurd h other) 15
    exact (ih (s := grantCores n d ps 15 s) (same ▸ away)).trans same

theorem grantDies_here (die : s.core.die ∈ ds) (once : ds.Nodup) (pcore : s.core.pcore ∈ ps) (each : ps.Nodup) :
    Granted s (grantDies n ps ds s).core := by
  induction ds generalizing s with
  | nil => cases die
  | cons d ds ih =>
    obtain ⟨fresh, once⟩ := List.nodup_cons.1 once
    show Granted s (grantDies n ps ds (grantCores n d ps 15 s)).core
    by_cases here : s.core.die = d
    · subst here
      have grant := grantCores_here (n := n) pcore each (Nat.le_refl 15)
      obtain ⟨_, _, _, same, _⟩ := id grant
      rwa [grantDies_away (same.symm ▸ fresh)]
    · have same : (grantCores n d ps 15 s).core = s.core := grantCores_away (fun h => absurd h here) 15
      obtain ⟨-, hub, -⟩ := grantCores_keeps n d ps 15 s
      have rest := ih (s := grantCores n d ps 15 s) (same ▸ (List.mem_cons.1 die).resolve_left here) once (same ▸ pcore)
      unfold Granted at rest ⊢
      rwa [same, hub] at rest

end

/-- What the trips that wait leave alone of a re-grant. -/
def regrantView (s : State) : Memory × Team × Option Nat × Option Nat := (s.mem, regs s.team, s.core.nextGrant, s.core.pwrq)

theorem startMigration_team (d p q : Nat) (s : State) : (startMigration d p q s).team =
    if (s.residents d p).contains s.team.ref && s.team.park ≠ .ending then { s.team with stopAsked := true } else s.team := by
  unfold startMigration
  dsimp only [State.next, State.modTeams]
  rw [modDie_team]

theorem view_startMigration (d p q : Nat) (s : State) : regrantView (startMigration d p q s) = regrantView s := by
  have team : regs (startMigration d p q s).team = regs s.team := by
    rw [startMigration_team]
    split <;> rfl
  have core : (startMigration d p q s).core = s.core := modDie_core ..
  have mem : (startMigration d p q s).mem = s.mem := modDie_mem ..
  unfold regrantView
  rw [team, core, mem]

theorem view_raiseFloors (d p : Nat) (s : State) : regrantView (raiseFloors d p s) = regrantView s := by
  unfold regrantView raiseFloors setFloors
  dsimp only
  rw [modCore_mem, modCore_team, core_modCore]
  split <;> rfl

theorem view_retryTrip (s : State) (c : Nat) : regrantView (retryTrip s c) = regrantView s := by
  unfold retryTrip
  dsimp only
  split
  · rfl
  · split
    · split <;> rfl
    · split
      · exact view_startMigration ..
      · exact view_raiseFloors ..

/-- The state after a re-grant's grants, with the re-grant counted. -/
def granted (ps ds : List Nat) (s : State) : State :=
  (grantDies s.hub.regrants ps ds s).onHub fun h => { h with regrants := s.hub.regrants + 1 }

/-- The trips that wait are looked at after the grants (R569). -/
def retried (s : State) : State := s.hub.pendingTrips.foldl retryTrip s

theorem exec_regrant (s : State) : exec .regrant s = .next (first (emptyMoves (retried (granted (List.range 72) (List.range 8) s)))
    (retried (granted (List.range 72) (List.range 8) s))) := by
  show execRegrant s = _
  unfold execRegrant retried granted grantDies
  rfl

theorem trips_grants (ps ds : List Nat) {s : State} (die : s.core.die ∈ ds) (once : ds.Nodup) (pcore : s.core.pcore ∈ ps) (each : ps.Nodup)
    : let t := retried (granted ps ds s)
    t.mem = s.mem ∧ SameRegs s.team t.team ∧ ∃ level, level ≤ s.core.pwrq.getD 15 ∧ level ≤ 15 ∧ t.core.pwrq = none ∧
      t.core.nextGrant = some ((vget s.hub.gltab level 0xfffff).extractLsb' 0 20).toNat := by
  obtain ⟨mem, -, team⟩ := grantDies_keeps (n := s.hub.regrants) (ps := ps) (ds := ds) (s := s)
  obtain ⟨level, asked, small, -, -, pwrq, grant⟩ := grantDies_here (n := s.hub.regrants) die once pcore each
  have view : regrantView (retried (granted ps ds s)) = regrantView (granted ps ds s) := foldl_keeps regrantView view_retryTrip _ _
  unfold regrantView at view
  simp only [Prod.mk.injEq] at view
  obtain ⟨mem', team', grant', pwrq'⟩ := view
  exact ⟨mem'.trans mem, (congrArg regs team).symm.trans team'.symm, level, asked, small, pwrq'.trans pwrq, grant'.trans grant⟩

theorem regrant_grants {s : State} (die : s.core.die < 8) (pcore : s.core.pcore < 72) : ∃ t level, exec .regrant s = .next t ∧
    t.mem = s.mem ∧ SameRegs s.team t.team ∧ level ≤ s.core.pwrq.getD 15 ∧ level ≤ 15 ∧ t.core.pwrq = none ∧
    t.core.nextGrant = some ((vget s.hub.gltab level 0xfffff).extractLsb' 0 20).toNat := by
  have run := exec_regrant s
  obtain ⟨mem, same, level, grant⟩ := trips_grants (List.range 72) (List.range 8) (List.mem_range.2 die) List.nodup_range
    (List.mem_range.2 pcore) List.nodup_range
  generalize retried (granted (List.range 72) (List.range 8) s) = u at run mem same grant
  exact ⟨_, level, run, mem, same, grant⟩

end Sys2Proof.Laws
end

section
/-! SUPPORT. Trips ask for migrations (R452, R569, R570), and migrations move a core's teams and engines (R32, R439): O46. -/

namespace Sys2Proof.Laws

open Machine Claims

/-! ## Trips -/

theorem keepTrip_pending (d p : Nat) (s : State) : 72 * d + p ∈ (keepTrip d p s).hub.pendingTrips :=
  List.mem_append_right _ (List.mem_singleton.2 rfl)

theorem startMigration_does (d p q : Nat) (s : State) :
    (startMigration d p q s).mem = s.mem ∧ SameRegs s.team (startMigration d p q s).team ∧
      ((startMigration d p q s).dieAt d).migrating = (s.dieAt d).migrating ++ [(p, q)] ∧
      (s.team.ref ∈ s.residents d p → s.team.park ≠ .ending → (startMigration d p q s).team.stopAsked = true) := by
  have asked : (startMigration d p q s).dieAt d = { s.dieAt d with migrating := (s.dieAt d).migrating ++ [(p, q)] } :=
    (dieAt_modDie s d (f := fun x => { x with migrating := x.migrating ++ [(p, q)] }) (fun _ => rfl) d).trans (if_pos rfl)
  refine ⟨modDie_mem .., ?_, congrArg Die.migrating asked, fun mine goes => ?_⟩
  · rw [startMigration_team]
    split <;> rfl
  · have asks : ((s.residents d p).contains s.team.ref && decide (s.team.park ≠ .ending)) = true := by simp [mine, goes]
    rw [startMigration_team, if_pos asks]

theorem record_team (t : Option Nat) (o u k i c : Nat) (d p : Double) (s : State) : (record t o u k i c d p s).team = s.team :=
  books_team (books_record ..)

section

variable {s : State}

theorem trip_ignored (idle : s.residents s.occ.die s.occ.core = [] ∧ targeted s s.occ.die s.occ.core = false ∨
    (s.dieAt s.occ.die).migrates s.occ.core = true) : exec .thermalTrip s = .next s := by
  show execThermalTrip s = _
  unfold execThermalTrip
  obtain ⟨empty, unaimed⟩ | moves := idle
  · simp [empty, unaimed]
  · simp [moves]

section

variable (still : (s.dieAt s.occ.die).migrates s.occ.core = false)
include still

theorem trip_of_target (empty : s.residents s.occ.die s.occ.core = []) (aimed : targeted s s.occ.die s.occ.core = true) :
    exec .thermalTrip s = .next (keepTrip s.occ.die s.occ.core s) := by
  show execThermalTrip s = _
  unfold execThermalTrip
  simp [still, empty, aimed]

variable (full : s.residents s.occ.die s.occ.core ≠ [])
include full

theorem trip_migrates {q : Nat} (settled : migratedLately s s.occ.die s.occ.core = false) (found : migrationTarget s s.occ.die = some q) :
    exec .thermalTrip s = .next (startMigration s.occ.die s.occ.core q s) := by
  show execThermalTrip s = _
  unfold execThermalTrip
  simp [still, full, settled, found]

theorem trip_waits (barred : migratedLately s s.occ.die s.occ.core = true ∨ migrationTarget s s.occ.die = none) :
    ∃ u, exec .thermalTrip s = .next (keepTrip s.occ.die s.occ.core u) ∧ u.mem = s.mem ∧ u.team = s.team := by
  show ∃ u, execThermalTrip s = _ ∧ _
  unfold execThermalTrip
  cases late : migratedLately s s.occ.die s.occ.core with
  | true => exact ⟨s, by simp [still, full, late], rfl, rfl⟩
  | false =>
    have away := barred.resolve_left (by simp [late])
    refine ⟨record none 0 0 s.occ.die s.occ.core 0x0303 (dbl (sensorTemp (tsensOf s.hub (coreNumber s.occ.die s.occ.core)))) noPkt s,
      ?_, rfl, record_team ..⟩
    simp [still, full, late, away]

end

end

/-! ## The engines and the remap tables stay while caches are flushed (R439) -/

/-- The engine state of each core that a migration moves, the remap tables, and the acting team. -/
def rack (s : State) : (Nat → Nat → Acc × Tri × Vector (Option RingBind) 8) × (Nat → Vector (Option Nat) 64) × Team :=
  (fun d p => ((s.coreAt d p).acc, (s.coreAt d p).tri, (s.coreAt d p).rings), fun d => (s.dieAt d).remap, s.team)

theorem rack_writeBackL1 (d : Nat) (l : Line) (s : State) : rack (writeBackL1 none d l s) = rack s := by
  have calm := calm_writeBackL1 d l s
  unfold Laws.calm at calm
  simp only [Prod.mk.injEq] at calm
  obtain ⟨-, core, cores, remap⟩ := calm
  unfold rack State.coreAt
  rw [core, cores, remap, books_team (books_writeBackL1 d l s)]

theorem rack_modCore (s : State) (d p : Nat) {f : Core → Core} (stays : Stays f)
    (keeps : ∀ c, (f c).acc = c.acc ∧ (f c).tri = c.tri ∧ (f c).rings = c.rings) : rack (s.modCore d p f) = rack s := by
  have engines : (fun e q => (((s.modCore d p f).coreAt e q).acc, ((s.modCore d p f).coreAt e q).tri, ((s.modCore d p f).coreAt e q).rings)) =
      fun e q => ((s.coreAt e q).acc, (s.coreAt e q).tri, (s.coreAt e q).rings) := by
    funext e q
    rw [coreAt_modCore s d p stays]
    split
    · next here =>
      obtain ⟨acc, tri, rings⟩ := keeps (s.coreAt d p)
      rw [acc, tri, rings, here.1, here.2]
    · rfl
  unfold rack State.dieAt
  rw [engines, modCore_team, modCore_die, modCore_dies]

theorem rack_cleanL1 (d p tenant line : Nat) (s : State) : rack (cleanL1 none d p tenant line s) = rack s := by
  unfold cleanL1
  split
  · rw [rack_modCore]
    · exact rack_writeBackL1 ..
    · exact fun _ => ⟨rfl, rfl⟩
    · exact fun _ => ⟨rfl, rfl, rfl⟩
  · rfl

theorem rack_flushL1 (d p : Nat) (keep : Line → Bool) (s : State) : rack (flushL1 none d p keep s) = rack s :=
  foldl_keeps rack (fun s (l : Line) => rack_cleanL1 d p l.tenant l.ipa s) _ s

/-! ## Migrations (R439) -/

theorem regs_goOn (saving : Bool) (t : Team) : SameRegs t (t.goOn saving) := by
  unfold Team.goOn
  dsimp only
  split <;> rfl

/-- The caches of the two cores are flushed before a migration. -/
def flushed (d p q : Nat) (s : State) : State := flushL1 none d q (fun _ => true) (flushL1 none d p (fun _ => true) s)

theorem rack_flushed (d p q : Nat) (s : State) : rack (flushed d p q s) = rack s := (rack_flushL1 ..).trans (rack_flushL1 ..)

/-- The engine state has moved, and the core that it leaves is lost. -/
def engineMoved (d p q : Nat) (s : State) : State :=
  (s.modCore d q fun c => c.takeOver (s.coreAt d p) (s.coreAt d p).copies s.now).modCore d p Core.lost

theorem stays_lost : Stays Core.lost := fun _ => ⟨rfl, rfl⟩
theorem stays_takeOver (old : Core) (copies : List Copy) (now : Nat) : Stays fun c => c.takeOver old copies now := fun _ => ⟨rfl, rfl⟩

theorem takeOver_engine (c old : Core) (copies : List Copy) (now : Nat) :
    (c.takeOver old copies now).acc = old.acc ∧ (c.takeOver old copies now).tri = old.tri ∧
      (c.takeOver old copies now).rings = old.rings := ⟨rfl, rfl, rfl⟩

theorem engineMoved_core {d p q : Nat} (apart : p ≠ q) (s : State) :
    (engineMoved d p q s).coreAt d q = (s.coreAt d q).takeOver (s.coreAt d p) (s.coreAt d p).copies s.now := by
  unfold engineMoved
  rw [coreAt_modCore _ d p stays_lost, if_neg fun x => apart x.2.symm, coreAt_modCore _ d q (stays_takeOver _ _ _), if_pos ⟨rfl, rfl⟩]

theorem engineMoved_dieAt (d p q : Nat) (s : State) (x : Nat) : (engineMoved d p q s).dieAt x = s.dieAt x := by
  unfold State.dieAt engineMoved
  simp only [modCore_die, modCore_dies]

/-- The remap table names the core that the teams have moved to. -/
def remapped (d p q l : Nat) (s : State) : State :=
  s.modDie d fun x => { x with
    migrating := x.migrating.filter (fun m => m.1 ≠ p),
    remap := vput x.remap l (some q) }

theorem sameRegs_goOnTeams (rs : List TeamRef) (s : State) : SameRegs s.team (goOnTeams rs s).team := by
  unfold goOnTeams
  exact sameRegs_modTeams _ fun t => regs_goOn (s.hub.clusters.any fun c => c.id = t.cluster && c.phase = .saving) t

/-- The teams that have moved go on, and their migration is noted (R439, R570). -/
def settled (d : Nat) (rs : List TeamRef) (s : State) : State :=
  updateDieEntry d (goOnTeams rs (s.modTeams (fun t => rs.contains t.ref) fun t => { t with lastMigration := some s.now }))

theorem settled_team (d : Nat) (rs : List TeamRef) (s : State) : SameRegs s.team (settled d rs s).team := by
  have noted := sameRegs_modTeams (s := s) (fun t => rs.contains t.ref) (f := fun t => { t with lastMigration := some s.now }) fun _ => rfl
  exact noted.trans (sameRegs_goOnTeams ..)

theorem settled_dieAt (d : Nat) (rs : List TeamRef) (s : State) (x : Nat) : (settled d rs s).dieAt x = s.dieAt x := rfl
theorem settled_coreAt (d : Nat) (rs : List TeamRef) (s : State) (e q : Nat) : (settled d rs s).coreAt e q = s.coreAt e q := rfl

theorem moveCore_eq {d p q l : Nat} {s : State} (holds : ((engineMoved d p q (flushed d p q s)).dieAt d).logical p = some l) :
    moveCore d p q s = settled d (s.residents d p) (remapped d p q l (engineMoved d p q (flushed d p q s))) := by
  unfold engineMoved flushed at holds ⊢
  unfold moveCore remapped settled
  dsimp only
  rw [holds]

theorem remapped_coreAt (d p q l : Nat) (s : State) (e r : Nat) : (remapped d p q l s).coreAt e r = s.coreAt e r := by
  unfold State.coreAt remapped
  rw [modDie_core, modDie_cores]

theorem physical_remapped {d p q l : Nat} (small : l < 64) (s : State) : ((remapped d p q l s).dieAt d).physical l = some q := by
  have table : ((remapped d p q l s).dieAt d).remap = vput (s.dieAt d).remap l (some q) := by
    unfold remapped
    rw [dieAt_modDie]
    · rw [if_pos rfl]
    · exact fun _ => rfl
  unfold Die.physical
  rw [table, vget_vput_same _ _ _ _ small]

theorem logical_small {x : Die} {p l : Nat} (h : x.logical p = some l) : l < 64 := List.mem_range.1 (List.mem_of_find?_eq_some h)

theorem logical_congr {x y : Die} (h : x.remap = y.remap) (p : Nat) : x.logical p = y.logical p := by
  unfold Die.logical
  rw [h]

theorem moveCore_does {d p q l : Nat} {s : State} (apart : p ≠ q) (holds : (s.dieAt d).logical p = some l) :
    SameRegs s.team (moveCore d p q s).team ∧ ((moveCore d p q s).dieAt d).physical l = some q ∧
      ((moveCore d p q s).coreAt d q).acc = (s.coreAt d p).acc ∧ ((moveCore d p q s).coreAt d q).tri = (s.coreAt d p).tri ∧
      ((moveCore d p q s).coreAt d q).rings = (s.coreAt d p).rings := by
  have kept := rack_flushed d p q s
  unfold rack at kept
  simp only [Prod.mk.injEq] at kept
  obtain ⟨engines, tables, team⟩ := kept
  have engine := congrFun (congrFun engines d) p
  simp only [Prod.mk.injEq] at engine
  obtain ⟨acc, tri, rings⟩ := engine
  have table : ((engineMoved d p q (flushed d p q s)).dieAt d).remap = (s.dieAt d).remap :=
    (congrArg Die.remap (engineMoved_dieAt ..)).trans (congrFun tables d)
  have logical : ((engineMoved d p q (flushed d p q s)).dieAt d).logical p = some l :=
    (logical_congr table p).trans holds
  have moved := engineMoved_core (d := d) apart (flushed d p q s)
  have front : (remapped d p q l (engineMoved d p q (flushed d p q s))).team = s.team := by
    unfold remapped engineMoved
    rw [modDie_team, modCore_team, modCore_team, team]
  have goes := settled_team d (s.residents d p) (remapped d p q l (engineMoved d p q (flushed d p q s)))
  obtain ⟨acc', tri', rings'⟩ := takeOver_engine ((flushed d p q s).coreAt d q) ((flushed d p q s).coreAt d p)
    ((flushed d p q s).coreAt d p).copies (flushed d p q s).now
  rw [front] at goes
  rw [moveCore_eq logical, settled_dieAt, settled_coreAt, remapped_coreAt, moved, acc', tri', rings']
  exact ⟨goes, physical_remapped (logical_small holds) _, acc, tri, rings⟩

section

variable {s : State} {q : Nat} (moving : (s.dieAt s.occ.die).migrating.find? (fun m => m.1 = s.occ.core) = some (s.occ.core, q))
include moving

theorem move_waits (waits : migrationReady s s.occ.die s.occ.core = false) : exec .migrationMove s = .next s := by
  show execMigrationMove s = _
  unfold execMigrationMove
  simp [moving, waits]

theorem move_moves (ready : migrationReady s s.occ.die s.occ.core = true) (free : q ∈ (s.dieAt s.occ.die).freeCores)
    (awake : ((s.dieAt s.occ.die).cove (q / 8)).usable = true) :
    exec .migrationMove s = .next (schedule (moveCore s.occ.die s.occ.core q s)) := by
  show execMigrationMove s = _
  unfold execMigrationMove
  simp [moving, ready, free, coveOf, awake]

end

/-- Settles O46: windows and refreshes are single changes; the grants of a re-grant reach each core once; a sensor is read once in a
reading, whatever fails meanwhile; trips and moves are those of the core that the event names. -/
theorem windowsHeatAndMigration : Obligations.WindowsHeatAndMigration := by
  unfold Obligations.WindowsHeatAndMigration
  refine ⟨fun s => ⟨rfl, rfl, rfl, regrant_grants⟩, fun s c small => sensorReading_reads s small, fun s => ?_, ?_⟩
  · intro d p
    refine ⟨trip_ignored, fun empty still aimed => ⟨_, trip_of_target still empty aimed, rfl, rfl, keepTrip_pending d p s⟩,
      fun q full still settled found => ⟨_, trip_migrates still full settled found, startMigration_does d p q s⟩,
      fun full still barred => ?_⟩
    obtain ⟨u, run, mem, team⟩ := trip_waits still full barred
    exact ⟨_, run, mem, team, keepTrip_pending d p u⟩
  · rintro s p q l rfl moving apart holds
    exact ⟨move_waits moving, fun ready free awake => ⟨_, move_moves moving ready free awake, moveCore_does apart holds⟩⟩

end Sys2Proof.Laws
end

section
/-! SUPPORT. What every slot does with a NOP, a false guard, a reserved value and an opcode that no row assigns (R107, R111, R115,
R338, R497, R498): O40. -/

namespace Sys2Proof.Laws

open Machine Claims

/-! ## Traps and reserved values -/

section

variable {i : Instr} {j : Slot} {s : State}

/-- R416: with no trap pending, a trap at a slot's position is all that its operation leaves. -/
theorem raiseTrap_eq (cause addr : Nat) (w : Word32) (trap : s.team.trap = none) :
    raiseTrap j cause addr w s = raised j cause addr w s := by
  simp [raiseTrap, State.onTeam, trap, raised, trapOf, trapAt]

/-- R498: an operation that holds a reserved value raises 0x0011 in the place of its effect. -/
theorem slotOp_reserved (eff : State → State) (reserved : i.wf = false) (trap : s.team.trap = none) :
    slotOp j i eff s = raised j 0x0011 0 ((encode i).getD 0) s := by
  simp only [slotOp, reserved, Bool.false_eq_true, if_false]
  exact takeTrap_eq trap

theorem ctOp_reserved (eff : State → State) (reserved : i.wf = false) (trap : s.team.trap = none) (skip : s.team.skipCt = false) :
    ctOp i eff s = raised .ct 0x0011 0 s.team.cur.ct s := by
  rw [← ctTrap_eq _ _ trap]
  simp [ctOp, skip, reserved]

/-- R115: with its guard false an operation that holds no reserved value passes. -/
theorem slotOp_guarded {g : BitVec 3} {eff act : State → State} (form : eff s = guarded j g act s) (wf : i.wf = true)
    (off : s.team.rp g = false) : slotOp j i eff s = passSlot j s := by
  simp [slotOp, wf, form, guarded, off]

end

/-! ## Where nothing makes its slot hold, an operation comes to the check for reserved values (R70, R338, R498) -/

section

variable {i : Instr} {s : State}

theorem sxPlain_checks (w l : Nat) (x : Team → Write) : ∃ eff, sxPlain i w l x s = slotOp .sx i eff s := ⟨_, rfl⟩

/-- R338: with no tide that runs. -/
theorem vxOp_checks (w : Nat) (ws : Team → List (Nat × Write)) (free : s.core.sweep.holdsVx = false) :
    ∃ eff, vxOp i w ws s = slotOp .vx i eff s :=
  ⟨_, if_neg (by simp [free])⟩

theorem ownerOp_checks (j : Slot) (eff : State → State) : ∃ act, ownerOp j i eff s = slotOp j i act s := ⟨_, rfl⟩

/-- R70: with no operation that occupies the rotation array. -/
theorem rxOp_checks (eff : State → State) (idle : s.core.rxBusy = 0) : ∃ act, rxOp i eff s = slotOp .rx i act s := by
  rw [rxOp, if_neg (by simp [idle])]
  exact ownerOp_checks _ _

/-- R70: with no operation that occupies the DX engine. -/
theorem dxOp_checks (owner entry : Bool) (eff : State → State) (idle : s.core.dxBusy = 0) :
    ∃ act, dxOp i owner entry eff s = slotOp .dx i act s := by
  rw [dxOp, if_neg (by simp [idle])]
  dsimp only
  split
  · exact ownerOp_checks _ _
  · exact ⟨_, rfl⟩

/-- A sweep operation on an invalid binding is checked too, before the binding's fault (R500, R518). -/
theorem sweepOp_checks (h : Nat) (align : Option Nat) (kind : Team → CopyKind) (after : State → State)
    (idle : s.core.dxBusy = 0) : ∃ act, sweepOp i h align kind after s = slotOp .dx i act s := by
  rw [sweepOp, if_neg (by simp [idle])]
  split
  · exact ⟨_, rfl⟩
  · exact dxOp_checks _ _ _ idle

/-- R246: on integers and on f32 lanes alike, an arithmetic operation is one of the VX slot. -/
theorem vxArith_vxOp (f : RForm) (lInt lFlt : Nat) (int : Int → Int → Int) (flt : Rnd → Nat → Nat → Nat) :
    ∃ w ws, vxArith i f lInt lFlt int flt s = vxOp i w ws s := by
  unfold vxArith
  split
  · exact ⟨_, _, rfl⟩
  · exact ⟨_, _, rfl⟩

theorem vxShift_vxOp (f : RForm) (op : Nat → Nat → Nat → Nat) : ∃ w ws, vxShift i f op s = vxOp i w ws s := by
  unfold vxShift
  exact ⟨_, _, rfl⟩

end

/-! ## What each slot's operations are -/

/-- The slot of a word that an assigned row gives a meaning: NOPs and the words of unassigned opcodes have none. -/
def rowSlot : Instr → Option Slot
  | .nop _ | .unassignedOpcode _ _ => none
  | i => i.slot

/-- NOPs and the words of unassigned opcodes have no field that could hold a reserved value. -/
theorem rowSlot_of_reserved {i : Instr} (reserved : i.wf = false) : rowSlot i = i.slot := by
  cases i
  case nop | unassignedOpcode => cases reserved
  all_goals rfl

section

variable {i : Instr} (s : State)

theorem exec_ct (h : rowSlot i = some .ct) : ∃ eff, exec i s = .next (ctOp i eff s) := by
  cases i
  all_goals cases h
  all_goals exact ⟨_, rfl⟩

theorem exec_sx (h : rowSlot i = some .sx) : ∃ eff, exec i s = .next (slotOp .sx i eff s) := by
  cases i
  case shrai => exact (sxPlain_checks _ _ _).imp fun _ => congrArg _
  all_goals cases h
  all_goals exact ⟨_, rfl⟩

theorem exec_ad (h : rowSlot i = some .ad) : ∃ eff, exec i s = .next (slotOp .ad i eff s) := by
  cases i
  all_goals cases h
  all_goals exact ⟨_, rfl⟩

theorem exec_ls (h : rowSlot i = some .ls) : (∃ f k n els eff, exec i s = .next (lsOp i f k n els eff s)) ∨
    ∃ f eff, exec i s = .next (ringOp i f eff s) := by
  cases i
  case rput | rget | rfree => exact .inr ⟨_, _, rfl⟩
  all_goals cases h
  all_goals exact .inl ⟨_, _, _, _, _, rfl⟩

theorem exec_vx (h : rowSlot i = some .vx) : ∃ w ws, exec i s = .next (vxOp i w ws s) := by
  cases i
  case vshl | vshr | vshra => exact (vxShift_vxOp _ _).imp fun _ => .imp fun _ => congrArg _
  case vadd | vsub | vmul => exact (vxArith_vxOp _ _ _ _ _).imp fun _ => .imp fun _ => congrArg _
  all_goals cases h
  all_goals exact ⟨_, _, rfl⟩

theorem exec_mx (h : rowSlot i = some .mx) : ∃ c eff, exec i s = .next (mxOp i c eff s) := by
  cases i
  all_goals cases h
  all_goals exact mx_op (by simp)

theorem exec_rx (h : rowSlot i = some .rx) : ∃ eff, exec i s = .next (rxOp i eff s) := by
  cases i
  all_goals cases h
  all_goals exact rx_op (f := ‹_›) (by simp)

theorem exec_dx (h : rowSlot i = some .dx) : (∃ owner entry eff, exec i s = .next (dxOp i owner entry eff s)) ∨
    ∃ k align kind after, exec i s = .next (sweepOp i k align kind after s) := by
  cases i
  case tide | tideq | ctxi | reefLd | reefSt | reefWake | reefClr => exact .inr ⟨_, _, _, _, rfl⟩
  all_goals cases h
  all_goals exact .inl ⟨_, _, _, rfl⟩

/-- R498: outside the CT slot, and with nothing that makes the slot hold, an operation first looks for reserved values. -/
theorem exec_slotOp {j : Slot} (h : rowSlot i = some j) (other : j ≠ .ct) (vx : j = .vx → s.core.sweep.holdsVx = false)
    (rx : j = .rx → s.core.rxBusy = 0) (dx : j = .dx → s.core.dxBusy = 0) : ∃ eff, exec i s = .next (slotOp j i eff s) := by
  cases j with
  | ct => exact absurd rfl other
  | sx => exact exec_sx s h
  | ad => exact exec_ad s h
  | ls =>
    obtain ⟨f, k, n, els, eff, run⟩ | ⟨f, eff, run⟩ := exec_ls s h
    · exact ⟨_, run⟩
    · exact ⟨_, run⟩
  | vx =>
    obtain ⟨w, ws, run⟩ := exec_vx s h
    exact (vxOp_checks w ws (vx rfl)).imp fun _ e => run.trans (congrArg _ e)
  | mx =>
    obtain ⟨c, eff, run⟩ := exec_mx s h
    exact (ownerOp_checks .mx _).imp fun _ e => run.trans (congrArg _ e)
  | rx =>
    obtain ⟨eff, run⟩ := exec_rx s h
    exact (rxOp_checks eff (rx rfl)).imp fun _ e => run.trans (congrArg _ e)
  | dx =>
    obtain ⟨owner, entry, eff, run⟩ | ⟨k, align, kind, after, run⟩ := exec_dx s h
    · exact (dxOp_checks owner entry eff (dx rfl)).imp fun _ e => run.trans (congrArg _ e)
    · exact (sweepOp_checks k align kind after (dx rfl)).imp fun _ e => run.trans (congrArg _ e)

end

/-! ## Guards (R115) -/

/-- A guarded form that does not yet hold at its position reads its guard there. -/
theorem exec_guarded {i : Instr} {j : Slot} {g : BitVec 3} {s : State} (h : guardOf i = some (j, g))
    (arrives : vget s.team.holding (slotNum j) false = false) :
    ∃ eff act, exec i s = .next (slotOp j i eff s) ∧ eff s = guarded j g act s := by
  cases i
  case fence | xfence | relw | phase =>
    cases h
    exact ⟨_, _, rfl, if_neg (by simp [arrives])⟩
  all_goals cases h
  all_goals exact ⟨_, _, rfl, rfl⟩

/-! ## NOPs and unassigned opcodes (R107, R497) -/

theorem exec_nop {j : Slot} (other : j ≠ .ct) (s : State) : exec (.nop j) s = .next (passSlot j s) := by
  show execNop j s = _
  rw [execNop, if_neg other]

/-- R70: a slot whose engine is idle is occupied by no other team's operation. -/
theorem occupiedByOther_idle {j : Slot} {s : State} (rx : j = .rx → s.core.rxBusy = 0) (dx : j = .dx → s.core.dxBusy = 0) :
    occupiedByOther j s = false := by
  cases j
  case rx => simp [occupiedByOther, rx rfl]
  case dx => simp [occupiedByOther, dx rfl]
  all_goals rfl

theorem exec_unassigned {j : Slot} {s : State} (w : Word32) (other : j ≠ .ct) (trap : s.team.trap = none)
    (vx : j = .vx → s.core.sweep.holdsVx = false) (rx : j = .rx → s.core.rxBusy = 0) (dx : j = .dx → s.core.dxBusy = 0) :
    exec (.unassignedOpcode j w) s = .next (raised j (if w.extractLsb' 26 6 = 0 then 0x0011 else 0x0010) 0 w s) := by
  have free : ¬ (j = .vx ∧ s.core.sweep.holdsVx = true) := fun h => by simp [vx h.1] at h
  rw [← raiseTrap_eq _ _ _ trap]
  show execUnassignedOpcode j w s = _
  simp [execUnassignedOpcode, other, free, occupiedByOther_idle rx dx]

theorem exec_unassigned_ct {s : State} (w : Word32) (trap : s.team.trap = none) (skip : s.team.skipCt = false) :
    CtRaises (.unassignedOpcode .ct w) s (if w.extractLsb' 14 5 = 0 then 0x0011 else 0x0010) 0 := by
  rw [CtRaises, ← ctTrap_eq _ _ trap]
  show execUnassignedOpcode .ct w s = _
  simp [execUnassignedOpcode, skip, occupiedByOther]

/-- Settles O40: the hard-wired registers by the accessors, a word with no assigned row by its own rule, and every other word by
the check for reserved values and the guard that its slot comes to first. -/
theorem slotRules : Obligations.SlotRules := by
  unfold Obligations.SlotRules
  refine ⟨fun t x y b => ⟨rfl, rfl, rfl, rfl, rfl, rfl⟩, fun j s other => exec_nop other s,
    fun j w s other trap vx rx dx => exec_unassigned w other trap vx rx dx, fun w s trap skip => exec_unassigned_ct w trap skip,
    fun i j g s form wf off arrives => ?_, fun i j s slot reserved _ trap => ⟨?_, fun other vx rx dx => ?_⟩⟩
  · obtain ⟨eff, act, run, guards⟩ := exec_guarded form arrives
    rw [run, slotOp_guarded guards wf off]
    rfl
  · rintro rfl skip
    obtain ⟨eff, run⟩ := exec_ct s ((rowSlot_of_reserved reserved).trans slot)
    rw [CtRaises, run, ctOp_reserved eff reserved trap skip]
  · obtain ⟨eff, run⟩ := exec_slotOp s ((rowSlot_of_reserved reserved).trans slot) other vx rx dx
    rw [Raises, run, slotOp_reserved eff reserved trap]

end Sys2Proof.Laws
end

section
/-! SUPPORT. The scalar slot: integer, immediate, floating and predicate operations issue with one result (R204 to R213): O1 to O4. -/

namespace Sys2Proof.Laws

open Machine Claims

/-! ## Operations with one result (R74, R115) -/

section

variable {i : Instr} {s : State} {w l : Nat} {wr : Double → Write} {x : Team → Double} {v : Double → Prop}

/-- An operation whose guard is true issues with its value. -/
theorem yields_guarded {g : BitVec 3} (run : exec i s = .next (sxGuarded i g w l (fun t => wr (x t)) s)) (ready : Ready i g s)
    (value : v (x s.team)) : Yields .sx i s w l wr v :=
  ⟨_, value, eq_guarded run ready⟩

/-- An operation without a guard issues with its value. -/
theorem yields_plain (run : exec i s = .next (sxPlain i w l (fun t => wr (x t)) s)) (room : Room s 1)
    (value : i.wf = true → v (x s.team)) (wf : i.wf = true) : Yields .sx i s w l wr v :=
  ⟨_, value wf, eq_plain run wf room⟩

end

/-! ## Immediate forms (R206, R208) -/

theorem pos_lt (f : IForm) : f.pos < 64 := (f.imm.extractLsb' 8 6).isLt

/-- R208: bit `k` of an EXT's result. -/
theorem extField_bit (f : IForm) (x : Double) {k : Nat} (hk : k < 64) :
    (extField x f.pos f.len (f.imm.getLsbD 7)).getLsbD k =
      if f.pos + k ≤ min 63 (f.pos + (f.len - 1)) then x.getLsbD (f.pos + k)
      else f.imm.getLsbD 7 && x.getLsbD (min 63 (f.pos + (f.len - 1))) :=
  ext_bit x f.pos f.len k _ (pos_lt f) (Nat.succ_pos _) hk

/-- R208: LIH replaces the one chunk of 16 bits that it names. -/
theorem lih_bit (l : LForm) (x : Double) {k : Nat} (hk : k < 64) :
    (insField x (l.imm.setWidth 64) (16 * (l.imm.extractLsb' 16 2).toNat) 16).getLsbD k =
      if k / 16 = (l.imm.extractLsb' 16 2).toNat then l.imm.getLsbD (k % 16) else x.getLsbD k := by
  rw [ins_bit _ _ _ _ _ hk]
  generalize (l.imm.extractLsb' 16 2).toNat = c
  by_cases h : k / 16 = c
  · have inside : 16 * c ≤ k ∧ k < 16 * c + 16 := by omega
    have offset : k - 16 * c = k % 16 := by omega
    have low : k % 16 < 64 := by omega
    rw [if_pos inside, if_pos h, offset, BitVec.getLsbD_setWidth, decide_eq_true low, Bool.true_and]
  · rw [if_neg (by omega), if_neg h]

/-- Settles O1: every form is one of `sxPlain`, and the fields of EXT, INS and LIH are those of `ext_bit` and `ins_bit`. -/
theorem scalarImmediates : Obligations.ScalarImmediates := by
  unfold Obligations.ScalarImmediates
  intro f l s room
  refine ⟨yields_plain rfl room fun _ => rfl, yields_plain rfl room fun _ => rfl, yields_plain rfl room fun _ => rfl,
    yields_plain rfl room fun _ => rfl, yields_plain rfl room fun wf => ?_, yields_plain rfl room fun wf => ?_,
    yields_plain rfl room fun wf => ?_, yields_plain rfl room fun _ k hk => extField_bit f _ hk,
    yields_plain rfl room fun _ k hk => ins_bit _ _ _ _ _ hk, yields_plain rfl room fun _ => rfl,
    yields_plain rfl room fun _ k hk => lih_bit l _ hk⟩
  · exact congrArg (s.team.rs f.a <<< ·) (amount_eq f wf)
  · exact congrArg (s.team.rs f.a >>> ·) (amount_eq f wf)
  · exact congrArg (s.team.rs f.a).sshiftRight (amount_eq f wf)

/-! ## Logic and shifts (R205) -/

/-- R205: the shift amount of a pattern is that of its register. -/
theorem amount_pattern (f : RForm) (y : Double) : (pattern f y).toNat % iw f = y.toNat % iw f := by
  rw [pattern, BitVec.toNat_setWidth, mod_mod_iw]

/-- The integer that R204 reads is one of its pattern. -/
theorem ofInt_int (f : RForm) (x : Double) : BitVec.ofInt (iw f) (f.int x) = pattern f x := by
  rw [operand_eq]
  unfold operand pattern
  split
  · rw [BitVec.ofInt_natCast, BitVec.ofNat_toNat, BitVec.setWidth_eq]
  · exact BitVec.ofInt_toInt

theorem shl_pattern (f : RForm) (x : Double) (n : Nat) : BitVec.ofInt (iw f) (f.int x * 2 ^ n) = pattern f x <<< n := by
  have power : BitVec.ofInt (iw f) (2 ^ n) = BitVec.twoPow (iw f) n := by
    refine BitVec.eq_of_toNat_eq ?_
    rw [BitVec.toNat_twoPow, BitVec.toNat_ofInt]
    norm_cast
  rw [BitVec.ofInt_mul, ofInt_int, power, BitVec.shiftLeft_eq_mul_twoPow]

theorem shr_pattern (f : RForm) (x : Double) (n : Nat) :
    BitVec.ofInt (iw f) ((f.pattern x / 2 ^ n : Nat) : Int) = pattern f x >>> n := by
  rw [pattern_nat, BitVec.ofInt_natCast, ← Nat.shiftRight_eq_div_pow, ← BitVec.toNat_ushiftRight, BitVec.ofNat_toNat,
    BitVec.setWidth_eq]

theorem shra_pattern (f : RForm) (x : Double) (n : Nat) :
    BitVec.ofInt (iw f) (readInt true f.width x.toNat / 2 ^ n) = (pattern f x).sshiftRight n := by
  rw [width_eq, readInt_signed _ _ (iw_pos f), BitVec.ofNat_toNat, BitVec.sshiftRight, Int.shiftRight_eq_div_pow]
  push_cast
  rfl

/-! ## Counts (R207) -/

/-- R207: CLZ's result counts the zeros above the highest bit that is set. -/
theorem leadingZeros_spec (w : Nat) (p : BitVec w) : leadingZeros w p.toNat ≤ w ∧
    (∀ k, w - leadingZeros w p.toNat ≤ k → p.getLsbD k = false) ∧
    (leadingZeros w p.toNat < w → p.getLsbD (w - leadingZeros w p.toNat - 1) = true) := by
  unfold leadingZeros
  split
  · next zero =>
    have none_ : p = 0#w := BitVec.eq_of_toNat_eq (by simpa using zero)
    simp [none_]
  · next pos =>
    have high : p.toNat.log2 < w := (Nat.log2_lt pos).2 p.isLt
    refine ⟨by omega, fun k hk => ?_, fun _ => ?_⟩
    · have above : p.toNat < 2 ^ k := (Nat.log2_lt pos).1 (by omega)
      rw [← BitVec.testBit_toNat, Nat.testBit_lt_two_pow above]
    · rw [show w - (w - 1 - p.toNat.log2) - 1 = p.toNat.log2 by omega, ← BitVec.testBit_toNat]
      exact Nat.testBit_log2 pos

/-- R207: POPC counts the bits of its pattern that are set. -/
theorem popCount_pattern (f : RForm) (x : Double) :
    popCount (dbl (f.pattern x)) = (List.range (iw f)).countP fun k => x.getLsbD k := by
  rw [popCount, foldl_count, Nat.zero_add, RForm.pattern, width_eq]
  exact count_low x _ (iw_le f)

theorem toNat_dbl {n : Nat} (h : n ≤ 64) : (dbl n).toNat = n :=
  (BitVec.toNat_ofNat ..).trans (Nat.mod_eq_of_lt (by omega))

/-! ## Integer operations (R205, R207) -/

/-- R205: what the eight operations on exact integers compute. -/
theorem integralForms : Integral .add (fun _ => 1) (fun _ x y => x + y) ∧ Integral .sub (fun _ => 1) (fun _ x y => x - y) ∧
    Integral .mul (fun _ => 3) (fun _ x y => x * y) ∧ Integral .mulh (fun _ => 3) (fun f x y => x * y / 2 ^ iw f) ∧
    Integral .div (fun s => lat s 22 20) quotient ∧ Integral .rem (fun s => lat s 22 20) (fun _ x y => rest x y) ∧
    Integral .min (fun _ => 1) (fun _ x y => min x y) ∧ Integral .max (fun _ => 1) (fun _ x y => max x y) := by
  refine ⟨integral fun _ _ => rfl, integral fun _ _ => rfl, integral fun _ _ => rfl, integral fun f s => ?_,
    integral fun f s => ?_, integral fun _ _ => rfl, integral fun _ _ => rfl, integral fun _ _ => rfl⟩
  · rw [← width_eq]
    rfl
  · have same : quotient f = quot f.width := by
      rw [width_eq]
      rfl
    rw [same]
    rfl

/-- R205: the logic operations and the shifts. -/
theorem bitwiseForms : Bitwise .and (fun _ x y => x &&& y) ∧ Bitwise .or (fun _ x y => x ||| y) ∧
    Bitwise .xor (fun _ x y => x ^^^ y) ∧ Bitwise .shl (fun f x y => x <<< (y.toNat % iw f)) ∧
    Bitwise .shr (fun f x y => x >>> (y.toNat % iw f)) ∧ Bitwise .shra (fun f x y => x.sshiftRight (y.toNat % iw f)) := by
  refine ⟨bitwise (fun _ => rfl) (fun _ _ => rfl) fun _ _ _ => rfl, bitwise (fun _ => rfl) (fun _ _ => rfl) fun _ _ _ => rfl,
    bitwise (fun _ => rfl) (fun _ _ => rfl) fun _ _ _ => rfl, shift (fun _ => rfl) (fun _ _ => rfl) fun f x y => ?_,
    shift (fun _ => rfl) (fun _ _ => rfl) fun f x y => ?_, shift (fun _ => rfl) (fun _ _ => rfl) fun f x y => ?_⟩
  all_goals rw [amount_pattern]
  · exact shl_pattern f x _
  · exact shr_pattern f x _
  · exact shra_pattern f x _

theorem exec_clz (f : RForm) (s : State) : exec (.clz f) s = .next (sxGuarded (.clz f) f.g (iw f) 1
    (fun t => .s f.d (dbl (leadingZeros (iw f) (pattern f (t.rs f.a)).toNat))) s) := by
  simp only [← pattern_nat, ← width_eq]
  rfl

theorem exec_popc (f : RForm) (s : State) : exec (.popc f) s = .next (sxGuarded (.popc f) f.g (iw f) 1
    (fun t => .s f.d (dbl (popCount (dbl (f.pattern (t.rs f.a)))))) s) := by
  rw [← width_eq]
  rfl

theorem exec_cmp {f : RForm} (listed : f.cond ≠ 7) (s : State) : exec (.cmp f) s = .next (sxGuarded (.cmp f) f.g (iw f) 1
    (fun t => .p f.pd (Compares f.cond (pattern f (t.rs f.a)) (pattern f (t.rs f.b)))) s) := by
  simp only [pattern, ← icond_eq (iw_pos f) listed _ _ (iw_le f), ← width_eq]
  rfl

theorem exec_cmpi {f : IForm} (listed : f.d.extractLsb' 3 3 ≠ 7) (s : State) : exec (.cmpi f) s = .next (sxPlain (.cmpi f) 64 1
    (fun t => .p (f.d.extractLsb' 0 3) (Compares (f.d.extractLsb' 3 3) (t.rs f.a) (f.imm.signExtend 64))) s) := by
  have same : ∀ x y : Double, Compares (f.d.extractLsb' 3 3) x y = icond (f.d.extractLsb' 3 3) 64 x.toNat y.toNat := by
    intro x y
    rw [icond_eq (by decide) listed x y (le_refl 64), BitVec.setWidth_eq, BitVec.setWidth_eq]
  simp only [same]
  rfl

theorem cmp_listed {f : RForm} (wf : (Instr.cmp f).wf = true) : f.cond ≠ 7 := by
  have listed : f.okCmp = true := wf
  simp only [RForm.okCmp, Bool.and_eq_true, bne_iff_ne] at listed
  exact listed.1

/-- Settles O2: the exact, the bitwise and the counting operations by what they compute, compares by their condition. -/
theorem scalarArithmeticAndLogic : Obligations.ScalarArithmeticAndLogic := by
  unfold Obligations.ScalarArithmeticAndLogic
  refine ⟨integralForms, bitwiseForms, fun f s ready => yields_guarded (exec_clz f s) ready ?_,
    fun f s ready => yields_guarded (exec_popc f s) ready ?_, fun f s ready => eq_guarded (exec_cmp (cmp_listed ready.1) s) ready,
    fun f s wf room => eq_plain (exec_cmpi (by simpa [Instr.wf] using wf) s) wf room,
    fun f s wf room => yields_plain (x := fun t => if t.rp f.g then t.rs f.a else t.rs f.b) rfl room (fun _ => rfl) wf⟩
  · obtain ⟨le, clear, set⟩ := leadingZeros_spec (iw f) (pattern f (s.team.rs f.a))
    rw [toNat_dbl (le.trans (iw_le f))]
    exact ⟨le, clear, set⟩
  · rw [popCount_pattern]
    exact toNat_dbl ((List.countP_le_length ..).trans (List.length_range.le.trans (iw_le f)))

/-! ## Floating operations (R209 to R212) -/

section

variable {i : RForm → Instr} {l32 l64 : Nat} {op : FFmt → Rnd → Nat → Nat → Nat → Nat}

/-- What a floating operation with a latency in its format puts in flight. -/
def FloatRun (i : RForm → Instr) (l : RForm → Nat) (op : FFmt → Rnd → Nat → Nat → Nat → Nat) : Prop :=
  ∀ f s, exec (i f) s = .next (sxGuarded (i f) f.g f.ffmt.width (l f) (fun t => .s f.d (dbl (op f.ffmt (t.mode f.lo3.toNat)
    (fltBits f.ffmt (t.rs f.a)) (fltBits f.ffmt (t.rs f.b)) (fltBits f.ffmt (t.rs f.d))))) s)

/-- A floating operation of one latency. -/
theorem floating_fixed {l : Nat} (run : FloatRun i (fun _ => l) op) (rm : ∀ f, (i f).wf = true → rmOk f.lo3 = true) :
    Floating i l l op :=
  floating run (fun _ _ => rfl) (fun _ _ => rfl) rm fun _ _ _ _ _ => rfl

/-- A division or a root. -/
theorem floating_divRoot (run : FloatRun i divRootLat op) (rm : ∀ f, (i f).wf = true → rmOk f.lo3 = true) : Floating i 12 18 op :=
  floating run (fun _ => divl0) (fun _ => divl1) rm fun _ _ _ _ _ => rfl

end

theorem floatingForms : Floating .fadd 4 4 (fun f m a b _ => f.add m a b) ∧ Floating .fsub 4 4 (fun f m a b _ => f.sub m a b) ∧
    Floating .fmul 4 4 (fun f m a b _ => f.mul m a b) ∧ Floating .ffma 4 4 (fun f m a b d => f.fma m a b d) ∧
    Floating .fdiv 12 18 (fun f m a b _ => f.div m a b) ∧ Floating .fsqrt 12 18 (fun f m a _ _ => f.sqrt m a) ∧
    Floating .fmin 2 2 (fun f _ a b _ => f.min a b) ∧ Floating .fmax 2 2 (fun f _ a b _ => f.max a b) ∧
    Floating .fclass 2 2 (fun f _ a _ _ => fclass f a) :=
  ⟨floating_fixed (fun _ _ => rfl) fun _ => fp_rm, floating_fixed (fun _ _ => rfl) fun _ => fp_rm,
    floating_fixed (fun _ _ => rfl) fun _ => fp_rm, floating_fixed (fun _ _ => rfl) fun _ => fp_rm,
    floating_divRoot (fun _ _ => rfl) fun _ => fp_rm,
    floating_divRoot (fun _ _ => rfl) fun _ wf => fp_rm (Bool.and_eq_true_iff.1 wf).1,
    floating_fixed (fun _ _ => rfl) fun _ => fp0_rm, floating_fixed (fun _ _ => rfl) fun _ => fp0_rm,
    floating_fixed (fun _ _ => rfl) fun _ wf => fp0_rm (Bool.and_eq_true_iff.1 wf).1⟩

/-- The operation code of FSGN is one of three, and selects a sign (R212). -/
theorem fsgnSign_eq {f : RForm} (wf : (Instr.fsgn f).wf = true) (a b : Bool) :
    fsgnSign (f.fn.extractLsb' 0 2).toNat a b = signOf f.lo3 a b := by
  have listed : f.lo3 ≤ 2 := by
    simp only [Instr.wf, Bool.and_eq_true, decide_eq_true_eq] at wf
    exact wf.2
  have low : f.fn.extractLsb' 0 2 = f.lo3.extractLsb' 0 2 := by
    rw [RForm.lo3, BitVec.extractLsb'_extractLsb'_of_le (by decide)]
  rw [low]
  revert listed
  generalize f.lo3 = op
  revert op a b
  decide

/-- R212: FSGN's result in f32 and in f64: the sign that its code selects over the operand's other bits. -/
theorem fsgn32_bits (op : Bool) (x : Double) : dbl (single x % 2 ^ 31 + if op then 2 ^ 31 else 0) =
    (BitVec.ofBool op ++ x.extractLsb' 0 31).setWidth 64 := by
  have low : BitVec.ofNat 31 (single x) = x.extractLsb' 0 31 := by
    rw [single, BitVec.ofNat_toNat, ← BitVec.setWidth_eq_extractLsb' (by decide), ← BitVec.setWidth_eq_extractLsb' (by decide),
      BitVec.setWidth_setWidth_of_le _ (by decide)]
  rw [sgn_join 31 (by decide), low]

@[inherit_doc fsgn32_bits]
theorem fsgn64_bits (op : Bool) (x : Double) : dbl (x.toNat % 2 ^ 63 + if op then 2 ^ 63 else 0) =
    BitVec.ofBool op ++ x.extractLsb' 0 63 := by
  have low : BitVec.ofNat 63 x.toNat = x.extractLsb' 0 63 := by
    rw [BitVec.ofNat_toNat, BitVec.setWidth_eq_extractLsb' (by decide)]
  rw [sgn_join 63 (by decide), low]
  exact BitVec.setWidth_eq _

/-- What FSGN puts in flight: its value in its format. -/
theorem exec_fsgn {f : RForm} (wf : (Instr.fsgn f).wf = true) (s : State) :
    exec (.fsgn f) s = .next (sxGuarded (.fsgn f) f.g f.ffmt.width 2 (fun t => .s f.d
      (dbl (fltBits f.ffmt (t.rs f.a) % 2 ^ (f.ffmt.eb + f.ffmt.fb) + if signOf f.lo3 (f.ffmt.sign (fltBits f.ffmt (t.rs f.a)))
        (f.ffmt.sign (fltBits f.ffmt (t.rs f.b))) then 2 ^ (f.ffmt.eb + f.ffmt.fb) else 0))) s) := by
  simp only [← fsgnSign_eq wf]
  rfl

theorem exec_fcmp (f : RForm) (s : State) : exec (.fcmp f) s = .next (sxGuarded (.fcmp f) f.g f.ffmt.width 2 (fun t => .p f.pd
    (FCompares f.ffmt f.cond (fltBits f.ffmt (t.rs f.a)) (fltBits f.ffmt (t.rs f.b)))) s) := by
  simp only [← fcond_eq]
  rfl

/-- Settles O3: the arithmetic by its format and rounding mode, FSGN by its sign, FCMP and FCVT by their codes. -/
theorem scalarFloating : Obligations.ScalarFloating := by
  unfold Obligations.ScalarFloating
  obtain ⟨add, sub, mul, fma, div, sqrt, min, max, cls⟩ := floatingForms
  refine ⟨add, sub, mul, fma, div, sqrt, min, max, cls, fun f s ready => ?_, fun f s ready => ?_, fun f s ready => ?_⟩
  · have run := exec_fsgn ready.1 s
    refine ⟨fun format => ?_, fun format => ?_⟩
    · rw [ffmt0 format] at run
      refine yields_guarded run ready ?_
      rw [single_eq, single_eq, sign32, sign32]
      exact fsgn32_bits _ _
    · rw [ffmt1 format] at run
      refine yields_guarded run ready ?_
      rw [double_eq, double_eq, sign64, sign64]
      exact fsgn64_bits _ _
  · have run := eq_guarded (exec_fcmp f s) ready
    refine ⟨fun format => ?_, fun format => ?_⟩
    · rw [ffmt0 format, single_eq, single_eq] at run
      exact run
    · rw [ffmt1 format, double_eq, double_eq] at run
      exact run
  · have rounding : rmOk f.lo3 = true := by
      have wf := ready.1
      simp only [Instr.wf, Bool.and_eq_true] at wf
      exact wf.2
    refine yields_guarded rfl ready ?_
    rw [mode_eq s _ rounding, cvtType_eq, cvtType_eq]
    rfl

/-! ## Predicates (R213) -/

/-- PMOV's code in fn<2:0> names its form, fn<4:2> being zero. -/
theorem exec_pmov {f : RForm} {n : BitVec 3} (form : f.lo3 = n) (s : State) :
    exec (.pmov f) s = .next (sxGuarded (.pmov f) f.g 1 1 (fun t => match (n.extractLsb' 0 2).toNat with
      | 0 => .p f.pd (t.rp (reg3 f.a))
      | 1 => .p f.pd (t.rs f.a != 0)
      | _ => .s f.d (if t.rp (reg3 f.a) then 1 else 0)) s) := by
  have low : f.fn.extractLsb' 0 2 = n.extractLsb' 0 2 := by
    rw [← form, RForm.lo3, BitVec.extractLsb'_extractLsb'_of_le (by decide)]
  rw [← low]
  rfl

theorem exec_pred {i : Instr} {f : RForm} {op : Bool → Bool → Bool} {s : State} (run : exec i s = .next (sxPred i f op s))
    (ready : Ready i f.g s) : Decides .sx i s 1 1 (f.d.extractLsb' 0 3) (op (s.team.rp (f.a.extractLsb' 0 3))
      (if f.fn.getLsbD 0 then !s.team.rp (f.b.extractLsb' 0 3) else s.team.rp (f.b.extractLsb' 0 3))) := by
  have inverted : ∀ b inv : Bool, (if inv then !b else b) = (b != inv) := by decide
  rw [inverted]
  exact eq_guarded run ready

/-- Settles O4: the logic by its operation on the operand that fn<0> may invert, PMOV by its form. -/
theorem scalarPredicates : Obligations.ScalarPredicates := by
  unfold Obligations.ScalarPredicates
  intro f s
  refine ⟨exec_pred rfl, exec_pred rfl, exec_pred rfl, fun ready => ⟨fun form => eq_guarded (exec_pmov form s) ready,
    fun form => ?_, fun form => yields_guarded (exec_pmov form s) ready rfl⟩⟩
  have run := eq_guarded (exec_pmov form s) ready
  rw [Decides, show (decide (s.team.rs f.a ≠ 0)) = (s.team.rs f.a != 0) by rw [bne, beq_eq_decide, decide_not]]
  exact run

end Sys2Proof.Laws
end

section
/-! SUPPORT. The address moves and PREF issue in the AD slot (R214, R221): O5 and O7. -/

namespace Sys2Proof.Laws

open Machine Claims

/-- R115, R498: an operation that holds no reserved value and whose guard is true has its effect. -/
theorem slotOp_performed {i : Instr} {j : Slot} {g : BitVec 3} {eff : State → State} {s : State} (wf : i.wf = true)
    (guard : s.team.rp g = true) : slotOp j i (guarded j g eff) s = eff s := by
  simp [slotOp, wf, guarded, guard]

/-- Settles O5: each move is `adMove` with its value, AADDI without a guard. -/
theorem addressMoves : Obligations.AddressMoves := by
  unfold Obligations.AddressMoves
  intro f m s
  refine ⟨fun ready => ⟨_, rfl, adMove_eq ready rfl⟩, fun ready => ⟨_, rfl, adMove_eq ready rfl⟩,
    fun ready => ⟨_, rfl, adMove_eq ready rfl⟩, fun ready => ⟨_, rfl, adMove_eq ready rfl⟩,
    fun ready => ⟨_, rfl, adMove_eq ready rfl⟩, fun ready => ⟨_, rfl, adMove_eq ready rfl⟩, fun wf room => ⟨_, rfl, ?_⟩⟩
  show execAaddi m s = _
  rw [execAaddi, slotOp, if_pos wf, issue_one (by decide) room]
  rfl

/-- Settles O7: with its guard true PREF issues with no result, and with its guard false it passes. -/
theorem prefetchIsAHint : Obligations.PrefetchIsAHint := by
  unfold Obligations.PrefetchIsAHint
  intro f s wf
  refine ⟨fun guard => ?_, fun guard => ?_⟩
  all_goals show execPref f s = _
  · rw [execPref, slotOp_performed wf guard, issue_none (by decide)]
  · rw [execPref, slotOp_guarded rfl wf guard]
    rfl

end Sys2Proof.Laws
end

section
/-! SUPPORT. CSRR and CSRW (R178 to R180, R501): what each number reads, and what a write of it changes: O6. -/

namespace Sys2Proof.Laws

open Machine Claims

/-! ## What CSRR reads (R178, R179) -/

/-- The numbers that R178 lists. -/
def csrNumbers : List (BitVec 12) :=
  [0x000, 0x001, 0x002, 0x003, 0x004, 0x005, 0x006, 0x008, 0x009, 0x00a, 0x00b, 0x00c, 0x00d, 0x00e, 0x00f, 0x010, 0x011, 0x018,
   0x019, 0x01a, 0x01b, 0x020, 0x021, 0x030, 0x031, 0x032, 0x033, 0x034, 0x035, 0x036, 0x037]

theorem systemRegisters_numbers (s : State) (q : Placed) : (systemRegisters s q).map (·.1) = csrNumbers := rfl

/-- R178, R179: every register of the table reads as the table says. -/
theorem csrValue_listed {s : State} {q : Placed} (here : s.team.placedAt (s.team.passed .ad) = some q) :
    ∀ p ∈ systemRegisters s q, csrValue s p.1 = some p.2 := by
  have bpc : csrValue s 0x002 = some (dbl q.bpc) := by
    show some (dbl (((s.team.placedAt _).map _).getD _)) = _
    rw [here]
    rfl
  have lcnt : csrValue s 0x006 = some (q.lcnt.setWidth 64) := by
    show some (BitVec.setWidth 64 (((s.team.placedAt _).map _).getD _)) = _
    rw [here]
    rfl
  simp only [systemRegisters, List.forall_mem_cons]
  refine ⟨rfl, rfl, bpc, rfl, rfl, rfl, lcnt, rfl, rfl, rfl, rfl, rfl, rfl, rfl, rfl, rfl, rfl, rfl, rfl, rfl, rfl, rfl, rfl, rfl,
    rfl, rfl, rfl, rfl, rfl, rfl, rfl, fun _ none_ => nomatch none_⟩

/-- R501: a number that the table does not list has no register. -/
theorem csrValue_unlisted (s : State) {n : BitVec 12} (h : n ∉ csrNumbers) : csrValue s n = none := by
  have no : ∀ k, BitVec.ofNat 12 k ∈ csrNumbers → n.toNat ≠ k := by
    rintro k listed rfl
    rw [BitVec.ofNat_toNat, BitVec.setWidth_eq] at listed
    exact h listed
  unfold csrValue
  dsimp only
  split
  case h_32 => rfl
  all_goals next e => exact absurd e (no _ (by decide))

/-! ## What CSRW may write (R178, R180, R501) -/

theorem csrWritable_iff (n : BitVec 12) : csrWritable n = true ↔ Writable n := by
  simp [csrWritable, Writable]

theorem csrReserved_iff (n : BitVec 12) (x : Double) :
    csrReserved n x = true ↔ n = 0 ∧ (x.extractLsb' 0 3 = 0 ∨ 4 < x.extractLsb' 0 3) := by
  have code : field x 2 0 = (x.extractLsb' 0 3).toNat := by simp [field]
  unfold csrReserved
  rw [code]
  generalize x.extractLsb' 0 3 = rm
  have listed : ∀ rm : BitVec 3, (rm.toNat = 0 || decide (4 < rm.toNat)) = true ↔ rm = 0 ∨ 4 < rm := by decide
  rw [Bool.and_eq_true, decide_eq_true_eq, listed]

/-! ## What a write of a system register changes (R179, R180, R182, R183) -/

/-- TSW after a write: the new rounding mode, and bit 8 cleared where a one is written (R180). -/
def tswWritten (w x : Double) : Double :=
  let w' := setField w 2 0 (field x 2 0)
  if x.getLsbD 8 then setField w' 8 8 0 else w'

theorem tswWritten_bit (w x : Double) {k : Nat} (hk : k < 64) : (tswWritten w x).getLsbD k =
    if k < 3 then x.getLsbD k else w.getLsbD k && !(decide (k = 8) && x.getLsbD 8) := by
  have mode : (setField w 2 0 (field x 2 0)).getLsbD k = if k < 3 then x.getLsbD k else w.getLsbD k := by
    rw [setField_bit _ _ _ _ _ hk (by decide)]
    by_cases low : k < 3
    · rw [if_pos (by omega), if_pos low, field, Nat.pow_zero, Nat.div_one, Nat.testBit_mod_two_pow, BitVec.testBit_toNat]
      simp [low]
    · rw [if_neg (by omega), if_neg low]
  unfold tswWritten
  dsimp only
  cases sticky : x.getLsbD 8 with
  | false => simp [mode]
  | true =>
    rw [if_pos rfl, setField_bit _ _ _ _ _ hk (le_refl 8), mode]
    by_cases eight : k = 8
    · simp [eight]
    · rw [if_neg (by omega)]
      simp [eight]

theorem tswWritten_mode (w x : Double) : (tswWritten w x).extractLsb' 0 3 = x.extractLsb' 0 3 := by
  refine BitVec.eq_of_getLsbD_eq fun k hk => ?_
  rw [BitVec.getLsbD_extractLsb', BitVec.getLsbD_extractLsb', Nat.zero_add, tswWritten_bit w x (by omega), if_pos hk]

theorem vput_past {α : Type} {n : Nat} (v : Vector α n) {i : Nat} (x : α) (h : n ≤ i) : vput v i x = v :=
  Vector.setIfInBounds_eq_of_size_le h

/-- A write of a system register: TSW, the YLS or the NSM of its number (R179), and no register where it has none. -/
theorem writeCsr_eq (t : Team) (n : BitVec 12) (x : Double) : t.writeCsr n x = { t with
    tsw := if n.toNat = 0 then tswWritten t.tsw x else t.tsw,
    yls := if n.toNat < 8 then t.yls else vput t.yls (n.toNat - 8) x,
    nsm := if n.toNat < 12 then t.nsm else vput t.nsm (n.toNat - 12) x } := by
  unfold Team.writeCsr
  split
  case h_10 =>
    simp only [imp_false] at *
    next no _ _ _ _ _ _ _ _ =>
    by_cases low : n.toNat < 8
    · rw [if_neg no, if_pos low, if_pos (by omega)]
    · have high : 16 ≤ n.toNat := by omega
      rw [if_neg no, if_neg low, if_neg (by omega), vput_past _ _ (by omega), vput_past _ _ (by omega)]
  all_goals next number =>
    rw [number]
    simp [tswWritten, vput_past]

/-- Element `j` of four registers with the numbers from `base` up, after a write of number `n`. -/
theorem vput_numbered (v : Vector Double 4) (base n : Nat) (x : Double) (j : Fin 4) :
    (if n < base then v else vput v (n - base) x)[j] = if n = base + j then x else v[j] := by
  by_cases low : n < base
  · have other : n ≠ base + j := by omega
    simp [low, other]
  · have same : n - base = j ↔ n = base + j := by omega
    simp only [low, if_false, Fin.getElem_fin, vput, Vector.getElem_setIfInBounds, same]

/-- R179, R180, R182, R183: what a CSRW leaves in the team's registers. -/
theorem writeCsr_spec (t : Team) (n : BitVec 12) (x : Double) :
    t.writeCsr n x = { t with tsw := (t.writeCsr n x).tsw, yls := (t.writeCsr n x).yls, nsm := (t.writeCsr n x).nsm } ∧
    (n ≠ 0 → (t.writeCsr n x).tsw = t.tsw) ∧
    (n = 0 → (t.writeCsr n x).tsw.extractLsb' 0 3 = x.extractLsb' 0 3 ∧
      (t.writeCsr n x).tsw.getLsbD 8 = (t.tsw.getLsbD 8 && !x.getLsbD 8) ∧
      ∀ k, 3 ≤ k → k ≠ 8 → (t.writeCsr n x).tsw.getLsbD k = t.tsw.getLsbD k) ∧
    (∀ j : Fin 4, (t.writeCsr n x).yls[j] = if n.toNat = 8 + j then x else t.yls[j]) ∧
    (∀ j : Fin 4, (t.writeCsr n x).nsm[j] = if n.toNat = 12 + j then x else t.nsm[j]) := by
  rw [writeCsr_eq]
  refine ⟨rfl, fun other => if_neg fun h => other (BitVec.eq_of_toNat_eq h), fun zero => ?_, fun j => ?_, fun j => ?_⟩
  · dsimp only
    rw [if_pos (show n.toNat = 0 from congrArg BitVec.toNat zero)]
    refine ⟨tswWritten_mode _ _, (tswWritten_bit _ _ (by decide)).trans (by simp), fun k low other => ?_⟩
    by_cases hk : k < 64
    · rw [tswWritten_bit _ _ hk, if_neg (by omega)]
      simp [other]
    · rw [BitVec.getLsbD_of_ge _ _ (by omega), BitVec.getLsbD_of_ge _ _ (by omega)]
  · exact vput_numbered t.yls 8 n.toNat x j
  · exact vput_numbered t.nsm 12 n.toNat x j

section

variable {f : RForm} {s : State}

/-- R179, R501: CSRR of a register that has a value, and of a number that has none. -/
theorem csrr_eq (wf : (Instr.csrr f).wf = true) : exec (.csrr f) s = .next (match csrValue s (csrOf f) with
    | none => takeTrap .ad (.csrr f) 0x0011 0 s
    | some x => guarded .ad f.g (fun s => issue .ad (.csrr f) 64 [(1, .s f.d x)] s) s) := by
  show execCsrr f s = _
  rw [execCsrr, slotOp, if_pos wf]
  rfl

/-- R179, R501: CSRW of a register that a team may not write, and of one that it may. -/
theorem csrw_eq (wf : (Instr.csrw f).wf = true) : exec (.csrw f) s = .next (if csrWritable (csrOf f) then
      guarded .ad f.g (fun s => if csrReserved (csrOf f) (s.team.rs f.d) then takeTrap .ad (.csrw f) 0x0011 0 s
        else issue .ad (.csrw f) 64 [(1, .csr (csrOf f) (s.team.rs f.d))] s) s
    else takeTrap .ad (.csrw f) 0x0011 0 s) := by
  show execCsrw f s = _
  rw [execCsrw, slotOp, if_pos wf, show csrNum f = csrOf f from rfl]
  cases csrWritable (csrOf f) <;> rfl

end

/-- Settles O6: the table lists what `csrValue` answers, and `writeCsr_eq` says what a write changes. -/
theorem systemRegisters : Obligations.SystemRegisters := by
  unfold Obligations.SystemRegisters
  refine ⟨fun f s q wf here => ⟨fun x listed guard room => ⟨x, rfl, ?_⟩, fun trap unlisted => ?_⟩, fun f s wf => ?_⟩
  · rw [csrr_eq wf, csrValue_listed here _ listed]
    dsimp only
    rw [guarded, if_pos guard, issue_one (by decide) room]
  · have none_ : csrOf f ∉ csrNumbers := by
      rw [← systemRegisters_numbers s q, List.mem_map]
      rintro ⟨⟨n, x⟩, listed, rfl⟩
      exact unlisted x listed
    rw [Raises, csrr_eq wf, csrValue_unlisted s none_]
    exact congrArg _ (takeTrap_eq trap)
  · have writable := csrWritable_iff (csrOf f)
    have reserved := csrReserved_iff (csrOf f) (s.team.rs f.d)
    refine ⟨fun guard room may good => ?_, fun trap mayNot => ?_, fun trap guard bad => ?_, fun t => ⟨_, rfl, writeCsr_spec t _ _⟩⟩
    · rw [csrw_eq wf, if_pos (writable.2 may), guarded, if_pos guard, if_neg (mt reserved.1 good), issue_one (by decide) room]
    · rw [Raises, csrw_eq wf, if_neg (mt writable.1 mayNot), takeTrap_eq trap]
    · rw [Raises, csrw_eq wf, if_pos (writable.2 (.inl bad.1)), guarded, if_pos guard, if_pos (reserved.2 bad), takeTrap_eq trap]

end Sys2Proof.Laws
end

section
/-! SUPPORT. Branches (R186 to R188, R88, R91, R506, R507): where dispatch goes on, the delay bundle, the link and the traps: O37. -/

namespace Sys2Proof.Laws

open Machine Claims

/-! ## A bundle is placed outside a delay bundle (R68, R90) -/

theorem advance_link (t : Team) : t.advance.link = t.link := by
  obtain ⟨_, _, _, e, -⟩ := advance_eq (s := { State.reset with team := t }) (t := t) rfl rfl
  rw [e]

/-- R90, R106, R189: the next body bundle, the next pass, the bundle behind the loop, or the next address. -/
theorem goesOn_onward {s t : State} {u : Team} (delay : s.team.delay = none) (loop : u.loop = s.team.loop) (bpc : u.bpc = s.team.bpc)
    (cur : u.cur = s.team.cur) (pc' : t.team.pc = u.onward.pc) (loop' : t.team.loop = u.onward.loop) : GoesOn s t := by
  unfold GoesOn
  rw [delay, pc', loop']
  unfold Team.onward
  rw [loop, bpc, cur]
  cases s.team.loop with
  | none => exact ⟨rfl, rfl⟩
  | some l =>
    dsimp only [lastOf]
    by_cases inner : l.idx + 1 < l.body.length
    · simp [inner, Nat.not_le.2 inner]
    · by_cases last : l.left ≤ 1
      · simp [inner, last, Nat.not_lt.1 inner]
      · simp [inner, last, Nat.not_lt.1 inner]

/-- Energy is none of what a team is once its bundle has entered the queues (R441). -/
theorem Entered.retire {s : State} {ws : List Write} {t : Team} (inside : Entered s ws t) (c : Core) (d : Domain) (e : Option (Nat × Nat)) :
    Entered s ws (Machine.retire c d e t) := by
  cases e with
  | none => exact inside
  | some e => exact { inside with }

theorem retire_next (c : Core) (d : Domain) (e : Option (Nat × Nat)) (t : Team) : (Machine.retire c d e t).pc = t.pc ∧
    (Machine.retire c d e t).loop = t.loop ∧ (Machine.retire c d e t).link = t.link := by
  cases e <;> exact ⟨rfl, rfl, rfl⟩

section

variable {i : Instr} {s : State} {ws : List Write}

/-- The CT slot has passed the new position. -/
theorem Entered.moved {t : Team} (inside : Entered s ws t) : t.passed .ct = s.team.passed .ct + 1 := by
  show vget t.pass 0 0 = _
  rw [inside.pass, vget_vput_same _ _ _ _ (by decide)]

theorem advance_undelayed {t : Team} (delay : t.delay = none) : t.advance = { t.onward with delay := none } := by
  rw [Team.advance, delay]

/-- The bundle at hand enters the queues, dispatch goes on, and the CT operation has its effect there. -/
theorem placeThen_eq (h : AtDispatch i s) (delay : s.team.delay = none) (few : ws.length ≤ 1) : ∃ t c,
    c.wsum = s.core.wsum + s.core.weight s.team.cur.e ∧ Entered s ws t ∧ GoesOn s { s with team := t, core := c } ∧
      t.link = s.team.link ∧ ∀ eff, placeThen i ws none eff s = eff { s with team := t, core := c } := by
  obtain ⟨c, sum, placed⟩ := place_eq ws none h i few
  obtain ⟨u, eq, loop, straight, bpc, cur, -⟩ := enqueue_eq (ctEnergy i) ws none s.team
  have link : (s.team.enqueue (ctEnergy i) ws none).link = s.team.link := advance_link _
  have next := advance_undelayed (straight.trans delay)
  have goes : ∀ t c', t.pc = (s.team.enqueue (ctEnergy i) ws none).pc → t.loop = (s.team.enqueue (ctEnergy i) ws none).loop →
      GoesOn s { s with team := t, core := c' } := by
    intro t c' pc' loop'
    rw [eq, next] at pc' loop'
    exact goesOn_onward delay loop bpc cur pc' loop'
  obtain ⟨t, team, inside, onward, same⟩ : ∃ t, place i ws none s = { s with team := t, core := c } ∧ Entered s ws t ∧
      GoesOn s { s with team := t, core := c } ∧ t.link = s.team.link := by
    refine ⟨_, placed, ?_⟩
    split
    · obtain ⟨pc', loop', link'⟩ := retire_next s.core .core (ctEnergy i) (s.team.enqueue (ctEnergy i) ws none)
      exact ⟨(entered_enqueue _ ws none).retire _ _ _, goes _ _ pc' loop', link'.trans link⟩
    · exact ⟨entered_enqueue _ ws none, goes _ _ rfl rfl, link⟩
  refine ⟨t, c, sum, inside, onward, same, fun eff => ?_⟩
  have moves : (place i ws none s).team.passed .ct ≠ s.team.passed .ct := by
    rw [team, inside.moved]
    omega
  rw [placeThen, if_neg moves, team]

end

/-! ## A branch is placed (R88, R91, R187) -/

section

variable {i : Instr} {s : State} {taken : Bool} {target : Nat} {link : Bool}

/-- A team whose branch stands in the queues: its delay bundle is next, and then the target if the branch is taken; its link may
wait for the delay bundle. -/
def branched (aim : Option Nat) (waits : Bool) (t : Team) : Team := { t with delay := some aim, link := waits || t.link }

theorem Entered.branched {ws : List Write} {t : Team} (inside : Entered s ws t) (aim : Option Nat) (waits : Bool) :
    Entered s ws (branched aim waits t) :=
  { inside with }

theorem linked_length (s : State) (link : Bool) : (linked s link).length ≤ 1 := by
  unfold linked
  split <;> simp

/-- R187: only a link whose delay bundle is not in the instruction store waits for it. -/
theorem linked_spec (s : State) (link : Bool) :
    (link = false → linked s link = []) ∧
    (∀ ct, link = true → nextCt s = some ct → linked s link = [.s 62 (BitVec.ofNat 64 (s.team.following + bundleLen ct))]) ∧
    (link = true → nextCt s = none → linked s link = []) := by
  refine ⟨?_, ?_, ?_⟩
  · rintro rfl
    rfl
  · rintro ct rfl stored
    simp only [linked, stored]
    rfl
  · rintro rfl missing
    simp only [linked, missing]

theorem linkLater_still {t : State} (still : t.team.passed .ct = s.team.passed .ct) : linkLater link s t = t := by
  simp [linkLater, still]

theorem linkLater_moved {t : State} (moved : t.team.passed .ct ≠ s.team.passed .ct) : linkLater link s t =
    t.onTeam fun u => { u with link := (link && (nextCt s).isNone) || u.link } := by
  unfold linkLater
  rw [decide_eq_true moved, Bool.and_true]
  cases link && (nextCt s).isNone <;> rfl

/-- R91: a taken branch to a target in the body of its own loop. -/
theorem branch_inside (inside : s.team.inBody target = true) :
    linkLater link s (branch i true target (linked s link) s) = ctTrap 0x0018 0 s := by
  rw [branch, inside, if_pos (Bool.and_self true)]
  exact linkLater_still rfl

theorem branch_placed (h : AtDispatch i s) (delay : s.team.delay = none) (outside : (taken && s.team.inBody target) = false) :
    ∃ t c, c.wsum = s.core.wsum + s.core.weight s.team.cur.e ∧ Entered s (linked s link) t ∧
      GoesOn s { s with team := t, core := c } ∧ t.link = s.team.link ∧
      linkLater link s (branch i taken target (linked s link) s) = { s with
        team := branched (if taken then some target else none) (link && (nextCt s).isNone) t, core := c } := by
  obtain ⟨t, c, sum, inside, onward, same, run⟩ := placeThen_eq h delay (linked_length s link)
  refine ⟨t, c, sum, inside, onward, same, ?_⟩
  rw [branch, outside, if_neg Bool.false_ne_true, run]
  refine (linkLater_moved ?_).trans rfl
  exact inside.moved.trans_ne (Nat.succ_ne_self _)

end

/-! ## What each branch computes (R186 to R188) -/

theorem branchTo_eq {w : Nat} (s : State) (off : BitVec w) : s.team.branchTo w off.toNat = (branchTarget s off).toNat := by
  rw [Team.branchTo, sextNat, BitVec.ofNat_toNat, BitVec.setWidth_eq]
  rfl

theorem inBody_iff (s : State) (x : Nat) : s.team.inBody x = true ↔ InBody s x := by
  unfold Team.inBody InBody
  cases s.team.loop with
  | none => simp
  | some l => simp

theorem brcTaken_iff (t : Team) (mode : BitVec 2) (reg : BitVec 4) : brcTaken t mode reg = true ↔
    if mode = 0 then t.rp (reg.setWidth 3) = true else if mode = 1 then t.rp (reg.setWidth 3) = false
      else if mode = 2 then t.rs (reg.setWidth 6) ≠ 0 else t.rs (reg.setWidth 6) = 0 := by
  have modes : ∀ m : BitVec 2, m = 0 ∨ m = 1 ∨ m = 2 ∨ m = 3 := by decide
  rcases modes mode with rfl | rfl | rfl | rfl <;> simp [brcTaken]

theorem brmTaken_iff (s : State) (sense : BitVec 1) (tested active : BitVec 3) :
    (decide (s.team.rm active = 0) || if sense = 0 then decide (s.team.rm tested &&& s.team.rm active = s.team.rm active)
      else decide (s.team.rm tested &&& s.team.rm active = 0)) = true ↔
    s.team.rm active = 0 ∨ if sense = 0 then maskOnes s tested active else maskZeros s tested active := by
  rw [Bool.or_eq_true, decide_eq_true_eq]
  split <;> simp [maskOnes, maskZeros]

section

variable {i : Instr} {s : State} {target : Double} {link : Bool}

/-- R187: a branch to a register that the address check passes; one into its own loop's body is refused as `branch` refuses it. -/
theorem branchReg_placed (room : placeFull (if link then 1 else 0) s = false) (good : ¬ badTarget target) :
    branchReg i target link s = linkLater link s (branch i true target.toNat (linked s link) s) := by
  rw [branchReg, room, Bool.or_false]
  by_cases inside : s.team.inBody target.toNat = true
  · rw [if_pos inside, branch_inside inside]
  · rw [if_neg inside]
    exact if_neg good

/-- R506: the address check of a register target. -/
theorem branchReg_bad (room : placeFull (if link then 1 else 0) s = false) (bad : badTarget target)
    (outside : ¬ InBody s target.toNat) : branchReg i target link s = ctTrap 0x0041 0 s := by
  rw [branchReg, room, Bool.or_false, if_neg (mt (inBody_iff s _).1 outside)]
  exact if_pos bad

end

section

variable {i : Instr} {s : State} {taken : Prop} {target : Double} {link : Bool}

/-- The branches to a register go through its address check (R187, R506). -/
theorem exec_toRegister (h : AtDispatch i s) (delay : s.team.delay = none) (is : BranchIs s i taken target link)
    (reg : toRegister i = true) : exec i s = .next (branchReg i target link s) := by
  have goes := fun eff => ctOp_of_atDispatch h eff (.inl delay)
  rcases is with ⟨off, rfl, -⟩ | ⟨off, rfl, -⟩ | ⟨mode, reg, off, rfl, -⟩ | ⟨sense, tested, active, off, rfl, -⟩ |
    ⟨n, z, rfl, -, rfl, rfl⟩ | ⟨n, z, rfl, -, rfl, rfl⟩ | ⟨z, rfl, -, rfl, rfl⟩
  case inr.inr.inr.inr.inl =>
    show execJmpr n 0 z s = _
    rw [execJmpr, goes]
    rfl
  case inr.inr.inr.inr.inr.inl =>
    show execJmpr n 1 z s = _
    rw [execJmpr, goes]
    rfl
  case inr.inr.inr.inr.inr.inr =>
    show execRet z s = _
    rw [execRet, goes]
  all_goals cases reg

/-- Every branch that no trap of its own stops is placed as `branch` says, a waiting link included. -/
theorem exec_branch (h : AtDispatch i s) (delay : s.team.delay = none) (is : BranchIs s i taken target link)
    (good : ¬ (toRegister i = true ∧ badTarget target)) : ∃ b : Bool, (b = true ↔ taken) ∧
      exec i s = .next (linkLater link s (branch i b target.toNat (linked s link) s)) := by
  have room : ∀ n, n ≤ 1 → placeFull n s = false := fun n => placeFull_of_atDispatch h
  have goes := fun eff => ctOp_of_atDispatch h eff (.inl delay)
  have plain : ∀ (b : Bool) (t : Nat), linkLater false s (branch i b t (linked s false) s) = branch i b t [] s := fun _ _ => rfl
  have form := is
  rcases form with ⟨off, rfl, rfl, rfl, rfl⟩ | ⟨off, rfl, rfl, rfl, rfl⟩ | ⟨mode, reg, off, rfl, rfl, rfl, rfl⟩ |
    ⟨sense, tested, active, off, rfl, rfl, rfl, uniform, rfl⟩ | ⟨reg, z, rfl, rfl, rfl, rfl⟩ | ⟨reg, z, rfl, rfl, rfl, rfl⟩ |
    ⟨z, rfl, rfl, rfl, rfl⟩
  · refine ⟨true, by simp, ?_⟩
    rw [plain, ← branchTo_eq]
    exact congrArg _ (goes _)
  · refine ⟨true, by simp, ?_⟩
    rw [← branchTo_eq]
    refine congrArg _ ((goes _).trans ?_)
    rw [room 1 (le_refl 1), if_neg Bool.false_ne_true]
  · refine ⟨brcTaken s.team mode reg, brcTaken_iff _ _ _, ?_⟩
    rw [plain, ← branchTo_eq]
    exact congrArg _ (goes _)
  · refine ⟨_, brmTaken_iff s sense tested active, ?_⟩
    rw [plain, ← branchTo_eq]
    refine congrArg _ ((goes _).trans ?_)
    have passes : ¬ (!decide (s.team.rm tested &&& s.team.rm active = s.team.rm active) &&
        !decide (s.team.rm tested &&& s.team.rm active = 0)) = true := by
      simpa [maskOnes, maskZeros, or_iff_not_imp_left] using uniform
    rw [if_neg passes]
  all_goals refine ⟨true, by simp, ?_⟩
  all_goals rw [exec_toRegister h delay is rfl]
  all_goals exact congrArg _ (branchReg_placed (room _ (by decide)) fun bad => good ⟨rfl, bad⟩)

/-- R187, R506: a register target with bits 1:0 or 63:56 set. -/
theorem exec_badTarget (h : AtDispatch i s) (delay : s.team.delay = none) (is : BranchIs s i taken target link)
    (reg : toRegister i = true) (bad : badTarget target) (outside : ¬ InBody s target.toNat) :
    exec i s = .next (ctTrap 0x0041 0 s) := by
  have room : placeFull (if link then 1 else 0) s = false := placeFull_of_atDispatch h (by cases link <;> decide)
  rw [exec_toRegister h delay is reg, branchReg_bad room bad outside]

/-- R188, R505: a tested mask that is neither all ones nor all zeros over the active lanes. -/
theorem exec_mixedMask {sense : BitVec 1} {tested active : BitVec 3} {off : BitVec 7} (h : AtDispatch (.brm sense tested active off) s)
    (delay : s.team.delay = none) (ones : ¬ maskOnes s tested active) (zeros : ¬ maskZeros s tested active) :
    exec (.brm sense tested active off) s = .next (ctTrap 0x0014 0 s) := by
  refine congrArg _ ((ctOp_of_atDispatch h _ (.inl delay)).trans ?_)
  have mixed : (!decide (s.team.rm tested &&& s.team.rm active = s.team.rm active) &&
      !decide (s.team.rm tested &&& s.team.rm active = 0)) = true := by
    simp only [Bool.and_eq_true, Bool.not_eq_true', decide_eq_false_iff_not]
    exact ⟨ones, zeros⟩
  rw [if_pos mixed]

end

/-- Settles O37: a branch that no trap stops is placed with its delay bundle next, and the traps are those of its target and its
mask. -/
theorem branches : Obligations.Branches := by
  unfold Obligations.Branches
  intro i s h delay
  refine ⟨fun taken target link is good => ?_, fun taken target link is reg bad outside trap => ?_, ?_⟩
  · obtain ⟨b, decides, run⟩ := exec_branch h delay is good
    refine ⟨fun outside => ?_, fun takes inside trap => ?_⟩
    · have leaves : (b && s.team.inBody target.toNat) = false := by
        rw [← Bool.not_eq_true, Bool.and_eq_true, decides, inBody_iff]
        exact outside
      obtain ⟨t, c, sum, inside, onward, same, placed⟩ := branch_placed (link := link) h delay leaves
      obtain ⟨no, stored, missing⟩ := linked_spec s link
      rw [placed] at run
      refine ⟨_, linked s link, run, enters_of_entered _ h (inside.branched _ _) sum, onward, fun takes => ?_, fun stays => ?_, no,
        fun ct links found => ⟨stored ct links found, ?_⟩, fun links lacks => ⟨missing links lacks, ?_⟩⟩
      · simp [branched, decides.2 takes]
      · simp [branched, Bool.eq_false_iff.2 (mt decides.1 stays)]
      · simp [branched, found, same]
      · simp [branched, lacks, links]
    · rw [decides.2 takes, branch_inside ((inBody_iff s _).2 inside)] at run
      rw [CtRaises, run, ctTrap_eq _ _ trap]
  · rw [CtRaises, exec_badTarget h delay is reg bad outside, ctTrap_eq _ _ trap]
  · rintro sense tested active off rfl ones zeros trap
    rw [CtRaises, exec_mixedMask h delay ones zeros, ctTrap_eq _ _ trap]

end Sys2Proof.Laws
end

section
/-! SUPPORT. LAUNCH leaves its slot for the home (R79, R220, R225, R526): O8. -/

namespace Sys2Proof.Laws

open Machine Claims

/-! ## Messages leave the memory and the acting team alone (R458) -/

theorem mem_sendOn (r : LinkReq) (s : State) : (sendOn r s).mem = s.mem := by
  unfold sendOn
  dsimp only
  split
  · rfl
  · split <;> rfl
  · split <;> rfl
  · split <;> rfl

/-- An access that goes to its home changes neither the memory nor the team. -/
theorem leaveDie_keeps (a : Access) (s : State) : (leaveDie a s).mem = s.mem ∧ (leaveDie a s).team = s.team := by
  unfold leaveDie
  dsimp only
  split
  · exact ⟨mem_sendOn .., books_team (books_sendOn ..)⟩
  · exact ⟨rfl, rfl⟩

/-! ## The access that claims a slot of the queue (R220) -/

section

variable {f : RForm} {s : State} {ps : List Part}

/-- The access as it leaves the slot, with the write that it counts as. -/
def launchAccess (f : RForm) (ps : List Part) (s : State) : Access :=
  { (newAccess .ad (.launch f) (s.team.rs f.a).toNat none false .home
      (.launch f.d (s.team.rs f.a).toNat (s.team.rs f.b).toNat) ps s).1 with wid := some (s.fresh + 1) }

/-- The write that RELC counts until it is acknowledged everywhere (R184, R225). -/
def launchWrite (f : RForm) (ps : List Part) (s : State) : PendingWrite :=
  { PendingWrite.new .ls with
    id := s.fresh + 1, pos := s.team.passed .ad,
    entries := (newAccess .ad (.launch f) (s.team.rs f.a).toNat none false .home
      (.launch f.d (s.team.rs f.a).toNat (s.team.rs f.b).toNat) ps s).1.entries { s with fresh := s.fresh + 1 } }

/-- The acting team once LAUNCH has passed: one write more, and nothing else but its positions. -/
def launching (f : RForm) (ps : List Part) (s : State) : State :=
  { s with fresh := s.fresh + 2, team := { s.team with writes := s.team.writes ++ [launchWrite f ps s] }.pass1 .ad }

theorem countStore_launch : countStore (newAccess .ad (.launch f) (s.team.rs f.a).toNat none false .home
      (.launch f.d (s.team.rs f.a).toNat (s.team.rs f.b).toNat) ps s).1 { s with fresh := s.fresh + 1 } =
    (launchAccess f ps s, { s with
      fresh := s.fresh + 2, team := { s.team with writes := s.team.writes ++ [launchWrite f ps s] } }) :=
  Prod.ext rfl (if_pos rfl)

/-- R422: an operation with no register result always has room. -/
theorem issueLater_none (j : Slot) (i : Instr) (s : State) : issueLater j i [] s = { s with team := s.team.pass1 j } := by
  have fits : s.team.flightFull ([] : List (Nat × Write)).length = false := by simp [Team.flightFull]
  rw [issueLater, fits]
  simp [landings]

/-- An access that is none of elements goes to its home from its slot (R79, R366). -/
theorem sendAccess_launch (a : Access) {n : BitVec 6} {desc src : Nat} (op : a.op = .launch n desc src) (s : State) :
    sendAccess a s = leaveDie a (sent a (.s n (Config.freeDouble s.free)) s) := by
  have stays : ∀ s, performOwn a s = (a, s) := fun s => by simp [performOwn, op, AccOp.anyOrder]
  have whole : a.op.elements = false := by rw [op]; rfl
  unfold sendAccess
  simp only [stays, whole, Bool.and_false, Bool.false_eq_true, if_false]
  rw [op]
  have added : (State.onTeam { s with team := s.team.write (.s n (Config.freeDouble s.free)), free := s.free + 1 }
      fun t => { t with vars := t.vars ++ [a] }) = sent a (.s n (Config.freeDouble s.free)) s :=
    congrArg (fun l => { s with
      team := { s.team.write (.s n (Config.freeDouble s.free)) with vars := l ++ [a] }, free := s.free + 1 }) (write_vars ..)
  exact congrArg (leaveDie a) added

theorem exec_launch (wf : (Instr.launch f).wf = true) (guard : s.team.rp f.g = true)
    (parts : launchParts s (s.team.rs f.a).toNat (s.team.rs f.b).toNat = .ok ps) :
    exec (.launch f) s = .next (leaveDie (launchAccess f ps s)
      (sent (launchAccess f ps s) (.s f.d (Config.freeDouble s.free)) (launching f ps s))) := by
  show execLaunch f s = _
  rw [execLaunch, slotOp_performed wf guard]
  dsimp only
  rw [parts]
  have counted := countStore_launch (f := f) (s := s) (ps := ps)
  have sends : sendAccess (launchAccess f ps s) (launching f ps s) = _ := sendAccess_launch _ rfl _
  refine (congrArg (fun x => Host.Outcome.next (sendAccess x.1 (issueLater .ad (.launch f) [] x.2))) counted).trans ?_
  dsimp only
  rw [issueLater_none]
  exact congrArg _ sends

/-- Settles O8: LAUNCH leaves as one access to its home, or its address check raises the cause. -/
theorem launchIssues : Obligations.LaunchIssues := by
  unfold Obligations.LaunchIssues
  intro f s wf guard
  refine ⟨fun ps parts => ?_, fun c va fails trap => ?_⟩
  · obtain ⟨mem, team⟩ := leaveDie_keeps (launchAccess f ps s)
      (sent (launchAccess f ps s) (.s f.d (Config.freeDouble s.free)) (launching f ps s))
    refine ⟨_, launchAccess f ps s, exec_launch wf guard parts, ?_, ⟨Config.freeDouble s.free, ?_⟩, mem, ?_, rfl, rfl, rfl, ?_⟩
    · rw [team]
      show vget (Team.write _ _).pass _ _ = _
      rw [write_pass]
      exact passed_pass1_same _ _
    · rw [team]
      exact (regs_write (launching f ps s).team _).trans (regs_write s.team _).symm
    · rw [team]
      rfl
    · have writes : (sent (launchAccess f ps s) (.s f.d (Config.freeDouble s.free)) (launching f ps s)).team.writes =
          s.team.writes ++ [launchWrite f ps s] := write_writes ..
      rw [Unacknowledged, team, writes, List.filter_append, List.length_append]
      rfl
  · show execLaunch f s = _
    rw [execLaunch, slotOp_performed wf guard]
    dsimp only
    rw [fails]
    exact congrArg _ (takeTrap_eq trap)

end

end Sys2Proof.Laws
end

section
/-! SUPPORT. Write-backs of the caches on behalf of a team leave alone the reference counter, the team but for its accesses and
writes, its core, and the shares of its die's staging (R217, R219, R348, R377, R378). -/

namespace Sys2Proof.Laws

open Machine Claims

/-- What write-backs leave alone: the counter, the foreground team but for its accesses and its counted writes, its core, and its
die's number and staging shares. -/
structure Steady where
  now : Nat
  team : Team
  core : Core
  die : Nat
  staging : List Stage

@[inherit_doc Steady] def steady (s : State) : Steady :=
  { now := s.now, team := { s.team with vars := [], writes := [] }, core := s.core, die := s.die.num, staging := s.die.staging }

/-! ## One update -/

theorem steady_onHub (s : State) (f : Hub → Hub) : steady (s.onHub f) = steady s := rfl

theorem steady_after (s : State) (n : Nat) (i : Instr) (o : Occ) : steady (s.after n i o) = steady s := rfl

theorem steady_later (s : State) (i : Instr) (o : Occ) : steady (s.later i o) = steady s := rfl

/-- A die's L2 put alone. -/
theorem steady_putL2 (s : State) (d : Nat) (f : Die → List Line) : steady (s.modDie d fun x => { x with l2 := f x }) = steady s := by
  unfold State.modDie
  split <;> rfl

/-- A team's accesses and counted writes alone. -/
theorem steady_work (s : State) (r : TeamRef) (v : Team → List Access) (w : Team → List PendingWrite) :
    steady (s.modTeam r fun t => { t with vars := v t, writes := w t }) = steady s := by
  unfold State.modTeam
  split <;> rfl

theorem steady_record (t : Option Nat) (o u k i c : Nat) (d p : Double) (s : State) : steady (record t o u k i c d p s) = steady s := by
  unfold record errorRecord State.onHub
  dsimp only
  split <;> rfl

/-! ## The home and the directory -/

theorem steady_homePut (line pa : Nat) (bs : List (Option Byte)) (s : State) : steady (homePut line pa bs s) = steady s := by
  unfold homePut
  extract_lets u v
  have cleared : steady u = steady s := by
    unfold u
    split <;> rfl
  have stored : steady v = steady u := by
    unfold v
    split
    · rfl
    · split <;> rfl
  exact stored.trans cleared

theorem steady_snoopDie (pa line : Nat) (inval : Bool) (s : State) (x : Nat) : steady (snoopDie pa line inval s x) = steady s := by
  unfold snoopDie
  refine foldl_keeps steady (fun s l => ?_) _ s
  dsimp only
  split
  · rfl
  · rw [steady_putL2]
    split
    · exact steady_homePut ..
    · rfl

theorem steady_flushRange (base size : Nat) (inval : Bool) (dies : List Nat) (s : State) :
    steady (flushRange base size inval dies s) = steady s := by
  unfold flushRange
  refine foldl_keeps steady (fun s x => foldl_keeps steady (fun s l => ?_) _ s) _ s
  split
  · exact steady_snoopDie ..
  · rfl

theorem steady_reclaimRange (s : State) : steady (reclaimRange s) = steady s := by
  unfold reclaimRange
  split
  · rfl
  · extract_lets mine n u v
    have flushed : steady v = steady s := (steady_onHub ..).trans (steady_flushRange ..)
    split
    · exact flushed
    · exact (steady_record ..).trans flushed

theorem steady_renewRegion (old new : Region) (s : State) : steady (renewRegion old new s) = steady s := by
  unfold renewRegion
  dsimp only
  split
  · rfl
  · split <;> rfl

theorem steady_touchRegion (agent : Option Nat) (line : Nat) (wr : Bool) (s : State) :
    steady (touchRegion agent line wr s) = steady s := by
  unfold touchRegion
  extract_lets u cm q
  have reclaimed : steady u = steady s := by
    unfold u
    split
    · exact steady_reclaimRange s
    · rfl
  refine Eq.trans ?_ reclaimed
  split
  · split
    · split
      · exact steady_renewRegion ..
      · rfl
    · exact steady_renewRegion ..
    · rfl
  · exact (steady_after ..).trans ((steady_onHub ..).trans (steady_flushRange ..))

theorem steady_snoop (agent : Option Nat) (pa line : Nat) (wr : Bool) (s : State) : steady (snoop agent pa line wr s) = steady s :=
  (foldl_keeps steady (steady_snoopDie pa line wr) _ _).trans (steady_touchRegion ..)

theorem steady_ownLine (d line : Nat) (s : State) : steady (ownLine d line s) = steady s := by
  unfold ownLine
  split
  · split
    · split
      · exact steady_snoop ..
      · rfl
    · rfl
  · rfl

/-! ## Write-backs leave for their homes, each a write of a team (R377, R378) -/

theorem steady_sendOn (r : LinkReq) (s : State) : steady (sendOn r s) = steady s := by
  unfold sendOn
  dsimp only
  split
  · rfl
  · split <;> rfl
  · split <;> rfl
  · split <;> rfl

theorem steady_addWrite (r : TeamRef) (w : PendingWrite) (s : State) : steady (addWrite r w s).2 = steady s :=
  steady_work s.newId.2 r Team.vars fun t => t.writes ++ [({ w with id := s.fresh } : PendingWrite)]

theorem steady_sendWrite (r : TeamRef) (path : Path) (s : State) : steady (sendWrite r path s) = steady s :=
  (steady_later ..).trans (steady_addWrite ..)

theorem steady_sendWriteBack (r : TeamRef) (path : Path) (dir : Bool) (d : Nat) (s : State) (l : Line) :
    steady (sendWriteBack r path dir d s l) = steady s := by
  unfold sendWriteBack
  extract_lets t
  refine (steady_sendOn ..).trans ((steady_putL2 ..).trans ?_)
  exact (steady_work _ r (fun t => t.vars ++ [_]) Team.writes).trans (steady_addWrite ..)

section

variable (r : TeamRef) (d : Nat)

theorem steady_evictL2 (l : Line) (s : State) : steady (evictL2 (some (r, .ls)) d l s) = steady s := by
  unfold evictL2
  dsimp only
  split
  · exact steady_putL2 ..
  · exact (steady_putL2 ..).trans (steady_sendWriteBack ..)

theorem steady_shrinkSlice (line k : Nat) (s : State) : steady (shrinkSlice (some (r, .ls)) d line k s) = steady s := by
  induction k generalizing s with
  | zero => rfl
  | succ k ih =>
    unfold shrinkSlice
    dsimp only
    split
    · rfl
    · split
      · rfl
      · exact (ih _).trans (steady_evictL2 ..)

theorem steady_writeBackL1 (l : Line) (s : State) : steady (writeBackL1 (some r) d l s) = steady s := by
  unfold writeBackL1
  split
  · exact (steady_shrinkSlice ..).trans ((steady_sendWrite ..).trans ((steady_putL2 ..).trans (steady_ownLine ..)))
  · rfl

end

/-! ## A core's L1D is written back (R217, R378) -/

theorem clean_not_dirty (l : Line) : l.clean.isDirty = false := by
  simp [Line.clean, Line.isDirty]

/-- A line that is replaced by its clean copy is dirty no more, and no other line becomes dirty. -/
theorem dirty_putLine_clean {ls : List Line} {l x : Line} (held : l ∈ ls) (put : x ∈ putLine ls l.clean) (dirty : x.isDirty = true) :
    x ∈ ls ∧ ¬ (x.ipa = l.ipa ∧ x.tenant = l.tenant) := by
  have there : (ls.any fun x => x.ipa = l.clean.ipa && x.tenant = l.clean.tenant) = true :=
    List.any_eq_true.2 ⟨l, held, by simp [Line.clean]⟩
  rw [putLine, if_pos there] at put
  obtain ⟨y, mem, rfl⟩ := List.mem_map.1 put
  by_cases same : y.ipa = l.clean.ipa ∧ y.tenant = l.clean.tenant
  · rw [if_pos same, clean_not_dirty] at dirty
    cases dirty
  · rw [if_neg same]
    exact ⟨mem, same⟩

/-- What is steady while an L1D is written back: all but its lines. -/
def steadyL1 (s : State) : Steady := { steady s with core := { s.core with l1d := [] } }

theorem steadyL1_of_steady {s t : State} (h : steady s = steady t) : steadyL1 s = steadyL1 t := by
  have core : s.core = t.core := congrArg Steady.core h
  rw [steadyL1, steadyL1, h, core]

/-- Every dirty line of the core's L1D is one of these. -/
def DirtyAmong (ls : List Line) (s : State) : Prop :=
  ∀ x ∈ s.core.l1d, x.isDirty = true → ∃ l ∈ ls, x.ipa = l.ipa ∧ x.tenant = l.tenant

section

variable {r : TeamRef} {d p : Nat}

/-- A line that a team writes back is dirty no more. -/
theorem cleanL1_does {s : State} {l : Line} {ls : List Line} (front : s.core.die = d ∧ s.core.pcore = p)
    (among : DirtyAmong (l :: ls) s) : steadyL1 (cleanL1 (some r) d p l.tenant l.ipa s) = steadyL1 s ∧
      DirtyAmong ls (cleanL1 (some r) d p l.tenant l.ipa s) := by
  have here : s.coreAt d p = s.core := if_pos front
  unfold cleanL1
  rw [here]
  split
  · next y found =>
    have back := steady_writeBackL1 r d y s
    have core : (writeBackL1 (some r) d y s).core = s.core := congrArg Steady.core back
    have key : y.ipa = l.ipa ∧ y.tenant = l.tenant := by simpa using List.find?_some found
    have put : ∀ f, (writeBackL1 (some r) d y s).modCore d p f =
        { writeBackL1 (some r) d y s with core := f (writeBackL1 (some r) d y s).core } := fun f =>
      if_pos (by rw [core]; exact front)
    rw [put]
    refine ⟨Eq.trans (b := steadyL1 (writeBackL1 (some r) d y s)) rfl (steadyL1_of_steady back), fun x mem dirty => ?_⟩
    have mem' : x ∈ putLine s.core.l1d y.clean := by
      rw [← core]
      exact mem
    obtain ⟨was, other⟩ := dirty_putLine_clean (List.mem_of_find?_eq_some found) mem' dirty
    obtain ⟨k, mk, same⟩ := among x was dirty
    rcases List.mem_cons.1 mk with rfl | mk
    · rw [key.1, key.2] at other
      exact absurd same other
    · exact ⟨k, mk, same⟩
  · next missing =>
    refine ⟨rfl, fun x mem dirty => ?_⟩
    obtain ⟨k, mk, same⟩ := among x mem dirty
    rcases List.mem_cons.1 mk with rfl | mk
    · exact absurd (List.find?_eq_none.1 missing x mem) (by simp [same])
    · exact ⟨k, mk, same⟩

/-- A team writes its core's L1D back: no line of it is dirty any more. -/
theorem cleanL1s_do (ls : List Line) {s : State} (front : s.core.die = d ∧ s.core.pcore = p) (among : DirtyAmong ls s) :
    steadyL1 (ls.foldl (fun s l => cleanL1 (some r) d p l.tenant l.ipa s) s) = steadyL1 s ∧
      DirtyAmong [] (ls.foldl (fun s l => cleanL1 (some r) d p l.tenant l.ipa s) s) := by
  induction ls generalizing s with
  | nil => exact ⟨rfl, among⟩
  | cons l ls ih =>
    obtain ⟨same, fewer⟩ := cleanL1_does (r := r) front among
    have core := congrArg Steady.core same
    have front' : (cleanL1 (some r) d p l.tenant l.ipa s).core.die = d ∧ (cleanL1 (some r) d p l.tenant l.ipa s).core.pcore = p :=
      ⟨(congrArg Core.die core).trans front.1, (congrArg Core.pcore core).trans front.2⟩
    obtain ⟨rest, none_⟩ := ih front' fewer
    exact ⟨rest.trans same, none_⟩

end

/-- R217: the core's L1D lines are written back. -/
theorem sendL1_does (s : State) : steadyL1 (sendL1 (fun _ => true) s) = steadyL1 s ∧
    ∀ l ∈ (sendL1 (fun _ => true) s).core.l1d, l.isDirty = false := by
  have all : (l1Dirty (s.coreAt s.core.die s.core.pcore)).filter (fun _ => true) = s.core.l1d.filter Line.isDirty := by
    rw [List.filter_true, l1Dirty, State.coreAt, if_pos ⟨rfl, rfl⟩]
  have among : DirtyAmong (s.core.l1d.filter Line.isDirty) s := fun x mem dirty => ⟨x, List.mem_filter.2 ⟨mem, dirty⟩, rfl, rfl⟩
  have done := cleanL1s_do (r := s.team.ref) _ ⟨rfl, rfl⟩ among
  rw [sendL1, flushL1, all]
  refine ⟨done.1, fun l mem => ?_⟩
  by_contra dirty
  obtain ⟨_, no, -⟩ := done.2 l mem (Bool.not_eq_false _ ▸ dirty)
  cases no

/-- With no dirty line nothing is written back. -/
theorem sendL1_clean {s : State} (clean : ∀ l ∈ s.core.l1d, l.isDirty = false) (keep : Line → Bool) : sendL1 keep s = s := by
  have none_ : l1Dirty (s.coreAt s.core.die s.core.pcore) = [] := by
    rw [l1Dirty, State.coreAt, if_pos ⟨rfl, rfl⟩, List.filter_eq_nil_iff]
    exact fun l mem => by simp [clean l mem]
  rw [sendL1, flushL1, none_]
  rfl

theorem sendL2_clean {s : State} (clean : ∀ l ∈ (s.dieAt s.core.die).l2, l.isDirty = false) (keep : Line → Bool) (dir : Bool) :
    sendL2 keep dir s = s := by
  have none_ : ((s.dieAt s.core.die).l2.filter fun l => l.isDirty && keep l) = [] :=
    List.filter_eq_nil_iff.2 fun l mem => by simp [clean l mem]
  rw [sendL2, none_]
  rfl

/-! ## Staging shares (R185, R219) -/

/-- The steps that staging takes from the cache are drained. -/
theorem steady_drainSteps (r : TeamRef) (d before : Nat) (s : State) : steady (drainSteps r d before s) = steady s :=
  (foldl_keeps steady (fun s (l : Line) => steady_shrinkSlice r d l.ipa _ s) _ _).trans
    (foldl_keeps steady (fun s l => steady_evictL2 r d l s) _ s)

end Sys2Proof.Laws
end

section
/-! SUPPORT. RELW, FENCE, XFENCE and PHASE (R71, R185, R216 to R219, R378, R380): O9. -/

namespace Sys2Proof.Laws

open Machine Claims

/-! ## Operations that hold at their position (R71, R115) -/

theorem holdSlot_eq (j : Slot) (s : State) : holdSlot j s = held j s := rfl

theorem passed_retired (j : Slot) (i : Instr) (s : State) (w : Nat) : (retired j i s w).team.passed j = s.team.passed j + 1 := by
  simp [retired, Team.passed, slotNum_lt]

/-- With its guard true an operation that may hold has its effect, whether or not it already holds. -/
theorem slotOp_mayHold {i : Instr} {j : Slot} {g : BitVec 3} {eff : State → State} {s : State} (wf : i.wf = true)
    (guard : s.team.rp g = true) : slotOp j i (guardedHold j g eff) s = eff s := by
  simp [slotOp, wf, guardedHold, guarded, guard]

section

variable {f : RForm} {s : State} (guard : s.team.rp f.g = true)
include guard

/-! ## RELW (R218) -/

theorem exec_relw (wf : (Instr.relw f).wf = true) : exec (.relw f) s =
    .next (if s.team.othersDone && decide (Counted s f.lo3 = 0) then retired .ad (.relw f) s 64 else held .ad s) := by
  show execRelw f s = _
  rw [execRelw, slotOp_mayHold wf guard, relc_counted, issue_none (by decide), holdSlot_eq]

theorem relw_completes (wf : (Instr.relw f).wf = true) (done : s.team.othersDone = true) (acked : Counted s f.lo3 = 0) :
    exec (.relw f) s = .next (retired .ad (.relw f) s 64) := by
  rw [exec_relw guard wf, done, acked]
  rfl

theorem relw_waits (wf : (Instr.relw f).wf = true) (waits : s.team.othersDone = false ∨ Counted s f.lo3 ≠ 0) :
    exec (.relw f) s = .next (held .ad s) := by
  rw [exec_relw guard wf, if_neg]
  rcases waits with behind | counted
  · simp [behind]
  · simp [counted]

end

/-! ## FENCE (R216, R378, R380) -/

section

variable (s : State) (sc : BitVec 3)

/-- The writes that a fence waits for have been acknowledged: none of those that its scope still counts is one of them. -/
theorem acked_iff (ids : List Nat) : s.team.acked (relcField sc) ids = true ↔ ∀ w ∈ Unacknowledged s sc, w.id ∉ ids := by
  rw [← relc_unack]
  simp only [Team.acked, List.all_eq_true, List.mem_filter, and_imp]
  refine forall₂_congr fun w _ => ?_
  cases w.counts (relcField sc) <;> simp

theorem countedWrites_eq : s.team.countedWrites (relcField sc) = (Unacknowledged s sc).map (·.id) := by
  rw [← relc_unack]
  rfl

/-- A fence that notes the writes of its scope waits for them, if there are any. -/
theorem noted_acked : s.team.acked (relcField sc) ((Unacknowledged s sc).map (·.id)) = true ↔ Unacknowledged s sc = [] := by
  rw [acked_iff, List.eq_nil_iff_forall_not_mem]
  exact ⟨fun h w mem => h w mem (List.mem_map_of_mem mem), fun h w mem => absurd mem (h w)⟩

end

/-- The acting team with what its fence waits for. -/
def withFence (set : Option (List Nat)) (sent : Bool) (s : State) : State :=
  { s with team := { s.team with fenceSet := set, fenceSent := sent } }

section

variable {s : State} {sc : BitVec 3}

/-- R378: with no dirty line in its reach a release writes nothing back. -/
theorem releaseWriteBacks_none (clean : NothingToWriteBack s sc) : releaseWriteBacks sc s = s := by
  rcases clean with rfl | ⟨l1, l2⟩
  · rfl
  · unfold releaseWriteBacks
    split
    · rfl
    · exact sendL1_clean l1 _
    · exact sendL1_clean l1 _
    · next no one two =>
      simp only [imp_false] at no one two
      rw [sendL1_clean l1, sendL2_clean (l2 (by omega))]

/-- R216, R378: a fence that covers stores notes the writes that its scope counts as it comes to its position; when these have been
acknowledged and the earlier stores performed, it writes back as a release does, and waits for what its scope then counts. -/
theorem fenceStart_eq (sc : BitVec 3) (s : State) {u : State}
    (noted : u = if s.team.fenceSet.isNone then withFence (some ((Unacknowledged s sc).map (·.id))) s.team.fenceSent s else s) :
    fenceStart sc s = if u.team.fenceSent || !u.team.acked (relcField sc) (u.team.fenceSet.getD []) ||
        u.team.storesOut (u.team.passed .ad) then u
      else withFence (some ((Unacknowledged (releaseWriteBacks sc u) sc).map (·.id))) true (releaseWriteBacks sc u) := by
  subst noted
  rw [← countedWrites_eq, ← countedWrites_eq]
  rfl

/-- A fence that comes to its position notes the writes that its scope counts, and waits for them and for the earlier stores. -/
theorem fenceStart_notes (set : s.team.fenceSet = none) (sent : s.team.fenceSent = false)
    (waits : StoresOut s ∨ Unacknowledged s sc ≠ []) :
    fenceStart sc s = withFence (some ((Unacknowledged s sc).map (·.id))) false s := by
  rw [fenceStart_eq sc s (u := withFence (some ((Unacknowledged s sc).map (·.id))) false s) (by rw [set, sent]; rfl)]
  refine if_pos ?_
  rw [Bool.or_eq_true, Bool.or_eq_true, Bool.not_eq_true', ← Bool.not_eq_true]
  rcases waits with stores | counted
  · exact .inr ((storesOut_iff s).2 stores)
  · exact .inl (.inr (mt (noted_acked s sc).1 counted))

/-- A fence that waits, for the noted writes, for the earlier stores or for its write-backs, does nothing. -/
theorem fenceStart_waits {ids : List Nat} (set : s.team.fenceSet = some ids)
    (waits : s.team.fenceSent = true ∨ StoresOut s ∨ ∃ w ∈ Unacknowledged s sc, w.id ∈ ids) : fenceStart sc s = s := by
  rw [fenceStart_eq sc s (u := s) (by rw [set]; rfl), set]
  refine if_pos ?_
  rw [Bool.or_eq_true, Bool.or_eq_true, Bool.not_eq_true', ← Bool.not_eq_true]
  rcases waits with sent | stores | ⟨w, mem, noted⟩
  · exact .inl (.inl sent)
  · exact .inr ((storesOut_iff s).2 stores)
  · exact .inl (.inr fun acked => (acked_iff s sc ids).1 acked w mem noted)

/-- A fence with nothing to wait for and nothing to write back has done at once. -/
theorem fenceStart_idle (set : s.team.fenceSet = none) (stores : ¬ StoresOut s) (acked : Unacknowledged s sc = [])
    (clean : NothingToWriteBack s sc) : fenceStart sc s = withFence (some []) true s := by
  rw [fenceStart_eq sc s (u := withFence (some []) s.team.fenceSent s) (by rw [set, acked]; rfl)]
  have none_ : Unacknowledged (withFence (some []) s.team.fenceSent s) sc = [] := acked
  have same : releaseWriteBacks sc (withFence (some []) s.team.fenceSent s) = withFence (some []) s.team.fenceSent s :=
    releaseWriteBacks_none clean
  rw [same, none_]
  split
  · next stops =>
    rw [Bool.or_eq_true, Bool.or_eq_true, Bool.not_eq_true'] at stops
    rcases stops with (sent | unacked) | out
    · rw [show s.team.fenceSent = true from sent]
    · exact absurd ((acked_iff s sc []).2 fun _ _ => List.not_mem_nil) (Bool.eq_false_iff.1 unacked)
    · exact absurd ((storesOut_iff s).1 out) stores
  · rfl

end

/-- R216: a fence of these kinds waits on at its position. -/
def fenceHolds (st ld : Bool) (sc : BitVec 3) (s : State) : Bool :=
  (st && !(s.team.fenceSent && s.team.fenced sc)) || (ld && s.team.loadsOut (s.team.passed .ad))

theorem fenceHolds_iff (st ld : Bool) (sc : BitVec 3) (s : State) : fenceHolds st ld sc s = true ↔
    (st = true ∧ (s.team.fenceSent = false ∨ ∃ w ∈ Unacknowledged s sc, w.id ∈ s.team.fenceSet.getD [])) ∨
      (ld = true ∧ LoadsOut s) := by
  have acked : s.team.fenced sc = false ↔ ∃ w ∈ Unacknowledged s sc, w.id ∈ s.team.fenceSet.getD [] := by
    rw [← Bool.not_eq_true, Team.fenced, acked_iff]
    simp
  rw [fenceHolds, Bool.or_eq_true, Bool.and_eq_true, Bool.and_eq_true, Bool.not_eq_true', Bool.and_eq_false_iff, acked, loadsOut_iff]


section

variable {f : RForm} {s : State} (guard : s.team.rp f.g = true) (wf : (Instr.fence f).wf = true)
include guard wf

theorem fence_behind (behind : s.team.othersDone = false) : exec (.fence f) s = .next (held .ad s) := by
  show execFence f s = _
  rw [execFence, slotOp_mayHold wf guard, behind]
  rfl

variable (done : s.team.othersDone = true)
include done

/-- A fence of loads alone. -/
theorem fence_loads (kind : f.hi2 = 1) : exec (.fence f) s =
    .next (if fenceHolds false true f.lo3 s then held .ad s else retired .ad (.fence f) (fenced f.lo3 false true s) 64) := by
  show execFence f s = _
  rw [execFence, slotOp_mayHold wf guard, done, kind, fenced_eq, ← issue_none (by decide)]
  rfl

/-- A fence that covers stores. -/
theorem fence_stores (kind : f.hi2 ≠ 1) : exec (.fence f) s =
    .next (if fenceHolds true (f.hi2 == 0) f.lo3 (fenceStart f.lo3 s) then held .ad (fenceStart f.lo3 s)
      else retired .ad (.fence f) (fenced f.lo3 true (f.hi2 == 0) (fenceStart f.lo3 s)) 64) := by
  show execFence f s = _
  rw [execFence, slotOp_mayHold wf guard, done, fenced_eq, ← issue_none (by decide)]
  rcases fence_kind wf kind with all | st
  · rw [all]
    rfl
  · rw [st]
    rfl

variable (kind : f.hi2 ≠ 1) {u : State} (start : fenceStart f.lo3 s = u)
include kind start

theorem fence_waits (waits : u.team.fenceSent = false ∨ (∃ w ∈ Unacknowledged u f.lo3, w.id ∈ u.team.fenceSet.getD []) ∨
    f.hi2 = 0 ∧ LoadsOut u) : exec (.fence f) s = .next (held .ad u) := by
  rw [fence_stores guard wf done kind, start, if_pos]
  rw [fenceHolds_iff, beq_iff_eq]
  rcases waits with before | out | loads
  · exact .inl ⟨rfl, .inl before⟩
  · exact .inl ⟨rfl, .inr out⟩
  · exact .inr loads

theorem fence_completes (sent : u.team.fenceSent = true) (acked : ∀ w ∈ Unacknowledged u f.lo3, w.id ∉ u.team.fenceSet.getD [])
    (loads : f.hi2 = 0 → ¬ LoadsOut u) :
    exec (.fence f) s = .next (retired .ad (.fence f) (fenced f.lo3 true (f.hi2 == 0) u) 64) := by
  rw [fence_stores guard wf done kind, start, if_neg]
  rw [fenceHolds_iff, beq_iff_eq]
  rintro (⟨-, before | ⟨w, mem, out⟩⟩ | ⟨all, out⟩)
  · rw [sent] at before
    cases before
  · exact acked w mem out
  · exact loads all out

end

/-! ## XFENCE (R217) -/

/-- What XFENCE asks of the paths that it names. -/
def pathsReady (f : RForm) (s : State) : Bool :=
  s.team.othersDone && (!f.b.getLsbD 0 || lsDone s.team (s.team.passed .ad)) &&
    (!f.b.getLsbD 1 || fetchesDone s.core s.team (s.team.passed .ad)) &&
    (!f.b.getLsbD 2 || copiesDone s.core s.team.ref (s.team.passed .ad)) &&
    (!f.b.getLsbD 3 || sweepStill s.core s.team.ref (s.team.passed .ad))

theorem pathsReady_iff (f : RForm) (s : State) : pathsReady f s = true ↔ PathsDone f s := by
  have named : ∀ on done : Bool, (!on || done) = true ↔ (on = true → done = true) := by decide
  simp only [pathsReady, PathsDone, Bool.and_eq_true, named, and_assoc]

/-- R217: XFENCE writes the core's L1D back and, naming ls, makes the core's copies stale. -/
def xfenced (f : RForm) (s : State) : State :=
  if f.b.getLsbD 0 then acquireAt 2 (sendL1 (fun _ => true) s) else sendL1 (fun _ => true) s

section

variable {f : RForm} {s : State} (guard : s.team.rp f.g = true) (wf : (Instr.xfence f).wf = true)
include guard wf

theorem exec_xfence : exec (.xfence f) s =
    .next (if !pathsReady f s then held .ad s else retired .ad (.xfence f) (xfenced f s) 64) := by
  show execXfence f s = _
  rw [execXfence, slotOp_mayHold wf guard, ← issue_none (by decide)]
  rfl

theorem xfence_waits (out : ¬ PathsDone f s) : exec (.xfence f) s = .next (held .ad s) := by
  rw [← pathsReady_iff, Bool.not_eq_true] at out
  rw [exec_xfence guard wf, out]
  rfl

theorem xfence_completes (done : PathsDone f s) :
    exec (.xfence f) s = .next (retired .ad (.xfence f) (xfenced f s) 64) := by
  rw [exec_xfence guard wf, (pathsReady_iff f s).2 done]
  rfl

end

/-- What XFENCE leaves alone of the team, and the clean L1D that it leaves (R217, R379). -/
theorem xfenced_does (f : RForm) (s : State) :
    (xfenced f s).team.passed .ad = s.team.passed .ad ∧ SameRegs s.team (xfenced f s).team ∧ (xfenced f s).team.trap = s.team.trap ∧
      (xfenced f s).team.acqDie = (if f.b.getLsbD 0 then s.now + 1 else s.team.acqDie) ∧
      ∀ l ∈ (xfenced f s).core.l1d, l.isDirty = false := by
  obtain ⟨same, clean⟩ := sendL1_does s
  have now : (sendL1 (fun _ => true) s).now = s.now := congrArg Steady.now same
  have kept {α : Type} (view : Team → α) : view { (sendL1 (fun _ => true) s).team with vars := [], writes := [] } =
      view { s.team with vars := [], writes := [] } := congrArg (fun x => view x.team) same
  unfold xfenced
  split
  · exact ⟨kept fun t => t.passed .ad, (kept regs).symm, kept Team.trap, congrArg (· + 1) now, clean⟩
  · exact ⟨kept fun t => t.passed .ad, (kept regs).symm, kept Team.trap, kept Team.acqDie, clean⟩

/-! ## PHASE (R185, R219) -/

/-- What is left of the die's 8 steps for a cluster's request. -/
theorem grantedSteps_eq (d : Die) (c req : Nat) : grantedSteps d c req =
    min req (8 - ((d.staging.filter fun x => x.cluster ≠ c).map fun x => x.epochs.length).sum) := by
  rw [grantedSteps, sum_steps, Nat.zero_add]

/-- The share that a PHASE gives a cluster of the foreground die. -/
def newShare (d : Die) (c req n free : Nat) : Stage :=
  { cluster := c, req := req, parked := 0,
    epochs := (d.stage c).epochs.take n ++ (List.range (n - (d.stage c).epochs.length)).map (free + ·) }

theorem newShare_steps (d : Die) (c req n free : Nat) : (newShare d c req n free).epochs.length = n := by
  simp [newShare]
  omega

theorem stage_of_staging {d e : Die} {st : Stage} {c : Nat} (own : st.cluster = c)
    (put : e.staging = st :: d.staging.filter fun x => x.cluster ≠ c) :
    e.stage c = st ∧ ∀ c', c' ≠ c → e.stage c' = d.stage c' := by
  simp only [Die.stage, put]
  refine ⟨?_, fun c' other => ?_⟩
  · rw [List.find?_cons_of_pos (by simp [own])]
    rfl
  · rw [List.find?_cons_of_neg (by simp [own, other.symm]), find_other _ _ _ other]

theorem staging_setShare (s : State) (c req n : Nat) : steady (setShare s.die.num c req n s) =
    { steady s with staging := newShare s.die c req n s.free :: s.die.staging.filter fun x => x.cluster ≠ c } := by
  have here : s.dieAt s.die.num = s.die := if_pos rfl
  simp only [setShare, here, State.modDie, if_true]
  rfl

/-- A PHASE that reaches the L2 gives the cluster its share, and leaves alone what write-backs do. -/
theorem phaseApply_does (req : Nat) {s : State} (home : s.die.num = s.team.ref.die) : steady (phaseApply req s) =
    { steady s with staging := newShare s.die s.team.cluster req (grantedSteps s.die s.team.cluster req) s.free ::
      s.die.staging.filter fun x => x.cluster ≠ s.team.cluster } := by
  have here : s.dieAt s.die.num = s.die := if_pos rfl
  rw [phaseApply, ← home]
  refine (steady_drainSteps ..).trans ?_
  rw [staging_setShare, here]

/-- The share that a PHASE leaves its cluster, and what it leaves alone. -/
theorem phaseApply_shares (req : Nat) {s : State} (home : s.die.num = s.team.ref.die) :
    ((phaseApply req s).die.stage s.team.cluster).epochs.length = grantedSteps s.die s.team.cluster req ∧
      ((phaseApply req s).die.stage s.team.cluster).req = req ∧
      (∀ c, c ≠ s.team.cluster → (phaseApply req s).die.stage c = s.die.stage c) ∧
      (phaseApply req s).team.passed .ad = s.team.passed .ad ∧
      (phaseApply req s).now = s.now ∧ (phaseApply req s).core = s.core := by
  have does := phaseApply_does req home
  generalize phaseApply req s = u at does ⊢
  obtain ⟨own, others⟩ := stage_of_staging (c := s.team.cluster) rfl (congrArg Steady.staging does)
  rw [own]
  exact ⟨newShare_steps .., rfl, others, congrArg (fun x => x.team.passed .ad) does, congrArg Steady.now does,
    congrArg Steady.core does⟩

/-- The steps that a cluster's share moves by. -/
def movedSteps (s : State) (req : Nat) : Nat :=
  let old := (s.die.stage s.team.cluster).epochs.length
  let new := grantedSteps s.die s.team.cluster req
  (new - old) + (old - new)

/-- The moved steps are those between the smaller and the larger of the two shares. -/
theorem movedSteps_eq {s : State} {req share : Nat} (granted : grantedSteps s.die s.team.cluster req = share) :
    movedSteps s req = max (s.die.stage s.team.cluster).epochs.length share - min (s.die.stage s.team.cluster).epochs.length share := by
  rw [movedSteps, granted]
  omega

/-- A PHASE that moves steps drains the lines of these: the time is the model's choice within R219's bound. -/
def phaseDrain (s : State) (moved : Nat) : State :=
  { s with free := s.free + 1, team := { s.team with
      phaseEnd := some (s.now + Config.latency s.free % (8192 * moved + 1) * s.core.divisor .core) } }

theorem phaseDrain_end (s : State) (moved : Nat) : ∃ w, (phaseDrain s moved).team.phaseEnd = some w ∧
    w ≤ s.now + 8192 * moved * s.core.divisor .core :=
  ⟨_, rfl, Nat.add_le_add_left (Nat.mul_le_mul_right _ (Nat.le_of_lt_succ (Nat.mod_lt _ (Nat.succ_pos _)))) _⟩

section

variable {f : RForm} {s : State} (ready : Ready (.phase f) f.g s)
include ready

/-- A PHASE that comes to its position gives its share, and passes if no step moves. -/
theorem phase_grants (first : s.team.phaseEnd = none) : exec (.phase f) s =
    .next (if movedSteps s f.b.toNat = 0 then retired .ad (.phase f) (phaseApply f.b.toNat s) 64
      else held .ad (phaseDrain (phaseApply f.b.toNat s) (movedSteps s f.b.toNat))) := by
  obtain ⟨wf, guard, -⟩ := ready
  show execPhase f s = _
  rw [execPhase, slotOp_mayHold wf guard, first, ← issue_none (by decide)]
  rfl

/-- R219: a PHASE that comes to its position gives the cluster its share, and moves no other; it drains the steps that it moves. -/
theorem phase_shares (home : s.die.num = s.team.ref.die) (first : s.team.phaseEnd = none) : ∃ t, exec (.phase f) s = .next t ∧
    (t.die.stage s.team.cluster).epochs.length = grantedSteps s.die s.team.cluster f.b.toNat ∧
    (t.die.stage s.team.cluster).req = f.b.toNat ∧ (∀ c, c ≠ s.team.cluster → t.die.stage c = s.die.stage c) ∧
    (movedSteps s f.b.toNat = 0 → t.team.passed .ad = s.team.passed .ad + 1) ∧
    (movedSteps s f.b.toNat ≠ 0 → t.team.passed .ad = s.team.passed .ad ∧
      ∃ w, t.team.phaseEnd = some w ∧ w ≤ s.now + 8192 * movedSteps s f.b.toNat * s.core.divisor .core) := by
  obtain ⟨steps, req, others, pass, now, core⟩ := phaseApply_shares f.b.toNat home
  rw [phase_grants ready first]
  generalize phaseApply f.b.toNat s = u at steps req others pass now core
  split
  · next still =>
    exact ⟨_, rfl, steps, req, others, fun _ => by rw [passed_retired, pass], fun moves => absurd still moves⟩
  · next moves =>
    have drain := phaseDrain_end u (movedSteps s f.b.toNat)
    rw [now, core] at drain
    exact ⟨_, rfl, steps, req, others, fun still => absurd still moves, fun _ => ⟨pass, drain⟩⟩

/-- A PHASE that waits completes when its time has come and the drained lines have left. -/
theorem phase_waits {w : Nat} (waits : s.team.phaseEnd = some w) : exec (.phase f) s =
    .next (if decide (s.now < w) || draining s.die then held .ad s
      else retired .ad (.phase f) { s with team := { s.team with phaseEnd := none } } 64) := by
  obtain ⟨wf, guard, -⟩ := ready
  show execPhase f s = _
  rw [execPhase, slotOp_mayHold wf guard, waits, ← issue_none (by decide)]
  rfl

end

/-- Settles O9: RELW and FENCE by what they wait for, XFENCE by `xfenced_does`, PHASE by `phaseApply_does`. -/
theorem fencesAndPhase : Obligations.FencesAndPhase := by
  unfold Obligations.FencesAndPhase
  refine ⟨fun f s guard => ⟨fun wf => ⟨relw_completes guard wf, relw_waits guard wf⟩, fun wf =>
    ⟨fence_behind guard wf, fun done kind back => ?_, fun done kind out => ?_, fun done kind set stores acked clean loads => ?_,
      fun done kind set sent waits => ?_, fun ids done kind set sent waits => ?_, fun ids done kind set sent acked loads => ?_,
      fun ids done kind set sent waits => ?_⟩⟩,
    fun f s guard wf => ⟨fun done => ?_, fun done clean unnamed => ?_, xfence_waits guard wf⟩,
    fun f s ready home => ⟨fun first => ?_, fun w waits past drained => ?_, fun w waits out => ?_⟩⟩
  · rw [fence_loads guard wf done kind, if_neg (by simp [fenceHolds_iff, back])]
  · rw [fence_loads guard wf done kind, if_pos (by simp [fenceHolds_iff, out])]
  · have idle := fenceStart_idle set stores acked clean
    rw [fence_completes guard wf done kind idle rfl (fun _ _ => List.not_mem_nil) loads]
    rfl
  · rw [fence_waits guard wf done kind (fenceStart_notes set sent waits) (.inl rfl), withFence, ← sent]
  · exact fence_waits guard wf done kind (fenceStart_waits set (.inr waits)) (.inl sent)
  · exact fence_completes guard wf done kind (fenceStart_waits set (.inl sent)) sent (by rwa [set]) loads
  · exact fence_waits guard wf done kind (fenceStart_waits set (.inl sent)) (.inr (by rwa [set]))
  · obtain ⟨pass, same, trap, stale, clean⟩ := xfenced_does f s
    exact ⟨_, xfence_completes guard wf done, by rw [passed_retired, pass], same, trap, stale, clean⟩
  · rw [xfence_completes guard wf done, xfenced, unnamed, sendL1_clean clean]
    rfl
  · have shares := phase_shares ready home first
    rw [movedSteps_eq (grantedSteps_eq ..), grantedSteps_eq] at shares
    exact shares
  · rw [phase_waits ready waits, drained, if_neg (by simp [past])]
  · rw [phase_waits ready waits, if_pos (by simpa using out)]

end Sys2Proof.Laws
end

section
/-! SUPPORT. RX operations issue (R69, R70, R275, R507): those with a v-register result, those that update tri, and what bars
them (R514, R515, R517): O28 and O29. -/

namespace Sys2Proof.Laws

open Machine Claims

/-! ## Values that may enter (R514), diagonals that are zero (R517) -/

theorem patterns_eq (s : State) (v : BitVec 6) (lo n : Nat) : patterns s v lo n = lanesFrom (s.team.rv v) lo n := by
  simp [patterns, lanesFrom, upFrom, laneOf, lane]

theorem entersBad_iff (xs : List Nat) : entersBad xs = true ↔ ¬ MayEnter xs := by
  rw [entersBad, List.any_eq_true]
  simp only [MayEnter, not_forall, not_lt, exists_prop]
  exact exists_congr fun x => and_congr_right fun _ => decide_eq_true_iff

theorem entersBad_of_mayEnter {xs : List Nat} (may : MayEnter xs) : entersBad xs = false :=
  Bool.eq_false_iff.2 fun bad => (entersBad_iff xs).1 bad may

theorem singular_iff (t : Tri) : singular t = true ↔ Singular t := by
  simp [singular, Singular]

section

variable {i : Instr} {s : State}

/-! ## Who may issue (R45, R69, R70, R507) -/

theorem rxOp_ready (ready : RxReady i s) (eff : State → State) : rxOp i eff s = eff s := by
  obtain ⟨wf, owner, idle, few⟩ := ready
  simp [rxOp, ownerOp, slotOp, wf, owner, idle, Nat.not_le.2 few]

/-- R70: inside its own team's occupation an RX operation is placed too early. -/
theorem rxOp_inside (wf : i.wf = true) (owner : s.team.tid.getLsbD 14 = true) (trap : s.team.trap = none)
    (busy : 0 < s.core.rxBusy) (own : s.core.rxTeam = s.team.ref) (eff : State → State) :
    rxOp i eff s = raised .rx 0x0018 0 ((encode i).getD 0) s := by
  rw [rxOp, if_neg fun h => h.2 own, ownerOp, slotOp, if_pos wf, if_pos owner, if_pos (.inl busy)]
  exact takeTrap_eq trap

/-- R70: inside another team's occupation it holds. -/
theorem rxOp_waits (busy : 0 < s.core.rxBusy) (other : s.core.rxTeam ≠ s.team.ref) (eff : State → State) :
    rxOp i eff s = held .rx s := if_pos ⟨busy, other⟩

/-! ## The occupation (R69) -/

section

variable (n : Nat)

theorem occupyRx_eq (s : State) : (if n = 0 then s else occupyRx n s) = occupied n s := rfl

@[simp] theorem occupied_team (s : State) : (occupied n s).team = s.team := by unfold occupied; split <;> rfl
@[simp] theorem occupied_mem (s : State) : (occupied n s).mem = s.mem := by unfold occupied; split <;> rfl
@[simp] theorem occupied_tri (s : State) : (occupied n s).core.tri = s.core.tri := by unfold occupied; split <;> rfl
@[simp] theorem occupied_rxq (s : State) : (occupied n s).core.rxq = s.core.rxq := by unfold occupied; split <;> rfl

theorem occupied_rxBusy (idle : s.core.rxBusy = 0) : (occupied n s).core.rxBusy = n := by
  unfold occupied
  split
  · next none_ => rw [idle, none_]
  · rfl

theorem occupied_rxTeam {n : Nat} (occupies : n ≠ 0) : (occupied n s).core.rxTeam = s.team.ref := by
  rw [occupied, if_neg occupies]

end

/-! ## Operations with a v-register result (R104, R422) -/

/-- R422: the result is one of the team's in flight, and the operation one of the arrays'. -/
theorem issueFixed_one {j : Slot} (ct : j ≠ .ct) (room : Room s 1) (src : VReg) (l : Nat) (w : Write) :
    issueFixed j i src l w s = issued j (tracked j i src l s) [result j i s 32 l w] := by
  rw [issueFixed, room_not_full room, if_neg Bool.false_ne_true]
  exact issue_one (s := tracked j i src l s) ct room

section

variable {vd : BitVec 6} {vals : State → List Nat} {src value : State → VReg} {l busy : Nat}

theorem rxResult_issues (ready : RxReady i s) (room : Room s 1) (may : MayEnter (vals s)) :
    rxResult i vd vals src l busy value s = issued .rx (tracked .rx i (src s) l (occupied busy s))
      [result .rx i s 32 l (.v vd (BitVec.allOnes 64) (value s))] := by
  rw [rxResult, rxOp_ready ready, room_not_full room, entersBad_of_mayEnter may, occupyRx_eq]
  have room' : Room (occupied busy s) 1 := by rwa [Room, occupied_team]
  refine (issueFixed_one (by decide) room' ..).trans ?_
  rw [result, occupied_team]
  rfl

/-- R514: values that may not enter raise 0x0031. -/
theorem rxResult_bad (ready : RxReady i s) (trap : s.team.trap = none) (room : Room s 1) (bad : ¬ MayEnter (vals s)) :
    rxResult i vd vals src l busy value s = raised .rx 0x0031 0 ((encode i).getD 0) s := by
  rw [rxResult, rxOp_ready ready, room_not_full room, (entersBad_iff _).2 bad]
  exact takeTrap_eq trap

end

/-- Each operation with a result is `rxResult` of its values, its source and its result. -/
theorem exec_rxResult {x : RxResult} (h : rxResultOf s i = some x) : ∃ vals src value,
    exec i s = .next (rxResult i x.f.vd vals src x.lat x.busy value s) ∧ vals s = x.enters ∧ src s = x.src ∧ value s = x.value := by
  unfold rxResultOf at h
  split at h <;> cases h
  all_goals exact ⟨_, _, _, rfl, by simp only [patterns_eq] <;> rfl, rfl, rfl⟩

theorem exec_rsolve (f : RxForm) (ready : RxReady (.rsolve f) s) (room : Room s 1) : exec (.rsolve f) s = .next
    (if s.core.tri.range then takeTrap .rx (.rsolve f) 0x0031 0 s
    else if singular s.core.tri then takeTrap .rx (.rsolve f) 0x0030 0 s
    else issueFixed .rx (.rsolve f) VReg.zero 80 (.v f.vd (BitVec.allOnes 64) (rsolveValue s.core.tri)) (occupied 16 s)) := by
  show execRsolve f s = _
  rw [execRsolve, rxOp_ready ready, room_not_full room]
  rfl

/-! ## Operations that update tri (R275) -/

theorem placedInTime_iff {x : RxUpdate} (feed : isFeed i = x.feed) :
    (if isFeed i then s.core.rxq.any fun o => !o.feed else !s.core.rxq.isEmpty) = true ↔ ¬ PlacedInTime x s := by
  rw [PlacedInTime, feed]
  split <;> simp

section

variable {x : RxUpdate} {vals : State → List Nat} {src : State → VReg} {clears : Bool} {l busy : Nat}

/-- R275: an update that issues in time joins those in flight, and is all that changes of the array but for the occupation. -/
theorem triOp_issues (ready : RxReady i s) (feed : isFeed i = x.feed) (placed : PlacedInTime x s) (may : MayEnter (vals s))
    (inRange : s.core.tri.range = false ∨ clears = true) : triOp i clears vals src l busy s =
      passSlot .rx (enqueueRx (newRx i (src s) l 0 s).1 (occupied busy (newRx i (src s) l 0 s).2)) := by
  have fine : (s.core.tri.range && !clears) = false := by rcases inRange with h | h <;> simp [h]
  rw [triOp, rxOp_ready ready, if_neg fun early => (placedInTime_iff feed).1 early placed, entersBad_of_mayEnter may, fine]
  rfl

/-- R514, R515: values that may not enter, and the range flag where the operation does not clear tri, raise 0x0031. -/
theorem triOp_bad (ready : RxReady i s) (trap : s.team.trap = none) (feed : isFeed i = x.feed) (placed : PlacedInTime x s)
    (bad : ¬ MayEnter (vals s) ∨ s.core.tri.range = true ∧ clears = false) :
    triOp i clears vals src l busy s = raised .rx 0x0031 0 ((encode i).getD 0) s := by
  have raises : (entersBad (vals s) || (s.core.tri.range && !clears)) = true := by
    rcases bad with bad | ⟨range, keeps⟩
    · rw [(entersBad_iff _).2 bad, Bool.true_or]
    · simp [range, keeps]
  rw [triOp, rxOp_ready ready, if_neg fun early => (placedInTime_iff feed).1 early placed, if_pos raises]
  exact takeTrap_eq trap

theorem triOp_early (ready : RxReady i s) (trap : s.team.trap = none) (feed : isFeed i = x.feed) (early : ¬ PlacedInTime x s) :
    triOp i clears vals src l busy s = raised .rx 0x0018 0 ((encode i).getD 0) s := by
  rw [triOp, rxOp_ready ready, if_pos ((placedInTime_iff feed).2 early)]
  exact takeTrap_eq trap

end

/-- Each operation that updates tri is `triOp` of its values and its source, and its update is that of its source. -/
theorem exec_rxUpdate {x : RxUpdate} (h : rxUpdateOf s i = some x) : ∃ vals src u,
    exec i s = .next (triOp i x.clears vals src x.lat x.busy s) ∧ vals s = x.enters ∧ isFeed i = x.feed ∧
      rxUpdate i = some u ∧ u (src s) = x.update := by
  unfold rxUpdateOf at h
  split at h <;> cases h
  all_goals exact ⟨_, _, _, rfl, by simp only [patterns_eq] <;> rfl, rfl, rfl, rfl⟩

/-- Every operation of the two statements is an RX operation. -/
theorem exec_rxArray (h : (rxResultOf s i).isSome = true ∨ (rxUpdateOf s i).isSome = true ∨ ∃ f, i = .rsolve f) :
    ∃ eff, exec i s = .next (rxOp i eff s) := by
  rcases h with h | h | ⟨f, rfl⟩
  · obtain ⟨x, h⟩ := Option.isSome_iff_exists.1 h
    obtain ⟨vals, src, value, run, -⟩ := exec_rxResult h
    exact ⟨_, run⟩
  · obtain ⟨x, h⟩ := Option.isSome_iff_exists.1 h
    obtain ⟨vals, src, u, run, -⟩ := exec_rxUpdate h
    exact ⟨_, run⟩
  · exact ⟨_, rfl⟩

end

/-- Settles O28: each operation but RSOLVE is `rxResult`, and RSOLVE issues when tri is neither out of range nor singular. -/
theorem rotationResults : Obligations.RotationResults := by
  unfold Obligations.RotationResults
  refine fun i s => ⟨fun x listed ready room may => ?_, fun f is ready room inRange regular => ?_⟩
  · obtain ⟨vals, src, value, run, enters, source, gives⟩ := exec_rxResult listed
    rw [run, rxResult_issues ready room (enters ▸ may), source, gives]
  · subst is
    have solvable : singular s.core.tri = false := Bool.eq_false_iff.2 fun h => regular ((singular_iff _).1 h)
    rw [exec_rsolve f ready room, inRange, solvable]
    exact congrArg _ (issueFixed_one (s := occupied 16 s) (by decide) room ..)

/-- Settles O29: the updates by what `triOp` queues, and the causes by the checks of `triOp`, `rxResult` and `rxOp` that raise them. -/
theorem rotationUpdatesAndTraps : Obligations.RotationUpdatesAndTraps := by
  unfold Obligations.RotationUpdatesAndTraps
  refine ⟨fun i s x listed ready placed may inRange => ?_, fun i s wf owner trap => ⟨fun x listed ready room bad => ?_,
    fun x listed ready => ?_, fun f is ready room => ?_, fun op busy => ?_⟩⟩
  · obtain ⟨vals, src, u, run, enters, feed, update, applies⟩ := exec_rxUpdate listed
    obtain ⟨-, -, idle, -⟩ := id ready
    rw [run, triOp_issues ready feed placed (enters ▸ may) inRange]
    have acts : (newRx i (src s) x.lat 0 s).1.tri = x.update s.core.pendingTri := by
      rw [← applies]
      simp [newRx, State.newId, update]
    have team := occupied_team x.busy (newRx i (src s) x.lat 0 s).2
    refine ⟨_, (newRx i (src s) x.lat 0 s).1, rfl, ?_, ?_, ?_, rfl, feed, rfl, acts, ?_, fun occupies => ?_, ?_, ?_, ?_⟩
    · show (Team.pass1 _ _).passed _ = _
      rw [passed_pass1_same, show (enqueueRx _ _).team = _ from team]
      rfl
    · exact occupied_tri ..
    · exact congrArg (· ++ _) (occupied_rxq ..)
    · exact occupied_rxBusy (s := (newRx i (src s) x.lat 0 s).2) _ idle
    · exact occupied_rxTeam (s := (newRx i (src s) x.lat 0 s).2) occupies
    · exact (congrArg regs team).symm
    · exact (congrArg Team.flight team :)
    · exact occupied_mem ..
  · obtain ⟨vals, src, value, run, enters, -⟩ := exec_rxResult listed
    rw [Raises, run, rxResult_bad ready trap room (enters ▸ bad)]
  · obtain ⟨vals, src, u, run, enters, feed, -⟩ := exec_rxUpdate listed
    refine ⟨fun early => ?_, fun placed bad => ?_⟩
    · rw [Raises, run, triOp_early ready trap feed early]
    · rw [Raises, run, triOp_bad ready trap feed placed (enters ▸ bad)]
  · subst is
    refine ⟨fun range => ?_, fun inRange zero => ?_⟩
    · rw [Raises, exec_rsolve f ready room, range]
      exact congrArg _ (takeTrap_eq trap)
    · rw [Raises, exec_rsolve f ready room, inRange, (singular_iff _).2 zero]
      exact congrArg _ (takeTrap_eq trap)
  · obtain ⟨eff, run⟩ := exec_rxArray op
    refine ⟨fun own => ?_, fun other => ?_⟩
    · rw [Raises, run, rxOp_inside wf owner trap busy own]
    · rw [run, rxOp_waits busy other]

end Sys2Proof.Laws
end

section
/-! SUPPORT. The accumulator memory (R260): the words that a cover reads and writes. -/

namespace Sys2Proof.Laws

open Machine Claims

/-! ## Lists of equal rows -/

theorem nth_lt {α : Type} {l : List α} {i : Nat} (h : i < l.length) (d : α) : nth l i d = l[i] := by simp [nth, h]

theorem nth_map_range {α : Type} (f : Nat → α) {i n : Nat} (h : i < n) (d : α) : nth ((List.range n).map f) i d = f i := by
  rw [nth_lt (by simpa using h), List.getElem_map, List.getElem_range]

theorem nth_zipWith {α β γ : Type} (f : α → β → γ) {l : List α} {m : List β} {i : Nat} (hl : i < l.length) (hm : i < m.length)
    (a : α) (b : β) (d : γ) : nth (List.zipWith f l m) i d = f (nth l i a) (nth m i b) := by
  rw [nth_lt (by simp; omega), nth_lt hl, nth_lt hm, List.getElem_zipWith]

theorem upFrom_succ (a n : Nat) : upFrom a (n + 1) = a :: upFrom (a + 1) n := by
  simp only [upFrom, List.range_succ_eq_map, List.map_cons, List.map_map, Nat.add_zero]
  exact congrArg _ (List.map_congr_left fun k _ => by simp; omega)

theorem mem_upFrom {a n k : Nat} : k ∈ upFrom a n ↔ a ≤ k ∧ k < a + n := by
  simp only [upFrom, List.mem_map, List.mem_range]
  exact ⟨by rintro ⟨j, h, rfl⟩; omega, fun h => ⟨k - a, by omega, by omega⟩⟩

theorem zip_upFrom_map {α : Type} (f : Nat → α) (n : Nat) : List.zip (upFrom 0 n) ((List.range n).map f) =
    (List.range n).map fun j => (j, f j) := by
  have ids : upFrom 0 n = (List.range n).map id := List.map_congr_left fun k _ => Nat.zero_add k
  rw [ids, List.zip_map']
  rfl

/-- Rows of one length, one after another, are one row. -/
theorem flatMap_rows {α : Type} (w : Nat) (g : Nat → Nat → α) (n : Nat) :
    ((List.range n).flatMap fun t => (List.range w).map (g t)) = (List.range (w * n)).map fun j => g (j / w) (j % w) := by
  induction n with
  | zero => simp
  | succ n ih =>
    rw [List.range_succ, List.flatMap_append, ih, Nat.mul_succ, List.range_add, List.map_append, List.flatMap_singleton, List.map_map]
    refine congrArg _ (List.map_congr_left fun j h => ?_)
    have lt : j < w := List.mem_range.1 h
    show g n j = g ((w * n + j) / w) ((w * n + j) % w)
    rw [Nat.mul_add_div (by omega), Nat.div_eq_of_lt lt, Nat.mul_add_mod, Nat.mod_eq_of_lt lt, Nat.add_zero]

/-- Part of a row. -/
theorem take_drop_range {α : Type} (f : Nat → α) {c n m : Nat} (h : c + n ≤ m) :
    (((List.range m).map f).drop c).take n = (List.range n).map fun j => f (c + j) :=
  List.ext_getElem (by simp; omega) fun j _ _ => by simp

/-- Row `n` of rows of one length. -/
theorem take_drop_flatMap {α β : Type} {f : α → List β} {k : Nat} {l : List α} (len : ∀ x ∈ l, (f x).length = k) {n : Nat}
    (h : n < l.length) : ((l.flatMap f).drop (k * n)).take k = f l[n] := by
  induction l generalizing n with
  | nil => simp at h
  | cons x l ih =>
    have first : (f x).length = k := len x (by simp)
    cases n with
    | zero => simp [← first]
    | succ n =>
      have rest : ∀ y ∈ l, (f y).length = k := fun y mem => len y (List.mem_cons_of_mem _ mem)
      have past : k * (n + 1) = (f x).length + k * n := by rw [first, Nat.mul_succ, Nat.add_comm]
      rw [List.flatMap_cons, past, List.drop_length_add_append, ih rest (by simpa using h)]
      rfl

/-! ## Reading (R260) -/

theorem length_row (a : Acc) (t i : Nat) : (a.row t i).length = 128 := by simp [Acc.row]

theorem row_eq_map (a : Acc) (t i : Nat) : a.row t i = (List.range 128).map fun c => nth (a.row t i) c 0 :=
  List.ext_getElem (by simp [length_row]) fun c h _ => by simp [nth_lt h]

/-- The tiles from `z` on, as one row of words. -/
theorem span_eq (a : Acc) (z i : Nat) : a.span z i = (List.range (128 * (8 - z))).map (accWord a z i) := by
  have rows : a.span z i = (List.range (8 - z)).flatMap fun t => (List.range 128).map fun c => nth (a.row (z + t) i) c 0 :=
    congrArg (List.range (8 - z)).flatMap (funext fun t => row_eq_map a (z + t) i)
  rw [rows, flatMap_rows]
  rfl

/-- The words of a cover that ends within the tiles. -/
theorem read_eq (a : Acc) {c : Cover} (within : c.col0 + c.cols ≤ 128 * (8 - c.z)) :
    a.read c = rowsOf c fun i j => accWord a c.z (c.row0 + i) (c.col0 + j) := by
  simp only [Acc.read, rowsOf, upFrom, List.map_map]
  refine List.map_congr_left fun i _ => ?_
  show ((a.span c.z (c.row0 + i)).drop c.col0).take c.cols = _
  rw [span_eq, take_drop_range _ within]

/-! ## Writing (R260) -/

/-- A row is what its key holds, and no other key. -/
theorem row_of_get? {a b : Acc} (epoch : a.epoch = b.epoch) {t i : Nat}
    (same : SMap.get? a.rows (128 * t + i) = SMap.get? b.rows (128 * t + i)) : a.row t i = b.row t i := by
  simp only [Acc.row, epoch, same]

theorem row_of_some {a : Acc} {t i : Nat} {r : List Word32} (held : SMap.get? a.rows (128 * t + i) = some r) {c : Nat} (h : c < 128) :
    nth (a.row t i) c 0 = nth r c 0 := by
  simp only [Acc.row, held]
  exact nth_map_range _ h _

/-- Values entered at keys that differ. -/
theorem get?_inserts {α : Type} {key : Nat → Nat} (inj : ∀ x y, key x = key y → x = y) (f : Nat → α) (ts : List Nat) (m : SMap α)
    (t : Nat) : SMap.get? (ts.foldl (fun m t => SMap.insert m (key t) (f t)) m) (key t) =
      if t ∈ ts then some (f t) else SMap.get? m (key t) := by
  induction ts generalizing m with
  | nil => rfl
  | cons x ts ih =>
    rw [List.foldl_cons, ih, get?_insert]
    by_cases same : t = x
    · subst same
      simp
    · have other : key t ≠ key x := fun h => same (inj _ _ h)
      simp [same, other]

theorem get?_inserts_other {α : Type} {key : Nat → Nat} (f : Nat → α) (ts : List Nat) (m : SMap α) {k : Nat}
    (h : ∀ t ∈ ts, k ≠ key t) : SMap.get? (ts.foldl (fun m t => SMap.insert m (key t) (f t)) m) k = SMap.get? m k := by
  induction ts generalizing m with
  | nil => rfl
  | cons x ts ih =>
    rw [List.foldl_cons, ih _ fun t mem => h t (List.mem_cons_of_mem _ mem), get?_insert, if_neg (h x (by simp))]

/-- The row of tile `z + t` once words have been put in it from column `c0` of tile `z` on. -/
def spanRow (a : Acc) (z r c0 : Nat) (xs : List Word32) (t : Nat) : List Word32 :=
  (List.zip (upFrom (128 * t) 128) (a.row (z + t) r)).map fun x => if c0 ≤ x.1 then nth xs (x.1 - c0) x.2 else x.2

/-- The tiles that words from column `c0` on meet. -/
def spanTiles (c0 n : Nat) : List Nat := upFrom (c0 / 128) ((c0 + n + 127) / 128 - c0 / 128)

theorem setSpan_rows (a : Acc) (z r c0 : Nat) (xs : List Word32) : (a.setSpan z r c0 xs).rows =
    (spanTiles c0 xs.length).foldl (fun m t => SMap.insert m (128 * (z + t) + r) (spanRow a z r c0 xs t)) a.rows := rfl

theorem nth_spanRow (a : Acc) (z r c0 : Nat) (xs : List Word32) (t : Nat) {c : Nat} (h : c < 128) : nth (spanRow a z r c0 xs t) c 0 =
    if c0 ≤ 128 * t + c ∧ 128 * t + c < c0 + xs.length then nth xs (128 * t + c - c0) 0 else nth (a.row (z + t) r) c 0 := by
  have row : c < (a.row (z + t) r).length := by rwa [length_row]
  rw [spanRow, nth_lt (by simp [upFrom, length_row, h]), List.getElem_map, List.getElem_zip, nth_lt row]
  simp only [upFrom, List.getElem_map, List.getElem_range]
  by_cases from_ : c0 ≤ 128 * t + c
  · by_cases below : 128 * t + c < c0 + xs.length
    · rw [if_pos from_, if_pos ⟨from_, below⟩, nth_lt (by omega), nth_lt (by omega)]
    · rw [if_pos from_, if_neg fun h => below h.2, nth, List.getElem?_eq_none (by omega)]
      rfl
  · rw [if_neg from_, if_neg fun h => from_ h.1]

/-- A row of words put from column `c0` of tile `z` on changes those words of its row, and no other word. -/
theorem accWord_setSpan (a : Acc) (z c0 : Nat) (xs : List Word32) {r i : Nat} (hr : r < 128) (hi : i < 128) (j : Nat) :
    accWord (a.setSpan z r c0 xs) 0 i j =
      if i = r ∧ 128 * z + c0 ≤ j ∧ j < 128 * z + c0 + xs.length then nth xs (j - (128 * z + c0)) 0 else accWord a 0 i j := by
  have col : j % 128 < 128 := Nat.mod_lt _ (by decide)
  simp only [accWord, Nat.zero_add]
  by_cases met : i = r ∧ z ≤ j / 128 ∧ j / 128 - z ∈ spanTiles c0 xs.length
  · obtain ⟨rfl, above, mem⟩ := met
    have held := get?_inserts (key := fun t => 128 * (z + t) + i) (fun x y h => by omega) (spanRow a z i c0 xs)
      (spanTiles c0 xs.length) a.rows (j / 128 - z)
    have key : 128 * (z + (j / 128 - z)) + i = 128 * (j / 128) + i := by omega
    rw [if_pos mem, key, ← setSpan_rows] at held
    rw [row_of_some held col, nth_spanRow _ _ _ _ _ _ col, show z + (j / 128 - z) = j / 128 by omega]
    have place : 128 * (j / 128 - z) + j % 128 - c0 = j - (128 * z + c0) := by omega
    have same : (c0 ≤ 128 * (j / 128 - z) + j % 128 ∧ 128 * (j / 128 - z) + j % 128 < c0 + xs.length) ↔
        i = i ∧ 128 * z + c0 ≤ j ∧ j < 128 * z + c0 + xs.length := by omega
    rw [place, if_congr same rfl rfl]
  · have kept := get?_inserts_other (key := fun t => 128 * (z + t) + r) (spanRow a z r c0 xs) (spanTiles c0 xs.length) a.rows
      (k := 128 * (j / 128) + i) fun t mem same => met ⟨by omega, by omega, by rwa [show j / 128 - z = t by omega]⟩
    have same : (a.setSpan z r c0 xs).row (j / 128) i = a.row (j / 128) i :=
      row_of_get? (a := a.setSpan z r c0 xs) (b := a) rfl (by rw [setSpan_rows, kept])
    rw [same, if_neg]
    rw [spanTiles, mem_upFrom] at met
    omega

/-- R269: rows put from a cover's first word on change the words that it covers, and no other word. -/
theorem accWord_puts (z c0 n : Nat) (xs : List (List Word32)) {r0 : Nat} (within : r0 + xs.length ≤ 128) (cols : ∀ r ∈ xs, r.length = n)
    (a : Acc) {i : Nat} (hi : i < 128) (j : Nat) :
    accWord ((List.zip (upFrom r0 xs.length) xs).foldl (fun a x => a.setSpan z x.1 c0 x.2) a) 0 i j =
      if r0 ≤ i ∧ i < r0 + xs.length ∧ 128 * z + c0 ≤ j ∧ j < 128 * z + c0 + n then
        nth (nth xs (i - r0) []) (j - (128 * z + c0)) 0
      else accWord a 0 i j := by
  induction xs generalizing r0 a with
  | nil => rw [if_neg (by simp only [List.length_nil]; omega)]; rfl
  | cons x xs ih =>
    have len : x.length = n := cols x (by simp)
    rw [List.length_cons] at within ⊢
    rw [upFrom_succ, List.zip_cons_cons, List.foldl_cons, ih (by omega) fun r mem => cols r (List.mem_cons_of_mem _ mem),
      accWord_setSpan _ _ _ _ (by omega) hi, len]
    by_cases first : i = r0
    · subst first
      rw [if_neg (by omega), Nat.sub_self]
      exact if_congr (by omega) rfl rfl
    · rw [if_neg (c := i = r0 ∧ _) fun h => first h.1]
      refine ite_congr (by simp only [eq_iff_iff]; omega) (fun h => ?_) fun _ => rfl
      rw [show i - r0 = i - (r0 + 1) + 1 by omega]
      rfl

/-- What a cover's words hold once its rows have been written, column by column of all tiles. -/
theorem accWord_write (a : Acc) {c : Cover} {xs : List (List Word32)} (rows : xs.length = c.rows) (cols : ∀ r ∈ xs, r.length = c.cols)
    (within : c.row0 + c.rows ≤ 128) {i : Nat} (hi : i < 128) (j : Nat) : accWord (a.write c xs) 0 i j =
      if c.row0 ≤ i ∧ i < c.row0 + c.rows ∧ 128 * c.z + c.col0 ≤ j ∧ j < 128 * c.z + c.col0 + c.cols then
        nth (nth xs (i - c.row0) []) (j - (128 * c.z + c.col0)) 0
      else accWord a 0 i j := by
  rw [← rows] at within ⊢
  rw [Acc.write, ← rows]
  exact accWord_puts c.z c.col0 c.cols xs within cols a hi j

end Sys2Proof.Laws
end

section
/-! SUPPORT. A line comes to a die's L2 on behalf of a team (R162, R348, R350, R364, R379): what the home and the L2 leave alone. -/

namespace Sys2Proof.Laws

open Machine Claims

/-! ## The home's fills -/

theorem steady_learnLeaf (loc : Nat) (s : State) : steady (learnLeaf loc s) = steady s := by
  unfold learnLeaf
  split
  · split <;> rfl
  · rfl

theorem steady_exponentAt (ipa : Nat) (s : State) : steady (exponentAt ipa s).2 = steady s := by
  unfold exponentAt
  split
  · split
    · dsimp only
      split <;> exact steady_snoop ..
    · rfl
  · split <;> rfl
  all_goals rfl

theorem steady_scaleRecord (j ipa : Nat) (s : State) : steady (scaleRecord j ipa s) = steady s := by
  unfold scaleRecord
  split
  · rfl
  · unfold errorRecord State.onHub
    dsimp only
    split <;> rfl

theorem steady_exponentsOf (j line : Nat) (is : List Nat) (s : State) : steady (exponentsOf j line is s).2 = steady s := by
  induction is generalizing s with
  | nil => rfl
  | cons i is ih =>
    unfold exponentsOf
    dsimp only
    refine (ih _).trans ?_
    split
    · exact steady_exponentAt ..
    · exact (steady_scaleRecord ..).trans (steady_exponentAt ..)

theorem steady_sideband (line : Nat) (s : State) : steady (sideband line s).2 = steady s := by
  unfold sideband
  split
  · rfl
  · exact steady_exponentsOf ..

theorem steady_hubFill (line pa : Nat) (s : State) : steady (hubFill line pa s).2 = steady s := by
  have fill : ∀ l : HubLine, steady ((sideband line s).2.onHub fun h => h.putLine l) = steady s := fun _ => steady_sideband line s
  unfold hubFill
  dsimp only
  split
  · split
    · rfl
    · exact fill _
  · exact fill _

theorem steady_homeRead (agent : Option Nat) (tenant line : Nat) (s : State) : steady (homeRead agent tenant line s).2 = steady s := by
  unfold homeRead
  split
  · split
    · split
      · rfl
      · exact (steady_hubFill ..).trans ((steady_snoop ..).trans (steady_learnLeaf ..))
    · rfl
  · split <;> rfl
  · rfl

theorem steady_homeWrite (agent : Option Nat) (tenant line : Nat) (bs : List (Option Byte)) (dir : Bool) (s : State) :
    steady (homeWrite agent tenant line bs dir s).2 = steady s := by
  unfold homeWrite
  split
  · split
    · split
      · rfl
      · refine (steady_homePut ..).trans ?_
        cases dir
        · exact steady_learnLeaf ..
        · exact (steady_snoop ..).trans (steady_learnLeaf ..)
    · rfl
  · split <;> rfl
  · rfl

/-! ## The L2 takes the line and makes room for it -/

theorem steady_freshenL2 (d : Nat) (t : Team) (path : Path) (line : Nat) (s : State) :
    steady (freshenL2 d t path line s).2 = steady s := by
  unfold freshenL2
  split
  · rfl
  · next l _ =>
    have write := steady_homeWrite (some d) l.tenant line l.dirtyBytes (dieTracked s d) s
    split
    · split
      · next e => rwa [e] at write
      · next e =>
        rw [e] at write
        exact (steady_later ..).trans ((steady_addWrite ..).trans ((steady_putL2 ..).trans write))
    · rfl

theorem steady_fillL2 (d : Nat) (t : Team) (path : Path) (line : Nat) (s : State) : steady (fillL2 d t path line s).2 = steady s := by
  have freshened := steady_freshenL2 d t path line s
  unfold fillL2
  split
  · next e => rwa [e] at freshened
  · next u e =>
    rw [e] at freshened
    have read := steady_homeRead (some d) t.tenant line u
    split
    · next e => rw [e] at read; exact read.trans freshened
    · next e => rw [e] at read; exact (steady_putL2 ..).trans (read.trans freshened)

theorem steady_evictL2_by (r : TeamRef) (path : Path) (d : Nat) (l : Line) (s : State) :
    steady (evictL2 (some (r, path)) d l s) = steady s := by
  unfold evictL2
  dsimp only
  split
  · exact steady_putL2 ..
  · exact (steady_putL2 ..).trans (steady_sendWriteBack ..)

theorem steady_roomL2 (r : TeamRef) (path : Path) (d line : Nat) (s : State) : steady (roomL2 (some (r, path)) d line s) = steady s := by
  unfold roomL2
  generalize ((s.dieAt d).sliceSet line).length - (s.dieAt d).sliceLines = k
  induction k generalizing s with
  | zero => rfl
  | succ k ih =>
    unfold shrinkSlice
    dsimp only
    split
    · rfl
    · split
      · rfl
      · exact (ih _).trans (steady_evictL2_by ..)

end Sys2Proof.Laws
end

section
/-! SUPPORT. MX operations complete and their lines arrive (R166, R167, R264, R267, R269): O27. -/

namespace Sys2Proof.Laws

open Machine Claims

/-! ## Integer products (R167) -/

theorem ofInt_oldOr (clr : Bool) (x : Word32) : BitVec.ofInt 32 (oldOr clr x) = BitVec.ofInt 32 (if clr then 0 else x.toInt) := by
  cases clr
  · simp [oldOr]
  · rfl

/-- The element of an 8-bit format that a byte holds. -/
theorem rowBytes8_eq {fmt : Nat} (int : fmt = 9 ∨ fmt = 10) {r : List Byte × List Nat} (whole : r.1.length = 64) :
    rowBytes8 fmt r = (List.range 64).map fun k => if fmt = 9 then (nth r.1 k 0).toInt else ((nth r.1 k 0).toNat : Int) := by
  refine List.ext_getElem (by simp [rowBytes8, whole]) fun k h _ => ?_
  have lt : k < r.1.length := by simpa [rowBytes8] using h
  simp only [rowBytes8, List.getElem_map, List.getElem_range, nth_lt lt]
  rcases int with rfl | rfl
  · simp [readInt_signed]
  · have small : ((r.1[k].toNat % 256 : Nat) : Int) = r.1[k].toNat := congrArg _ (Nat.mod_eq_of_lt r.1[k].isLt)
    simpa [readInt] using small

theorem sumProducts_map (f g : Nat → Int) (n : Nat) :
    sumProducts ((List.range n).map f) ((List.range n).map g) = ((List.range n).map fun k => f k * g k).sum := by
  rw [sumProducts, ← List.sum_eq_foldl, List.zipWith_map, List.zipWith_self]

/-- R167: the elements of an i8 or an n8 MMA are exact sums modulo 2^32. -/
theorem mmaValue_int {fmt : Nat} (int : fmt = 9 ∨ fmt = 10) (clr : Bool) {old : List (List Word32)} {as bs : List (List Byte × List Nat)}
    {i j : Nat} (hi : i < as.length) (hi' : i < old.length) (hj : j < bs.length) (hj' : j < (nth old i []).length) :
    nth (nth (mmaValue fmt clr old as bs) i []) j 0 = BitVec.ofInt 32 ((oldOr clr (nth (nth old i []) j 0) : Int) +
      sumProducts (rowBytes8 fmt (nth as i ([], []))) (rowBytes8 fmt (nth bs j ([], [])))) := by
  have kind : mxBfp fmt = false ∧ mxInt fmt = true := by rcases int with rfl | rfl <;> decide
  have col : nth (bs.map (rowBytes8 fmt)) j [] = rowBytes8 fmt (nth bs j ([], [])) := by
    rw [nth_lt (by simpa using hj), nth_lt hj, List.getElem_map]
  rw [mmaValue, kind.1, kind.2]
  simp only [Bool.false_eq_true, if_false, if_true]
  rw [nth_zipWith _ hi hi' ([], []) [], nth_zipWith _ (by simpa using hj) hj' [] 0, col]

/-! ## The writes complete (R269) -/

/-- R269: what MMA_WRITE does of an operation that is queued. -/
theorem exec_mmaWrite {s : State} {o : MxOp} (front : Foreground s s.occ.team)
    (queued : s.core.mxq.find? (fun o => o.id = s.occ.id) = some o) : ∃ e,
    exec .mmaWrite s = .next ((s.modTeam o.team (retire s.core .mx e)).onCore fun c =>
      { c with acc := c.acc.write o.cover o.value, mxq := c.mxq.filter fun x => x.id ≠ o.id }) := by
  have named : o.id = s.occ.id := by simpa using List.find?_some queued
  have run : exec .mmaWrite s = .next (writeMx s.occ.id (s.focus s.occ.team)) := rfl
  rw [run, focus_of_foreground front, writeMx, queued, named]
  exact ⟨_, rfl⟩

/-! ## A line arrives (R264, R267) -/

/-- The operation once it waits for a line no more. -/
def withLine (o : MxOp) (line : Nat) : MxOp :=
  { o with waiting := o.waiting.filter (· ≠ line), held := o.held.filter (· ≠ line) }

theorem tileLine_arrives {s u : State} {o : MxOp} {line : Nat} (fills : fillL2 s.core.die (s.teamAt o.team) .tf line s = (none, u)) :
    steady (tileLine o line s) = steady (putMx (withLine o line) s) := by
  have filled := steady_fillL2 s.core.die (s.teamAt o.team) .tf line s
  rw [fills] at filled
  have put : steady (putMx (withLine o line) u) = steady (putMx (withLine o line) s) :=
    congrArg (fun x : Steady => { x with core := (putMx (withLine o line) { s with core := x.core }).core }) filled
  rw [tileLine, fills]
  exact (steady_roomL2 ..).trans put

/-- Settles O27: the words that a completing operation covers by `accWord_write`, the sums by `mmaValue_int`, and an arrival by what
it puts in the queue. -/
theorem matrixWritesAndFetches : Obligations.MatrixWritesAndFetches := by
  unfold Obligations.MatrixWritesAndFetches
  refine ⟨⟨fun s o front queued rows cols below _ => ?_, fun fmt clr old as bs i j int hi hi' hj hj' => ?_⟩,
    fun s u o front queued fills => ?_⟩
  · obtain ⟨e, run⟩ := exec_mmaWrite front queued
    refine ⟨_, run, modTeam_mem .., ?_, ?_, fun i j hi _ => ?_⟩
    · show regs s.team = regs (s.modTeam o.team _).team
      rw [modTeam_team]
      split
      · rw [regs_retire]
      · rfl
    · show (s.modTeam o.team _).core.mxq.filter _ = _
      rw [modTeam_core]
    · show accWord ((s.modTeam o.team _).core.acc.write o.cover o.value) 0 i j = _
      rw [modTeam_core, accWord_write _ rows cols below hi]
  · intro elem wholeA wholeB
    rw [mmaValue_int int clr hi hi' hj hj', rowBytes8_eq int wholeA, rowBytes8_eq int wholeB, sumProducts_map, BitVec.ofInt_add,
      ofInt_oldOr, ← BitVec.ofInt_add]
  · have run : exec .tileFetchLineArrival s = .next (tileLine o s.occ.aux s) := by
      show execTileFetchLineArrival s = _
      rw [execTileFetchLineArrival, focus_of_foreground front, queued]
    have arrives := tileLine_arrives fills
    have team : { (tileLine o s.occ.aux s).team with vars := [], writes := [] } = { s.team with vars := [], writes := [] } :=
      congrArg Steady.team arrives
    refine ⟨_, run, ?_, ?_, ?_⟩
    · exact (congrArg regs team :).symm
    · exact (congrArg Team.passed team :)
    · refine (congrArg (fun x : Steady => x.core.mxq) arrives).trans ?_
      show modWhere _ _ s.core.mxq = _
      simp only [modWhere, decide_eq_true_eq]
      rfl

end Sys2Proof.Laws
end

section
/-! SUPPORT. MX operations issue (R82, R93, R269, R422, R507): what leaves the slot, what joins the array's queue, and the rows, tags
and lines that it names: O24 and O26. -/

namespace Sys2Proof.Laws

open Machine Claims

/-! ## Who may issue (R45, R82, R507) -/

theorem mxOp_ready {i : Instr} {cover : Option Cover} {s : State} (ready : MxReady i cover s) (eff : State → State) :
    mxOp i cover eff s = eff s := by
  obtain ⟨wf, owner, free, few⟩ := ready
  have open_ : cover.any (interlocked s.core) = false := by
    cases cover with
    | none => rfl
    | some c =>
      rw [Option.any_some, interlocked, List.any_eq_false]
      exact fun o queued lock => free c rfl o queued (by simpa using lock)
  simp [mxOp, ownerOp, slotOp, wf, owner, open_, Nat.not_le.2 few]

/-! ## The slot passes, and REPT steps the address registers (R93) -/

/-- The address registers stepped one after another. -/
def steps (rs : List (BitVec 4)) (t : Team) : Team := rs.foldl (fun t r => t.write (.a r (t.ra r + t.rd r))) t

theorem regs_steps (rs : List (BitVec 4)) (t : Team) : regs (steps rs t) = steps rs (regs t) := by
  unfold steps
  induction rs generalizing t with
  | nil => rfl
  | cons r rs ih =>
    rw [List.foldl_cons, ih, regs_write]
    rfl

theorem steps_flight (rs : List (BitVec 4)) (t : Team) : (steps rs t).flight = t.flight :=
  foldl_keeps _ (fun _ _ => write_flight ..) rs t

theorem steps_pass (rs : List (BitVec 4)) (t : Team) : (steps rs t).pass = t.pass := foldl_keeps _ (fun _ _ => write_pass ..) rs t

theorem steps_vars (rs : List (BitVec 4)) (t : Team) : (steps rs t).vars = t.vars := foldl_keeps _ (fun _ _ => write_vars ..) rs t

theorem steps_writes (rs : List (BitVec 4)) (t : Team) : (steps rs t).writes = t.writes :=
  foldl_keeps _ (fun _ _ => write_writes ..) rs t

theorem passMx_team (rs : List (BitVec 4)) (s : State) :
    (passMx rs s).team = (if underRept s then steps rs s.team else s.team).pass1 .mx := by
  have same : (match s.team.placedAt (s.team.passed .mx) with
      | some p => p.rept
      | none => false) = underRept s := by
    unfold underRept
    split <;> next e => simp [e]
  rw [← same]
  rfl

theorem passMx_vars (rs : List (BitVec 4)) (s : State) : (passMx rs s).team.vars = s.team.vars := by
  rw [passMx_team]
  show Team.vars (if underRept s then _ else _) = _
  split
  · exact steps_vars ..
  · rfl

theorem passMx_writes (rs : List (BitVec 4)) (s : State) : (passMx rs s).team.writes = s.team.writes := by
  rw [passMx_team]
  show Team.writes (if underRept s then _ else _) = _
  split
  · exact steps_writes ..
  · rfl

/-- The slot passes its position, with nothing changed but what an MX operation is to change. -/
theorem mxLeaves_passMx {s u : State} (rs : List (BitVec 4)) (mem : u.mem = s.mem) (acc : u.core.acc = s.core.acc)
    (flight : u.team.flight = s.team.flight) (queue : u.team.queue = s.team.queue) (pass : u.team.pass = s.team.pass)
    (same : regs u.team = regs s.team) : MxLeaves rs s (passMx rs u) := by
  have rept : underRept u = underRept s := by
    unfold underRept Team.placedAt Team.passed
    rw [queue, pass]
  refine ⟨?_, mem, ?_, acc, ?_⟩
  · rw [Passed, passMx_team, passed_pass1_same, Team.passed, Team.passed, ← pass]
    split
    · rw [steps_pass]
    · rfl
  · rw [passMx_team]
    refine Eq.trans ?_ flight
    split
    · exact steps_flight ..
    · rfl
  · rw [passMx_team, rept]
    show regs (if underRept s then _ else _) = regs (if underRept s then steps rs s.team else _)
    split
    · rw [regs_steps, regs_steps, same]
    · exact same

/-! ## Rows fixed at the issue (R271, R272) -/

theorem rowsOf_zero (c : Cover) : rowsOf c (fun _ _ => 0) = List.replicate c.rows (List.replicate c.cols 0) := by
  simp [rowsOf, List.map_const']

theorem rowsOf_half (f : MrForm) (v : VReg) : rowsOf (halfRow f) (fun _ l => vget v l 0) = [v.toList] := by
  have row : ((List.range 64).map fun l => vget v l 0) = v.toList :=
    List.ext_getElem (by simp) fun l h _ => by simp [vget_lt _ _ _ (show l < 64 by simpa using h)]
  exact congrArg (fun r => [r]) row

/-- A shape that a well-formed word names ends within the tiles (R122). -/
theorem shape_within {z : BitVec 3} {n16 : BitVec 6} {msel : BitVec 2} (ok : shapeOk z n16 msel = true) :
    0 + 16 * n16.toNat ≤ 128 * (8 - z.toNat) := by
  simp only [shapeOk, tileSpanOk, Bool.and_eq_true, decide_eq_true_eq] at ok
  omega

theorem scaleElem_eq (int : Bool) (k : Int) (x : Word32) : scaleElem int k x = scaled int k x := by
  unfold scaleElem scaled
  cases int
  · simp only [Bool.false_eq_true, if_false]
    split
    · rfl
    · next neg _ => cases neg <;> rfl
    · rfl
  · simp only [if_true]
    split
    · refine BitVec.eq_of_toNat_eq ?_
      rw [BitVec.toNat_shiftLeft, Nat.shiftLeft_eq, BitVec.toNat_ofNat]
    · rw [BitVec.sshiftRight, Int.shiftRight_eq_div_pow]
      norm_cast

section

variable {i : Instr} {s : State} {c : Cover}

/-- An operation whose rows are fixed at its issue. -/
theorem putOp_queues (rows : List (List Word32)) (src : VReg) (after : Nat) :
    MxLeaves [] s (putOp i c src rows after s) ∧ Queues s (putOp i c src rows after s) c after rows :=
  ⟨mxLeaves_passMx _ rfl rfl rfl rfl rfl rfl, _, rfl, rfl, rfl, rfl, rfl, rfl⟩

theorem putExec_queues {src : VReg} {rows : List (List Word32)} (names : putRows s src i = some (c, rows)) (ready : MxReady i (some c) s)
    (after : Nat) : MxLeaves [] s (putExec i src after s) ∧ Queues s (putExec i src after s) c after rows := by
  rw [putExec, names]
  dsimp only
  rw [mxOp_ready ready]
  exact putOp_queues ..

end

/-! ## The moves (R271, R272) -/

section

variable {s : State}

theorem mzero_queues {f : MxForm} (ready : MxReady (.mzero f) (some (shape f)) s) : ∃ t, exec (.mzero f) s = .next t ∧
    MxLeaves [] s t ∧ Queues s t (shape f) (4 + ((shape f).rows * (shape f).cols + 4095) / 4096) (rowsOf (shape f) fun _ _ => 0) := by
  rw [rowsOf_zero]
  exact ⟨_, rfl, putExec_queues rfl ready _⟩

theorem mwr_queues {f : MrForm} (ready : MxReady (.mwr f) (some (halfRow f)) s) : ∃ t, exec (.mwr f) s = .next t ∧ MxLeaves [] s t ∧
    Queues s t (halfRow f) 4 (rowsOf (halfRow f) fun _ l => vget (s.team.rv f.v) l 0) := by
  rw [rowsOf_half]
  exact ⟨_, rfl, putExec_queues rfl ready _⟩

theorem mscl_queues {f : MsForm} (ready : MxReady (.mscl f) (some (scaledShape f)) s) : ∃ t, exec (.mscl f) s = .next t ∧
    MxLeaves [] s t ∧ Queues s t (scaledShape f) (4 + ((scaledShape f).rows * (scaledShape f).cols + 1023) / 1024)
      (rowsOf (scaledShape f) fun i j =>
        scaled (vget s.core.tags (f.z.toNat + j / 128) false) f.k.toInt (accWord s.core.acc f.z.toNat i j)) := by
  obtain ⟨wf, -⟩ := id ready
  have ok : shapeOk f.z f.n16 f.msel = true := by
    simp only [Instr.wf, Bool.and_eq_true] at wf
    obtain ⟨ok, -⟩ := wf
    exact ok
  refine ⟨_, rfl, putExec_queues ?_ ready _⟩
  refine congrArg (fun rows => some (scaledShape f, rows)) ?_
  show (s.core.acc.read (scaledShape f)).map _ = _
  rw [read_eq _ (shape_within ok), rowsOf, rowsOf, List.map_map]
  refine List.map_congr_left fun i _ => ?_
  show (List.zip (upFrom 0 (scaledShape f).cols) _).map _ = _
  rw [zip_upFrom_map, List.map_map]
  refine List.map_congr_left fun j _ => ?_
  show scaleElem _ _ (accWord s.core.acc f.z.toNat (0 + i) (0 + j)) = _
  rw [scaleElem_eq, Nat.zero_add, Nat.zero_add]
  rfl

theorem mrd_reads {f : MrForm} (ready : MxReady (.mrd f) (some (halfRow f)) s) (room : Room s 1) : ∃ x : VReg,
    (∀ l, l < 64 → vget x l 0 = accWord s.core.acc f.z.toNat f.row.toNat (64 * f.half.toNat + l)) ∧
      exec (.mrd f) s = .next (issued .mx (tracked .mx (.mrd f) VReg.zero 8 s)
        [result .mx (.mrd f) s 32 8 (.v f.v (BitVec.allOnes 64) x)]) := by
  have within : 64 * f.half.toNat + 64 ≤ 128 * (8 - f.z.toNat) := by omega
  refine ⟨Vector.ofFn fun l => nth (nth (s.core.acc.read (halfRow f)) 0 []) l.val 0, fun l lt => ?_, ?_⟩
  · rw [vget_ofFn _ _ l lt, read_eq _ within]
    exact nth_map_range _ lt _
  · show execMrd f s = _
    rw [execMrd, show halfCover f = halfRow f from rfl, mxOp_ready ready]
    exact congrArg _ (issueFixed_one (by decide) room ..)

end

/-! ## Transfers that name panels (R263, R266, R271, R273) -/

theorem rowBytesOf_eq (fmt : Nat) : mxRb fmt = rowBytesOf fmt := by
  simp [mxRb, rowBytesOf, nth]

section

variable {f : MxForm} {s : State} {p : Panel}

theorem shapeCover_eq : shapeCover f.z f.n16 f.msel = shape f := rfl

theorem mldb_queues (ready : MxReady (.mldb f) none s)
    (panel : panelAt s (.b (decide (f.fmt.toNat ≤ 6))) .read (s.team.ra f.aB) (shape f).cols (rowBytesOf f.fmt.toNat) = .ok p)
    (fits : pinsFit s.core (dedup (p.lines s.hub.package)) = true) :
    ∃ t o, exec (.mldb f) s = .next t ∧ MxLeaves [f.aB] s t ∧ t.core.mxq = s.core.mxq ++ [o] ∧
      o.kind = .mldb f.fmt.toNat ∧ o.cover.cols = (shape f).cols ∧ o.writes = false ∧ o.bPanel = some p ∧ o.arrived = false ∧
      Pins s t o [] false (dedup (p.lines s.hub.package)) := by
  rw [← rowBytesOf_eq] at panel
  have run : exec (.mldb f) s = _ := congrArg Host.Outcome.next (mxOp_ready ready _)
  rw [show panelAt s (.b (mxBfp f.fmt.toNat)) .read (s.team.ra f.aB) (mxN f.n16) (mxRb f.fmt.toNat) = .ok p from panel] at run
  dsimp only at run
  rw [withPins, if_pos fits] at run
  exact ⟨_, _, run, mxLeaves_passMx _ rfl rfl rfl rfl rfl rfl, rfl, rfl, rfl, rfl, rfl, rfl, _, rfl, rfl, rfl, rfl, rfl, rfl, rfl⟩

theorem mrel_releases (ready : MxReady (.mrel f) none s) : ∃ t, exec (.mrel f) s = .next t ∧ MxLeaves [f.aA] s t ∧
    t.core.mxq = s.core.mxq ∧ t.core.pins = (s.core.pins.map fun q =>
      if q.held = true ∧ s.team.ra f.aA ∈ q.bases then { q with released := true } else q).filter
        fun q => !(q.ended && (!q.held || q.released)) := by
  have run : exec (.mrel f) s = _ := congrArg Host.Outcome.next (mxOp_ready ready _)
  refine ⟨_, run, mxLeaves_passMx _ rfl rfl rfl rfl rfl rfl, rfl, ?_⟩
  show (s.core.pins.map _).filter _ = _
  simp only [Bool.and_eq_true, List.contains_iff_mem]
  rfl

theorem mldz_queues (ready : MxReady (.mldz f) (some (shape f)) s) (aligned : 4 ∣ (s.team.ra f.aA).toNat)
    (panel : panelAt s .tile .read (s.team.ra f.aA) (shape f).rows (4 * (shape f).cols) = .ok p) :
    ∃ t o, exec (.mldz f) s = .next t ∧ MxLeaves [f.aA] s t ∧ t.core.mxq = s.core.mxq ++ [o] ∧ o.kind = .mldz ∧
      o.cover = shape f ∧ o.writes = true ∧ o.aPanel = some p ∧ o.arrived = false ∧ o.after = none := by
  have run : exec (.mldz f) s = _ := congrArg Host.Outcome.next (mxOp_ready ready _)
  rw [if_neg (not_not.2 (Nat.mod_eq_zero_of_dvd aligned)), shapeCover_eq, panel] at run
  exact ⟨_, _, run, mxLeaves_passMx _ rfl rfl rfl rfl rfl rfl, rfl, rfl, rfl, rfl, rfl, rfl, rfl⟩

/-! ## MSTZ reads its tile, and its write waits for the home (R225, R264, R273) -/

theorem length_natBytes (n x : Nat) : (natBytes n x).length = n := by
  induction n generalizing x with
  | zero => rfl
  | succ n ih => simp [natBytes, ih]

theorem number_natBytes (n x : Nat) : number (natBytes n x) = x % 256 ^ n := by
  induction n generalizing x with
  | zero => simp [natBytes, number, Nat.mod_one]
  | succ n ih =>
    have more : 256 ^ (n + 1) = 2 ^ 8 * 256 ^ n := Nat.pow_succ'
    rw [natBytes, number, ih, BitVec.toNat_ofNat, more, Nat.mod_mul]
    rfl

/-- The bytes of a word, the lowest address first. -/
def wordOf (x : Word32) : List Byte := natBytes 4 x.toNat

theorem number_wordOf (x : Word32) : number (wordOf x) = x.toNat := by
  rw [wordOf, number_natBytes]
  exact Nat.mod_eq_of_lt x.isLt

/-- The bytes of rows of words, row by row. -/
def bytesOfRows (rows : List (List Word32)) : List Byte := rows.flatMap fun r => r.flatMap wordOf

section

variable (c : Cover) (v : Nat → Nat → Word32)

theorem length_bytesOfRow (r : List Word32) : (r.flatMap wordOf).length = 4 * r.length := by
  induction r with
  | nil => rfl
  | cons x r ih => rw [List.flatMap_cons, List.length_append, ih, wordOf, length_natBytes, List.length_cons]; omega

theorem length_rowsOf : (rowsOf c v).length = c.rows := by simp [rowsOf]

theorem length_bytesOfRows : (bytesOfRows (rowsOf c v)).length = 4 * c.rows * c.cols := by
  unfold bytesOfRows rowsOf
  rw [List.length_flatMap, List.map_map]
  have each : ∀ i ∈ List.range c.rows,
      ((fun r : List Word32 => (r.flatMap wordOf).length) ∘ fun i => (List.range c.cols).map (v i)) i = 4 * c.cols := fun i _ => by
    rw [Function.comp_apply, length_bytesOfRow, List.length_map, List.length_range]
  rw [List.map_congr_left each, List.map_const', List.sum_replicate, List.length_range, smul_eq_mul]
  ring

/-- The four bytes of a word stand where its row and column place them. -/
theorem word_bytesOfRows {i j : Nat} (hi : i < c.rows) (hj : j < c.cols) :
    ((bytesOfRows (rowsOf c v)).drop (4 * (i * c.cols + j))).take 4 = wordOf (v i j) := by
  have rows : ∀ r ∈ rowsOf c v, (r.flatMap wordOf).length = 4 * c.cols := fun r mem => by
    obtain ⟨i, -, rfl⟩ := List.mem_map.1 mem
    rw [length_bytesOfRow, List.length_map, List.length_range]
  have row : ((bytesOfRows (rowsOf c v)).drop (4 * c.cols * i)).take (4 * c.cols) = ((List.range c.cols).map (v i)).flatMap wordOf := by
    rw [bytesOfRows, take_drop_flatMap rows (by rwa [length_rowsOf])]
    simp [rowsOf]
  have word : ((((List.range c.cols).map (v i)).flatMap wordOf).drop (4 * j)).take 4 = wordOf (v i j) := by
    rw [take_drop_flatMap (fun x _ => length_natBytes 4 x.toNat) (by simpa using hj)]
    simp
  have place : 4 * (i * c.cols + j) = 4 * c.cols * i + 4 * j := by ring
  rw [← word, ← row, List.drop_take, List.take_take, List.drop_drop, place, Nat.min_eq_left (by omega)]

end

/-- An access that is none of elements goes to its home from its slot (R79, R366). -/
theorem sendAccess_mstz {a : Access} {data : List Byte} (op : a.op = .mstz data) (s : State) :
    sendAccess a s = leaveDie a { s with team := { s.team with vars := s.team.vars ++ [a] } } := by
  have stays : ∀ s, performOwn a s = (a, s) := fun s => by simp [performOwn, op, AccOp.anyOrder]
  have whole : a.op.elements = false := by rw [op]; rfl
  have same : unspecify a.op s = s := by rw [op]; rfl
  unfold sendAccess
  simp only [stays, whole, same, Bool.and_false, Bool.false_eq_true, if_false]
  rfl

theorem leaveDie_core (a : Access) (s : State) : (leaveDie a s).core = s.core := by
  unfold leaveDie
  dsimp only
  split
  · exact congrArg Steady.core (steady_sendOn ..)
  · rfl

/-- R225: a write of the acting team that holds no entry of ls joins those that RELC counts, in every field. -/
theorem countStore_tf {a : Access} {s : State} (own : a.team = s.team.ref) (path : a.path = .tf) : countStore a s =
    ({ a with wid := some s.fresh }, { s with
      fresh := s.fresh + 1
      team := { s.team with writes := s.team.writes ++ [{ PendingWrite.new .tf with id := s.fresh, pos := a.pos }] } }) := by
  unfold countStore addWrite State.modTeam
  rw [path, own]
  exact Prod.ext rfl (if_pos rfl)

/-- The access of an MSTZ, which counts as one write from its issue on. -/
def mstzAccess (f : MxForm) (data : List Byte) (parts : List Part) (s : State) : Access :=
  { (newAccess .mx (.mstz f) (s.team.ra f.aA).toNat none false .l2 (.mstz data) parts s).1 with path := .tf, wid := some (s.fresh + 1) }

/-- The state once the access of an MSTZ is among the team's, and its write is counted. -/
def mstzSent (f : MxForm) (data : List Byte) (parts : List Part) (s : State) : State :=
  { s with
    fresh := s.fresh + 2
    team := { s.team with
      writes := s.team.writes ++ [{ PendingWrite.new .tf with id := s.fresh + 1, pos := s.team.passed .mx }]
      vars := s.team.vars ++ [mstzAccess f data parts s] } }

/-- MSTZ once its panel has passed its checks. -/
def mstzFrom (f : MxForm) (data : List Byte) (parts : List Part) (s : State) : State :=
  let (x, s) := newAccess .mx (.mstz f) (s.team.ra f.aA).toNat none false .l2 (.mstz data) parts s
  let (x, s) := countStore { x with path := .tf } s
  passMx [f.aA] (sendAccess x s)

theorem mstzFrom_eq (data : List Byte) (parts : List Part) :
    mstzFrom f data parts s = passMx [f.aA] (leaveDie (mstzAccess f data parts s) (mstzSent f data parts s)) := by
  unfold mstzFrom
  dsimp only
  rw [countStore_tf rfl rfl]
  exact congrArg (passMx [f.aA]) (sendAccess_mstz (a := mstzAccess f data parts s) rfl _)

/-- R225, R273: MSTZ changes no register, sends its access and counts its write. -/
theorem mstzFrom_does (data : List Byte) (parts : List Part) : MxLeaves [f.aA] s (mstzFrom f data parts s) ∧
    (mstzFrom f data parts s).core.mxq = s.core.mxq ∧
    (mstzFrom f data parts s).team.vars = s.team.vars ++ [mstzAccess f data parts s] ∧
    ∀ sc, (Unacknowledged (mstzFrom f data parts s) sc).length = (Unacknowledged s sc).length + 1 := by
  obtain ⟨mem, team⟩ := leaveDie_keeps (mstzAccess f data parts s) (mstzSent f data parts s)
  have core := leaveDie_core (mstzAccess f data parts s) (mstzSent f data parts s)
  rw [mstzFrom_eq]
  refine ⟨mxLeaves_passMx _ mem (congrArg Core.acc core :) ?_ ?_ ?_ ?_, (congrArg Core.mxq core :), ?_, fun sc => ?_⟩
  · rw [team]; rfl
  · rw [team]; rfl
  · rw [team]; rfl
  · rw [team]; rfl
  · rw [passMx_vars, team]
    rfl
  · rw [Unacknowledged, passMx_writes, team]
    show ((s.team.writes ++ [_]).filter _).length = _
    rw [List.filter_append, List.length_append, Unacknowledged]
    simp [PendingWrite.new]

theorem exec_mstz (ready : MxReady (.mstz f) (some (shape f)) s) (aligned : 4 ∣ (s.team.ra f.aA).toNat)
    (panel : panelAt s .tile .write (s.team.ra f.aA) (shape f).rows (4 * (shape f).cols) = .ok p) : exec (.mstz f) s =
      .next (mstzFrom f (bytesOfRows (s.core.acc.read (shape f)))
        (p.pieces.map fun q => { ipa := q.1, size := q.2, lane := 0, data := 0 }) s) := by
  have run : exec (.mstz f) s = _ := congrArg Host.Outcome.next (mxOp_ready ready _)
  rw [if_neg (not_not.2 (Nat.mod_eq_zero_of_dvd aligned)), shapeCover_eq, panel] at run
  exact run

theorem mstz_sends (ready : MxReady (.mstz f) (some (shape f)) s) (aligned : 4 ∣ (s.team.ra f.aA).toNat)
    (panel : panelAt s .tile .write (s.team.ra f.aA) (shape f).rows (4 * (shape f).cols) = .ok p) :
    ∃ t x data, exec (.mstz f) s = .next t ∧ MxLeaves [f.aA] s t ∧ t.core.mxq = s.core.mxq ∧
      t.team.vars = s.team.vars ++ [x] ∧ x.op = .mstz data ∧ x.phase = .pending ∧
      x.parts = (p.pieces.map fun q => { ipa := q.1, size := q.2, lane := 0, data := 0 }) ∧
      data.length = 4 * (shape f).rows * (shape f).cols ∧
      (∀ i j, i < (shape f).rows → j < (shape f).cols →
        number ((data.drop (4 * (i * (shape f).cols + j))).take 4) = (accWord s.core.acc f.z.toNat i j).toNat) ∧
      ∀ sc, (Unacknowledged t sc).length = (Unacknowledged s sc).length + 1 := by
  obtain ⟨wf, -⟩ := id ready
  have ok : shapeOk f.z f.n16 f.msel = true := by
    simp only [Instr.wf, Bool.and_eq_true] at wf
    obtain ⟨⟨⟨ok, -⟩, -⟩, -⟩ := wf
    exact ok
  have read := read_eq s.core.acc (c := shape f) (shape_within ok)
  obtain ⟨leaves, queue, vars, counted⟩ := mstzFrom_does (f := f) (s := s) (bytesOfRows (s.core.acc.read (shape f)))
    (p.pieces.map fun q => { ipa := q.1, size := q.2, lane := 0, data := 0 })
  refine ⟨_, _, _, exec_mstz ready aligned panel, leaves, queue, vars, rfl, rfl, rfl, ?_, fun i j hi hj => ?_, counted⟩
  · rw [read, length_bytesOfRows]
  · rw [read, word_bytesOfRows _ _ hi hj, number_wordOf]
    show (accWord _ _ (0 + i) (0 + j)).toNat = _
    rw [Nat.zero_add, Nat.zero_add]
    rfl

end

/-- Settles O26: the moves put their rows in the queue or read theirs, the transfers name their panels. -/
theorem matrixMovesAndTransfers : Obligations.MatrixMovesAndTransfers := by
  unfold Obligations.MatrixMovesAndTransfers
  exact ⟨⟨fun f s => mzero_queues, fun f s => ⟨mrd_reads, mwr_queues⟩, fun f s => mscl_queues⟩,
    fun f s p => ⟨mldb_queues, mrel_releases, mldz_queues, mstz_sends⟩⟩

end Sys2Proof.Laws
end

section
/-! SUPPORT. An MMA joins the array's queue (R261, R266, R268 to R270): O24. -/

namespace Sys2Proof.Laws

open Machine Claims

/-! ## Tags (R261) -/

/-- The tags of the tiles from `z` on are set, and no other tag. -/
theorem vget_tags (tags : Vector Bool 8) (z n : Nat) (b : Bool) {k : Nat} (h : k < 8) :
    vget ((List.range n).foldl (fun v t => vput v (z + t) b) tags) k false =
      if z ≤ k ∧ k < z + n then b else vget tags k false := by
  induction n with
  | zero => rw [if_neg (by omega)]; rfl
  | succ n ih =>
    rw [List.range_succ, List.foldl_append, List.foldl_cons, List.foldl_nil]
    by_cases last : z + n = k
    · rw [last, vget_vput_same _ _ _ _ h, if_pos (by omega)]
    · rw [vget_vput_other _ _ _ _ _ last, ih]
      exact if_congr (by omega) rfl rfl

/-! ## Beats (R269) -/

theorem beatsOf_bounds (fmt m n : Nat) : 16384 * beatsOf fmt m n < rowBytesOf fmt * m * n + 16384 ∧
    rowBytesOf fmt * m * n ≤ 16384 * beatsOf fmt m n := by
  rw [beatsOf, rowBytesOf_eq]
  omega

section

variable {f : MxForm} {s : State} {a : Panel} {b : Option Panel}

/-! ## The latch (R268, R270) -/

/-- Where the columns come from: the panel, or with aB = 15 the latch. -/
def columns (f : MxForm) (s : State) : LatchSource := if f.aB = 15 then latchSource s f.fmt.toNat (shape f).cols else .ready []

/-- R270: with no fill in flight and the latch closed, the columns are those that the latch holds. -/
theorem latchSource_ready (latch : LatchOk f s) (fromLatch : f.aB = 15) : ∃ l, s.core.latch = some l ∧
    latchSource s f.fmt.toNat (shape f).cols = .ready (l.cols.take (shape f).cols) := by
  obtain ⟨idle, closed, l, held, fmt, enough⟩ := latch fromLatch
  have none_ : s.core.mxq.filter MxOp.fills = [] := List.filter_eq_nil_iff.2 fun o mem => by simp [idle o mem]
  refine ⟨l, held, ?_⟩
  simp [latchSource, none_, closed, held, fmt, enough]

theorem columns_ready (latch : LatchOk f s) : ∃ cols, columns f s = .ready cols ∧
    (f.aB = 15 → ∃ l, s.core.latch = some l ∧ cols = l.cols.take (shape f).cols) := by
  unfold columns
  split
  · next fromLatch =>
    obtain ⟨l, held, ready⟩ := latchSource_ready latch fromLatch
    exact ⟨_, ready, fun _ => ⟨l, held, rfl⟩⟩
  · next other => exact ⟨_, rfl, fun is => absurd is other⟩

/-! ## The operation joins the queue -/

/-- R266, R268: an MMA whose checks pass starts with its panels and its columns. -/
theorem exec_mma (ready : MxReady (.mma f) (some (shape f)) s) {cols : List (List Byte × List Nat)} (source : columns f s = .ready cols)
    (panels : PanelsOk f s a b) : exec (.mma f) s = .next (startMma f a b (if b.isNone then .ready cols else .refuse) s) := by
  obtain ⟨first, second⟩ := panels
  rw [← rowBytesOf_eq] at first second
  have panelB : (if f.aB = 15 then .ok none
      else (panelAt s (.b (mxBfp f.fmt.toNat)) .read (s.team.ra f.aB) (shapeCover f.z f.n16 f.msel).cols (mxRb f.fmt.toNat)).map some) =
        Except.ok b := by
    split at second
    · next fromLatch => rw [if_pos fromLatch, second]
    · next other =>
      obtain ⟨p, rfl, second⟩ := second
      rw [if_neg other]
      exact congrArg (Except.map some) second
  have run : exec (.mma f) s = _ := congrArg Host.Outcome.next (mxOp_ready ready _)
  rw [show (if f.aB = 15 then latchSource s f.fmt.toNat (shapeCover f.z f.n16 f.msel).cols else .ready []) = .ready cols from source,
    panelB, show panelAt s (.a (mxBfp f.fmt.toNat)) .read (s.team.ra f.aA) (shapeCover f.z f.n16 f.msel).rows (mxRb f.fmt.toNat) = .ok a
      from first] at run
  exact run

/-- R122: a well-formed MMA names one of eleven formats, of which the last two are those of integers. -/
theorem mxInt_iff (wf : (Instr.mma f).wf = true) : mxInt f.fmt.toNat = decide (f.fmt.toNat = 9 ∨ f.fmt.toNat = 10) := by
  simp only [Instr.wf, Bool.and_eq_true, decide_eq_true_eq] at wf
  obtain ⟨⟨-, named⟩, -⟩ := wf
  have few : f.fmt.toNat ≤ 10 := named
  exact decide_eq_decide.2 (by omega)

end

/-- Settles O24: the operation that `startMma` queues, its columns by `columns_ready`, its beats by `beatsOf_bounds` and its tags by
`vget_tags`. -/
theorem matrixProductIssues : Obligations.MatrixProductIssues := by
  unfold Obligations.MatrixProductIssues
  intro f s a b ready latch panels fits fmt c
  obtain ⟨wf, -⟩ := id ready
  obtain ⟨cols, source, held⟩ := columns_ready latch
  obtain ⟨below, enough⟩ := beatsOf_bounds fmt c.rows c.cols
  have run := exec_mma ready source panels
  unfold startMma withPins at run
  have fits' : pinsFit s.core (dedup (a.lines s.hub.package ++ (b.map (Panel.lines s.hub.package)).getD [])) = true := fits
  rw [if_pos fits'] at run
  refine ⟨_, _, run, mxLeaves_passMx _ rfl rfl rfl rfl rfl rfl, rfl, rfl, rfl, rfl, rfl, rfl, rfl, rfl, below, enough,
    fun fromLatch => ?_, ⟨_, rfl, rfl, ?_, rfl, rfl, rfl, rfl⟩, fun z lt => ?_⟩
  · obtain ⟨l, is, take⟩ := held fromLatch
    obtain ⟨-, second⟩ := panels
    rw [if_pos fromLatch] at second
    subst second
    exact ⟨l, is, congrArg some take⟩
  · show s.team.ra f.aA :: (if f.aB = 15 then [] else [s.team.ra f.aB]) = _
    split <;> rfl
  · rw [← mxInt_iff wf]
    exact vget_tags _ _ _ _ lt

end Sys2Proof.Laws
end

section
/-! SUPPORT. The copy queue (R67, R69, R184, R289): how an entry joins it, starts to run and leaves it. -/

namespace Sys2Proof.Laws

open Machine Claims

theorem modWhere_none {α : Type} {p : α → Bool} {l : List α} (f : α → α) (h : ∀ x ∈ l, p x = false) : modWhere p f l = l :=
  modWhere_of_find?_none f (List.find?_eq_none.2 fun x hx => by simp [h x hx])

/-- Of a list in which the last element alone passes a test, that one changes. -/
theorem modWhere_last {α : Type} {p : α → Bool} {l : List α} {x : α} (f : α → α) (none_ : ∀ y ∈ l, p y = false) (last : p x = true) :
    modWhere p f (l ++ [x]) = l ++ [f x] := by
  rw [modWhere, List.map_append]
  congr 1
  · exact modWhere_none f none_
  · simp [last]

/-! ## A DX operation that may issue (R45, R69, R71) -/

section

variable {i : Instr} {owner : Bool} {s : State} (ready : DxReady i owner s)
include ready

theorem dxOp_ready (eff : State → State) : dxOp i owner true eff s = eff s := by
  obtain ⟨wf, idle, owns, few⟩ := ready
  have free : ¬ 16 ≤ s.core.copies.length := Nat.not_le.2 few
  have go : (if 0 < s.core.dxBusy then takeTrap .dx i 0x0018 0 s
      else if (true && decide (16 ≤ s.core.copies.length)) then holdSlot .dx s else eff s) = eff s := by
    rw [if_neg (by simp [idle]), if_neg (by simpa using free)]
  rw [dxOp, if_neg (by simp [idle])]
  cases owner
  · exact (if_pos wf).trans go
  · exact ((if_pos wf).trans (if_pos (owns rfl))).trans go

end

/-! ## An entry of the acting team joins the queue (R184, R289) -/

/-- The writes that RELC counts for an entry. -/
def pendingOf (c : Copy) : List PendingWrite :=
  c.wid.toList.map fun w => { PendingWrite.new (enginePath c.kind.isSweep) with id := w, count := c.writesLeft }

/-- The state in which an entry has joined the queue, its writes counted, and slot DX has passed. -/
def joined (c : Copy) (s : State) : State :=
  { s with
    fresh := s.fresh + 1 + c.wid.toList.length
    core := { s.core with copies := s.core.copies ++ [c] }
    team := ({ s.team with writes := s.team.writes ++ pendingOf c }).pass1 .dx }

/-- An entry as an operation makes it, before its writes are counted. -/
def bareCopy (i : Instr) (kind : CopyKind) (s : State) : Copy :=
  { id := s.fresh, team := s.team.ref, tenant := s.team.tenant, pos := s.team.passed .dx, word := trapWord i,
    vwin := s.team.vwin, kind := kind, tensor := none, wid := none, held := false, sent := false, beats := none,
    exact := false, moved := 0, kept := [] }

/-- The entry of an operation that issues, its writes numbered after it. -/
def newCopy (i : Instr) (kind : CopyKind) (s : State) : Copy :=
  { bareCopy i kind s with wid := if (bareCopy i kind s).writesLeft = 0 then none else some (s.fresh + 1) }

theorem enqueueCopy_eq (i : Instr) (kind : CopyKind) (s : State) :
    enqueueCopy i kind s = (newCopy i kind s, joined (newCopy i kind s) s) := by
  by_cases none_ : (bareCopy i kind s).writesLeft = 0
  · have new : newCopy i kind s = bareCopy i kind s := by rw [newCopy, if_pos none_]; rfl
    have run : enqueueCopy i kind s = (bareCopy i kind s, issueLater .dx i []
        { s with fresh := s.fresh + 1, core := { s.core with copies := s.core.copies ++ [bareCopy i kind s] } }) := by
      unfold enqueueCopy
      simp only [State.newId]
      exact congrArg (fun x : Copy × State => (x.1, issueLater .dx i [] (x.2.onCore fun k => { k with copies := k.copies ++ [x.1] })))
        (if_pos none_)
    rw [run, new, issueLater_none]
    simp [joined, pendingOf, bareCopy]
  · have new : newCopy i kind s = { bareCopy i kind s with wid := some (s.fresh + 1) } := by rw [newCopy, if_neg none_]
    have run : enqueueCopy i kind s = ({ bareCopy i kind s with wid := some (s.fresh + 1) }, issueLater .dx i []
        { s with
          fresh := s.fresh + 2
          core := { s.core with copies := s.core.copies ++ [{ bareCopy i kind s with wid := some (s.fresh + 1) }] }
          team := { s.team with writes := s.team.writes ++ pendingOf { bareCopy i kind s with wid := some (s.fresh + 1) } } }) := by
      unfold enqueueCopy
      simp only [State.newId]
      refine (congrArg (fun x : Copy × State => (x.1, issueLater .dx i [] (x.2.onCore fun k => { k with copies := k.copies ++ [x.1] })))
        (if_neg none_)).trans ?_
      unfold addWrite State.modTeam
      dsimp only [State.newId]
      rw [if_pos rfl]
      rfl
    rw [run, new, issueLater_none]
    rfl

/-- R184: until it is acknowledged, an entry's write is counted in every field. -/
theorem enqueues_joined {s : State} {c : Copy} (team : c.team = s.team.ref) (tenant : c.tenant = s.team.tenant)
    (windows : c.vwin = s.team.vwin) (pos : c.pos = s.team.passed .dx) (goes : c.held = false)
    (counts : c.wid = none → c.writesLeft = 0) : Enqueues s (joined c s) c c.writesLeft := by
  refine ⟨passed_pass1_same _ _, rfl, rfl, team, tenant, windows, pos, goes, fun sc => ?_⟩
  have writes : (joined c s).team.writes = s.team.writes ++ pendingOf c := rfl
  rw [Counted, Counted, Unacknowledged, Unacknowledged, writes, List.filter_append, List.map_append, List.sum_append]
  congr 1
  cases w : c.wid with
  | none => simp [pendingOf, w, counts w]
  | some w' => simp [pendingOf, w, PendingWrite.new]

/-! ## An entry changes, and leaves (R289, R441) -/

section

variable {s : State} {c : Copy}

theorem modCore_front (front : Foreground s s.team.ref) (f : Core → Core) :
    s.modCore s.team.ref.die (s.coreOf s.team.ref) f = { s with core := f s.core } := by
  obtain ⟨-, die, pcore, -⟩ := front
  exact if_pos ⟨die, pcore⟩

theorem coreAt_front (front : Foreground s s.team.ref) : s.coreAt s.team.ref.die (s.coreOf s.team.ref) = s.core := by
  obtain ⟨-, die, pcore, -⟩ := front
  exact if_pos ⟨die, pcore⟩

/-- The writes of an entry's number with its count. -/
def recounted (c : Copy) (ws : List PendingWrite) : List PendingWrite :=
  modWhere (fun w => some w.id = c.wid) (fun w => { w with count := c.writesLeft }) ws

/-- The state with the entries and the writes of an entry's numbers as it gives them. -/
def changed (c : Copy) (s : State) : State :=
  { s with
    core := { s.core with copies := modWhere (fun x => x.id = c.id) (fun _ => c) s.core.copies }
    team := { s.team with writes := recounted c s.team.writes } }

theorem putCopy_eq (own : c.team = s.team.ref) (front : Foreground s s.team.ref) : putCopy c s = changed c s := by
  unfold putCopy
  rw [own, modCore_front front]
  unfold reachWrite changed recounted
  cases c.wid with
  | none =>
    have same : modWhere (fun w : PendingWrite => decide (some w.id = none)) (fun w => { w with count := c.writesLeft })
        s.team.writes = s.team.writes := modWhere_none _ fun _ _ => rfl
    rw [same]
  | some n => exact (if_pos rfl).trans (by simp only [Option.some.injEq])

/-- The state without the entries and the writes of an entry's numbers. -/
def without (c : Copy) (s : State) : State :=
  { s with
    core := { s.core with copies := s.core.copies.filter fun x => x.id ≠ c.id }
    team := { s.team with writes := s.team.writes.filter fun w => some w.id ≠ c.wid } }

/-- The entry leaves the queue, its writes with it, and its energy joins ECNT. -/
theorem endCopy_eq (own : c.team = s.team.ref) (front : Foreground s s.team.ref) : ∃ k e, endCopy c s =
    { without c s with team := retire k .dx e (without c s).team } := by
  refine ⟨(without c s).coreAt s.team.ref.die (s.coreOf s.team.ref), some (64 * slotNum .dx + c.word.toNat / 2 ^ 26, c.kind.width), ?_⟩
  unfold endCopy
  rw [own, modCore_front front]
  exact if_pos rfl

end

/-! ## The entry that has just joined (R292, R295) -/

section

variable {i : Instr} {kind : CopyKind} {s : State}

/-- An entry with its beats running. -/
def running (x : Option Tensor) (b : Nat) (exact_ : Bool) (c : Copy) : Copy := { c with tensor := x, beats := some b, exact := exact_ }

/-- R184: the writes of a running entry of one kind do not change but for a tensor's. -/
theorem pendingOf_recounted {old : List PendingWrite} (fresh : ∀ w ∈ old, w.id < s.fresh) (x : Option Tensor) (b : Nat) (e : Bool) :
    recounted (running x b e (newCopy i kind s)) (old ++ pendingOf (newCopy i kind s)) =
      old ++ pendingOf (running x b e (newCopy i kind s)) := by
  have same : (running x b e (newCopy i kind s)).wid = (newCopy i kind s).wid := rfl
  by_cases none_ : (bareCopy i kind s).writesLeft = 0
  · have wid : (newCopy i kind s).wid = none := if_pos none_
    rw [recounted, pendingOf, pendingOf, same, wid]
    exact modWhere_none _ fun _ _ => rfl
  · have wid : (newCopy i kind s).wid = some (s.fresh + 1) := if_neg none_
    rw [recounted, pendingOf, pendingOf, same, wid]
    exact modWhere_last _ (fun w hw => decide_eq_false fun h => by have := fresh w hw; simp only [Option.some.injEq] at h; omega)
      (decide_eq_true rfl)

/-- No other entry and no other write has the numbers of the newest entry. -/
theorem putCopy_joined (num : Numbered s) (x : Option Tensor) (b : Nat) (e : Bool) :
    putCopy (running x b e (newCopy i kind s)) (joined (newCopy i kind s) s) = joined (running x b e (newCopy i kind s)) s := by
  obtain ⟨front, ids, writes⟩ := num
  have put := putCopy_eq (s := joined (newCopy i kind s) s) (c := running x b e (newCopy i kind s)) rfl front
  have copies : modWhere (fun y : Copy => decide (y.id = s.fresh)) (fun _ => running x b e (newCopy i kind s))
      (s.core.copies ++ [newCopy i kind s]) = s.core.copies ++ [running x b e (newCopy i kind s)] :=
    modWhere_last _ (fun y hy => decide_eq_false (Nat.ne_of_lt (ids y hy))) (decide_eq_true rfl)
  have counts := pendingOf_recounted (i := i) (kind := kind) writes x b e
  rw [put]
  exact congrArg₂ (fun cs ws => { joined (newCopy i kind s) s with
    core := { s.core with copies := cs }
    team := { (joined (newCopy i kind s) s).team with writes := ws } }) copies counts

theorem enqueues_running {x : Option Tensor} {b : Nat} {e : Bool}
    (counts : (bareCopy i kind s).writesLeft = 0 → (running x b e (newCopy i kind s)).writesLeft = 0) :
    Enqueues s (joined (running x b e (newCopy i kind s)) s) (running x b e (newCopy i kind s))
      (running x b e (newCopy i kind s)).writesLeft := by
  refine enqueues_joined rfl rfl rfl rfl rfl fun none_ => counts ?_
  by_contra some_
  have wid : (newCopy i kind s).wid = some (s.fresh + 1) := if_neg some_
  exact absurd (wid.symm.trans none_) (Option.some_ne_none _)

theorem enqueues_new : Enqueues s (joined (newCopy i kind s) s) (newCopy i kind s) (bareCopy i kind s).writesLeft := by
  refine enqueues_joined rfl rfl rfl rfl rfl fun none_ => ?_
  by_contra some_
  have wid : (newCopy i kind s).wid = some (s.fresh + 1) := if_neg some_
  exact absurd (wid.symm.trans none_) (Option.some_ne_none _)

theorem enqueues_congr {s t u : State} {c : Copy} {n : Nat} (h : Enqueues s u c n) (team : t.team = u.team)
    (copies : t.core.copies = u.core.copies) : Enqueues s t c n := by
  unfold Enqueues Passed Counted Unacknowledged at h ⊢
  rwa [team, copies]

/-- R292: the beats of an entry that has just joined start to run. -/
theorem scheduleCopy_joined (num : Numbered s) (us : List Unit64) (n : Nat) : ∃ b e,
    scheduleCopy (newCopy i kind s) us n (joined (newCopy i kind s) s) = joined (running none b e (newCopy i kind s)) s :=
  ⟨_, _, putCopy_joined num none _ _⟩

end

/-! ## An entry whose time is open waits at its die's socket (R79, R456, R458) -/

theorem leaveCopy_keeps (i : Instr) (c : Copy) (s : State) : (leaveCopy i c s).team = s.team ∧ (leaveCopy i c s).core = s.core ∧
    (leaveCopy i c s).mem = s.mem :=
  ⟨books_team (books_sendOn ..), congrArg Steady.core (steady_sendOn ..), mem_sendOn ..⟩

theorem linkQ_names (h : Hub) (l : Nat) (out : Bool) : (h.linkQ l out).link = l ∧ (h.linkQ l out).out = out := by
  unfold Hub.linkQ
  cases found : h.links.find? fun q => q.link = l && q.out = out with
  | none => exact ⟨rfl, rfl⟩
  | some q => simpa using List.find?_some found

/-- The completion of the copy is the last request that waits at the socket. -/
theorem leaveCopy_waits (c : Copy) (s : State) : ∃ q ∈ (leaveCopy .copyComplete c s).hub.links, q.link = 80 + c.team.die ∧
    q.out = true ∧ ∃ k r, (k, r) ∈ q.waiting ∧ r.what = some (.copyComplete, { team := c.team, id := c.id }) := by
  obtain ⟨link, out⟩ := linkQ_names s.hub (80 + c.team.die) true
  have goes : leaveCopy .copyComplete c s = joinLink (dieLink c.team.die) true
      { tenant := c.tenant, size := max 64 (64 * c.writesLeft), issued := s.now, ipa := copyHome s c,
        hops := [homeHop s.hub (copyHome s c)], what := some (.copyComplete, { team := c.team, id := c.id }) } s := by
    have up : ¬ (dieLink c.team.die < 80 ∧ portState s.hub (dieLink c.team.die) = 0) := fun h => by
      unfold dieLink at h
      omega
    unfold leaveCopy toHome sendOn nextHops homeWay
    simp only [if_neg up]
  rw [goes]
  exact ⟨_, List.mem_cons_self, link, out, _, _, List.mem_append_right _ (List.mem_singleton_self _), rfl⟩

/-! ## CPY, CPY2, CPYG and WSLD issue (R289, R293, R297, R303) -/

section

variable {i : Instr} {kind : CopyKind} {s : State} (num : Numbered s)
include num

/-- A copy whose beats run from its issue. -/
theorem scheduleCopy_issues (us : List Unit64) (n : Nat) : ∃ c, c.kind = kind ∧
    scheduleCopy (newCopy i kind s) us n (joined (newCopy i kind s) s) = joined c s ∧ c.id = s.fresh ∧ c.beats.isSome = true ∧
    Enqueues s (joined c s) c (bareCopy i kind s).writesLeft := by
  obtain ⟨b, e, run⟩ := scheduleCopy_joined (i := i) (kind := kind) num us n
  exact ⟨running none b e (newCopy i kind s), rfl, run, rfl, rfl, enqueues_running (x := none) (b := b) (e := e) id⟩

/-- A copy whose completion comes over the links. -/
theorem leaveCopy_issues {t : State} (is : t = leaveCopy .copyComplete (newCopy i kind s) (joined (newCopy i kind s) s)) :
    Enqueues s t (newCopy i kind s) (bareCopy i kind s).writesLeft ∧ Runs s t (newCopy i kind s) ∧
    t.core.dxBusy = s.core.dxBusy ∧ SameRegs s.team t.team ∧ t.mem = s.mem := by
  subst is
  obtain ⟨team, core, mem⟩ := leaveCopy_keeps .copyComplete (newCopy i kind s) (joined (newCopy i kind s) s)
  obtain ⟨q, listed, link, out, waits⟩ := leaveCopy_waits (newCopy i kind s) (joined (newCopy i kind s) s)
  obtain ⟨⟨-, die, -, -⟩, -, -⟩ := num
  refine ⟨enqueues_congr enqueues_new team (congrArg Core.copies core), .inr (.inr ⟨q, listed, ?_, out, waits⟩),
    (congrArg Core.dxBusy core :), (congrArg regs team.symm :), mem⟩
  rw [die]
  exact link

/-- What an operation that copies does as it issues: an entry of this kind joins the queue and is under way, the engine is occupied
for so many DX cycles, and nothing moves (R69, R289). -/
def Copies (i : Instr) (s : State) (kind : CopyKind) (busy lines : Nat) : Prop :=
  ∃ t c, exec i s = .next t ∧ Enqueues s t c lines ∧ c.kind = kind ∧ Runs s t c ∧ t.core.dxBusy = busy ∧
    SameRegs s.team t.team ∧ t.mem = s.mem

theorem beatCopy_copies {of : Team → CopyKind} {n dst src ds ss beats row : Nat} (ready : DxReady i false s)
    (kinds : of s.team = .cpy dst src ds ss beats row) (run : exec i s = .next (beatCopy i of n s)) :
    Copies i s (.cpy dst src ds ss beats row) n beats := by
  obtain ⟨c, kind, runs, -, beats_, enqueues⟩ := scheduleCopy_issues (i := i) (kind := .cpy dst src ds ss beats row) num
    (cpyUnits dst src ds ss beats row) n
  refine ⟨occupyDx n (joined c s), c, ?_, enqueues_congr enqueues rfl rfl, kind, .inl beats_, rfl, rfl, rfl⟩
  rw [run, beatCopy, dxOp_ready ready, kinds, enqueueCopy_eq]
  exact congrArg (fun u => Host.Outcome.next (occupyDx n u)) runs

omit num in
/-- R297, R303: a count of 0 moves nothing and completes at once. -/
theorem countedCopy_none {owner : Bool} {cr : BitVec 6} {of : Team → CopyKind} {start : Copy → State → State}
    (ready : DxReady i owner s) (none_ : ((s.team.rs cr).extractLsb' 0 32).toNat = 0) :
    countedCopy i owner cr of start s = retired .dx i s 8 := by
  rw [countedCopy, dxOp_ready ready, if_pos ((field_eq _ 31 0).trans none_)]
  exact issue_none (by decide)

omit num in
theorem countedCopy_starts {owner : Bool} {cr : BitVec 6} {of : Team → CopyKind} {start : Copy → State → State}
    (ready : DxReady i owner s) (some_ : 0 < ((s.team.rs cr).extractLsb' 0 32).toNat) :
    countedCopy i owner cr of start s = start (newCopy i (of s.team) s) (joined (newCopy i (of s.team) s) s) := by
  rw [countedCopy, dxOp_ready ready, if_neg (by rw [field_eq]; exact Nat.ne_of_gt some_), enqueueCopy_eq]

theorem cpyg_copies {f : DxForm} (ready : DxReady (.cpyg f) false s) (some_ : 0 < ((s.team.rs f.cr).extractLsb' 0 32).toNat) :
    Copies (.cpyg f) s (.cpyg (addressOf s f.aD) (addressOf s (f.f.extractLsb' 5 4)) (addressOf s f.aS)
      ((s.team.rs f.cr).extractLsb' 0 32).toNat (f.f.extractLsb' 9 3).toNat) 0 ((s.team.rs f.cr).extractLsb' 0 32).toNat := by
  have count : field (s.team.rs f.cr) 31 0 = ((s.team.rs f.cr).extractLsb' 0 32).toNat := field_eq _ 31 0
  have run : exec (.cpyg f) s = _ := congrArg Host.Outcome.next (countedCopy_starts (s := s) ready some_)
  obtain ⟨-, idle, -, -⟩ := id ready
  rw [count] at run
  split at run
  next us known =>
    obtain ⟨c, kind, runs, -, beats, enqueues⟩ := scheduleCopy_issues (i := .cpyg f) num us ((us.length * 2 ^ dxE f + 63) / 64)
    exact ⟨joined c s, c, run.trans (congrArg _ runs), enqueues, kind, .inl beats, idle, rfl, rfl⟩
  next open_ =>
    obtain ⟨enqueues, goes, busy, same, mem⟩ := leaveCopy_issues (i := .cpyg f) num rfl
    exact ⟨_, _, run, enqueues, rfl, goes, busy.trans idle, same, mem⟩

theorem wsld_copies {f : DxForm} (ready : DxReady (.wsld f) true s) (some_ : 0 < ((s.team.rs f.cr).extractLsb' 0 32).toNat) :
    Copies (.wsld f) s (.wsld (addressOf s f.aD) (addressOf s f.aS) ((s.team.rs f.cr).extractLsb' 0 32).toNat) 0
      (((s.team.rs f.cr).extractLsb' 0 32).toNat / 64) := by
  have count : field (s.team.rs f.cr) 31 0 = ((s.team.rs f.cr).extractLsb' 0 32).toNat := field_eq _ 31 0
  have run : exec (.wsld f) s = _ := congrArg Host.Outcome.next (countedCopy_starts (s := s) ready some_)
  obtain ⟨-, idle, -, -⟩ := id ready
  rw [count] at run
  obtain ⟨enqueues, goes, busy, same, mem⟩ := leaveCopy_issues (i := .wsld f) num rfl
  exact ⟨_, _, run, enqueues, rfl, goes, busy.trans idle, same, mem⟩

end

end Sys2Proof.Laws
end

section
/-! SUPPORT. The own LM as a byte image (R344, R345): what it holds after bytes are written. -/

namespace Sys2Proof.Laws

open Machine Claims

/-- An image with a byte string written at an offset. -/
def overlay (img : Nat → Byte) (w : Nat × List Byte) : Nat → Byte :=
  fun o => if w.1 ≤ o ∧ o < w.1 + w.2.length then w.2.getD (o - w.1) 0 else img o

theorem overlay_append (img : Nat → Byte) (o : Nat) (xs ys : List Byte) :
    overlay img (o, xs ++ ys) = overlay (overlay img (o, xs)) (o + xs.length, ys) := by
  funext x
  simp only [overlay, List.length_append]
  by_cases late : o + xs.length ≤ x
  · have place : x - o = xs.length + (x - (o + xs.length)) := by omega
    by_cases inside : x < o + xs.length + ys.length
    · rw [if_pos (by omega), if_pos ⟨late, inside⟩, place, List.getD_append_right _ _ _ _ (by omega)]
      congr 1
      omega
    · rw [if_neg (by omega), if_neg (by omega), if_neg (by omega)]
  · by_cases inside : o ≤ x
    · rw [if_pos (by omega), if_neg (by omega), if_pos (by omega), List.getD_append _ _ _ _ (by omega)]
    · rw [if_neg (by omega), if_neg (by omega), if_neg (by omega)]

theorem getD_natBytes {n i : Nat} (h : i < n) (x : Nat) : (natBytes n x).getD i 0 = BitVec.ofNat 8 (x / 256 ^ i) := by
  induction n generalizing i x with
  | zero => omega
  | succ n ih =>
    cases i with
    | zero => simp [natBytes]
    | succ i =>
      rw [natBytes, List.getD_cons_succ, ih (Nat.lt_of_succ_lt_succ h), Nat.div_div_eq_div_mul, Nat.pow_succ']

/-- A number written is its bytes written. -/
theorem overlay_natBytes (img : Nat → Byte) (o n x : Nat) : overlay img (o, natBytes n x) = poke img o n x := by
  funext y
  simp only [overlay, poke, length_natBytes]
  by_cases inside : o ≤ y ∧ y < o + n
  · rw [if_pos inside, if_pos inside, getD_natBytes (by omega)]
  · rw [if_neg inside, if_neg inside]

/-! ## Writes of the acting team's own LM -/

theorem lmKey_offset (d l o : Nat) : lmKey d l o = lmKey d l 0 + o := by
  unfold lmKey
  rw [Nat.add_zero]

section

variable (s : State)

theorem ownByte_setOwnLm (o : Nat) (bs : List Byte) : ownByte (setOwnLm s o bs) = overlay (ownByte s) (o, bs) := by
  funext x
  have len : (List.zipWith (fun b y => b ^^^ lmMask s s.team.ref.die s.team.ref.lcore y) bs (upFrom o bs.length)).length = bs.length := by
    simp [upFrom]
  have read : ownByte (setOwnLm s o bs) x = (setLm s s.team.ref.die s.team.ref.lcore o bs).byte
      (lmKey s.team.ref.die s.team.ref.lcore x) ^^^ lmMask s s.team.ref.die s.team.ref.lcore x := rfl
  have place : lmKey s.team.ref.die s.team.ref.lcore x = lmKey s.team.ref.die s.team.ref.lcore 0 + x := lmKey_offset ..
  have start : lmKey s.team.ref.die s.team.ref.lcore o = lmKey s.team.ref.die s.team.ref.lcore 0 + o := lmKey_offset ..
  rw [read, setLm, byte_setBytes, len]
  by_cases inside : o ≤ x ∧ x < o + bs.length
  · have at_ : lmKey s.team.ref.die s.team.ref.lcore x - lmKey s.team.ref.die s.team.ref.lcore o = x - o := by omega
    have lt : x - o < bs.length := by omega
    rw [if_pos (by omega), at_]
    simp only [overlay, if_pos inside]
    have byte : (List.zipWith (fun b y => b ^^^ lmMask s s.team.ref.die s.team.ref.lcore y) bs (upFrom o bs.length)).getD (x - o) 0 =
        bs.getD (x - o) 0 ^^^ lmMask s s.team.ref.die s.team.ref.lcore x := by
      have back : o + (x - o) = x := by omega
      simp [List.getD_eq_getElem?_getD, upFrom, lt, back]
    rw [byte, BitVec.xor_assoc, BitVec.xor_self, BitVec.xor_zero]
  · rw [if_neg (by omega)]
    exact (if_neg inside).symm

theorem setBytes_append (m : Memory) (a : Nat) (xs ys : List Byte) :
    m.setBytes a (xs ++ ys) = (m.setBytes a xs).setBytes (a + xs.length) ys := by
  induction xs generalizing m a with
  | nil => rfl
  | cons x xs ih =>
    rw [List.cons_append, Memory.setBytes, ih, List.length_cons, Nat.add_right_comm, Nat.add_assoc]
    rfl

theorem upFrom_add (a n m : Nat) : upFrom a (n + m) = upFrom a n ++ upFrom (a + n) m := by
  simp [upFrom, List.range_add, Nat.add_assoc]

theorem setOwnLm_append (o : Nat) (xs ys : List Byte) :
    setOwnLm s o (xs ++ ys) = setOwnLm (setOwnLm s o xs) (o + xs.length) ys := by
  have masks : List.zipWith (fun b y => b ^^^ lmMask s s.team.ref.die s.team.ref.lcore y) (xs ++ ys) (upFrom o (xs ++ ys).length) =
      List.zipWith (fun b y => b ^^^ lmMask s s.team.ref.die s.team.ref.lcore y) xs (upFrom o xs.length) ++
      List.zipWith (fun b y => b ^^^ lmMask s s.team.ref.die s.team.ref.lcore y) ys (upFrom (o + xs.length) ys.length) := by
    rw [List.length_append, upFrom_add, List.zipWith_append (by simp [upFrom])]
  have len : (List.zipWith (fun b y => b ^^^ lmMask s s.team.ref.die s.team.ref.lcore y) xs (upFrom o xs.length)).length = xs.length := by
    simp [upFrom]
  have place : lmKey s.team.ref.die s.team.ref.lcore o + xs.length = lmKey s.team.ref.die s.team.ref.lcore (o + xs.length) :=
    Nat.add_assoc ..
  have mem : setLm s s.team.ref.die s.team.ref.lcore o (xs ++ ys) =
      setLm (setOwnLm s o xs) s.team.ref.die s.team.ref.lcore (o + xs.length) ys := by
    rw [setLm, masks, setBytes_append, len, place]
    rfl
  rw [setOwnLm, mem]
  rfl

theorem setOwnLm_outside {o : Nat} {bs : List Byte} (fits : o + bs.length ≤ 2 ^ 21) {k : Nat}
    (away : k < lmKey s.team.ref.die s.team.ref.lcore 0 ∨ lmKey s.team.ref.die s.team.ref.lcore (2 ^ 21) ≤ k) :
    (setOwnLm s o bs).mem.byte k = s.mem.byte k := by
  have start : lmKey s.team.ref.die s.team.ref.lcore o = lmKey s.team.ref.die s.team.ref.lcore 0 + o := lmKey_offset ..
  have stop : lmKey s.team.ref.die s.team.ref.lcore (2 ^ 21) = lmKey s.team.ref.die s.team.ref.lcore 0 + 2 ^ 21 := lmKey_offset ..
  refine byte_setBytes_outside _ _ _ _ ?_
  have len : (List.zipWith (fun b y => b ^^^ lmMask s s.team.ref.die s.team.ref.lcore y) bs (upFrom o bs.length)).length = bs.length := by
    simp [upFrom]
  rw [len]
  omega

/-- The state after writes of its own LM, one after another. -/
def wrote (ws : List (Nat × List Byte)) (s : State) : State := ws.foldl (fun s w => setOwnLm s w.1 w.2) s

/-- Writes change nothing but the memory. -/
theorem wrote_eq (ws : List (Nat × List Byte)) : wrote ws s = { s with mem := (wrote ws s).mem } := by
  induction ws generalizing s with
  | nil => rfl
  | cons w ws ih => exact ih (setOwnLm s w.1 w.2)

theorem ownByte_wrote (ws : List (Nat × List Byte)) : ownByte (wrote ws s) = ws.foldl overlay (ownByte s) := by
  induction ws generalizing s with
  | nil => rfl
  | cons w ws ih =>
    rw [List.foldl_cons, ← ownByte_setOwnLm]
    exact ih (setOwnLm s w.1 w.2)

end

theorem lmBecomes_congr {s t u : State} {img : Nat → Byte} (h : LmBecomes s u img) (ref : t.team.ref = u.team.ref)
    (epochs : t.lmEpochs = u.lmEpochs) (mem : t.mem = u.mem) : LmBecomes s t img := by
  unfold LmBecomes ownByte lmMask at h ⊢
  rwa [ref, epochs, mem]

/-- Writes within the LM leave the rest of memory alone. -/
theorem lmBecomes_wrote {s : State} {ws : List (Nat × List Byte)} (fits : ∀ w ∈ ws, w.1 + w.2.length ≤ 2 ^ 21) :
    LmBecomes s (wrote ws s) (ws.foldl overlay (ownByte s)) := by
  refine ⟨by rw [wrote_eq], by rw [wrote_eq], fun o _ => by rw [ownByte_wrote], fun k away => ?_⟩
  induction ws generalizing s with
  | nil => rfl
  | cons w ws ih =>
    exact (ih (s := setOwnLm s w.1 w.2) (fun x hx => fits x (List.mem_cons_of_mem _ hx)) away).trans
      (setOwnLm_outside s (fits w List.mem_cons_self) away)

end Sys2Proof.Laws
end

section
/-! SUPPORT. The engine's accesses to the own LM of the team that issued (R291, R344, R355). -/

namespace Sys2Proof.Laws

open Machine Claims

/-! ## A range cut into lines -/

/-- Pieces that follow one another, and make up a range. -/
def Tiles : Nat → Nat → List (Nat × Nat) → Prop
  | _, n, [] => n = 0
  | a, n, (x, k) :: ps => x = a ∧ 0 < k ∧ k ≤ n ∧ Tiles (a + k) (n - k) ps

theorem tiles_lines (a n : Nat) : Tiles a n (linePieces a n) := by
  have from_ : ∀ m j, j + m = (a + n - 1) / 64 - a / 64 + 1 → 0 < n →
      Tiles (max a (a / 64 * 64 + 64 * j)) (a + n - max a (a / 64 * 64 + 64 * j))
        ((List.range' j m).map fun i => (max a (a / 64 * 64 + 64 * i),
          min (a + n) (a / 64 * 64 + 64 * i + 64) - max a (a / 64 * 64 + 64 * i))) := by
    intro m
    induction m with
    | zero =>
      intro j last some_
      show a + n - _ = 0
      omega
    | succ m ih =>
      intro j last some_
      have rest := ih (j + 1) (by omega) some_
      rw [List.range'_succ, List.map_cons]
      refine ⟨rfl, by omega, by omega, ?_⟩
      by_cases more : a + n ≤ a / 64 * 64 + 64 * j + 64
      · have none_ : m = 0 := by omega
        subst none_
        show _ = 0
        omega
      · have next : max a (a / 64 * 64 + 64 * j) + (min (a + n) (a / 64 * 64 + 64 * j + 64) - max a (a / 64 * 64 + 64 * j)) =
            max a (a / 64 * 64 + 64 * (j + 1)) := by omega
        rw [next]
        have left : a + n - max a (a / 64 * 64 + 64 * j) - (min (a + n) (a / 64 * 64 + 64 * j + 64) - max a (a / 64 * 64 + 64 * j)) =
            a + n - max a (a / 64 * 64 + 64 * (j + 1)) := by omega
        rw [left]
        exact rest
  unfold linePieces linesOf
  by_cases none_ : n = 0
  · rw [if_pos none_]
    exact none_
  · rw [if_neg none_, List.map_map, List.range_eq_range']
    have whole := from_ _ 0 (Nat.zero_add _) (Nat.pos_of_ne_zero none_)
    have start : max a (a / 64 * 64 + 64 * 0) = a := by omega
    rw [start, Nat.add_sub_cancel_left] at whole
    exact whole

/-! ## One access of the own LM -/

theorem ownLm_cut (s : State) (o : Nat) {k n : Nat} (le : k ≤ n) : ownLm s o k ++ ownLm s (o + k) (n - k) = ownLm s o n := by
  have cut : upFrom o n = upFrom o k ++ upFrom (o + k) (n - k) := by rw [← upFrom_add, Nat.add_sub_cancel' le]
  simp only [ownLm, lmBytes, cut, List.map_append]

section

variable {s : State} {c : Copy}

/-- An entry of a team whose core is of the package. -/
structure OwnEntry (c : Copy) (s : State) : Prop where
  team : c.team = s.team.ref
  die : s.team.ref.die < 8
  lcore : s.team.ref.lcore < 64

theorem lmRangeGranted_of_granted {o n : Nat} (granted : Claims.Granted s o n) :
    lmRangeGranted s s.team.tenant s.team.ref.die s.team.ref.lcore o n = true := by
  obtain ⟨-, each⟩ := granted
  unfold lmRangeGranted
  by_cases none_ : n = 0
  · simp [none_]
  · simp only [Bool.or_eq_true, Bool.and_eq_true, List.all_eq_true, List.mem_range]
    refine .inr ⟨fun i lt => each _ (by omega), ?_⟩
    rw [Nat.add_sub_assoc (Nat.pos_of_ne_zero none_)]
    exact each _ (by omega)

/-- The grants rest on the resident teams alone (R346). -/
theorem granted_congr {t : State} {o n : Nat} (granted : Claims.Granted s o n) (teams : t.teams = s.teams) (ref : t.team.ref = s.team.ref)
    (resident : t.team.resident = s.team.resident) (tenant : t.team.tenant = s.team.tenant) (lmg : t.team.lmg = s.team.lmg) :
    Claims.Granted t o n := by
  obtain ⟨fits, each⟩ := granted
  refine ⟨fits, fun k lt => ?_⟩
  rw [lmGranted_congr teams ref resident tenant lmg, tenant, ref]
  exact each k lt

/-- A part of a granted range is granted. -/
theorem granted_part {o n o' n' : Nat} (granted : Claims.Granted s o n) (low : o ≤ o') (high : o' + n' ≤ o + n) :
    Claims.Granted s o' n' := by
  obtain ⟨fits, each⟩ := granted
  refine ⟨by omega, fun k lt => ?_⟩
  have at_ : o' + k = o + (o' + k - o) := by omega
  rw [at_]
  exact each _ (by omega)

variable (h : OwnEntry c s)
include h

theorem vaIpa_own {o : Nat} (lt : o < 2 ^ 21) (k : AccKind) : vaIpa s.hub.package c.team c.vwin.toList k (localBase + o) =
    some (lmIpa s.hub.package s.team.ref.die s.team.ref.lcore o) := by
  rw [h.team]
  exact own_ipa _ _ _ _ _ _ rfl lt

theorem spotOf_own {o : Nat} (lt : o < 2 ^ 21) : spotOf s.hub.package (lmIpa s.hub.package s.team.ref.die s.team.ref.lcore o) =
    .lm s.team.ref.die s.team.ref.lcore o := spot_lm _ _ _ _ h.die h.lcore lt

omit h in
/-- A range of an LM that is granted, and does not move, is in its place. -/
theorem enginePlace_of_lm {k : AccKind} {sw : Bool} {va n ipa d l o : Nat} (at_ : vaIpa s.hub.package c.team c.vwin.toList k va = some ipa)
    (spot : spotOf s.hub.package ipa = .lm d l o) (granted : lmRangeGranted s (s.teamAt c.team).tenant d l o n = true)
    (still : migratingLm s c.team d l = false) : enginePlace s c k sw va n = .ok ipa := by
  unfold enginePlace
  rw [at_]
  dsimp only
  rw [spot]
  simp [spotCause, granted, still]

theorem enginePlace_own {o n : Nat} (some_ : 0 < n) (granted : Claims.Granted s o n) (k : AccKind) (sw : Bool) :
    enginePlace s c k sw (localBase + o) n = .ok (lmIpa s.hub.package s.team.ref.die s.team.ref.lcore o) := by
  have lt : o < 2 ^ 21 := by
    obtain ⟨fits, -⟩ := granted
    omega
  refine enginePlace_of_lm (vaIpa_own h lt k) (spotOf_own h lt) ?_ ?_
  · rw [h.team, teamAt_own]
    exact lmRangeGranted_of_granted granted
  · simp [migratingLm, h.team]

omit h in
theorem readPiece_of_lm {sw side : Bool} {va n ipa d l o : Nat} (place : enginePlace s c .read sw va n = .ok ipa)
    (spot : spotOf s.hub.package ipa = .lm d l o) (unkept : c.kept = []) :
    readPiece c sw side va n s = (.ok (lmBytes s d l o n, none), s) := by
  have bytes : c.recall ipa (lmBytes s d l o n) = lmBytes s d l o n := by
    rw [Copy.recall, unkept]
    exact overlay_nothing _ rfl
  have read : readAt c sw side ipa n s = (.ok (lmBytes s d l o n, none), s) := by
    unfold readAt
    rw [spot]
  unfold readPiece
  rw [place]
  dsimp only
  rw [read]
  dsimp only
  rw [bytes]

omit h in
theorem writePiece_of_lm {sw : Bool} {va ipa d l o : Nat} {bs : List Byte} (place : enginePlace s c .write sw va bs.length = .ok ipa)
    (spot : spotOf s.hub.package ipa = .lm d l o) : writePiece c sw va bs s = (none, { s with mem := setLm s d l o bs }) := by
  unfold writePiece
  rw [place]
  dsimp only
  rw [spot]

theorem readPiece_own {o n : Nat} (some_ : 0 < n) (granted : Claims.Granted s o n) (unkept : c.kept = []) (sw side : Bool) :
    readPiece c sw side (localBase + o) n s = (.ok (ownLm s o n, none), s) := by
  have lt : o < 2 ^ 21 := by
    obtain ⟨fits, -⟩ := granted
    omega
  exact readPiece_of_lm (enginePlace_own h some_ granted .read sw) (spotOf_own h lt) unkept

theorem writePiece_own {o : Nat} {bs : List Byte} (some_ : 0 < bs.length) (granted : Claims.Granted s o bs.length) (sw : Bool) :
    writePiece c sw (localBase + o) bs s = (none, setOwnLm s o bs) := by
  have lt : o < 2 ^ 21 := by
    obtain ⟨fits, -⟩ := granted
    omega
  exact writePiece_of_lm (enginePlace_own h some_ granted .write sw) (spotOf_own h lt)

/-! ## A range of the own LM -/

theorem readPieces_own (unkept : c.kept = []) (sw side : Bool) {o n : Nat} {ps : List (Nat × Nat)} (tiles : Tiles (localBase + o) n ps)
    (granted : Claims.Granted s o n) : readPieces c sw side ps s = (.ok (ownLm s o n), s) := by
  induction ps generalizing o n with
  | nil =>
    have none_ : n = 0 := tiles
    subst none_
    rfl
  | cons p ps ih =>
    obtain ⟨x, k⟩ := p
    obtain ⟨rfl, some_, le, rest⟩ := tiles
    rw [Nat.add_assoc] at rest
    simp only [readPieces, readPiece_own h some_ (granted_part granted (Nat.le_refl _) (by omega)) unkept,
      ih rest (granted_part granted (by omega) (by omega)), ownLm_cut s o le]

theorem writePieces_own (sw : Bool) {o : Nat} {bs : List Byte} {ps : List (Nat × Nat)} (tiles : Tiles (localBase + o) bs.length ps)
    (granted : Claims.Granted s o bs.length) : writePieces c sw ps bs s = (none, setOwnLm s o bs) := by
  induction ps generalizing s o bs with
  | nil =>
    have none_ : bs = [] := List.eq_nil_of_length_eq_zero tiles
    subst none_
    rfl
  | cons p ps ih =>
    obtain ⟨x, k⟩ := p
    obtain ⟨rfl, some_, le, rest⟩ := tiles
    have len : (bs.take k).length = k := List.length_take_of_le le
    rw [Nat.add_assoc, ← List.length_drop] at rest
    have first := writePiece_own h (o := o) (bs := bs.take k) (by rw [len]; exact some_)
      (granted_part granted (Nat.le_refl _) (by rw [len]; omega)) sw
    have later : Claims.Granted s (o + k) (bs.drop k).length := granted_part granted (by omega) (by rw [List.length_drop]; omega)
    have then_ := ih (s := setOwnLm s o (bs.take k)) ⟨h.team, h.die, h.lcore⟩ rest later
    have both : setOwnLm (setOwnLm s o (bs.take k)) (o + k) (bs.drop k) = setOwnLm s o bs := by
      have join := setOwnLm_append s o (bs.take k) (bs.drop k)
      rw [List.take_append_drop, len] at join
      exact join.symm
    simp only [writePieces, first, then_, both]

theorem engineRead_own (unkept : c.kept = []) (sw side : Bool) {o n : Nat} (granted : Claims.Granted s o n) :
    engineRead c sw side (localBase + o) n s = (.ok (ownLm s o n), s) := readPieces_own h unkept sw side (tiles_lines _ _) granted

theorem engineWrite_own (sw : Bool) {o : Nat} {bs : List Byte} (granted : Claims.Granted s o bs.length) :
    engineWrite c sw (localBase + o) bs s = (none, setOwnLm s o bs) := writePieces_own h sw (tiles_lines _ _) granted

end

end Sys2Proof.Laws
end

section
/-! SUPPORT. Copies leave the DX slot with an entry of the copy queue (R289 to R297, R303, R314): O31. -/

namespace Sys2Proof.Laws

open Machine Claims

section

variable {s : State} {c : Copy}

/-- R290: the oldest of the core's copies is behind none. -/
theorem behindRanges_oldest (own : c.team = s.team.ref) (front : Foreground s s.team.ref)
    (oldest : ∀ x ∈ s.core.copies, x.kind.isSweep = false → c.id ≤ x.id) (mine : Option (List (Nat × Nat) × List (Nat × Nat))) :
    behindRanges s c mine = false := by
  unfold behindRanges
  rw [own, coreAt_front front]
  refine List.any_eq_false.2 fun x hx => ?_
  cases sweep : x.kind.isSweep with
  | true => simp
  | false => simp [Nat.not_lt.2 (oldest x hx sweep)]

end

/-! ## A descriptor's bytes -/

theorem ownLm_eq (s : State) (o n : Nat) : ownLm s o n = ownRange s o n := by
  rw [ownLm, lmBytes, upFrom, List.map_map]
  rfl

theorem number_lt (bs : List Byte) : number bs < 256 ^ bs.length := by
  induction bs with
  | nil => exact Nat.one_pos
  | cons b bs ih =>
    have byte := b.isLt
    rw [number, List.length_cons, Nat.pow_succ]
    omega

/-- A double of a range is the number that the image holds there. -/
theorem doubleAt_ownRange (s : State) (o : Nat) {k n : Nat} (h : k + 8 ≤ n) :
    (doubleAt (ownRange s o n) k).toNat = peek (ownByte s) (o + k) 8 := by
  have bytes : ((ownRange s o n).drop k).take 8 = (List.range 8).map fun i => ownByte s (o + k + i) := by
    rw [ownRange, take_drop_range _ h]
    simp only [Nat.add_assoc]
  have small := number_lt ((List.range 8).map fun i => ownByte s (o + k + i))
  rw [List.length_map, List.length_range] at small
  rw [doubleAt, bytes, leNat_eq, BitVec.toNat_ofNat, peek]
  exact Nat.mod_eq_of_lt (Nat.lt_of_lt_of_eq small (by norm_num))

theorem tensorOf_ends {bs : List Byte} {x : Tensor} (h : tensorOf bs = some x) :
    x.src = (doubleAt bs 0).toNat ∧ x.dst = (doubleAt bs 8).toNat := by
  unfold tensorOf at h
  dsimp only at h
  split at h
  · exact absurd h.symm (Option.some_ne_none _)
  · obtain rfl := Option.some.inj h
    exact ⟨rfl, rfl⟩

/-! ## CPYL and SHOAL issue (R294, R295, R314) -/

theorem ownEntry_new {s : State} (on : OnCore s) (i : Instr) (kind : CopyKind) : OwnEntry (newCopy i kind s) (joined (newCopy i kind s) s) := by
  obtain ⟨die, lcore, -⟩ := on
  exact ⟨rfl, die, lcore⟩

theorem foreground_joined {s : State} (c : Copy) (front : Foreground s s.team.ref) : Foreground (joined c s) (joined c s).team.ref := front

/-- The descriptor as the engine reads it for an entry that has just joined. -/
theorem readTensor_joined {s : State} (on : OnCore s) (i : Instr) (kind : CopyKind) {off : Nat} {x : Tensor} (aligned : 64 ∣ off)
    (granted : Claims.Granted s off 96) (is : tensorOf (ownRange s off 96) = some x) :
    readTensor (newCopy i kind s) (localBase + off) (joined (newCopy i kind s) s) = (.ok x, joined (newCopy i kind s) s) := by
  have whole : (localBase + off) % 64 = 0 := Nat.mod_eq_zero_of_dvd (Nat.dvd_add (by norm_num [localBase]) aligned)
  have same : ownLm (joined (newCopy i kind s) s) off 96 = ownRange s off 96 := ownLm_eq s off 96
  unfold readTensor
  rw [if_neg (not_not.2 whole), engineRead_own (ownEntry_new on i kind) rfl false false (granted_congr granted rfl rfl rfl rfl rfl), same]
  dsimp only
  rw [is]

theorem scheduleTensor_joined {i : Instr} {kind : CopyKind} {s : State} (num : Numbered s) (x : Tensor) : ∃ b e,
    scheduleTensor (newCopy i kind s) x (joined (newCopy i kind s) s) = joined (running (some x) b e (newCopy i kind s)) s := by
  unfold scheduleTensor
  exact ⟨_, _, putCopy_joined num (some x) _ _⟩

section

variable {f : DxForm} {s : State} (on : OnCore s)
include on

theorem cpyl_issues {off : Nat} {x : Tensor} (ready : DxReady (.cpyl f) false s) (num : Numbered s)
    (alone : ∀ c ∈ s.core.copies, c.kind.isSweep = true) (at_ : addressOf s f.aS = localBase + off) (aligned : 64 ∣ off)
    (granted : Claims.Granted s off 96) (is : tensorOf (ownRange s off 96) = some x) :
    ∃ t c, exec (.cpyl f) s = .next t ∧ SameRegs s.team t.team ∧ t.mem = s.mem ∧
      Enqueues s t c ((x.total - 4096 * x.next + 63) / 64 + (x.granules - x.next) + 1) ∧
      c.kind = .cpyl (addressOf s f.aS) ∧ c.tensor = some x ∧ c.beats.isSome = true := by
  obtain ⟨-, -, front⟩ := id on
  have free : behindDescriptor (joined (newCopy (.cpyl f) (.cpyl (addressOf s f.aS)) s) s)
      (newCopy (.cpyl f) (.cpyl (addressOf s f.aS)) s) (addressOf s f.aS) = false := by
    refine behindRanges_oldest rfl (foreground_joined _ front) (fun y hy plain => ?_) _
    rcases List.mem_append.1 hy with old | new
    · exact absurd ((alone y old).symm.trans plain) (by decide)
    · rw [List.mem_singleton.1 new]
  have read := readTensor_joined on (.cpyl f) (.cpyl (addressOf s f.aS)) aligned granted is
  rw [← at_] at read
  obtain ⟨b, e, put⟩ := scheduleTensor_joined (i := .cpyl f) (kind := .cpyl (addressOf s f.aS)) num x
  have run : exec (.cpyl f) s = .next (joined (running (some x) b e (newCopy (.cpyl f) (.cpyl (addressOf s f.aS)) s)) s) := by
    show execCpyl f s = _
    rw [execCpyl, dxOp_ready ready, ← put]
    dsimp only
    rw [show (s.team.ra f.aS).toNat = addressOf s f.aS from rfl, enqueueCopy_eq]
    dsimp only
    rw [free, read]
    rfl
  exact ⟨_, _, run, rfl, rfl, enqueues_running (x := some x) (b := b) (e := e) fun none_ => absurd none_ Nat.one_ne_zero, rfl, rfl, rfl⟩

omit on in
theorem shoal_misaligned (ready : DxReady (.shoal f) true s) (trap : s.team.trap = none) (odd : ¬ 32 ∣ addressOf s f.aS) :
    Raises .dx (.shoal f) s 0x0020 (addressOf s f.aS) := by
  have off : (s.team.ra f.aS).toNat % 32 ≠ 0 := fun h => odd (Nat.dvd_of_mod_eq_zero h)
  show execShoal f s = _
  rw [execShoal, dxOp_ready ready]
  dsimp only
  rw [if_pos off]
  exact congrArg _ (takeTrap_eq trap)

theorem shoal_issues {off : Nat} (ready : DxReady (.shoal f) true s) (at_ : addressOf s f.aS = localBase + off) (aligned : 32 ∣ off)
    (granted : Claims.Granted s off 32) (code : 4 ∣ peek (ownByte s) (off + 16) 8) :
    ∃ t c, exec (.shoal f) s = .next t ∧ Enqueues s t c 0 ∧ c.kind = .shoal (shoalOfWord f) (addressOf s f.aS) ∧
      SameRegs s.team t.team ∧ t.mem = s.mem := by
  obtain ⟨die, lcore, -⟩ := on
  have whole : (s.team.ra f.aS).toNat % 32 = 0 := by
    rw [show (s.team.ra f.aS).toNat = localBase + off from at_]
    exact Nat.mod_eq_zero_of_dvd (Nat.dvd_add (by norm_num [localBase]) aligned)
  refine ⟨_, newCopy (.shoal f) (.shoal (shoalOfWord f) (addressOf s f.aS)) s, ?_, enqueues_new, rfl, rfl, rfl⟩
  show execShoal f s = _
  rw [execShoal, dxOp_ready ready]
  dsimp only
  rw [if_neg (not_not.2 whole), show (s.team.ra f.aS).toNat = localBase + off from at_, Nat.add_assoc,
    engineRead_own ⟨rfl, die, lcore⟩ rfl true false (granted_part granted (by omega) (by omega)), ownLm]
  dsimp only
  rw [leNat_lmBytes, if_neg (not_not.2 (Nat.mod_eq_zero_of_dvd code)), enqueueCopy_eq, ← at_]
  rfl

end

/-- Settles O31: the copies of the four forms join the queue and are under way, CPYL by the descriptor that the engine reads, SHOAL by its
check. -/
theorem copiesAndDescriptorCopiesIssue : Obligations.CopiesAndDescriptorCopiesIssue := by
  unfold Obligations.CopiesAndDescriptorCopiesIssue
  refine ⟨?_, fun f s on => ⟨fun off x ready num alone at_ aligned granted is => ?_, fun ready off => shoal_issues on ready,
    shoal_misaligned⟩⟩
  · intro f s i owner k busy lines count form ready
    rcases form with ⟨rfl, rfl, rfl, rfl, rfl⟩ | ⟨rfl, rfl, rfl, rfl, rfl⟩ | ⟨rfl, rfl, rfl, rfl, rfl⟩ | ⟨rfl, rfl, rfl, rfl, rfl⟩
    · exact ⟨fun is => is.elim nofun nofun, fun _ num => beatCopy_copies num ready rfl rfl⟩
    · exact ⟨fun is => is.elim nofun nofun, fun _ num => beatCopy_copies num ready rfl rfl⟩
    · exact ⟨fun _ none_ => congrArg Host.Outcome.next (countedCopy_none ready none_), fun is num =>
        cpyg_copies num ready ((is.resolve_left nofun).resolve_left nofun)⟩
    · exact ⟨fun _ none_ => congrArg Host.Outcome.next (countedCopy_none ready none_), fun is num =>
        wsld_copies num ready ((is.resolve_left nofun).resolve_left nofun)⟩
  · obtain ⟨t, c, run, regs, mem, enqueues, kind, tensor, beats⟩ := cpyl_issues on ready num alone at_ aligned granted is
    obtain ⟨src, dst⟩ := tensorOf_ends is
    exact ⟨t, c, run, regs, mem, enqueues, kind, tensor, beats, src.trans (doubleAt_ownRange s off (by decide)),
      dst.trans (doubleAt_ownRange s off (by decide))⟩

end Sys2Proof.Laws
end

section
/-! SUPPORT. CPYR takes its slots and RINIT binds its ring at issue (R298 to R300, R532): O30. -/

namespace Sys2Proof.Laws

open Machine Claims

/-! ## The counters of a ring (R299, R532) -/

/-- Four counters written one after another. -/
theorem overlay_counters (img : Nat → Byte) (o a b c d : Nat) :
    overlay img (o, natBytes 4 a ++ natBytes 4 b ++ natBytes 4 c ++ natBytes 4 d) =
      poke (poke (poke (poke img o 4 a) (o + 4) 4 b) (o + 8) 4 c) (o + 12) 4 d := by
  simp only [overlay_append, overlay_natBytes, List.length_append, length_natBytes]

theorem numAt_ownRange (s : State) (o : Nat) {k m n : Nat} (h : k + m ≤ n) :
    numAt (ownRange s o n) k m = peek (ownByte s) (o + k) m := by
  rw [numAt, ownRange, take_drop_range _ h, leNat_eq, peek]
  simp only [Nat.add_assoc]

/-- A ring as its descriptor holds it. -/
def viewOf (r : Ring) : RingView :=
  { off := r.off, cnt := r.cnt, lsz := r.lsz, base := r.base, head := r.head, tail := r.tail, filled := r.filled, free := r.free }

theorem ringView_holds {s : State} {k : Nat} {r : Ring} (front : Foreground s s.team.ref) (holds : Holds s k r) :
    ringView s k = some (viewOf r) := by
  obtain ⟨bound, -, -, -, -, head, tail, headAt, tailAt, filledAt, freeAt⟩ := holds
  have bytes : lmBytes s s.team.ref.die s.team.ref.lcore (r.off + 8) 16 = ownRange s (r.off + 8) 16 := ownLm_eq s _ _
  unfold ringView ringAt
  rw [coreAt_front front, bound]
  dsimp only
  rw [bytes, numAt_ownRange s _ (by decide), numAt_ownRange s _ (by decide), numAt_ownRange s _ (by decide),
    numAt_ownRange s _ (by decide)]
  simp only [Nat.add_zero, Nat.add_assoc, Nat.reduceAdd, headAt, tailAt, filledAt, freeAt]
  have within : ∀ i, i ≤ r.cnt → i.mod (r.cnt + 1) = i := fun i le => Nat.mod_eq_of_lt (Nat.lt_succ_of_le le)
  rw [within _ head, within _ tail]
  rfl

/-- The counters written back stand in the LM, and nothing else changes. -/
theorem lmBecomes_setOwnLm (s : State) {o : Nat} {bs : List Byte} (fits : o + bs.length ≤ 2 ^ 21) :
    LmBecomes s (setOwnLm s o bs) (overlay (ownByte s) (o, bs)) :=
  lmBecomes_wrote (ws := [(o, bs)]) fun w hw => by rwa [List.mem_singleton.1 hw]

theorem lmBecomes_setRing (s : State) {r : Ring} (fits : r.off + 32 ≤ 2 ^ 21) :
    LmBecomes s (setRing (viewOf r) s) (counters r (ownByte s)) := by
  have h := lmBecomes_setOwnLm s (o := r.off + 8) (bs := natBytes 4 r.head ++ natBytes 4 r.tail ++
    natBytes 4 (min r.filled (r.cnt + 1)) ++ natBytes 4 (min r.free (r.cnt + 1)))
    (by simp only [List.length_append, length_natBytes]; omega)
  rw [overlay_counters] at h
  exact h

/-! ## CPYR (R300) -/

section

variable {f : DxForm} {s : State} {r : Ring} (ready : DxReady (.cpyr f) false s) (num : Numbered s) (holds : Holds s (ringOfWord f) r)

/-- The ring once CPYR has taken its slots. -/
def taking (f : DxForm) (r : Ring) : Ring := { r with tail := (r.tail + countOf f) % (r.cnt + 1), free := r.free - countOf f }

/-- What a CPYR joins the queue as. -/
def cpyrKind (f : DxForm) (s : State) (r : Ring) : CopyKind :=
  .cpyr (ringOfWord f) (addressOf s f.aS) r.base r.lsz r.cnt r.tail (countOf f)

/-- The state once CPYR has taken its slots: the memory with the counters, and the slots that it has still to write. -/
def tookSlots (f : DxForm) (m : Memory) (s : State) : State :=
  { s with
    mem := m
    core := { s.core with fills := s.core.fills ++ [{ ring := ringOfWord f, copy := some s.fresh, n := countOf f }] } }

include ready num holds

theorem exec_cpyr {m : Memory} (counts : (setRing (viewOf (taking f r)) s).mem = m) : exec (.cpyr f) s = .next (
    if r.cnt + 1 < countOf f then takeTrap .dx (.cpyr f) 0x0018 0 s
    else if r.free < countOf f then holdSlot .dx s
    else scheduleCopy (newCopy (.cpyr f) (cpyrKind f s r) (tookSlots f m s))
      (cpyrUnits localView (addressOf s f.aS) r.base r.lsz r.cnt r.tail (countOf f)) ((countOf f * 2 ^ r.lsz + 63) / 64)
      (joined (newCopy (.cpyr f) (cpyrKind f s r) (tookSlots f m s)) (tookSlots f m s))) := by
  obtain ⟨front, -, -⟩ := num
  have view : ringView s (dxE f) = some (viewOf r) := ringView_holds front holds
  have took : setRing { viewOf r with
      tail := (viewOf r).advance (viewOf r).tail (dxLow f)
      free := (viewOf r).free - dxLow f } s = { s with mem := m } := by
    rw [← counts]
    rfl
  show execCpyr f s = _
  rw [execCpyr, dxOp_ready ready]
  dsimp only
  rw [view]
  dsimp only
  rw [took, enqueueCopy_eq]
  rfl

theorem cpyr_takes (few : countOf f ≤ r.cnt + 1) (free : countOf f ≤ r.free) : ∃ t c, exec (.cpyr f) s = .next t ∧
    Enqueues s t c (countOf f * ((2 ^ r.lsz + 63) / 64)) ∧ c.kind = cpyrKind f s r ∧ Runs s t c ∧
    t.core.fills = s.core.fills ++ [{ ring := ringOfWord f, copy := some c.id, n := countOf f }] ∧
    SameRegs s.team t.team ∧ LmBecomes s t (counters (taking f r) (ownByte s)) := by
  obtain ⟨m, counts⟩ : ∃ m, (setRing (viewOf (taking f r)) s).mem = m := ⟨_, rfl⟩
  have run := exec_cpyr ready num holds counts
  rw [if_neg (Nat.not_lt.2 few), if_neg (Nat.not_lt.2 free)] at run
  have num' : Numbered (tookSlots f m s) := num
  obtain ⟨c, kind, runs, number, beats, enqueues⟩ := scheduleCopy_issues (i := .cpyr f) (kind := cpyrKind f s r) num'
    (cpyrUnits localView (addressOf s f.aS) r.base r.lsz r.cnt r.tail (countOf f)) ((countOf f * 2 ^ r.lsz + 63) / 64)
  obtain ⟨-, fits, -⟩ := holds
  refine ⟨joined c (tookSlots f m s), c, run.trans (congrArg _ runs), enqueues, kind, .inl beats, ?_, rfl, ?_⟩
  · rw [number]
    rfl
  · exact lmBecomes_congr (lmBecomes_setRing s (r := taking f r) fits) rfl rfl counts.symm

end

/-! ## RINIT (R298, R299) -/

/-- No slots of the ring wait to be counted. -/
theorem popFills_none {s : State} {k : Nat} (front : Foreground s s.team.ref) (filled : AllFilled s k) (n : Nat) :
    popFills s.team.ref k n s = s := by
  cases n with
  | zero => rfl
  | succ n =>
    have none_ : s.core.fills.find? (fun x => x.ring = k) = none := List.find?_eq_none.2 fun x hx => by simpa using filled x hx
    rw [popFills, coreAt_front front, none_]

section

variable {f : DxForm} {s : State}

/-- The ring bound, or unbound. -/
def bound (k : Nat) (b : Option RingBind) (s : State) : State := s.onCore fun c => { c with rings := vput c.rings k b }

theorem rinit_misaligned (ready : DxReady (.rinit f) true s) (odd : ¬ 32 ∣ addressOf s f.aS) :
    exec (.rinit f) s = .next (deferTrap s.team.ref 0x0020 (addressOf s f.aS) (trapWord (.rinit f))
      (retired .dx (.rinit f) (bound (ringOfWord f) none s) 8)) := by
  have fault : ringDescriptor s (s.team.ra f.aS).toNat = .error (0x0020, addressOf s f.aS) :=
    if_pos fun even => odd (Nat.dvd_of_mod_eq_zero even)
  show execRinit f s = _
  rw [execRinit, dxOp_ready ready]
  dsimp only
  rw [fault]
  dsimp only
  rw [issue_none (by decide)]
  rfl

/-- The layout that a descriptor's first double gives. -/
def layoutOf (off x : Nat) : RingBind := { off := off, cnt := x / 2 ^ 32 % 2 ^ 12, lsz := x / 2 ^ 24 % 2 ^ 4, base := x % 2 ^ 21 }

theorem ringDescriptor_of_lm {va ipa off x : Nat} (aligned : va % 32 = 0)
    (at_ : vaIpa s.hub.package s.team.ref s.team.windows .atomic va = some ipa)
    (spot : spotOf s.hub.package ipa = .lm s.team.ref.die s.team.ref.lcore off) (holds : peek (ownByte s) off 8 = x)
    (small : 3 ≤ (layoutOf off x).lsz) (large : (layoutOf off x).lsz ≤ 12) (whole : 2 ^ (layoutOf off x).lsz ∣ (layoutOf off x).base)
    (desc : ownGrant s.team off 32 = true)
    (slots : ownGrant s.team (layoutOf off x).base (((layoutOf off x).cnt + 1) * 2 ^ (layoutOf off x).lsz) = true) :
    ringDescriptor s va = .ok (layoutOf off x) := by
  have read : (doubleAt (ownLm s off 8) 0).toNat = x := by
    rw [ownLm_eq, doubleAt_ownRange s off (Nat.le_refl 8)]
    exact holds
  have cnt : field (doubleAt (ownLm s off 8) 0) 43 32 = (layoutOf off x).cnt := by
    unfold field
    rw [read]
    rfl
  have lsz : field (doubleAt (ownLm s off 8) 0) 27 24 = (layoutOf off x).lsz := by
    unfold field
    rw [read]
    rfl
  have base : field (doubleAt (ownLm s off 8) 0) 20 0 = (layoutOf off x).base := by
    unfold field
    rw [read, Nat.pow_zero, Nat.div_one]
    rfl
  have sound : ¬ ((layoutOf off x).lsz < 3 ∨ 12 < (layoutOf off x).lsz ∨ (layoutOf off x).base % 2 ^ (layoutOf off x).lsz ≠ 0) := by
    rw [not_or, not_or]
    exact ⟨Nat.not_lt.2 small, Nat.not_lt.2 large, not_not.2 (Nat.mod_eq_zero_of_dvd whole)⟩
  unfold ringDescriptor
  rw [if_neg (not_not.2 aligned), at_]
  dsimp only
  rw [spot]
  dsimp only
  rw [cnt, lsz, base, if_pos ⟨rfl, rfl, desc⟩, if_neg sound, if_pos slots]
  rfl

/-- The counters of a ring that is empty. -/
def emptyCounters (b : RingBind) : List Byte := natBytes 4 0 ++ natBytes 4 0 ++ natBytes 4 0 ++ natBytes 4 (b.cnt + 1)

/-- The state once RINIT has bound the ring to a layout: the memory with its counters, and no slots of a CPYR that has stopped. -/
def bindRing (k : Nat) (b : RingBind) (m : Memory) (s : State) : State :=
  { s with
    mem := m
    core := { s.core with
      rings := vput s.core.rings k (some b)
      fills := s.core.fills.filter fun x => decide (x.ring ≠ k) || x.copy.all fun i => s.core.copies.any fun y => y.id = i } }

theorem exec_rinit {b : RingBind} {m : Memory} (ready : DxReady (.rinit f) true s) (front : Foreground s s.team.ref)
    (filled : AllFilled s (ringOfWord f)) (layout : ringDescriptor s (addressOf s f.aS) = .ok b)
    (counts : (setOwnLm s (b.off + 8) (emptyCounters b)).mem = m) :
    exec (.rinit f) s = .next (retired .dx (.rinit f) (bindRing (ringOfWord f) b m s) 8) := by
  have still : AllFilled (bindRing (ringOfWord f) b m s) (ringOfWord f) := fun x hx => filled x (List.mem_of_mem_filter hx)
  have pop := popFills_none (s := bindRing (ringOfWord f) b m s) front still (bindRing (ringOfWord f) b m s).core.fills.length
  have run : exec (.rinit f) s = .next (issue .dx (.rinit f) 8 [] (popFills s.team.ref (ringOfWord f)
      (bindRing (ringOfWord f) b m s).core.fills.length (bindRing (ringOfWord f) b m s))) := by
    rw [← counts]
    show execRinit f s = _
    rw [execRinit, dxOp_ready ready]
    dsimp only
    rw [show ringDescriptor s (s.team.ra f.aS).toNat = _ from layout]
    rfl
  rw [run, ← issue_none (by decide)]
  exact congrArg (fun u => Host.Outcome.next (issue .dx (.rinit f) 8 [] u)) pop

theorem rinit_binds {off x : Nat} (on : OnCore s) (ready : DxReady (.rinit f) true s) (filled : AllFilled s (ringOfWord f))
    (at_ : addressOf s f.aS = localBase + off) (aligned : 32 ∣ off) (fits : off + 32 ≤ 2 ^ 21) (holds : peek (ownByte s) off 8 = x)
    (small : 3 ≤ (layoutOf off x).lsz) (large : (layoutOf off x).lsz ≤ 12) (whole : 2 ^ (layoutOf off x).lsz ∣ (layoutOf off x).base)
    (desc : ownGrant s.team off 32 = true)
    (slots : ownGrant s.team (layoutOf off x).base (((layoutOf off x).cnt + 1) * 2 ^ (layoutOf off x).lsz) = true) :
    ∃ t, exec (.rinit f) s = .next t ∧ Passed .dx s t ∧ SameRegs s.team t.team ∧
      vget t.core.rings (ringOfWord f) none = some (layoutOf off x) ∧
      LmBecomes s t (poke (poke (poke (poke (ownByte s) (off + 8) 4 0) (off + 12) 4 0) (off + 16) 4 0) (off + 20) 4
        ((layoutOf off x).cnt + 1)) := by
  obtain ⟨die, lcore, front⟩ := on
  have lt : off < 2 ^ 21 := by omega
  have even : addressOf s f.aS % 32 = 0 := by
    rw [at_]
    exact Nat.mod_eq_zero_of_dvd (Nat.dvd_add (by norm_num [localBase]) aligned)
  have layout := ringDescriptor_of_lm even (own_ipa _ _ _ _ _ off at_ lt) (spot_lm _ _ _ _ die lcore lt) holds small large whole desc slots
  obtain ⟨m, counts⟩ : ∃ m, (setOwnLm s (off + 8) (emptyCounters (layoutOf off x))).mem = m := ⟨_, rfl⟩
  refine ⟨_, exec_rinit ready front filled layout counts, passed_retired .., rfl, vget_vput_same _ _ _ _ (f.f.extractLsb' 9 3).isLt, ?_⟩
  have written := lmBecomes_setOwnLm s (o := off + 8) (bs := emptyCounters (layoutOf off x))
    (by simp only [emptyCounters, List.length_append, length_natBytes]; omega)
  rw [emptyCounters, overlay_counters] at written
  exact lmBecomes_congr written rfl rfl counts.symm

end

/-- Settles O30: CPYR by its checks and the slots that it takes, RINIT by its descriptor. -/
theorem ringCopiesAndBinding : Obligations.RingCopiesAndBinding := by
  unfold Obligations.RingCopiesAndBinding
  intro f s on
  refine ⟨fun r ready num holds => ⟨fun many trap => ?_, fun few short => ?_, cpyr_takes ready num holds⟩,
    fun ready filled off cnt lsz base at_ aligned fits cntAt lszAt baseAt small large whole desc slots => ?_, fun ready odd => ?_⟩
  · exact (exec_cpyr ready num holds rfl).trans (congrArg _ ((if_pos many).trans (takeTrap_eq trap)))
  · exact (exec_cpyr ready num holds rfl).trans (congrArg _ ((if_neg (Nat.not_lt.2 few)).trans (if_pos short)))
  · subst cntAt lszAt baseAt
    exact rinit_binds on ready filled at_ aligned fits rfl small large whole desc slots
  · exact ⟨_, rinit_misaligned ready odd, passed_retired .., rfl, rfl, vget_vput_same _ _ _ _ (f.f.extractLsb' 9 3).isLt,
      List.mem_cons_self⟩

end Sys2Proof.Laws
end

section
/-! SUPPORT. Copies within the own LM move their bytes (R292, R293, R295): O33. -/

namespace Sys2Proof.Laws

open Machine Claims

/-! ## Runs within the own LM -/

/-- A run within the own LM: the offsets of its source and its destination, and its length. -/
structure OwnRun where
  src : Nat
  dst : Nat
  len : Nat

/-- The unit that is one run of the own LM. -/
def OwnRun.unit (m : OwnRun) : Unit64 := [(localBase + m.src, .va (localBase + m.dst), m.len)]

/-- Both sides of a run are granted. -/
def RunGranted (s : State) (m : OwnRun) : Prop := 0 < m.len ∧ Claims.Granted s m.src m.len ∧ Claims.Granted s m.dst m.len

/-- The run as the engine reads it. -/
def OwnRun.read (s : State) (m : OwnRun) : Run :=
  { src := localBase + m.src, dst := .va (localBase + m.dst), bytes := ownLm s m.src m.len,
    sides := (linePieces (localBase + m.src) m.len).map fun p => (lineOf p.1, none) }

/-- The write that a run makes. -/
def OwnRun.write (s : State) (m : OwnRun) : Nat × List Byte := (m.dst, ownLm s m.src m.len)

theorem RunGranted.lt {s : State} {m : OwnRun} (h : RunGranted s m) : m.src + m.len ≤ 2 ^ 21 ∧ m.dst + m.len ≤ 2 ^ 21 := by
  obtain ⟨-, ⟨src, -⟩, ⟨dst, -⟩⟩ := h
  exact ⟨src, dst⟩

section

variable {s : State} {c : Copy} (h : OwnEntry c s)
include h

omit h in
/-- No LM keeps sidebands (R291). -/
theorem stagingLine_of_lm {a ipa d l o : Nat} (at_ : vaIpa s.hub.package c.team c.vwin.toList .write a = some ipa)
    (spot : spotOf s.hub.package ipa = .lm d l o) : stagingLine s c a = none := by
  simp only [stagingLine, at_, spot]

omit h in
theorem lmOf_of_lm {a ipa d l o : Nat} (at_ : ipaOf s c a = some ipa) (spot : spotOf s.hub.package ipa = .lm d l o) :
    lmOf s c a = some (d, l) := by
  simp only [lmOf, at_, spot]

variable {o : Nat} (lt : o < 2 ^ 21)
include lt

theorem stagingLine_own : stagingLine s c (localBase + o) = none := stagingLine_of_lm (vaIpa_own h lt .write) (spotOf_own h lt)

theorem ipaOf_own : ipaOf s c (localBase + o) = some (lmIpa s.hub.package s.team.ref.die s.team.ref.lcore o) := by
  rw [ipaOf, vaIpa_own h lt .read]
  rfl

theorem lmOf_own : lmOf s c (localBase + o) = some (s.team.ref.die, s.team.ref.lcore) :=
  lmOf_of_lm (ipaOf_own h lt) (spotOf_own h lt)

end

/-! ## Every run is read before one is written (R292) -/

section

variable {s : State} {c : Copy} (h : OwnEntry c s) (unkept : c.kept = [])
include h unkept

theorem readRun_own (side : Bool) {o n : Nat} {ps : List (Nat × Nat)} (tiles : Tiles (localBase + o) n ps)
    (granted : Claims.Granted s o n) : readRun c side ps s = (.ok (ownLm s o n, ps.map fun p => (lineOf p.1, none)), s) := by
  induction ps generalizing o n with
  | nil =>
    have none_ : n = 0 := tiles
    subst none_
    rfl
  | cons p ps ih =>
    obtain ⟨x, k⟩ := p
    obtain ⟨rfl, some_, le, rest⟩ := tiles
    rw [Nat.add_assoc] at rest
    simp only [readRun, readPiece_own h some_ (granted_part granted (Nat.le_refl _) (by omega)) unkept,
      ih rest (granted_part granted (by omega) (by omega)), ownLm_cut s o le, ite_self, List.map_cons]

theorem readUnits_own {ms : List OwnRun} (granted : ∀ m ∈ ms, RunGranted s m) :
    readUnits c (ms.map OwnRun.unit) s = (ms.map fun m => [m.read s], none, s) := by
  induction ms with
  | nil => rfl
  | cons m ms ih =>
    obtain ⟨-, src, -⟩ := granted m List.mem_cons_self
    have first : readUnit c m.unit s = (.ok [m.read s], s) := by
      simp only [OwnRun.unit, readUnit, readRun_own h unkept _ (tiles_lines _ _) src]
      rfl
    simp only [List.map_cons, readUnits, first, ih fun x hx => granted x (List.mem_cons_of_mem _ hx)]

end

/-! ## The runs are written, unit by unit (R535) -/

theorem tiles_mem {a n : Nat} {ps : List (Nat × Nat)} (tiles : Tiles a n ps) {p : Nat × Nat} (hp : p ∈ ps) :
    0 < p.2 ∧ a ≤ p.1 ∧ p.1 + p.2 ≤ a + n := by
  induction ps generalizing a n with
  | nil => exact absurd hp List.not_mem_nil
  | cons q ps ih =>
    obtain ⟨x, k⟩ := q
    obtain ⟨rfl, some_, le, rest⟩ := tiles
    rcases List.mem_cons.1 hp with rfl | later
    · exact ⟨some_, Nat.le_refl _, Nat.add_le_add_left le _⟩
    · obtain ⟨pos, low, high⟩ := ih rest later
      exact ⟨pos, by omega, by omega⟩

section

variable {s : State} {c : Copy}

/-- A copy that no source byte of its own stands in the way of overwrites every byte as it is (R292). -/
theorem clobbers_none (va : Nat) : clobbers s c (fun _ => false) va = false := by
  unfold clobbers
  cases ipaOf s c va <;> rfl

theorem keepOld_none (ps : List (Nat × Nat)) : keepOld (fun _ => false) ps c s = (none, c, s) := by
  induction ps with
  | nil => rfl
  | cons p ps ih =>
    have none_ : (upFrom p.1 p.2).any (clobbers s c fun _ => false) = false :=
      List.any_eq_false.2 fun x _ => by rw [clobbers_none]; decide
    simp only [keepOld, none_, ih, Bool.false_eq_true, if_false]

theorem writeStop_of_lm {x : Nat × Nat} {ipa d l o : Nat} (place : enginePlace s c .write false x.1 x.2 = .ok ipa)
    (spot : spotOf s.hub.package ipa = .lm d l o) : writeStop s c x = none := by
  simp only [writeStop, place, spot]

variable (h : OwnEntry c s)
include h

theorem writeStops_own {o n : Nat} (granted : Claims.Granted s o n) : (linePieces (localBase + o) n).findSome? (writeStop s c) = none := by
  refine List.findSome?_eq_none_iff.2 fun p hp => ?_
  obtain ⟨some_, low, high⟩ := tiles_mem (tiles_lines _ _) hp
  obtain ⟨o', place⟩ := Nat.exists_eq_add_of_le (Nat.le_trans (Nat.le_add_right ..) low)
  have part : Claims.Granted s o' p.2 := granted_part granted (by omega) (by omega)
  have lt : o' < 2 ^ 21 := by
    obtain ⟨fits, -⟩ := part
    omega
  refine writeStop_of_lm ?_ (spotOf_own h lt)
  rw [place]
  exact enginePlace_own h some_ part .write false

theorem writeUnit_own {r : Run} {o : Nat} (dst : r.dst = .va (localBase + o)) (granted : Claims.Granted s o r.bytes.length) :
    writeUnit (fun _ => false) [r] c s = (none, c, setOwnLm s o r.bytes) := by
  have pieces : unitPieces [r] = linePieces (localBase + o) r.bytes.length := by
    simp only [unitPieces, List.flatMap_cons, List.flatMap_nil, dst, List.append_nil]
  have plain : (upFrom (localBase + o) r.bytes.length).zipWith (fun x b =>
      if clobbers s c (fun _ => false) x then Config.freeByte s.free x else b) r.bytes = r.bytes := by
    simp only [clobbers_none, Bool.false_eq_true, if_false]
    exact zipWith_snd (by simp [upFrom])
  have run : writeRun (fun _ => false) r c s = (none, setOwnLm s o r.bytes) := by
    simp only [writeRun, dst, plain, engineWrite_own h false granted]
  simp only [writeUnit, pieces, writeStops_own h granted, keepOld_none, writeRuns, run]

theorem writeUnits_own {u : State} {ms : List OwnRun} (granted : ∀ m ∈ ms, RunGranted s m) :
    writeUnits (fun _ => false) (ms.map fun m => [m.read u]) c s = (ms.length, none, c, wrote (ms.map (OwnRun.write u)) s) := by
  induction ms generalizing s with
  | nil => rfl
  | cons m ms ih =>
    obtain ⟨-, -, dst⟩ := granted m List.mem_cons_self
    have len : (m.read u).bytes.length = m.len := length_lmBytes ..
    have first := writeUnit_own h (r := m.read u) rfl (by rw [len]; exact dst)
    have rest := ih (s := setOwnLm s m.dst (m.read u).bytes) ⟨h.team, h.die, h.lcore⟩ fun x hx => granted x (List.mem_cons_of_mem _ hx)
    simp only [List.map_cons, writeUnits, first, rest, List.length_cons]
    rfl

/-! ## No sidebands go with them (R291) -/

omit h in
theorem foldl_still {α σ : Type} {f : σ → α → σ} {x : σ} {l : List α} (still : ∀ a ∈ l, f x a = x) : l.foldl f x = x := by
  induction l with
  | nil => rfl
  | cons a l ih => rw [List.foldl_cons, still a List.mem_cons_self, ih fun b hb => still b (List.mem_cons_of_mem _ hb)]

omit h in
theorem destLines_own {ms : List OwnRun} (fits : ∀ m ∈ ms, m.dst + m.len ≤ 2 ^ 21) {d : Dest}
    (hd : d ∈ destLines (ms.map OwnRun.unit)) : ∃ o, o < 2 ^ 21 ∧ d = .va (localBase + o) := by
  have lines : destLines (ms.map OwnRun.unit) = ms.flatMap fun m => (linesOf (localBase + m.dst) m.len).map .va := by
    simp [destLines, List.flatMap_map, OwnRun.unit, List.flatMap_assoc]
  rw [lines] at hd
  obtain ⟨m, mem, hd⟩ := List.mem_flatMap.1 hd
  obtain ⟨line, hline, rfl⟩ := List.mem_map.1 hd
  have high := fits m mem
  unfold linesOf at hline
  split at hline
  · exact absurd hline List.not_mem_nil
  · obtain ⟨i, hi, rfl⟩ := List.mem_map.1 hline
    rw [List.mem_range] at hi
    have low : localBase ≤ lineOf (localBase + m.dst) + 64 * i := by
      unfold lineOf localBase
      omega
    obtain ⟨o, place⟩ := Nat.exists_eq_add_of_le low
    refine ⟨o, ?_, congrArg _ place⟩
    unfold lineOf localBase at place
    unfold localBase at hi
    omega

/-- A destination in the own LM takes no sideband. -/
theorem carrySides_own {ms : List OwnRun} (fits : ∀ m ∈ ms, m.dst + m.len ≤ 2 ^ 21) (all : List Unit64) (rs : List Run) :
    carrySides c all (ms.map OwnRun.unit) rs s = s := by
  unfold carrySides
  refine foldl_still fun d hd => ?_
  obtain ⟨o, lt, rfl⟩ := destLines_own fits hd
  simp only [stagingLine_own h lt]
  split <;> rfl

/-- Runs of the own LM move: every byte is read, then every byte is written (R292). -/
theorem moveUnits_own (unkept : c.kept = []) {ms : List OwnRun} (granted : ∀ m ∈ ms, RunGranted s m) (all : List Unit64) :
    moveUnits (fun _ => false) all (ms.map OwnRun.unit) c s =
      (ms.length, none, c, { wrote (ms.map (OwnRun.write s)) s with free := s.free + 1 }) := by
  have whole : (ms.map OwnRun.unit).take ms.length = ms.map OwnRun.unit := List.take_of_length_le (by simp)
  have entry : OwnEntry c { wrote (ms.map (OwnRun.write s)) s with free := s.free + 1 } := by
    rw [wrote_eq]
    exact ⟨h.team, h.die, h.lcore⟩
  have free : (wrote (ms.map (OwnRun.write s)) s).free = s.free := by rw [wrote_eq]
  simp only [moveUnits, readUnits_own h unkept granted, writeUnits_own h granted, whole, free]
  rw [carrySides_own entry fun m hm => (granted m hm).lt.2]
  rfl

end

end Sys2Proof.Laws
end

section
/-! SUPPORT. An entry of the copy queue that is under way and leaves (R100, R184, R289, R292): O33. -/

namespace Sys2Proof.Laws

open Machine Claims

/-! ## What stays as an entry changes -/

/-- The state of an entry under way: the registers and the place in the foreground, the other entries and the other writes are
those of `s`. -/
structure Underway (c : Copy) (s u : State) : Prop where
  regs : SameRegs s.team u.team
  ref : u.team.ref = s.team.ref
  front : Foreground u u.team.ref
  epochs : u.lmEpochs = s.lmEpochs
  ids : u.core.copies.map (·.id) = s.core.copies.map (·.id)
  writes : (u.team.writes.filter fun w => some w.id ≠ c.wid) = s.team.writes.filter fun w => some w.id ≠ c.wid

/-- An entry of the same numbers. -/
structure SameEntry (c c' : Copy) : Prop where
  id : c'.id = c.id
  wid : c'.wid = c.wid
  team : c'.team = c.team

theorem filter_modWhere {α : Type} {p q : α → Bool} {f : α → α} (away : ∀ x, p x = true → q x = false)
    (same : ∀ x, q (f x) = q x) (l : List α) : (modWhere p f l).filter q = l.filter q := by
  induction l with
  | nil => rfl
  | cons x l ih =>
    have rest : (l.map fun x => if p x then f x else x).filter q = l.filter q := ih
    rw [modWhere, List.map_cons, List.filter_cons, List.filter_cons, rest]
    cases here : p x with
    | false => simp only [Bool.false_eq_true, if_false]
    | true => simp only [if_true, same, away x here, Bool.false_eq_true, if_false]

theorem map_modWhere {α β : Type} {p : α → Bool} {f : α → α} (g : α → β) (same : ∀ x, p x = true → g (f x) = g x) (l : List α) :
    (modWhere p f l).map g = l.map g := by
  rw [modWhere, List.map_map]
  refine List.map_congr_left fun x _ => ?_
  cases here : p x with
  | false => simp [here]
  | true => simp [here, same x here]

section

variable {c c' : Copy} {s u : State} (way : Underway c s u) (entry : SameEntry c c') (own : c.team = s.team.ref)
include way entry own

theorem putCopy_way : putCopy c' u = changed c' u :=
  putCopy_eq (entry.team.trans (own.trans way.ref.symm)) way.front

theorem underway_put : Underway c s (putCopy c' u) := by
  rw [putCopy_way way entry own]
  refine ⟨way.regs, way.ref, way.front, way.epochs, ?_, ?_⟩
  · exact (map_modWhere Copy.id (fun x hx => (of_decide_eq_true hx).symm) u.core.copies).trans way.ids
  · refine Eq.trans ?_ way.writes
    exact filter_modWhere (p := fun w => some w.id = c'.wid) (q := fun w => some w.id ≠ c.wid)
      (f := fun w => { w with count := c'.writesLeft }) (fun w hw => by simpa [entry.wid] using hw) (fun _ => rfl) u.team.writes

/-- The entry stands in the queue as it was put. -/
theorem mem_put (listed : c.id ∈ s.core.copies.map (·.id)) : c' ∈ (putCopy c' u).core.copies := by
  rw [putCopy_way way entry own]
  rw [← way.ids] at listed
  obtain ⟨x, hx, id⟩ := List.mem_map.1 listed
  exact List.mem_map.2 ⟨x, hx, if_pos (decide_eq_true (id.trans entry.id.symm))⟩

theorem putCopy_mem : (putCopy c' u).mem = u.mem := by
  rw [putCopy_way way entry own]
  rfl

/-- What the entry leaves behind: its registers as they were, and neither it nor its writes. -/
theorem underway_ends : SameRegs s.team (endCopy c' u).team ∧ (endCopy c' u).team.ref = s.team.ref ∧
    (endCopy c' u).lmEpochs = s.lmEpochs ∧ (endCopy c' u).mem = u.mem ∧
    (endCopy c' u).core.copies.map (·.id) = (s.core.copies.map (·.id)).filter (· ≠ c.id) ∧
    (endCopy c' u).team.writes = s.team.writes.filter fun w => some w.id ≠ c.wid := by
  obtain ⟨k, e, ends⟩ := endCopy_eq (entry.team.trans (own.trans way.ref.symm)) way.front
  rw [ends]
  refine ⟨way.regs.trans (regs_retire k .dx e (without c' u).team).symm, (retire_ref ..).trans way.ref, way.epochs, rfl, ?_, ?_⟩
  · rw [← way.ids, List.filter_map, ← entry.id]
    rfl
  · rw [← way.writes, ← entry.wid]
    unfold retire
    cases e <;> rfl

omit entry own in
/-- Moving bytes changes no entry and no write. -/
theorem underway_moves (m : Memory) (n : Nat) : Underway c s { u with mem := m, free := n } :=
  ⟨way.regs, way.ref, way.front, way.epochs, way.ids, way.writes⟩

end

/-! ## The event finds its entry -/

section

variable {c : Copy} {s : State} (oldest : Oldest s c)
include oldest

theorem oldest_front : Foreground s s.team.ref ∧ c.team = s.team.ref ∧ s.team.ref = s.occ.team := by
  obtain ⟨front, -, own, -, -⟩ := oldest
  obtain ⟨-, -, -, ref⟩ := id front
  exact ⟨by rwa [ref], own, ref⟩

/-- The entry goes on as the event comes (R538). -/
def goesOn (c : Copy) : Copy := { c with held := false }

omit oldest in
theorem goesOn_same (c : Copy) : SameEntry c (goesOn c) := ⟨rfl, rfl, rfl⟩

theorem underway_goesOn : Underway c s (putCopy (goesOn c) s) := by
  obtain ⟨front, own, -⟩ := oldest_front oldest
  exact underway_put ⟨rfl, rfl, front, rfl, rfl, rfl⟩ (goesOn_same c) own

theorem oldest_listed : c.id ∈ s.core.copies.map (·.id) := by
  obtain ⟨-, -, -, found, -⟩ := oldest
  exact List.mem_map_of_mem (List.mem_of_find?_eq_some found)

/-- Nothing before it stands in its way (R290). -/
theorem behindCopy_oldest : behindCopy (putCopy (goesOn c) s) (goesOn c) = false := by
  obtain ⟨front, own, -⟩ := oldest_front oldest
  obtain ⟨-, -, -, -, first⟩ := oldest
  rw [putCopy_eq (c := goesOn c) own front]
  refine behindRanges_oldest (s := changed (goesOn c) s) (c := goesOn c) own front (fun x hx plain => ?_) _
  obtain ⟨y, hy, rfl⟩ := List.mem_map.1 hx
  split
  · exact Nat.le_refl _
  next other =>
    rw [if_neg other] at plain
    exact first y hy plain

theorem coreStalled_oldest : coreStalled s c.team = false := by
  obtain ⟨front, own, -⟩ := oldest_front oldest
  obtain ⟨-, stalled, -, -, -⟩ := oldest
  rw [coreStalled, own, coreAt_front front, stalled, Bool.and_false]

theorem exec_copyComplete (plain : c.kind.isSweep = false) :
    exec .copyComplete s = .next (completeCopy (goesOn c) (putCopy (goesOn c) s)) := by
  have still := coreStalled_oldest oldest
  obtain ⟨front, -, -, found, -⟩ := oldest
  have plain' : ({ c with held := false } : Copy).kind.isSweep = false := plain
  show execCopyComplete s = _
  unfold execCopyComplete eventCopy
  rw [focus_of_foreground front]
  dsimp only
  rw [found]
  dsimp only
  rw [still, if_neg (by decide), plain', if_neg (by decide)]
  rfl

theorem exec_cpylProgress {desc : Nat} (kind : c.kind = .cpyl desc) :
    exec .cpylProgress s = .next (progressTensor (goesOn c) desc (putCopy (goesOn c) s)) := by
  have still := coreStalled_oldest oldest
  obtain ⟨front, -, -, found, -⟩ := oldest
  show execCpylProgress s = _
  unfold execCpylProgress eventCopy
  rw [focus_of_foreground front]
  dsimp only
  rw [found]
  dsimp only
  rw [still, if_neg (by decide)]
  split
  next _ is =>
    obtain rfl : _ = desc := CopyKind.cpyl.inj (is.symm.trans kind)
    rfl
  next other => exact absurd kind (other desc)

end

end Sys2Proof.Laws
end

section
/-! SUPPORT. COPY_COMPLETE of a CPY or CPY2 within the own LM (R292, R293): O33. -/

namespace Sys2Proof.Laws

open Machine Claims

/-! ## The image that the moves of a copy give -/

/-- Bytes of the LM written at an offset. -/
theorem overlay_ownLm (img : Nat → Byte) (s : State) (d o n : Nat) :
    overlay img (d, ownLm s o n) = fun y => if d ≤ y ∧ y < d + n then ownByte s (o + (y - d)) else img y := by
  funext y
  have len : (ownLm s o n).length = n := length_lmBytes ..
  simp only [overlay, len]
  by_cases inside : d ≤ y ∧ y < d + n
  · have lt : y - d < n := by omega
    rw [if_pos inside, if_pos inside, ownLm_eq]
    simp [ownRange, List.getD_eq_getElem?_getD, lt]
  · rw [if_neg inside, if_neg inside]

/-- A beat of a copy, as a run. -/
def beatRun (x : Nat × Nat) : OwnRun := { src := x.1, dst := x.2, len := 64 }

theorem moved_beats (s : State) (bs : List (Nat × Nat)) (img : Nat → Byte) :
    ((bs.map beatRun).map (OwnRun.write s)).foldl overlay img = moved (ownByte s) bs img := by
  induction bs generalizing img with
  | nil => rfl
  | cons b bs ih =>
    have first : overlay img ((beatRun b).write s) = _ := overlay_ownLm img s b.2 b.1 64
    rw [List.map_cons, List.map_cons, List.foldl_cons, first, ih]
    rfl

/-! ## Both ranges lie in the own LM -/

section

variable {s : State} {c : Copy} (h : OwnEntry c s)
include h

/-- Whether its ranges meet or not, a copy within the own LM overwrites no byte that it has still to read (R292). -/
theorem ownLm_uncovered {ms : List OwnRun} (granted : ∀ m ∈ ms, RunGranted s m) :
    (if unitsInOneLm s c (ms.map OwnRun.unit) then fun _ => false else inRanges (sourceRanges s c (ms.map OwnRun.unit))) =
      fun _ => false := by
  cases ms with
  | nil => rfl
  | cons m ms =>
    have lmAt : ∀ o n, 0 < n → o + n ≤ 2 ^ 21 → lmOf s c (localBase + o + n - 1) = some (s.team.ref.die, s.team.ref.lcore) :=
      fun o n some_ fits => by
        rw [Nat.add_assoc, Nat.add_sub_assoc (by omega)]
        exact lmOf_own h (by omega)
    have inside : unitsInOneLm s c ((m :: ms).map OwnRun.unit) = true := by
      have first : lmOf s c (localBase + m.src) = some (s.team.ref.die, s.team.ref.lcore) := by
        obtain ⟨some_, -, -⟩ := granted m List.mem_cons_self
        obtain ⟨fits, -⟩ := (granted m List.mem_cons_self).lt
        exact lmOf_own h (by omega)
      show unitsIn s c (fun x => lmOf s c (localBase + m.src) = some x) ((m :: ms).map OwnRun.unit) = true
      unfold unitsIn
      rw [List.all_map]
      refine List.all_eq_true.2 fun x hx => ?_
      obtain ⟨some_, -, -⟩ := granted x hx
      obtain ⟨src, dst⟩ := (granted x hx).lt
      simp [OwnRun.unit, first, lmOf_own h (o := x.src) (by omega), lmOf_own h (o := x.dst) (by omega), lmAt _ _ some_ src,
        lmAt _ _ some_ dst]
    exact if_pos inside

end

/-! ## CPY and CPY2 complete -/

section

variable {s : State} {c : Copy} {dst src ds ss beats row : Nat} {bs : List (Nat × Nat)}

theorem copyFault_none (h : c.kind = .cpy dst src ds ss beats row) (dstOk : 64 ∣ dst) (srcOk : 64 ∣ src) (dsOk : 64 ∣ ds) (ssOk : 64 ∣ ss) :
    copyFault c.kind = none := by
  rw [h]
  simp [copyFault, Nat.mod_eq_zero_of_dvd dstOk, Nat.mod_eq_zero_of_dvd srcOk, Nat.mod_eq_zero_of_dvd dsOk, Nat.mod_eq_zero_of_dvd ssOk]

/-- The copy's beats as runs of the own LM. -/
theorem cpyUnits_own {srcOff dstOff : Nat → Nat} (at_ : ∀ b, b < beats →
      (src + b / row * ss + 64 * (b % row)) % 2 ^ 64 = localBase + srcOff b ∧
      (dst + b / row * ds + 64 * (b % row)) % 2 ^ 64 = localBase + dstOff b) :
    cpyUnits dst src ds ss beats row = (((List.range beats).map fun b => (srcOff b, dstOff b)).map beatRun).map OwnRun.unit := by
  rw [List.map_map, List.map_map]
  refine List.map_congr_left fun b hb => ?_
  obtain ⟨srcAt, dstAt⟩ := at_ b (List.mem_range.1 hb)
  simp only [Function.comp_apply, beatRun, OwnRun.unit, srcAt, dstAt]

/-- The entry once so many units more have moved. -/
def advanced (n : Nat) (c : Copy) : Copy := { c with moved := c.moved + n }

theorem completeCopy_moves {ms : List OwnRun} {u : State} (own : OwnEntry c u) (kind : c.kind = .cpy dst src ds ss beats row)
    (sound : copyFault c.kind = none) (first : behindCopy u c = false) (start : c.moved = 0) (unkept : c.kept = [])
    (units : cpyUnits dst src ds ss beats row = ms.map OwnRun.unit) (granted : ∀ m ∈ ms, RunGranted u m) :
    completeCopy c u = endCopy (advanced ms.length c)
      (putCopy (advanced ms.length c) { wrote (ms.map (OwnRun.write u)) u with free := u.free + 1 }) := by
  have found : copyUnits c u = (ms.map OwnRun.unit, none, u) := by
    unfold copyUnits
    rw [kind, ← units]
  have goes : ¬ ((behindCopy u c || wsldWaits u c.kind) = true) := by
    rw [first, kind]
    simp [wsldWaits]
  have all : (ms.map OwnRun.unit).drop c.moved = ms.map OwnRun.unit := by rw [start, List.drop_zero]
  have fill : ∀ t, fillCopied (advanced ms.length c) ms.length t = t := fun t => by
    have same : (advanced ms.length c).kind = .cpy dst src ds ss beats row := kind
    simp only [fillCopied, same]
  unfold completeCopy
  rw [sound]
  dsimp only
  rw [if_neg goes, found]
  dsimp only
  rw [all, ownLm_uncovered own granted, moveUnits_own own unkept granted]
  exact congrArg (endCopy (advanced ms.length c)) (fill _)

theorem cpy_completes (oldest : Oldest s c) (on : OnCore s) (start : c.moved = 0) (unkept : c.kept = [])
    (kind : c.kind = .cpy dst src ds ss beats row) (sound : copyFault c.kind = none)
    (units : cpyUnits dst src ds ss beats row = (bs.map beatRun).map OwnRun.unit) (granted : ∀ b ∈ bs, RunGranted s (beatRun b)) :
    ∃ t, exec .copyComplete s = .next t ∧ SameRegs s.team t.team ∧ LmBecomes s t (moved (ownByte s) bs (ownByte s)) ∧
      t.core.copies.map (·.id) = (s.core.copies.map (·.id)).filter (· ≠ c.id) ∧
      t.team.writes = s.team.writes.filter fun w => some w.id ≠ c.wid := by
  obtain ⟨die, lcore, -⟩ := on
  obtain ⟨front, own, -⟩ := oldest_front oldest
  have plain : c.kind.isSweep = false := by rw [kind]; rfl
  have put : putCopy (goesOn c) s = changed (goesOn c) s := putCopy_eq own front
  have way := underway_goesOn oldest
  have first := behindCopy_oldest oldest
  rw [put] at way first
  have granted' : ∀ m ∈ bs.map beatRun, RunGranted (changed (goesOn c) s) m := fun m hm => by
    obtain ⟨b, hb, rfl⟩ := List.mem_map.1 hm
    obtain ⟨some_, from_, to_⟩ := granted b hb
    exact ⟨some_, granted_congr from_ rfl rfl rfl rfl rfl, granted_congr to_ rfl rfl rfl rfl rfl⟩
  have moves := completeCopy_moves (c := goesOn c) (u := changed (goesOn c) s) ⟨own, die, lcore⟩ kind sound first start unkept units granted'
  have entry : SameEntry c (advanced (bs.map beatRun).length (goesOn c)) := ⟨rfl, rfl, rfl⟩
  have written := lmBecomes_wrote (s := changed (goesOn c) s) (ws := (bs.map beatRun).map (OwnRun.write (changed (goesOn c) s)))
    fun w hw => by
      obtain ⟨m, hm, rfl⟩ := List.mem_map.1 hw
      have fits := (granted' m hm).lt.2
      have len : (ownLm (changed (goesOn c) s) m.src m.len).length = m.len := length_lmBytes ..
      exact (congrArg (m.dst + ·) len).trans_le fits
  rw [moved_beats] at written
  have run := exec_copyComplete oldest plain
  rw [put, moves, wrote_eq] at run
  have after := underway_moves way (wrote ((bs.map beatRun).map (OwnRun.write (changed (goesOn c) s))) (changed (goesOn c) s)).mem
    ((changed (goesOn c) s).free + 1)
  obtain ⟨regs, ref, epochs, mem, ids, writes⟩ := underway_ends (underway_put after entry own) entry own
  refine ⟨_, run, regs, ?_, ids, writes⟩
  have stored : LmBecomes s (wrote ((bs.map beatRun).map (OwnRun.write (changed (goesOn c) s))) (changed (goesOn c) s))
      (moved (ownByte s) bs (ownByte s)) := written
  obtain ⟨ref', epochs', -⟩ := id stored
  exact lmBecomes_congr stored (ref.trans ref'.symm) (epochs.trans epochs'.symm) (mem.trans (putCopy_mem after entry own))

end

end Sys2Proof.Laws
end

section
/-! SUPPORT. CPYL_PROGRESS of a tensor that is one contiguous row of the own LM (R292, R295, R296): O33. -/

namespace Sys2Proof.Laws

open Machine Claims

/-! ## A tensor of one row (R295) -/

/-- The tensor is one row of `n` bytes of the own LM. -/
structure OwnRow (x : Tensor) (n so dst : Nat) : Prop where
  shape : x.n = [n, 1, 1, 1]
  srcAt : x.src = localBase + so
  dstAt : x.dst = localBase + dst
  srcFits : so + n ≤ 2 ^ 21
  dstFits : dst + n ≤ 2 ^ 21

section

variable {x : Tensor} {n so dst : Nat} (row : OwnRow x n so dst)
include row

theorem row_total : x.total = n := by
  simp [Tensor.total, row.shape]

theorem row_granules : x.granules = (n + 4095) / 4096 := by
  rw [Tensor.granules, row_total row]

/-- Bytes of the row that follow one another are one run. -/
theorem tensorRuns_row (fuel : Nat) {t len : Nat} (some_ : 0 < len) (within : t + len ≤ n) :
    tensorRuns x (fuel + 1) t len = OwnRun.unit { src := so + t, dst := dst + t, len := len } := by
  obtain ⟨shape, srcAt, dstAt, srcFits, dstFits⟩ := row
  have n0 : nth x.n 0 1 = n := by rw [shape]; rfl
  have n1 : nth x.n 1 1 = 1 := by rw [shape]; rfl
  have n2 : nth x.n 2 1 = 1 := by rw [shape]; rfl
  have low : t % n = t := Nat.mod_eq_of_lt (by omega)
  have high : t / n = 0 := Nat.div_eq_of_lt (by omega)
  have short : min len (n - t) = len := by omega
  have done : tensorRuns x fuel (t + len) (len - len) = [] := by
    rw [Nat.sub_self]
    cases fuel <;> simp [tensorRuns]
  have addr : ∀ base o : Nat, base = localBase + o → o + t < 2 ^ 21 → (((base : Int) + t) % 2 ^ 64).toNat = localBase + (o + t) :=
    fun base o at_ lt => by
      subst at_
      unfold localBase
      omega
  rw [tensorRuns, if_neg (Nat.ne_of_gt some_)]
  simp only [n0, n1, n2, low, high, short, done, Nat.mod_one, Nat.mul_one, Nat.cast_zero, Int.zero_mul, Int.add_zero,
    addr _ _ srcAt (by omega), addr _ _ dstAt (by omega)]
  rfl

/-- The length of a granule of a range (R295). -/
def granuleLen (n g : Nat) : Nat := min (4096 * (g + 1)) n - 4096 * g

/-- The runs of a granule. -/
def granuleRuns (n so dst g : Nat) : List OwnRun :=
  (List.range ((granuleLen n g + 63) / 64)).map fun u =>
    { src := so + (4096 * g + 64 * u), dst := dst + (4096 * g + 64 * u), len := min 64 (granuleLen n g - 64 * u) }

theorem tensorUnits_row (g : Nat) : tensorUnits x g = (granuleRuns n so dst g).map OwnRun.unit := by
  unfold tensorUnits granuleRuns
  rw [row_total row, List.map_map]
  refine List.map_congr_left fun u hu => ?_
  rw [List.mem_range] at hu
  exact tensorRuns_row row 63 (by omega) (by omega)

omit row in
/-- A run of a granule lies within the row. -/
theorem granuleRuns_within {g : Nat} {m : OwnRun} (hm : m ∈ granuleRuns n so dst g) :
    ∃ t, m.src = so + t ∧ m.dst = dst + t ∧ 0 < m.len ∧ t + m.len ≤ n := by
  obtain ⟨u, hu, rfl⟩ := List.mem_map.1 hm
  rw [List.mem_range] at hu
  unfold granuleLen at hu
  refine ⟨4096 * g + 64 * u, rfl, rfl, ?_, ?_⟩
  · show 0 < min 64 (granuleLen n g - 64 * u)
    unfold granuleLen
    omega
  · show _ + min 64 (granuleLen n g - 64 * u) ≤ n
    unfold granuleLen
    omega

omit row in
theorem granuleRuns_granted {s : State} (from_ : Claims.Granted s so n) (to_ : Claims.Granted s dst n) (g : Nat) :
    ∀ m ∈ granuleRuns n so dst g, RunGranted s m := fun m hm => by
  obtain ⟨t, src, dst, some_, within⟩ := granuleRuns_within hm
  exact ⟨some_, granted_part from_ (by omega) (by omega), granted_part to_ (by omega) (by omega)⟩

/-! ## Its ranges do not meet (R292) -/

theorem destBytes_row {a : Nat} (ha : a ∈ destBytes x.units) : ∃ t, t < n ∧ a = localBase + (dst + t) := by
  obtain ⟨unit, hunit, ha⟩ := List.mem_flatMap.1 ha
  obtain ⟨g, -, hg⟩ := List.mem_flatMap.1 hunit
  rw [tensorUnits_row row] at hg
  obtain ⟨m, hm, rfl⟩ := List.mem_map.1 hg
  obtain ⟨t, -, at_, some_, within⟩ := granuleRuns_within hm
  obtain ⟨run, hrun, ha⟩ := List.mem_flatMap.1 ha
  obtain rfl := List.mem_singleton.1 hrun
  obtain ⟨low, high⟩ := mem_upFrom.1 ha
  exact ⟨a - (localBase + dst), by omega, by omega⟩

theorem reads_row {va : Nat} (reads : x.reads va = true) : ∃ t, t < n ∧ va = localBase + (so + t) := by
  have n0 : nth x.n 0 1 = n := by rw [row.shape]; rfl
  have n1 : nth x.n 1 1 = 1 := by rw [row.shape]; rfl
  have n2 : nth x.n 2 1 = 1 := by rw [row.shape]; rfl
  have n3 : nth x.n 3 1 = 1 := by rw [row.shape]; rfl
  simp only [Tensor.reads, n0, n1, n2, n3, List.range_one, List.any_cons, List.any_nil, Bool.or_false, Nat.cast_zero, Int.zero_mul,
    Int.add_zero, Bool.and_eq_true, decide_eq_true_eq, row.srcAt] at reads
  exact ⟨va - (localBase + so), by omega, by omega⟩

theorem meets_row {s : State} {c : Copy} (own : OwnEntry c s) (apart : so + n ≤ dst ∨ dst + n ≤ so) : x.meets s c = false := by
  obtain ⟨-, -, -, srcFits, dstFits⟩ := id row
  refine List.any_eq_false.2 fun a ha => ?_
  obtain ⟨t, lt, rfl⟩ := destBytes_row row ha
  rw [ipaOf_own own (by omega), Option.map_some, Option.getD_some]
  intro covers
  obtain ⟨va, hva, reads⟩ := List.any_eq_true.1 covers
  obtain ⟨t', lt', rfl⟩ := reads_row row reads
  have names : ipaOf s c (localBase + (so + t')) = some (lmIpa s.hub.package s.team.ref.die s.team.ref.lcore (dst + t)) :=
    of_decide_eq_true (List.mem_filter.1 hva).2
  rw [ipaOf_own own (by omega)] at names
  have same : so + t' = dst + t := by
    have := Option.some.inj names
    unfold lmIpa at this
    omega
  omega

end

/-! ## The image that a granule gives -/

/-- Runs that follow one another from one range to another. -/
theorem runs_image (s : State) (a b len k : Nat) (img : Nat → Byte) :
    ((List.range k).map fun u => (b + 64 * u, ownLm s (a + 64 * u) (min 64 (len - 64 * u)))).foldl overlay img =
      fun o => if b ≤ o ∧ o < b + min (64 * k) len then ownByte s (a + (o - b)) else img o := by
  induction k with
  | zero =>
    funext o
    exact (if_neg (by omega)).symm
  | succ k ih =>
    rw [List.range_succ, List.map_append, List.foldl_append, ih]
    show overlay _ (b + 64 * k, ownLm s (a + 64 * k) (min 64 (len - 64 * k))) = _
    rw [overlay_ownLm]
    funext o
    by_cases new : b + 64 * k ≤ o ∧ o < b + 64 * k + min 64 (len - 64 * k)
    · have at_ : a + 64 * k + (o - (b + 64 * k)) = a + (o - b) := by omega
      rw [if_pos new, if_pos (by omega), at_]
    · rw [if_neg new]
      by_cases old : b ≤ o ∧ o < b + min (64 * k) len
      · rw [if_pos old, if_pos (by omega)]
      · rw [if_neg old, if_neg (by omega)]

/-- The image once granule `g` of a row has moved. -/
theorem granule_image (s : State) (n so dst g : Nat) (img : Nat → Byte) :
    ((granuleRuns n so dst g).map (OwnRun.write s)).foldl overlay img = fun o =>
      if dst + 4096 * g ≤ o ∧ o < dst + min (4096 * (g + 1)) n then ownByte s (so + (o - dst)) else img o := by
  have runs := runs_image s (so + 4096 * g) (dst + 4096 * g) (granuleLen n g) ((granuleLen n g + 63) / 64) img
  have same : (granuleRuns n so dst g).map (OwnRun.write s) = (List.range ((granuleLen n g + 63) / 64)).map fun u =>
      (dst + 4096 * g + 64 * u, ownLm s (so + 4096 * g + 64 * u) (min 64 (granuleLen n g - 64 * u))) := by
    rw [granuleRuns, List.map_map]
    refine List.map_congr_left fun u _ => ?_
    simp only [Function.comp_apply, OwnRun.write, Nat.add_assoc]
  rw [same, runs]
  funext o
  have whole : min (64 * ((granuleLen n g + 63) / 64)) (granuleLen n g) = granuleLen n g := by omega
  rw [whole]
  unfold granuleLen
  by_cases inside : dst + 4096 * g ≤ o ∧ o < dst + min (4096 * (g + 1)) n
  · have at_ : so + 4096 * g + (o - (dst + 4096 * g)) = so + (o - dst) := by omega
    rw [if_pos inside, if_pos (by omega), at_]
  · rw [if_neg inside, if_neg (by omega)]

/-! ## A granule, and the end (R295, R296) -/

section

variable {s u : State} {c : Copy} {x : Tensor} {off n so dst : Nat} (own : OwnEntry c u) (row : OwnRow x n so dst)
include own

theorem endTensor_writes (desc : Claims.Granted u off 96) :
    endTensor c (localBase + off) u = endCopy c (setOwnLm u (off + 88) (natBytes 8 1)) := by
  unfold endTensor
  rw [Nat.add_assoc, engineWrite_own own false (granted_part desc (by omega) (by rw [length_natBytes]))]

end

/-- What moving granule `x.next` writes: its runs, and the count of the granules that have moved. -/
def granuleWrites (off n so dst : Nat) (x : Tensor) (u : State) : List (Nat × List Byte) :=
  (granuleRuns n so dst x.next).map (OwnRun.write u) ++ [(off + 80, natBytes 8 (x.next + 1))]

theorem granuleWrites_fit {off n so dst : Nat} {x : Tensor} {s u : State} (row : OwnRow x n so dst) (desc : Claims.Granted s off 96)
    {w : Nat × List Byte} (hw : w ∈ granuleWrites off n so dst x u) : w.1 + w.2.length ≤ 2 ^ 21 := by
  obtain ⟨-, -, -, -, dstFits⟩ := row
  obtain ⟨fits, -⟩ := desc
  rcases List.mem_append.1 hw with run | done
  · obtain ⟨m, hm, rfl⟩ := List.mem_map.1 run
    obtain ⟨t, -, at_, -, within⟩ := granuleRuns_within hm
    have len : (m.write u).2.length = m.len := length_lmBytes ..
    have place : (m.write u).1 = m.dst := rfl
    omega
  · rw [List.mem_singleton.1 done, length_natBytes]
    omega

/-- The image once granule `x.next` has moved and its progress is written (R295, R296). -/
theorem granuleWrites_image (off n so dst : Nat) (x : Tensor) (u : State) (img : Nat → Byte) :
    (granuleWrites off n so dst x u).foldl overlay img = poke (fun o =>
      if dst + 4096 * x.next ≤ o ∧ o < dst + min (4096 * (x.next + 1)) n then ownByte u (so + (o - dst)) else img o)
        (off + 80) 8 (x.next + 1) := by
  rw [granuleWrites, List.foldl_append, granule_image]
  exact overlay_natBytes ..

theorem wrote_append (ws : List (Nat × List Byte)) (o : Nat) (bs : List Byte) (u : State) :
    wrote (ws ++ [(o, bs)]) u = setOwnLm (wrote ws u) o bs := List.foldl_append ..

section

variable {s u : State} {c c' : Copy} {x : Tensor} {off n so dst : Nat} (own : OwnEntry c' u) (row : OwnRow x n so dst)
  (way : Underway c s u) (entry : SameEntry c c')
include own row way entry

theorem moveGranule_writes (at_ : c.team = s.team.ref) (unkept : c'.kept = []) (desc : Claims.Granted u off 96)
    (from_ : Claims.Granted u so n) (to_ : Claims.Granted u dst n) (apart : so + n ≤ dst ∨ dst + n ≤ so) :
    ∃ v, moveGranule c' (localBase + off) x u = scheduleTensor c' { x with next := x.next + 1 } v ∧ Underway c s v ∧
      v.mem = (wrote (granuleWrites off n so dst x u) u).mem := by
  have moves := moveUnits_own own unkept (granuleRuns_granted from_ to_ x.next)
    ((List.range (x.next + 1)).flatMap (tensorUnits x))
  have now : (upFrom x.next (x.next + 1 - x.next)).flatMap (tensorUnits x) = (granuleRuns n so dst x.next).map OwnRun.unit := by
    rw [Nat.add_sub_cancel_left, ← tensorUnits_row row]
    simp [upFrom]
  have whole := wrote_eq (s := u) ((granuleRuns n so dst x.next).map (OwnRun.write u))
  rw [granuleWrites, wrote_append]
  obtain ⟨m, mem⟩ : ∃ m, (wrote ((granuleRuns n so dst x.next).map (OwnRun.write u)) u).mem = m := ⟨_, rfl⟩
  rw [mem] at whole
  rw [whole] at moves ⊢
  have after := underway_moves way m (u.free + 1)
  have put := putCopy_way after entry at_
  have writes : engineWrite c' false (localBase + off + 80) (natBytes 8 (x.next + 1)) (putCopy c' { u with mem := m, free := u.free + 1 }) =
      (none, setOwnLm (putCopy c' { u with mem := m, free := u.free + 1 }) (off + 80) (natBytes 8 (x.next + 1))) := by
    rw [put, Nat.add_assoc]
    refine engineWrite_own (s := changed c' { u with mem := m, free := u.free + 1 }) ⟨own.team, own.die, own.lcore⟩ false ?_
    exact granted_congr (granted_part desc (by omega) (by rw [length_natBytes]; omega)) rfl rfl rfl rfl rfl
  refine ⟨setOwnLm (putCopy c' { u with mem := m, free := u.free + 1 }) (off + 80) (natBytes 8 (x.next + 1)), ?_, ?_, ?_⟩
  · unfold moveGranule
    simp only [meets_row row own apart, Bool.false_and, Bool.false_eq_true, if_false, now, moves, writes]
  · exact underway_moves (underway_put after entry at_) _ _
  · rw [put]
    rfl

omit own row in
theorem scheduleTensor_put (at_ : c.team = s.team.ref) (listed : c.id ∈ s.core.copies.map (·.id)) :
    ∃ d, Underway c s (scheduleTensor c' x u) ∧ (scheduleTensor c' x u).mem = u.mem ∧ d ∈ (scheduleTensor c' x u).core.copies ∧
      d.id = c.id ∧ d.tensor = some x ∧ d.beats.isSome = true := by
  obtain ⟨d, put, same, id, tensor, beats⟩ : ∃ d : Copy, scheduleTensor c' x u = putCopy d u ∧ SameEntry c d ∧ d.id = c.id ∧
      d.tensor = some x ∧ d.beats.isSome = true :=
    ⟨_, rfl, ⟨entry.id, entry.wid, entry.team⟩, entry.id, rfl, rfl⟩
  rw [put]
  exact ⟨d, underway_put way same at_, putCopy_mem way same at_, mem_put way same at_ listed, id, tensor, beats⟩

end

end Sys2Proof.Laws
end

section
/-! SUPPORT. CPYL_PROGRESS moves a granule or ends the copy (R292, R295, R296), and O33. -/

namespace Sys2Proof.Laws

open Machine Claims

section

variable {s : State} {c : Copy} {x : Tensor} {off n so dst : Nat} (oldest : Oldest s c) (on : OnCore s)
  (kind : c.kind = .cpyl (localBase + off)) (tensor : c.tensor = some x) (row : OwnRow x n so dst) (desc : Claims.Granted s off 96)
include oldest kind tensor row

/-- The event moves a granule while one is left (R296). -/
theorem exec_cpylProgress_row : exec .cpylProgress s = .next (if n ≤ x.next * 4096 then
    endTensor (goesOn c) (localBase + off) (changed (goesOn c) s) else moveGranule (goesOn c) (localBase + off) x (changed (goesOn c) s)) := by
  obtain ⟨front, own, -⟩ := oldest_front oldest
  have first := behindCopy_oldest oldest
  have put : putCopy (goesOn c) s = changed (goesOn c) s := putCopy_eq own front
  have tensor' : (goesOn c).tensor = some x := tensor
  have last : x.granules ≤ x.next ↔ n ≤ x.next * 4096 := by
    rw [row_granules row]
    omega
  rw [exec_cpylProgress oldest kind, put]
  rw [put] at first
  unfold progressTensor
  rw [tensor']
  dsimp only
  rw [first, if_neg (by decide)]
  simp only [last]

include on desc

omit row tensor kind in
theorem goesOn_own : OwnEntry (goesOn c) (changed (goesOn c) s) ∧ Underway c s (changed (goesOn c) s) ∧
    Claims.Granted (changed (goesOn c) s) off 96 := by
  obtain ⟨die, lcore, -⟩ := on
  obtain ⟨front, own, -⟩ := oldest_front oldest
  have way := underway_goesOn oldest
  rw [show putCopy (goesOn c) s = changed (goesOn c) s from putCopy_eq own front] at way
  exact ⟨⟨own, die, lcore⟩, way, granted_congr desc rfl rfl rfl rfl rfl⟩

theorem cpyl_ends (past : n ≤ x.next * 4096) : ∃ t, exec .cpylProgress s = .next t ∧ SameRegs s.team t.team ∧
    LmBecomes s t (poke (ownByte s) (off + 88) 8 1) ∧ t.core.copies.map (·.id) = (s.core.copies.map (·.id)).filter (· ≠ c.id) ∧
    t.team.writes = s.team.writes.filter fun w => some w.id ≠ c.wid := by
  obtain ⟨own, way, desc'⟩ := goesOn_own oldest on desc
  obtain ⟨-, at_, -⟩ := oldest_front oldest
  have run := exec_cpylProgress_row oldest kind tensor row
  rw [if_pos past, endTensor_writes own desc'] at run
  obtain ⟨fits, -⟩ := desc
  have stored : LmBecomes s (wrote [(off + 88, natBytes 8 1)] (changed (goesOn c) s)) (overlay (ownByte s) (off + 88, natBytes 8 1)) :=
    lmBecomes_wrote (s := changed (goesOn c) s) fun w hw => by
      rw [List.mem_singleton.1 hw, length_natBytes]
      omega
  rw [overlay_natBytes] at stored
  have after : Underway c s (setOwnLm (changed (goesOn c) s) (off + 88) (natBytes 8 1)) := underway_moves way _ _
  obtain ⟨regs, ref, epochs, mem, ids, writes⟩ := underway_ends after (goesOn_same c) at_
  obtain ⟨ref', epochs', -⟩ := id stored
  exact ⟨_, run, regs, lmBecomes_congr stored (ref.trans ref'.symm) (epochs.trans epochs'.symm) mem, ids, writes⟩

theorem cpyl_moves (unkept : c.kept = []) (from_ : Claims.Granted s so n) (to_ : Claims.Granted s dst n)
    (apart : so + n ≤ dst ∨ dst + n ≤ so) (left : x.next * 4096 < n) :
    ∃ t d, exec .cpylProgress s = .next t ∧ SameRegs s.team t.team ∧
      LmBecomes s t (poke (fun o =>
        if dst + 4096 * x.next ≤ o ∧ o < dst + min (4096 * (x.next + 1)) n then ownByte s (so + (o - dst)) else ownByte s o)
          (off + 80) 8 (x.next + 1)) ∧
      d ∈ t.core.copies ∧ d.id = c.id ∧ d.tensor = some { x with next := x.next + 1 } ∧ d.beats.isSome = true := by
  obtain ⟨own, way, desc'⟩ := goesOn_own oldest on desc
  obtain ⟨-, at_, -⟩ := oldest_front oldest
  obtain ⟨v, moves, after, mem⟩ := moveGranule_writes own row way (goesOn_same c) at_ unkept desc'
    (granted_congr from_ rfl rfl rfl rfl rfl) (granted_congr to_ rfl rfl rfl rfl rfl) apart
  have run := exec_cpylProgress_row oldest kind tensor row
  rw [if_neg (by omega), moves] at run
  obtain ⟨d, goes, mem', listed, id_, next, beats⟩ := scheduleTensor_put (x := { x with next := x.next + 1 }) after (goesOn_same c) at_
    (oldest_listed oldest)
  have stored := lmBecomes_wrote (s := changed (goesOn c) s) (ws := granuleWrites off n so dst x (changed (goesOn c) s)) fun w hw =>
    granuleWrites_fit row desc hw
  rw [granuleWrites_image] at stored
  have stored' : LmBecomes s _ _ := stored
  obtain ⟨ref', epochs', -⟩ := id stored'
  exact ⟨_, d, run, goes.regs, lmBecomes_congr stored' (goes.ref.trans ref'.symm) (goes.epochs.trans epochs'.symm) (mem'.trans mem), listed,
    id_, next, beats⟩

end

/-- Settles O33: a copy within the own LM reads every run before it writes one, and a tensor copy's granule is such a list of runs,
followed by its progress. -/
theorem copiesMoveTheirBytes : Obligations.CopiesMoveTheirBytes := by
  refine ⟨?_, ?_⟩
  · intro s c dst src ds ss beats row srcOff dstOff oldest on start unkept kind dstOk srcOk dsOk ssOk each
    refine cpy_completes oldest on start unkept kind (copyFault_none kind dstOk srcOk dsOk ssOk)
      (cpyUnits_own fun b lt => ?_) fun b hb => ?_
    · obtain ⟨srcAt, -, dstAt, -⟩ := each b lt
      exact ⟨srcAt, dstAt⟩
    · obtain ⟨i, hi, rfl⟩ := List.mem_map.1 hb
      obtain ⟨-, from_, -, to_⟩ := each i (List.mem_range.1 hi)
      exact ⟨Nat.zero_lt_succ _, from_, to_⟩
  · intro s c x off so dst n oldest on unkept kind tensor _ desc shape srcAt dstAt from_ to_ apart
    have row : OwnRow x n so dst := ⟨shape, srcAt, dstAt, from_.1, to_.1⟩
    exact ⟨cpyl_moves oldest on kind tensor row desc unkept from_ to_ apart, cpyl_ends oldest on kind tensor row desc⟩

end Sys2Proof.Laws
end
